-- ==== Sys2Proof/Word.lean ====
section
/-!
DEFINITION. The widths the manual names (R3, R7, R106): a 64-bit word, a byte, global team ids, context
ids, package numbers, and the register-name fields of Tables 2.2, 2.4 and 2.5.
-/

namespace Sys2Proof

/-- A 64-bit doubleword (R7). -/
abbrev Word := BitVec 64

/-- One byte of memory. -/
abbrev Byte := BitVec 8

/-- A global team id (R3, Table 0.2). -/
abbrev Gid := BitVec 25

/-- A context id (R3). -/
abbrev CtxId := BitVec 16

/-- A package number, 0 to 4,095 (R3). -/
abbrev PkgNo := BitVec 12

/-- A scalar register name s0 to s31 (R67). -/
abbrev SReg := BitVec 5

/-- A guard name g0 to g7 (R67). -/
abbrev GReg := BitVec 3

/-- A tile name t0 to t63 (R67). -/
abbrev TReg := BitVec 6

/-- An accumulator name a0 to a15 (R67). -/
abbrev AReg := BitVec 4

/-- A scale register name e0 to e15 (R67). -/
abbrev EReg := BitVec 4

/-- A stream register name q0 to q7 (R67). -/
abbrev QReg := BitVec 3

/-- A shape handle, an index into the object table (R59). -/
abbrev Handle := BitVec 16

/-- A rounding-mode code of Table 1.4. -/
abbrev Rm := BitVec 3

/-- A scope code of Table 7.1. -/
abbrev ScopeCode := BitVec 3

end Sys2Proof
end

