-- ==== Sys2Proof/Machine/Num.lean ====
section
/-!
DEFINITION. Number formats, rounding, stochastic rounding, conversions, minimum and maximum (01_numbers.md, R11 to
R33). Values are decoded to exact ones, combined exactly, and rounded once by `rnd`.
-/

namespace Sys2Proof.Machine

/-! ### Exact values -/

/-- A floating-point value: a NaN (signalling or quiet), an infinity, or (-1)^neg * m * 2^e; m = 0 is a signed zero. -/
inductive FV where
  | nan (sig : Bool)
  | inf (neg : Bool)
  | fin (neg : Bool) (m : Nat) (e : Int)
deriving DecidableEq, Repr

/-- The sticky flags of one or more operations: FPST bits 8 to 13 (Table 1.7), and SATF in bit 63. -/
abbrev Flags := BitVec 64

/-- FPST.NV. -/
def flNV : Flags := 0x100
/-- FPST.DZ. -/
def flDZ : Flags := 0x200
/-- FPST.OF. -/
def flOF : Flags := 0x400
/-- FPST.UF. -/
def flUF : Flags := 0x800
/-- FPST.NX. -/
def flNX : Flags := 0x1000
/-- FPST.FMT. -/
def flFMT : Flags := 0x2000
/-- SATF.SAT. -/
def flSAT : Flags := 0x8000_0000_0000_0000

/-- A flag that is set when `b`. -/
def flIf (b : Bool) (f : Flags) : Flags := if b then f else 0

/-! ### Formats (Table 1.2, R19) -/

/-- How a format treats its all-ones exponent, and how a conversion to it overflows (R22, R27, R28). -/
inductive FKind where
  | ieee
  | e4m3
  | e5m2
  | e2m1
deriving DecidableEq, Repr

/-- A floating-point format: exponent bits, significand bits with the hidden one, bias, kind. -/
structure Fmt where
  eb : Nat
  p : Nat
  bias : Nat
  kind : FKind
deriving DecidableEq, Repr

def fp32 : Fmt := ⟨8, 24, 127, .ieee⟩
def fp16 : Fmt := ⟨5, 11, 15, .ieee⟩
def bf16 : Fmt := ⟨8, 8, 127, .ieee⟩
def e4m3 : Fmt := ⟨4, 4, 7, .e4m3⟩
def e5m2 : Fmt := ⟨5, 3, 15, .e5m2⟩
def e2m1 : Fmt := ⟨2, 2, 1, .e2m1⟩
def fa80 : Fmt := ⟨16, 64, 32767, .ieee⟩

/-- The exponent of the smallest normal. -/
def Fmt.emin (f : Fmt) : Int := 1 - f.bias

/-- The exponent of the last place of a subnormal. -/
def Fmt.qmin (f : Fmt) : Int := f.emin - (f.p - 1 : Nat)

/-- Whether the all-ones exponent is kept for infinities and NaNs. -/
def Fmt.hasInf (f : Fmt) : Bool := f.kind == .ieee || f.kind == .e5m2

/-- The largest exponent of a finite value. -/
def Fmt.emax (f : Fmt) : Int := (2 ^ f.eb - (if f.hasInf then 2 else 1) : Nat) - (f.bias : Int)

/-- The largest finite significand, with exponent `emax` at its top bit. -/
def Fmt.mmax (f : Fmt) : Nat := if f.kind == .e4m3 then 2 ^ f.p - 2 else 2 ^ f.p - 1

/-- The sign bit's place. -/
def Fmt.sbit (f : Fmt) : Nat := f.eb + f.p - 1

/-- The canonical quiet NaN (Table 1.3); FP4 has none and takes +0 (R28). -/
def Fmt.qnan (f : Fmt) : Nat :=
  match f.kind with
  | .ieee => (2 ^ f.eb - 1) * 2 ^ (f.p - 1) + 2 ^ (f.p - 2)
  | .e4m3 => 0x7F
  | .e5m2 => 0x7E
  | .e2m1 => 0

/-- The code of an infinity. -/
def Fmt.infCode (f : Fmt) (neg : Bool) : Nat :=
  (if neg then 2 ^ f.sbit else 0) + (2 ^ f.eb - 1) * 2 ^ (f.p - 1)

/-- The code of the largest finite value. -/
def Fmt.maxCode (f : Fmt) (neg : Bool) : Nat :=
  (if neg then 2 ^ f.sbit else 0) + (f.emax + f.bias).toNat * 2 ^ (f.p - 1) + (f.mmax - 2 ^ (f.p - 1))

/-- The value of a code (R14, R15). -/
def Fmt.dec (f : Fmt) (x : Nat) : FV :=
  let neg := x / 2 ^ f.sbit % 2 == 1
  let ex := x / 2 ^ (f.p - 1) % 2 ^ f.eb
  let fr := x % 2 ^ (f.p - 1)
  if f.hasInf && ex == 2 ^ f.eb - 1 then
    if fr == 0 then .inf neg else .nan (fr / 2 ^ (f.p - 2) == 0)
  else if f.kind == .e4m3 && ex == 15 && fr == 7 then .nan false
  else if ex == 0 then .fin neg fr f.qmin
  else .fin neg (2 ^ (f.p - 1) + fr) ((ex : Int) - f.bias - (f.p - 1 : Nat))

/-- The code of (-1)^neg * k * 2^q, which the format holds exactly. -/
def Fmt.enc (f : Fmt) (neg : Bool) (k : Nat) (q : Int) : Nat :=
  let s := if neg then 2 ^ f.sbit else 0
  if k < 2 ^ (f.p - 1) then s + k
  else
    let (k, q) := if k < 2 ^ f.p then (k, q) else (k / 2, q + 1)
    s + (q + (f.p - 1 : Nat) + f.bias).toNat * 2 ^ (f.p - 1) + (k - 2 ^ (f.p - 1))

/-! ### Rounding (R21 to R24) -/

/-- RNE. -/
def rmRNE : Rm := 0
/-- SR. -/
def rmSR : Rm := 5

/-- The mode an instruction rounds by: code 0b110 takes the captured FPST.DRM (R21). -/
def resolveRm (rm drm : Rm) : Rm := if rm = 6 then drm else rm

/-- Rounds m * 2^e (plus a positive remainder below its last place when `sticky`) to a multiple of 2^q: the multiple,
and whether the result is inexact. -/
def roundAt (mode : Rm) (neg : Bool) (v : Nat) (m : Nat) (e : Int) (sticky : Bool) (q : Int) : Nat × Bool :=
  if q ≤ e then (m * 2 ^ (e - q).toNat, sticky)
  else
    let sh := (q - e).toNat
    let k := m / 2 ^ sh
    let r := m % 2 ^ sh
    let half := 2 ^ (sh - 1)
    let inexact := r != 0 || sticky
    let up :=
      match mode.toNat with
      | 0 => decide (half < r) || (r == half && (sticky || k % 2 == 1))
      | 1 => false
      | 2 => neg && inexact
      | 3 => !neg && inexact
      | 4 => decide (half ≤ r)
      | _ => decide (2 ^ 16 ≤ (if 16 ≤ sh then r / 2 ^ (sh - 16) else r * 2 ^ (16 - sh)) + v)
    (if up then k + 1 else k, inexact)

/-- What a mode delivers past the largest finite value of a format with infinities (R22). -/
def overflowCode (f : Fmt) (mode : Rm) (neg : Bool) : Nat :=
  match mode.toNat with
  | 1 => f.maxCode neg
  | 2 => if neg then f.infCode true else f.maxCode false
  | 3 => if neg then f.maxCode true else f.infCode false
  | _ => f.infCode neg

/-- Whether k * 2^q exceeds the largest finite value. -/
def Fmt.exceeds (f : Fmt) (k : Nat) (q : Int) : Bool :=
  let qm := f.emax - (f.p - 1 : Nat)
  if q ≤ qm then decide (f.mmax * 2 ^ (qm - q).toNat < k) else decide (f.mmax < k * 2 ^ (q - qm).toNat)

/-- Rounds an exact finite value to a format (R21 to R24, R27, R28): the code and the flags. -/
def roundFin (f : Fmt) (nsat : Bool) (mode : Rm) (v : Nat) (neg : Bool) (m : Nat) (e : Int) (sticky : Bool) :
    Nat × Flags :=
  if m = 0 then (f.enc neg 0 f.qmin, 0)
  else
    let top := e + (Nat.log2 m : Int)
    let qu := top - (f.p - 1 : Nat)
    let q := max qu f.qmin
    let (k, inexact) := roundAt mode neg v m e sticky q
    if f.exceeds k q then
      (match f.kind with
       | .ieee => overflowCode f mode neg
       | .e4m3 | .e5m2 => if nsat then f.qnan else f.maxCode neg
       | .e2m1 => f.maxCode neg, flOF ||| flNX)
    else
      let (ku, _) := roundAt mode neg v m e sticky qu
      let tiny := decide (qu < f.qmin) && !(ku == 2 ^ f.p && top + 1 == f.emin)
      (f.enc neg k q, flIf inexact flNX ||| flIf (inexact && tiny) flUF)

/-- Rounds any exact value to a format: NaNs (R15, R26, R28), infinities (R27, R28) and finite values. -/
def roundV (f : Fmt) (nsat : Bool) (mode : Rm) (v : Nat) (x : FV) (sticky : Bool) : Nat × Flags :=
  match x with
  | .nan sig => (f.qnan, flIf (sig || f.kind == .e2m1) flNV)
  | .inf neg =>
    match f.kind with
    | .ieee | .e5m2 => (f.infCode neg, 0)
    | .e4m3 => if nsat then (f.qnan, flNV) else (f.maxCode neg, flOF ||| flNX)
    | .e2m1 => (f.maxCode neg, flOF ||| flNX)
  | .fin neg m e => roundFin f nsat mode v neg m e sticky

/-! ### Stochastic draws (R23) -/

/-- One step of the LFSR: the bit and the register. -/
def lfsrBit (l : BitVec 32) : Bool × BitVec 32 :=
  let b := l.getLsbD 0
  let l' := l >>> 1
  (b, if b then l' ^^^ 0x8020_0003 else l')

/-- `n` steps, the first bit most significant. -/
def lfsrBits : Nat → Nat → BitVec 32 → Nat × BitVec 32
  | 0, acc, l => (acc, l)
  | n + 1, acc, l =>
    let (b, l') := lfsrBit l
    lfsrBits n (2 * acc + if b then 1 else 0) l'

/-- A draw of 16 bits. -/
def lfsrDraw (l : BitVec 32) : Nat × BitVec 32 := lfsrBits 16 0 l

/-- The LFSR at placement (R23). -/
def lfsrSeed (seed : BitVec 32) (ordinal : Nat) : BitVec 32 :=
  let l := seed ^^^ BitVec.ofNat 32 ordinal
  if l = 0 then 1 else l

/-- A child's LFSR: the parent's bits reversed (R23, R251). -/
def lfsrFork (l : BitVec 32) : BitVec 32 :=
  let r := l.reverse
  if r = 0 then 1 else r

/-- What rounding threads through a computation: the LFSR and the flags so far. -/
structure Env where
  l : BitVec 32
  fl : Flags
deriving DecidableEq, Repr

/-- Sets flags. -/
def Env.flag (e : Env) (f : Flags) : Env := { e with fl := e.fl ||| f }

/-- The draw that a rounding takes under SR, whatever the value (R25). -/
def Env.draw (e : Env) (mode : Rm) : Nat × Env :=
  if mode = rmSR then
    let (v, l) := lfsrDraw e.l
    (v, { e with l := l })
  else (0, e)

/-- One rounding (R21): the draw, the code, the flags. -/
def rnd (f : Fmt) (nsat : Bool) (mode : Rm) (x : FV) (sticky : Bool) (env : Env) : Nat × Env :=
  let (v, env) := env.draw mode
  let (c, fl) := roundV f nsat mode v x sticky
  (c, env.flag fl)

/-! ### Exact arithmetic (R94, R22) -/

/-- (-1)^neg * m as an integer. -/
def signed (neg : Bool) (m : Nat) : Int := if neg then -(m : Int) else m

/-- Brings two finite values to one exponent. -/
def align2 (m1 : Nat) (e1 : Int) (m2 : Nat) (e2 : Int) : Nat × Nat × Int :=
  let e := min e1 e2
  (m1 * 2 ^ (e1 - e).toNat, m2 * 2 ^ (e2 - e).toNat, e)

/-- The sum of two finite values; an exact zero of opposite signs is +0, or -0 under RDN (R22). -/
def addFin (mode : Rm) (n1 : Bool) (m1 : Nat) (e1 : Int) (n2 : Bool) (m2 : Nat) (e2 : Int) : FV :=
  if m1 = 0 && m2 = 0 then .fin (if n1 = n2 then n1 else decide (mode = 2)) 0 e1
  else if m1 = 0 then .fin n2 m2 e2
  else if m2 = 0 then .fin n1 m1 e1
  else
    let (a, b, e) := align2 m1 e1 m2 e2
    let x := signed n1 a + signed n2 b
    if x = 0 then .fin (decide (mode = 2)) 0 e else .fin (decide (x < 0)) x.natAbs e

/-- Exact a + b with its special cases: the value and NV. -/
def fvAdd (mode : Rm) (a b : FV) : FV × Flags :=
  match a, b with
  | .nan s1, .nan s2 => (.nan false, flIf (s1 || s2) flNV)
  | .nan s, _ => (.nan false, flIf s flNV)
  | _, .nan s => (.nan false, flIf s flNV)
  | .inf n1, .inf n2 => if n1 = n2 then (.inf n1, 0) else (.nan false, flNV)
  | .inf n, _ => (.inf n, 0)
  | _, .inf n => (.inf n, 0)
  | .fin n1 m1 e1, .fin n2 m2 e2 => (addFin mode n1 m1 e1 n2 m2 e2, 0)

/-- The negated value; a NaN stays. -/
def fvNeg : FV → FV
  | .nan s => .nan s
  | .inf n => .inf (!n)
  | .fin n m e => .fin (!n) m e

/-- The magnitude; a NaN stays. -/
def fvAbs : FV → FV
  | .nan s => .nan s
  | .inf _ => .inf false
  | .fin _ m e => .fin false m e

/-- Exact a * b with its special cases. -/
def fvMul (a b : FV) : FV × Flags :=
  match a, b with
  | .nan s1, .nan s2 => (.nan false, flIf (s1 || s2) flNV)
  | .nan s, _ => (.nan false, flIf s flNV)
  | _, .nan s => (.nan false, flIf s flNV)
  | .inf n1, .inf n2 => (.inf (n1 != n2), 0)
  | .inf n1, .fin n2 m _ => if m = 0 then (.nan false, flNV) else (.inf (n1 != n2), 0)
  | .fin n1 m _, .inf n2 => if m = 0 then (.nan false, flNV) else (.inf (n1 != n2), 0)
  | .fin n1 m1 e1, .fin n2 m2 e2 => (.fin (n1 != n2) (m1 * m2) (e1 + e2), 0)

/-- Exact a * b + d with its special cases; infinity times zero sets NV whatever the addend (R94). -/
def fvFma (mode : Rm) (a b d : FV) : FV × Flags :=
  let (x, f1) := fvMul a b
  let (y, f2) := fvAdd mode x d
  (y, f1 ||| f2)

/-- Whether a value is a NaN. -/
def FV.isNan : FV → Bool
  | .nan _ => true
  | _ => false

/-- Whether a value is a signalling NaN. -/
def FV.isSig : FV → Bool
  | .nan s => s
  | _ => false

/-- Whether a value is an infinity. -/
def FV.isInf : FV → Bool
  | .inf _ => true
  | _ => false

/-- Whether a value is a zero. -/
def FV.isZero : FV → Bool
  | .fin _ 0 _ => true
  | _ => false

/-- The sign; of a NaN, none. -/
def FV.neg : FV → Bool
  | .nan _ => false
  | .inf n => n
  | .fin n _ _ => n

/-- Order of two values that are not NaN: -1, 0 or 1; zeros are equal. -/
def fvCmp (a b : FV) : Int :=
  match a, b with
  | .inf n1, .inf n2 => if n1 = n2 then 0 else if n1 then -1 else 1
  | .inf n, _ => if n then -1 else 1
  | _, .inf n => if n then 1 else -1
  | .fin n1 m1 e1, .fin n2 m2 e2 =>
    let (x, y, _) := align2 m1 e1 m2 e2
    let d := signed n1 x - signed n2 y
    if d = 0 then 0 else if d < 0 then -1 else 1
  | _, _ => 0

/-- `fmax` and `fmin` of R33 on codes of one format: the code and NV. -/
def fminmax (f : Fmt) (isMax : Bool) (a b : Nat) : Nat × Flags :=
  let x := f.dec a
  let y := f.dec b
  let fl := flIf (x.isSig || y.isSig) flNV
  if x.isNan && y.isNan then (f.qnan, fl)
  else if x.isNan then (b, fl)
  else if y.isNan then (a, fl)
  else if x.isZero && y.isZero then
    (if x.neg = y.neg then a else (if x.neg = isMax then b else a), fl)
  else
    let c := fvCmp x y
    (if isMax then (if c < 0 then b else a) else (if c > 0 then b else a), fl)

/-- MAXABS (R33). -/
def fmaxabs (f : Fmt) (a b : Nat) : Nat × Flags :=
  let clr := fun x => x % 2 ^ f.sbit
  let x := f.dec a
  let y := f.dec b
  let fl := flIf (x.isSig || y.isSig) flNV
  if x.isNan && y.isNan then (f.qnan, fl)
  else if x.isNan then (clr b, fl)
  else if y.isNan then (clr a, fl)
  else (if fvCmp (fvAbs x) (fvAbs y) < 0 then clr b else clr a, fl)

/-! ### Integers (R11, R29) -/

/-- The bounds of an integer type. -/
def intMin (bits : Nat) (sgn : Bool) : Int := if sgn then -(2 ^ (bits - 1) : Nat) else 0
def intMax (bits : Nat) (sgn : Bool) : Int := if sgn then (2 ^ (bits - 1) : Nat) - 1 else (2 ^ bits : Nat) - 1

/-- The value of the low `bits` bits. -/
def intOf (bits : Nat) (sgn : Bool) (x : Nat) : Int :=
  let y := x % 2 ^ bits
  if sgn && decide (2 ^ (bits - 1) ≤ y) then (y : Int) - (2 ^ bits : Nat) else y

/-- The low `bits` bits of an integer. -/
def intCode (bits : Nat) (x : Int) : Nat := (x % (2 ^ bits : Nat)).toNat

/-- Clamps to a range: the nearest bound, and whether it clamped. -/
def clampInt (lo hi x : Int) : Int × Bool := if x < lo then (lo, true) else if hi < x then (hi, true) else (x, false)

/-- Narrows an exact integer: the low bits, or with `sat` the nearest bound and SATF (R11). -/
def narrowInt (bits : Nat) (sgn sat : Bool) (x : Int) : Nat × Flags :=
  if sat then
    let (y, c) := clampInt (intMin bits sgn) (intMax bits sgn) x
    (intCode bits y, flIf c flSAT)
  else (intCode bits x, 0)

/-- A finite value rounded to an integer: the integer and whether it was inexact. -/
def roundInt (mode : Rm) (v : Nat) (neg : Bool) (m : Nat) (e : Int) : Int × Bool :=
  let (k, inexact) := roundAt mode neg v m e false 0
  (signed neg k, inexact)

/-- Floating point to integer (R29). -/
def fvToInt (bits : Nat) (sgn : Bool) (mode : Rm) (x : FV) (env : Env) : Nat × Env :=
  let (v, env) := env.draw mode
  match x with
  | .nan _ => (0, env.flag flNV)
  | .inf n => (intCode bits (if n then intMin bits sgn else intMax bits sgn), env.flag flNV)
  | .fin n m e =>
    let (k, inexact) := roundInt mode v n m e
    let (y, c) := clampInt (intMin bits sgn) (intMax bits sgn) k
    (intCode bits y, env.flag (if c then flNV else flIf inexact flNX))

/-- A trit code (Table 1.1). -/
def tritCode (x : Int) : Nat := if x = 0 then 0 else if x < 0 then 3 else 1

/-- Floating point to trit (R29). -/
def fvToTrit (mode : Rm) (x : FV) (env : Env) : Nat × Env :=
  let (v, env) := env.draw mode
  match x with
  | .nan _ => (0, env.flag flNV)
  | .inf n => (tritCode (if n then -1 else 1), env.flag flSAT)
  | .fin n m e =>
    let (k, inexact) := roundInt mode v n m e
    let (y, c) := clampInt (-1) 1 k
    (tritCode y, env.flag (flIf inexact flNX ||| flIf c flSAT))

/-- An integer as an exact value. -/
def fvOfInt (x : Int) : FV := .fin (decide (x < 0)) x.natAbs 0

/-! ### Element types (Table 2.15) -/

/-- What an element type is. -/
inductive EClass where
  | int (bits : Nat) (sgn : Bool)
  | trit
  | flt (f : Fmt)
  | e8m0
deriving DecidableEq, Repr

/-- The class of an ETYPE code; reserved codes have none (R60). -/
def eclass (c : BitVec 5) : Option EClass :=
  match c.toNat with
  | 0x00 => some (.int 4 true)
  | 0x01 => some (.int 8 true)
  | 0x02 => some (.int 16 true)
  | 0x03 => some (.int 32 true)
  | 0x04 => some (.int 64 true)
  | 0x05 => some (.int 4 false)
  | 0x06 => some (.int 8 false)
  | 0x07 => some (.int 16 false)
  | 0x08 => some (.int 32 false)
  | 0x09 => some (.int 64 false)
  | 0x0A => some .trit
  | 0x0B => some (.flt e2m1)
  | 0x0C => some (.flt e4m3)
  | 0x0D => some (.flt e5m2)
  | 0x0E => some (.flt fp16)
  | 0x0F => some (.flt bf16)
  | 0x10 => some (.flt fp32)
  | 0x11 => some .e8m0
  | _ => none

/-- The bit width of an element class. -/
def EClass.bits : EClass → Nat
  | .int b _ => b
  | .trit => 2
  | .flt f => f.eb + f.p
  | .e8m0 => 8

/-- The bit width of an element type. -/
def ebits (c : BitVec 5) : Nat :=
  match eclass c with
  | some k => k.bits
  | none => 8

/-- The value of a trit code; code 0b10 reads 0 and sets FMT (R12). -/
def tritVal (x : Nat) : Int × Flags :=
  match x % 4 with
  | 0 => (0, 0)
  | 1 => (1, 0)
  | 3 => (-1, 0)
  | _ => (0, flFMT)

/-- The value of an E8M0 code (R16). -/
def e8m0Val (x : Nat) : FV := if x % 256 = 255 then .nan false else .fin false 1 ((x % 256 : Nat) - 127)

/-- An element's value: an integer or a floating-point one. -/
inductive EVal where
  | int (x : Int)
  | flt (x : FV)
deriving DecidableEq, Repr

/-- Reads an element code. -/
def readElem (k : EClass) (x : Nat) : EVal × Flags :=
  match k with
  | .int b s => (.int (intOf b s x), 0)
  | .trit => let (v, f) := tritVal x; (.int v, f)
  | .flt f => (.flt (f.dec (x % 2 ^ (f.eb + f.p))), 0)
  | .e8m0 => (.flt (e8m0Val x), 0)

/-- Converts a value to an element type (R26 to R30, R173): integer to integer keeps the low bits, or clamps with
`sat`; integer to trit clamps. Nothing converts to E8M0 here. -/
def convElem (k : EClass) (mode : Rm) (nsat sat : Bool) (x : EVal) (env : Env) : Nat × Env :=
  match k, x with
  | .int b s, .int v => let (c, f) := narrowInt b s sat v; (c, env.flag f)
  | .int b s, .flt v => fvToInt b s mode v env
  | .trit, .int v => let (y, c) := clampInt (-1) 1 v; (tritCode y, env.flag (flIf c flSAT))
  | .trit, .flt v => fvToTrit mode v env
  | .flt f, .int v => rnd f nsat mode (fvOfInt v) false env
  | .flt f, .flt v => rnd f nsat mode v false env
  | .e8m0, _ => (0xFF, env)

end Sys2Proof.Machine
end

