-- ==== Sys2Proof/Syntax.lean ====
section
/-!
DEFINITION. The steps of the part: one constructor per row of spec/opcode_table.json. Program instructions carry
the operands of their encoding tables; hardware, firmware and host steps carry what the outside decides (which
team, which cores, which data).
-/

namespace Sys2Proof

/-- Operand b of a scalar instruction (R120): a register, or a 32-bit immediate that is sign-extended. -/
inductive Opd where
  | reg (r : SReg)
  | imm (v : BitVec 32)
deriving DecidableEq, Repr

/-- Sub-function bits W, S and U of ops 0x001 to 0x00E (Table 4.6). -/
structure AluMode where
  w : Bool
  s : Bool
  u : Bool
deriving DecidableEq, Repr

/-- A tile source and its chain bit (R150, Table 2.5). -/
structure Src where
  t : TReg
  chain : Bool
deriving DecidableEq, Repr

/-- The three forms of LEA (R129). -/
inductive LeaForm where
  | index (sa sb : SReg) (n : BitVec 3)
  | base (sa : SReg) (imm : BitVec 32)
  | label (imm : BitVec 32)
deriving DecidableEq, Repr

/-- The two forms of CALL (R132). -/
inductive CallTarget where
  | label (off : BitVec 32)
  | reg (sa : SReg)
deriving DecidableEq, Repr

/-- The step operand of REDUCE, SCAN and TRDS (R179): a lane function (B = 0) or a built-in (B = 1). -/
inductive StepFn where
  | fn (i : BitVec 8)
  | builtin (c : BitVec 8)
deriving DecidableEq, Repr

/-- The word format of a hint (R55). -/
inductive HintFmt where
  | s
  | t
  | x
deriving DecidableEq, Repr

/-- The final conversion of a lane result (R178): rounding code, NSAT and S. -/
structure Conv where
  rm : Rm
  nsat : Bool
  s : Bool
deriving DecidableEq, Repr

/-- The wildcard bits of a receive (Tables 9.4, 9.5, 16.2). -/
structure Wild where
  anySrc : Bool
  anyTag : Bool
deriving DecidableEq, Repr

/-- Where a host access lands: device memory of a package through BAR2 (R381), or the host's own memory. -/
inductive HostTarget where
  | dev (pkg : PkgNo) (pa : BitVec 40)
  | host (addr : BitVec 52)
deriving DecidableEq, Repr

/-- A unit whose failure the manual lists (Tables 9.7, 11.9, 12.6, 13.7, 14.6, 16.8). -/
inductive HwUnit where
  | core (die clu : Bool) (y : BitVec 4) (x : BitVec 5)
  | leaf (die clu : Bool)
  | stack (n : BitVec 4)
  | peer (pkg : PkgNo)
deriving DecidableEq, Repr

/-- Where an uncorrectable error strikes (R222, Tables 9.7, 11.9, 12.6 and 16.8). -/
inductive ErrorSite where
  /-- Data in memory that a reader has yet to read. -/
  | unread (key : Nat)
  /-- A dirty line of an L2, or one found after its reader's fault point. -/
  | written (key : Nat)
  /-- A cellar line that holds written data. -/
  | cellar (key : Nat)
  /-- A resident window table of a context. -/
  | window (ctx : CtxId)
  /-- A sync register at its home. -/
  | sync (phys : Nat)
  /-- A TLB entry or a mirror: it is fetched again. -/
  | cached
  /-- A cask or a run that holds keys of a region of a context. -/
  | press (ctx : CtxId) (handle : Nat)
  /-- A residue of a region of a context. -/
  | residue (ctx : CtxId) (handle : Nat)
  /-- An entry of a vintage table of a context. -/
  | vintage (ctx : CtxId) (handle : Nat)
  /-- A vintage counter of a context, or the engine's state that serves it (R345). -/
  | engine (ctx : CtxId)
  /-- A message, a queue entry, a frame or exchange data of a team, or its registers. -/
  | team (gid : Gid)
deriving DecidableEq, Repr

/-- A physical position of a cluster mesh (R234). -/
structure Position where
  die : Bool
  clu : Bool
  y : BitVec 4
  x : BitVec 5
deriving DecidableEq, Repr

/-- A route-fixup record of an image (Table 2.18), with the host-path location of its first doubleword, then of each further
4 KiB page of what it patches, and the contexts launched from the image (R79). -/
structure RouteFixup where
  ctxs : List CtxId
  locs : List HostTarget
  count : BitVec 32
  kind : BitVec 4
  abs : Bool
  tgt : BitVec 16
deriving DecidableEq, Repr

/-- The steps of the SZ2, one constructor per row of spec/opcode_table.json. -/
inductive Instr where
  -- scalar space (Table 2.8)
  | nop
  | hint (fmt : HintFmt) (op : BitVec 4) (rest : BitVec 48)
  | add (m : AluMode) (sd sa : SReg) (b : Opd)
  | sub (m : AluMode) (sd sa : SReg) (b : Opd)
  | mul (m : AluMode) (sd sa : SReg) (b : Opd)
  | mulh (m : AluMode) (sd sa : SReg) (b : Opd)
  | div (m : AluMode) (sd sa : SReg) (b : Opd)
  | rem (m : AluMode) (sd sa : SReg) (b : Opd)
  | and (m : AluMode) (sd sa : SReg) (b : Opd)
  | or (m : AluMode) (sd sa : SReg) (b : Opd)
  | xor (m : AluMode) (sd sa : SReg) (b : Opd)
  | shl (m : AluMode) (sd sa : SReg) (b : Opd)
  | shr (m : AluMode) (sd sa : SReg) (b : Opd)
  | sra (m : AluMode) (sd sa : SReg) (b : Opd)
  | min (m : AluMode) (sd sa : SReg) (b : Opd)
  | max (m : AluMode) (sd sa : SReg) (b : Opd)
  | clz (w : Bool) (sd sa : SReg)
  | ctz (w : Bool) (sd sa : SReg)
  | popc (w : Bool) (sd sa : SReg)
  | sel (k : GReg) (sd sa : SReg) (b : Opd)
  | cmp (cc : BitVec 3) (cb : BitVec 2) (gk : GReg) (sa : SReg) (b : Opd)
  | gop (op : BitVec 3) (gd ga gb : GReg)
  | lea (sd : SReg) (form : LeaForm)
  | ld (z : BitVec 2) (u : Bool) (sd sa : SReg) (b : Opd)
  | st (z : BitVec 2) (sd sa : SReg) (b : Opd)
  | storePerform (gid : Gid)
  | ldff (z : BitVec 2) (u : Bool) (sd sa : SReg) (b : Opd)
  | bqpop (sd : SReg)
  | mfs (sd : SReg) (n : BitVec 5)
  | mts (n : BitVec 5) (sa : SReg)
  | li (sd : SReg) (imm : BitVec 32)
  | liX (sd : SReg) (lit : Word)
  | lih (sd : SReg) (imm : BitVec 32)
  | br (off : BitVec 32)
  | jmp (sa : SReg) (imm : BitVec 32)
  | call (sd : SReg) (tgt : CallTarget)
  | ret (sa : SReg)
  | loop (sd : SReg) (off : BitVec 32)
  | drain (upd copy tiq : Bool)
  | yield (sd : SReg) (off : BitVec 32)
  | exit (sd : SReg)
  | shapeSet (sd : SReg)
  | shapeInv (sd : SReg)
  | yieldDone (sd : SReg)
  | regionSet (sd : SReg)
  | regionRel (sd : SReg)
  | regionStat (sd : SReg)
  | vntSet (sd : SReg)
  | vntRel (sd : SReg)
  | vntInv (sd : SReg)
  | svcUnassigned (sd : SReg) (n : BitVec 16)
  | trap (code : BitVec 16)
  | brk (code : BitVec 16)
  -- the block sequencer
  | tiqAccept (gid : Gid)
  | microOperationIssue (gid : Gid)
  | tileInstructionCompletion (gid : Gid)
  -- tile space (Table 2.9)
  | tadd (s : Bool) (rm : Rm) (td : TReg) (ta tb : Src)
  | tsub (s : Bool) (rm : Rm) (td : TReg) (ta tb : Src)
  | tmul (s : Bool) (rm : Rm) (td : TReg) (ta tb : Src)
  | tfma (s : Bool) (rm : Rm) (td : TReg) (ta tb : Src)
  | tmax (td : TReg) (ta tb : Src)
  | tmin (td : TReg) (ta tb : Src)
  | tcmp (cc : BitVec 3) (td : TReg) (ta tb : Src)
  | tsel (td : TReg) (ta tb : Src)
  | tmov (td : TReg) (ta : Src)
  | tcvt (rm : Rm) (nsat s : Bool) (td : TReg) (ta : Src)
  | tld (td : TReg) (h : Handle) (sx : SReg)
  | tst (ta : TReg) (h : Handle) (sx : SReg)
  | tldff (td : TReg) (h : Handle) (sx : SReg)
  | ttrn (td : TReg) (ta : Src)
  | tdecl (td : TReg) (h : Handle)
  | trel (td : TReg)
  | text (ta : Src)
  | tgth (unordered : Bool) (kind : BitVec 2) (td : TReg) (ti : Src) (h : Handle) (sx : SReg)
  | tsct (kind : BitVec 2) (ta ti : Src) (h : Handle) (sx : SReg)
  | tcopy (tag : BitVec 4) (h : Handle) (sd ss : SReg)
  | tcopyStr (q : QReg) (h : Handle) (ss : SReg)
  | copyCompletion (gid : Gid)
  | twait (all : Bool) (tag : BitVec 4)
  | qbind (q : QReg) (t : TReg)
  | qrel (q : QReg)
  | tfill (td : TReg) (sa : SReg)
  | tiota (td : TReg) (sa sb : SReg)
  | tslide (dir : BitVec 2) (fill : Option Src) (td : TReg) (ta : Src) (n : BitVec 6)
  | tpack (td : TReg) (ta : Src)
  | tunpk (td : TReg) (ta : Src)
  | tqnt (rm : Rm) (nsat : Bool) (td : TReg) (ta : Src)
  | tdqt (rm : Rm) (scale : Option EReg) (td : TReg) (ta : Src)
  | map (cv : Conv) (cnt : BitVec 2) (td : TReg) (ta tb : Src) (sa sb : SReg) (fn : BitVec 8)
  | reduce (col two : Bool) (cv : Conv) (td : TReg) (ta tb : Src) (sa sb : SReg) (fn : StepFn)
  | scan (col two : Bool) (cv : Conv) (td : TReg) (ta tb : Src) (sa sb : SReg) (fn : StepFn)
  | trds (two : Bool) (rm : Rm) (ta tb : Src) (sa sb : SReg) (fn : StepFn)
  -- matrix and core engines (R52)
  | ldb (dims : Option SReg) (ta : Src) (so : SReg)
  | ldbm (dims : Option SReg) (h : Handle) (sx so : SReg)
  | mma (f : BitVec 2) (ad : AReg) (ta : Src) (ss sp : SReg) (en : Option EReg)
  | mmam (f : BitVec 2) (ad : AReg) (h : Handle) (ss sx sp : SReg) (en : Option EReg)
  | mmat (ad : AReg) (ta : Src) (ss sp : SReg)
  | aclr (int : Bool) (ad : AReg)
  | ard (clr : Bool) (cv : Conv) (td : TReg) (as : AReg) (sw sx : SReg) (en : Option EReg)
  | awr (add : Bool) (ad : AReg) (ta : Src) (sw : SReg)
  | amaxa (acc : Bool) (td : TReg) (as : AReg) (sw : SReg)
  | tscl (tgt gc : BitVec 2) (en : EReg) (ta : Src)
  | route (td tc : TReg) (ti : Src) (se : SReg)
  | ablk (fp8 causal : Bool) (td : TReg) (ta : Src) (ss sp : SReg) (k : BitVec 8)
  | iwalk (td tc : TReg) (tm : Src) (ss sx : SReg)
  -- cluster (Table 2.10)
  | send (k : GReg) (sr sp : SReg) (team : BitVec 3) (tag : BitVec 16)
  | sendt (k : GReg) (ta : Src) (sr : SReg) (team : BitVec 3) (tag : BitVec 16)
  | messageDelivery (gid : Gid)
  | recv (w : Wild) (sd sm : SReg) (tag : BitVec 16)
  | recvt (w : Wild) (td : TReg) (sm : SReg) (tag : BitVec 16)
  | probe (tile : Bool) (w : Wild) (k : GReg) (sm : SReg) (tag : BitVec 16)
  | bar (n : BitVec 3)
  | barrierCompletion (gid : Gid)
  | claim (scope : ScopeCode) (sd sa sb : SReg)
  | fork (k : GReg) (sd : SReg) (off : BitVec 32)
  | join (sp : SReg)
  | spawn (k : GReg) (sa : SReg) (off : BitVec 32)
  | take (k : GReg) (sd : SReg)
  | launch (sd sa sb : SReg)
  -- die
  | syncTas (scope : ScopeCode) (sd sa sb : SReg)
  | syncFadd (scope : ScopeCode) (sd sa sb : SReg)
  | syncWait (cc scope : BitVec 3) (sd sa sb : SReg)
  | syncLd (scope : ScopeCode) (sd sa : SReg)
  | syncSt (scope : ScopeCode) (sa sb : SReg)
  | mirror (pkg : PkgNo)
  | pref (l1 : Bool) (sa : SReg) (len : Opd)
  | evict (kind : BitVec 2) (sa : SReg) (len : Opd)
  | winq (sd sa : SReg) (b : Opd)
  -- the Press
  | upd (strict : Bool) (ti tv : Src) (rh : BitVec 10)
  | upds (strict : Bool) (sv si : SReg) (rh : BitVec 10)
  | handOff (gid : Gid)
  | backgroundRacking (pkg : PkgNo) (stack : BitVec 4) (ctx : CtxId)
  | rack (rh : BitVec 10) (sa sb : SReg)
  | rackr (sd sa : SReg) (rh : BitVec 10)
  -- the vintage cache
  | vntq (k : GReg) (h : Handle) (sb st : SReg)
  | vntw (h : Handle) (sb st : SReg)
  | vntc (c : BitVec 2) (clr : Bool) (sd : SReg)
  -- the fabric
  | fsend (k : GReg) (sa sl : SReg) (tgt : BitVec 13) (tag : BitVec 16) (route : Word)
  | fabricMessageDelivery (gid : Gid)
  | frecv (w : Wild) (sd sm : SReg) (tag : BitVec 16)
  | fgth (kind : BitVec 2) (td ti : TReg) (h : Handle) (sx : SReg)
  | allx (n : BitVec 3) (td ta : TReg) (sr sc : SReg)
  | exchangeClose (gid : Gid)
  | fbar (n : BitVec 3)
  | fabricBarrierCompletion (gid : Gid)
  -- system space (R54)
  | phase (scope : ScopeCode)
  | cfence (fromPath toPath : BitVec 3)
  | amo (op : BitVec 5) (d : Bool) (scope : ScopeCode) (sd sa sb : SReg)
  | cas (d : Bool) (scope : ScopeCode) (sd sa sb : SReg)
  | eret (sd sa : SReg)
  | ctxs (sd sa sb : SReg)
  | ctxl (sd sa sb : SReg)
  -- faults and pre-emption
  | fault (gid : Gid)
  | faultRecordPost (pkg : PkgNo) (ctx : CtxId)
  | faultCompletion (pkg : PkgNo) (ctx : CtxId) (seq : BitVec 32)
  | walkTimeout (gid : Gid)
  | preemptionRequest (gid : Gid)
  | preemptionWithdrawal (gid : Gid)
  | forcedSave (gid : Gid)
  | resumption (uid : Nat) (newGid : Gid)
  -- scheduling
  | queuePop (pkg : PkgNo) (q : BitVec 6)
  | groupPlacement (launch inst : Nat) (cores : List Gid)
  | instancePlacement (launch : Nat) (die : Bool)
  | steal (launch : Nat) (die : Bool)
  | launchCompletion (launch : Nat)
  | gangSliceStart (launch : Nat)
  | ready (launch : Nat) (pkg : PkgNo) (cores : List Gid)
  | start (launch : Nat) (pkg : PkgNo)
  | abort (launch : Nat) (pkg : PkgNo)
  -- host commands (Table 18.4)
  | ctxCreate (pkg : PkgNo)
  | ctxEnd (pkg : PkgNo)
  | queueOpen (pkg : PkgNo)
  | queueReset (pkg : PkgNo)
  | cancel (pkg : PkgNo)
  | cancelClr (pkg : PkgNo)
  | tlbInv (pkg : PkgNo)
  | winSet (pkg : PkgNo)
  | fwStage (pkg : PkgNo)
  | fwActivate (pkg : PkgNo)
  | hostSvc (pkg : PkgNo)
  -- the device register block and the host path
  | rsvW2Write (pkg : PkgNo) (die : Bool) (n : BitVec 4) (v : Word)
  | commit (pkg : PkgNo)
  | registerWrite (pkg : PkgNo) (off : BitVec 16) (v : Word)
  | hostRead (tgt : HostTarget) (n : Nat)
  | hostWrite (tgt : HostTarget) (bytes : List Byte)
  -- firmware, identity and power
  | boot (pkg : PkgNo)
  | trialTimeout (pkg : PkgNo)
  | watchdog (pkg : PkgNo)
  | getMeasurements (pkg : PkgNo)
  | negotiateAlgorithms (pkg : PkgNo) (falcon1024 shake256 : Bool)
  | retirement (pkg : PkgNo) (pos : Position)
  | routeFixupPass (pkg : PkgNo) (fixups : List RouteFixup)
  | portDown (pkg : PkgNo) (port : BitVec 4)
  | portRetire (pkg : PkgNo) (port : BitVec 4)
  | portTraining (pkg : PkgNo) (port : BitVec 4) (peer : PkgNo) (peerPort : BitVec 4) (up comp : Bool)
  | flitReplay (pkg : PkgNo) (port : Option (BitVec 4))
  | d2dLinkFailure (pkg : PkgNo)
  | softError (pkg : PkgNo) (unit : Nat)
  | uncorrectableError (pkg : PkgNo) (site : ErrorSite)
  | unitFailure (pkg : PkgNo) (unit : HwUnit)
  | supplySag (pkg : PkgNo) (die : Bool)
  | clockReturn (pkg : PkgNo) (die : Bool)
  | junction105 (pkg : PkgNo)
  | junction115 (pkg : PkgNo)
  | standby (pkg : PkgNo)
  | wake (pkg : PkgNo)
  | copyRow (gid : Gid)
  | junctionBelow100 (pkg : PkgNo)
  | hostAttachmentFailure (pkg : PkgNo)
  | d2dLinkTraining (pkg : PkgNo)
  | unknownCommandCode (pkg : PkgNo)
deriving DecidableEq, Repr

end Sys2Proof
end

