-- ==== Sys2Proof/Machine/Flags.lean ====
section
/-!
DEFINITION. The scalar computations and their flags: the ALU of R123 with SATF, counts (R124), compare conditions
and combines (R126), guard operations (R127), and the new values of atomics (Table 7.4).
-/

namespace Sys2Proof.Machine

/-- The operations of R123. -/
inductive AluOp where
  | add
  | sub
  | mul
  | mulh
  | div
  | rem
  | and
  | or
  | xor
  | shl
  | shr
  | sra
  | min
  | max
deriving DecidableEq, Repr

/-- The operation on integers read in the mode's way (R123), before saturation; `n` is the width. -/
def aluInt (op : AluOp) (n : Nat) (sgn : Bool) (a b : Word) : Int :=
  let ia := intOf n sgn a.toNat
  let ib := intOf n sgn b.toNat
  let na := a.toNat % 2 ^ n
  let sh := b.toNat % n
  match op with
  | .add => ia + ib
  | .sub => ia - ib
  | .mul => ia * ib
  | .mulh => (ia * ib) / (2 ^ n : Nat)
  | .div => if ib = 0 then -1 else Int.tdiv ia ib
  | .rem => if ib = 0 then ia else ia - ib * Int.tdiv ia ib
  | .min => if ia ≤ ib then ia else ib
  | .max => if ia ≥ ib then ia else ib
  | .and => (na &&& b.toNat % 2 ^ n : Nat)
  | .or => (na ||| b.toNat % 2 ^ n : Nat)
  | .xor => (na ^^^ b.toNat % 2 ^ n : Nat)
  | .shl => (na * 2 ^ sh : Nat)
  | .shr => (na / 2 ^ sh : Nat)
  | .sra => intOf n true a.toNat / (2 ^ sh : Nat)

/-- ext of R123: 64 bits from the low `n`, zero-extended when unsigned, else sign-extended. -/
def extBits (n : Nat) (unsigned : Bool) (x : Nat) : Word := BitVec.ofInt 64 (intOf n (!unsigned) x)

/-- The result of an ALU operation and whether SATF is set (R123). -/
def alu (op : AluOp) (m : AluMode) (a b : Word) : Word × Bool :=
  let n := if m.w then 32 else 64
  let sgn := !m.u
  let x := aluInt op n sgn a b
  let (y, c) := if m.s then clampInt (intMin n sgn) (intMax n sgn) x else (x, false)
  (extBits n m.u (intCode n y), c)

/-- Trailing zeros of the low bits, `n` for zero. -/
def ctzNat : Nat → Nat → Nat
  | 0, _ => 0
  | n + 1, a => if a % 2 = 1 then 0 else 1 + ctzNat n (a / 2)

/-- Leading zeros of the low `n` bits: counts down from the top bit. -/
def clzBits : Nat → Nat → Nat
  | 0, _ => 0
  | n + 1, a => if a / 2 ^ n % 2 = 1 then 0 else 1 + clzBits n a

/-- Set bits of the low `n` bits. -/
def popBits : Nat → Nat → Nat
  | 0, _ => 0
  | n + 1, a => a % 2 + popBits n (a / 2)

/-- The width of a counting instruction. -/
def cntWidth (w : Bool) : Nat := if w then 32 else 64

/-- A CMP condition (Table 4.7). -/
def cmpCond (cc : BitVec 3) (a b : Word) : Bool :=
  match cc.toNat with
  | 0 => a == b
  | 1 => a != b
  | 2 => a.slt b
  | 3 => a.sle b
  | 4 => b.slt a
  | 5 => b.sle a
  | 6 => a.ult b
  | _ => b.ule a

/-- The combine of a CMP (R126). -/
def cmpCombine (cb : BitVec 2) (old c : Bool) : Bool :=
  match cb.toNat with
  | 0 => c
  | 1 => old && c
  | 2 => old || c
  | _ => old && !c

/-- A guard operation (R127). -/
def gopVal (op : BitVec 3) (a b : Bool) : Bool :=
  match op.toNat with
  | 0 => a && b
  | 1 => a || b
  | 2 => a != b
  | 3 => a && !b
  | 4 => a || !b
  | 5 => !(a && b)
  | 6 => !(a || b)
  | _ => a == b

/-- The new value of an AMO on `n` bits, and the flags (Table 7.4). -/
def amoVal (op : Nat) (n : Nat) (old b : Nat) : Nat × Flags :=
  match op with
  | 0 => (b, 0)
  | 1 => ((old + b) % 2 ^ n, 0)
  | 2 => (old &&& b, 0)
  | 3 => (old ||| b, 0)
  | 4 => (old ^^^ b, 0)
  | 5 => (if intOf n true old ≤ intOf n true b then old else b, 0)
  | 6 => (if intOf n true old ≥ intOf n true b then old else b, 0)
  | 7 => (Nat.min old b, 0)
  | 8 => (Nat.max old b, 0)
  | 9 =>
    let (x, f1) := fvAdd 0 (fp32.dec old) (fp32.dec b)
    let (c, f2) := roundV fp32 false 0 0 x false
    (c, f1 ||| f2)
  | 10 => fminmax fp32 false old b
  | _ => fminmax fp32 true old b

end Sys2Proof.Machine
end

