-- ==== Sys2Proof/Machine/Func.lean ====
section
/-!
DEFINITION. Division and the four functions of R95 on exact values. Quotients and roots are exact with a sticky
remainder; VEXP2 and VLOG2 are computed in fixed point with 320 fraction bits, and an inexact result is marked sticky
(log 11).
-/

namespace Sys2Proof.Machine

/-- floor(sqrt x), bit by bit from bit `n - 1` of the root down. -/
def isqrtGo : Nat → Nat → Nat → Nat
  | 0, _, r => r
  | n + 1, x, r =>
    let c := r + 2 ^ n
    isqrtGo n x (if c * c ≤ x then c else r)

/-- floor(sqrt x). -/
def isqrt (x : Nat) : Nat := isqrtGo (Nat.log2 x / 2 + 1) x 0

/-- Exact quotient of finite values with m2 not 0: significand, exponent, sticky. -/
def divFin (m1 : Nat) (e1 : Int) (m2 : Nat) (e2 : Int) : Nat × Int × Bool :=
  let sh := 80 + Nat.log2 m2
  let a := m1 * 2 ^ sh
  (a / m2, e1 - e2 - sh, a % m2 != 0)

/-- VDIV (R95, Table 3.6): value, sticky, flags. -/
def fvDiv (a b : FV) : FV × Bool × Flags :=
  match a, b with
  | .nan s1, .nan s2 => (.nan false, false, flIf (s1 || s2) flNV)
  | .nan s, _ => (.nan false, false, flIf s flNV)
  | _, .nan s => (.nan false, false, flIf s flNV)
  | .inf _, .inf _ => (.nan false, false, flNV)
  | .inf n1, .fin n2 _ _ => (.inf (n1 != n2), false, 0)
  | .fin n1 _ _, .inf n2 => (.fin (n1 != n2) 0 0, false, 0)
  | .fin n1 m1 e1, .fin n2 m2 e2 =>
    if m2 = 0 then (if m1 = 0 then (.nan false, false, flNV) else (.inf (n1 != n2), false, flDZ))
    else
      let (q, e, st) := divFin m1 e1 m2 e2
      (.fin (n1 != n2) q e, st, 0)

/-- Makes an exponent even. -/
def evenExp (m : Nat) (e : Int) : Nat × Int := if e % 2 = 0 then (m, e) else (2 * m, e - 1)

/-- VSQRT (R95, Table 3.6). -/
def fvSqrt (a : FV) : FV × Bool × Flags :=
  match a with
  | .nan s => (.nan false, false, flIf s flNV)
  | .inf n => if n then (.nan false, false, flNV) else (.inf false, false, 0)
  | .fin n m e =>
    if m = 0 then (.fin n 0 0, false, 0)
    else if n then (.nan false, false, flNV)
    else
      let (m, e) := evenExp m e
      let x := m * 2 ^ 120
      let r := isqrt x
      (.fin false r (e / 2 - 60), r * r != x, 0)

/-- VRSQ (R95, Table 3.6). -/
def fvRsq (a : FV) : FV × Bool × Flags :=
  match a with
  | .nan s => (.nan false, false, flIf s flNV)
  | .inf n => if n then (.nan false, false, flNV) else (.fin false 0 0, false, 0)
  | .fin n m e =>
    if m = 0 then (.inf n, false, flDZ)
    else if n then (.nan false, false, flNV)
    else
      let (m, e) := evenExp m e
      let h := 80 + Nat.log2 m
      let r := isqrt (2 ^ (2 * h) / m)
      (.fin false r (-(e / 2) - h), r * r * m != 2 ^ (2 * h), 0)

/-- Fraction bits of the fixed-point functions. -/
def fxBits : Nat := 320

/-- floor(ln 2 * 2^320). -/
def fxLn2 : Nat := 0xb17217f7d1cf79abc9e3b39803f2f6af40f343267298b62d8a0d175b8baafa2be7b876206debac98

/-- Taylor terms y^n / n! from n = k on, `t` the term before. -/
def expGo (y : Nat) : Nat → Nat → Nat → Nat
  | 0, _, _ => 0
  | n + 1, k, t =>
    let t' := t * y / (2 ^ fxBits * k)
    t' + expGo y n (k + 1) t'

/-- e^y for 0 ≤ y < 1, in fixed point. -/
def fxExp (y : Nat) : Nat := 2 ^ fxBits + expGo y 70 1 (2 ^ fxBits)

/-- VEXP2 (R95): 2^a. -/
def fvExp2 (a : FV) : FV × Bool × Flags :=
  match a with
  | .nan s => (.nan false, false, flIf s flNV)
  | .inf n => (if n then .fin false 0 0 else .inf false, false, 0)
  | .fin n m e =>
    if m = 0 then (.fin false 1 0, false, 0)
    else if 0 ≤ e then
      -- an integer: exact; beyond 2^12 in magnitude the result is past every bound
      let x := if e ≤ 12 then min (m * 2 ^ e.toNat) 4096 else 4096
      (.fin false 1 (signed n x), false, 0)
    else
      let f := m * 2 ^ (fxBits - (min (-e) (fxBits : Int)).toNat)
      let ip := f / 2 ^ fxBits
      let fr := f % 2 ^ fxBits
      if ip ≥ 4096 then (.fin false 1 (if n then -4096 else 4096), fr != 0, 0)
      else if fr = 0 then (.fin false 1 (signed n ip), false, 0)
      else
        let (ip, fr) : Int × Nat := if n then (-(ip : Int) - 1, 2 ^ fxBits - fr) else ((ip : Int), fr)
        (.fin false (fxExp (fr * fxLn2 / 2 ^ fxBits)) (ip - fxBits), true, 0)

/-- Terms z^(2k+1) / (2k+1) of atanh, `t` the present power. -/
def atanhGo (z2 : Nat) : Nat → Nat → Nat → Nat
  | 0, _, _ => 0
  | n + 1, k, t => t / k + atanhGo z2 n (k + 2) (t * z2 / 2 ^ fxBits)

/-- ln f for 1 ≤ f < 2, in fixed point. -/
def fxLn (f : Nat) : Nat :=
  let z := (f - 2 ^ fxBits) * 2 ^ fxBits / (f + 2 ^ fxBits)
  2 * atanhGo (z * z / 2 ^ fxBits) 110 1 z

/-- VLOG2 (R95). -/
def fvLog2 (a : FV) : FV × Bool × Flags :=
  match a with
  | .nan s => (.nan false, false, flIf s flNV)
  | .inf n => if n then (.nan false, false, flNV) else (.inf false, false, 0)
  | .fin n m e =>
    if m = 0 then (.inf true, false, flDZ)
    else if n then (.nan false, false, flNV)
    else
      let b := Nat.log2 m
      let ex : Int := e + b
      if m = 2 ^ b then (.fin (decide (ex < 0)) ex.natAbs 0, false, 0)
      else
        let lg := fxLn (m * 2 ^ (fxBits - b)) * 2 ^ fxBits / fxLn2
        let x : Int := ex * (2 ^ fxBits : Nat) + lg
        (.fin (decide (x < 0)) x.natAbs (-fxBits), true, 0)

end Sys2Proof.Machine
end

