-- ==== Sys2Proof/Machine/Lane.lean ====
section
/-!
DEFINITION. Lane functions (03_lane.md, R80 to R105): the lane words, the checks of Table 3.8 that depend on the
words, the invocations of one row in lockstep (R84, R89), and the REDUCE and SCAN trees (R37, R38).
-/

namespace Sys2Proof.Machine

/-- A lane word's fields (Table 2.6). -/
structure LWord where
  lop : Nat
  vd : BitVec 5
  va : BitVec 5
  vb : BitVec 5
  msel : BitVec 2
  f : BitVec 9
deriving DecidableEq, Repr

/-- The fields of a 32-bit lane word. -/
def lword (w : BitVec 32) : LWord :=
  { lop := (w.extractLsb' 26 6).toNat, vd := w.extractLsb' 21 5, va := w.extractLsb' 16 5, vb := w.extractLsb' 11 5,
    msel := w.extractLsb' 9 2, f := w.extractLsb' 0 9 }

/-- The lane type IMMF[8:6] (Table 3.4). -/
def LWord.ty (w : LWord) : Nat := (w.f.extractLsb' 6 3).toNat
/-- The rounding code IMMF[5:3] (R91). -/
def LWord.rm (w : LWord) : Rm := w.f.extractLsb' 3 3
/-- IMMF[5]. -/
def LWord.i (w : LWord) : Bool := w.f.getLsbD 5
/-- IMMF[4:0]. -/
def LWord.n (w : LWord) : Nat := (w.f.extractLsb' 0 5).toNat
/-- IMMF[5:0]. -/
def LWord.lo6 (w : LWord) : Nat := (w.f.extractLsb' 0 6).toNat
/-- IMMF[2:0]. -/
def LWord.lo3 (w : LWord) : Nat := (w.f.extractLsb' 0 3).toNat
/-- IMMF[1:0]. -/
def LWord.lo2 (w : LWord) : Nat := (w.f.extractLsb' 0 2).toNat

/-- A float lane type (Table 3.4). -/
def tyFloat (t : Nat) : Bool := t == 2 || t == 5 || t == 6
/-- An integer lane type. -/
def tyInt (t : Nat) : Bool := t == 0 || t == 1 || t == 3 || t == 4
/-- A packed lane type. -/
def tyPacked (t : Nat) : Bool := t == 3 || t == 4 || t == 5 || t == 6
/-- A signed lane type. -/
def tySigned (t : Nat) : Bool := t == 0 || t == 3
/-- The format of a float lane type. -/
def tyFmt (t : Nat) : Fmt := if t == 2 then fp32 else if t == 5 then fp16 else bf16

/-- A rounding code allowed for a type (R91): any but 0b111 for float types, 0b000 for integer types. -/
def laneRmOk (t : Nat) (rm : Rm) : Bool := if tyFloat t then rm != 7 else rm == 0

/-- What invokes the lane function: operand count, REDUCE or SCAN, packed mode. -/
structure LaneCtx where
  nops : Nat
  red : Bool
  pk : Bool
deriving DecidableEq, Repr

/-- Whether a word writes the v register VD (Table 3.5). -/
def LWord.writesV (w : LWord) : Bool :=
  !(w.lop == 0x1A || w.lop == 0x28 || w.lop == 0x29 || (w.lop == 0x1C && w.lo2 == 2))

/-- A mask destination: VD[4:2] zero, not m0. -/
def LWord.maskDst (w : LWord) : Bool := w.vd.extractLsb' 2 3 == 0 && w.vd.extractLsb' 0 2 != 0

/-- Field use of one word (Table 3.5, R93 to R104). That a shift of either packed type takes no immediate above 15, VRSHR.u16x2
among them, for which R98 names i16x2 alone, is the model's choice (log 112); so is that a shift or VFSH with I = 0 has zero in
IMMF[4:0], which it does not use (R47). -/
def LWord.fieldsOk (c : LaneCtx) (w : LWord) : Bool :=
  let t := w.ty
  let shiftOk := if w.i then w.vb == 0 && (!tyPacked t || decide (w.n ≤ 15)) else w.n == 0
  match w.lop with
  | 0x01 | 0x02 | 0x03 | 0x04 => decide (t ≤ 6) && laneRmOk t w.rm && w.lo3 == 0
  | 0x05 => t == 2 && laneRmOk t w.rm && w.lo3 == 0
  | 0x06 | 0x07 | 0x08 | 0x09 => t == 2 && laneRmOk t w.rm && w.lo3 == 0 && w.vb == 0
  | 0x0A | 0x0B | 0x0E => decide (t ≤ 6) && w.lo6 == 0
  | 0x0C | 0x0D => decide (t ≤ 6) && w.lo6 == 0 && w.vb == 0
  | 0x0F =>
    decide (t ≤ 2) && decide (w.lo3 ≤ 2) && (t != w.lo3 || t == 2) && w.vb == 0 &&
      (if t == 2 || w.lo3 == 2 then w.rm != 7 else w.rm == 0)
  | 0x10 | 0x11 | 0x12 => w.f == 0
  | 0x13 => w.f == 0 && w.vb == 0
  | 0x14 | 0x15 | 0x16 => (t == 0 || t == 3) && shiftOk
  | 0x17 => t == 0 && (w.i || w.n == 0)
  | 0x18 | 0x19 => (t == 0 || t == 3) && w.lo6 == 0 && w.vb == 0
  | 0x1A => decide (t ≤ 2) && !w.i && w.maskDst
  | 0x1B => w.f == 0
  | 0x1C =>
    w.f.extractLsb' 2 7 == 0 && w.vb == 0 &&
      (w.lo2 == 0 || (w.lo2 == 1 && w.va.extractLsb' 2 3 == 0) || (w.lo2 == 2 && w.maskDst))
  | 0x1D => !w.f.getLsbD 8 && decide ((w.f.extractLsb' 6 2).toNat ≤ 2)
  | 0x1E => t == 3 && w.f.extractLsb' 1 5 == 0
  | 0x1F | 0x20 => tyInt t && w.lo6 == 0
  | 0x21 => tyInt t && shiftOk
  | 0x22 => w.f.extractLsb' 4 5 == 0 && w.f.extractLsb' 1 2 != 3 && (!w.f.getLsbD 3 || c.pk)
  | 0x23 => w.f.extractLsb' 2 7 == 0 && w.va == 0 && w.vb == 0 && decide (w.lo2 < c.nops)
  | 0x24 => w.f.extractLsb' 2 7 == 0 && w.va == 0 && w.vb == 0 && decide (w.lo2 ≤ 2)
  | 0x25 => tyPacked t && laneRmOk t w.rm && w.f.extractLsb' 1 2 == 0 && (!tyFloat t || !w.f.getLsbD 0)
  | 0x26 => tyPacked t && w.f.extractLsb' 1 5 == 0 && w.vb == 0
  | 0x27 => decide (t ≤ 2) && w.lo6 == 0 && decide (w.vb.toNat < 28)
  | 0x28 => w.f.extractLsb' 6 3 == 0 && w.lo6 != 0 && w.vd == 0 && w.va == 0 && w.vb == 0
  | 0x29 => decide (t ≤ 6) && w.lo6 == 0 && w.vd == 0 && w.vb == 0
  | _ => false

/-- Check 4 of Table 3.8 for one word. -/
def LWord.ok4 (c : LaneCtx) (w : LWord) : Bool :=
  w.fieldsOk c && (!w.writesV || decide (w.vd.toNat < 28))

/-- The position of the first VRED. -/
def vredPos (ws : List LWord) : Option Nat := ws.findIdx? (fun w => w.lop == 0x27)

/-- Check 5 of Table 3.8 for the word at position `p`. When VRED and VRET differ in type, the position is the VRET's, which
R105 leaves open (log 94). -/
def LWord.ok5 (c : LaneCtx) (ws : List LWord) (p : Nat) (w : LWord) : Bool :=
  let last := ws.length - 1
  let rp := vredPos ws
  let afterRed := match rp with
    | some r => decide (r < p)
    | none => false
  let retOk :=
    if w.lop == 0x29 then
      p == last && w.msel == 0 && tyPacked w.ty == c.pk &&
        (match rp with
         | some r => (match ws[r]? with
           | some x => x.ty == w.ty
           | none => true)
         | none => true)
    else p != last
  let redOk := w.lop != 0x27 || (c.red && rp == some p)
  let argOk := !(afterRed && (w.lop == 0x23 || w.lop == 0x24 || w.lop == 0x22))
  let skipOk :=
    w.lop != 0x28 || (decide (p + w.lo6 < last) &&
      ws.zipIdx.all (fun xq => !(xq.1.lop == 0x27 && decide (p < xq.2) && decide (xq.2 ≤ p + w.lo6))))
  retOk && redOk && argOk && skipOk

/-- Checks 4 and 5 of Table 3.8: the failing position, 64 for the whole function. That a word which breaks check 5 gives the
position before a missing VRED does is the model's choice (R105 ranks neither; log 111). -/
def laneCheck (c : LaneCtx) (ws : List LWord) : Option Nat :=
  match ws.findIdx? (fun w => !w.ok4 c) with
  | some p => some p
  | none =>
    match (ws.zipIdx).find? (fun wp => !wp.1.ok5 c ws wp.2) with
    | some (_, p) => some p
    | none => if c.red && vredPos ws == none then some 64 else none

/-! ### Invocations -/

/-- The state of one invocation (Table 3.2): v0 to v31, the masks, the last position a VSKIP covers, the source
operands in lane form with the flags of their delivery, the coordinates, and whether a packed high half lies in the extent. -/
structure LInv where
  v : Vector (BitVec 32) 32
  m : BitVec 4
  skipTo : Nat
  args : List (BitVec 32 × Flags)
  row : Nat
  col : Nat
  hi : Bool
deriving DecidableEq, Repr

/-- The state at the start of an invocation (R82). -/
def LInv.start (a0 a1 : Word) (args : List (BitVec 32 × Flags)) (row col : Nat) (hi : Bool) : LInv :=
  { v := ((((Vector.replicate 32 (0 : BitVec 32)).set 28 (a0.extractLsb' 0 32)).set 29 (a0.extractLsb' 32 32)).set 30
      (a1.extractLsb' 0 32)).set 31 (a1.extractLsb' 32 32),
    m := 1, skipTo := 0, args, row, col, hi }

/-- What every word of one instruction shares: FPST.DRM, EXTC. -/
structure LaneEnv where
  drm : Rm
  extc : Nat
deriving DecidableEq, Repr

/-- Applies `f` to the two 16-bit halves, low first; the high half's flags and draws count only when it lies in the
extent (R83). -/
def halves (hi : Bool) (env : Env) (f : Nat → Env → Nat × Env) : BitVec 32 × Env :=
  let (a, env) := f 0 env
  let (b, env') := f 1 env
  (BitVec.ofNat 32 (b % 65536 * 65536 + a % 65536), if hi then env' else env)

/-- Half `h` of a 32-bit value. -/
def half (h : Nat) (x : BitVec 32) : Nat := if h = 0 then x.toNat % 65536 else x.toNat / 65536

/-- Runs a per-value operation on a lane type: once on 32 bits or on both halves. `k` gets the width and the operands. -/
def perLane (t : Nat) (hi : Bool) (a b d : BitVec 32) (env : Env) (k : Nat → Nat → Nat → Nat → Env → Nat × Env) :
    BitVec 32 × Env :=
  if tyPacked t then halves hi env (fun h e => k 16 (half h a) (half h b) (half h d) e)
  else
    let (x, env) := k 32 a.toNat b.toNat d.toNat env
    (BitVec.ofNat 32 x, env)

/-- VADD, VSUB, VMUL and VFMA on one value (R94); op 0 to 3. -/
def laneArith (op : Nat) (t : Nat) (mode : Rm) (w a b d : Nat) (env : Env) : Nat × Env :=
  if tyFloat t then
    let f := tyFmt t
    let x := f.dec a
    let y := f.dec b
    let (z, fl) := match op with
      | 0 => fvAdd mode x y
      | 1 => fvAdd mode x (fvNeg y)
      | 2 => fvMul x y
      | _ => fvFma mode x y (f.dec d)
    rnd f false mode z false (env.flag fl)
  else
    let s := tySigned t
    let x := intOf w s a
    let y := intOf w s b
    (intCode w (match op with
      | 0 => x + y
      | 1 => x - y
      | 2 => x * y
      | _ => x * y + intOf w s d), env)

/-- VDIV, VSQRT, VRSQ, VEXP2, VLOG2 (R95). -/
def laneFunc (lop : Nat) (mode : Rm) (a b : BitVec 32) (env : Env) : BitVec 32 × Env :=
  let x := fp32.dec a.toNat
  let (v, st, fl) := match lop with
    | 0x05 => fvDiv x (fp32.dec b.toNat)
    | 0x06 => fvSqrt x
    | 0x07 => fvRsq x
    | 0x08 => fvExp2 x
    | _ => fvLog2 x
  let (c, env) := rnd fp32 false mode v st (env.flag fl)
  (BitVec.ofNat 32 c, env)

/-- Minimum and maximum on one value (R96). -/
def laneMinMax (isMax : Bool) (t w a b : Nat) (env : Env) : Nat × Env :=
  if tyFloat t then
    let (c, fl) := fminmax (tyFmt t) isMax a b
    (c, env.flag fl)
  else
    let x := intOf w (tySigned t) a
    let y := intOf w (tySigned t) b
    (if isMax then (if x ≥ y then a else b) else (if x ≤ y then a else b), env)

/-- VABS and VNEG on one value (R96). -/
def laneSign (neg : Bool) (t w a : Nat) (env : Env) : Nat × Env :=
  if tyFloat t then
    let f := tyFmt t
    let x := f.dec a
    if x.isNan then (f.qnan, env.flag (flIf x.isSig flNV))
    else if neg then ((a + 2 ^ f.sbit) % 2 ^ (f.sbit + 1), env) else (a % 2 ^ f.sbit, env)
  else if neg then (intCode w (-(intOf w true a)), env)
  else if tySigned t then (intCode w ((intOf w true a).natAbs : Int), env)
  else (a, env)

/-- VCVT (R97). -/
def laneCvt (s d : Nat) (mode : Rm) (a : BitVec 32) (env : Env) : BitVec 32 × Env :=
  if s == 2 then
    let x := fp32.dec a.toNat
    if d == 2 then
      let (v, env) := env.draw mode
      match x with
      | .fin n m e =>
        if 0 ≤ e then (a, env)
        else
          let (k, inexact) := roundAt mode n v m e false 0
          (BitVec.ofNat 32 (roundFin fp32 false 0 0 n k 0 false).1, env.flag (flIf inexact flNX))
      | .nan sg => (BitVec.ofNat 32 fp32.qnan, env.flag (flIf sg flNV))
      | .inf _ => (a, env)
    else
      let (c, env) := fvToInt 32 (d == 0) mode x env
      (BitVec.ofNat 32 c, env)
  else
    let x := intOf 32 (s == 0) a.toNat
    if d == 2 then
      let (c, env) := rnd fp32 false mode (fvOfInt x) false env
      (BitVec.ofNat 32 c, env)
    else
      let (c, fl) := narrowInt 32 (d == 0) true x
      (BitVec.ofNat 32 c, env.flag fl)

/-- VSHL, VSHR and VSRA on one value by `n` (R98). -/
def laneShift (lop w a n : Nat) : Nat :=
  match lop with
  | 0x14 => a * 2 ^ n % 2 ^ w
  | 0x15 => a / 2 ^ n
  | _ => intCode w (intOf w true a / (2 ^ n : Nat))

/-- Leading zeros of a value of `w` bits. -/
def clzNat (w a : Nat) : Nat := if a = 0 then w else w - 1 - Nat.log2 a

/-- Set bits of the low `n` bits. -/
def popNat : Nat → Nat → Nat
  | 0, _ => 0
  | n + 1, a => a % 2 + popNat n (a / 2)

/-- VADDS, VSUBS on one value (R101). -/
def laneSat (isSub : Bool) (t w a b : Nat) (env : Env) : Nat × Env :=
  let s := tySigned t
  let x := intOf w s a
  let y := intOf w s b
  let (c, fl) := narrowInt w s true (if isSub then x - y else x + y)
  (c, env.flag fl)

/-- VRSHR on one value (R101). -/
def laneRshr (t w a n : Nat) : Nat :=
  if n = 0 then a
  else intCode w ((intOf w (tySigned t) a + (2 ^ (n - 1) : Nat)) / (2 ^ n : Nat))

/-- A VCMP condition (Table 3.7). -/
def laneCond (cc t : Nat) (a b : BitVec 32) : Bool × Flags :=
  if t == 2 then
    let x := fp32.dec a.toNat
    let y := fp32.dec b.toNat
    let uno := x.isNan || y.isNan
    let c := fvCmp x y
    let r := match cc with
      | 0 => !uno && c == 0
      | 1 => uno || c != 0
      | 2 => !uno && decide (c < 0)
      | 3 => !uno && decide (c ≤ 0)
      | 4 => !uno && decide (c > 0)
      | 5 => !uno && decide (c ≥ 0)
      | 6 => uno
      | _ => !uno
    (r, flIf (x.isSig || y.isSig) flNV)
  else
    let x := intOf 32 (t == 0) a.toNat
    let y := intOf 32 (t == 0) b.toNat
    (match cc with
      | 0 => x == y
      | 1 => x != y
      | 2 => decide (x < y)
      | 3 => decide (x ≤ y)
      | 4 => decide (x > y)
      | 5 => decide (x ≥ y)
      | 6 => false
      | _ => true, 0)

/-- The combine code of a compare (R99, R126). -/
def combine (cb : Nat) (old c : Bool) : Bool :=
  match cb with
  | 0 => c
  | 1 => old && c
  | 2 => old || c
  | _ => old && !c

/-- The imm16 of VLI (R100). -/
def vliImm (w : LWord) : BitVec 16 := w.va ++ w.vb ++ w.f.extractLsb' 0 6

/-- VSLIDE (R102): `nb` is the neighbour's value of va, none outside the extent. -/
def laneSlide (w : LWord) (own vb : BitVec 32) (nb : Option (BitVec 32)) : BitVec 32 :=
  let x := match nb with
    | some y => y
    | none => match (w.f.extractLsb' 1 2).toNat with
      | 0 => 0
      | 1 => own
      | _ => vb
  if !w.f.getLsbD 3 then x
  else if !w.f.getLsbD 0 then own.extractLsb' 0 16 ++ x.extractLsb' 16 16
  else x.extractLsb' 0 16 ++ own.extractLsb' 16 16

/-- VPACK (R103). -/
def lanePack (w : LWord) (mode : Rm) (hi : Bool) (a b : BitVec 32) (env : Env) : BitVec 32 × Env :=
  let t := w.ty
  halves hi env (fun h env =>
    let x := if h = 0 then a else b
    if tyFloat t then rnd (tyFmt t) false mode (fp32.dec x.toNat) false env
    else
      let (c, fl) := narrowInt 16 (tySigned t) (w.f.getLsbD 0) (intOf 32 (tySigned t) x.toNat)
      (c, env.flag fl))

/-- VUNPK (R103). -/
def laneUnpk (w : LWord) (hi : Bool) (a : BitVec 32) (env : Env) : BitVec 32 × Env :=
  let h := if w.f.getLsbD 0 then 1 else 0
  let x := half h a
  let t := w.ty
  if tyFloat t then
    let (c, env') := rnd fp32 false 0 ((tyFmt t).dec x) false env
    (BitVec.ofNat 32 c, if h = 1 && !hi then env else env')
  else (BitVec.ofNat 32 (intCode 32 (intOf 16 (tySigned t) x)), env)

/-- VDOT2 (R101). -/
def laneDot2 (w : LWord) (a b d : BitVec 32) (env : Env) : BitVec 32 × Env :=
  let p := fun h => intOf 16 true (half h a) * intOf 16 true (half h b)
  let (c, fl) := narrowInt 32 true (w.f.getLsbD 0) (intOf 32 true d.toNat + p 0 + p 1)
  (BitVec.ofNat 32 c, env.flag fl)

/-- One lane word of one invocation (R94 to R104); `nb` is what VSLIDE reads beside it. -/
def laneWord (le : LaneEnv) (w : LWord) (pos : Nat) (nb : Option (BitVec 32)) (x : LInv) (env : Env) : LInv × Env :=
  let mk := x.m.getLsbD w.msel.toNat
  let vr := fun (r : BitVec 5) => x.v.get r.toFin
  let a := vr w.va
  let b := vr w.vb
  let d := vr w.vd
  let t := w.ty
  let mode := resolveRm w.rm le.drm
  let wr := fun (r : BitVec 32 × Env) => ({ x with v := x.v.set w.vd.toFin r.1 }, r.2)
  let pure := fun (y : BitVec 32) => ({ x with v := x.v.set w.vd.toFin y }, env)
  if pos < x.skipTo then (x, env)
  else if w.lop == 0x1B then pure (if mk then a else b)
  else if w.lop == 0x27 || w.lop == 0x29 then (x, env)
  else if !mk then (x, env)
  else
    match w.lop with
    | 0x01 => wr (perLane t x.hi a b d env (laneArith 0 t mode))
    | 0x02 => wr (perLane t x.hi a b d env (laneArith 1 t mode))
    | 0x03 => wr (perLane t x.hi a b d env (laneArith 2 t mode))
    | 0x04 => wr (perLane t x.hi a b d env (laneArith 3 t mode))
    | 0x05 | 0x06 | 0x07 | 0x08 | 0x09 => wr (laneFunc w.lop mode a b env)
    | 0x0A => wr (perLane t x.hi a b d env (fun w a b _ e => laneMinMax false t w a b e))
    | 0x0B => wr (perLane t x.hi a b d env (fun w a b _ e => laneMinMax true t w a b e))
    | 0x0C => wr (perLane t x.hi a b d env (fun w a _ _ e => laneSign false t w a e))
    | 0x0D => wr (perLane t x.hi a b d env (fun w a _ _ e => laneSign true t w a e))
    | 0x0E => wr (perLane t x.hi a b d env (fun w a b d e =>
        let (y, e) := laneMinMax true t w a b e
        laneMinMax false t w y d e))
    | 0x0F => wr (laneCvt t w.lo3 mode a env)
    | 0x10 => pure (a &&& b)
    | 0x11 => pure (a ||| b)
    | 0x12 => pure (a ^^^ b)
    | 0x13 => pure (~~~a)
    | 0x14 | 0x15 | 0x16 =>
      wr (perLane t x.hi a b d env (fun wd a b _ e =>
        (laneShift w.lop wd a (if w.i then w.n else b % wd), e)))
    | 0x17 =>
      let n := if w.i then w.n else d.toNat % 32
      pure (BitVec.ofNat 32 ((a.toNat * 2 ^ 32 + b.toNat) / 2 ^ n))
    | 0x18 => wr (perLane t x.hi a b d env (fun wd a _ _ e => (clzNat wd a, e)))
    | 0x19 => wr (perLane t x.hi a b d env (fun wd a _ _ e => (popNat wd a, e)))
    | 0x1A =>
      let (c, fl) := laneCond w.lo3 t a b
      let k := (w.vd.extractLsb' 0 2).toNat
      ({ x with m := if combine (w.f.extractLsb' 3 2).toNat (x.m.getLsbD k) c then x.m ||| BitVec.twoPow 4 k
          else x.m &&& ~~~ BitVec.twoPow 4 k }, env.flag fl)
    | 0x1C =>
      if w.lo2 == 0 then pure a
      else if w.lo2 == 1 then pure (if x.m.getLsbD (w.va.extractLsb' 0 2).toNat then 1 else 0)
      else
        let k := (w.vd.extractLsb' 0 2).toNat
        ({ x with m := if a != 0 then x.m ||| BitVec.twoPow 4 k else x.m &&& ~~~ BitVec.twoPow 4 k }, env)
    | 0x1D =>
      let i := vliImm w
      pure (match (w.f.extractLsb' 6 2).toNat with
        | 0 => i.signExtend 32
        | 1 => i.zeroExtend 32
        | _ => i ++ d.extractLsb' 0 16)
    | 0x1E => wr (laneDot2 w a b d env)
    | 0x1F => wr (perLane t x.hi a b d env (fun w a b _ e => laneSat false t w a b e))
    | 0x20 => wr (perLane t x.hi a b d env (fun w a b _ e => laneSat true t w a b e))
    | 0x21 => wr (perLane t x.hi a b d env (fun wd a b _ e => (laneRshr t wd a (if w.i then w.n else b % wd), e)))
    | 0x22 => pure (laneSlide w a b nb)
    | 0x23 => wr ((x.args.getD w.lo2 (0, 0)).1, env.flag (x.args.getD w.lo2 (0, 0)).2)
    | 0x24 => pure (BitVec.ofNat 32 (match w.lo2 with
        | 0 => x.row
        | 1 => x.col
        | _ => x.row * le.extc + x.col))
    | 0x25 => wr (lanePack w mode x.hi a b env)
    | 0x26 => wr (laneUnpk w x.hi a env)
    | 0x28 => ({ x with skipTo := pos + 1 + w.lo6 }, env)
    | _ => (x, env)

/-- One lane word across a row, in column order; `prev` is the left neighbour as it stood before the word. -/
def laneRowWord (le : LaneEnv) (w : LWord) (pos : Nat) : Option LInv → List LInv → Env → List LInv × Env
  | _, [], env => ([], env)
  | prev, x :: xs, env =>
    let nbInv := if w.f.getLsbD 0 then xs.head? else prev
    let (x', env) := laneWord le w pos (nbInv.map (fun y => y.v.get w.va.toFin)) x env
    let (xs', env) := laneRowWord le w pos (some x) xs env
    (x' :: xs', env)

/-- Runs lane words from position `pos` on, in lockstep over a row (R84, R89). -/
def laneRun (le : LaneEnv) : List LWord → Nat → List LInv → Env → List LInv × Env
  | [], _, row, env => (row, env)
  | w :: ws, pos, row, env =>
    let (row, env) := laneRowWord le w pos none row env
    laneRun le ws (pos + 1) row env

/-- The register that VRET names, and its type; the checks place it last. -/
def laneRet (ws : List LWord) : BitVec 5 × Nat :=
  match ws.getLast? with
  | some w => (w.va, w.ty)
  | none => (0, 0)

/-- Reads a register of an invocation. -/
def LInv.reg (x : LInv) (r : BitVec 5) : BitVec 32 := x.v.get r.toFin

/-! ### Trees (R37, R38) -/

/-- A two-operand step; an absent operand passes the other unchanged (R37). -/
def stepOpt {α σ : Type} (f : α → α → σ → α × σ) (a b : Option α) (st : σ) : Option α × σ :=
  match a, b with
  | some x, some y => let (z, st) := f x y st; (some z, st)
  | some x, none => (some x, st)
  | none, b => (b, st)

/-- One level of a group's tree: pairs (0,1), (2,3) and so on. -/
def treeLevel {α σ : Type} (f : α → α → σ → α × σ) : List (Option α) → σ → List (Option α) × σ
  | a :: b :: xs, st =>
    let (z, st) := stepOpt f a b st
    let (zs, st) := treeLevel f xs st
    (z :: zs, st)
  | xs, st => (xs, st)

/-- The nodes of a group by level, level 0 first. -/
def treeNodes {α σ : Type} (f : α → α → σ → α × σ) : Nat → List (Option α) → σ → List (List (Option α)) × σ
  | 0, xs, st => ([xs], st)
  | n + 1, xs, st =>
    let (ys, st) := treeLevel f xs st
    let (rest, st) := treeNodes f n ys st
    (xs :: rest, st)

/-- Splits a line into groups of 16 lanes, absent beyond its end; `n` bounds the groups. -/
def groups16 {α : Type} : Nat → List α → List (List (Option α))
  | 0, _ => []
  | _, [] => []
  | n + 1, xs =>
    ((xs.take 16).map some ++ List.replicate (16 - (xs.take 16).length) none) :: groups16 n (xs.drop 16)

/-- The trees of every group of a line, in group order. -/
def lineTrees {α σ : Type} (f : α → α → σ → α × σ) : List (List (Option α)) → σ → List (List (List (Option α))) × σ
  | [], st => ([], st)
  | g :: gs, st =>
    let (t, st) := treeNodes f 4 g st
    let (ts, st) := lineTrees f gs st
    (t :: ts, st)

/-- Node (level, place) of a group's tree. -/
def treeNode {α : Type} (t : List (List (Option α))) (lev p : Nat) : Option α :=
  match t[lev]? with
  | some l => (match l[p]? with
    | some x => x
    | none => none)
  | none => none

/-- `reduce_tree` (R37): none for a line without elements. -/
def reduceLine {α σ : Type} (f : α → α → σ → α × σ) (xs : List α) (st : σ) : Option α × σ :=
  let (ts, st) := lineTrees f (groups16 (xs.length / 16 + 1) xs) st
  (ts.map (fun t => treeNode t 4 0)).foldl (fun acc tot => stepOpt f acc.1 tot acc.2) (none, st)

/-- The prefixes of earlier groups, pre[0] absent (R38). -/
def scanPre {α σ : Type} (f : α → α → σ → α × σ) : Option α → List (List (List (Option α))) → σ →
    List (Option α) × σ
  | _, [], st => ([], st)
  | pre, t :: ts, st =>
    let (nxt, st') := if ts.isEmpty then (none, st) else stepOpt f pre (treeNode t 4 0) st
    let (rest, st'') := scanPre f nxt ts st'
    (pre :: rest, st'')

/-- `scan_prefix` within a group, lane `l`: the nodes covering lanes 0 to l, largest first. -/
def scanPart {α σ : Type} (f : α → α → σ → α × σ) (t : List (List (Option α))) (l : Nat) : Nat → Nat → Option α → σ →
    Option α × σ
  | 0, _, part, st => (part, st)
  | n + 1, base, part, st =>
    if ((l + 1) / 2 ^ n) % 2 = 1 then
      let (part, st) := stepOpt f part (treeNode t n (base / 2 ^ n)) st
      scanPart f t l n (base + 2 ^ n) part st
    else scanPart f t l n base part st

/-- The inclusive prefixes of one group's lanes `l` on, `k` of them. -/
def scanGroup {α σ : Type} (f : α → α → σ → α × σ) (t : List (List (Option α))) (pre : Option α) : Nat → Nat → σ →
    List (Option α) × σ
  | 0, _, st => ([], st)
  | k + 1, l, st =>
    let (part, st) := scanPart f t l 5 0 none st
    let (y, st) := stepOpt f pre part st
    let (ys, st) := scanGroup f t pre k (l + 1) st
    (y :: ys, st)

/-- The element prefixes of every group; `left` elements remain. -/
def scanGroups {α σ : Type} (f : α → α → σ → α × σ) : List (List (List (Option α))) → List (Option α) → Nat → σ →
    List (Option α) × σ
  | t :: ts, pre :: pres, left, st =>
    let (ys, st) := scanGroup f t pre (min 16 left) 0 st
    let (zs, st) := scanGroups f ts pres (left - 16) st
    (ys ++ zs, st)
  | _, _, _, st => ([], st)

/-- `scan_line` (R38). -/
def scanLine {α σ : Type} (f : α → α → σ → α × σ) (xs : List α) (st : σ) : List (Option α) × σ :=
  let (ts, st) := lineTrees f (groups16 (xs.length / 16 + 1) xs) st
  let (pres, st) := scanPre f none ts st
  scanGroups f ts pres xs.length st

end Sys2Proof.Machine
end

