-- ==== Sys2Proof/Config.lean ====
section
/-!
DEFINITION. What the manual leaves open. Each constant here has no body: nothing in Lean can evaluate it, so
a statement that mentions one holds for every value. A number given to one of them is the plain counter
`State.free`, which every use advances.
-/

namespace Sys2Proof.Config

/-- Extra arithmetic-clock cycles that a step takes beyond one (R6 leaves cycle counts open; log 3). -/
opaque stepCycles : Nat → Nat

/-- A choice among the outcomes that the manual allows: which maximal write a read returns (R209), whether a
boundary acquires a publication early (R211), whether a translation uses the old entry (R274), whether an older
shape record is still read by another team (R64) (log 4). -/
opaque choice : Nat → Nat

/-- A byte that the manual leaves unspecified: host reads of residue planes (R312) and of backing areas (R331),
and a backing area after VNT.REL (R332) (log 5). -/
opaque freeByte : Nat → Byte

/-- A doubleword the manual leaves open (silicon stepping of DEVID, R391) (log 6). -/
opaque freeWord : Nat → Word

/-- The hash that chooses the cask of a word by its address on its stack: R320 names a hash and does not give it (log 7). -/
opaque caskHash : Nat → Nat

/-- SHAKE256 (R390, R391), named by the manual and not defined there (log 8). -/
opaque shake256 : List Byte → List Byte

/-- Whether a Falcon-1024 signature over a digest verifies against the fused Vorrek key (R390) (log 8). -/
opaque falconVerifies : List Byte → List Byte → Bool

/-- The boot ROM image and the fused configuration, measured by R391 (log 8). -/
opaque bootRom : List Byte
opaque fusedConfig : List Byte

/-- Byte `i` of the event record of a context (or none), a unit and a kind of event, each by number: R392 gives what a record
holds and not its layout (log 27). -/
opaque eventByte (ctx unit kind i : Nat) : Byte

/-- The Falcon-1024 identity key of the part that stands as a package, generated at manufacture and certified by Vorrek (R391)
(log 8). -/
opaque identityKey (pkg : Nat) : List Byte

/-- Whether an FSEND finds a free slot at every hop (R364: refusal at issue, R6) (log 9). -/
opaque linkSlotFree : Nat → Bool

end Sys2Proof.Config
end

