-- ==== Sys2Proof/WellFormed.lean ====
section
/-!
DEFINITION. Which instruction terms the manual's encodings admit: the reserved combinations of Table 2.12, the
entries' own restrictions, and which constructors are steps of the hardware, the firmware or the host.
-/

namespace Sys2Proof

/-- A tile source field that the assembly form leaves unused is zero, its chain bit too (R47, R154). -/
def Src.unused (x : Src) : Bool := x.t == 0 && !x.chain

/-- Rounding codes 0b000 to 0b110 (R21); 0b111 is reserved. -/
def rmOk (r : Rm) : Bool := r != 7

/-- Scopes of Table 7.1 (R206). -/
def scopeOk (c : ScopeCode) : Bool := c.ule 5

/-- Paths that CFENCE may name (R215). -/
def fencePathOk (p : BitVec 3) : Bool := p != 5 && p != 7

/-- Wildcard restrictions of a receive (R243, R363). -/
def wildOk (w : Wild) (sm : SReg) (tag : BitVec 16) : Bool :=
  (!w.anySrc || sm == 0) && (!w.anyTag || tag == 0)

/-- Service numbers that Tables 4.8, 13.2 and 14.1 assign. -/
def svcAssigned (n : BitVec 16) : Bool :=
  n.ule 3 || (n.ule 0x12 && (0x10#16).ule n) || (n.ule 0x22 && (0x20#16).ule n)

/-- Operands of REDUCE, SCAN and TRDS (R179): a built-in takes one source and code 0 to 2. -/
def stepFnOk (two : Bool) (tb : Src) (fn : StepFn) : Bool :=
  (two || tb.unused) &&
  match fn with
  | .fn _ => true
  | .builtin c => !two && c.ule 2

/-- ADD, SUB and MUL accept .u only with .s (Table 4.6). -/
def aluAddOk (m : AluMode) : Bool := !m.u || m.s

/-- MULH, DIV, REM, MIN and MAX take no .s (Table 4.6). -/
def aluMulhOk (m : AluMode) : Bool := !m.s

/-- SHL, SHR and SRA take .w alone (Table 4.6). -/
def aluShiftOk (m : AluMode) : Bool := !m.s && !m.u

/-- AND, OR and XOR take no sub-function bit (Table 4.6). -/
def aluLogicOk (m : AluMode) : Bool := !m.w && !m.s && !m.u

/-- The terms that stand for an encoding of the manual (Table 2.12, R121, R154, R185, R243, R283, R315, R334,
R342, R363, R218, R250); steps of the hardware, firmware and host carry no encoding and are all admitted. -/
def Instr.wellFormed : Instr → Bool
  | .add m _ _ _ | .sub m _ _ _ | .mul m _ _ _ => aluAddOk m
  | .mulh m _ _ _ | .div m _ _ _ | .rem m _ _ _ | .min m _ _ _ | .max m _ _ _ => aluMulhOk m
  | .shl m _ _ _ | .shr m _ _ _ | .sra m _ _ _ => aluShiftOk m
  | .and m _ _ _ | .or m _ _ _ | .xor m _ _ _ => aluLogicOk m
  | .cmp _ _ gk _ _ => gk != 0
  | .gop _ gd _ _ => gd != 0
  | .ld z u _ _ _ | .ldff z u _ _ _ => !(u && z == 3)
  | .mfs _ n => n.ule 19
  | .mts n _ => n.ule 6
  | .drain u c t => u || c || t
  | .svcUnassigned _ n => !svcAssigned n
  | .tadd _ rm _ _ _ | .tsub _ rm _ _ _ | .tmul _ rm _ _ _ | .tfma _ rm _ _ _ => rmOk rm
  | .tcvt rm _ _ _ _ => rmOk rm
  | .tgth _ kind _ _ _ _ => kind != 3
  | .tsct kind _ _ _ _ => kind != 3
  | .twait all tag => !all || tag == 0
  | .tqnt rm _ _ _ => rmOk rm
  | .tdqt rm _ _ _ => rmOk rm
  | .map cv cnt _ ta tb _ _ _ =>
    rmOk cv.rm && (cnt != 0 || ta.unused) && ((cnt != 0 && cnt != 1) || tb.unused)
  | .reduce _ two cv _ _ tb _ _ fn | .scan _ two cv _ _ tb _ _ fn => rmOk cv.rm && stepFnOk two tb fn
  | .trds two rm _ tb _ _ fn => rmOk rm && stepFnOk two tb fn
  | .ard _ cv _ _ _ _ _ => rmOk cv.rm
  | .tscl tgt _ _ _ => tgt != 3
  | .ablk _ _ _ _ _ _ k => k != 0 && k.ule 128
  | .send k _ _ _ _ | .sendt k _ _ _ _ => k != 0
  | .recv w sd sm tag => wildOk w sm tag && ((!w.anySrc && !w.anyTag) || (sd != 0 && sd != 31))
  | .recvt w _ sm tag => wildOk w sm tag
  | .probe _ w k sm tag => k != 0 && wildOk w sm tag
  | .claim sc _ _ _ => scopeOk sc
  | .fork k _ _ => k != 0
  | .spawn k _ _ => k != 0
  | .take k _ => k != 0
  | .syncTas sc _ _ _ | .syncFadd sc _ _ _ | .syncLd sc _ _ | .syncSt sc _ _ => sc.ule 4
  | .syncWait cc sc _ _ _ => cc.ule 5 && sc.ule 4
  | .evict kind _ _ => kind != 3
  | .vntq k _ _ _ => k != 0
  | .vntc c _ _ => c != 3
  | .fsend k _ _ _ _ _ => k != 0
  | .frecv w _ sm tag => wildOk w sm tag
  | .fgth kind _ _ _ _ => kind != 3
  | .phase sc => scopeOk sc
  | .cfence f t => fencePathOk f && fencePathOk t && f != t
  | .amo op d sc _ _ _ => op.ule 11 && (op.ult 9 || !d) && scopeOk sc
  | .cas _ sc _ _ _ => scopeOk sc
  | _ => true

/-- The steps that no instruction word names: the block sequencer's, the store buffer's, the copy engine's, the
network's, the Press's, the firmware's, the host's and the environment's. -/
def Instr.isEvent : Instr → Bool
  | .storePerform _ | .tiqAccept _ | .microOperationIssue _ | .tileInstructionCompletion _ | .copyCompletion _
  | .messageDelivery _ | .barrierCompletion _ | .mirror _ | .handOff _ | .backgroundRacking _ _ _
  | .fabricMessageDelivery _ | .exchangeClose _ | .fabricBarrierCompletion _ | .fault _ | .faultRecordPost _ _
  | .faultCompletion _ _ _ | .walkTimeout _ | .preemptionRequest _ | .preemptionWithdrawal _ | .forcedSave _
  | .resumption _ _ | .queuePop _ _ | .groupPlacement _ _ _ | .instancePlacement _ _ | .steal _ _
  | .launchCompletion _ | .gangSliceStart _ | .ready _ _ _ | .start _ _ | .abort _ _ | .ctxCreate _ | .ctxEnd _
  | .queueOpen _ | .queueReset _ | .cancel _ | .cancelClr _ | .tlbInv _ | .winSet _ | .fwStage _ | .fwActivate _
  | .hostSvc _ | .rsvW2Write _ _ _ _ | .commit _ | .registerWrite _ _ _ | .hostRead _ _ | .hostWrite _ _ | .boot _
  | .trialTimeout _ | .watchdog _ | .getMeasurements _ | .negotiateAlgorithms _ _ _ | .retirement _ _
  | .routeFixupPass _ _ | .portDown _ _ | .portRetire _ _ | .portTraining _ _ _ _ _ _ | .flitReplay _ _
  | .d2dLinkFailure _ | .softError _ _ | .uncorrectableError _ _ | .unitFailure _ _ | .supplySag _ _
  | .clockReturn _ _ | .junction105 _ | .junction115 _ | .standby _ | .wake _ | .copyRow _ | .junctionBelow100 _
  | .hostAttachmentFailure _ | .d2dLinkTraining _ | .unknownCommandCode _ => true
  | _ => false

/-- The instructions that the front places in the TIQ (R110): every tile slot, every T word. -/
def Instr.isTileSide : Instr → Bool
  | .tadd .. | .tsub .. | .tmul .. | .tfma .. | .tmax .. | .tmin .. | .tcmp .. | .tsel .. | .tmov .. | .tcvt ..
  | .tld .. | .tst .. | .tldff .. | .ttrn .. | .tdecl .. | .trel .. | .text .. | .tgth .. | .tsct .. | .tcopy ..
  | .tcopyStr .. | .twait .. | .qbind .. | .qrel .. | .tfill .. | .tiota .. | .tslide .. | .tpack .. | .tunpk ..
  | .tqnt .. | .tdqt .. | .map .. | .reduce .. | .scan .. | .trds .. | .ldb .. | .ldbm .. | .mma .. | .mmam ..
  | .mmat .. | .aclr .. | .ard .. | .awr .. | .amaxa .. | .tscl .. | .route .. | .ablk .. | .iwalk .. | .sendt ..
  | .recvt .. | .upd .. | .vntq .. | .vntw .. | .allx .. | .fgth .. => true
  | _ => false

/-- The outward instructions of R117; YIELD is outward only while a request is pending and is not listed. -/
def Instr.isOutward : Instr → Bool
  | .phase _ | .cfence _ _ | .amo .. | .cas .. | .syncTas .. | .syncFadd .. | .syncWait .. | .syncLd .. | .syncSt ..
  | .send .. | .recv .. | .bar _ | .claim .. | .fork .. | .join _ | .spawn .. | .take .. | .launch .. | .upds ..
  | .rack .. | .rackr .. | .vntc .. | .fsend .. | .frecv .. | .fbar _ | .exit _ | .shapeSet _ | .shapeInv _
  | .yieldDone _ | .regionSet _ | .regionRel _ | .regionStat _ | .vntSet _ | .vntRel _ | .vntInv _
  | .svcUnassigned _ _ | .trap _ | .brk _ | .eret .. | .ctxs .. | .ctxl .. => true
  | .upd .. | .vntq .. | .vntw .. | .sendt .. | .recvt .. | .allx .. | .fgth .. => true
  | _ => false

/-- The instructions that push to the branch queue (R113): TEXT, TRDS, ROUTE, IWALK, RECVT and ALLX. -/
def Instr.pushes : Instr → Bool
  | .text .. | .trds .. | .route .. | .iwalk .. | .recvt .. | .allx .. => true
  | _ => false

/-- Bytes that the instruction's long word takes (R39): 16 for an X instruction. -/
def Instr.longBytes : Instr → Nat
  | .liX .. | .fsend .. | .hint .x _ _ => 16
  | _ => 8

end Sys2Proof
end

