-- ==== Sys2Proof/Decode.lean ====
section
/-!
DEFINITION. Instruction words (R39 to R58): word fields, slot expansion, the decoder, and an encoder of the long
forms. Decoding is total and rejects by name; it reads nothing but the word (R58).
-/

namespace Sys2Proof

/-- Why a word is not an instruction (Table 2.12). Every one raises a precise illegal-instruction fault. -/
inductive DecodeError where
  /-- Unassigned op in any space, or in a slot. -/
  | unassignedOp
  /-- Assigned op in a format not listed for it. -/
  | wrongFormat
  /-- A TOP without a slot class (R42). -/
  | noSlotClass
  /-- A reserved or unused bit is not zero (R47). -/
  | reservedBits
  /-- A sub-function, suffix, mode, rounding or guard code that the entry leaves unassigned. -/
  | reservedCode
  /-- GIDX = 0 with GINV = 1 (R41). -/
  | guardInverted
  /-- A NOP slot with other fields not zero (R44). -/
  | nopSlot
deriving DecidableEq, Repr

/-- The fields of an S word below its guard (Table 2.4). -/
structure SFields where
  op : BitVec 10
  sd : SReg
  sa : SReg
  f : BitVec 6
  imm : BitVec 32
deriving DecidableEq, Repr

/-- The fields of a T word below its guard (Table 2.5). -/
structure TFields where
  op : BitVec 10
  td : BitVec 6
  ta : BitVec 6
  tb : BitVec 6
  ca : Bool
  cb : Bool
  s1 : SReg
  s2 : SReg
  mode : BitVec 2
  imm : BitVec 16
deriving DecidableEq, Repr

/-- A word's guard (R39): the invert bit [61] and the index [60:58]. -/
structure Guard where
  inv : Bool
  idx : GReg
deriving DecidableEq, Repr

/-- The guard that is always true: g0, not inverted. -/
def Guard.always : Guard := ⟨false, 0⟩

/-- What a word holds (Table 2.1): one long instruction, or the two slots of a pair; a NOP slot is `.nop`. -/
inductive Body where
  | long (i : Instr)
  | pair (scalar tile : Instr)
deriving DecidableEq, Repr

/-- A decoded word. -/
structure Bundle where
  guard : Guard
  body : Body
deriving DecidableEq, Repr

/-- Bytes from this word to the next in program order (R39, R40). -/
def Bundle.bytes (b : Bundle) : Nat :=
  match b.body with
  | .long i => i.longBytes
  | .pair _ _ => 8

/-! ### Fields -/

/-- The I bit of FUNCT (R120). -/
def SFields.i (x : SFields) : Bool := x.f.getLsbD 5

/-- FUNCT[4:3] (R120). -/
def SFields.comb (x : SFields) : BitVec 2 := x.f.extractLsb' 3 2

/-- FUNCT[2:0] (R120). -/
def SFields.sub (x : SFields) : BitVec 3 := x.f.extractLsb' 0 3

/-- FUNCT[4:0] (Table 2.4). -/
def SFields.sub5 (x : SFields) : BitVec 5 := x.f.extractLsb' 0 5

/-- The register that IMM32[4:0] names (R120). -/
def SFields.sb (x : SFields) : SReg := x.imm.extractLsb' 0 5

/-- A field result that stands only when the reserved bits are zero (R47). -/
def keep (zeroes : Bool) (i : Instr) : Except DecodeError Instr :=
  if zeroes then .ok i else .error .reservedBits

/-- Operand b with I choosing the form (R120): `k` receives it; a register form has IMM32[31:5] zero. -/
def withOpd (x : SFields) (zeroes : Bool) (k : Opd → Instr) : Except DecodeError Instr :=
  if x.i then keep zeroes (k (.imm x.imm))
  else keep (zeroes && x.imm.extractLsb' 5 27 == 0) (k (.reg x.sb))

/-- The sub-function bits of the ALU ops (Table 4.5): [2] W, [1] S, [0] U. -/
def SFields.alu (x : SFields) : AluMode := ⟨x.f.getLsbD 2, x.f.getLsbD 1, x.f.getLsbD 0⟩

/-- A three-operand ALU instruction (Table 4.5). -/
def decAlu (x : SFields) (k : AluMode → SReg → SReg → Opd → Instr) : Except DecodeError Instr :=
  withOpd x (x.comb == 0) (fun b => k x.alu x.sd x.sa b)

/-- CLZ, CTZ and POPC (Table 4.5). -/
def decCount (x : SFields) (k : Bool → SReg → SReg → Instr) : Except DecodeError Instr :=
  keep (!x.i && x.comb == 0 && x.f.extractLsb' 0 2 == 0 && x.imm == 0) (k (x.f.getLsbD 2) x.sd x.sa)

/-- LD and LDFF (Table 4.5): [2] U, [1:0] size. -/
def decLoad (x : SFields) (k : BitVec 2 → Bool → SReg → SReg → Opd → Instr) : Except DecodeError Instr :=
  withOpd x (x.comb == 0) (fun b => k (x.f.extractLsb' 0 2) (x.f.getLsbD 2) x.sd x.sa b)

/-- LEA (R129). -/
def decLea (x : SFields) : Except DecodeError Instr :=
  if x.comb != 0 then .error .reservedBits
  else if x.i then
    if x.sub == 0 then .ok (.lea x.sd (.base x.sa x.imm))
    else if x.sub == 1 then keep (x.sa == 0) (.lea x.sd (.label x.imm))
    else .error .reservedCode
  else keep (x.imm.extractLsb' 5 27 == 0) (.lea x.sd (.index x.sa x.sb x.sub))

/-- CALL (R132). -/
def decCall (x : SFields) : Except DecodeError Instr :=
  if x.f == 0x20 then keep (x.sa == 0) (.call x.sd (.label x.imm))
  else keep (x.f == 0 && x.imm == 0) (.call x.sd (.reg x.sa))

/-- SVC (R138): the assigned service numbers are rows of their own (Tables 4.8, 13.2, 14.1). -/
def decSvc (x : SFields) : Except DecodeError Instr :=
  let n := x.imm.extractLsb' 0 16
  keep (x.f == 0x20 && x.sa == 0 && x.imm.extractLsb' 16 16 == 0)
    (match n with
     | 0x0000#16 => .exit x.sd
     | 0x0001#16 => .shapeSet x.sd
     | 0x0002#16 => .shapeInv x.sd
     | 0x0003#16 => .yieldDone x.sd
     | 0x0010#16 => .regionSet x.sd
     | 0x0011#16 => .regionRel x.sd
     | 0x0012#16 => .regionStat x.sd
     | 0x0020#16 => .vntSet x.sd
     | 0x0021#16 => .vntRel x.sd
     | 0x0022#16 => .vntInv x.sd
     | n => .svcUnassigned x.sd n)

/-- Size, bit 7 and the upper bits of an AMO, CAS or CLAIM word (Tables 7.3, R250): [6] is 1, [7] and [31:11] zero. -/
def atomicZeroes (x : SFields) : Bool :=
  x.imm.getLsbD 6 && !x.imm.getLsbD 7 && x.imm.extractLsb' 11 21 == 0

/-- The scope in IMM32[10:8] (Table 7.3, Table 11.8). -/
def SFields.scope (x : SFields) : ScopeCode := x.imm.extractLsb' 8 3

/-- The guard number in FUNCT[34:32] where FUNCT is 1, 00, k (Table 9.4, R251). -/
def guardImm (x : SFields) : Bool := x.i && x.comb == 0

/-- The wildcard bits [16] and [17] of a receive (Table 9.4). -/
def SFields.wild (x : SFields) : Wild := ⟨x.imm.getLsbD 16, x.imm.getLsbD 17⟩

/-- SYNC (Table 11.8). -/
def decSync (x : SFields) : Except DecodeError Instr :=
  let hi := x.imm.extractLsb' 11 21 == 0
  let noCond := x.imm.extractLsb' 5 3 == 0
  match x.f with
  | 0#6 => keep (hi && noCond) (.syncTas x.scope x.sd x.sa x.sb)
  | 1#6 => keep (hi && noCond) (.syncFadd x.scope x.sd x.sa x.sb)
  | 2#6 => keep hi (.syncWait (x.imm.extractLsb' 5 3) x.scope x.sd x.sa x.sb)
  | 3#6 => keep (hi && noCond && x.sb == 0) (.syncLd x.scope x.sd x.sa)
  | 4#6 => keep (hi && noCond && x.sd == 0) (.syncSt x.scope x.sa x.sb)
  | _ => .error .reservedCode

/-- A length operand of PREF and EVICT (Table 11.7): I = 1 gives an unsigned length. -/
def decLines (x : SFields) (k : Opd → Instr) : Except DecodeError Instr :=
  withOpd x (x.sd == 0) k

/-- PREF (Table 11.7). -/
def decPref (x : SFields) : Except DecodeError Instr :=
  if x.sub5 == 0 then decLines x (fun b => .pref false x.sa b)
  else if x.sub5 == 1 then decLines x (fun b => .pref true x.sa b)
  else .error .reservedCode

/-- EVICT (Table 11.7). -/
def decEvict (x : SFields) : Except DecodeError Instr :=
  if x.sub5.ule 2 then decLines x (fun b => .evict (x.f.extractLsb' 0 2) x.sa b)
  else .error .reservedCode

/-- The scalar ops that a slot can name (Table 2.8). -/
def decScalarSlot (x : SFields) : Except DecodeError Instr :=
  match x.op with
  | 0x000#10 => keep (x.sd == 0 && x.sa == 0 && x.f == 0 && x.imm == 0) .nop
  | 0x001#10 => decAlu x .add
  | 0x002#10 => decAlu x .sub
  | 0x003#10 => decAlu x .mul
  | 0x004#10 => decAlu x .mulh
  | 0x005#10 => decAlu x .div
  | 0x006#10 => decAlu x .rem
  | 0x007#10 => decAlu x .and
  | 0x008#10 => decAlu x .or
  | 0x009#10 => decAlu x .xor
  | 0x00A#10 => decAlu x .shl
  | 0x00B#10 => decAlu x .shr
  | 0x00C#10 => decAlu x .sra
  | 0x00D#10 => decAlu x .min
  | 0x00E#10 => decAlu x .max
  | 0x00F#10 => decCount x .clz
  | 0x010#10 => decCount x .ctz
  | 0x011#10 => decCount x .popc
  | 0x012#10 => withOpd x (x.comb == 0) (fun b => .sel x.sub x.sd x.sa b)
  | 0x013#10 => withOpd x (x.sd.extractLsb' 3 2 == 0) (fun b => .cmp x.sub x.comb (x.sd.extractLsb' 0 3) x.sa b)
  | 0x014#10 => keep (!x.i && x.comb == 0 && x.sd.extractLsb' 3 2 == 0 && x.sa.extractLsb' 3 2 == 0 &&
      x.imm.extractLsb' 3 29 == 0)
      (.gop x.sub (x.sd.extractLsb' 0 3) (x.sa.extractLsb' 0 3) (x.imm.extractLsb' 0 3))
  | 0x015#10 => decLea x
  | 0x016#10 => decLoad x .ld
  | 0x017#10 => withOpd x (x.comb == 0 && !x.f.getLsbD 2) (fun b => .st (x.f.extractLsb' 0 2) x.sd x.sa b)
  | 0x018#10 => decLoad x .ldff
  | 0x019#10 => keep (x.sa == 0 && x.f == 0 && x.imm == 0) (.bqpop x.sd)
  | 0x01A#10 => keep (x.sa == 0 && x.f == 0x20 && x.imm.extractLsb' 5 27 == 0) (.mfs x.sd x.sb)
  | 0x01B#10 => keep (x.sd == 0 && x.f == 0x20 && x.imm.extractLsb' 5 27 == 0) (.mts x.sb x.sa)
  | _ => .error .unassignedOp

/-- The scalar ops that exist only in long words (Table 2.8). -/
def decScalarLong (x : SFields) : Except DecodeError Instr :=
  match x.op with
  | 0x080#10 => keep (x.sa == 0 && x.f == 0x20) (.li x.sd x.imm)
  | 0x081#10 => keep (x.sa == 0 && x.f == 0x20) (.lih x.sd x.imm)
  | 0x082#10 => keep (x.sd == 0 && x.sa == 0 && x.f == 0x20) (.br x.imm)
  | 0x083#10 => keep (x.sd == 0 && x.f == 0x20) (.jmp x.sa x.imm)
  | 0x084#10 => decCall x
  | 0x085#10 => keep (x.sd == 0 && x.f == 0 && x.imm == 0) (.ret x.sa)
  | 0x086#10 => keep (x.sa == 0 && x.f == 0x20) (.loop x.sd x.imm)
  | 0x087#10 => keep (x.sd == 0 && x.sa == 0 && x.f.extractLsb' 3 3 == 0 && x.imm == 0)
      (.drain (x.f.getLsbD 2) (x.f.getLsbD 1) (x.f.getLsbD 0))
  | 0x088#10 => keep (x.sa == 0 && x.f == 0x20) (.yield x.sd x.imm)
  | 0x089#10 => decSvc x
  | 0x08A#10 => keep (x.sd == 0 && x.sa == 0 && x.f == 0x20 && x.imm.extractLsb' 16 16 == 0)
      (.trap (x.imm.extractLsb' 0 16))
  | 0x08B#10 => keep (x.sd == 0 && x.sa == 0 && x.f == 0x20 && x.imm.extractLsb' 16 16 == 0)
      (.brk (x.imm.extractLsb' 0 16))
  | _ => .error .unassignedOp

/-- The cluster, die, package and fabric ops of S format (Table 2.10). -/
def decAreaS (x : SFields) : Except DecodeError Instr :=
  match x.op with
  | 0x280#10 => keep (guardImm x && x.imm.extractLsb' 19 13 == 0)
      (.send x.sub x.sa x.sd (x.imm.extractLsb' 16 3) (x.imm.extractLsb' 0 16))
  | 0x282#10 => keep (x.f == 0x20 && x.imm.extractLsb' 18 14 == 0)
      (.recv x.wild x.sd x.sa (x.imm.extractLsb' 0 16))
  | 0x284#10 => keep (guardImm x && x.sd == 0 && x.imm.extractLsb' 19 13 == 0)
      (.probe (x.imm.getLsbD 18) x.wild x.sub x.sa (x.imm.extractLsb' 0 16))
  | 0x285#10 => keep (x.sd == 0 && x.sa == 0 && x.f == 0x20 && x.imm.extractLsb' 3 29 == 0)
      (.bar (x.imm.extractLsb' 0 3))
  | 0x286#10 => keep (x.f == 0 && atomicZeroes x && x.imm.getLsbD 5) (.claim x.scope x.sd x.sa x.sb)
  | 0x287#10 => keep (guardImm x && x.sa == 0) (.fork x.sub x.sd x.imm)
  | 0x288#10 => keep (x.sd == 0 && x.f == 0 && x.imm == 0) (.join x.sa)
  | 0x289#10 => keep (guardImm x && x.sd == 0) (.spawn x.sub x.sa x.imm)
  | 0x28A#10 => keep (!x.i && x.comb == 0 && x.sa == 0 && x.imm == 0) (.take x.sub x.sd)
  | 0x28B#10 => keep (x.f == 0 && x.imm.extractLsb' 5 27 == 0) (.launch x.sd x.sa x.sb)
  | 0x2A0#10 => decSync x
  | 0x2A1#10 => decPref x
  | 0x2A2#10 => decEvict x
  | 0x2A3#10 => withOpd x (x.sub5 == 0) (fun b => .winq x.sd x.sa b)
  | 0x2C1#10 => keep (x.f.extractLsb' 1 5 == 0 && x.imm.extractLsb' 0 16 == 0 && x.imm.extractLsb' 26 6 == 0)
      (.upds (x.f.getLsbD 0) x.sd x.sa (x.imm.extractLsb' 16 10))
  | 0x2C2#10 => keep (x.sd == 0 && x.f == 0 && x.imm.extractLsb' 5 11 == 0 && x.imm.extractLsb' 26 6 == 0)
      (.rack (x.imm.extractLsb' 16 10) x.sa x.sb)
  | 0x2C3#10 => keep (x.f == 0 && x.imm.extractLsb' 0 16 == 0 && x.imm.extractLsb' 26 6 == 0)
      (.rackr x.sd x.sa (x.imm.extractLsb' 16 10))
  | 0x2C6#10 => keep (x.sa == 0 && x.f == 0x20 && x.imm.extractLsb' 3 29 == 0)
      (.vntc (x.imm.extractLsb' 0 2) (x.imm.getLsbD 2) x.sd)
  | 0x2E1#10 => keep (x.f == 0x20 && x.imm.extractLsb' 18 14 == 0)
      (.frecv x.wild x.sd x.sa (x.imm.extractLsb' 0 16))
  | 0x2E4#10 => keep (x.sd == 0 && x.sa == 0 && x.f == 0x20 && x.imm.extractLsb' 3 29 == 0)
      (.fbar (x.imm.extractLsb' 0 3))
  | _ => .error .unassignedOp

/-- The system ops (R54). -/
def decSystem (x : SFields) : Except DecodeError Instr :=
  match x.op with
  | 0x300#10 => keep (x.sd == 0 && x.sa == 0 && x.f.extractLsb' 3 3 == 0 && x.imm == 0) (.phase x.sub)
  | 0x301#10 => keep (x.sd == 0 && x.sa == 0 && x.f == 0x20 && x.imm.extractLsb' 6 26 == 0)
      (.cfence (x.imm.extractLsb' 0 3) (x.imm.extractLsb' 3 3))
  | 0x302#10 => keep (!x.i && atomicZeroes x) (.amo x.sub5 (x.imm.getLsbD 5) x.scope x.sd x.sa x.sb)
  | 0x303#10 => keep (x.f == 0 && atomicZeroes x) (.cas (x.imm.getLsbD 5) x.scope x.sd x.sa x.sb)
  | 0x304#10 => keep (x.f == 0 && x.imm == 0) (.eret x.sd x.sa)
  | 0x305#10 => keep (x.f == 0 && x.imm.extractLsb' 5 27 == 0) (.ctxs x.sd x.sa x.sb)
  | 0x306#10 => keep (x.f == 0 && x.imm.extractLsb' 5 27 == 0) (.ctxl x.sd x.sa x.sb)
  | _ => .error .unassignedOp

/-! ### T words -/

/-- Source a with its chain bit. -/
def TFields.srcA (x : TFields) : Src := ⟨x.ta, x.ca⟩

/-- Source b with its chain bit. -/
def TFields.srcB (x : TFields) : Src := ⟨x.tb, x.cb⟩

/-- No chain bit is set (R154). -/
def TFields.noChain (x : TFields) : Bool := !x.ca && !x.cb

/-- Source b and its chain bit are unused. -/
def TFields.noB (x : TFields) : Bool := x.tb == 0 && !x.cb

/-- Source a and its chain bit are unused. -/
def TFields.noA (x : TFields) : Bool := x.ta == 0 && !x.ca

/-- Neither scalar operand is used. -/
def TFields.noS (x : TFields) : Bool := x.s1 == 0 && x.s2 == 0

/-- The rounding code IMM16[2:0] (R45). -/
def TFields.rm (x : TFields) : Rm := x.imm.extractLsb' 0 3

/-- The accumulator or scale register that TD names, and whether TD[5:4] is zero (R47). -/
def TFields.td4 (x : TFields) : BitVec 4 := x.td.extractLsb' 0 4
def TFields.td4Ok (x : TFields) : Bool := x.td.extractLsb' 4 2 == 0

/-- The common zero fields of class TT: s1, s2 and MODE (Table 5.5). -/
def TFields.ttOk (x : TFields) : Bool := x.noS && x.mode == 0

/-- A class-TT op that does not round holds IMM16[2:0] = 0b110 and nothing above (R154). -/
def TFields.noRm (x : TFields) : Bool := x.imm == 6

/-- TADD, TSUB, TMUL and TFMA (Table 5.5). -/
def decTArith (x : TFields) (k : Bool → Rm → TReg → Src → Src → Instr) : Except DecodeError Instr :=
  keep (x.ttOk && x.imm.extractLsb' 4 12 == 0) (k (x.imm.getLsbD 3) x.rm x.td x.srcA x.srcB)

/-- The final-conversion fields IMM16[10:8], [11] and [12] of MAP, REDUCE and SCAN (R178). -/
def TFields.conv (x : TFields) : Conv := ⟨x.imm.extractLsb' 8 3, x.imm.getLsbD 11, x.imm.getLsbD 12⟩

/-- The step operand of REDUCE, SCAN and TRDS (R179): [15] B, [7:0] the index or the code. -/
def TFields.step (x : TFields) : StepFn :=
  if x.imm.getLsbD 15 then .builtin (x.imm.extractLsb' 0 8) else .fn (x.imm.extractLsb' 0 8)

/-- REDUCE and SCAN (Table 5.5). -/
def decReduce (x : TFields) (k : Bool → Bool → Conv → TReg → Src → Src → SReg → SReg → StepFn → Instr) :
    Except DecodeError Instr :=
  keep (x.imm.extractLsb' 13 2 == 0)
    (k (x.mode.getLsbD 0) (x.mode.getLsbD 1) x.conv x.td x.srcA x.srcB x.s1 x.s2 x.step)

/-- A handle form with an origin: TLD, TST and TLDFF (Table 5.5). -/
def decHandle (x : TFields) (k : TReg → Handle → SReg → Instr) : Except DecodeError Instr :=
  keep (x.noA && x.noB && x.s2 == 0 && x.mode == 0) (k x.td x.imm x.s1)

/-- The tile ops that a slot can name (Table 2.9). -/
def decTileSlot (x : TFields) : Except DecodeError Instr :=
  match x.op with
  | 0x101#10 => decTArith x .tadd
  | 0x102#10 => decTArith x .tsub
  | 0x103#10 => decTArith x .tmul
  | 0x104#10 => decTArith x .tfma
  | 0x105#10 => keep (x.ttOk && x.noRm) (.tmax x.td x.srcA x.srcB)
  | 0x106#10 => keep (x.ttOk && x.noRm) (.tmin x.td x.srcA x.srcB)
  | 0x107#10 => keep (x.ttOk && x.imm.extractLsb' 0 5 == 6 && x.imm.extractLsb' 8 8 == 0)
      (.tcmp (x.imm.extractLsb' 5 3) x.td x.srcA x.srcB)
  | 0x108#10 => keep (x.ttOk && x.noRm) (.tsel x.td x.srcA x.srcB)
  | 0x109#10 => keep (x.ttOk && x.noB && x.noRm) (.tmov x.td x.srcA)
  | 0x10A#10 => keep (x.ttOk && x.noB && x.imm.extractLsb' 5 11 == 0)
      (.tcvt x.rm (x.imm.getLsbD 3) (x.imm.getLsbD 4) x.td x.srcA)
  | 0x10B#10 => decHandle x .tld
  | 0x10C#10 => decHandle x .tst
  | 0x10D#10 => decHandle x .tldff
  | 0x10E#10 => keep (x.ttOk && x.noB && x.noRm) (.ttrn x.td x.srcA)
  | _ => .error .unassignedOp

/-- TCOPY (Table 5.5): MODE 0 tag, 1 stream. -/
def decTcopy (x : TFields) : Except DecodeError Instr :=
  let z := x.noA && x.noB
  if x.mode == 0 then keep (z && x.td4Ok) (.tcopy x.td4 x.imm x.s1 x.s2)
  else if x.mode == 1 then
    keep (z && x.td.extractLsb' 3 3 == 0 && x.s1 == 0) (.tcopyStr (x.td.extractLsb' 0 3) x.imm x.s2)
  else .error .reservedCode

/-- TDQT (Table 5.5): MODE 0 MX, 1 scale register. -/
def decTdqt (x : TFields) : Except DecodeError Instr :=
  let z := x.noS && !x.cb && x.imm.extractLsb' 3 13 == 0
  if x.mode == 0 then keep (z && x.tb == 0) (.tdqt x.rm none x.td x.srcA)
  else if x.mode == 1 then
    keep (z && x.tb.extractLsb' 4 2 == 0) (.tdqt x.rm (some (x.tb.extractLsb' 0 4)) x.td x.srcA)
  else .error .reservedCode

/-- The tile ops that exist only in T words (Table 2.9). -/
def decTileLong (x : TFields) : Except DecodeError Instr :=
  match x.op with
  | 0x180#10 => keep (x.noA && x.noB && x.noS && x.mode == 0) (.tdecl x.td x.imm)
  | 0x181#10 => keep (x.noA && x.noB && x.noS && x.mode == 0 && x.imm == 0) (.trel x.td)
  | 0x182#10 => keep (x.td == 0 && x.noB && x.noS && x.mode == 0 && x.imm == 0) (.text x.srcA)
  | 0x183#10 => keep (x.tb.extractLsb' 1 5 == 0 && !x.cb && x.s2 == 0)
      (.tgth (x.tb.getLsbD 0) x.mode x.td x.srcA x.imm x.s1)
  | 0x184#10 => keep (x.td == 0 && x.s2 == 0) (.tsct x.mode x.srcA x.srcB x.imm x.s1)
  | 0x185#10 => decTcopy x
  | 0x186#10 => keep (x.td4Ok && x.noA && x.noB && x.noS && !x.mode.getLsbD 1 && x.imm == 0)
      (.twait (x.mode.getLsbD 0) x.td4)
  | 0x187#10 => keep (x.td.extractLsb' 3 3 == 0 && x.noChain && x.tb == 0 && x.noS && x.mode == 0 && x.imm == 0)
      (.qbind (x.td.extractLsb' 0 3) x.ta)
  | 0x188#10 => keep (x.td.extractLsb' 3 3 == 0 && x.noA && x.noB && x.noS && x.mode == 0 && x.imm == 0)
      (.qrel (x.td.extractLsb' 0 3))
  | 0x189#10 => keep (x.noA && x.noB && x.s2 == 0 && x.mode == 0 && x.imm == 0) (.tfill x.td x.s1)
  | 0x18A#10 => keep (x.noA && x.noB && x.mode == 0 && x.imm == 0) (.tiota x.td x.s1 x.s2)
  | 0x18B#10 =>
    let z := x.noS && x.imm.extractLsb' 7 9 == 0
    if x.imm.getLsbD 6 then keep z (.tslide x.mode (some x.srcB) x.td x.srcA (x.imm.extractLsb' 0 6))
    else keep (z && x.noB) (.tslide x.mode none x.td x.srcA (x.imm.extractLsb' 0 6))
  | 0x18C#10 => keep (x.noB && x.noS && x.mode == 0 && x.imm == 0) (.tpack x.td x.srcA)
  | 0x18D#10 => keep (x.noB && x.noS && x.mode == 0 && x.imm == 0) (.tunpk x.td x.srcA)
  | 0x18E#10 => keep (x.noB && x.noS && x.mode == 0 && x.imm.extractLsb' 4 12 == 0)
      (.tqnt x.rm (x.imm.getLsbD 3) x.td x.srcA)
  | 0x18F#10 => decTdqt x
  | 0x190#10 => keep (x.imm.extractLsb' 13 3 == 0)
      (.map x.conv x.mode x.td x.srcA x.srcB x.s1 x.s2 (x.imm.extractLsb' 0 8))
  | 0x191#10 => decReduce x .reduce
  | 0x192#10 => decReduce x .scan
  | 0x193#10 => keep (x.td == 0 && !x.mode.getLsbD 0 && x.imm.extractLsb' 11 4 == 0)
      (.trds (x.mode.getLsbD 1) (x.imm.extractLsb' 8 3) x.srcA x.srcB x.s1 x.s2 x.step)
  | _ => .error .unassignedOp

/-- The scale-register operand in TB (R185): [4] ESA or ESR, [3:0] n; n is zero without the operand. -/
def decScale (x : TFields) (zeroes : Bool) (k : Option EReg → Instr) : Except DecodeError Instr :=
  let n := x.tb.extractLsb' 0 4
  if x.tb.getLsbD 4 then keep (zeroes && !x.tb.getLsbD 5) (k (some n))
  else keep (zeroes && x.tb == 0) (k none)

/-- The dims operand of LDB and LDBM (Table 6.4): `d` under MODE 1 (.init), zero under MODE 0. -/
def decInit (x : TFields) (zeroes : Bool) (d : BitVec 5) (k : Option SReg → Instr) : Except DecodeError Instr :=
  if x.mode == 0 then keep (zeroes && d == 0) (k none)
  else if x.mode == 1 then keep zeroes (k (some d))
  else .error .reservedCode

/-- The matrix and core-engine ops (R52, Table 6.4). -/
def decMatrix (x : TFields) : Except DecodeError Instr :=
  match x.op with
  | 0x200#10 => decInit x (x.td == 0 && x.noB && x.imm == 0) x.s2 (fun d => .ldb d x.srcA x.s1)
  | 0x201#10 => decInit x (x.td == 0 && x.noB && !x.ca && x.ta.extractLsb' 5 1 == 0) (x.ta.extractLsb' 0 5)
      (fun d => .ldbm d x.imm x.s1 x.s2)
  | 0x202#10 => decScale x (x.td4Ok && !x.cb && x.imm == 0) (fun e => .mma x.mode x.td4 x.srcA x.s1 x.s2 e)
  | 0x203#10 => decScale x (x.td4Ok && x.noChain && x.ta.extractLsb' 5 1 == 0)
      (fun e => .mmam x.mode x.td4 x.imm x.s1 x.s2 (x.ta.extractLsb' 0 5) e)
  | 0x204#10 => keep (x.td4Ok && x.noB && x.mode == 0 && x.imm == 0) (.mmat x.td4 x.srcA x.s1 x.s2)
  | 0x205#10 => keep (x.td4Ok && x.noA && x.noB && x.noS && !x.mode.getLsbD 1 && x.imm == 0)
      (.aclr (x.mode.getLsbD 0) x.td4)
  | 0x206#10 => decScale x (x.noChain && x.ta.extractLsb' 4 2 == 0 && !x.mode.getLsbD 1 && x.imm.extractLsb' 5 11 == 0)
      (fun e => .ard (x.mode.getLsbD 0) ⟨x.rm, x.imm.getLsbD 3, x.imm.getLsbD 4⟩ x.td (x.ta.extractLsb' 0 4)
        x.s1 x.s2 e)
  | 0x207#10 => keep (x.td4Ok && x.noB && x.s2 == 0 && !x.mode.getLsbD 1 && x.imm == 0)
      (.awr (x.mode.getLsbD 0) x.td4 x.srcA x.s1)
  | 0x208#10 => keep (x.noChain && x.tb == 0 && x.ta.extractLsb' 4 2 == 0 && x.s2 == 0 && !x.mode.getLsbD 1 &&
      x.imm == 0) (.amaxa (x.mode.getLsbD 0) x.td (x.ta.extractLsb' 0 4) x.s1)
  | 0x209#10 => keep (x.td4Ok && x.noB && x.noS && x.imm.extractLsb' 2 14 == 0)
      (.tscl (x.imm.extractLsb' 0 2) x.mode x.td4 x.srcA)
  | 0x20A#10 => keep (!x.cb && x.s2 == 0 && x.mode == 0 && x.imm == 0) (.route x.td x.tb x.srcA x.s1)
  | 0x20B#10 => keep (x.noB && !x.mode.getLsbD 1 && x.imm.extractLsb' 9 7 == 0)
      (.ablk (x.mode.getLsbD 0) (x.imm.getLsbD 8) x.td x.srcA x.s1 x.s2 (x.imm.extractLsb' 0 8))
  | 0x20C#10 => keep (!x.cb && x.mode == 0 && x.imm == 0) (.iwalk x.td x.tb x.srcA x.s1 x.s2)
  | _ => .error .unassignedOp

/-- The cluster, package and fabric ops of T format (Table 2.10). -/
def decAreaT (x : TFields) : Except DecodeError Instr :=
  match x.op with
  | 0x281#10 => keep (x.td.extractLsb' 3 3 == 0 && x.tb.extractLsb' 3 3 == 0 && !x.cb && x.s2 == 0 && x.mode == 0)
      (.sendt (x.td.extractLsb' 0 3) x.srcA x.s1 (x.tb.extractLsb' 0 3) x.imm)
  | 0x283#10 => keep (x.noA && x.noB && x.s2 == 0)
      (.recvt ⟨x.mode.getLsbD 0, x.mode.getLsbD 1⟩ x.td x.s1 x.imm)
  | 0x2C0#10 => keep (x.td == 0 && x.noS && !x.mode.getLsbD 1 && x.imm.extractLsb' 10 6 == 0)
      (.upd (x.mode.getLsbD 0) x.srcA x.srcB (x.imm.extractLsb' 0 10))
  | 0x2C4#10 => keep (x.td.extractLsb' 3 3 == 0 && x.noA && x.noB && x.mode == 0)
      (.vntq (x.td.extractLsb' 0 3) x.imm x.s1 x.s2)
  | 0x2C5#10 => keep (x.td == 0 && x.noA && x.noB && x.mode == 0) (.vntw x.imm x.s1 x.s2)
  | 0x2E2#10 => keep (x.noChain && x.tb == 0 && x.mode == 0 && x.imm.extractLsb' 3 13 == 0)
      (.allx (x.imm.extractLsb' 0 3) x.td x.ta x.s1 x.s2)
  | 0x2E3#10 => keep (x.noChain && x.tb == 0 && x.s2 == 0) (.fgth x.mode x.td x.ta x.imm x.s1)
  | _ => .error .unassignedOp

/-! ### The opcode map -/

/-- Ops that Tables 2.8 to 2.10, R52 and R54 assign in some format, hints apart. -/
def opAssigned (op : BitVec 10) : Bool :=
  let n := op.toNat
  decide (n ≤ 0x01B ∨ (0x080 ≤ n ∧ n ≤ 0x08B) ∨ (0x101 ≤ n ∧ n ≤ 0x10E) ∨ (0x180 ≤ n ∧ n ≤ 0x193) ∨
    (0x200 ≤ n ∧ n ≤ 0x20C) ∨ (0x280 ≤ n ∧ n ≤ 0x28B) ∨ (0x2A0 ≤ n ∧ n ≤ 0x2A3) ∨ (0x2C0 ≤ n ∧ n ≤ 0x2C6) ∨
    (0x2E0 ≤ n ∧ n ≤ 0x2E4) ∨ (0x300 ≤ n ∧ n ≤ 0x306))

/-- The hint ops 0x3F0 to 0x3FF (R55). -/
def opHint (op : BitVec 10) : Bool := op.extractLsb' 4 6 == 0x3F

/-- An op that the format's table does not list (Table 2.12). -/
def misplaced (op : BitVec 10) (r : Except DecodeError Instr) : Except DecodeError Instr :=
  match r with
  | .error .unassignedOp => if opAssigned op then .error .wrongFormat else .error .unassignedOp
  | r => r

/-- The restrictions that the entries put on otherwise well-placed fields (Table 2.12). -/
def restricted (r : Except DecodeError Instr) : Except DecodeError Instr :=
  match r with
  | .ok i => if i.wellFormed then .ok i else .error .reservedCode
  | r => r

/-- The 48 bits below the op of an S word, kept by a hint (R55). -/
def SFields.rest (x : SFields) : BitVec 48 := x.sd ++ x.sa ++ x.f ++ x.imm

/-- The 48 bits below the op of a T word, kept by a hint (R55). -/
def TFields.rest (x : TFields) : BitVec 48 :=
  x.td ++ x.ta ++ x.tb ++ BitVec.ofBool x.ca ++ BitVec.ofBool x.cb ++ x.s1 ++ x.s2 ++ x.mode ++ x.imm

/-- An S word below its guard (Tables 2.4, 2.8, 2.10, R54). -/
def decodeS (x : SFields) : Except DecodeError Instr :=
  if opHint x.op then .ok (.hint .s (x.op.extractLsb' 0 4) x.rest)
  else
    restricted <| misplaced x.op <|
      if x.op.extractLsb' 7 3 == 0 then decScalarSlot x
      else if x.op.extractLsb' 7 3 == 1 then decScalarLong x
      else if x.op.extractLsb' 7 3 == 5 then decAreaS x
      else if x.op.extractLsb' 7 3 == 6 then decSystem x
      else .error .unassignedOp

/-- A T word below its guard (Tables 2.5, 2.9, 2.10, R52). -/
def decodeT (x : TFields) : Except DecodeError Instr :=
  if opHint x.op then .ok (.hint .t (x.op.extractLsb' 0 4) x.rest)
  else
    restricted <| misplaced x.op <|
      if x.op.extractLsb' 7 3 == 2 then decTileSlot x
      else if x.op.extractLsb' 7 3 == 3 then decTileLong x
      else if x.op.extractLsb' 7 3 == 4 then decMatrix x
      else if x.op.extractLsb' 7 3 == 5 then decAreaT x
      else .error .unassignedOp

/-- An X instruction (R46): the first word's fields and the literal. -/
def decodeX (x : SFields) (lit : Word) : Except DecodeError Instr :=
  if opHint x.op then .ok (.hint .x (x.op.extractLsb' 0 4) x.rest)
  else
    restricted <| misplaced x.op <|
      match x.op with
      | 0x080#10 => keep (x.sa == 0 && x.f == 0x20 && x.imm == 0) (.liX x.sd lit)
      | 0x2E0#10 => keep (guardImm x && x.imm.extractLsb' 29 3 == 0)
          (.fsend x.sub x.sa x.sd (x.imm.extractLsb' 16 13) (x.imm.extractLsb' 0 16) lit)
      | _ => .error .unassignedOp

/-! ### Slots -/

/-- The scalar slot of a P word (Table 2.2): SOP [57:51] to SX [35:32], 26 bits. -/
def scalarSlot (b : BitVec 26) : Except DecodeError Instr :=
  let sop : BitVec 7 := b.extractLsb' 19 7
  let sd : SReg := b.extractLsb' 14 5
  let sa : SReg := b.extractLsb' 9 5
  let sb : BitVec 5 := b.extractLsb' 4 5
  let sx : BitVec 4 := b.extractLsb' 0 4
  if sop == 0 then (if b == 0 then .ok .nop else .error .nopSlot)
  else
    restricted <| decScalarSlot
      { op := sop.zeroExtend 10, sd, sa,
        f := sx.extractLsb' 3 1 ++ (0 : BitVec 2) ++ sx.extractLsb' 0 3,
        imm := if sx.getLsbD 3 then sb.signExtend 32 else sb.zeroExtend 32 }

/-- Slot class TH of Table 2.9. -/
def topIsTH (top : BitVec 7) : Bool := top == 0x0B || top == 0x0C || top == 0x0D

/-- The tile slot of a P word (Tables 2.2 and 2.3): TOP [31:25] to TX [4:0], 32 bits. -/
def tileSlot (b : BitVec 32) : Except DecodeError Instr :=
  let top : BitVec 7 := b.extractLsb' 25 7
  let td : BitVec 6 := b.extractLsb' 19 6
  let ta : BitVec 6 := b.extractLsb' 13 6
  let tb : BitVec 6 := b.extractLsb' 7 6
  let tx : BitVec 5 := b.extractLsb' 0 5
  let op : BitVec 10 := (0b010#3) ++ top
  if top == 0 then (if b == 0 then .ok .nop else .error .nopSlot)
  else if !(decide (0x01 ≤ top.toNat ∧ top.toNat ≤ 0x0E)) then .error .noSlotClass
  else if topIsTH top then
    if ta.getLsbD 5 || b.getLsbD 6 || b.getLsbD 5 then .error .reservedBits
    else restricted <| decTileSlot
      { op, td, ta := 0, tb := 0, ca := false, cb := false, s1 := ta.extractLsb' 0 5, s2 := 0, mode := 0,
        imm := (tb ++ tx).zeroExtend 16 }
  else restricted <| decTileSlot
      { op, td, ta, tb, ca := b.getLsbD 6, cb := b.getLsbD 5, s1 := 0, s2 := 0, mode := 0, imm := tx.zeroExtend 16 }

/-! ### Words -/

/-- The guard of a word (R39). -/
def wordGuard (w : Word) : Guard := ⟨w.getLsbD 61, w.extractLsb' 58 3⟩

/-- The S fields of a word (Table 2.4). -/
def wordS (w : Word) : SFields :=
  { op := w.extractLsb' 48 10, sd := w.extractLsb' 43 5, sa := w.extractLsb' 38 5, f := w.extractLsb' 32 6,
    imm := w.extractLsb' 0 32 }

/-- The T fields of a word (Table 2.5). -/
def wordT (w : Word) : TFields :=
  { op := w.extractLsb' 48 10, td := w.extractLsb' 42 6, ta := w.extractLsb' 36 6, tb := w.extractLsb' 30 6,
    ca := w.getLsbD 29, cb := w.getLsbD 28, s1 := w.extractLsb' 23 5, s2 := w.extractLsb' 18 5,
    mode := w.extractLsb' 16 2, imm := w.extractLsb' 0 16 }

/-- Whether a word is the first of an X instruction (Table 2.1). -/
def wordIsX (w : Word) : Bool := w.extractLsb' 62 2 == 3

/-- The body of a word; `lit` is the following word, used by format X alone (R46). -/
def decodeBody (w lit : Word) : Except DecodeError Body :=
  match w.extractLsb' 62 2 with
  | 0#2 =>
    match scalarSlot (w.extractLsb' 32 26), tileSlot (w.extractLsb' 0 32) with
    | .ok a, .ok b => .ok (.pair a b)
    | .error e, _ => .error e
    | _, .error e => .error e
  | 1#2 => (decodeS (wordS w)).map .long
  | 2#2 => (decodeT (wordT w)).map .long
  | _ => (decodeX (wordS w) lit).map .long

/-- The decoder (R58): total, and a function of the word (and of the literal of an X instruction). -/
def decodeWord (w lit : Word) : Except DecodeError Bundle :=
  if w.getLsbD 61 && w.extractLsb' 58 3 == 0 then .error .guardInverted
  else (decodeBody w lit).map (⟨wordGuard w, ·⟩)

/-- Whether a word is no instruction because of its tile slot alone: a pair whose guard and scalar slot are good (R42, R43). -/
def badTileSlot (w : Word) : Bool :=
  w.extractLsb' 62 2 == 0 && !(w.getLsbD 61 && w.extractLsb' 58 3 == 0) && (scalarSlot (w.extractLsb' 32 26)).isOk &&
    !(tileSlot (w.extractLsb' 0 32)).isOk

/-! ### The encoder -/

/-- The long form of an instruction: an S word, a T word, or an X word with its literal. -/
inductive Enc where
  | s (x : SFields)
  | t (x : TFields)
  | x (x : SFields) (lit : Word)
deriving DecidableEq, Repr

/-- IMM32 and the I bit of operand b (R120). -/
def Opd.immBits : Opd → BitVec 32
  | .reg r => r.zeroExtend 32
  | .imm v => v

/-- The I bit of operand b (R120). -/
def Opd.iBit : Opd → BitVec 1
  | .reg _ => 0
  | .imm _ => 1

/-- FUNCT from I, the combine bits and the sub-function (R120). -/
def functOf (i : BitVec 1) (c : BitVec 2) (sub : BitVec 3) : BitVec 6 := i ++ c ++ sub

/-- The sub-function of an ALU op (Table 4.5). -/
def AluMode.bits (m : AluMode) : BitVec 3 := BitVec.ofBool m.w ++ BitVec.ofBool m.s ++ BitVec.ofBool m.u

/-- An ALU word (Table 4.5). -/
def encAlu (op : BitVec 10) (m : AluMode) (sd sa : SReg) (b : Opd) : Enc :=
  .s ⟨op, sd, sa, functOf b.iBit 0 m.bits, b.immBits⟩

/-- CLZ, CTZ and POPC (Table 4.5). -/
def encCount (op : BitVec 10) (w : Bool) (sd sa : SReg) : Enc :=
  .s ⟨op, sd, sa, functOf 0 0 (BitVec.ofBool w ++ (0 : BitVec 2)), 0⟩

/-- LD and LDFF (Table 4.5). -/
def encLoad (op : BitVec 10) (z : BitVec 2) (u : Bool) (sd sa : SReg) (b : Opd) : Enc :=
  .s ⟨op, sd, sa, functOf b.iBit 0 (BitVec.ofBool u ++ z), b.immBits⟩

/-- SVC (R138). -/
def encSvc (sd : SReg) (n : BitVec 16) : Enc := .s ⟨0x089, sd, 0, 0x20, n.zeroExtend 32⟩

/-- IMM32 of AMO, CAS and CLAIM (Table 7.3, R250). -/
def atomicImm (d : Bool) (scope : ScopeCode) (sb : SReg) : BitVec 32 :=
  (0 : BitVec 21) ++ scope ++ (0 : BitVec 1) ++ (1 : BitVec 1) ++ BitVec.ofBool d ++ sb

/-- SYNC (Table 11.8). -/
def encSync (f : BitVec 6) (cc : BitVec 3) (scope : ScopeCode) (sd sa sb : SReg) : Enc :=
  .s ⟨0x2A0, sd, sa, f, (0 : BitVec 21) ++ scope ++ cc ++ sb⟩

/-- IMM32 of RECV, PROBE and FRECV (Tables 9.4, 16.2). -/
def recvImm (tile : Bool) (w : Wild) (tag : BitVec 16) : BitVec 32 :=
  (0 : BitVec 13) ++ BitVec.ofBool tile ++ BitVec.ofBool w.anyTag ++ BitVec.ofBool w.anySrc ++ tag

/-- A class-TT word (Table 5.5). -/
def encTT (op : BitVec 10) (td : TReg) (ta tb : Src) (imm : BitVec 16) : Enc :=
  .t ⟨op, td, ta.t, tb.t, ta.chain, tb.chain, 0, 0, 0, imm⟩

/-- An absent tile source. -/
def Src.none : Src := ⟨0, false⟩

/-- IMM16 of TADD to TFMA and of TCVT: suffix bits over the rounding code (R45). -/
def ttImm (hi : BitVec 2) (rm : Rm) : BitVec 16 := (0 : BitVec 11) ++ hi ++ rm

/-- IMM16 of MAP, REDUCE and SCAN (Table 5.5). -/
def convImm (b : Bool) (cv : Conv) (fn : BitVec 8) : BitVec 16 :=
  BitVec.ofBool b ++ (0 : BitVec 2) ++ BitVec.ofBool cv.s ++ BitVec.ofBool cv.nsat ++ cv.rm ++ fn

/-- The B bit and the code of a step operand (R179). -/
def StepFn.isBuiltin : StepFn → Bool
  | .fn _ => false
  | .builtin _ => true
def StepFn.code : StepFn → BitVec 8
  | .fn i => i
  | .builtin c => c

/-- MODE of REDUCE, SCAN and TRDS: [16] COL, [17] two sources. -/
def lineMode (col two : Bool) : BitVec 2 := BitVec.ofBool two ++ BitVec.ofBool col

/-- TB with a scale-register operand (R185). -/
def scaleBits : Option EReg → BitVec 6
  | some e => (0b01#2) ++ e
  | Option.none => 0

/-- A one-bit MODE. -/
def mode1 (b : Bool) : BitVec 2 := (0 : BitVec 1) ++ BitVec.ofBool b

/-- The dims operand of LDB and LDBM. -/
def dimsBits : Option SReg → SReg
  | some r => r
  | Option.none => 0

/-- The long form of a program instruction; a step that no word names has none. -/
def encode : Instr → Option Enc
  | .nop => some (.s ⟨0, 0, 0, 0, 0⟩)
  | .hint .s op rest => some (.s ⟨0x3F#6 ++ op, rest.extractLsb' 43 5, rest.extractLsb' 38 5,
      rest.extractLsb' 32 6, rest.extractLsb' 0 32⟩)
  | .hint .t op rest => some (.t ⟨0x3F#6 ++ op, rest.extractLsb' 42 6, rest.extractLsb' 36 6, rest.extractLsb' 30 6,
      rest.getLsbD 29, rest.getLsbD 28, rest.extractLsb' 23 5, rest.extractLsb' 18 5, rest.extractLsb' 16 2,
      rest.extractLsb' 0 16⟩)
  | .hint .x op rest => some (.x ⟨0x3F#6 ++ op, rest.extractLsb' 43 5, rest.extractLsb' 38 5,
      rest.extractLsb' 32 6, rest.extractLsb' 0 32⟩ 0)
  | .add m sd sa b => some (encAlu 0x001 m sd sa b)
  | .sub m sd sa b => some (encAlu 0x002 m sd sa b)
  | .mul m sd sa b => some (encAlu 0x003 m sd sa b)
  | .mulh m sd sa b => some (encAlu 0x004 m sd sa b)
  | .div m sd sa b => some (encAlu 0x005 m sd sa b)
  | .rem m sd sa b => some (encAlu 0x006 m sd sa b)
  | .and m sd sa b => some (encAlu 0x007 m sd sa b)
  | .or m sd sa b => some (encAlu 0x008 m sd sa b)
  | .xor m sd sa b => some (encAlu 0x009 m sd sa b)
  | .shl m sd sa b => some (encAlu 0x00A m sd sa b)
  | .shr m sd sa b => some (encAlu 0x00B m sd sa b)
  | .sra m sd sa b => some (encAlu 0x00C m sd sa b)
  | .min m sd sa b => some (encAlu 0x00D m sd sa b)
  | .max m sd sa b => some (encAlu 0x00E m sd sa b)
  | .clz w sd sa => some (encCount 0x00F w sd sa)
  | .ctz w sd sa => some (encCount 0x010 w sd sa)
  | .popc w sd sa => some (encCount 0x011 w sd sa)
  | .sel k sd sa b => some (.s ⟨0x012, sd, sa, functOf b.iBit 0 k, b.immBits⟩)
  | .cmp cc cb gk sa b => some (.s ⟨0x013, (0 : BitVec 2) ++ gk, sa, functOf b.iBit cb cc, b.immBits⟩)
  | .gop op gd ga gb => some (.s ⟨0x014, (0 : BitVec 2) ++ gd, (0 : BitVec 2) ++ ga, functOf 0 0 op,
      (0 : BitVec 29) ++ gb⟩)
  | .lea sd (.index sa sb n) => some (.s ⟨0x015, sd, sa, functOf 0 0 n, sb.zeroExtend 32⟩)
  | .lea sd (.base sa imm) => some (.s ⟨0x015, sd, sa, functOf 1 0 0, imm⟩)
  | .lea sd (.label imm) => some (.s ⟨0x015, sd, 0, functOf 1 0 1, imm⟩)
  | .ld z u sd sa b => some (encLoad 0x016 z u sd sa b)
  | .st z sd sa b => some (encLoad 0x017 z false sd sa b)
  | .ldff z u sd sa b => some (encLoad 0x018 z u sd sa b)
  | .bqpop sd => some (.s ⟨0x019, sd, 0, 0, 0⟩)
  | .mfs sd n => some (.s ⟨0x01A, sd, 0, 0x20, n.zeroExtend 32⟩)
  | .mts n sa => some (.s ⟨0x01B, 0, sa, 0x20, n.zeroExtend 32⟩)
  | .li sd imm => some (.s ⟨0x080, sd, 0, 0x20, imm⟩)
  | .liX sd lit => some (.x ⟨0x080, sd, 0, 0x20, 0⟩ lit)
  | .lih sd imm => some (.s ⟨0x081, sd, 0, 0x20, imm⟩)
  | .br off => some (.s ⟨0x082, 0, 0, 0x20, off⟩)
  | .jmp sa imm => some (.s ⟨0x083, 0, sa, 0x20, imm⟩)
  | .call sd (.label off) => some (.s ⟨0x084, sd, 0, 0x20, off⟩)
  | .call sd (.reg sa) => some (.s ⟨0x084, sd, sa, 0, 0⟩)
  | .ret sa => some (.s ⟨0x085, 0, sa, 0, 0⟩)
  | .loop sd off => some (.s ⟨0x086, sd, 0, 0x20, off⟩)
  | .drain u c t => some (.s ⟨0x087, 0, 0, functOf 0 0 (BitVec.ofBool u ++ BitVec.ofBool c ++ BitVec.ofBool t), 0⟩)
  | .yield sd off => some (.s ⟨0x088, sd, 0, 0x20, off⟩)
  | .exit sd => some (encSvc sd 0x0000)
  | .shapeSet sd => some (encSvc sd 0x0001)
  | .shapeInv sd => some (encSvc sd 0x0002)
  | .yieldDone sd => some (encSvc sd 0x0003)
  | .regionSet sd => some (encSvc sd 0x0010)
  | .regionRel sd => some (encSvc sd 0x0011)
  | .regionStat sd => some (encSvc sd 0x0012)
  | .vntSet sd => some (encSvc sd 0x0020)
  | .vntRel sd => some (encSvc sd 0x0021)
  | .vntInv sd => some (encSvc sd 0x0022)
  | .svcUnassigned sd n => some (encSvc sd n)
  | .trap code => some (.s ⟨0x08A, 0, 0, 0x20, code.zeroExtend 32⟩)
  | .brk code => some (.s ⟨0x08B, 0, 0, 0x20, code.zeroExtend 32⟩)
  | .tadd s rm td ta tb => some (encTT 0x101 td ta tb (ttImm ((0 : BitVec 1) ++ BitVec.ofBool s) rm))
  | .tsub s rm td ta tb => some (encTT 0x102 td ta tb (ttImm ((0 : BitVec 1) ++ BitVec.ofBool s) rm))
  | .tmul s rm td ta tb => some (encTT 0x103 td ta tb (ttImm ((0 : BitVec 1) ++ BitVec.ofBool s) rm))
  | .tfma s rm td ta tb => some (encTT 0x104 td ta tb (ttImm ((0 : BitVec 1) ++ BitVec.ofBool s) rm))
  | .tmax td ta tb => some (encTT 0x105 td ta tb 6)
  | .tmin td ta tb => some (encTT 0x106 td ta tb 6)
  | .tcmp cc td ta tb => some (encTT 0x107 td ta tb ((0 : BitVec 8) ++ cc ++ (6 : BitVec 5)))
  | .tsel td ta tb => some (encTT 0x108 td ta tb 6)
  | .tmov td ta => some (encTT 0x109 td ta Src.none 6)
  | .tcvt rm nsat s td ta => some (encTT 0x10A td ta Src.none (ttImm (BitVec.ofBool s ++ BitVec.ofBool nsat) rm))
  | .tld td h sx => some (.t ⟨0x10B, td, 0, 0, false, false, sx, 0, 0, h⟩)
  | .tst ta h sx => some (.t ⟨0x10C, ta, 0, 0, false, false, sx, 0, 0, h⟩)
  | .tldff td h sx => some (.t ⟨0x10D, td, 0, 0, false, false, sx, 0, 0, h⟩)
  | .ttrn td ta => some (encTT 0x10E td ta Src.none 6)
  | .tdecl td h => some (.t ⟨0x180, td, 0, 0, false, false, 0, 0, 0, h⟩)
  | .trel td => some (.t ⟨0x181, td, 0, 0, false, false, 0, 0, 0, 0⟩)
  | .text ta => some (encTT 0x182 0 ta Src.none 0)
  | .tgth u kind td ti h sx => some (.t ⟨0x183, td, ti.t, (0 : BitVec 5) ++ BitVec.ofBool u, ti.chain, false, sx, 0,
      kind, h⟩)
  | .tsct kind ta ti h sx => some (.t ⟨0x184, 0, ta.t, ti.t, ta.chain, ti.chain, sx, 0, kind, h⟩)
  | .tcopy tag h sd ss => some (.t ⟨0x185, (0 : BitVec 2) ++ tag, 0, 0, false, false, sd, ss, 0, h⟩)
  | .tcopyStr q h ss => some (.t ⟨0x185, (0 : BitVec 3) ++ q, 0, 0, false, false, 0, ss, 1, h⟩)
  | .twait all tag => some (.t ⟨0x186, (0 : BitVec 2) ++ tag, 0, 0, false, false, 0, 0, mode1 all, 0⟩)
  | .qbind q t => some (.t ⟨0x187, (0 : BitVec 3) ++ q, t, 0, false, false, 0, 0, 0, 0⟩)
  | .qrel q => some (.t ⟨0x188, (0 : BitVec 3) ++ q, 0, 0, false, false, 0, 0, 0, 0⟩)
  | .tfill td sa => some (.t ⟨0x189, td, 0, 0, false, false, sa, 0, 0, 0⟩)
  | .tiota td sa sb => some (.t ⟨0x18A, td, 0, 0, false, false, sa, sb, 0, 0⟩)
  | .tslide dir (some tb) td ta n => some (.t ⟨0x18B, td, ta.t, tb.t, ta.chain, tb.chain, 0, 0, dir,
      (0 : BitVec 9) ++ (1 : BitVec 1) ++ n⟩)
  | .tslide dir Option.none td ta n => some (.t ⟨0x18B, td, ta.t, 0, ta.chain, false, 0, 0, dir, n.zeroExtend 16⟩)
  | .tpack td ta => some (encTT 0x18C td ta Src.none 0)
  | .tunpk td ta => some (encTT 0x18D td ta Src.none 0)
  | .tqnt rm nsat td ta => some (encTT 0x18E td ta Src.none (ttImm ((0 : BitVec 1) ++ BitVec.ofBool nsat) rm))
  | .tdqt rm Option.none td ta => some (.t ⟨0x18F, td, ta.t, 0, ta.chain, false, 0, 0, 0, rm.zeroExtend 16⟩)
  | .tdqt rm (some e) td ta => some (.t ⟨0x18F, td, ta.t, (0 : BitVec 2) ++ e, ta.chain, false, 0, 0, 1,
      rm.zeroExtend 16⟩)
  | .map cv cnt td ta tb sa sb fn => some (.t ⟨0x190, td, ta.t, tb.t, ta.chain, tb.chain, sa, sb, cnt,
      convImm false cv fn⟩)
  | .reduce col two cv td ta tb sa sb fn => some (.t ⟨0x191, td, ta.t, tb.t, ta.chain, tb.chain, sa, sb,
      lineMode col two, convImm fn.isBuiltin cv fn.code⟩)
  | .scan col two cv td ta tb sa sb fn => some (.t ⟨0x192, td, ta.t, tb.t, ta.chain, tb.chain, sa, sb,
      lineMode col two, convImm fn.isBuiltin cv fn.code⟩)
  | .trds two rm ta tb sa sb fn => some (.t ⟨0x193, 0, ta.t, tb.t, ta.chain, tb.chain, sa, sb,
      lineMode false two, convImm fn.isBuiltin ⟨rm, false, false⟩ fn.code⟩)
  | .ldb d ta so => some (.t ⟨0x200, 0, ta.t, 0, ta.chain, false, so, dimsBits d, mode1 d.isSome, 0⟩)
  | .ldbm d h sx so => some (.t ⟨0x201, 0, (0 : BitVec 1) ++ dimsBits d, 0, false, false, sx, so, mode1 d.isSome, h⟩)
  | .mma f ad ta ss sp en => some (.t ⟨0x202, (0 : BitVec 2) ++ ad, ta.t, scaleBits en, ta.chain, false, ss, sp, f, 0⟩)
  | .mmam f ad h ss sx sp en => some (.t ⟨0x203, (0 : BitVec 2) ++ ad, (0 : BitVec 1) ++ sp, scaleBits en, false, false,
      ss, sx, f, h⟩)
  | .mmat ad ta ss sp => some (.t ⟨0x204, (0 : BitVec 2) ++ ad, ta.t, 0, ta.chain, false, ss, sp, 0, 0⟩)
  | .aclr int ad => some (.t ⟨0x205, (0 : BitVec 2) ++ ad, 0, 0, false, false, 0, 0, mode1 int, 0⟩)
  | .ard clr cv td as sw sx en => some (.t ⟨0x206, td, (0 : BitVec 2) ++ as, scaleBits en, false, false, sw, sx,
      mode1 clr, ttImm (BitVec.ofBool cv.s ++ BitVec.ofBool cv.nsat) cv.rm⟩)
  | .awr a ad ta sw => some (.t ⟨0x207, (0 : BitVec 2) ++ ad, ta.t, 0, ta.chain, false, sw, 0, mode1 a, 0⟩)
  | .amaxa a td as sw => some (.t ⟨0x208, td, (0 : BitVec 2) ++ as, 0, false, false, sw, 0, mode1 a, 0⟩)
  | .tscl tgt gc en ta => some (.t ⟨0x209, (0 : BitVec 2) ++ en, ta.t, 0, ta.chain, false, 0, 0, gc,
      tgt.zeroExtend 16⟩)
  | .route td tc ti se => some (.t ⟨0x20A, td, ti.t, tc, ti.chain, false, se, 0, 0, 0⟩)
  | .ablk fp8 causal td ta ss sp k => some (.t ⟨0x20B, td, ta.t, 0, ta.chain, false, ss, sp, mode1 fp8,
      (0 : BitVec 7) ++ BitVec.ofBool causal ++ k⟩)
  | .iwalk td tc tm ss sx => some (.t ⟨0x20C, td, tm.t, tc, tm.chain, false, ss, sx, 0, 0⟩)
  | .send k sr sp team tag => some (.s ⟨0x280, sp, sr, functOf 1 0 k, (0 : BitVec 13) ++ team ++ tag⟩)
  | .sendt k ta sr team tag => some (.t ⟨0x281, (0 : BitVec 3) ++ k, ta.t, (0 : BitVec 3) ++ team, ta.chain, false, sr,
      0, 0, tag⟩)
  | .recv w sd sm tag => some (.s ⟨0x282, sd, sm, 0x20, recvImm false w tag⟩)
  | .recvt w td sm tag => some (.t ⟨0x283, td, 0, 0, false, false, sm, 0,
      BitVec.ofBool w.anyTag ++ BitVec.ofBool w.anySrc, tag⟩)
  | .probe tile w k sm tag => some (.s ⟨0x284, 0, sm, functOf 1 0 k, recvImm tile w tag⟩)
  | .bar n => some (.s ⟨0x285, 0, 0, 0x20, n.zeroExtend 32⟩)
  | .claim sc sd sa sb => some (.s ⟨0x286, sd, sa, 0, atomicImm true sc sb⟩)
  | .fork k sd off => some (.s ⟨0x287, sd, 0, functOf 1 0 k, off⟩)
  | .join sp => some (.s ⟨0x288, 0, sp, 0, 0⟩)
  | .spawn k sa off => some (.s ⟨0x289, 0, sa, functOf 1 0 k, off⟩)
  | .take k sd => some (.s ⟨0x28A, sd, 0, functOf 0 0 k, 0⟩)
  | .launch sd sa sb => some (.s ⟨0x28B, sd, sa, 0, sb.zeroExtend 32⟩)
  | .syncTas sc sd sa sb => some (encSync 0 0 sc sd sa sb)
  | .syncFadd sc sd sa sb => some (encSync 1 0 sc sd sa sb)
  | .syncWait cc sc sd sa sb => some (encSync 2 cc sc sd sa sb)
  | .syncLd sc sd sa => some (encSync 3 0 sc sd sa 0)
  | .syncSt sc sa sb => some (encSync 4 0 sc 0 sa sb)
  | .pref l1 sa len => some (.s ⟨0x2A1, 0, sa, len.iBit ++ ((0 : BitVec 4) ++ BitVec.ofBool l1), len.immBits⟩)
  | .evict kind sa len => some (.s ⟨0x2A2, 0, sa, len.iBit ++ ((0 : BitVec 3) ++ kind), len.immBits⟩)
  | .winq sd sa b => some (.s ⟨0x2A3, sd, sa, functOf b.iBit 0 0, b.immBits⟩)
  | .upd strict ti tv rh => some (.t ⟨0x2C0, 0, ti.t, tv.t, ti.chain, tv.chain, 0, 0, mode1 strict, rh.zeroExtend 16⟩)
  | .upds strict sv si rh => some (.s ⟨0x2C1, sv, si, (0 : BitVec 5) ++ BitVec.ofBool strict,
      (0 : BitVec 6) ++ rh ++ (0 : BitVec 16)⟩)
  | .rack rh sa sb => some (.s ⟨0x2C2, 0, sa, 0, (0 : BitVec 6) ++ rh ++ (0 : BitVec 11) ++ sb⟩)
  | .rackr sd sa rh => some (.s ⟨0x2C3, sd, sa, 0, (0 : BitVec 6) ++ rh ++ (0 : BitVec 16)⟩)
  | .vntq k h sb st => some (.t ⟨0x2C4, (0 : BitVec 3) ++ k, 0, 0, false, false, sb, st, 0, h⟩)
  | .vntw h sb st => some (.t ⟨0x2C5, 0, 0, 0, false, false, sb, st, 0, h⟩)
  | .vntc c clr sd => some (.s ⟨0x2C6, sd, 0, 0x20, (0 : BitVec 29) ++ BitVec.ofBool clr ++ c⟩)
  | .fsend k sa sl tgt tag route => some (.x ⟨0x2E0, sl, sa, functOf 1 0 k, (0 : BitVec 3) ++ tgt ++ tag⟩ route)
  | .frecv w sd sm tag => some (.s ⟨0x2E1, sd, sm, 0x20, recvImm false w tag⟩)
  | .fgth kind td ti h sx => some (.t ⟨0x2E3, td, ti, 0, false, false, sx, 0, kind, h⟩)
  | .allx n td ta sr sc => some (.t ⟨0x2E2, td, ta, 0, false, false, sr, sc, 0, n.zeroExtend 16⟩)
  | .fbar n => some (.s ⟨0x2E4, 0, 0, 0x20, n.zeroExtend 32⟩)
  | .phase sc => some (.s ⟨0x300, 0, 0, sc.zeroExtend 6, 0⟩)
  | .cfence f t => some (.s ⟨0x301, 0, 0, 0x20, (0 : BitVec 26) ++ t ++ f⟩)
  | .amo op d sc sd sa sb => some (.s ⟨0x302, sd, sa, (0 : BitVec 1) ++ op, atomicImm d sc sb⟩)
  | .cas d sc sd sa sb => some (.s ⟨0x303, sd, sa, 0, atomicImm d sc sb⟩)
  | .eret sd sa => some (.s ⟨0x304, sd, sa, 0, 0⟩)
  | .ctxs sd sa sb => some (.s ⟨0x305, sd, sa, 0, sb.zeroExtend 32⟩)
  | .ctxl sd sa sb => some (.s ⟨0x306, sd, sa, 0, sb.zeroExtend 32⟩)
  | .storePerform _ | .tiqAccept _ | .microOperationIssue _ | .tileInstructionCompletion _ | .copyCompletion _
  | .messageDelivery _ | .barrierCompletion _ | .mirror _ | .handOff _ | .backgroundRacking _ _ _
  | .fabricMessageDelivery _ | .exchangeClose _ | .fabricBarrierCompletion _ | .fault _ | .faultRecordPost _ _
  | .faultCompletion _ _ _ | .walkTimeout _ | .preemptionRequest _ | .preemptionWithdrawal _ | .forcedSave _
  | .resumption _ _ | .queuePop _ _ | .groupPlacement _ _ _ | .instancePlacement _ _ | .steal _ _
  | .launchCompletion _ | .gangSliceStart _ | .ready _ _ _ | .start _ _ | .abort _ _ | .ctxCreate _ | .ctxEnd _
  | .queueOpen _ | .queueReset _ | .cancel _ | .cancelClr _ | .tlbInv _ | .winSet _ | .fwStage _ | .fwActivate _
  | .hostSvc _ | .rsvW2Write _ _ _ _ | .commit _ | .registerWrite _ _ _ | .hostRead _ _ | .hostWrite _ _ | .boot _
  | .trialTimeout _ | .watchdog _ | .getMeasurements _ | .negotiateAlgorithms _ _ _ | .retirement _ _
  | .routeFixupPass _ _ | .portDown _ _ | .portRetire _ _ | .portTraining _ _ _ _ _ _ | .flitReplay _ _
  | .d2dLinkFailure _ | .softError _ _ | .uncorrectableError _ _ | .unitFailure _ _ | .supplySag _ _
  | .clockReturn _ _ | .junction105 _ | .junction115 _ | .standby _ | .wake _ | .copyRow _ | .junctionBelow100 _
  | .hostAttachmentFailure _ | .d2dLinkTraining _ | .unknownCommandCode _ => Option.none

/-- An S word under a guard (Table 2.4); X words take format 0b11. -/
def packS (fmt : BitVec 2) (g : Guard) (x : SFields) : Word :=
  fmt ++ BitVec.ofBool g.inv ++ g.idx ++ x.op ++ x.sd ++ x.sa ++ x.f ++ x.imm

/-- A T word under a guard (Table 2.5). -/
def packT (g : Guard) (x : TFields) : Word :=
  (2 : BitVec 2) ++ BitVec.ofBool g.inv ++ g.idx ++ x.op ++ x.td ++ x.ta ++ x.tb ++ BitVec.ofBool x.ca ++
    BitVec.ofBool x.cb ++ x.s1 ++ x.s2 ++ x.mode ++ x.imm

/-- The words of a long form under a guard; the second is the literal of an X instruction, else 0. -/
def Enc.words (g : Guard) : Enc → Word × Word
  | .s y => (packS 1 g y, 0)
  | .t y => (packT g y, 0)
  | .x y lit => (packS 3 g y, lit)

/-- The instruction that an unguarded long form decodes to. -/
def decodeEnc : Enc → Except DecodeError Instr
  | .s y => decodeS y
  | .t y => decodeT y
  | .x y lit => decodeX y lit

/-- The instruction a table word decodes to: bits [63:0] of `w` are the first word and [127:64] the literal. For a
pair word the slot that is not a NOP answers, the scalar slot first. -/
def decodeTableWord (_nbits w : Nat) : Option Instr :=
  match decodeWord (BitVec.ofNat 64 w) (BitVec.ofNat 64 (w >>> 64)) with
  | .ok b =>
    match b.body with
    | .long i => some i
    | .pair a t => if a = .nop then some t else some a
  | .error _ => Option.none

end Sys2Proof
end

