-- ==== Sys2Proof/Machine/Sparse.lean ====
section
/-!
DEFINITION. Sparse data: lists of (key, value) pairs in one canonical form, keys strictly rising and no value equal
to the default of an unlisted key, so that equal contents are equal data.
-/

namespace Sys2Proof.Machine

/-- A sparse table. -/
abbrev KMap (α : Type) := List (Nat × α)

/-- Reads a key; an unlisted key holds `d`. -/
def kget {α : Type} (d : α) : KMap α → Nat → α
  | [], _ => d
  | (k, v) :: m, a => if a = k then v else kget d m a

/-- Removes a key. -/
def kdel {α : Type} : KMap α → Nat → KMap α
  | [], _ => []
  | (k, v) :: m, a => if a = k then kdel m a else (k, v) :: kdel m a

/-- Inserts or replaces a key, keeping the keys rising. -/
def kput {α : Type} : KMap α → Nat → α → KMap α
  | [], a, x => [(a, x)]
  | (k, v) :: m, a, x =>
    if a = k then (a, x) :: m
    else if a < k then (a, x) :: (k, v) :: m
    else (k, v) :: kput m a x

/-- Writes a key and keeps the canonical form: writing the default removes the entry. -/
def kset {α : Type} [DecidableEq α] (d : α) (m : KMap α) (a : Nat) (x : α) : KMap α :=
  if x = d then kdel m a else kput m a x

/-- Keys strictly rising from above `lo`, and no value equal to `d`. -/
def kwfFrom {α : Type} [DecidableEq α] (d : α) (lo : Nat) : KMap α → Bool
  | [] => true
  | (k, v) :: m => decide (lo ≤ k) && decide (v ≠ d) && kwfFrom d (k + 1) m

/-- The canonical form. -/
def kwf {α : Type} [DecidableEq α] (d : α) (m : KMap α) : Bool := kwfFrom d 0 m

/-- Keeps the entries whose key satisfies `p`. -/
def kfilter {α : Type} (p : Nat → Bool) (m : KMap α) : KMap α := m.filter (fun kv => p kv.1)

/-- A present key's value. -/
def kfind {α : Type} : KMap α → Nat → Option α
  | [], _ => none
  | (k, v) :: m, a => if a = k then some v else kfind m a

end Sys2Proof.Machine
end

