-- ==== Sys2Proof/Machine/State.lean ====
section
/-!
DEFINITION. The state of the machine as plain data, what can end a run, and the state after reset.
-/

namespace Sys2Proof.Machine

/-- Why a step has no next state. -/
inductive Fault where
  /-- Raised by the meaning of a program instruction when no team is running: nothing issues the word. `step` never
  asks for that, so no run from any state meets it. Safe. -/
  | noRunningTeam
deriving DecidableEq, Repr

/-- Why an instruction has no meaning. -/
inductive Refusal where
  /-- Raised by an arm of `exec` that is not modelled yet. Safe. -/
  | notModelled (mnemonic : String)
deriving DecidableEq, Repr

/-! ### Memory, writes and views -/

/-- Bytes by memory key, in canonical form; an unlisted key reads as zero (log 10). Keys: device memory of a package
at `pkg * 2^40 + address`, the scratchpad of a core at `2^52 + (global id / 8) * 2^21 + offset`, host memory at
`2^60 + address`; the saved share (R239) of core k of context c at `2^59 + (c * 2^22 + k) * 2^21 + offset`. -/
abbrev Memory := KMap Byte

/-- The canonical form of a memory. -/
def Memory.wf (m : Memory) : Bool := kwf 0 m

/-- The access paths of Table 7.2 that hold a view. -/
inductive Path where
  | team
  | copy
  | mload
  | gath
  | send
  | upd
  | host
  | fetch
deriving DecidableEq, Repr

/-- One write (R208, R209, R216): its bytes, who made it and which writes are ordered before it. Team 0 stands for
the host and the firmware. -/
structure Write where
  id : Nat
  uid : Nat
  path : Path
  cells : List Host.Cell
  before : List Nat
  /-- The write has entered the atomic order of its bytes (R217): it was published, or made there. -/
  entered : Bool
  /-- The context of the team that made it (R290). -/
  ctx : CtxId
  /-- The epochs of its team's paths when it was made (R209; the model's own). -/
  epochs : Vector Nat 5
deriving DecidableEq, Repr

/-- One publication (R210): the writes published, to the parties of `scope` for the team `uid`, and the publications
that precede it (R212). -/
structure Pub where
  id : Nat
  uid : Nat
  gid : Gid
  pkg : PkgNo
  ctx : CtxId
  scope : ScopeCode
  view : List Nat
  prec : List Nat
  /-- When it was published. -/
  began : Nat
  /-- When the boundary completed (R211); none while it waits, or for ever when a forced save abandoned it. -/
  doneAt : Option Nat
deriving DecidableEq, Repr

/-! ### Shape records and tiles -/

/-- A shape record of eight doublewords (Tables 2.13 and 2.14). -/
structure Shape where
  d0 : Word
  d1 : Word
  d2 : Word
  d3 : Word
  d4 : Word
  d5 : Word
  d6 : Word
  d7 : Word
deriving DecidableEq, Repr

/-- The record of an entry never written (R59). -/
def Shape.zero : Shape := ⟨0, 0, 0, 0, 0, 0, 0, 0⟩

/-- A tile's geometry (R144). -/
structure Geo where
  etype : BitVec 5
  layout : BitVec 2
  nnz : BitVec 16
  rows : Nat
  cols : Nat
deriving DecidableEq, Repr

/-- A bound tile name (R144, R145): its geometry and contents. Dense and MX elements lie at key `r * cols + c`; a
packed tile holds its bitmap bytes and, by number, its values. -/
structure Tile where
  handle : Handle
  geo : Geo
  written : Bool
  strm : Option QReg
  data : KMap Word
  scales : KMap Byte
  bitmap : KMap Byte
  count : Nat
deriving DecidableEq, Repr

/-- A stream register (R164): its tile, the lines that have arrived and were not consumed, the elements of each, the
number of lines appended by every TCOPY.str into it and not yet claimed, counted in program order, and the lines that
instructions that may still be discarded have consumed (the model's own, for R116). -/
structure Stream where
  tile : TReg
  lines : List (List Word)
  claimable : Nat
  taken : List (List Word)
deriving DecidableEq, Repr

/-- An accumulator (R184): its mode and its elements at key `r * 128 + c`. -/
structure Acc where
  int : Bool
  cells : KMap (BitVec 80)
deriving DecidableEq, Repr

/-- A scale register (R18): its group code and its 64 bytes. -/
structure ScaleReg where
  gc : BitVec 2
  bytes : KMap Byte
deriving DecidableEq, Repr

/-- Resident B (Table 6.2): cells at key `k * 128 + n`, scales at key `g * 128 + n`. -/
structure ResidentB where
  bv : Bool
  btype : BitVec 5
  bmx : Bool
  kb : Nat
  nb : Nat
  cells : KMap (BitVec 16)
  scales : KMap Byte
deriving DecidableEq, Repr

/-! ### Update pairs and regions -/

/-- An update pair with its order key (R314) and its target. -/
structure Pair where
  handle : Nat
  idx : Nat
  value : Word
  ph : Word
  gid : Gid
  seq : Nat
deriving DecidableEq, Repr

/-- A residue (R312): an exact sum in units of 2^-149 (and, of a zero, whether every operand was -0), or the class of
the result. -/
inductive Residue where
  | num (x : Int) (negz : Bool)
  | inf (neg : Bool)
  | nan
deriving DecidableEq, Repr

/-- A region (R307, R310). -/
structure Region where
  base : Nat
  len : Nat
  op : BitVec 4
  scope : ScopeCode
  plane : Nat
  nv : Bool
  of : Bool
  spills : Nat
  residues : KMap Residue
  /-- The infinities racked into a word so far: a positive one, a negative one (R309). -/
  infs : KMap (Bool × Bool)
  /-- For last.b64 (R309): the member of the racked set with the greatest order key, by element. -/
  tops : KMap Pair
deriving DecidableEq, Repr

/-! ### Team queues -/

/-- What a TIQ entry captures when it is placed (R110): the extents, the dynamic rounding mode, and the scalar
registers, of which the instruction reads those it names. -/
structure Capture where
  ext : BitVec 16
  extc : BitVec 16
  drm : Rm
  s : Vector Word 32
deriving DecidableEq, Repr

/-- What stood before instructions younger than an entry ran past it (R116, R148): the tile names and the draws; how many
branch-queue entries those instructions have pushed, how many lines of each stream were taken before them, the streams that
they have bound or released as these stood, and the tile names that they have written before the next waiting entry. -/
structure Younger where
  tiles : Vector (Option Tile) 64
  lfsr : BitVec 32
  pushed : Nat
  taken : Vector Nat 8
  rebound : List (QReg × Option Stream)
  after : List TReg
deriving DecidableEq, Repr

/-- A TIQ entry (R110): the instruction, its word and place, what it captured, whether the block sequencer has
accepted it (R147), the records it read then (R64) and whether it has issued. -/
structure TileEntry where
  instr : Instr
  seq : Nat
  pc : Word
  word : Word
  slot : Bool
  cap : Capture
  accepted : Bool
  recs : List (Handle × Shape)
  /-- The lane function read at acceptance: whether it is packed, and its words (R81). -/
  code : Option (Bool × List (BitVec 32))
  /-- The region read at acceptance (R316). -/
  region : Option Region
  /-- It holds tile slots from acceptance on (R149). -/
  holds : Bool
  /-- The restart row captured at acceptance (R190); of a begun MMA, MMAM, MMAT or UPD the next row (R189, R319). -/
  xrow : Nat
  /-- It has passed its fault point and done some of its rows. -/
  begun : Bool
  issued : Bool
  /-- What stood before instructions younger than this one ran past it; it reads its tile names there (R116, R148). -/
  past : Option Younger
deriving DecidableEq, Repr

/-- The copy in progress (R161): the TIQ entry it belongs to, where it copies, and the next copy row. -/
structure Copy where
  seq : Nat
  tag : BitVec 4
  q : Option QReg
  srcH : Handle
  dstH : Handle
  src : Shape
  dst : Shape
  srcWord : Word
  srcIdx : Nat
  dstIdx : Nat
  row : Nat
  rows : Nat
deriving DecidableEq, Repr

/-- A held scalar store (R118). -/
structure HeldStore where
  seq : Nat
  cells : List Host.Cell
deriving DecidableEq, Repr

/-- An uncommitted front write in the history buffer (R115): which register, and its old value. -/
inductive UndoWhat where
  | sreg (r : SReg) (old : Word)
  | greg (k : GReg) (old : Bool)
  | spr (n : BitVec 5) (old : Word)
  /-- SATF set by an uncommitted word; it joins SATF when the word commits. -/
  | sat
  /-- Flags of a tile-side instruction that has run past older ones; they join FPST and SATF when it commits (R31, R32). -/
  | flags (fpst satf : Word)
  /-- An uncommitted BQPOP keeps the popped value (R115). -/
  | pop (v : Word)
  /-- A store that has performed, by its write's name. -/
  | write (id : Nat)
deriving DecidableEq, Repr

/-- A history-buffer entry. -/
structure Undo where
  seq : Nat
  what : UndoWhat
deriving DecidableEq, Repr

/-- A message in a receive queue (R242, R362): an entry held from its reservation, delivered when `delivered`. `prec`
is the sender's last publication and what precedes it. -/
structure Msg where
  order : Nat
  tile : Bool
  src : Gid
  tag : BitVec 16
  payload : Word
  geo : Geo
  elems : List Word
  scales : List Byte
  bytes : List Byte
  prec : List Nat
  due : Nat
  delivered : Bool
  /-- The ports that a fabric message leaves packages by (R358). -/
  hops : List (PkgNo × BitVec 4)
deriving DecidableEq, Repr

/-- The facts of a fault (Table 7.5). -/
structure FaultInfo where
  kind : BitVec 8
  path : Path
  addr : Option (BitVec 52)
  coord : Option (BitVec 16 × BitVec 16)
  tname : Option TReg
  handle : Handle
  lane : Option (BitVec 8 × BitVec 7)
  code : BitVec 16
  xrow : Option (BitVec 16)
  /-- Of a page, walk or window fault: the page, its SIZE code and whether the access may write (Table 7.7). -/
  page : Option (BitVec 52 × BitVec 3 × Bool)
deriving DecidableEq, Repr

/-- A fault held until older tile-side instructions pass their fault points (R116). -/
structure HeldFault where
  info : FaultInfo
  seq : Nat
  pc : Word
  word : Word
  slot : Bool
  resume : Word
deriving DecidableEq, Repr

/-- How far a waiting instruction has come. -/
inductive Wait where
  | none
  /-- A BAR or FBAR has arrived (R249, R372). -/
  | arrived (fabric : Bool) (level : Nat) (pub : Nat)
  /-- A SYNC.WAIT of condition `cc` against `b` on physical register `reg` has published and waits; `seen` is the first
  value of the local copy that meets it, with the publications that precede its boundary (R284, R285). -/
  | sync (reg : Nat) (cc : BitVec 3) (b : Word) (pub : Nat) (seen : Option (Word × List Nat))
  /-- A page-table walk waits on a node under migration since `start` (R273). -/
  | walk (start : Nat)
  /-- A service that waits for work of other parties to finish (VNT.REL, REGION.REL). -/
  | service
deriving DecidableEq, Repr

/-- A sync register at its home or in its mirror (R282): its value, and the publications that precede the boundary of
any later SYNC on it (R285). -/
structure SyncReg where
  val : Word
  prec : List Nat
deriving DecidableEq, Repr

/-- What a team is doing. -/
inductive TeamStatus where
  /-- Placed, before its start pulse (R241). -/
  | held
  | running
  /-- Stopped at a fault; resumes at `resume` (R220, R224). -/
  | stopped (resume : Word) (seq : BitVec 32)
  /-- A child that has joined (R252). -/
  | joined
deriving DecidableEq, Repr

/-! ### Teams -/

/-- A team (R106, Table 4.1). -/
structure Team where
  /-- The model's own name of the team; a global id can change at resumption (R239). Never 0. -/
  uid : Nat
  gid : Gid
  ctx : CtxId
  launch : Nat
  inst : Nat
  /-- For each level after the first, which instance of it holds the team (R241, R383). -/
  path : List Nat
  parent : Option Nat
  kids : List Nat
  status : TeamStatus
  wait : Wait
  /-- A walk of the tile side waits since that time (R273). -/
  tileWalk : Option Nat
  pc : Word
  /-- The word at PC as last fetched (the model's own; F2 of a fault record). -/
  word : Word
  s : Vector Word 32
  /-- g7 to g0; bit 0 reads 1. -/
  g : BitVec 8
  tiles : Vector (Option Tile) 64
  acc : Vector Acc 16
  scale : Vector ScaleReg 16
  q : Vector (Option Stream) 8
  resB : ResidentB
  ext : BitVec 16
  extc : BitVec 16
  fsr : Word
  fpst : Word
  satf : Word
  updf : Word
  xrow : BitVec 16
  fcrd : Word
  phc : Word
  /-- CYC counts from here (Table 4.4). -/
  placedAt : Nat
  preq : Bool
  /-- PDL reaches 0 at this time while PREQ.REQ is 1. -/
  pdlEnd : Nat
  slip : BitVec 7
  split : BitVec 3
  part : BitVec 2
  lfsr : BitVec 32
  /-- A member of a gang that waits for its first start, which gives it its seed (R23, R374). -/
  fresh : Bool
  lft : BitVec 52
  sys : Bool
  deque : Bool
  /-- Words issued so far; program order. -/
  wordSeq : Nat
  tiq : List TileEntry
  bq : List Word
  credits : Nat
  copies : List Copy
  /-- The TCOPY.str that a fault or a save left incomplete (R225). -/
  broken : Option Copy
  sbuf : List HeldStore
  updq : List Pair
  updSeq : Nat
  hist : List Undo
  /-- Old values of committed work younger than an ALLX that a forced save may still withdraw (R227; the model's own). -/
  late : List Undo
  heldFault : Option HeldFault
  /-- While a pair word runs (R43): its place in program order and what its tile slot reads (the model's own). -/
  pairing : Option (Nat × Capture)
  views : Vector (List Nat) 5
  /-- Read stability (R209): which free choices the reads of each path use; renewed at boundaries and CFENCEs. -/
  epochs : Vector Nat 5
  /-- Publications that precede the team's next boundary (R212). -/
  knows : List Nat
  /-- The team's last boundary and what precedes it. -/
  lastPub : List Nat
  /-- BARs, FBARs and ALLXs joined so far on each level. -/
  bars : Vector Nat 8
  fbars : Vector Nat 8
  exchs : Vector Nat 8
  /-- Every member has reached the barrier that the team waits in: the publications of their arrivals (R249, R372). -/
  latched : Option (List Nat)
  /-- Publication of each arrival: fabric, level, number, publication. -/
  arrivals : List (Bool × Nat × Nat × Nat)
  rq : List Msg
  frq : List Msg
  /-- Rewritten shape records that the team must see by now (R64). -/
  seen : List Nat
deriving DecidableEq, Repr

/-- How a pre-empted team was saved (R226, R227, R228). -/
inductive SaveKind where
  | yielded
  | forced
  | stopped
deriving DecidableEq, Repr

/-- A team off its core. -/
structure SavedTeam where
  team : Team
  kind : SaveKind
  /-- CYC when it was saved. -/
  cyc : Word
deriving DecidableEq, Repr

/-- A team that has executed EXIT (R138, R249). -/
structure ExitedTeam where
  uid : Nat
  inst : Nat
  path : List Nat
  gid : Gid
  pub : Nat
deriving DecidableEq, Repr

/-! ### Launches and queues -/

/-- An instance of a launch that has been taken from its range (R288): how many of its cores are placed. -/
structure Inst where
  idx : Nat
  die : Bool
  cores : List Nat
  total : Nat
deriving DecidableEq, Repr

/-- A member package's report (R374). -/
inductive GangPhase where
  | idle
  | starting
  | aborting
deriving DecidableEq, Repr

/-- A launch popped from a queue and not completed (R288, R302). -/
structure Launch where
  id : Nat
  pkg : PkgNo
  queue : BitVec 6
  ctx : CtxId
  record : List Word
  lo0 : Nat
  hi0 : Nat
  lo1 : Nat
  hi1 : Nat
  insts : List Inst
  exited : List ExitedTeam
  /-- Its forked children (R251). -/
  kin : List Nat
  faults : Nat
  stolen : Bool
  gang : GangPhase
  ready : List PkgNo
  /-- Member packages that an abort has yet to reach without their report (R374). -/
  late : List PkgNo
  /-- Packages on which a queue reset has ended its work (R375). -/
  cut : List PkgNo
  /-- The launching team's publications (R255). -/
  knows : List Nat
  /-- Writes that belong to every view of its teams: host writes before the pop (R298), serial launches (R382). -/
  view0 : List Nat
deriving DecidableEq, Repr

/-- A hardware queue (R382). -/
structure Queue where
  open_ : Bool
  ctx : CtxId
  pri : BitVec 3
  ring : Nat
  k : Nat
  tailAt : Nat
  headAt : Nat
  head : Nat
  /-- Records appended by LAUNCH (R256), each with the publications that precede its teams' boundaries and the number of
  the ring entry that it stands before (R382). -/
  appended : List (List Word × List Nat × Nat)
  /-- The teams of its completed launches (R382). -/
  done : List Nat
deriving DecidableEq, Repr

/-- A member's part of an exchange (R370): its counts, its capacity, the rows it sends. -/
structure Join where
  uid : Nat
  gid : Gid
  counts : List Nat
  cap : Nat
  rows : List (List Byte)
  /-- The keys of the receive rows' bytes and of the drop list's positions, translated at the join. -/
  recv : List (List Nat)
  drop : List (List Nat)
  prec : List Nat
  /-- The member's ALLX has completed (R371). -/
  done : Bool
deriving DecidableEq, Repr

/-- An exchange (R371). -/
structure Exchange where
  launch : Nat
  inst : Nat
  path : List Nat
  level : Nat
  k : Nat
  joins : List Join
  closed : Bool
deriving DecidableEq, Repr

/-! ### The Press and the vintage cache -/

/-- A Press key (R320): the updates held for one word, pending for an emitter or performed; in a run when `run` names
one, else in its cask. `used` orders a cask's keys by last use. -/
structure PressKey where
  ctx : CtxId
  handle : Nat
  idx : Nat
  stack : Nat
  cask : Nat
  owner : Option (Nat × Gid × Word)
  ups : List Pair
  run : Option Nat
  used : Nat
deriving DecidableEq, Repr

/-- A vintage entry (R330). -/
structure VEntry where
  v : Bool
  tag : BitVec 32
  run : Nat
  n : Nat
  ref : List (BitVec 32)
  ob : Nat
  output : List Byte
deriving DecidableEq, Repr

/-- An entry at registration (R330). -/
def VEntry.empty : VEntry := ⟨false, 0, 0, 0, [], 0, []⟩

/-- A vintage table (R330). -/
structure VTable where
  theta : BitVec 32
  maxRun : Nat
  nblk : Nat
  cin : Nat
  cout : Nat
  back : Nat
  entries : KMap VEntry
deriving DecidableEq, Repr

/-! ### Contexts -/

/-- A record, region or table replaced by a service (R64, R388): its handle and old contents, and who replaced it. -/
structure OldShape where
  id : Nat
  handle : Handle
  old : Shape
  by_ : Nat
  gid : Gid
deriving DecidableEq, Repr

/-- Page-table contents as walks of a range see them (R274): the host-path memory when the range was last
invalidated, and the last write then. -/
structure PtSnap where
  first : Nat
  count : Nat
  mem : Memory
  stamp : Nat
deriving DecidableEq, Repr

/-- A fault record on its way to the fault queue (R220, R389): F0 to F7 and the page entries. -/
structure FaultPost where
  uid : Nat
  launch : Nat
  words : List Word
deriving DecidableEq, Repr

/-- A context on one package. -/
structure Ctx where
  id : CtxId
  /-- The bytes held in memory before the context started (R208). -/
  start : Memory
  ptRoot : Nat
  syncBase : Nat
  syncCount : Nat
  leesRuns : Nat
  split : BitVec 3
  faultQ : Nat
  msix : Word
  msixSignals : Nat
  obj : KMap Shape
  oldObj : List OldShape
  /-- Regions and vintage tables that the host registered (R388): when, whether a table, the handle. -/
  hostSets : List (Nat × Bool × Nat)
  win : KMap Word
  ptSnaps : List PtSnap
  regions : KMap Region
  tables : KMap VTable
  hits : Word
  misses : Word
  stales : Word
  /-- The cancel list, with when each token was raised (R301). -/
  tokens : List (BitVec 16 × Nat)
  tokensPending : List (BitVec 16 × Nat)
  faultSeq : BitVec 32
  posts : List FaultPost
  /-- Resolutions posted while the context does not run (R228): sequence number and global id. -/
  resolved : List (BitVec 32 × Gid)
  fcqTail : Nat
deriving DecidableEq, Repr

/-! ### Dies and packages -/

/-- A residency range register (Table 11.1); w0 and w1 take effect with the next write of w2. -/
structure Rsv where
  w0 : Word
  w1 : Word
  w2 : Word
  next0 : Word
  next1 : Word
deriving DecidableEq, Repr

/-- A position's mark in the retirement map (R234). -/
inductive Mark where
  | working
  | spare
  | retired
deriving DecidableEq, Repr

/-- A die (R266 to R278, R393). -/
structure Die where
  rsv : Vector Rsv 16
  clq : Word
  /-- Contexts whose window tables are resident (R278). -/
  resident : List CtxId
  /-- The clock is stretched since that time (R4, R393). -/
  sagAt : Option Nat
  /-- Marks that differ from the starting map, of clusters 0 and 1 (R234); key `y * 17 + x`. -/
  map0 : KMap Mark
  map1 : KMap Mark
deriving DecidableEq, Repr

/-- A port's mark in the port map (R357). -/
inductive PortMark where
  | unconnected
  | up
  | down
  | retired
deriving DecidableEq, Repr

/-- A Weakel port (R356). -/
structure Port where
  mark : PortMark
  peer : PkgNo
  peerPort : BitVec 4
  comp : Bool
deriving DecidableEq, Repr

/-- Power and temperature (Table 18.6). -/
inductive Power where
  | on
  | off
deriving DecidableEq, Repr

/-- A package. -/
structure Pkg where
  power : Power
  booted : Bool
  hot : Bool
  outOfService : Bool
  linkUp : Bool
  linkComp : Bool
  hostError : Bool
  die0 : Die
  die1 : Die
  sync : KMap SyncReg
  mirror : KMap SyncReg
  /-- Mirror writes on their way (R282): register, time by which it is applied, value. -/
  mirrorQ : List (Nat × Nat × SyncReg)
  ports : Vector Port 16
  queues : Vector Queue 64
  /-- Queues whose reset is in progress (R302). -/
  resetting : List (BitVec 6)
  /-- The queue popped last, by priority (R382). -/
  lastPop : Vector (BitVec 6) 8
  mailbox : Vector Word 8
  /-- A walk of the service that the host runs waits on a node under migration since that time (R273, R388). -/
  hostWalk : Option Nat
  slot0 : List Byte
  slot1 : List Byte
  active : Bool
  trial : Bool
  trialAt : Nat
  revert : Bool
  softErrors : KMap Nat
  eventTail : Nat
  spdmAgreed : Bool
  spdmAnswer : List (List Byte)
  ctxs : KMap Ctx
  keys : List PressKey
  nextRun : Nat
  /-- Core owners (R238, R253), by die, cluster and core: the context, the launch and its instance last placed there. -/
  owners : KMap (CtxId × Nat × Nat)
  /-- The route tables of the cores (R236): 256 turn strings each. -/
  routes : KMap (List Word)
  deques : KMap (List (Word × Word × List Nat))
  /-- Contexts whose scratchpad share of a core is saved (R239); the bytes stand under keys of their own. -/
  shares : List (CtxId × Nat)
  /-- Contexts whose images hold routes (R79), and those of them whose launches firmware holds until the next pass. -/
  routed : List CtxId
  awaiting : List CtxId
deriving DecidableEq, Repr

/-! ### The machine -/

/-- What the next step does, when the outside world decides it. -/
inductive Turn where
  | team (uid : Nat)
  /-- One word of the team's front, placed in the TIQ and not run at once (R110). -/
  | ahead (uid : Nat)
  | event (i : Instr)
deriving DecidableEq, Repr

/-- The machine. -/
structure State where
  /-- Arithmetic-clock cycles since reset. -/
  now : Nat
  /-- The number of the next free value (the model's own). -/
  free : Nat
  nextId : Nat
  teams : List Team
  saved : List SavedTeam
  /-- The team whose turn it is (the model's own). -/
  cur : Nat
  /-- The current word is placed in the TIQ even when it is empty (the model's own). -/
  ahead : Bool
  /-- Turns that the outside world has chosen (the model's own). -/
  agenda : List Turn
  launches : List Launch
  pkgs : KMap Pkg
  /-- The bytes in their atomic orders (R217), and so what the host path reads. -/
  mem : Memory
  writes : List Write
  pubs : List Pub
  exchanges : List Exchange
  /-- Writes that a CFENCE to the host path has added to the host path's view (R215). -/
  hostView : List Nat
  /-- Keys of bytes with an uncorrectable error (R222). -/
  bad : List Nat
deriving DecidableEq, Repr

/-! ### Reset -/

/-- A residency register at reset (Table 11.1). -/
def Rsv.init : Rsv := ⟨0, 0, 0, 0, 0⟩

/-- A die at reset. -/
def Die.init : Die := ⟨Vector.replicate 16 Rsv.init, 0, [], none, [], []⟩

/-- A port at reset (R356). -/
def Port.init : Port := ⟨.unconnected, 0, 0, false⟩

/-- A queue at reset (R382). -/
def Queue.init : Queue := ⟨false, 0, 0, 0, 0, 0, 0, 0, [], []⟩

/-- A package at reset: powered, not yet booted. -/
def Pkg.init : Pkg :=
  { power := .on, booted := false, hot := false, outOfService := false, linkUp := false, linkComp := false,
    hostError := false, die0 := Die.init, die1 := Die.init, sync := [], mirror := [], mirrorQ := [],
    ports := Vector.replicate 16 Port.init, queues := Vector.replicate 64 Queue.init, resetting := [], lastPop := Vector.replicate 8 63,
    mailbox := Vector.replicate 8 0, hostWalk := none, slot0 := [], slot1 := [], active := false, trial := false, trialAt := 0,
    revert := false, softErrors := [], eventTail := 0, spdmAgreed := false, spdmAnswer := [], ctxs := [], keys := [],
    nextRun := 0, owners := [], routes := [], deques := [], shares := [], routed := [], awaiting := [] }

/-- The machine right after reset: no team is placed, no context exists, and every package waits for its boot. -/
def State.reset : State :=
  { now := 0, free := 0, nextId := 1, teams := [], saved := [], cur := 0, ahead := false, agenda := [],
    launches := [], pkgs := [], mem := [], writes := [], pubs := [], exchanges := [], hostView := [], bad := [] }

/-- An accumulator at placement (R184). -/
def Acc.init : Acc := ⟨false, []⟩

/-- A scale register at placement (R18). -/
def ScaleReg.init : ScaleReg := ⟨0, []⟩

/-- Resident B at placement (Table 6.2). -/
def ResidentB.init : ResidentB := ⟨false, 0, false, 0, 0, [], []⟩

/-- A team with the reset state of Table 4.1, before its launch fills in what the record gives. -/
def Team.init : Team :=
  { uid := 0, gid := 0, ctx := 0, launch := 0, inst := 0, path := [], parent := none, kids := [], status := .held,
    wait := .none, tileWalk := none, pc := 0, word := 0, s := Vector.replicate 32 0, g := 1, tiles := Vector.replicate 64 none,
    acc := Vector.replicate 16 Acc.init, scale := Vector.replicate 16 ScaleReg.init,
    q := Vector.replicate 8 none, resB := ResidentB.init, ext := 0, extc := 0, fsr := 0, fpst := 0, satf := 0,
    updf := 0, xrow := 0, fcrd := 0, phc := 0, placedAt := 0, preq := false, pdlEnd := 0, slip := 1, split := 0,
    part := 0, lfsr := 0, fresh := false, lft := 0, sys := false, deque := false, wordSeq := 0, tiq := [], bq := [], credits := 0,
    copies := [], broken := none, sbuf := [], updq := [], updSeq := 0, hist := [], late := [], heldFault := none, pairing := none,
    views := Vector.replicate 5 [], epochs := Vector.replicate 5 0, knows := [], lastPub := [],
    bars := Vector.replicate 8 0, fbars := Vector.replicate 8 0, exchs := Vector.replicate 8 0, latched := none, arrivals := [],
    rq := [], frq := [], seen := [] }

end Sys2Proof.Machine
end

