-- ==== Sys2Proof/Machine/Access.lean ====
section
/-!
DEFINITION. Access to the parts of the state: teams, contexts, packages, launches; free values; the scalar
registers with the history buffer (R115); the special registers.
-/

namespace Sys2Proof.Machine

/-! ### Free values and names -/

/-- A fresh number for a free value, and the state after using it. -/
def State.useFree (s : State) : Nat × State := (s.free, { s with free := s.free + 1 })

/-- A free choice among `n` outcomes (log 4): `epoch` is a fresh number, `sub` tells apart the choices made with it. -/
def pickAt (epoch sub n : Nat) : Nat := if n ≤ 1 then 0 else Config.choice (epoch * 2 ^ 64 + sub) % n

/-- A free choice of this step. -/
def State.pick (s : State) (sub n : Nat) : Nat := pickAt s.free sub n

/-- A fresh name. -/
def State.fresh (s : State) : Nat × State := (s.nextId, { s with nextId := s.nextId + 1 })

/-! ### Teams -/

/-- The team of that name. -/
def State.team? (s : State) (uid : Nat) : Option Team := s.teams.find? (fun t => t.uid == uid)

/-- The team whose turn it is. -/
def State.curTeam? (s : State) : Option Team := s.team? s.cur

/-- Replaces the team of the same name. -/
def State.putTeam (s : State) (t : Team) : State :=
  { s with teams := s.teams.map (fun u => if u.uid == t.uid then t else u) }

/-- Changes the team of that name. -/
def State.modTeam (s : State) (uid : Nat) (f : Team → Team) : State :=
  { s with teams := s.teams.map (fun u => if u.uid == uid then f u else u) }

/-- Removes a team. -/
def State.dropTeam (s : State) (uid : Nat) : State := { s with teams := s.teams.filter (fun u => u.uid != uid) }

/-- The placed team of a context at a global id (R224: a position holds at most one team of a context). -/
def State.teamAt? (s : State) (ctx : CtxId) (gid : Gid) : Option Team :=
  s.teams.find? (fun t => t.ctx == ctx && t.gid == gid)

/-- The package number in a global id (Table 0.2). -/
def gidPkg (g : Gid) : PkgNo := g.extractLsb' 13 12
/-- The die bit of a global id. -/
def gidDie (g : Gid) : Bool := g.getLsbD 12
/-- The cluster bit of a global id. -/
def gidClu (g : Gid) : Bool := g.getLsbD 11
/-- The logical core of a global id. -/
def gidCore (g : Gid) : BitVec 8 := g.extractLsb' 3 8
/-- The team number of a global id. -/
def gidTeam (g : Gid) : BitVec 3 := g.extractLsb' 0 3
/-- The core of a global id among all cores: package, die, cluster, core. -/
def gidCoreKey (g : Gid) : Nat := g.toNat / 8

/-- Builds a global id (Table 0.2). -/
def mkGid (pkg : PkgNo) (die clu : Bool) (core : BitVec 8) (team : BitVec 3) : Gid :=
  pkg ++ BitVec.ofBool die ++ BitVec.ofBool clu ++ core ++ team

/-- The package a team runs on. -/
def Team.pkg (t : Team) : PkgNo := gidPkg t.gid

/-- The teams of a context, placed. -/
def State.ctxTeams (s : State) (ctx : CtxId) : List Team := s.teams.filter (fun t => t.ctx == ctx)

/-- The team runs: it is neither held before its start pulse, nor stopped, nor joined. -/
def Team.runs (t : Team) : Bool := t.status == .running

/-! ### Packages, contexts, launches -/

/-- A package. -/
def State.pkg (s : State) (p : PkgNo) : Pkg := kget Pkg.init s.pkgs p.toNat

/-- Replaces a package. -/
def State.putPkg (s : State) (p : PkgNo) (x : Pkg) : State := { s with pkgs := kput s.pkgs p.toNat x }

/-- Changes a package. -/
def State.modPkg (s : State) (p : PkgNo) (f : Pkg → Pkg) : State := s.putPkg p (f (s.pkg p))

/-- A context on a package. -/
def State.ctx? (s : State) (p : PkgNo) (c : CtxId) : Option Ctx := kfind (s.pkg p).ctxs c.toNat

/-- Replaces a context on a package. -/
def State.putCtx (s : State) (p : PkgNo) (x : Ctx) : State :=
  s.modPkg p (fun k => { k with ctxs := kput k.ctxs x.id.toNat x })

/-- Changes a context on a package. -/
def State.modCtx (s : State) (p : PkgNo) (c : CtxId) (f : Ctx → Ctx) : State :=
  match s.ctx? p c with
  | some x => s.modPkg p (fun k => { k with ctxs := kput k.ctxs c.toNat (f x) })
  | none => s

/-- The team's context on its package. -/
def State.teamCtx? (s : State) (t : Team) : Option Ctx := s.ctx? t.pkg t.ctx

/-- The launch of that name. -/
def State.launch? (s : State) (id : Nat) : Option Launch := s.launches.find? (fun l => l.id == id)

/-- Replaces the launch of the same name. -/
def State.putLaunch (s : State) (l : Launch) : State :=
  { s with launches := s.launches.map (fun u => if u.id == l.id then l else u) }

/-- A die of a package. -/
def Pkg.die (k : Pkg) (d : Bool) : Die := if d then k.die1 else k.die0

/-- Replaces a die of a package. -/
def Pkg.putDie (k : Pkg) (d : Bool) (x : Die) : Pkg := if d then { k with die1 := x } else { k with die0 := x }

/-! ### Scalar registers and the history buffer -/

/-- A register operand; s0 reads 0 (R120). -/
def Team.rs (t : Team) (r : SReg) : Word := if r = 0 then 0 else t.s.get r.toFin

/-- A guard; g0 reads 1 (R41). -/
def Team.rg (t : Team) (k : GReg) : Bool := if k = 0 then true else t.g.getLsbD k.toNat

/-- Whether a TIQ entry that is still at work has passed its fault point: an ALLX that has joined its exchange (R369). -/
def TileEntry.passed (e : TileEntry) : Bool :=
  e.begun && (match e.instr with
    | .allx .. => true
    | _ => false)

/-- Whether every tile-side instruction of the team has passed its fault point (R115, R117). -/
def Team.clear (t : Team) : Bool := t.tiq.all TileEntry.passed

/-- Whether a front write is uncommitted (R115): a tile-side instruction of an older word or of the same word has not
passed its fault point. -/
def Team.logs (t : Team) : Bool := t.pairing.isSome || !t.clear

/-- The word's place in program order. -/
def Team.seqHere (t : Team) : Nat :=
  match t.pairing with
  | some (n, _) => n
  | none => t.wordSeq

/-- Whether work at place `n` in program order is younger than an ALLX that has passed its fault point and that a forced
save may still withdraw, and then discards with it (R227, log 104). -/
def Team.behindOpen (t : Team) (n : Nat) : Bool := t.tiq.any (fun e => e.passed && decide (e.seq < n))

/-- Remembers what undoes committed work at place `n`, while a forced save may still discard it (R227). -/
def Team.keepLate (t : Team) (n : Nat) (w : UndoWhat) : Team :=
  if t.behindOpen n then { t with late := ⟨n, w⟩ :: t.late } else t

/-- Puts an old value in the history buffer when the write is uncommitted (R115). -/
def Team.log (t : Team) (w : UndoWhat) : Team :=
  if t.logs then { t with hist := ⟨t.seqHere, w⟩ :: t.hist } else t.keepLate t.seqHere w

/-- Writes a scalar register; a write to s0 is discarded and takes no history entry (R120). -/
def Team.wrS (t : Team) (r : SReg) (v : Word) : Team :=
  if r = 0 then t
  else
    let t' := t.log (.sreg r (t.rs r))
    { t' with s := t'.s.set r.toFin v }

/-- Replaces bit `k` of a vector. -/
def setBit {w : Nat} (x : BitVec w) (k : Nat) (b : Bool) : BitVec w :=
  if b then x ||| BitVec.twoPow w k else x &&& ~~~ BitVec.twoPow w k

/-- Writes a guard; g0 cannot be written (Table 4.1). -/
def Team.wrG (t : Team) (k : GReg) (b : Bool) : Team :=
  if k = 0 then t
  else
    let t' := t.log (.greg k (t.rg k))
    { t' with g := setBit t'.g k.toNat b }

/-! ### Special registers (Tables 4.3 and 4.4) -/

/-- CYC: arithmetic-clock cycles since placement. -/
def State.cyc (s : State) (t : Team) : Word := BitVec.ofNat 64 s.now - BitVec.ofNat 64 t.placedAt

/-- PDL: cycles left while a request is pending (R226). -/
def State.pdl (s : State) (t : Team) : Word := if t.preq then BitVec.ofNat 64 (t.pdlEnd - s.now) else 0

/-- The value of special register `n`, zero-extended. -/
def State.sprRead (s : State) (t : Team) (n : BitVec 5) : Word :=
  match n.toNat with
  | 0 => t.ext.zeroExtend 64
  | 1 => t.extc.zeroExtend 64
  | 2 => t.fsr
  | 3 => t.fpst
  | 4 => t.satf
  | 5 => t.updf
  | 6 => t.xrow.zeroExtend 64
  | 7 => t.fcrd
  | 8 => t.phc
  | 9 => s.cyc t
  | 10 => if t.preq then 1 else 0
  | 11 => s.pdl t
  | 12 => t.gid.zeroExtend 64
  | 13 => t.slip.zeroExtend 64
  | 14 => t.split.zeroExtend 64
  | 15 => t.part.zeroExtend 64
  | 16 => (gidCore t.gid).zeroExtend 64
  | 17 => if gidClu t.gid then 1 else 0
  | 18 => if gidDie t.gid then 1 else 0
  | 19 => (gidPkg t.gid).zeroExtend 64
  | _ => 0

/-- The bits that MTS may set in register `n` (Tables 4.4, 1.7 and 1.8). -/
def sprMask (n : BitVec 5) : Word :=
  match n.toNat with
  | 0 => 0xFFFF
  | 1 => 0xFFFF
  | 2 => 0x0000_FFFF_FFFF_FF01
  | 3 => 0x3F07
  | 4 => 1
  | 5 => 0x1_FFFF_FFFF
  | 6 => 0xFFFF
  | _ => 0

/-- Stores a writable special register, without its history entry. -/
def Team.setSpr (t : Team) (n : BitVec 5) (v : Word) : Team :=
  match n.toNat with
  | 0 => { t with ext := v.truncate 16 }
  | 1 => { t with extc := v.truncate 16 }
  | 2 => { t with fsr := v }
  | 3 => { t with fpst := v }
  | 4 => { t with satf := v }
  | 5 => { t with updf := v }
  | 6 => { t with xrow := v.truncate 16 }
  | _ => t

/-- The value of a writable special register. -/
def Team.getSpr (t : Team) (n : BitVec 5) : Word :=
  match n.toNat with
  | 0 => t.ext.zeroExtend 64
  | 1 => t.extc.zeroExtend 64
  | 2 => t.fsr
  | 3 => t.fpst
  | 4 => t.satf
  | 5 => t.updf
  | 6 => t.xrow.zeroExtend 64
  | _ => 0

/-- A front write of a special register (R115). -/
def Team.wrSpr (t : Team) (n : BitVec 5) (v : Word) : Team := (t.log (.spr n (t.getSpr n))).setSpr n v

/-- Sets SATF from the front: while the word is uncommitted the flag waits with it (R116, R32). -/
def Team.setSat (t : Team) : Team :=
  if t.logs then { t with hist := ⟨t.seqHere, .sat⟩ :: t.hist }
  else { t.keepLate t.seqHere (.spr 4 t.satf) with satf := 1 }

/-- The dynamic rounding mode (Table 1.7). -/
def Team.drm (t : Team) : Rm := t.fpst.extractLsb' 0 3

/-! ### History: commit and undo -/

/-- The place in program order of the oldest tile-side instruction that has not passed its fault point. -/
def Team.oldestSeq (t : Team) : Option Nat := (t.tiq.find? (fun e => !e.passed)).map (·.seq)

/-- What a freed history entry does: a flag contribution joins its register; what is to be undone with an open ALLX (R227) is
remembered, youngest first. -/
def Team.free1 (t : Team) (u : Undo) : Team :=
  match u.what with
  | .sat => { t with satf := 1, late := ⟨u.seq, .spr 4 t.satf⟩ :: t.late }
  | .flags f sa => { t with fpst := t.fpst ||| f, satf := t.satf ||| sa,
                            late := ⟨u.seq, .spr 3 t.fpst⟩ :: ⟨u.seq, .spr 4 t.satf⟩ :: t.late }
  | _ => { t with late := u :: t.late }

/-- Frees the history entries whose writes are committed (R115), oldest first; committed flag contributions join FPST and SATF.
What is committed but younger than an open ALLX is remembered apart (R227). -/
def Team.commit (t : Team) : Team :=
  let live := fun (u : Undo) => match t.oldestSeq with
    | some n => decide (n ≤ u.seq)
    | none => false
  let t' := (t.hist.filter (fun u => !live u)).foldr (fun u t => t.free1 u) t
  { t' with hist := t.hist.filter live, late := t'.late.filter (fun u => t.behindOpen u.seq) }

/-- Undoes one history entry (R116). -/
def Team.undoOne (t : Team) (u : UndoWhat) : Team :=
  match u with
  | .sreg r old => { t with s := t.s.set r.toFin old }
  | .greg k old => { t with g := setBit t.g k.toNat old }
  | .spr n old => t.setSpr n old
  | .sat => t
  | .flags _ _ => t
  | .pop v => { t with bq := v :: t.bq, credits := t.credits + 1 }
  | .write _ => t

/-- Undoes every history entry from place `n` on, youngest first (R116), and what a forced save discards with an open
ALLX (R227); both lists are held youngest first, and the second holds the older entries. -/
def Team.undoFrom (t : Team) (n : Nat) : Team :=
  let t' := ((t.hist ++ t.late).filter (fun u => decide (n ≤ u.seq))).foldl (fun t u => t.undoOne u.what) t
  { t' with hist := t.hist.filter (fun u => decide (u.seq < n)), late := t.late.filter (fun u => decide (u.seq < n)) }

/-! ### Progress -/

/-- The word is done: the front goes on `n` bytes further. -/
def Team.advance (t : Team) (n : Nat) : Team :=
  { t with pc := t.pc + BitVec.ofNat 64 n, wordSeq := t.seqHere + 1, wait := .none }

/-- The word is done and transfers control to `target`. -/
def Team.jumpTo (t : Team) (target : Word) : Team :=
  { t with pc := target, wordSeq := t.seqHere + 1, wait := .none }

/-- What captures of the team's front state a tile-side instruction takes (R110): those of the pair word in progress,
or the present ones. -/
def Team.capture (t : Team) : Capture :=
  match t.pairing with
  | some (_, c) => c
  | none => ⟨t.ext, t.extc, t.drm, t.s⟩

/-- A scalar operand that a TIQ entry captured. -/
def Capture.rs (c : Capture) (r : SReg) : Word := if r = 0 then 0 else c.s.get r.toFin

end Sys2Proof.Machine
end

