-- ==== Sys2Proof/Machine/Mesh.lean ====
section
/-!
DEFINITION. The physical mesh of a cluster (R234), turn strings (R235), the chosen strings (R394) and the route tables that
cores hold (R236).
-/

namespace Sys2Proof.Machine

/-- The rows and columns of an extent, row-major. -/
def coords (rows cols : Nat) : List (Nat × Nat) :=
  (List.range rows).flatMap (fun r => (List.range cols).map (fun c => (r, c)))

/-! ### The mesh (R234, R235) -/

/-- Rows of the mesh. -/
def meshRows : Nat := 16
/-- Columns of the mesh. -/
def meshCols : Nat := 17

/-- The mark of a position: as the map holds it, else as the starting map. -/
def meshMark (m : KMap Mark) (y x : Nat) : Mark :=
  match kfind m (y * meshCols + x) with
  | some k => k
  | none => if x = 16 then .spare else .working

/-- The retirement map of a cluster. -/
def Die.map (d : Die) (clu : Bool) : KMap Mark := if clu then d.map1 else d.map0
/-- Replaces it. -/
def Die.putMap (d : Die) (clu : Bool) (m : KMap Mark) : Die := if clu then { d with map1 := m } else { d with map0 := m }

/-- The working positions, row-major: logical core n is the n-th. -/
def workingCores (m : KMap Mark) : List (Nat × Nat) :=
  (coords meshRows meshCols).filter (fun p => meshMark m p.1 p.2 == .working)

/-- The retirement map of a team's cluster. -/
def State.mapOf (s : State) (g : Gid) : KMap Mark := ((s.pkg (gidPkg g)).die (gidDie g)).map (gidClu g)

/-- One step in a direction (Table 9.1). -/
def meshStep (dir : Nat) (p : Int × Int) : Int × Int :=
  match dir with
  | 0 => (p.1, p.2 + 1)
  | 1 => (p.1 + 1, p.2)
  | 2 => (p.1, p.2 - 1)
  | _ => (p.1 - 1, p.2)

/-- Whether a position lies in the mesh and is not retired. -/
def meshOk (m : KMap Mark) (p : Int × Int) : Bool :=
  decide (0 ≤ p.1) && decide (p.1 < 16) && decide (0 ≤ p.2) && decide (p.2 < 17) &&
  meshMark m p.1.toNat p.2.toNat != .retired

/-- `n` steps in a direction. -/
def meshLeg (m : KMap Mark) (dir : Nat) : Nat → Int × Int → Option (Int × Int)
  | 0, p => some p
  | n + 1, p =>
    let q := meshStep dir p
    if meshOk m q then meshLeg m dir n q else none

/-- The legs of a turn string, `n` of them left; the fields after its end must be zero. -/
def meshLegs (m : KMap Mark) : Nat → Nat → Int × Int → Option (Int × Int)
  | 0, _, p => some p
  | n + 1, r, p =>
    if r % 16 = 0 then (if r = 0 then some p else none)
    else match meshLeg m (r / 16 % 4) (r % 16) p with
      | some q => meshLegs m n (r / 64) q
      | none => none

/-- `follow` of R235: the logical core that a turn string names, or none (a route fault). -/
def follow (m : KMap Mark) (route : Word) (core : Nat) : Option Nat :=
  if route.extractLsb' 36 28 != 0 then none
  else match (workingCores m)[core]? with
    | none => none
    | some (y, x) =>
      match meshLegs m 6 route.toNat ((y : Int), (x : Int)) with
      | some (y', x') =>
        let n := (workingCores m).idxOf (y'.toNat, x'.toNat)
        if n < (workingCores m).length then some n else none
      | none => none

/-! ### Chosen strings (R394) -/

/-- Hops between two positions at the least. -/
def meshDist (p q : Int × Int) : Nat := (p.1 - q.1).natAbs + (p.2 - q.2).natAbs

/-- The first string of exactly `n` legs and `h` hops between two positions, in the order of R394; with too few hops left
there is none. -/
def turnSearch (m : KMap Mark) (dst : Int × Int) : Nat → Nat → Int × Int → Option (List (Nat × Nat))
  | 0, h, p => if h = 0 ∧ p = dst then some [] else none
  | n + 1, h, p => if h < meshDist p dst then none else (List.range 4).findSome? (fun d => (List.range 15).findSome? (fun c =>
      if c + 1 ≤ h then
        match meshLeg m d (c + 1) p with
        | some q => (turnSearch m dst n (h - (c + 1)) q).map (fun ls => (d, c + 1) :: ls)
        | none => none
      else none))

/-- The turn string of some legs (R77). -/
def turnWord (ls : List (Nat × Nat)) : Word :=
  BitVec.ofNat 64 (ls.zipIdx.foldl (fun a li => a + (li.1.1 * 16 + li.1.2) * 64 ^ li.2) 0)

/-- The all-ones value: no target, no route (R77). -/
def noRoute : Word := 0xFFFF_FFFF_FFFF_FFFF

/-- The chosen turn string between two logical cores of a cluster (R394). -/
def chosenTurn (m : KMap Mark) (a b : Nat) : Word :=
  match (workingCores m)[a]?, (workingCores m)[b]? with
  | some p, some q =>
    let from_ : Int × Int := ((p.1 : Int), (p.2 : Int))
    let dst : Int × Int := ((q.1 : Int), (q.2 : Int))
    (((List.range 91).findSome? (fun h => (List.range 7).findSome? (fun n => turnSearch m dst n h from_))).map turnWord).getD
      noRoute
  | _, _ => noRoute

/-! ### Route tables (R236) -/

/-- The slot of a core in its package's tables: die, cluster, core. -/
def coreSlot (g : Gid) : Nat := gidCoreKey g % 1024

/-- The route table that firmware writes for a core at placement (R236, R241): the chosen string to each logical core. -/
def State.routeTable (s : State) (g : Gid) : List Word :=
  (List.range 256).map (chosenTurn (s.mapOf g) (gidCore g).toNat)

/-- Writes a core's route table. -/
def State.putRoutes (s : State) (g : Gid) : State :=
  s.modPkg (gidPkg g) (fun k => { k with routes := kput k.routes (coreSlot g) (s.routeTable g) })

/-- The logical core that an access of cluster space reaches: the string that the issuing core's table holds for the target
is followed. The table joins every two working cores, so no route fault is raised (R236). -/
def State.tableCore (s : State) (g : Gid) (core : Nat) : Nat :=
  match kfind (s.pkg (gidPkg g)).routes (coreSlot g) with
  | some tbl => (follow (s.mapOf g) (tbl.getD core noRoute) (gidCore g).toNat).getD core
  | none => core

end Sys2Proof.Machine
end

