-- ==== Sys2Proof/Machine/Xlate.lean ====
section
/-!
DEFINITION. The address map (Table 11.3), the page-table walk (R273, R274), the tile window (R275, R276), the cluster
aperture (R237, R238), memory keys, and where a key is barred to device accesses (R312, R313, R331).
-/

namespace Sys2Proof.Machine

/-! ### Fault kinds (Table 7.6) -/

def kIllInstr : BitVec 8 := 0x01
def kIllOp : BitVec 8 := 0x02
def kAlign : BitVec 8 := 0x03
def kTrans : BitVec 8 := 0x04
def kPage : BitVec 8 := 0x05
def kWalk : BitVec 8 := 0x06
def kWindow : BitVec 8 := 0x07
def kAccess : BitVec 8 := 0x08
def kShape : BitVec 8 := 0x09
def kRights : BitVec 8 := 0x0A
def kBounds : BitVec 8 := 0x0B
def kFormat : BitVec 8 := 0x0C
def kEcc : BitVec 8 := 0x0D
def kTrap : BitVec 8 := 0x0E
def kBreak : BitVec 8 := 0x0F
def kUpdIdx : BitVec 8 := 0x10
def kRoute : BitVec 8 := 0x11

/-- A fault with no address, coordinate or name. -/
def FaultInfo.plain (kind : BitVec 8) (path : Path) : FaultInfo :=
  { kind, path, addr := none, coord := none, tname := none, handle := 0, lane := none, code := 0, xrow := none,
    page := none }

/-! ### Time -/

/-- Cycles of a time in ns at 1.2 GHz, the slowest clock (R4). -/
def nsCycles (ns : Nat) : Nat := ns * 12 / 10

/-- The 20 µs of R273. -/
def walkLimit : Nat := nsCycles 20000

/-! ### Keys -/

/-- First byte of the tile window. -/
def winBase : Nat := 0x0008_0000_0000_0000
/-- First byte beyond the tile window. -/
def winEnd : Nat := 0x0008_0400_0000_0000
/-- Bytes of a window page. -/
def winPage : Nat := 2 ^ 25
/-- First byte of the range reserved for firmware (R392). -/
def fwBase : Nat := 0xFF_FE00_0000

/-- The key of a device-memory byte. -/
def devKey (pkg : PkgNo) (pa : Nat) : Nat := pkg.toNat * 2 ^ 40 + pa
/-- The key of a scratchpad byte; `core` is `gidCoreKey` of its teams. -/
def scrKey (core off : Nat) : Nat := 2 ^ 52 + core * 2 ^ 21 + off
/-- The key of a host-memory byte. -/
def hostKey (a : Nat) : Nat := 2 ^ 60 + a
/-- The key of a byte of a saved scratchpad share (R239). -/
def parkKey (ctx : CtxId) (core off : Nat) : Nat := 2 ^ 59 + (ctx.toNat * 2 ^ 22 + core) * 2 ^ 21 + off

/-- Whether a key lies in device memory. -/
def isDevKey (k : Nat) : Bool := decide (k < 2 ^ 52)
/-- The package of a device-memory key. -/
def keyPkg (k : Nat) : PkgNo := BitVec.ofNat 12 (k / 2 ^ 40)

/-- The stack of a device address (R293). -/
def stackOf (pa : Nat) : Nat :=
  let f := fun i => pa / 2 ^ i % 8
  8 * (pa / 2 ^ 39 % 2) + ((f 12 ^^^ f 15) ^^^ f 18)

/-- The place of a device address within its stack (R293). -/
def stackOffset (pa : Nat) : Nat := pa / 2 ^ 15 % 2 ^ 24 * 2 ^ 12 + pa % 2 ^ 12

/-- The bytes of a scratchpad share: SPLIT.QTR × 512 KiB (R143). -/
def shareBytes (split : BitVec 3) : Nat := split.toNat * 524288

/-! ### What an access asks, and what a translation answers -/

/-- The kinds of access of R273 and Table 11.6. -/
inductive Access where
  | read
  | write
  | fetch
  | atomic
  | update
deriving DecidableEq, Repr

/-- Whether an access may write the page (Table 7.7). -/
def Access.writes : Access → Bool
  | .write | .atomic | .update => true
  | .read | .fetch => false

/-- The answer of a translation: the key of the byte, a fault with the page concerned and its SIZE code (Table 7.7), or
a walk that waits on a node under migration. -/
inductive Xl where
  | ok (key : Nat)
  | fault (kind : BitVec 8) (page : Nat) (size : BitVec 3)
  | wait
deriving DecidableEq, Repr

/-! ### Page tables -/

/-- A little-endian doubleword of bytes read one by one. -/
def leDword (f : Nat → Byte) : Word :=
  f 7 ++ f 6 ++ f 5 ++ f 4 ++ f 3 ++ f 2 ++ f 1 ++ f 0

/-- The doubleword at a key over some contents, after host writes. -/
def hostDwordOver (ws : List Write) (m : Memory) (k : Nat) : Word :=
  leDword (fun i => ws.foldl (fun b w => match kfind w.cells (k + i) with
    | some x => x
    | none => b) (kget 0 m (k + i)))

/-- The values that a doubleword has had since `stamp`: as `m` holds it, and after each later host write to it (R274). -/
def hostValues (ws : List Write) (stamp : Nat) (m : Memory) (k : Nat) : List Word :=
  let hit := ws.filter (fun w => w.uid == 0 && decide (stamp ≤ w.id) && w.cells.any (fun c => decide (k ≤ c.1) && decide (c.1 < k + 8)))
  (List.range (hit.length + 1)).map (fun n => hostDwordOver (hit.take n) m k)

/-- The snapshot that governs the walks of a page number: the newest that covers it. -/
def Ctx.ptSnap? (c : Ctx) (page : Nat) : Option PtSnap :=
  c.ptSnaps.find? (fun p => decide (p.first ≤ page) && decide (page < p.first + p.count))

/-- A page-table doubleword as a walk for `va` reads it: as the host path left it when the range was last invalidated,
or, by a free choice, as it stood after any later host write (R274, log 39). The invalidation has
racked what the range held (R295, log 99). -/
def State.ptRead (s : State) (pkg : PkgNo) (c : Ctx) (va a : Nat) : Word :=
  match c.ptSnap? (va / 4096) with
  | some p =>
    let vs := (hostValues s.writes p.stamp p.mem (devKey pkg a)).eraseDups
    vs.getD (s.pick (a * 2 ^ 20 + va % 2 ^ 20) vs.length) 0
  | none => 0

/-- Bytes of a leaf's page, by SIZE. -/
def leafBytes (size : Nat) : Nat :=
  match size with
  | 0 => 2 ^ 12
  | 1 => 2 ^ 16
  | 2 => 2 ^ 21
  | _ => 2 ^ 30

/-- What one entry of the walk says (R273): a result, or the next node. -/
inductive PteStep where
  | done (x : Xl)
  | next (node : Nat)
deriving DecidableEq, Repr

/-- The checks of R273 on one entry. A leaf whose frame reaches into the firmware's range or lies at or above 1 TiB of device
memory is a walk fault; for the latter R273 names no outcome, so that is the model's choice (log 38). -/
def pteStep (pkg : PkgNo) (acc : Access) (va lev : Nat) (expired : Bool) (e : Word) : PteStep :=
  let b := fun i => e.getLsbD i
  let size := (e.extractLsb' 4 2).toNat
  let loc := (e.extractLsb' 6 2).toNat
  let home := e.extractLsb' 52 12
  let addr := (e.extractLsb' 12 40).toNat * 4096
  let rsv := e.extractLsb' 9 3 != 0
  let here := va / 4096 * 4096
  let walk := PteStep.done (.fault kWalk here 0)
  if !b 0 then .done (.fault kTrans here 0)
  else if b 1 then
    let n := leafBytes size
    let fit := (lev == 0 && decide (size ≤ 2)) || (lev == 1 && size == 3)
    if !fit || rsv || addr % n != 0 || (b 8 && (loc != 0 || home != 0)) || (!b 8 && decide (fwBase < addr + n)) then
      walk
    else
      let page := va / n * n
      if loc == 1 || loc == 3 then .done (.fault kPage page (BitVec.ofNat 3 size))
      else if (acc.writes && !b 2) || (acc == .fetch && !b 3) then .done (.fault kAccess page (BitVec.ofNat 3 size))
      else
        let pa := addr + va % n
        .done (.ok (if b 8 then hostKey pa else devKey (if loc == 2 then home else pkg) pa))
  else if lev == 0 || rsv || home != 0 || size != 0 || b 3 || b 2 || b 8 || b 12 || decide (2 ^ 40 ≤ addr) then walk
  else if loc == 1 || loc == 2 then walk
  else if loc == 3 then (if expired then walk else .done .wait)
  else .next addr

/-- Positions that a leaf of a size covers at a level (R272). -/
def leafReplicas (lev size : Nat) : Nat :=
  match lev, size with
  | 0, 1 => 16
  | 0, 2 => 512
  | 1, 3 => 256
  | _, _ => 1

/-- Positions whose leaves a larger page may place over a position of a level: 512 of level 0, 256 of level 1. -/
def leafReach (lev : Nat) : Nat :=
  match lev with
  | 0 => 512
  | 1 => 256
  | _ => 0

/-- Whether entry `e` at position `j` is a leaf of a larger page that covers position `i` (R272). -/
def leafCovers (lev i j : Nat) (e : Word) : Bool :=
  let n := leafReplicas lev (e.extractLsb' 4 2).toNat
  e.extractLsb' 0 2 == 3 && decide (1 < n) && j / n == i / n

/-- The entry that an access uses: the one at its position, or any replica of a larger page that covers it, by a free choice
(R272). -/
def State.ptEntry (s : State) (pkg : PkgNo) (c : Ctx) (va lev node : Nat) : Word :=
  let i := va / 2 ^ (10 * lev + 12) % 1024
  let read := fun (j : Nat) => s.ptRead pkg c va (node + 8 * j)
  let n := leafReach lev
  let others := ((List.range n).map (fun k => i / n * n + k)).filter (fun j => j != i && leafCovers lev i j (read j))
  let es := ((i :: others).map read).eraseDups
  es.getD (s.pick (2 ^ 61 + va / 4096) es.length) 0

/-- The walk (R273): levels 3 to 0, `n` levels left. -/
def State.walk (s : State) (pkg : PkgNo) (c : Ctx) (acc : Access) (expired : Bool) (va : Nat) : Nat → Nat → Xl
  | 0, _ => .fault kWalk (va / 4096 * 4096) 0
  | n + 1, node =>
    match pteStep pkg acc va n expired (s.ptEntry pkg c va n node) with
    | .done x => x
    | .next a => s.walk pkg c acc expired va n a

/-! ### The tile window -/

/-- The stored window entry of a page. -/
def Ctx.winEntry (c : Ctx) (page : Nat) : Word := kget 0 c.win page

/-- What a window state answers an access (Table 11.6): no fault, or its kind. -/
def winState (acc : Access) (st : Nat) : Option (BitVec 8) :=
  match st with
  | 1 => none
  | 2 => if acc.writes then some kAccess else none
  | 3 => if acc == .write || acc == .atomic then some kAccess else none
  | _ => some kWindow

/-- The frame address of an entry. -/
def winFrame (e : Word) : Nat := (e.extractLsb' 25 20).toNat * winPage

/-- Translates a window address (R275, R276). -/
def Ctx.winXlate (c : Ctx) (acc : Access) (va : Nat) : Xl :=
  let e := c.winEntry ((va - winBase) / winPage)
  match winState acc (e.extractLsb' 0 3).toNat with
  | some k => .fault k (va / winPage * winPage) 4
  | none => .ok (devKey (e.extractLsb' 52 12) (winFrame e + va % winPage))

/-- Translates a window address on the host path, which no window state checks (R276): a page of any state shows its frame, and an
entry of zeros, which was never written, none (log 67). -/
def Ctx.winHost (c : Ctx) (va : Nat) : Xl :=
  let e := c.winEntry ((va - winBase) / winPage)
  if e = 0 then .fault kWindow (va / winPage * winPage) 4 else .ok (devKey (e.extractLsb' 52 12) (winFrame e + va % winPage))

/-- Whether a virtual address lies in the tile window. -/
def inWin (va : Nat) : Bool := decide (winBase ≤ va) && decide (va < winEnd)

/-- Translates a 52-bit virtual address of a context (Table 11.3, without the aperture). -/
def State.xlateVa (s : State) (pkg : PkgNo) (c : Ctx) (acc : Access) (expired : Bool) (va : Nat) : Xl :=
  if inWin va then c.winXlate acc va else s.walk pkg c acc expired va 4 c.ptRoot

/-- Translates a virtual address of a context for a write of firmware, on the host path (Table 7.2, R276). -/
def State.xlateHost (s : State) (pkg : PkgNo) (c : Ctx) (va : Nat) : Xl :=
  if inWin va then c.winHost va else s.walk pkg c .write true va 4 c.ptRoot

/-! ### Ranges of a context: regions, residue planes, backing areas -/

/-- The offset of a key in a window range of a context, by the frames that its window entries give; entries of another
package or of no frame do not count. -/
def Ctx.rangeOff (c : Ctx) (va len key : Nat) : Option Nat :=
  let first := (va - winBase) / winPage
  let n := (va + len - 1 - winBase) / winPage - first + 1
  ((List.range n).findSome? (fun i =>
    let e := c.winEntry (first + i)
    let lo := devKey (e.extractLsb' 52 12) (winFrame e)
    if e.extractLsb' 0 3 != 0 && decide (lo ≤ key) && decide (key < lo + winPage) then
      let v := winBase + (first + i) * winPage + (key - lo)
      if decide (va ≤ v) && decide (v < va + len) then some (v - va) else none
    else none))

/-- The element width of a Press operator (Table 13.1). -/
def opWidth (op : Nat) : Nat :=
  match op with
  | 0 | 7 | 8 | 9 => 4
  | 1 => 2
  | _ => 8

/-- The bytes of a region. -/
def Region.bytes (r : Region) : Nat := r.len * opWidth r.op.toNat

/-- The region word that a key lies in: its context, handle, region and element (R307). -/
def State.regionAt (s : State) (key : Nat) : Option (CtxId × Nat × Region × Nat) :=
  if !isDevKey key then none
  else
    (s.pkg (keyPkg key)).ctxs.findSome? (fun kc =>
      kc.2.regions.findSome? (fun hr =>
        (kc.2.rangeOff hr.2.base hr.2.bytes key).map (fun o => (kc.2.id, hr.1, hr.2, o / opWidth hr.2.op.toNat))))

/-- Bytes of a vintage entry, its layout's ESZ (R331). -/
def VTable.esz (t : VTable) : Nat := 64 + 64 * ((4 * t.cin + t.cout + 63) / 64)

/-- Whether a key lies in a residue plane (R312) or a vintage backing area (R331). -/
def State.plane (s : State) (key : Nat) : Bool :=
  isDevKey key &&
  (s.pkg (keyPkg key)).ctxs.any (fun kc =>
    kc.2.regions.any (fun hr => hr.2.plane != 0 && (kc.2.rangeOff hr.2.plane (hr.2.len * 48) key).isSome) ||
    kc.2.tables.any (fun ht => (kc.2.rangeOff ht.2.back (ht.2.nblk * ht.2.esz) key).isSome))

/-- Whether a device access of this kind to a key faults for its region, plane or backing area (R219, R312, R313, R331);
updates and reads of region words do not. -/
def State.barred (s : State) (acc : Access) (key : Nat) : Bool :=
  s.plane key || ((acc == .write || acc == .atomic) && (s.regionAt key).isSome)

/-! ### A team's translations -/

/-- The team's walk has waited its 20 µs (R273). -/
def State.walkExpired (s : State) (t : Team) : Bool :=
  match t.wait with
  | .walk st => decide (st + walkLimit ≤ s.now)
  | _ => false

/-- Whether a team of the context is placed on a core (R238). -/
def State.coreHeld (s : State) (ctx : CtxId) (core : Nat) : Bool :=
  s.teams.any (fun u => u.ctx == ctx && gidCoreKey u.gid == core)

/-- A byte of the cluster space of the team's cluster (R236 to R238). -/
def State.xlateCluster (s : State) (t : Team) (core off : Nat) (page : Nat) : Xl :=
  let ck := gidCoreKey t.gid / 256 * 256 + s.tableCore t.gid core
  if shareBytes t.split ≤ off then .fault kAccess page 0
  else if s.coreHeld t.ctx ck then .ok (scrKey ck off)
  else .fault kAccess page 0

/-- A route of exactly `n` hops over ports that are cabled and not retired, the smallest port numbers first (R359). -/
def State.portRoute (s : State) (q : PkgNo) : Nat → PkgNo → Option (List (PkgNo × BitVec 4))
  | 0, p => if p = q then some [] else none
  | n + 1, p => (List.range 16).findSome? (fun i =>
      let x := (s.pkg p).ports.get (Fin.ofNat 16 i)
      if x.mark = .up ∨ x.mark = .down then (s.portRoute q n x.peer).map (fun r => (p, BitVec.ofNat 4 i) :: r) else none)

/-- The route that the package route table of `p` holds for `q`: the fewest hops, at most 14 (R358, R359). -/
def State.tableRoute (s : State) (p q : PkgNo) : Option (List (PkgNo × BitVec 4)) :=
  (List.range 15).findSome? (fun n => s.portRoute q n p)

/-- Whether a port is up. -/
def State.portUp (s : State) (x : PkgNo × BitVec 4) : Bool := ((s.pkg x.1).ports.get x.2.toFin).mark == .up

/-- Whether an access of `p` reaches `q`: the table holds a route and every port on it is up (R358, R359). -/
def State.routed (s : State) (p q : PkgNo) : Bool :=
  p == q || (match s.tableRoute p q with
    | some r => r.all s.portUp
    | none => false)

/-- Translates the virtual address of a team: window, page table. -/
def State.xlateTeamVa (s : State) (t : Team) (acc : Access) (va : Nat) : Xl :=
  match s.teamCtx? t with
  | none => .fault kTrans (va / 4096 * 4096) 0
  | some c =>
    if 2 ^ 52 ≤ va then .fault kTrans 0 0
    else match s.xlateVa t.pkg c acc (s.walkExpired t) va with
    | .ok k =>
      if isDevKey k && !s.routed t.pkg (keyPkg k) then .fault kRoute 0 0
      else if s.barred acc k || (acc == .atomic && !isDevKey k) then .fault kAccess (va / 4096 * 4096) 0 else .ok k
    | x => x

/-- Translates the address of a scalar access or a fetch (R130, R237, R271). The host stands on no core, so an argument of its
service calls is an address of the page and window tables alone (R388). -/
def State.xlateScalar (s : State) (t : Team) (acc : Access) (a : Word) : Xl :=
  let va := (a.extractLsb' 0 52).toNat
  let page := va / 4096 * 4096
  if a.extractLsb' 52 12 = 0 then s.xlateTeamVa t acc va
  else if a.extractLsb' 40 24 = 0xFFFFFF && a.extractLsb' 29 11 = 0 then
    if acc = .fetch ∨ t.uid = 0 then .fault kAccess page 0
    else s.xlateCluster t (a.extractLsb' 21 8).toNat (a.extractLsb' 0 21).toNat page
  else .fault kTrans page 0

end Sys2Proof.Machine
end

