-- ==== Sys2Proof/Machine/Views.lean ====
section
/-!
DEFINITION. The phase-consistency memory: bytes, writes, views, reads (R208, R209, R216), the Press as far as reads and
boundaries need it (R299, R309, R320 to R323), publication, acquisition and boundaries (R206 to R212), CFENCE (R215)
and atomic writes (R217).
-/

namespace Sys2Proof.Machine

/-! ### Bytes -/

/-- The little-endian number of a byte list. -/
def bytesToNat : List Byte → Nat
  | [] => 0
  | b :: bs => b.toNat + 256 * bytesToNat bs

/-- The `n` low bytes of a number, least significant first. -/
def natToBytes : Nat → Nat → List Byte
  | 0, _ => []
  | n + 1, x => BitVec.ofNat 8 x :: natToBytes n (x / 256)

/-- The keys of `n` bytes from `k` on. -/
def keysFrom (k n : Nat) : List Nat := (List.range n).map (fun i => k + i)

/-- Reads a byte of a memory. -/
def Memory.get (m : Memory) (k : Nat) : Byte := kget 0 m k

/-- Writes a byte of a memory, keeping its canonical form. -/
def Memory.put (m : Memory) (k : Nat) (b : Byte) : Memory := kset 0 m k b

/-- Writes several bytes. -/
def Memory.putCells (m : Memory) (cs : List Host.Cell) : Memory := cs.foldl (fun m c => Memory.put m c.1 c.2) m

/-- A little-endian number in memory. -/
def Memory.num (m : Memory) (k n : Nat) : Nat := bytesToNat ((keysFrom k n).map (Memory.get m))

/-- The cells of a byte list from key `k` on. -/
def cellsAt (k : Nat) (bs : List Byte) : List Host.Cell := bs.zipIdx.map (fun bi => (k + bi.2, bi.1))

/-- The union of two lists of names. -/
def union (a b : List Nat) : List Nat := a ++ b.filter (fun x => !a.contains x)

/-! ### The Press: values and racking -/

/-- The residue of a word, and whether it is a signalling NaN (R312). -/
def residueOf (f : Fmt) (code : Nat) : Residue × Bool :=
  match f.dec code with
  | .nan sg => (.nan, sg)
  | .inf n => (.inf n, false)
  | .fin n m e => (.num (signed n (m * 2 ^ (e + 149).toNat)) (n && m == 0), false)

/-- Adds one value to a residue (R309): the residue, NV. -/
def Residue.add (r v : Residue) : Residue × Bool :=
  match r, v with
  | .num x a, .num y b => (.num (x + y) (a && b), false)
  | .inf n, .inf k => if n = k then (.inf n, false) else (.nan, true)
  | .nan, _ => (.nan, false)
  | _, .nan => (.nan, false)
  | .inf n, _ => (.inf n, false)
  | _, .inf n => (.inf n, false)

/-- The word of a residue: the residue (past 2^194, an infinity), the code, and OF (R309). -/
def Residue.word (f : Fmt) (r : Residue) : Residue × Nat × Bool :=
  match r with
  | .nan => (.nan, f.qnan, false)
  | .inf n => (.inf n, f.infCode n, false)
  | .num x nz =>
    if (2 ^ (194 + 149) : Nat) ≤ x.natAbs then
      let n := decide (x < 0)
      (.inf n, f.infCode n, true)
    else
      let n := if x = 0 then nz else decide (x < 0)
      let (c, _) := roundFin f false 0 0 n x.natAbs (-149) false
      (.num x nz, c, (f.dec c).isInf)

/-- The Press order of two order keys (R314): whether `a` is not after `b`. -/
def Pair.le (a b : Pair) : Bool :=
  if a.ph != b.ph then a.ph.ult b.ph
  else if a.gid != b.gid then a.gid.ult b.gid
  else decide (a.seq ≤ b.seq)

/-- Folds one value into a region word by an operator that needs no residue (R309): the word and NV. -/
def pressFold (op : Nat) (x v : Nat) : Nat × Bool :=
  let s := fun (a : Nat) => intOf 64 true a
  match op with
  | 2 => ((x + v) % 2 ^ 64, false)
  | 3 => (if s x ≤ s v then x else v, false)
  | 4 => (if s v ≤ s x then x else v, false)
  | 5 => (Nat.min x v, false)
  | 6 => (Nat.max x v, false)
  | 7 => let (c, fl) := fminmax fp32 false x v; (c, fl != 0)
  | 8 => let (c, fl) := fminmax fp32 true x v; (c, fl != 0)
  | 9 => let (c, fl) := fmaxabs fp32 x v; (c, fl != 0)
  | 10 => (x &&& v, false)
  | 11 => (x ||| v, false)
  | _ => (x ^^^ v, false)

/-- press_value of a word with base value `b` and updates `ups`, in the order performed: the word and the region with
its residue, greatest pair and status (R309). -/
def Region.combine (r : Region) (idx b : Nat) (ups : List Pair) : Nat × Region :=
  match ups with
  | [] => (b, r)
  | u :: us =>
    if r.op.toNat ≤ 1 then
      let f := if r.op = 0 then fp32 else bf16
      let (r0, s0) := match kfind r.residues idx with
        | some x => (x, false)
        | none => residueOf f b
      let vs := ups.map (fun p => residueOf fp32 (p.value.toNat % 2 ^ 32))
      let all := r0 :: vs.map (·.1)
      let x := vs.foldl (fun (a : Residue) v => (a.add v.1).1) r0
      let old := (kfind r.infs idx).getD (false, false)
      let infs := (old.1 || all.contains (.inf false), old.2 || all.contains (.inf true))
      let nv := s0 || vs.any (·.2) || (infs.1 && infs.2 && vs.any (fun v => v.1 == .inf false || v.1 == .inf true))
      let (x, c, ov) := x.word f
      (c, { r with residues := kput r.residues idx x, infs := if infs = (false, false) then r.infs else kput r.infs idx infs,
                   nv := r.nv || nv, of := r.of || ov })
    else if r.op = 0xD then
      let top := (match kfind r.tops idx with
        | some p => u :: us |>.foldl (fun (a : Pair) p => if a.le p then p else a) p
        | none => us.foldl (fun (a : Pair) p => if a.le p then p else a) u)
      (top.value.toNat, { r with tops := kput r.tops idx top })
    else
      let (c, nv) := ups.foldl (fun (acc : Nat × Bool) p =>
        let (y, bad) := pressFold r.op.toNat acc.1 p.value.toNat
        (y, acc.2 || bad)) (b, false)
      (c, { r with nv := r.nv || nv })

/-- The memory key of a region word, while its page has a frame to rack into (R327). -/
def Ctx.wordKey? (c : Ctx) (r : Region) (idx : Nat) : Option Nat :=
  let va := r.base + idx * opWidth r.op.toNat
  match c.winXlate .read va with
  | .ok k => some k
  | _ => none

/-- Replaces a region of a context. -/
def Ctx.putRegion (c : Ctx) (h : Nat) (r : Region) : Ctx := { c with regions := kput c.regions h r }

/-- Racks the performed key of a region word, if it has one (R323). -/
def State.rackWord (s : State) (p : PkgNo) (ctx : CtxId) (h idx : Nat) : State :=
  match s.ctx? p ctx with
  | none => s
  | some c =>
    match kfind c.regions h with
    | none => s
    | some r =>
      let isKey := fun (k : PressKey) => k.ctx == ctx && k.handle == h && k.idx == idx && k.owner.isNone
      match (s.pkg p).keys.find? isKey, c.wordKey? r idx with
      | some k, some a =>
        let w := opWidth r.op.toNat
        let (v, r') := r.combine idx (Memory.num s.mem a w) k.ups
        let s := s.modPkg p (fun x => { x with keys := x.keys.filter (fun k => !isKey k) })
        { (s.modCtx p ctx (fun c => c.putRegion h r')) with mem := Memory.putCells s.mem (cellsAt a (natToBytes w v)) }
      | _, _ => s

/-- Whether a package holds a region. -/
def State.hasRegion (s : State) (p : PkgNo) : Bool := (s.pkg p).ctxs.any (fun kc => !kc.2.regions.isEmpty)

/-- Racks the region words of the 128-byte line that starts at key `l` (R324); no word is narrower than two bytes. -/
def State.rackLine (s : State) (l : Nat) : State :=
  if !s.hasRegion (keyPkg l) then s
  else (List.range 64).foldl (fun s i =>
    match s.regionAt (l + 2 * i) with
    | some (c, h, _, i) => s.rackWord (keyPkg l) c h i
    | none => s) s

/-- Racks every region word of the lines that some keys lie in (R295, R323, R324). -/
def State.rackKeys (s : State) (keys : List Nat) : State :=
  (keys.foldl (fun ls k => if ls.contains (k / 128 * 128) then ls else ls ++ [k / 128 * 128]) []).foldl State.rackLine s

/-! ### Views and reads -/

/-- The number of a path that holds a view. -/
def Path.view (p : Path) : Fin 5 :=
  match p with
  | .copy => 1
  | .mload => 2
  | .gath => 3
  | .send => 4
  | _ => 0

/-- The code of a path in a fault record (Table 7.2). -/
def Path.code (p : Path) : BitVec 3 :=
  match p with
  | .team => 0
  | .copy => 1
  | .mload => 2
  | .gath => 3
  | .send => 4
  | .upd => 5
  | .host => 6
  | .fetch => 7

/-- `a` is ordered before `b` (R209), both writing a common byte. -/
def Write.orderedBefore (a b : Write) : Bool :=
  b.before.contains a.id || (a.uid == b.uid && a.path == b.path && decide (a.id < b.id))

/-- The maximal writes of a byte among `ws`. -/
def maximal (ws : List Write) (k : Nat) : List Write :=
  let cov := ws.filter (fun w => (kfind w.cells k).isSome)
  cov.filter (fun w => !cov.any (fun v => v.id != w.id && w.orderedBefore v))

/-- Rotates a list. -/
def rotate {α : Type} (l : List α) (n : Nat) : List α := l.drop n ++ l.take n

/-- How many of the aligned blocks of 8, 4 and 2 bytes around a byte a write holds throughout, no write that counts ordered
after it; a segment, the one write of a team that passes such a block (R216), counts once more while it stands whole. -/
def Write.covers (ws : List Write) (counts : Write → Bool) (k : Nat) (w : Write) : Nat :=
  let stands := fun (j : Nat) => (kfind w.cells j).isSome &&
    !ws.any (fun v => counts v && (kfind v.cells j).isSome && w.orderedBefore v)
  ([8, 4, 2].filter (fun n => (keysFrom (k / n * n) n).all stands)).length +
    (if w.uid != 0 && w.cells.any (fun c => c.1 / 8 != k / 8) && w.cells.all (fun c => stands c.1) then 1 else 0)

/-- The better of two maximal writes of a byte: the one that covers more around it, then the one that the free choice
ranks higher; so no aligned access and no segment mixes two writes while one of them holds all of it (R216, log 84). -/
def Write.better (ws : List Write) (counts : Write → Bool) (k : Nat) (rank : Nat → Nat) (a b : Write) : Write :=
  let ca := a.covers ws counts k
  let cb := b.covers ws counts k
  if cb < ca then a else if ca < cb then b else if rank b.id ≤ rank a.id then a else b

/-- The write that a byte is read from: of several maximal writes, a free choice that depends on the writes and not on
the access, so that every read of the byte finds the same one (R209). -/
def readWrite (ws : List Write) (counts : Write → Bool) (rank : Nat → Nat) (k : Nat) : Option Write :=
  match maximal ws k with
  | [] => none
  | w :: vs => some (vs.foldl (Write.better ws counts k rank) w)

/-- Bytes read from a set of writes; `base` gives the bytes that no write covers (R209, R216). -/
def readFrom (ws : List Write) (counts : Write → Bool) (base : Nat → Byte) (rank : Nat → Nat) (keys : List Nat) : List Byte :=
  keys.map (fun k => match readWrite ws counts rank k with
    | some w => kget 0 w.cells k
    | none => base k)

/-- The team's view of a path. -/
def Team.view (t : Team) (p : Path) : List Nat := t.views.get p.view

/-- Replaces the team's view of a path. -/
def Team.setView (t : Team) (p : Path) (v : List Nat) : Team := { t with views := t.views.set p.view v }

/-- Whether a read on a path may return a write: the path's view holds it, or the team itself made it on another path
and a free choice lets it be seen without a fence (log 12: the outcomes listed after R180 and R219 allow it). -/
def Team.mayRead (t : Team) (p : Path) (w : Write) : Bool :=
  (t.view p).contains w.id ||
  (w.uid == t.uid && w.path != p && pickAt (t.epochs.get p.view) (2 ^ 63 + w.id) 2 == 1)

/-- The bytes of one access of a team on a path, region words apart. A write that the team has made since its last boundary, or
CFENCE into the path, changes no choice at the bytes around it (R209, log 84). -/
def State.viewBytes (s : State) (t : Team) (p : Path) (keys : List Nat) : List Byte :=
  let start := match s.teamCtx? t with
    | some c => c.start
    | none => []
  readFrom (s.writes.filter (t.mayRead p)) (fun v =>
    if v.uid = t.uid then v.epochs.get p.view != t.epochs.get p.view else v.entered) (Memory.get start)
    (fun id => pickAt (t.epochs.get p.view) id (2 ^ 32)) keys

/-- The bytes that one access reads (R209, R295): region words are racked and read as they stand. -/
def State.load (s : State) (t : Team) (p : Path) (keys : List Nat) : List Byte × State :=
  let s' := s.rackKeys keys
  let vs := s'.viewBytes t p keys
  (keys.zip vs |>.map (fun kb => if (s'.regionAt kb.1).isSome then Memory.get s'.mem kb.1 else kb.2), s')

/-- The first byte with an uncorrectable error (R222). -/
def State.badKey? (s : State) (keys : List Nat) : Option Nat := keys.find? (fun k => s.bad.contains k)

/-! ### Writes -/

/-- Performs a write of a team on a path (R208): one write, which enters the view of its path. DESIGN CHOICE (log 118): "the view
of the team that made it" (R209) is the view of that path alone. -/
def State.store (s : State) (uid : Nat) (p : Path) (cells : List Host.Cell) : State :=
  match s.team? uid with
  | none => s
  | some t =>
    let v := t.view p
    let hit := fun (w : Write) => v.contains w.id && w.cells.any (fun c => cells.any (fun d => d.1 == c.1))
    let w : Write := ⟨s.nextId, uid, p, cells, (s.writes.filter hit).map (·.id), false, t.ctx, t.epochs⟩
    let s := { s with nextId := s.nextId + 1, writes := s.writes ++ [w],
                      bad := s.bad.filter (fun k => !cells.any (fun c => c.1 == k)) }
    s.modTeam uid (fun t => t.setView p (v ++ [w.id]))

/-- Whether a host write to a byte is ordered after a write to it (R298). -/
def State.hostAfter (s : State) (w : Write) (k : Nat) : Bool :=
  s.writes.any (fun h => h.uid == 0 && h.before.contains w.id && (kfind h.cells k).isSome)

/-- Enters the writes of a view into the atomic orders of their bytes (R217), in the order they performed; a byte that a
later host write holds stays (R298). A write to what is a region word by now was made before the region was registered:
the word keeps what the Press holds. -/
def State.enter (s : State) (view : List Nat) : State :=
  let fresh := s.writes.filter (fun w => view.contains w.id && !w.entered)
  { s with mem := fresh.foldl (fun m w => Memory.putCells m (w.cells.filter (fun c =>
             (s.regionAt c.1).isNone && !s.hostAfter w c.1))) s.mem,
           writes := s.writes.map (fun w => if view.contains w.id then { w with entered := true } else w) }

/-- A write of the system that every team of a context sees at once: it is ordered after every write made so far. -/
def State.systemStore (s : State) (ctx : CtxId) (cells : List Host.Cell) : State :=
  let hit := fun (w : Write) => w.cells.any (fun c => cells.any (fun d => d.1 == c.1))
  let w : Write := ⟨s.nextId, 0, .host, cells, (s.writes.filter hit).map (·.id), true, ctx, Vector.replicate 5 s.free⟩
  { s with nextId := s.nextId + 1, writes := s.writes ++ [w], mem := Memory.putCells s.mem cells,
           teams := s.teams.map (fun t => if t.ctx == ctx then { t with views := t.views.map (fun v => v ++ [w.id]) } else t),
           saved := s.saved.map (fun x => if x.team.ctx == ctx then
             { x with team := { x.team with views := x.team.views.map (fun v => v ++ [w.id]) } } else x),
           launches := s.launches.map (fun l => if l.ctx == ctx then { l with view0 := l.view0 ++ [w.id] } else l) }

/-- A host-path write (R298, R313): ordered after every write to its bytes that has performed; it enters the atomic
order at once. -/
def State.hostStore (s : State) (cells : List Host.Cell) : State :=
  let hit := fun (w : Write) => w.cells.any (fun c => cells.any (fun d => d.1 == c.1))
  let w : Write := ⟨s.nextId, 0, .host, cells, (s.writes.filter hit).map (·.id), true, 0, Vector.replicate 5 s.free⟩
  { s with nextId := s.nextId + 1, writes := s.writes ++ [w], mem := Memory.putCells s.mem cells,
           bad := s.bad.filter (fun k => !cells.any (fun c => c.1 == k)) }

/-! ### Scopes and publications -/

/-- What the parties of a scope share (Table 7.1): the global id without this many low bits. -/
def scopeShift (c : ScopeCode) : Nat :=
  match c.toNat with
  | 0 => 0
  | 1 => 3
  | 2 => 11
  | 3 => 12
  | 4 => 13
  | _ => 25

/-- Whether two teams of one context are parties of each other at a scope (R206). -/
def partyOf (c : ScopeCode) (u1 : Nat) (g1 : Gid) (u2 : Nat) (g2 : Gid) : Bool :=
  if c = 0 then u1 == u2 else g1.toNat / 2 ^ scopeShift c == g2.toNat / 2 ^ scopeShift c

/-- The publication bound of a scope, in cycles at the slowest clock (Table 7.1); none for .team and for .fab. -/
def scopeBound (c : ScopeCode) : Option Nat :=
  match c.toNat with
  | 1 => some (nsCycles 500)
  | 2 => some (nsCycles 1000)
  | 3 => some (nsCycles 2000)
  | 4 => some (nsCycles 4000)
  | _ => none

/-- The narrower of two scopes. -/
def scopeMin (a b : ScopeCode) : ScopeCode := if a.ule b then a else b
/-- The wider of two scopes. -/
def scopeMax (a b : ScopeCode) : ScopeCode := if a.ule b then b else a

/-- The scope whose bound holds between two teams: the narrower, and .pkg for two .fab boundaries of one package
(R373). -/
def pairScope (a : ScopeCode) (g1 : Gid) (b : ScopeCode) (g2 : Gid) : ScopeCode :=
  let m := scopeMin a b
  if m = 5 && gidPkg g1 == gidPkg g2 then 4 else m

/-- Whether a barrier or a SYNC.WAIT has published it and still waits. -/
def State.pubWaits (s : State) (pub : Nat) : Bool :=
  s.teams.any (fun t => match t.wait with
    | .arrived _ _ p => p == pub
    | .sync _ _ _ p _ => p == pub
    | _ => false)

/-- Whether another team has acquired the publication already. -/
def State.pubTaken (s : State) (uid pub : Nat) : Bool :=
  s.teams.any (fun t => t.uid != uid && t.knows.contains pub) || s.saved.any (fun x => x.team.knows.contains pub) ||
  s.pubs.any (fun b => b.prec.contains pub)

/-- Whether a boundary at scope `sc` of team `t`, begun at `began`, acquires publication `b` (R211): both are parties,
and b precedes it, or b's bound has passed, or it is taken early by a free choice, while one is left (`early`). What a
boundary that still waits has published is not taken early: its team has yet to acquire what would precede the taker too
(R212, log 107). -/
def State.acquires (s : State) (t : Team) (sc : ScopeCode) (early : Bool) (began : Nat) (knows : List Nat) (b : Pub) : Bool :=
  b.ctx == t.ctx && b.uid != t.uid && partyOf b.scope b.uid b.gid t.uid t.gid &&
  partyOf sc t.uid t.gid b.uid b.gid &&
  (knows.contains b.id ||
   (match b.doneAt, scopeBound (pairScope b.scope b.gid sc t.gid) with
    | some d, some n => decide (d + n ≤ began)
    | _, _ => false) ||
   (early && !s.pubWaits b.id && s.pick b.id 2 == 1))

/-- Adds the publications that a boundary acquires to the team-path view; those that precede one of them precede the
boundary too, and are acquired with it (R212). -/
def State.acquire (s : State) (uid : Nat) (sc : ScopeCode) (early : Bool) (began : Nat) (prec : List Nat) : State :=
  match s.team? uid with
  | none => s
  | some t =>
    let knows := union t.knows prec
    let near := s.pubs.filter (s.acquires t sc early began knows)
    let knows := near.foldl (fun k b => union k (b.id :: b.prec)) knows
    let got := s.pubs.filter (s.acquires t sc early began knows)
    let view := got.foldl (fun v b => union v b.view) (t.view .team)
    let knows := got.foldl (fun k b => union k (b.id :: b.prec)) knows
    s.putTeam { t.setView .team view with knows := knows }

/-! ### Performing updates at boundaries -/

/-- Performs one pending key (R321): it joins the word's performed key, or becomes it. -/
def performKey (k : PressKey) (keys : List PressKey) : List PressKey :=
  let same := fun (j : PressKey) => j.ctx == k.ctx && j.handle == k.handle && j.idx == k.idx && j.owner.isNone
  if keys.any same then keys.map (fun j => if same j then { j with ups := j.ups ++ k.ups } else j)
  else keys ++ [{ k with owner := none }]

/-- Performs a team's pending keys whose regions' scopes `sc` contains; `all` performs every one (R299). -/
def State.performUpdates (s : State) (uid : Nat) (p : PkgNo) (sc : ScopeCode) (all : Bool) : State :=
  s.modPkg p (fun x =>
    let mine := fun (k : PressKey) =>
      (match k.owner with
       | some (u, _, _) => u == uid
       | none => false) &&
      (all || (match kfind x.ctxs k.ctx.toNat with
        | some c => (match kfind c.regions k.handle with
          | some r => r.scope.ule sc
          | none => true)
        | none => true))
    let go := x.keys.filter mine
    { x with keys := go.foldl (fun ks k => performKey k ks) (x.keys.filter (fun k => !mine k)) })

/-! ### Boundaries -/

/-- Publishes the team-path view (R210): the state, and the publication's name. With `final` (EXIT, a child's JOIN)
every other path's view joins first when `paths`, and every update is performed. What the boundary acquires now precedes
whatever acquires it (R212). -/
def State.publish (s : State) (uid : Nat) (sc : ScopeCode) (final paths : Bool) : State × Nat :=
  match s.team? uid with
  | none => (s, 0)
  | some t =>
    let view := if paths then t.views.toList.foldl union (t.view .team) else t.view .team
    let t := t.setView .team view
    let s := (s.putTeam t).enter view
    let s := (s.performUpdates uid t.pkg sc final).acquire uid sc true s.now []
    let b : Pub := { id := s.nextId, uid, gid := t.gid, pkg := t.pkg, ctx := t.ctx, scope := sc, view,
                     prec := ((s.team? uid).map (·.knows)).getD [], began := s.now, doneAt := none }
    ({ s with nextId := s.nextId + 1, pubs := s.pubs ++ [b] }, b.id)

/-- Completes a boundary (R207, R210, R211): acquisition, the phase count, the end of read stability. `prec` are
publications that an entry states to precede it. Nothing more is taken early once another team has acquired the boundary's
own publication, which it would precede (R212, log 107). -/
def State.complete (s : State) (uid : Nat) (sc : ScopeCode) (pub : Nat) (prec : List Nat) : State :=
  let began := (match s.pubs.find? (fun b => b.id == pub) with
    | some b => b.began
    | none => s.now)
  let s := s.acquire uid sc (!s.pubTaken uid pub) began prec
  let knows := ((s.team? uid).map (·.knows)).getD []
  let s := { s with pubs := s.pubs.map (fun (b : Pub) => if b.id == pub then
      { b with doneAt := some s.now, prec := union b.prec knows } else b) }
  let e := s.free
  { s with free := e + 1 }.modTeam uid (fun t =>
    let knows := union t.knows [pub]
    let old := (match s.teamCtx? t with
      | some c => (c.oldObj.filter (fun (o : OldShape) => o.by_ != 0 && partyOf sc t.uid t.gid o.by_ o.gid)).map OldShape.id
      | none => [])
    { t with phc := t.phc + 1, updSeq := 0, knows, lastPub := knows, epochs := Vector.replicate 5 e, seen := union t.seen old })

/-- A boundary that waits for nothing: publication and completion. -/
def State.boundary (s : State) (uid : Nat) (sc : ScopeCode) : State :=
  let (s, b) := s.publish uid sc false false
  s.complete uid sc b []

/-- What the host has written of a context's records, regions and tables, by name (R388). -/
def Ctx.hostMade (c : Ctx) : List Nat :=
  (c.oldObj.filter (fun (o : OldShape) => o.by_ == 0)).map OldShape.id ++ c.hostSets.map (·.1)

/-- CFENCE between two paths of a team (R215), steps 1 and 3 apart; from the host to the team path it also shows the
records that the host has written (R388). -/
def State.cfence (s : State) (uid : Nat) (src dst : Path) : State :=
  match s.team? uid with
  | none => s
  | some t =>
    let add := if src = .host then (s.writes.filter (fun w => w.uid == 0)).map (·.id) else t.view src
    if dst = .host then { s with hostView := union s.hostView add }
    else
      let e := s.free
      let old := (match s.teamCtx? t with
        | some c => if src = .host && dst = .team then c.hostMade else []
        | none => [])
      { s with free := e + 1 }.putTeam
        { t.setView dst (union (t.view dst) add) with
          epochs := t.epochs.set dst.view e, seen := union t.seen old }

/-- The write of an atomic (R217): it takes its place after every write in the atomic order of its bytes, and is
published alone to the parties of its scope. -/
def State.atomicWrite (s : State) (uid : Nat) (sc : ScopeCode) (cells : List Host.Cell) : State :=
  match s.team? uid with
  | none => s
  | some t =>
    let v := t.view .team
    let hit := fun (w : Write) =>
      (w.entered || v.contains w.id) && w.cells.any (fun c => cells.any (fun d => d.1 == c.1))
    let w : Write := ⟨s.nextId, uid, .team, cells, (s.writes.filter hit).map (·.id), true, t.ctx, t.epochs⟩
    let b : Pub := { id := s.nextId + 1, uid, gid := t.gid, pkg := t.pkg, ctx := t.ctx, scope := sc, view := [w.id],
                     prec := [], began := s.now, doneAt := some s.now }
    { s with nextId := s.nextId + 2, writes := s.writes ++ [w], pubs := s.pubs ++ [b],
             mem := Memory.putCells s.mem cells }.putTeam (t.setView .team (v ++ [w.id]))

/-- The bytes that the host path reads (R215, R298): a maximal write among those of the host path's view and those in
the atomic orders, the latter as memory holds them; region words as they stand (R323). -/
def State.hostBytes (s : State) (keys : List Nat) : List Byte :=
  let ws := s.writes.filter (fun w => w.entered || s.hostView.contains w.id)
  let ws := ws.map (fun w => if w.entered then
      { w with cells := w.cells.map (fun c => (c.1, Memory.get s.mem c.1)) } else w)
  (keys.zip (readFrom ws (fun _ => true) (Memory.get s.mem) (fun id => s.pick id (2 ^ 32)) keys)).map (fun kb =>
    if (s.regionAt kb.1).isSome then Memory.get s.mem kb.1 else kb.2)

/-- Memory as the host path leaves it: writes that a CFENCE has added to the host path's view stand in it (R274). -/
def State.hostMem (s : State) : Memory :=
  let ks := (s.writes.filter (fun w => s.hostView.contains w.id && !w.entered)).flatMap (fun w => w.cells.map (·.1))
  Memory.putCells s.mem (ks.zip (s.hostBytes ks))

/-- Bytes that a host-path read finds: those of planes and backing areas are unspecified (R312, R331). -/
def State.hostValue (s : State) (ks : List Nat) : List Byte :=
  (ks.zip (s.hostBytes ks)).map (fun kb => if s.plane kb.1 then Config.freeByte (s.free * 2 ^ 64 + kb.1) else kb.2)

/-- A region whose word has been written afresh: its residue and what it has racked start anew. -/
def Region.rebase (r : Region) (idx : Nat) : Region :=
  { r with residues := kdel r.residues idx, infs := kdel r.infs idx, tops := kdel r.tops idx }

/-- Region words that a host write has written start anew from the contents of memory (R313). -/
def State.rebaseKeys (s : State) (ks : List Nat) : State :=
  ks.foldl (fun s k => match s.regionAt k with
    | some (c, h, r, i) => s.modCtx (keyPkg k) c (fun x => x.putRegion h (((kfind x.regions h).getD r).rebase i))
    | none => s) s

/-- A write on the host path, by host software or by firmware (Table 7.2): bytes of planes and backing areas are discarded
(R312, R331), region words racked first (R313). -/
def State.hostPut (s : State) (cells : List Host.Cell) : State :=
  let cs := cells.filter (fun c => !s.plane c.1)
  let ks := cs.map (·.1)
  ((s.rackKeys ks).hostStore cs).rebaseKeys ks

end Sys2Proof.Machine
end

