-- ==== Sys2Proof/Machine/Operands.lean ====
section
/-!
DEFINITION. Operands: scalar operands, shape records and their addresses (R59 to R64), tiles and their geometry (R144 to
R149), the elements of a record in memory (order 7 of Table 5.3), streams as sources (R164).
-/

namespace Sys2Proof.Machine

/-! ### Why an instruction stops -/

/-- Why an instruction cannot complete now: it faults, a walk waits (R273), or it waits for something else. -/
inductive Stop where
  | fault (f : FaultInfo)
  | walk
  | stall
deriving DecidableEq, Repr

/-- A check. -/
abbrev Chk (α : Type) := Except Stop α

/-- A fault of a kind on a path. -/
def failK {α : Type} (kind : BitVec 8) (path : Path) : Chk α := .error (.fault (FaultInfo.plain kind path))

/-- An illegal-operation fault. -/
def illOp {α : Type} : Chk α := failK kIllOp .team

/-- An illegal-operation fault that names a tile. -/
def illOpTile {α : Type} (n : TReg) : Chk α :=
  .error (.fault { FaultInfo.plain kIllOp .team with tname := some n })

/-- Requires a condition, or illegal operation. -/
def must (b : Bool) : Chk Unit := if b then .ok () else illOp

/-- Edits the facts of a fault. -/
def mapFault {α : Type} (f : FaultInfo → FaultInfo) (x : Chk α) : Chk α :=
  match x with
  | .error (.fault i) => .error (.fault (f i))
  | y => y

/-- The outcome of a translation as a check: the key, or the fault with its address and page. -/
def xlChk (x : Xl) (path : Path) (acc : Access) (va : Nat) : Chk Nat :=
  match x with
  | .ok k => .ok k
  | .wait => .error .walk
  | .fault kind page size =>
    .error (.fault { FaultInfo.plain kind path with
      addr := some (BitVec.ofNat 52 va),
      page := if kind = kPage ∨ kind = kWalk ∨ kind = kWindow then
        some (BitVec.ofNat 52 page, size, acc.writes) else none })

/-! ### Scalar operands -/

/-- Operand b (R120). -/
def Team.opd (t : Team) (b : Opd) : Word :=
  match b with
  | .reg r => t.rs r
  | .imm v => v.signExtend 64

/-! ### Shape records (Tables 2.13 and 2.14) -/

def Shape.ndim (d : Shape) : Nat := (d.d0.extractLsb' 61 3).toNat
def Shape.etype (d : Shape) : BitVec 5 := d.d0.extractLsb' 56 5
def Shape.layout (d : Shape) : BitVec 2 := d.d0.extractLsb' 54 2
def Shape.space (d : Shape) : BitVec 2 := d.d0.extractLsb' 52 2
def Shape.base (d : Shape) : Nat := (d.d0.extractLsb' 0 52).toNat
def Shape.valid (d : Shape) : Bool := d.d1.getLsbD 63
def Shape.ssh (d : Shape) : Nat := (d.d1.extractLsb' 57 3).toNat
def Shape.rightM (d : Shape) : Bool := d.d1.getLsbD 56
def Shape.rightS (d : Shape) : Bool := d.d1.getLsbD 55
def Shape.rightU (d : Shape) : Bool := d.d1.getLsbD 54
def Shape.rightW (d : Shape) : Bool := d.d1.getLsbD 53
def Shape.rightR (d : Shape) : Bool := d.d1.getLsbD 52
def Shape.bound (d : Shape) : Nat := (d.d1.extractLsb' 0 52).toNat
def Shape.tcore (d : Shape) : Nat := (d.d2.extractLsb' 44 8).toNat
/-- SCALE: an offset in cluster space, else an address. -/
def Shape.scale (d : Shape) : Nat :=
  if d.space = 1 then (d.d2.extractLsb' 0 21).toNat else (d.d2.extractLsb' 0 52).toNat
def Shape.nnz (d : Shape) : BitVec 16 := d.d4.extractLsb' 48 16

/-- sz of R61. -/
def Shape.sz (d : Shape) (i : Nat) : Nat :=
  (if i < 4 then (d.d3.extractLsb' (16 * i) 16).toNat
   else if i < 7 then (d.d4.extractLsb' (16 * (i - 4)) 16).toNat else 0) + 1

/-- The STRIDE field of a dimension. -/
def Shape.strideField (d : Shape) (i : Nat) : Nat :=
  let w := if i ≤ 2 then d.d5 else if i ≤ 4 then d.d6 else d.d7
  if i = 0 ∨ 7 ≤ i then 0 else (w.extractLsb' (29 * ((i - 1) % 2)) 29).toNat

/-- stride of R61. -/
def Shape.stride (d : Shape) (i : Nat) : Nat := d.strideField i * 2 ^ d.ssh

/-- The bytes that the outer indices add to an address; dimension `i` takes the head of the list. -/
def Shape.outerBytes (d : Shape) : Nat → List Nat → Nat
  | _, [] => 0
  | i, x :: xs => x * d.stride i + d.outerBytes (i + 1) xs

/-- elem_addr of R61; `idx` lists index 0, index 1 and so on. -/
def Shape.elemAddr (d : Shape) (idx : List Nat) : Nat :=
  match idx with
  | [] => d.base
  | i0 :: rest => d.base + d.outerBytes 1 (rest.take (d.ndim - 1)) + i0 * ebits d.etype / 8

/-- outer_index of R61 over the indices of dimensions `i` on. -/
def Shape.outerIndex (d : Shape) : Nat → List Nat → Nat
  | _, [] => 0
  | i, x :: xs => x + d.sz i * d.outerIndex (i + 1) xs

/-- Segments of a row of an MX record. -/
def Shape.segs (d : Shape) : Nat := (d.sz 0 + 31) / 32

/-- scale_addr of R61. -/
def Shape.scaleAddr (d : Shape) (idx : List Nat) : Nat :=
  match idx with
  | [] => d.scale
  | i0 :: rest => d.scale + d.outerIndex 1 (rest.take (d.ndim - 1)) * d.segs + i0 / 32

/-- span of R61; of a bitmap-sparse record, R166. -/
def Shape.span (d : Shape) : Nat :=
  let eb := ebits d.etype
  if d.layout = 3 then
    (if d.ndim ≤ 1 then 1 else d.sz 1) * ((d.sz 0 + 7) / 8) + (d.nnz.toNat * eb + 7) / 8
  else
    (d.sz 0 * eb + 7) / 8 + ((List.range 6).map (fun i =>
      if i + 1 < d.ndim then (d.sz (i + 1) - 1) * d.stride (i + 1) else 0)).sum

/-- Bytes of the scale plane of an MX record. -/
def Shape.scaleBytes (d : Shape) : Nat :=
  d.segs * ((List.range 6).map (fun i => if i + 1 < d.ndim then d.sz (i + 1) else 1)).prod

/-- The record that a team reads for a handle (R64): the present one, or one it need not have seen replaced yet. What
stood before a rewriting that it made itself or must have seen is gone, whoever wrote it. -/
def State.readShape (s : State) (t : Team) (h : Handle) : Shape :=
  match s.teamCtx? t with
  | none => Shape.zero
  | some c =>
    let old := ((c.oldObj.filter (fun o => o.handle == h)).reverse.takeWhile
      (fun o => o.by_ != t.uid && !t.seen.contains o.id)).reverse
    let vals := (old.map (·.old)) ++ [kget Shape.zero c.obj h.toNat]
    vals.getD (s.pick (2 ^ 60 + h.toNat) vals.length) Shape.zero

/-- The records of a TIQ entry read at acceptance, else read now (R64). -/
def State.recFor (s : State) (t : Team) (recs : List (Handle × Shape)) (h : Handle) : Shape :=
  match recs.find? (fun r => r.1 == h) with
  | some r => r.2
  | none => s.readShape t h

/-- The rights of Table 2.16. -/
inductive Right where
  | read
  | write
  | matrix
  | send
deriving DecidableEq, Repr

/-- Whether a record grants a right. -/
def Shape.grants (d : Shape) (r : Right) : Bool :=
  match r with
  | .read => d.rightR
  | .write => d.rightW
  | .matrix => d.rightM
  | .send => d.rightS

/-- A fault of the whole record: the handle, and the tile name if the instruction has one. -/
def shapeFault {α : Type} (kind : BitVec 8) (path : Path) (h : Handle) (tn : Option TReg) : Chk α :=
  .error (.fault { FaultInfo.plain kind path with handle := h, tname := tn })

/-- Table 2.16 orders 1 to 3; `sp` tells whether the instruction permits the record's space. -/
def useSpace (d : Shape) (h : Handle) (r : Right) (sp : Bool) (path : Path) (tn : Option TReg) : Chk Unit :=
  if h = 0 ∨ !d.valid then shapeFault kShape path h tn
  else if !sp then shapeFault kShape path h tn
  else if !d.grants r then shapeFault kRights path h tn
  else .ok ()

/-- Table 2.16 orders 1 to 3 where scratchpad, cluster and window are permitted; `glob` permits the global space. -/
def useShape (d : Shape) (h : Handle) (r : Right) (glob : Bool) (path : Path) (tn : Option TReg) : Chk Unit :=
  useSpace d h r (d.space != 3 || glob) path tn

/-! ### Geometry -/

/-- Segments of a tile's row. -/
def Geo.segs (g : Geo) : Nat := (g.cols + 31) / 32
/-- A dense tile (row-major). -/
def Geo.dense (g : Geo) : Bool := g.layout == 0
/-- An MX tile. -/
def Geo.mx (g : Geo) : Bool := g.layout == 2
/-- A packed tile. -/
def Geo.packed (g : Geo) : Bool := g.layout == 3
/-- Bytes of a row of elements. -/
def Geo.rowBytes (g : Geo) : Nat := (g.cols * ebits g.etype + 7) / 8
/-- Bytes of a bitmap row. -/
def Geo.mapRow (g : Geo) : Nat := (g.cols + 7) / 8

/-- The footprint (R144). -/
def Geo.footprint (g : Geo) : Nat :=
  if g.packed then g.rows * g.mapRow + (g.nnz.toNat * ebits g.etype + 7) / 8
  else g.rows * g.rowBytes + (if g.mx then g.rows * g.segs else 0)

/-- Slots of a tile. -/
def Geo.slots (g : Geo) : Nat := (g.footprint + 4095) / 4096

/-- The team's tile slots (Table 4.2). -/
def slotShare (part : BitVec 2) : Nat := 128 / 2 ^ part.toNat
/-- The team's accumulators (Table 4.2). -/
def accShare (part : BitVec 2) : Nat := 16 / 2 ^ part.toNat
/-- The team's B cells (Table 6.1). -/
def cellShare (part : BitVec 2) : Nat := 32768 / 2 ^ part.toNat
/-- The team's B scale bytes (Table 6.1). -/
def bscaleShare (part : BitVec 2) : Nat := 1024 / 2 ^ part.toNat
/-- Teams of a core (Table 4.2). -/
def teamsPerCore (part : BitVec 2) : Nat := 2 ^ part.toNat

/-- The geometry that a record gives a tile (Table 5.2). -/
def Shape.geo? (d : Shape) (h : Handle) (part : BitVec 2) : Option Geo :=
  let rows := if d.ndim = 1 then 1 else d.sz 1
  let cols := d.sz 0
  let g : Geo := ⟨d.etype, d.layout, if d.layout = 3 then d.nnz else 0, rows, cols⟩
  if h ≠ 0 ∧ d.valid ∧ (d.ndim = 1 ∨ d.ndim = 2) ∧ d.layout ≠ 1 ∧ (eclass d.etype).isSome ∧ rows ≤ 64 ∧ cols ≤ 1024 ∧
      (d.layout = 3 → 1 ≤ d.nnz.toNat ∧ d.nnz.toNat ≤ rows * cols) ∧
      g.footprint ≤ 32768 ∧ g.footprint ≤ slotShare part * 4096
  then some g else none

/-! ### Tiles -/

/-- An element's bits. -/
def Tile.el (x : Tile) (r c : Nat) : Nat := (kget 0 x.data (r * x.geo.cols + c)).toNat

/-- A segment's scale. -/
def Tile.sc (x : Tile) (r k : Nat) : Byte := kget 0x7F x.scales (r * x.geo.segs + k)

/-- A newly bound tile (R145). -/
def Tile.blank (h : Handle) (g : Geo) : Tile :=
  { handle := h, geo := g, written := false, strm := none, data := [], scales := [], bitmap := [], count := 0 }

/-- Canonical sparse data from elements by key. -/
def kmapOf {α : Type} [DecidableEq α] (d : α) (l : List (Nat × α)) : KMap α := l.foldl (fun m kv => kset d m kv.1 kv.2) []

/-- The code of a trit element that an instruction has read and writes: 0b10 reads as 0 and is written by none (R12). Loads
alone, which convert nothing, bring it into a tile as it is (R156, log 83). -/
def tritFix (et : BitVec 5) (x : Nat) : Nat := if et = 0x0A ∧ x % 4 = 2 then 0 else x

/-- The trit codes of a byte. -/
def trits (b : Byte) : List Nat := (List.range 4).map (fun i => b.toNat / 4 ^ i % 4)

/-- A byte of elements as an instruction writes it that has read it, with four trits mended (R12). -/
def tritByte (et : BitVec 5) (b : Byte) : Byte :=
  if et = 0x0A then BitVec.ofNat 8 ((trits b).zipIdx.map (fun xi => tritFix et xi.1 * 4 ^ xi.2)).sum else b

/-- The flag of reading trit elements (R12). -/
def tritFlag (et : BitVec 5) (xs : List Nat) : Flags := flIf (et == 0x0A && xs.any (fun x => x % 4 == 2)) flFMT

/-- A tile of the same binding that holds elements (r, c, bits) and scales (r, segment, byte); all others zero, scales
0x7F (R146). -/
def Tile.loaded (x : Tile) (els : List (Nat × Nat × Nat)) (scs : List (Nat × Nat × Byte)) : Tile :=
  { x with written := true, count := 0, bitmap := [],
           data := kmapOf 0 (els.map (fun e => (e.1 * x.geo.cols + e.2.1, BitVec.ofNat 64 e.2.2))),
           scales := kmapOf 0x7F (scs.map (fun e => (e.1 * x.geo.segs + e.2.1, e.2.2))) }

/-- A tile that an instruction has written with results (R12, R146). -/
def Tile.write (x : Tile) (els : List (Nat × Nat × Nat)) (scs : List (Nat × Nat × Byte)) : Tile :=
  x.loaded (els.map (fun e => (e.1, e.2.1, tritFix x.geo.etype e.2.2))) scs

/-- A packed tile's bitmap bit. -/
def Tile.bit (x : Tile) (r c : Nat) : Bool := (kget 0 x.bitmap (r * x.geo.mapRow + c / 8)).getLsbD (c % 8)

/-- An element code that counts as stored (R166): not a zero of its type. E8M0 has no zero (R16), and trit code 0b10
reads as 0 (R12). -/
def nonZero (et : BitVec 5) (x : Nat) : Bool :=
  match eclass et with
  | some (.flt f) => x % 2 ^ f.sbit != 0
  | some .trit => x % 4 != 0 && x % 4 != 2
  | some .e8m0 => true
  | some k => x % 2 ^ k.bits != 0
  | none => false

/-- The element of a packed tile: its stored value, or zero; values are numbered in row-major order of the set bits. -/
def Tile.packedEls (x : Tile) : List (Nat × Nat × Nat) :=
  ((coords x.geo.rows x.geo.cols).filter (fun rc => x.bit rc.1 rc.2)).zipIdx.map (fun p =>
    (p.1.1, p.1.2, (kget 0 x.data p.2).toNat))

/-- A packed tile from its stored elements in row-major order (R168). -/
def Tile.writePacked (x : Tile) (els : List (Nat × Nat × Nat)) : Tile :=
  { x with written := true, scales := [], count := els.length,
           data := kmapOf 0 (els.zipIdx.map (fun p => (p.2, BitVec.ofNat 64 p.1.2.2))),
           bitmap := els.foldl (fun m e =>
             let k := e.1 * x.geo.mapRow + e.2.1 / 8
             kset 0 m k (setBit (kget 0 m k) (e.2.1 % 8) true)) [] }

/-- A tile name of a team. -/
def Team.tile (t : Team) (n : TReg) : Option Tile := t.tiles.get n.toFin

/-- Replaces a tile name. -/
def Team.putTile (t : Team) (n : TReg) (x : Option Tile) : Team := { t with tiles := t.tiles.set n.toFin x }

/-- Order 1: a bound source. -/
def Team.src (t : Team) (n : TReg) : Chk Tile :=
  match t.tile n with
  | some x => .ok x
  | none => illOpTile n

/-- Order 1: a bound destination that no stream owns (R145). -/
def Team.dst (t : Team) (n : TReg) : Chk Tile :=
  match t.tile n with
  | some x => if x.strm.isSome then illOpTile n else .ok x
  | none => illOpTile n

/-- Order 1 of Table 6.6: a bound source that is no stream. -/
def Team.srcNoStream (t : Team) (n : TReg) : Chk Tile := t.dst n

/-- The slots that an instruction holds: those of its destinations and of the distinct sources that hold data, a stream
at its tile's full geometry (R149, log 13). -/
def slotsOf (t : Team) (dsts : List Geo) (srcs : List TReg) : Nat :=
  let names := srcs.foldl (fun acc n => if acc.contains n then acc else acc ++ [n]) ([] : List TReg)
  let held := names.map (fun n => match t.tile n with
    | some x => if x.written || x.strm.isSome then x.geo.slots else 0
    | none => 0)
  (dsts.map Geo.slots).sum + held.sum

/-- Order 4: the slots that an instruction holds fit the team's share (R149). -/
def slotsFit (t : Team) (dsts : List Geo) (srcs : List TReg) : Bool := decide (slotsOf t dsts srcs ≤ slotShare t.part)

/-- The extent of a capture: rows and columns. -/
def Capture.er (c : Capture) : Nat := c.ext.toNat
def Capture.ec (c : Capture) : Nat := c.extc.toNat
/-- A non-empty extent. -/
def Capture.live (c : Capture) : Bool := c.ext != 0 && c.extc != 0

/-- Order 2 for one geometry (R146). -/
def Geo.holds (g : Geo) (rows cols : Nat) : Bool := decide (rows ≤ g.rows) && decide (cols ≤ g.cols)

/-! ### Streams as sources (R164) -/

/-- The lines of a tile that a stream register holds: 8 slabs of 8 lines, and no more than the 8 x 4 KiB of Table 5.1 and
R225 hold. Of a tile whose 8 lines take more than 4 KiB, which the table does not speak of, it holds as many as fit: the
model's choice (log 44). -/
def streamCap (g : Geo) : Nat := min 64 (32768 / max 1 ((g.cols * ebits g.etype + 7) / 8))

/-- The lines that a stream of the team holds. -/
def Team.streamLines (t : Team) (st : Stream) : Nat :=
  match t.tile st.tile with
  | some x => streamCap x.geo
  | none => 64

/-- Lines that an instruction with EXT rows takes from a stream. -/
def slabLines (ext : Nat) : Nat := (ext + 7) / 8 * 8

/-- A source as an instruction reads it: a stream name shows its next lines; others stand as they are. -/
def Team.view_ (t : Team) (ext : Nat) (x : Tile) : Tile :=
  match x.strm with
  | none => x
  | some q =>
    match t.q.get q.toFin with
    | none => x
    | some st =>
      let ls := st.lines.take (min (slabLines ext) st.claimable)
      { x with data := kmapOf 0 ((ls.take x.geo.rows).zipIdx.flatMap (fun li =>
          (li.1.take x.geo.cols).zipIdx.map (fun ec => (li.2 * x.geo.cols + ec.2, ec.1)))) }

/-- The streams among some sources, each once. -/
def Team.streamsOf (t : Team) (ns : List TReg) : List QReg :=
  ns.foldl (fun acc n => match t.tile n with
    | some x => (match x.strm with
      | some q => if acc.contains q then acc else acc ++ [q]
      | none => acc)
    | none => acc) []

/-- Underflow (R164): the slabs would pass the end of every older TCOPY.str. -/
def Team.streamsOk (t : Team) (ext : Nat) (ns : List TReg) : Bool :=
  (t.streamsOf ns).all (fun q => match t.q.get q.toFin with
    | some st => decide (slabLines ext ≤ (st.claimable + 7) / 8 * 8)
    | none => false)

/-- Whether the lines to consume have arrived. -/
def Team.streamsReady (t : Team) (ext : Nat) (ns : List TReg) : Bool :=
  (t.streamsOf ns).all (fun q => match t.q.get q.toFin with
    | some st => decide (min (slabLines ext) st.claimable ≤ st.lines.length)
    | none => false)

/-- Consumes the slabs of every stream among the sources; the stream remembers them for R116. -/
def Team.consume (t : Team) (ext : Nat) (ns : List TReg) : Team :=
  (t.streamsOf ns).foldl (fun t q => match t.q.get q.toFin with
    | some st =>
      let n := min (slabLines ext) st.claimable
      { t with q := t.q.set q.toFin (some { st with
          lines := st.lines.drop n, claimable := st.claimable - n, taken := st.taken ++ st.lines.take n }) }
    | none => t) t

/-! ### Elements of a record in memory (order 7 of Table 5.3) -/

/-- An address of a record's space: its key. -/
def State.xlateRec (s : State) (t : Team) (d : Shape) (acc : Access) (a : Nat) : Xl :=
  match d.space.toNat with
  | 0 => if shareBytes t.split ≤ a then .fault kBounds 0 0 else .ok (scrKey (gidCoreKey t.gid) a)
  | 1 => s.xlateCluster t d.tcore a 0
  | _ => s.xlateTeamVa t acc a

/-- Every byte of a run of keys at address `a` may be accessed: none lies in a region, plane or backing area that bars
the access (R312, R313, R331). -/
def State.unbarred (s : State) (acc : Access) (path : Path) (a : Nat) (ks : List Nat) : Chk (List Nat) :=
  match ks.zipIdx.find? (fun kj => s.barred acc kj.1) with
  | some (_, j) => .error (.fault { FaultInfo.plain kAccess path with addr := some (BitVec.ofNat 52 (a + j)) })
  | none => .ok ks

/-- The keys of `n` bytes of a record; bytes of one 4 KiB page are translated together. -/
def State.recKeys (s : State) (t : Team) (d : Shape) (acc : Access) (path : Path) (a n : Nat) : Chk (List Nat) :=
  let one := fun a => mapFault (fun f => if d.space.toNat ≤ 1 then { f with addr := none, page := none } else f)
    (xlChk (s.xlateRec t d acc a) path acc a)
  if a % 4096 + n ≤ 4096 then do
    let k ← one a
    s.unbarred acc path a (keysFrom k n)
  else (keysFrom a n).mapM one

/-- The keys of `n` bytes at a virtual address of a team. -/
def State.vaKeys (s : State) (t : Team) (acc : Access) (path : Path) (a n : Nat) : Chk (List Nat) :=
  let one := fun a => xlChk (s.xlateTeamVa t acc a) path acc a
  if a % 4096 + n ≤ 4096 then do
    let k ← one a
    s.unbarred acc path a (keysFrom k n)
  else (keysFrom a n).mapM one

/-- Where an element lies: its bytes' keys, its bit offset in the first, its width, and the unused high bits of a row's
last byte, which a store writes as zero (R13); and its address in the record's space. -/
structure Site where
  va : Nat
  keys : List Nat
  bit : Nat
  width : Nat
  pad : Nat
deriving DecidableEq, Repr

/-- Order 7 for one element: index within the sizes, bytes within [BASE, BOUND), translation and access. -/
def State.site (s : State) (t : Team) (d : Shape) (acc : Access) (path : Path) (idx : List Nat) : Chk Site :=
  let inSize := idx.zipIdx.all (fun xi => decide (xi.1 < if xi.2 < d.ndim then d.sz xi.2 else 1))
  let a := d.elemAddr idx
  let w := ebits d.etype
  let n := max 1 (w / 8)
  let i0 := idx.headD 0
  let bit := if w < 8 then i0 * w % 8 else 0
  let pad := if w < 8 ∧ i0 + 1 = d.sz 0 then 256 - min 256 (2 ^ (bit + w)) else 0
  if !inSize || decide (a < d.base) || decide (d.bound < a + n) then failK kBounds path
  else do
    let ks ← s.recKeys t d acc path a n
    .ok ⟨a, ks, bit, w, pad⟩

/-- Order 7 for the scale byte of an element's segment. -/
def State.scaleSite (s : State) (t : Team) (d : Shape) (acc : Access) (path : Path) (idx : List Nat) :
    Chk (List Nat) :=
  s.recKeys t d acc path (d.scaleAddr idx) 1

/-- An element's bits in the bytes of its site. -/
def Site.get (x : Site) (bs : List Byte) : Nat := bytesToNat bs / 2 ^ x.bit % 2 ^ x.width

/-- Uncorrectable errors among the bytes of a read (R222). -/
def State.eccChk (s : State) (path : Path) (va : Nat) (keys : List Nat) : Chk Unit :=
  match s.badKey? keys with
  | some _ => .error (.fault { FaultInfo.plain kEcc path with addr := some (BitVec.ofNat 52 va) })
  | none => .ok ()

/-- Uncorrectable errors among the bytes of a record: an offset in scratchpad or cluster space is no address (log 81). -/
def State.recEcc (s : State) (d : Shape) (path : Path) (va : Nat) (keys : List Nat) : Chk Unit :=
  mapFault (fun f => if d.space.toNat ≤ 1 then { f with addr := none } else f) (s.eccChk path va keys)

/-- Reads the element at a site (R216: one access). -/
def State.readSite (s : State) (t : Team) (path : Path) (x : Site) : Nat × State :=
  let (bs, s) := s.load t path x.keys
  (x.get bs, s)

/-- The cells that write an element, given the bytes that its site holds. -/
def Site.cells (x : Site) (old : List Byte) (v : Nat) : List Host.Cell :=
  if 8 ≤ x.width then x.keys.zip (natToBytes (x.width / 8) v)
  else
    let m := (2 ^ x.width - 1) * 2 ^ x.bit + x.pad
    let o := bytesToNat old
    x.keys.zip [BitVec.ofNat 8 ((o &&& (255 - m)) ||| (v % 2 ^ x.width * 2 ^ x.bit))]

/-- Writes the element at a site. -/
def State.writeSite (s : State) (uid : Nat) (path : Path) (x : Site) (v : Nat) : State :=
  match s.team? uid with
  | none => s
  | some t => s.store uid path (x.cells (s.viewBytes t path x.keys) v)

end Sys2Proof.Machine
end

