-- ==== Sys2Proof/Machine/Tile.lean ====
section
/-!
DEFINITION. Tile instructions that touch no memory (05_core_tiles.md): binding, arrangement, conversion, quantisation
and element-wise operations. Each has its checks at acceptance (orders 1 to 5 of Table 5.3) and its run.
-/

namespace Sys2Proof.Machine

/-- What a tile-side instruction works on: the state, its team, what the entry captured, the records it read at
acceptance, the restart row it captured (R190), the lane function (R81) and the region (R316) read at acceptance, whether it has
begun, and whether a run of rows stops at its next row boundary (R189, R319). -/
structure TIn where
  s : State
  t : Team
  c : Capture
  recs : List (Handle × Shape)
  xrow : Nat
  code : Option (Bool × List (BitVec 32))
  region : Option Region
  begun : Bool
  step : Bool

/-- What the TIQ entry `e` of a team works on. -/
def TileEntry.tin (e : TileEntry) (s : State) (t : Team) (step : Bool) : TIn :=
  ⟨s, t, e.cap, e.recs, e.xrow, e.code, e.region, e.begun, step⟩

/-- The outcome of a tile-side instruction's run. -/
inductive Run where
  /-- It has completed. -/
  | done (s : State)
  /-- It faults; `s` holds what stays done. -/
  | fail (s : State) (f : FaultInfo)
  /-- It waits on a walk. -/
  | walk
  /-- It waits; `s` holds what it has done so far. -/
  | stall (s : State)
  /-- Its rows below `row` are done, the rest are still to come (R189, R319). -/
  | part (s : State) (row : Nat)

/-- A check that ends in a state, as a run that leaves nothing done when it stops. -/
def runChk (s : State) (x : Chk State) : Run :=
  match x with
  | .ok s' => .done s'
  | .error (.fault f) => .fail s f
  | .error .walk => .walk
  | .error .stall => .stall s

/-- The flags and draws so far, at the start of an instruction. -/
def Team.env (t : Team) : Env := ⟨t.lfsr, 0⟩

/-- Takes over an instruction's flags and draws (R31, R32). -/
def Team.applyEnv (t : Team) (e : Env) : Team :=
  { t with lfsr := e.l, fpst := t.fpst ||| (e.fl &&& 0x3F00), satf := if e.fl.getLsbD 63 then 1 else t.satf }

/-- Computes elements in the given order. -/
def runEls (f : Nat → Nat → Env → Nat × Env) : List (Nat × Nat) → Env → List (Nat × Nat × Nat) × Env
  | [], e => ([], e)
  | (r, c) :: rcs, e =>
    let (x, e) := f r c e
    let (xs, e) := runEls f rcs e
    ((r, c, x) :: xs, e)

/-- The extent of an instruction, row-major. -/
def TIn.ext (i : TIn) : List (Nat × Nat) := coords i.c.er i.c.ec

/-- Puts a team with a new destination tile and flags. -/
def TIn.put (i : TIn) (td : TReg) (x : Tile) (e : Env) : State :=
  i.s.putTeam ((i.t.putTile td (some x)).applyEnv e)

/-- Orders 2 and 4 and the streams, made for a non-empty extent only (R146); `gs` are the geometries that must hold the
extent. -/
def TIn.extChk (i : TIn) (gs : List Geo) (dsts : List Geo) (srcs : List TReg) (order3 : Chk Unit) : Chk Unit := do
  must (!i.c.live || (gs.all (fun g => g.holds i.c.er i.c.ec) && i.t.streamsOk i.c.er srcs))
  order3
  must (!i.c.live || slotsFit i.t dsts srcs)

/-- Runs over a non-empty extent; an empty one does nothing. Streams among the sources must have delivered, and are
consumed. DESIGN CHOICE (log 119): with EXT not 0 and EXTC = 0 nothing is consumed and no underflow is tested. -/
def TIn.live (i : TIn) (srcs : List TReg) (f : TIn → Run) : Run :=
  if !i.c.live then .done i.s
  else if !i.t.streamsReady i.c.er srcs then .stall i.s
  else
    match f i with
    | .done s => .done (s.modTeam i.t.uid (fun t => t.consume i.c.er srcs))
    | r => r

/-- A bound source as the instruction reads it, blank if it is not bound. -/
def TIn.rd (i : TIn) (n : TReg) : Tile :=
  match i.t.tile n with
  | some x => i.t.view_ i.c.er x
  | none => Tile.blank 0 ⟨0, 0, 0, 1, 1⟩

/-- The flags of moving elements of a type (R12). -/
def TIn.moveEnv (i : TIn) (et : BitVec 5) (els : List (Nat × Nat × Nat)) : Env :=
  i.t.env.flag (tritFlag et (els.map (·.2.2)))

/-- Puts a destination tile whose elements were moved from elements of a type (R12). -/
def TIn.putMoved (i : TIn) (td : TReg) (et : BitVec 5) (els : List (Nat × Nat × Nat)) (scs : List (Nat × Nat × Byte)) :
    State :=
  i.put td ((i.rd td).write els scs) (i.moveEnv et els)

/-! ### Types -/

/-- The element-wise types (R176). -/
def ewType (e : BitVec 5) : Bool :=
  match e.toNat with
  | 1 | 2 | 3 | 6 | 7 | 8 | 0xE | 0xF | 0x10 => true
  | _ => false

/-- A float type. -/
def isFlt (e : BitVec 5) : Bool :=
  match eclass e with
  | some (.flt _) => true
  | _ => false

/-- An integer type, trits apart. -/
def isInt (e : BitVec 5) : Bool :=
  match eclass e with
  | some (.int _ _) => true
  | _ => false

/-- An FP8 type. -/
def isFp8 (e : BitVec 5) : Bool := e == 0x0C || e == 0x0D
/-- The types of MX elements. -/
def isMxType (e : BitVec 5) : Bool := e == 0x0B || isFp8 e
/-- An index type: INT32 or UINT32. -/
def isIdx32 (e : BitVec 5) : Bool := e == 0x03 || e == 0x08

/-- The class of a type. -/
def cls (e : BitVec 5) : EClass := (eclass e).getD (.int 8 false)

/-! ### Element-wise operations (R176, R177) -/

/-- The checks of the element-wise operations: three dense tiles of one element-wise type; `old` reads the old td. -/
def ewAccept (i : TIn) (td : TReg) (ta tb : Src) (old : Bool) (ok : BitVec 5 → Bool) : Chk Unit := do
  let a ← i.t.src ta.t
  let b ← i.t.src tb.t
  let d ← i.t.dst td
  i.extChk [d.geo, a.geo, b.geo] [d.geo] ([ta.t, tb.t] ++ (if old then [td] else []))
    (must (d.geo.dense && a.geo.dense && b.geo.dense && d.geo.etype == a.geo.etype && d.geo.etype == b.geo.etype &&
      ewType d.geo.etype && ok d.geo.etype))

/-- Runs an element-wise operation: `f` gets the element type, a, b and the old td. -/
def ewRun (i : TIn) (td : TReg) (ta tb : Src) (f : EClass → Nat → Nat → Nat → Env → Nat × Env) : Run :=
  i.live [ta.t, tb.t] (fun i =>
    let d := i.rd td
    let a := i.rd ta.t
    let b := i.rd tb.t
    let (els, e) := runEls (fun r c => f (cls d.geo.etype) (a.el r c) (b.el r c) (d.el r c)) i.ext i.t.env
    .done (i.put td (d.write els []) e))

/-- TADD, TSUB, TMUL and TFMA on one element (R176); op 0 to 3. -/
def ewArith (op : Nat) (s : Bool) (mode : Rm) (k : EClass) (a b d : Nat) (env : Env) : Nat × Env :=
  match k with
  | .flt f =>
    let x := f.dec a
    let y := f.dec b
    let (z, fl) := match op with
      | 0 => fvAdd mode x y
      | 1 => fvAdd mode x (fvNeg y)
      | 2 => fvMul x y
      | _ => fvFma mode x y (f.dec d)
    rnd f false mode z false (env.flag fl)
  | .int w sg =>
    let x := intOf w sg a
    let y := intOf w sg b
    let (c, fl) := narrowInt w sg s (match op with
      | 0 => x + y
      | 1 => x - y
      | 2 => x * y
      | _ => x * y + intOf w sg d)
    (c, env.flag fl)
  | _ => (0, env)

/-- TMAX and TMIN on one element (R176, R33). -/
def ewMinMax (isMax : Bool) (k : EClass) (a b : Nat) (env : Env) : Nat × Env :=
  match k with
  | .flt f => let (c, fl) := fminmax f isMax a b; (c, env.flag fl)
  | .int w sg =>
    (if isMax then (if intOf w sg a ≥ intOf w sg b then a else b)
     else (if intOf w sg a ≤ intOf w sg b then a else b), env)
  | _ => (0, env)

/-- A condition of Table 3.7 on exact values; integers are ordered. -/
def condHolds (cc : Nat) (uno : Bool) (c : Int) : Bool :=
  match cc with
  | 0 => !uno && c == 0
  | 1 => uno || c != 0
  | 2 => !uno && decide (c < 0)
  | 3 => !uno && decide (c ≤ 0)
  | 4 => !uno && decide (c > 0)
  | 5 => !uno && decide (c ≥ 0)
  | 6 => uno
  | _ => !uno

/-- TCMP on one element (R177). -/
def ewCmp (cc : Nat) (k : EClass) (a b : Nat) (env : Env) : Nat × Env :=
  match k with
  | .flt f =>
    let x := f.dec a
    let y := f.dec b
    let t := condHolds cc (x.isNan || y.isNan) (fvCmp x y)
    (if t then f.enc false (2 ^ (f.p - 1)) (-((f.p - 1 : Nat) : Int)) else 0,
     env.flag (flIf (x.isSig || y.isSig) flNV))
  | .int w sg => (if condHolds cc false (intOf w sg a - intOf w sg b) then 1 else 0, env)
  | _ => (0, env)

/-- TADD: its checks. -/
def acceptTadd (i : TIn) (s : Bool) (td : TReg) (ta tb : Src) : Chk Unit :=
  ewAccept i td ta tb false (fun e => !(s && isFlt e))
/-- TADD (R176). -/
def runTadd (i : TIn) (s : Bool) (rm : Rm) (td : TReg) (ta tb : Src) : Run :=
  ewRun i td ta tb (ewArith 0 s (resolveRm rm i.c.drm))
/-- TSUB: its checks. -/
def acceptTsub (i : TIn) (s : Bool) (td : TReg) (ta tb : Src) : Chk Unit :=
  ewAccept i td ta tb false (fun e => !(s && isFlt e))
/-- TSUB (R176). -/
def runTsub (i : TIn) (s : Bool) (rm : Rm) (td : TReg) (ta tb : Src) : Run :=
  ewRun i td ta tb (ewArith 1 s (resolveRm rm i.c.drm))
/-- TMUL: its checks. -/
def acceptTmul (i : TIn) (s : Bool) (td : TReg) (ta tb : Src) : Chk Unit :=
  ewAccept i td ta tb false (fun e => !(s && isFlt e))
/-- TMUL (R176). -/
def runTmul (i : TIn) (s : Bool) (rm : Rm) (td : TReg) (ta tb : Src) : Run :=
  ewRun i td ta tb (ewArith 2 s (resolveRm rm i.c.drm))
/-- TFMA: its checks. -/
def acceptTfma (i : TIn) (s : Bool) (td : TReg) (ta tb : Src) : Chk Unit :=
  ewAccept i td ta tb true (fun e => !(s && isFlt e))
/-- TFMA (R176). -/
def runTfma (i : TIn) (s : Bool) (rm : Rm) (td : TReg) (ta tb : Src) : Run :=
  ewRun i td ta tb (ewArith 3 s (resolveRm rm i.c.drm))
/-- TMAX: its checks. -/
def acceptTmax (i : TIn) (td : TReg) (ta tb : Src) : Chk Unit := ewAccept i td ta tb false (fun _ => true)
/-- TMAX (R176). -/
def runTmax (i : TIn) (td : TReg) (ta tb : Src) : Run :=
  ewRun i td ta tb (fun k a b _ e => ewMinMax true k a b e)
/-- TMIN: its checks. -/
def acceptTmin (i : TIn) (td : TReg) (ta tb : Src) : Chk Unit := ewAccept i td ta tb false (fun _ => true)
/-- TMIN (R176). -/
def runTmin (i : TIn) (td : TReg) (ta tb : Src) : Run :=
  ewRun i td ta tb (fun k a b _ e => ewMinMax false k a b e)
/-- TCMP: its checks. -/
def acceptTcmp (i : TIn) (td : TReg) (ta tb : Src) : Chk Unit := ewAccept i td ta tb false (fun _ => true)
/-- TCMP (R177). -/
def runTcmp (i : TIn) (cc : BitVec 3) (td : TReg) (ta tb : Src) : Run :=
  ewRun i td ta tb (fun k a b _ e => ewCmp cc.toNat k a b e)
/-- TSEL: its checks. -/
def acceptTsel (i : TIn) (td : TReg) (ta tb : Src) : Chk Unit := ewAccept i td ta tb true (fun _ => true)
/-- TSEL (R177). -/
def runTsel (i : TIn) (td : TReg) (ta tb : Src) : Run :=
  ewRun i td ta tb (fun _ a b d e => (if nonZero (i.rd td).geo.etype d then a else b, e))

/-! ### Moves and arrangement (R169 to R172) -/

/-- TMOV: its checks (R169). A packed tile moves whole, without the extent. -/
def acceptTmov (i : TIn) (td : TReg) (ta : Src) : Chk Unit := do
  let a ← i.t.src ta.t
  let d ← i.t.dst td
  let same := must (d.geo.rows == a.geo.rows && d.geo.cols == a.geo.cols && d.geo.etype == a.geo.etype &&
    d.geo.layout == a.geo.layout)
  if a.geo.packed then do
    same
    must (slotsFit i.t [d.geo] [ta.t])
  else i.extChk [d.geo, a.geo] [d.geo] [ta.t] same

/-- The scales of the segments that the extent touches. -/
def Tile.touched (x : Tile) (rows cols : Nat) : List (Nat × Nat × Byte) :=
  (coords rows ((cols + 31) / 32)).map (fun rk => (rk.1, rk.2, x.sc rk.1 rk.2))

/-- TMOV (R169). A packed destination takes contents that its own capacity may exceed (log 14). -/
def runTmov (i : TIn) (td : TReg) (ta : Src) : Run :=
  let d := i.rd td
  let a := i.rd ta.t
  if a.geo.packed then
    let vals := (List.range a.count).map (fun j => (j, (kget 0 a.data j).toNat))
    .done (i.put td { d with written := true, scales := [], bitmap := a.bitmap, count := a.count,
                             data := kmapOf 0 (vals.map (fun v => (v.1, BitVec.ofNat 64 (tritFix a.geo.etype v.2)))) }
      (i.t.env.flag (tritFlag a.geo.etype (vals.map (·.2)))))
  else i.live [ta.t] (fun i =>
    .done (i.putMoved td a.geo.etype (i.ext.map (fun rc => (rc.1, rc.2, a.el rc.1 rc.2)))
      (if a.geo.mx then a.touched i.c.er i.c.ec else [])))

/-- TTRN: its checks (R171). -/
def acceptTtrn (i : TIn) (td : TReg) (ta : Src) : Chk Unit := do
  let a ← i.t.src ta.t
  let d ← i.t.dst td
  must (!i.c.live || (a.geo.holds i.c.er i.c.ec && d.geo.holds i.c.ec i.c.er && i.t.streamsOk i.c.er [ta.t]))
  must (d.geo.dense && a.geo.dense && d.geo.etype == a.geo.etype)
  must (!i.c.live || slotsFit i.t [d.geo] [ta.t])
/-- TTRN (R171). -/
def runTtrn (i : TIn) (td : TReg) (ta : Src) : Run :=
  i.live [ta.t] (fun i =>
    let a := i.rd ta.t
    .done (i.putMoved td a.geo.etype (i.ext.map (fun rc => (rc.2, rc.1, a.el rc.1 rc.2))) []))

/-- TFILL: its checks (R170). -/
def acceptTfill (i : TIn) (td : TReg) : Chk Unit := do
  let d ← i.t.dst td
  i.extChk [d.geo] [d.geo] [] (must d.geo.dense)
/-- TFILL (R170); of trit code 0b10 it writes 0 (R12, log 83). -/
def runTfill (i : TIn) (td : TReg) (sa : SReg) : Run :=
  i.live [] (fun i =>
    let d := i.rd td
    let v := (i.c.rs sa).toNat % 2 ^ ebits d.geo.etype
    .done (i.put td (d.write (i.ext.map (fun rc => (rc.1, rc.2, v))) []) i.t.env))

/-- The types that TIOTA accepts (R170). -/
def iotaType (e : BitVec 5) : Bool :=
  match e.toNat with
  | 1 | 2 | 3 | 6 | 7 | 8 => true
  | _ => false
/-- TIOTA: its checks (R170). -/
def acceptTiota (i : TIn) (td : TReg) : Chk Unit := do
  let d ← i.t.dst td
  i.extChk [d.geo] [d.geo] [] (must (d.geo.dense && iotaType d.geo.etype))
/-- TIOTA (R170). -/
def runTiota (i : TIn) (td : TReg) (sa sb : SReg) : Run :=
  i.live [] (fun i =>
    let d := i.rd td
    let v := fun (r c : Nat) => ((i.c.rs sa).toNat + r * (i.c.rs sb).toNat + c) % 2 ^ ebits d.geo.etype
    .done (i.put td (d.write (i.ext.map (fun rc => (rc.1, rc.2, v rc.1 rc.2))) []) i.t.env))

/-- The sources of TSLIDE. -/
def slideSrcs (fill : Option Src) (ta : Src) : List TReg :=
  match fill with
  | some x => [ta.t, x.t]
  | none => [ta.t]
/-- TSLIDE: its checks (R172). -/
def acceptTslide (i : TIn) (fill : Option Src) (td : TReg) (ta : Src) : Chk Unit := do
  let a ← i.t.src ta.t
  let b ← (match fill with
    | some x => i.t.src x.t
    | none => .ok a)
  let d ← i.t.dst td
  let same := fun (g : Geo) => g.dense && g.etype == d.geo.etype && g.rows == d.geo.rows && g.cols == d.geo.cols
  i.extChk [d.geo, a.geo, b.geo] [d.geo] (slideSrcs fill ta) (must (d.geo.dense && same a.geo && same b.geo))
/-- Where TSLIDE reads (r, c) from: its position moved by n, if it lies in the extent (R172). -/
def slideFrom (dir : BitVec 2) (n rows cols r c : Nat) : Option (Nat × Nat) :=
  match dir.toNat with
  | 0 => if n ≤ c then some (r, c - n) else none
  | 1 => if c + n < cols then some (r, c + n) else none
  | 2 => if n ≤ r then some (r - n, c) else none
  | _ => if r + n < rows then some (r + n, c) else none
/-- TSLIDE (R172). -/
def runTslide (i : TIn) (dir : BitVec 2) (fill : Option Src) (td : TReg) (ta : Src) (n : BitVec 6) : Run :=
  i.live (slideSrcs fill ta) (fun i =>
    let a := i.rd ta.t
    let v := fun (r c : Nat) =>
      match slideFrom dir n.toNat i.c.er i.c.ec r c with
      | some (r', c') => a.el r' c'
      | none => (match fill with
        | some x => (i.rd x.t).el r c
        | none => 0)
    .done (i.putMoved td a.geo.etype (i.ext.map (fun rc => (rc.1, rc.2, v rc.1 rc.2))) []))

/-! ### Bitmap-sparse tiles (R168) -/

/-- TPACK: its checks. -/
def acceptTpack (i : TIn) (td : TReg) (ta : Src) : Chk Unit := do
  let a ← i.t.src ta.t
  let d ← i.t.dst td
  i.extChk [d.geo, a.geo] [d.geo] [ta.t]
    (must (d.geo.packed && a.geo.dense && d.geo.etype == a.geo.etype && d.geo.rows == a.geo.rows &&
      d.geo.cols == a.geo.cols))
/-- TPACK (R168). -/
def runTpack (i : TIn) (td : TReg) (ta : Src) : Run :=
  i.live [ta.t] (fun i =>
    let d := i.rd td
    let a := i.rd ta.t
    let all := i.ext.map (fun rc => (rc.1, rc.2, a.el rc.1 rc.2))
    let els := all.filter (fun e => nonZero a.geo.etype e.2.2)
    match els[d.geo.nnz.toNat]? with
    | some (r, c, _) =>
      .fail i.s { FaultInfo.plain kFormat .team with
        tname := some td, coord := some (BitVec.ofNat 16 r, BitVec.ofNat 16 c) }
    | none => .done (i.put td (d.writePacked els) (i.moveEnv a.geo.etype all)))

/-- TUNPK: its checks (R168). -/
def acceptTunpk (i : TIn) (td : TReg) (ta : Src) : Chk Unit := do
  let a ← i.t.src ta.t
  let d ← i.t.dst td
  i.extChk [d.geo, a.geo] [d.geo] [ta.t]
    (must (a.geo.packed && d.geo.dense && d.geo.etype == a.geo.etype && d.geo.rows == a.geo.rows &&
      d.geo.cols == a.geo.cols))
/-- TUNPK (R168). -/
def runTunpk (i : TIn) (td : TReg) (ta : Src) : Run :=
  i.live [ta.t] (fun i =>
    let els := (i.rd ta.t).packedEls.filter (fun e => decide (e.1 < i.c.er) && decide (e.2.1 < i.c.ec))
    .done (i.putMoved td (i.rd ta.t).geo.etype els []))

/-! ### Conversion and quantisation (R173 to R175) -/

/-- Whether a destination type admits the NSAT and S bits of a conversion (R173). -/
def cvtBitsOk (e : BitVec 5) (nsat s : Bool) : Bool :=
  (!nsat || isFp8 e) && (!s || isInt e)

/-- TCVT: its checks (R173); a trit is no integer type of R11, so S is not admitted with it. -/
def acceptTcvt (i : TIn) (nsat s : Bool) (td : TReg) (ta : Src) : Chk Unit := do
  let a ← i.t.src ta.t
  let d ← i.t.dst td
  i.extChk [d.geo, a.geo] [d.geo] [ta.t]
    (must (d.geo.dense && a.geo.dense && d.geo.etype != 0x11 && cvtBitsOk d.geo.etype nsat s))
/-- TCVT (R173). -/
def runTcvt (i : TIn) (rm : Rm) (nsat s : Bool) (td : TReg) (ta : Src) : Run :=
  i.live [ta.t] (fun i =>
    let d := i.rd td
    let a := i.rd ta.t
    let (els, e) := runEls (fun r c env =>
      let (v, fl) := readElem (cls a.geo.etype) (a.el r c)
      convElem (cls d.geo.etype) (resolveRm rm i.c.drm) nsat s v (env.flag fl)) i.ext i.t.env
    .done (i.put td (d.write els []) e))

/-- floor(log2 |x|) of a finite non-zero value. -/
def floorLog2 (m : Nat) (e : Int) : Int := e + (Nat.log2 m : Int)

/-- emax of TQNT and TSCL (R174, R202). -/
def mxEmax (e : BitVec 5) : Int := if e = 0x0C then 8 else if e = 0x0D then 15 else 2

/-- The scale code of a largest magnitude (R174, R202). -/
def scaleCode (emax : Int) (x : FV) : Nat :=
  match x with
  | .fin _ m e => if m = 0 then 0x7F else ((clampInt 0 254 (floorLog2 m e - emax + 127)).1).toNat
  | _ => 0xFF

/-- The larger of two magnitudes, neither a NaN. -/
def magMax (a b : FV) : FV := if fvCmp (fvAbs a) (fvAbs b) < 0 then fvAbs b else fvAbs a

/-- x * 2^n. -/
def fvScale (x : FV) (n : Int) : FV :=
  match x with
  | .fin s m e => .fin s m (e + n)
  | y => y

/-- One segment of TQNT: its elements and scale (R174). -/
def tqntSeg (f : Fmt) (emax : Int) (mode : Rm) (nsat : Bool) (xs : List FV) (env : Env) : List Nat × Nat × Env :=
  if xs.any (fun x => x.isNan || x.isInf) then
    -- every element takes its draw (R25)
    let env := xs.foldl (fun e _ => (e.draw mode).2) env
    (xs.map (fun _ => 0), 0xFF, env.flag flNV)
  else
    let code := scaleCode emax (xs.foldl magMax (.fin false 0 0))
    let (ys, env) := xs.foldl (fun (acc : List Nat × Env) x =>
      let (y, e) := rnd f nsat mode (fvScale x (127 - (code : Int))) false acc.2
      (acc.1 ++ [y], e)) ([], env)
    (ys, code, env)

/-- The segments of the extent of TQNT, row by row. -/
def tqntGo (f : Fmt) (emax : Int) (mode : Rm) (nsat : Bool) (src : Nat → Nat → FV) (ec : Nat) :
    List (Nat × Nat) → Env → List (Nat × Nat × Nat) × List (Nat × Nat × Byte) × Env
  | [], env => ([], [], env)
  | (r, k) :: rest, env =>
    let cols := (List.range (min 32 (ec - 32 * k))).map (fun j => 32 * k + j)
    let (ys, code, env) := tqntSeg f emax mode nsat (cols.map (src r)) env
    let (els, scs, env) := tqntGo f emax mode nsat src ec rest env
    ((cols.zip ys).map (fun p => (r, p.1, p.2)) ++ els, (r, k, BitVec.ofNat 8 code) :: scs, env)

/-- TQNT: its checks (R174). FP4 saturates whatever NSAT says (R28). -/
def acceptTqnt (i : TIn) (_nsat : Bool) (td : TReg) (ta : Src) : Chk Unit := do
  let a ← i.t.src ta.t
  let d ← i.t.dst td
  i.extChk [d.geo, a.geo] [d.geo] [ta.t]
    (must (d.geo.mx && a.geo.dense && (a.geo.etype == 0x0E || a.geo.etype == 0x0F || a.geo.etype == 0x10) &&
      d.geo.rows == a.geo.rows && d.geo.cols == a.geo.cols))
/-- TQNT (R174). -/
def runTqnt (i : TIn) (rm : Rm) (nsat : Bool) (td : TReg) (ta : Src) : Run :=
  i.live [ta.t] (fun i =>
    let d := i.rd td
    let a := i.rd ta.t
    match cls d.geo.etype, cls a.geo.etype with
    | .flt f, .flt g =>
      let (els, scs, e) := tqntGo f (mxEmax d.geo.etype) (resolveRm rm i.c.drm) nsat (fun r c => g.dec (a.el r c)) i.c.ec
        (coords i.c.er ((i.c.ec + 31) / 32)) i.t.env
      .done (i.put td (d.write els scs) e)
    | _, _ => .done i.s)

/-- scale * element (R17): a scale of 0xFF gives a NaN. -/
def scaled (f : Fmt) (sc : Byte) (x : Nat) : FV :=
  if sc = 0xFF then .nan false else fvScale (f.dec x) ((sc.toNat : Int) - 127)

/-- TDQT: its checks (R175). -/
def acceptTdqt (i : TIn) (scale : Option EReg) (td : TReg) (ta : Src) : Chk Unit := do
  let a ← i.t.src ta.t
  let d ← i.t.dst td
  let srcOk := match scale with
    | none => a.geo.mx
    | some e => a.geo.dense && isMxType a.geo.etype && decide (i.c.ec ≤ 32 * 2 ^ (i.t.scale.get e.toFin).gc.toNat)
  i.extChk [d.geo, a.geo] [d.geo] [ta.t]
    (must (d.geo.dense && (d.geo.etype == 0x0E || d.geo.etype == 0x0F || d.geo.etype == 0x10) && srcOk))
/-- TDQT (R175). -/
def runTdqt (i : TIn) (rm : Rm) (scale : Option EReg) (td : TReg) (ta : Src) : Run :=
  i.live [ta.t] (fun i =>
    let d := i.rd td
    let a := i.rd ta.t
    match cls d.geo.etype, cls a.geo.etype with
    | .flt f, .flt g =>
      let sc := fun (r c : Nat) => match scale with
        | none => a.sc r (c / 32)
        | some e => kget 0x7F (i.t.scale.get e.toFin).bytes r
      let (els, e) := runEls (fun r c env =>
        rnd f false (resolveRm rm i.c.drm) (scaled g (sc r c) (a.el r c)) false
          (env.flag (flIf (sc r c != 0xFF && (g.dec (a.el r c)).isSig) flNV))) i.ext i.t.env
      .done (i.put td (d.write els []) e)
    | _, _ => .done i.s)

/-! ### Binding (R155, R164, R165) -/

/-- TDECL: its checks (R144). -/
def acceptTdecl (i : TIn) (td : TReg) (h : Handle) : Chk Unit :=
  match (i.s.recFor i.t i.recs h).geo? h i.t.part with
  | some _ => .ok ()
  | none => shapeFault kShape .team h (some td)
/-- Unbinds a stream's register when its tile name goes (log 16). -/
def Team.freeStream (t : Team) (n : TReg) : Team :=
  match t.tile n with
  | some x => (match x.strm with
    | some q => { t with q := t.q.set q.toFin none }
    | none => t)
  | none => t
/-- TDECL (R144, R155). -/
def runTdecl (i : TIn) (td : TReg) (h : Handle) : Run :=
  match (i.s.recFor i.t i.recs h).geo? h i.t.part with
  | some g => .done (i.s.putTeam ((i.t.freeStream td).putTile td (some (Tile.blank h g))))
  | none => .done i.s
/-- TREL: no check (R155). -/
def acceptTrel : Chk Unit := .ok ()
/-- TREL (R155). -/
def runTrel (i : TIn) (td : TReg) : Run := .done (i.s.putTeam ((i.t.freeStream td).putTile td none))

/-- Pushes a branch-queue entry (R113). -/
def Team.push (t : Team) (v : Word) : Team := { t with bq := t.bq ++ [v] }

/-- TEXT: its checks (R155). -/
def acceptText (i : TIn) (ta : Src) : Chk Unit := do
  let _ ← i.t.src ta.t
  .ok ()
/-- TEXT (R155). -/
def runText (i : TIn) (ta : Src) : Run :=
  let a := (i.t.tile ta.t).getD (Tile.blank 0 ⟨0, 0, 0, 0, 0⟩)
  let n := if a.geo.packed then a.count else 0
  .done (i.s.putTeam (i.t.push (BitVec.ofNat 64 (n * 2 ^ 32 + a.geo.rows * 2 ^ 16 + a.geo.cols))))

/-- QBIND: its checks (order 1 of Table 5.3, R164). A tile that another stream register binds is refused (log 98). -/
def acceptQbind (i : TIn) (q : QReg) (n : TReg) : Chk Unit := do
  let _ ← i.t.dst n
  must (i.t.q.get q.toFin).isNone
/-- QBIND (R164). -/
def runQbind (i : TIn) (q : QReg) (n : TReg) : Run :=
  match i.t.tile n with
  | some x => .done (i.s.putTeam
      { i.t.putTile n (some { x with strm := some q, written := false, data := [], scales := [] }) with
        q := i.t.q.set q.toFin (some ⟨n, [], 0, []⟩) })
  | none => .done i.s

/-- QREL: its checks. -/
def acceptQrel (i : TIn) (q : QReg) : Chk Unit := must (i.t.q.get q.toFin).isSome
/-- QREL (R165). -/
def runQrel (i : TIn) (q : QReg) : Run :=
  match i.t.q.get q.toFin with
  | some st => .done (i.s.putTeam { i.t.putTile st.tile none with q := i.t.q.set q.toFin none })
  | none => .done i.s

end Sys2Proof.Machine
end

