-- ==== Sys2Proof/Machine/TileLane.lean ====
section
/-!
DEFINITION. MAP, REDUCE, SCAN and TRDS (R178 to R180): the lane-function table (R80, R81), the checks of Table 3.8, the
element and combine parts (R86 to R89).
-/

namespace Sys2Proof.Machine

/-! ### Types and lane forms (Table 3.3) -/

/-- Whether a type has a lane form. -/
def hasLane (e : BitVec 5) : Bool := (eclass e).isSome && e != 0x04 && e != 0x09

/-- Whether a type is one of 16 bits. -/
def is16 (e : BitVec 5) : Bool := e == 0x02 || e == 0x07 || e == 0x0E || e == 0x0F

/-- The lane type of a type's lane form. -/
def laneTy (e : BitVec 5) : Nat :=
  match cls e with
  | .int _ sg => if sg then 0 else 1
  | .trit => 0
  | _ => 2

/-- An element in its lane form, with the flags of its delivery. -/
def laneForm (e : BitVec 5) (x : Nat) : BitVec 32 × Flags :=
  match cls e with
  | .int b sg => (BitVec.ofInt 32 (intOf b sg x), 0)
  | .trit => let (v, f) := tritVal x; (BitVec.ofInt 32 v, f)
  | .flt f =>
    if f = fp32 then (BitVec.ofNat 32 x, 0)
    else
      let (c, fl) := roundV fp32 false 0 0 (f.dec x) false
      (BitVec.ofNat 32 c, fl)
  | .e8m0 => let (c, fl) := roundV fp32 false 0 0 (e8m0Val x) false; (BitVec.ofNat 32 c, fl)

/-- A lane value of a type as an exact value; `h` is the half of a packed type. -/
def laneVal (ty : Nat) (h : Nat) (x : BitVec 32) : EVal :=
  if tyPacked ty then
    if tyFloat ty then .flt ((tyFmt ty).dec (half h x)) else .int (intOf 16 (tySigned ty) (half h x))
  else if tyFloat ty then .flt (fp32.dec x.toNat)
  else .int (intOf 32 (tySigned ty) x.toNat)

/-! ### The table and the words (R80, R81, Table 3.8) -/

/-- A lane function as read: packed mode and words. -/
structure LFn where
  pk : Bool
  words : List LWord
deriving DecidableEq, Repr

/-- A fault of a lane function at a position. -/
def laneFault {α : Type} (fn : BitVec 8) (pos : Nat) : Chk α :=
  .error (.fault { FaultInfo.plain kIllInstr .team with lane := some (fn, BitVec.ofNat 7 pos) })

/-- Reads bytes of the lane-function table or of lane words on the team path. -/
def laneRead (s : State) (t : Team) (fn : BitVec 8) (a n : Nat) : Chk (List Byte × State) :=
  mapFault (fun f => { f with lane := some (fn, 64) }) (do
    let ks ← s.vaKeys t .read .team a n
    s.eccChk .team a ks
    .ok (s.load t .team ks))

/-- Splits bytes into 32-bit words. -/
def toWords32 : Nat → List Byte → List (BitVec 32)
  | 0, _ => []
  | n + 1, bs => BitVec.ofNat 32 (bytesToNat (bs.take 4)) :: toWords32 n (bs.drop 4)

/-- Reads a lane function at acceptance (R81) and checks it by Table 3.8: `nops` operands, `red` for REDUCE, SCAN and
TRDS, `types` every source and destination type. -/
def laneFetch (i : TIn) (fn : BitVec 8) (nops : Nat) (red : Bool) (types : List (BitVec 5)) :
    Chk ((Bool × List (BitVec 32)) × State) := do
  let (eb, s) ← laneRead i.s i.t fn (i.t.lft.toNat + 8 * fn.toNat) 8
  let e := BitVec.ofNat 64 (bytesToNat eb)
  if !e.getLsbD 63 || e.extractLsb' 52 4 != 0 || e.extractLsb' 0 2 != 0 then laneFault fn 64
  else do
    let pk := e.getLsbD 56
    if pk && (red || !types.all is16) then laneFault fn 64
    else do
      let n := (e.extractLsb' 57 6).toNat + 1
      let (wb, s) ← laneRead s i.t fn (e.extractLsb' 0 52).toNat (4 * n)
      let ws := toWords32 n wb
      match laneCheck ⟨nops, red, pk⟩ (ws.map lword) with
      | some p => laneFault fn p
      | none => .ok ((pk, ws), s)

/-- The lane function that an accepted instruction runs: the words read at acceptance (R81). -/
def TIn.lfn (i : TIn) : LFn :=
  match i.code with
  | some (pk, ws) => ⟨pk, ws.map lword⟩
  | none => ⟨false, []⟩

/-! ### Element invocations -/

/-- The shared environment of an instruction's lane words. -/
def TIn.laneEnv (i : TIn) : LaneEnv := ⟨i.c.drm, i.c.ec⟩

/-- One row of invocations with PK = 0, from its operands to its state after `ws`. -/
def laneRow (i : TIn) (ws : List LWord) (ops : List (BitVec 5 × (Nat → Nat → Nat))) (a0 a1 : Word) (r : Nat) (env : Env) :
    List LInv × Env :=
  laneRun i.laneEnv ws 0 ((List.range i.c.ec).map (fun c =>
    LInv.start a0 a1 (ops.map (fun o => laneForm o.1 (o.2 r c))) r c true)) env

/-- One row of invocations with PK = 1 (R83): raw pairs; a half outside the extent reads zero. -/
def laneRowPk (i : TIn) (ws : List LWord) (ops : List (BitVec 5 × (Nat → Nat → Nat))) (a0 a1 : Word) (r : Nat)
    (env : Env) : List LInv × Env :=
  let ec := i.c.ec
  let starts := (List.range ((ec + 1) / 2)).map (fun j =>
    let hi := decide (2 * j + 1 < ec)
    let as := ops.map (fun o =>
      (BitVec.ofNat 32 ((if hi then o.2 r (2 * j + 1) % 65536 else 0) * 65536 + o.2 r (2 * j) % 65536), (0 : Flags)))
    LInv.start a0 a1 as r (2 * j) hi)
  laneRun i.laneEnv ws 0 starts env

/-- Converts a row of results to the destination (R87), in column order. A conversion between equal formats is made like any
other, which R87 does not say of f32 results in FP32: a NaN becomes the canonical one, a signalling one sets NV, and under SR a
draw is taken; the model's choice (log 113). -/
def laneConv (k : EClass) (mode : Rm) (nsat s : Bool) : List (Nat × Nat × EVal) → Env → List (Nat × Nat × Nat) × Env
  | [], e => ([], e)
  | (r, c, v) :: rest, e =>
    let (x, e) := convElem k mode nsat s v e
    let (xs, e) := laneConv k mode nsat s rest e
    ((r, c, x) :: xs, e)

/-- Row by row, in increasing order. -/
def byRows {α : Type} (f : Nat → Env → List α × Env) : List Nat → Env → List α × Env
  | [], e => ([], e)
  | r :: rs, e =>
    let (xs, e) := f r e
    let (ys, e) := byRows f rs e
    (xs ++ ys, e)

/-! ### MAP (R178) -/

/-- The tile operands of MAP: names of the first `cnt` of ta, tb and the old td. -/
def mapSrcs (cnt : BitVec 2) (td : TReg) (ta tb : Src) : List TReg := [ta.t, tb.t, td].take cnt.toNat

/-- The types of some names. -/
def TIn.types (i : TIn) (ns : List TReg) : List (BitVec 5) := ns.map (fun n => (i.rd n).geo.etype)

/-- The lane function of MAP, read at acceptance. -/
def codeMap (i : TIn) (cnt : BitVec 2) (td : TReg) (ta tb : Src) (fn : BitVec 8) :
    Chk ((Bool × List (BitVec 32)) × State) :=
  laneFetch i fn cnt.toNat false ((i.rd td).geo.etype :: i.types (mapSrcs cnt td ta tb))

/-- MAP: its checks. -/
def acceptMap (i : TIn) (cv : Conv) (cnt : BitVec 2) (td : TReg) (ta tb : Src) (fn : BitVec 8) : Chk Unit := do
  let srcs := mapSrcs cnt td ta tb
  let xs ← srcs.mapM i.t.src
  let d ← i.t.dst td
  i.extChk (d.geo :: xs.map (·.geo)) [d.geo] srcs
    (must (d.geo.dense && hasLane d.geo.etype && d.geo.etype != 0x11 && cvtBitsOk d.geo.etype cv.nsat cv.s &&
      xs.all (fun x => x.geo.dense && hasLane x.geo.etype)))
  if i.c.live then do
    let _ ← codeMap i cnt td ta tb fn
    .ok ()
  else .ok ()

/-- MAP (R178). The draws of converting a row's results to td's type come after the row's last lane word; R25 and R89
leave their place open (log 85). -/
def runMap (i : TIn) (cv : Conv) (cnt : BitVec 2) (td : TReg) (ta tb : Src) (sa sb : SReg) (_fn : BitVec 8) : Run :=
  let srcs := mapSrcs cnt td ta tb
  i.live srcs (fun i =>
    let d := i.rd td
    let lf := i.lfn
    let ops := srcs.map (fun n => let x := i.rd n; (x.geo.etype, x.el))
    let (rv, ty) := laneRet lf.words
    let a0 := i.c.rs sa
    let a1 := i.c.rs sb
    let mode := resolveRm cv.rm i.c.drm
    let k := cls d.geo.etype
    let (els, e) := byRows (fun r env =>
      if lf.pk then
        let (invs, env) := laneRowPk i lf.words ops a0 a1 r env
        laneConv k mode cv.nsat cv.s (invs.zipIdx.flatMap (fun xj =>
          let v := xj.1.reg rv
          (r, 2 * xj.2, laneVal ty 0 v) :: (if xj.1.hi then [(r, 2 * xj.2 + 1, laneVal ty 1 v)] else []))) env
      else
        let (invs, env) := laneRow i lf.words ops a0 a1 r env
        laneConv k mode cv.nsat cv.s (invs.zipIdx.map (fun xc => (r, xc.2, laneVal ty 0 (xc.1.reg rv)))) env)
      (List.range i.c.er) i.t.env
    .done (i.put td (d.write els []) e))

/-! ### REDUCE, SCAN and TRDS (R179, R180) -/

/-- The source names. -/
def redSrcs (two : Bool) (ta tb : Src) : List TReg := if two then [ta.t, tb.t] else [ta.t]

/-- The lane function of REDUCE, SCAN and TRDS, read at acceptance; `dt` is the destination's type, if any. -/
def codeRed (i : TIn) (two : Bool) (ta tb : Src) (f : BitVec 8) (dt : List (BitVec 5)) :
    Chk ((Bool × List (BitVec 32)) × State) :=
  laneFetch i f (redSrcs two ta tb).length true (dt ++ i.types (redSrcs two ta tb))

/-- The checks of the sources and the step, order 3 and order 6; `d?` is the destination. -/
def acceptRed (i : TIn) (two : Bool) (ta tb : Src) (fn : StepFn) (d? : Option Tile) (nsat s : Bool) : Chk Unit := do
  let srcs := redSrcs two ta tb
  let xs ← srcs.mapM i.t.src
  let ds := d?.toList.map (·.geo)
  i.extChk (ds ++ xs.map (·.geo)) ds srcs
    (must (xs.all (fun x => x.geo.dense && hasLane x.geo.etype) &&
      ds.all (fun g => g.dense && hasLane g.etype && g.etype != 0x11 && cvtBitsOk g.etype nsat s)))
  match fn with
  | .builtin _ => .ok ()
  | .fn f =>
    if i.c.live then do
      let _ ← codeRed i two ta tb f (ds.map (·.etype))
      .ok ()
    else .ok ()

/-- A built-in step on lane values of a type (R179). -/
def builtinStep (code : Nat) (ty : Nat) (mode : Rm) (a b : BitVec 32) (env : Env) : BitVec 32 × Env :=
  perLane ty true a b 0 env (fun w a b _ e =>
    match code with
    | 0 => laneArith 0 ty mode w a b 0 e
    | 1 => laneMinMax true ty w a b e
    | _ => laneMinMax false ty w a b e)

/-- The combine part of a function as a step (R88). With VD and VB of the VRED the same register, which R88 leaves open,
the right operand is the one that it holds (log 85). -/
def combineStep (le : LaneEnv) (ws : List LWord) (p : Nat) (vred : LWord) (a0 a1 : Word) (rv : BitVec 5)
    (a b : BitVec 32) (env : Env) : BitVec 32 × Env :=
  let x := LInv.start a0 a1 [] 0 0 true
  let x := { x with v := (x.v.set vred.vd.toFin a).set vred.vb.toFin b }
  let (xs, env) := laneRun le (ws.drop (p + 1)) (p + 1) [x] env
  ((match xs with
    | y :: _ => y.reg rv
    | [] => 0), env)

/-- The element values of an instruction and its step: the values row by row, the lane type of results, the step. -/
def redSetup (i : TIn) (two : Bool) (rm : Rm) (ta tb : Src) (sa sb : SReg) (fn : StepFn) :
    List (List (BitVec 32)) × Nat × (BitVec 32 → BitVec 32 → Env → BitVec 32 × Env) × Env :=
  let srcs := redSrcs two ta tb
  let a := i.rd ta.t
  let rows := List.range i.c.er
  match fn with
  | .builtin c =>
    let ty := laneTy a.geo.etype
    let vals := rows.map (fun r => (List.range i.c.ec).map (fun c => laneForm a.geo.etype (a.el r c)))
    let fl := vals.foldl (fun f l => l.foldl (fun f x => f ||| x.2) f) 0
    (vals.map (fun l => l.map (·.1)), ty, builtinStep c.toNat ty (resolveRm rm i.c.drm), i.t.env.flag fl)
  | .fn _ =>
    let lf := i.lfn
    let ops := srcs.map (fun n => let x := i.rd n; (x.geo.etype, x.el))
    let (rv, ty) := laneRet lf.words
    let p := (vredPos lf.words).getD 0
    let vred := lf.words.getD p ⟨0, 0, 0, 0, 0, 0⟩
    let a0 := i.c.rs sa
    let a1 := i.c.rs sb
    let (vals, e) := byRows (fun r env =>
      let (invs, env) := laneRow i (lf.words.take p) ops a0 a1 r env
      ([invs.map (fun x => x.reg vred.va)], env)) rows i.t.env
    (vals, ty, combineStep i.laneEnv lf.words p vred a0 a1 rv, e)

/-- The lines: rows, or with `col` columns. -/
def redLines (col : Bool) (ec : Nat) (vals : List (List (BitVec 32))) : List (List (BitVec 32)) :=
  if col then (List.range ec).map (fun c => vals.map (fun l => l.getD c 0)) else vals

/-- REDUCE: its checks. -/
def acceptReduce (i : TIn) (two : Bool) (cv : Conv) (td : TReg) (ta tb : Src) (fn : StepFn) : Chk Unit := do
  let _ ← (redSrcs two ta tb).mapM i.t.src
  let d ← i.t.dst td
  acceptRed i two ta tb fn (some d) cv.nsat cv.s
/-- REDUCE (R179): line n's result goes to (n, 0), or with .col to (0, n). The draw of its conversion comes at the end of
its line, before the next line is combined; R25 and R89 leave its place open (log 85). -/
def runReduce (i : TIn) (col two : Bool) (cv : Conv) (td : TReg) (ta tb : Src) (sa sb : SReg) (fn : StepFn) : Run :=
  i.live (redSrcs two ta tb) (fun i =>
    let d := i.rd td
    let (vals, ty, step, e) := redSetup i two cv.rm ta tb sa sb fn
    let lines := redLines col i.c.ec vals
    let (els, e) := byRows (fun n env =>
      let (r, env) := reduceLine step (lines.getD n []) env
      laneConv (cls d.geo.etype) (resolveRm cv.rm i.c.drm) cv.nsat cv.s
        [(if col then 0 else n, if col then n else 0, laneVal ty 0 (r.getD 0))] env)
      (List.range lines.length) e
    .done (i.put td (d.write els []) e))

/-- SCAN: its checks. -/
def acceptScan (i : TIn) (two : Bool) (cv : Conv) (td : TReg) (ta tb : Src) (fn : StepFn) : Chk Unit := do
  let _ ← (redSrcs two ta tb).mapM i.t.src
  let d ← i.t.dst td
  acceptRed i two ta tb fn (some d) cv.nsat cv.s
/-- SCAN (R179). The draws of converting a line's results come at the end of the line (log 85). -/
def runScan (i : TIn) (col two : Bool) (cv : Conv) (td : TReg) (ta tb : Src) (sa sb : SReg) (fn : StepFn) : Run :=
  i.live (redSrcs two ta tb) (fun i =>
    let d := i.rd td
    let (vals, ty, step, e) := redSetup i two cv.rm ta tb sa sb fn
    let lines := redLines col i.c.ec vals
    let (els, e) := byRows (fun n env =>
      let (ys, env) := scanLine step (lines.getD n []) env
      laneConv (cls d.geo.etype) (resolveRm cv.rm i.c.drm) cv.nsat cv.s (ys.zipIdx.map (fun yj =>
        (if col then yj.2 else n, if col then n else yj.2, laneVal ty 0 (yj.1.getD 0)))) env)
      (List.range lines.length) e
    .done (i.put td (d.write els []) e))

/-- TRDS: its checks (R180). -/
def acceptTrds (i : TIn) (two : Bool) (ta tb : Src) (fn : StepFn) : Chk Unit :=
  acceptRed i two ta tb fn none false false
/-- The value that TRDS pushes: a float's bits or an unsigned result zero-extended, else sign-extended (R180). -/
def trdsWord (ty : Nat) (unsigned : Bool) (x : BitVec 32) : Word :=
  if tyFloat ty || unsigned then x.zeroExtend 64 else x.signExtend 64
/-- TRDS (R180). -/
def runTrds (i : TIn) (two : Bool) (rm : Rm) (ta tb : Src) (sa sb : SReg) (fn : StepFn) : Run :=
  if !i.c.live then .done (i.s.putTeam (i.t.push 0))
  else i.live (redSrcs two ta tb) (fun i =>
    let (vals, ty, step, e) := redSetup i two rm ta tb sa sb fn
    let (rs, e) := byRows (fun n env =>
      let (r, env) := reduceLine step (vals.getD n []) env
      ([r.getD 0], env)) (List.range vals.length) e
    let (x, e) := reduceLine step rs e
    .done (i.s.putTeam ((i.t.applyEnv e).push (trdsWord ty (laneTy (i.rd ta.t).geo.etype == 1) (x.getD 0)))))

end Sys2Proof.Machine
end

