-- ==== Sys2Proof/Machine/TileMem.lean ====
section
/-!
DEFINITION. Tile loads and stores, gathers, scatters, copies and streams (05_core_tiles.md, R156 to R167). The element
checks of order 7 are lists of checks in row-major order, so that run-ahead can probe each of them (R223).
-/

namespace Sys2Proof.Machine

/-! ### Checks of the record -/

/-- The record of an instruction. -/
def TIn.rcd (i : TIn) (h : Handle) : Shape := i.s.recFor i.t i.recs h

/-- An origin operand: row0, col0 (R154). -/
def originOf (w : Word) : Nat × Nat := ((w.extractLsb' 0 32).toNat, (w.extractLsb' 32 32).toNat)

/-- Order 5 for tile memory instructions: Table 2.16 orders 1 to 3, NDIM, ETYPE and LAYOUT; `sp` tells whether the
record's space is permitted, `sparseOk` admits a bitmap-sparse record with a dense tile (R167). -/
def recChkIn (i : TIn) (h : Handle) (r : Right) (sp : Bool) (path : Path) (tn : TReg) (g : Geo) (sparseOk : Bool) :
    Chk Unit := do
  let d := i.rcd h
  useSpace d h r sp path (some tn)
  if decide (d.ndim ≤ 2) && d.etype == g.etype && (d.layout == g.layout || (sparseOk && d.layout == 3 && g.dense)) then
    .ok ()
  else shapeFault kShape path h (some tn)

/-- Order 5 where scratchpad, cluster and window are permitted. -/
def recChk (i : TIn) (h : Handle) (r : Right) (path : Path) (tn : TReg) (g : Geo) (sparseOk : Bool) : Chk Unit :=
  recChkIn i h r ((i.rcd h).space != 3) path tn g sparseOk

/-- Marks a fault as one of an element. -/
def atEl {α : Type} (tn : Option TReg) (h : Handle) (r c : Nat) (x : Chk α) : Chk α :=
  mapFault (fun f => { f with tname := tn, handle := h,
                              coord := some (BitVec.ofNat 16 r, BitVec.ofNat 16 c) }) x

/-- Order 7 for one element and, where it opens a segment of an MX record, for the segment's scale (Table 2.16). -/
def elChk (s : State) (t : Team) (d : Shape) (acc : Access) (path : Path) (idx : List Nat) (first : Bool) :
    Chk (Site × List Nat) := do
  let x ← s.site t d acc path idx
  if d.layout = 2 && first then do
    let a := d.scaleAddr idx
    if decide (a < d.base) || decide (d.bound ≤ a) then failK kBounds path
    else do
      let ks ← s.scaleSite t d acc path idx
      .ok (x, ks)
  else .ok (x, [])

/-- The bytes of the padding that a store of the last element of an MX row writes with its segment (R17), as far as they
lie in [BASE, BOUND) (log 18). -/
def padSite (s : State) (t : Team) (d : Shape) (acc : Access) (path : Path) (idx : List Nat) : Chk (List Nat) :=
  let i0 := idx.headD 0
  if d.layout = 2 ∧ acc = .write ∧ i0 + 1 = d.sz 0 then do
    let row := d.elemAddr (0 :: idx.drop 1)
    let eb := ebits d.etype
    let lo := (d.sz 0 * eb + 7) / 8
    let hi := d.segs * 32 * eb / 8
    let ks ← ((keysFrom (row + lo) (hi - lo)).filter (fun a => decide (a < d.bound))).mapM
      (fun a => s.recKeys t d acc path a 1)
    .ok ks.flatten
  else .ok []

/-- A checked element: its coordinate, its site, its segment's scale byte (and the address of that byte) if it opens a
segment, and the padding that goes with it. -/
structure ElSite where
  r : Nat
  c : Nat
  site : Site
  scale : List Nat
  scaleVa : Nat
  pad : List Nat
deriving DecidableEq, Repr

/-- Order 7 over some elements; `idx` gives the record's indices of (r, c). -/
def elChks (i : TIn) (d : Shape) (h : Handle) (acc : Access) (path : Path) (tn : Option TReg)
    (els : List (Nat × Nat)) (idx : Nat → Nat → List Nat) : List (Chk ElSite) :=
  els.map (fun rc => atEl tn h rc.1 rc.2 (do
    let (x, ks) ← elChk i.s i.t d acc path (idx rc.1 rc.2) (rc.2 % 32 == 0)
    let pad ← padSite i.s i.t d acc path (idx rc.1 rc.2)
    .ok ⟨rc.1, rc.2, x, ks, d.scaleAddr (idx rc.1 rc.2), pad⟩))

/-- All of a list of checks. -/
def allChk {α : Type} : List (Chk α) → Chk (List α)
  | [] => .ok []
  | x :: xs => do
    let y ← x
    let ys ← allChk xs
    .ok (y :: ys)

/-- The uncorrectable errors of an element to read and of its segment's scale, with the address of the data (R222). -/
def ElSite.ecc (s : State) (d : Shape) (path : Path) (e : ElSite) : Chk Unit := do
  s.recEcc d path e.site.va e.site.keys
  s.recEcc d path e.scaleVa e.scale

/-- Adds the uncorrectable error of an element to read to its check, last (Table 5.3, order 7). -/
def withEcc (i : TIn) (path : Path) (h : Handle) (tn : Option TReg) (x : Chk ElSite) : Chk ElSite := do
  let e ← x
  atEl tn h e.r e.c (e.ecc i.s (i.rcd h) path)
  .ok e

/-- Uncorrectable errors of the elements to read, in order. -/
def eccEls (i : TIn) (path : Path) (h : Handle) (tn : Option TReg) : List ElSite → Chk Unit
  | [] => .ok ()
  | e :: es => do
    atEl tn h e.r e.c (e.ecc i.s (i.rcd h) path)
    eccEls i path h tn es

/-! ### Reading and writing elements -/

/-- Reads dense elements, each as one access. -/
def readEls (path : Path) (uid : Nat) : List ElSite → State → List (Nat × Nat × Nat) × State
  | [], s => ([], s)
  | e :: es, s =>
    match s.team? uid with
    | none => ([], s)
    | some t =>
      let (v, s) := s.readSite t path e.site
      let (vs, s) := readEls path uid es s
      ((e.r, e.c, v) :: vs, s)

/-- Splits elements into segments: each opens at an element with a scale. -/
def segments : List ElSite → List (List ElSite)
  | [] => []
  | e :: es =>
    match segments es with
    | [] => [[e]]
    | g :: gs =>
      match g.head? with
      | some x => if x.scale.isEmpty then (e :: g) :: gs else [e] :: g :: gs
      | none => [e] :: gs

/-- Reads MX segments, each with its scale as one access (R216). -/
def readSegs (path : Path) (uid : Nat) : List (List ElSite) → State →
    List (Nat × Nat × Nat) × List (Nat × Nat × Byte) × State
  | [], s => ([], [], s)
  | g :: gs, s =>
    match s.team? uid with
    | none => ([], [], s)
    | some t =>
      let keys := g.flatMap (fun e => e.site.keys) ++ (g.flatMap (fun e => e.scale))
      let (bs, s) := s.load t path keys
      let at_ := fun (k : Nat) => kget 0 (keys.zip bs) k
      let els := g.map (fun e => (e.r, e.c, e.site.get (e.site.keys.map at_)))
      let scs := g.flatMap (fun e => e.scale.map (fun k => (e.r, e.c / 32, at_ k)))
      let (els', scs', s) := readSegs path uid gs s
      (els ++ els', scs ++ scs', s)

/-- Writes dense elements in order, each as one write. -/
def writeEls (path : Path) (uid : Nat) : List (Site × Nat) → State → State
  | [], s => s
  | (x, v) :: es, s => writeEls path uid es (s.writeSite uid path x v)

/-- The bytes of a segment write: elements merged into their bytes, then the scale and the padding, which is zero. -/
def segCells (old : Nat → Byte) (els : List (Site × Nat)) (scale : List Host.Cell) : List Host.Cell :=
  let m := els.foldl (fun (m : List Host.Cell) xv =>
    (xv.1.cells (xv.1.keys.map (fun k => (kfind m k).getD (old k))) xv.2).foldl (fun m c => kput m c.1 c.2) m) []
  scale.foldl (fun m c => kput m c.1 c.2) m

/-- Writes MX segments, each as one write (R157, R216). -/
def writeSegs (path : Path) (uid : Nat) : List (List (Site × Nat) × List Host.Cell) → State → State
  | [], s => s
  | (els, sc) :: gs, s =>
    match s.team? uid with
    | none => s
    | some t =>
      writeSegs path uid gs (s.store uid path (segCells (fun k => (s.viewBytes t path [k]).headD 0) els sc))

/-! ### Bitmap-sparse records (R166, R167) -/

/-- Bytes of the bitmap of a sparse record's row. -/
def Shape.mapRow (d : Shape) : Nat := (d.sz 0 + 7) / 8
/-- Rows of a sparse record. -/
def Shape.sparseRows (d : Shape) : Nat := if d.ndim ≤ 1 then 1 else d.sz 1

/-- Reads bytes of a record one by one. -/
def readBytes (path : Path) (uid : Nat) : List Nat → State → List Byte × State
  | [], s => ([], s)
  | k :: ks, s =>
    match s.team? uid with
    | none => ([], s)
    | some t =>
      let (bs, s) := s.load t path [k]
      let (rest, s) := readBytes path uid ks s
      (bs ++ rest, s)

/-- The coordinates of a bitmap's set bits, row-major. -/
def setBits (rows cols mapRow : Nat) (bm : List Byte) : List (Nat × Nat) :=
  (coords rows cols).filter (fun rc => (bm.getD (rc.1 * mapRow + rc.2 / 8) 0).getLsbD (rc.2 % 8))

/-- The keys of byte `b` of a bitmap-sparse record (Table 5.3, order 7). -/
def TIn.sparseByte (i : TIn) (d : Shape) (acc : Access) (path : Path) (b : Nat) : Chk (List Nat) :=
  if decide (d.bound ≤ d.base + b) then failK kBounds path
  else do
    let ks ← i.s.recKeys i.t d acc path (d.base + b) 1
    if acc = .read then i.s.recEcc d path (d.base + b) ks else .ok ()
    .ok ks

/-- The coordinate of byte `b` of a bitmap-sparse block whose set bits are `set`. -/
def sparseCoord (nb mapRow eb : Nat) (set : List (Nat × Nat)) (b : Nat) : Nat × Nat :=
  if b < nb then (b / mapRow, b % mapRow * 8) else set.getD ((b - nb) * 8 / eb) (0, 0)

/-- Whether TLDFF truncates at a fault of this kind (R158): bounds, window and translation. -/
def truncates (f : FaultInfo) : Bool :=
  f.kind == kBounds || f.kind == kWindow || f.kind == kTrans || f.kind == kPage || f.kind == kWalk

/-- Where a load was truncated: the coordinate and the fault that it leaves unraised. -/
abbrev Cut := Option ((Nat × Nat) × FaultInfo)

/-- Checks up to the first fault that truncates, with its coordinate; none truncates when `ff` is false or the
coordinate is (0, 0). -/
def cutChk {α : Type} (ff : Bool) : List ((Nat × Nat) × Chk α) → Chk (List α × Cut)
  | [] => .ok ([], none)
  | (rc, .error (.fault f)) :: _ =>
    if ff && rc != (0, 0) && truncates f then .ok ([], some (rc, f)) else .error (.fault f)
  | (_, .error x) :: _ => .error x
  | (_, .ok y) :: xs => do
    let (ys, cut) ← cutChk ff xs
    .ok (y :: ys, cut)

/-- The elements before a cut that R158 keeps: of row 0 those before the column, else the rows before the row. -/
def keepsEl (cut : Cut) (r c : Nat) : Bool :=
  match cut with
  | none => true
  | some ((0, c0), _) => r == 0 && decide (c < c0)
  | some ((r0, _), _) => decide (r < r0)

/-- A bitmap-sparse record's elements as a load reads them (R167): the bitmap byte by byte, then the values; its stored
elements, or a fault. An access fault of any bitmap byte comes before a format fault (log 86). With `ff` the load is
truncated (R158): past a cut nothing is read or counted. -/
def readSparse (i : TIn) (d : Shape) (h : Handle) (tn : TReg) (ff : Bool) :
    Chk (List (Nat × Nat × Nat) × Cut × State) := do
  let rows := d.sparseRows
  let cols := d.sz 0
  let nb := rows * d.mapRow
  let eb := ebits d.etype
  let fmtAt := fun (r c : Nat) => (atEl (some tn) h r c (failK kFormat .team) : Chk Unit)
  let byteAt := fun (set : List (Nat × Nat)) (b : Nat) =>
    let rc := sparseCoord nb d.mapRow eb set b
    (rc, atEl (some tn) h rc.1 rc.2 (i.sparseByte d .read .team b))
  let (mk, cut) ← cutChk ff ((List.range nb).map (byteAt []))
  let (bm, s) := readBytes .team i.t.uid mk.flatten i.s
  let set := (setBits rows cols d.mapRow bm).filter (fun rc => keepsEl cut rc.1 rc.2)
  match set[d.nnz.toNat]? with
  | some (r, c) => fmtAt r c
  | none => .ok ()
  if cut.isNone && decide (set.length < d.nnz.toNat) then fmtAt (rows - 1) (cols - 1) else .ok ()
  let (vk, cut') ← cutChk ff ((List.range ((set.length * eb + 7) / 8)).map (fun b => byteAt set (nb + b)))
  let (vb, s) := readBytes .team i.t.uid vk.flatten s
  let v := bytesToNat vb
  let cut := if cut'.isSome then cut' else cut
  let els := set.zipIdx.map (fun p => (p.1.1, p.1.2, v / 2 ^ (p.2 * eb) % 2 ^ eb))
  .ok (els.filter (fun e => keepsEl cut e.1 e.2.1), cut, s)

/-! ### TLD, TST, TLDFF (R156 to R158) -/

/-- Whether a record is a valid bitmap-sparse one. -/
def Shape.sparse (d : Shape) : Bool := d.valid && d.layout == 3

/-- The checks of a tile load from a record, the element checks apart. What a packed load checks of its geometry and origin
is the model's choice (logs 37 and 86). -/
def acceptLoad (i : TIn) (td : TReg) (h : Handle) (sx : SReg) : Chk Unit := do
  let x ← i.t.dst td
  let d := i.rcd h
  let (row0, col0) := originOf (i.c.rs sx)
  if d.sparse && h != 0 then do
    must (if x.geo.packed then x.geo.rows == d.sparseRows && x.geo.cols == d.sz 0
          else x.geo.holds d.sparseRows (d.sz 0))
    must (row0 == 0 && col0 == 0)
    must (slotsFit i.t [x.geo] [])
    recChk i h .read .team td x.geo true
  else do
    i.extChk [x.geo] [x.geo] [] (.ok ())
    recChk i h .read .team td x.geo false
    if x.geo.mx && col0 % 32 != 0 then shapeFault kShape .team h (some td) else .ok ()

/-- The element checks of TLD and TLDFF, row-major. -/
def loadChks (i : TIn) (td : TReg) (h : Handle) (sx : SReg) : List (Chk ElSite) :=
  let (row0, col0) := originOf (i.c.rs sx)
  elChks i (i.rcd h) h .read .team (some td) i.ext (fun r c => [col0 + c, row0 + r])

/-- Loads checked elements into a tile. -/
def loadEls (i : TIn) (path : Path) (td : TReg) (es : List ElSite) : State :=
  let x := i.rd td
  if x.geo.mx then
    let (els, scs, s) := readSegs path i.t.uid (segments es) i.s
    { i with s }.put td (x.loaded els scs) i.t.env
  else
    let (els, s) := readEls path i.t.uid es i.s
    { i with s }.put td (x.loaded els []) i.t.env

/-- A load from a bitmap-sparse record (R167, R158): the state and where the load was truncated. -/
def runSparse (i : TIn) (td : TReg) (h : Handle) (ff : Bool) : Chk (State × Cut) := do
  let x := i.rd td
  let (els, cut, s) ← readSparse i (i.rcd h) h td ff
  .ok ({ i with s }.put td (if x.geo.packed then x.writePacked els else x.loaded els []) i.t.env, cut)

/-- TLD: its checks. -/
def acceptTld (i : TIn) (td : TReg) (h : Handle) (sx : SReg) : Chk Unit := acceptLoad i td h sx
/-- TLD (R156, R167). -/
def runTld (i : TIn) (td : TReg) (h : Handle) (sx : SReg) : Run :=
  if (i.rcd h).sparse then runChk i.s ((runSparse i td h false).map (·.1))
  else i.live [] (fun i => runChk i.s (do
    let es ← allChk ((loadChks i td h sx).map (withEcc i .team h (some td)))
    .ok (loadEls i .team td es)))

/-- TLDFF: its checks. -/
def acceptTldff (i : TIn) (td : TReg) (h : Handle) (sx : SReg) : Chk Unit := acceptLoad i td h sx

/-- The leading checks that succeed, and the fault that ends them. -/
def firstFault : List (Chk ElSite) → List ElSite × Option Stop
  | [] => ([], none)
  | .ok e :: es => let (xs, f) := firstFault es; (e :: xs, f)
  | .error f :: _ => ([], some f)

/-- What R158 leaves of the extent after a load that stopped at (r, c), and IDX. -/
def truncTo (ec r c : Nat) : Nat × Nat × Nat := if r = 0 then (1, c, c) else (r, ec, r * ec)

/-- FSR after a truncation (Table 4.4). -/
def fsrOf (idx : Nat) (kind : BitVec 8) : Word := BitVec.ofNat 64 (idx * 2 ^ 16 + kind.toNat * 2 ^ 8 + 1)

/-- The registers that TLDFF writes (R158): the extents and FSR after a truncation, else FSR alone. A bitmap-sparse load
uses no extent (R167): what it leaves in EXTC past row 0, and that the index of a cut at a bitmap byte is that of the
byte's first column, is the model's choice (log 17). -/
def Team.truncated (t : Team) (ec : Nat) (cut : Cut) : Team :=
  match cut with
  | none => { t with fsr := 0 }
  | some ((r, c), f) =>
    let (rows, cols, idx) := truncTo ec r c
    { t with ext := BitVec.ofNat 16 rows, extc := if r = 0 then BitVec.ofNat 16 cols else t.extc, fsr := fsrOf idx f.kind }

/-- TLDFF (R158): bounds, window and translation faults past (0, 0) truncate; every other fault is raised, an uncorrectable
error of any element before them first. -/
def runTldff (i : TIn) (td : TReg) (h : Handle) (sx : SReg) : Run :=
  if (i.rcd h).sparse then runChk i.s (do
    let (s, cut) ← runSparse i td h true
    .ok (s.modTeam i.t.uid (fun t => t.truncated i.c.ec cut)))
  else i.live [] (fun i =>
    let (es, stop) := firstFault (loadChks i td h sx)
    let finish := fun (cut : Cut) => runChk i.s (do
      eccEls i .team h (some td) es
      .ok ((loadEls i .team td (es.filter (fun e => keepsEl cut e.r e.c))).modTeam i.t.uid
        (fun t => t.truncated i.c.ec cut)))
    match stop with
    | none => finish none
    | some .walk => .walk
    | some .stall => .stall i.s
    | some (.fault f) =>
      if es.isEmpty || !truncates f then runChk i.s (do
        eccEls i .team h (some td) es
        .error (.fault f))
      else finish (some ((es.length / i.c.ec, es.length % i.c.ec), f)))

/-- A tile as a store reads it: a trit code 0b10 reads as 0 (R12). -/
def Tile.fixed (x : Tile) : Tile :=
  if x.geo.etype = 0x0A then { x with data := x.data.map (fun c => (c.1, BitVec.ofNat 64 (tritFix x.geo.etype c.2.toNat))) }
  else x

/-- FPST after an instruction has read trit elements (R12). -/
def State.tritRead (s : State) (uid : Nat) (et : BitVec 5) (xs : List Nat) : State :=
  if et = 0x0A then s.modTeam uid (fun t => t.applyEnv (t.env.flag (tritFlag et xs))) else s

/-- TST: its checks (R157). -/
def acceptTst (i : TIn) (ta : TReg) (h : Handle) (sx : SReg) : Chk Unit := do
  let x ← i.t.src ta
  let d := i.rcd h
  let (_, col0) := originOf (i.c.rs sx)
  if x.geo.packed then do
    i.extChk [x.geo] [] [ta] (.ok ())
    recChk i h .write .team ta x.geo false
    if x.geo.rows == d.sparseRows && x.geo.cols == d.sz 0 then .ok () else shapeFault kShape .team h (some ta)
  else do
    i.extChk [x.geo] [] [ta] (.ok ())
    recChk i h .write .team ta x.geo false
    if x.geo.mx && (col0 % 32 != 0 || (i.c.ec % 32 != 0 && col0 + i.c.ec != d.sz 0)) then
      shapeFault kShape .team h (some ta)
    else .ok ()

/-- The element checks of TST, row-major. -/
def tstChks (i : TIn) (ta : TReg) (h : Handle) (sx : SReg) : List (Chk ElSite) :=
  let (row0, col0) := originOf (i.c.rs sx)
  elChks i (i.rcd h) h .write .team (some ta) i.ext (fun r c => [col0 + c, row0 + r])

/-- The bytes that a packed tile stores: bitmap and values (R166). -/
def Tile.packedBytes (x : Tile) : List Byte :=
  (List.range (x.geo.rows * x.geo.mapRow)).map (kget 0 x.bitmap) ++
  natToBytes ((x.count * ebits x.geo.etype + 7) / 8)
    ((List.range x.count).foldl (fun a j => a + (kget 0 x.data j).toNat * 2 ^ (j * ebits x.geo.etype)) 0)

/-- A store of a packed tile (R167); the origin is not used (log 86). -/
def runTstPacked (i : TIn) (ta : TReg) (h : Handle) : Run :=
  i.live [ta] (fun i =>
    let d := i.rcd h
    let x := i.rd ta
    if x.count ≠ d.nnz.toNat then
      runChk i.s (atEl (some ta) h (x.geo.rows - 1) (x.geo.cols - 1) (failK kFormat .team))
    else runChk i.s (do
      let bs := x.fixed.packedBytes
      let set := x.packedEls.map (fun e => (e.1, e.2.1))
      let ks ← allChk ((List.range bs.length).map (fun b =>
        let rc := sparseCoord (x.geo.rows * x.geo.mapRow) x.geo.mapRow (ebits x.geo.etype) set b
        atEl (some ta) h rc.1 rc.2 (i.sparseByte d .write .team b)))
      .ok (((ks.flatten.zip bs).foldl (fun s kb => s.store i.t.uid .team [kb]) i.s).tritRead i.t.uid x.geo.etype
        (x.packedEls.map (·.2.2)))))

/-- The segments that a TST of an MX tile writes: elements, scale and padding (R157, R17). -/
def tstSegs (x : Tile) (es : List ElSite) : List (List (Site × Nat) × List Host.Cell) :=
  (segments es).map (fun g =>
    (g.map (fun e => (e.site, x.el e.r e.c)),
     g.flatMap (fun e => e.scale.map (fun k => (k, x.sc e.r (e.c / 32)))) ++
       g.flatMap (fun e => e.pad.map (fun k => (k, 0)))))

/-- TST (R157, R167). Where elements of the tile meet in memory, the later one in row-major order stays (log 87). -/
def runTst (i : TIn) (ta : TReg) (h : Handle) (sx : SReg) : Run :=
  if (i.rd ta).geo.packed then runTstPacked i ta h
  else i.live [ta] (fun i => runChk i.s (do
    let x := i.rd ta
    let es ← allChk (tstChks i ta h sx)
    if x.geo.mx then .ok (writeSegs .team i.t.uid (tstSegs x es) i.s)
    else .ok ((writeEls .team i.t.uid (es.map (fun e => (e.site, x.fixed.el e.r e.c))) i.s).tritRead i.t.uid x.geo.etype
      (es.map (fun e => x.el e.r e.c)))))

/-! ### Gathers and scatters (R159, R160) -/

/-- Whether the index tile holds the elements its kind uses. -/
def gatherFits (kind : BitVec 2) (g : Geo) (er ec : Nat) : Bool :=
  match kind.toNat with
  | 0 => g.holds er ec
  | 1 => decide (er ≤ g.rows)
  | _ => decide (ec ≤ g.cols)

/-- The record's indices of an element (R159). -/
def gatherIdx (kind : BitVec 2) (d : Shape) (ti : Tile) (row0 col0 r c : Nat) : List Nat :=
  match kind.toNat with
  | 0 => [ti.el r c % d.sz 0, ti.el r c / d.sz 0]
  | 1 => [col0 + c, ti.el r 0]
  | _ => [ti.el 0 c, row0 + r]

/-- The checks of gathers and scatters; `data` is the tile loaded or stored, `sp` whether the record's space is permitted. -/
def acceptGather (i : TIn) (sp : Bool) (load : Bool) (kind : BitVec 2) (data : TReg) (ti : Src) (h : Handle) (path : Path) :
    Chk Unit := do
  let _ ← (if load then i.t.src ti.t else i.t.src data)
  let x ← (if load then i.t.dst data else i.t.src data)
  let y ← i.t.src ti.t
  let d := i.rcd h
  let srcs := if load then [ti.t] else [data, ti.t]
  must (!i.c.live || (x.geo.holds i.c.er i.c.ec && gatherFits kind y.geo i.c.er i.c.ec && i.t.streamsOk i.c.er srcs))
  must (y.geo.dense && isIdx32 y.geo.etype && !(d.valid && h != 0 && (d.layout == 2 || d.layout == 3)))
  must (!i.c.live || slotsFit i.t (if load then [x.geo] else []) srcs)
  recChkIn i h (if load then .read else .write) sp path data x.geo false

/-- The path of a gather (R153). -/
def gatherPath (unordered : Bool) : Path := if unordered then .gath else .team

/-- The element checks of a gather or scatter. -/
def gatherChks (i : TIn) (load : Bool) (kind : BitVec 2) (data : TReg) (ti : Src) (h : Handle) (sx : SReg)
    (path : Path) : List (Chk ElSite) :=
  let (row0, col0) := originOf (i.c.rs sx)
  let d := i.rcd h
  let y := i.rd ti.t
  elChks i d h (if load then .read else .write) path (some data) i.ext (gatherIdx kind d y row0 col0)

/-- TGTH: its checks. -/
def acceptTgth (i : TIn) (u : Bool) (kind : BitVec 2) (td : TReg) (ti : Src) (h : Handle) : Chk Unit :=
  acceptGather i ((i.rcd h).space != 3) true kind td ti h (gatherPath u)
/-- TGTH (R159). -/
def runTgth (i : TIn) (u : Bool) (kind : BitVec 2) (td : TReg) (ti : Src) (h : Handle) (sx : SReg) : Run :=
  i.live [ti.t] (fun i => runChk i.s (do
    let es ← allChk ((gatherChks i true kind td ti h sx (gatherPath u)).map (withEcc i (gatherPath u) h (some td)))
    .ok (loadEls i (gatherPath u) td es)))
/-- TSCT: its checks. -/
def acceptTsct (i : TIn) (kind : BitVec 2) (ta ti : Src) (h : Handle) : Chk Unit :=
  acceptGather i ((i.rcd h).space != 3) false kind ta.t ti h .team
/-- TSCT (R160). -/
def runTsct (i : TIn) (kind : BitVec 2) (ta ti : Src) (h : Handle) (sx : SReg) : Run :=
  i.live [ta.t, ti.t] (fun i => runChk i.s (do
    let x := i.rd ta.t
    let es ← allChk (gatherChks i false kind ta.t ti h sx .team)
    .ok ((writeEls .team i.t.uid (es.map (fun e => (e.site, x.fixed.el e.r e.c))) i.s).tritRead i.t.uid x.geo.etype
      (es.map (fun e => x.el e.r e.c)))))

/-! ### Copies (R161 to R164) -/

/-- The outer dimension of a record. -/
def Shape.outer (d : Shape) : Nat := d.ndim - 1

/-- The positions of a box in the outer dimension; none when the source index lies beyond the record. -/
def copyCount (src : Shape) (srcWord : Word) : Option Nat :=
  let so := (srcWord.extractLsb' 0 32).toNat
  let n := (srcWord.extractLsb' 32 32).toNat
  if n = 0 then (if so ≤ src.sz src.outer then some (src.sz src.outer - so) else none) else some n

/-- The copy rows of a box of `n` outer positions. A bitmap-sparse record is one copy row (log 19). -/
def copyRows (src : Shape) (n : Nat) : Nat :=
  if n = 0 then 0
  else if src.layout = 3 || src.ndim ≤ 1 then 1
  else n * ((List.range (src.ndim - 2)).map (fun j => src.sz (j + 1))).prod

/-- The indices of dimensions 1 and up of copy row `q` within the box, dimension 1 fastest; `left` dimensions remain. -/
def boxIdx (src : Shape) (n : Nat) : Nat → Nat → Nat → List Nat
  | 0, _, _ => []
  | left + 1, dim, q =>
    let b := if left = 0 then n else src.sz dim
    q % b :: boxIdx src n left (dim + 1) (q / b)

/-- Adds an offset to the last index. -/
def addLast (o : Nat) : List Nat → List Nat
  | [] => []
  | [x] => [x + o]
  | x :: xs => x :: addLast o xs

/-- The elements of copy row `q`: source and destination indices, and the position in the line. -/
def copyLine (src : Shape) (n so dO q : Nat) : List (Nat × List Nat × List Nat) :=
  if src.ndim ≤ 1 then (List.range n).map (fun k => (k, [so + k], [dO + k]))
  else
    let outer := boxIdx src n (src.ndim - 1) 1 q
    (List.range (src.sz 0)).map (fun k => (k, k :: addLast so outer, k :: addLast dO outer))

/-- The checks of TCOPY in tag mode at acceptance (R161). -/
def acceptTcopy (i : TIn) (h : Handle) (sd _ss : SReg) : Chk Unit := do
  let w := i.c.rs sd
  let dh := w.extractLsb' 0 16
  let a := i.rcd h
  let b := i.rcd dh
  must (w.extractLsb' 48 16 == 0)
  useShape a h .read true .copy none
  useShape b dh .write true .copy none
  if a.ndim == b.ndim && a.etype == b.etype && a.layout == b.layout && (a.layout != 3 || a.nnz == b.nnz) &&
      (List.range (a.ndim - 1)).all (fun j => a.sz j == b.sz j) then .ok ()
  else shapeFault kShape .copy h none

/-- The checks of TCOPY.str (R164). -/
def acceptTcopyStr (i : TIn) (q : QReg) (h : Handle) (_ss : SReg) : Chk Unit := do
  let a := i.rcd h
  match i.t.q.get q.toFin with
  | none => illOp
  | some st =>
    let x := (i.t.tile st.tile).getD (Tile.blank 0 ⟨0, 0, 0, 0, 0⟩)
    must (!(a.valid && h != 0) || (decide (a.layout.toNat ≤ 1) && a.etype == x.geo.etype && x.geo.dense &&
      decide (a.sz 0 ≤ x.geo.cols)))
    useShape a h .read true .copy none

/-- Marks a fault as one of an element of a record that a copy names (R63), by its row and column in the record's layout
(R61). That `outer_index` stands for the second index of a record of more than two dimensions is the model's choice: R335
says so for the engine alone (log 105). -/
def atCopy {α : Type} (d : Shape) (h : Handle) (idx : List Nat) (x : Chk α) : Chk α :=
  let o := d.outerIndex 1 ((idx.drop 1).take (d.ndim - 1))
  if d.layout = 1 then atEl none h (idx.headD 0) o x else atEl none h o (idx.headD 0) x

/-- A copy as it begins (R161, R190): from the captured restart row on. -/
def copyStart (i : TIn) (seq : Nat) (tag : BitVec 4) (q : Option QReg) (h : Handle) (dw sw : Word) : Chk Copy :=
  let a := i.rcd h
  let dh := dw.extractLsb' 0 16
  match copyCount a sw with
  | none => mapFault (fun f => { f with xrow := some (BitVec.ofNat 16 i.xrow) })
      (atCopy a h ((List.range (max 1 a.ndim)).map (fun j => if j = a.outer then (sw.extractLsb' 0 32).toNat else 0))
        (failK kBounds .copy))
  | some n =>
    .ok { seq, tag, q, srcH := h, dstH := if q.isSome then 0 else dh, src := a,
          dst := if q.isSome then Shape.zero else i.rcd dh, srcWord := sw,
          srcIdx := (sw.extractLsb' 0 32).toNat, dstIdx := (dw.extractLsb' 16 32).toNat, row := i.xrow,
          rows := copyRows a n }

/-- A checked element of a copy: its source and destination, both scale bytes of an MX record, and the padding that
goes with the destination. -/
structure CopySite where
  src : Site
  dst : Site
  srcScale : List Nat
  dstScale : List Nat
  pad : List Nat
deriving DecidableEq, Repr

/-- The checked sites of one copy row. -/
def copySites (i : TIn) (c : Copy) (n : Nat) : List (Chk CopySite) :=
  (copyLine c.src n c.srcIdx c.dstIdx c.row).map (fun e => do
    let (x, xs) ← atCopy c.src c.srcH e.2.1 (do
      let (x, xs) ← elChk i.s i.t c.src .read .copy e.2.1 true
      i.s.recEcc c.src .copy x.va x.keys
      i.s.recEcc c.src .copy (c.src.scaleAddr e.2.1) xs
      .ok (x, xs))
    if c.q.isSome then .ok ⟨x, x, xs, xs, []⟩
    else do
      let (y, ys) ← atCopy c.dst c.dstH e.2.2 (elChk i.s i.t c.dst .write .copy e.2.2 true)
      let pad ← atCopy c.dst c.dstH e.2.2 (padSite i.s i.t c.dst .write .copy e.2.2)
      .ok ⟨x, y, xs, ys, pad⟩)

/-- Splits a list where `same` does not hold of neighbours. -/
def copyRuns {α : Type} (same : α → α → Bool) : List α → List (List α)
  | [] => []
  | x :: xs =>
    match copyRuns same xs with
    | (y :: g) :: gs => if same x y then (x :: y :: g) :: gs else [x] :: (y :: g) :: gs
    | gs => [x] :: gs

/-- Reads the elements of a copy, each source segment of an MX record as one access (R216): the value and the byte of
its segment's scale. -/
def copyRead (uid : Nat) : List (List CopySite) → State → List (CopySite × Nat × Byte) × State
  | [], s => ([], s)
  | g :: gs, s =>
    match s.team? uid with
    | none => ([], s)
    | some t =>
      let keys := g.flatMap (fun x => x.src.keys) ++ (g.headD ⟨⟨0, [], 0, 0, 0⟩, ⟨0, [], 0, 0, 0⟩, [], [], []⟩).srcScale
      let (bs, s) := s.load t .copy keys
      let at_ := fun (k : Nat) => kget 0 (keys.zip bs) k
      let (es, s) := copyRead uid gs s
      (g.map (fun x => (x, x.src.get (x.src.keys.map at_), at_ (x.srcScale.headD 0))) ++ es, s)

/-- The write of a destination segment: its elements, its scale and its padding (R17). -/
def copySeg (g : List (CopySite × Nat × Byte)) : List (Site × Nat) × List Host.Cell :=
  (g.map (fun e => (e.1.dst, e.2.1)),
   (match g with
    | e :: _ => e.1.dstScale.map (fun k => (k, e.2.2))
    | [] => []) ++ g.flatMap (fun e => e.1.pad.map (fun k => (k, 0))))

/-- Splits read elements into destination segments, each with the scale of its first element's source segment. For an outer
index along dimension 0 that is no multiple of 32, which R161 does not speak of, that is the model's choice (log 106). -/
def copySegs (es : List (CopySite × Nat × Byte)) : List (List (Site × Nat) × List Host.Cell) :=
  (copyRuns (fun x y => x.1.dstScale == y.1.dstScale) es).map copySeg

/-- Bytes of a bitmap-sparse record in its box (R161): the bitmap rows of the box, source and destination, then the
values whole (log 19). -/
def sparseBox (c : Copy) (n : Nat) : List (Nat × Nat) :=
  let m := c.src.mapRow
  let vals := (c.src.nnz.toNat * ebits c.src.etype + 7) / 8
  (if c.src.ndim ≤ 1 then (List.range ((n + 7) / 8)).map (fun b => (c.srcIdx / 8 + b, c.dstIdx / 8 + b))
   else (List.range (n * m)).map (fun b => (c.srcIdx * m + b, c.dstIdx * m + b))) ++
  (List.range vals).map (fun j => (c.src.sparseRows * m + j, c.dst.sparseRows * c.dst.mapRow + j))

/-- The set bits of a copy's bitmap-sparse source, as the copy path reads them: what its value bytes belong to. -/
def copySet (i : TIn) (c : Copy) : List (Nat × Nat) :=
  let nb := c.src.sparseRows * c.src.mapRow
  match allChk ((List.range nb).map (i.sparseByte c.src .read .copy)) with
  | .ok ks => setBits c.src.sparseRows (c.src.sz 0) c.src.mapRow (readBytes .copy i.t.uid ks.flatten i.s).1
  | .error _ => []

/-- A copy between bitmap-sparse records: bytes, after the bounds of the box (R161). The value bytes of the destination are
named by the source's set bits, moved as the box moves (log 19). -/
def copySparse (i : TIn) (c : Copy) (n : Nat) : Chk State := do
  let far := fun (d : Shape) (h : Handle) (o : Nat) =>
    if d.sz d.outer < o + n then
      atEl none h (if d.ndim ≤ 1 then 0 else max o (d.sz d.outer)) (if d.ndim ≤ 1 then max o (d.sz d.outer) else 0)
        (failK kBounds .copy : Chk Unit)
    else .ok ()
  far c.src c.srcH c.srcIdx
  far c.dst c.dstH c.dstIdx
  let set := copySet i c
  let moved := set.map (fun rc =>
    if c.src.ndim ≤ 1 then (rc.1, rc.2 + c.dstIdx - c.srcIdx) else (rc.1 + c.dstIdx - c.srcIdx, rc.2))
  let at_ := fun (d : Shape) (h : Handle) (set : List (Nat × Nat)) (b : Nat) (x : Chk (List Nat)) =>
    let rc := sparseCoord (d.sparseRows * d.mapRow) d.mapRow (ebits d.etype) set b
    atEl none h rc.1 rc.2 x
  let pairs ← allChk ((sparseBox c n).map (fun b => do
    let sk ← at_ c.src c.srcH set b.1 (i.sparseByte c.src .read .copy b.1)
    let dk ← at_ c.dst c.dstH moved b.2 (i.sparseByte c.dst .write .copy b.2)
    .ok (sk, dk)))
  let (bs, s) := readBytes .copy i.t.uid (pairs.flatMap (·.1)) i.s
  .ok (((pairs.flatMap (·.2)).zip bs).foldl (fun s kb => s.store i.t.uid .copy [kb]) s)

/-- Whether a stream register has room for another line (Table 5.1). -/
def Team.streamRoom (t : Team) (q : QReg) : Bool :=
  match t.q.get q.toFin with
  | some st => decide (st.lines.length < t.streamLines st)
  | none => true

/-- Appends a line to a stream register (R164). -/
def Team.appendLine (t : Team) (q : QReg) (line : List Word) : Team :=
  match t.q.get q.toFin with
  | some st => { t with q := t.q.set q.toFin (some { st with lines := st.lines ++ [line] }) }
  | none => t

/-- Copies one row (R161) or appends it to a stream (R164), which waits while the stream is full; the copy's row is
checked whole before it is written. -/
def copyRow (i : TIn) (c : Copy) : Chk State := do
  let n := (copyCount c.src c.srcWord).getD 0
  if c.q.any (fun q => !i.t.streamRoom q) then .error .stall
  else if c.src.layout = 3 then copySparse i c n
  else do
    let sites ← allChk (copySites i c n)
    let (es, s) := copyRead i.t.uid
      (copyRuns (fun x y => !x.srcScale.isEmpty && x.srcScale == y.srcScale) sites) i.s
    let s := s.tritRead i.t.uid c.src.etype (es.map (·.2.1))
    let es := es.map (fun e => (e.1, tritFix c.src.etype e.2.1, e.2.2))
    match c.q with
    | some q => .ok (s.modTeam i.t.uid (fun t => t.appendLine q (es.map (fun e => BitVec.ofNat 64 e.2.1))))
    | none =>
      if c.src.layout = 2 then .ok (writeSegs .copy i.t.uid (copySegs es) s)
      else .ok (writeEls .copy i.t.uid (es.map (fun e => (e.1.dst, e.2.1))) s)

/-- TWAIT: no check. -/
def acceptTwait : Chk Unit := .ok ()
/-- TWAIT (R163): every older copy has completed when the sequencer runs it in program order; it joins the copy-path
view to the team, gather and matrix-load paths. -/
def runTwait (i : TIn) : Run :=
  .done (((i.s.cfence i.t.uid .copy .team).cfence i.t.uid .copy .gath).cfence i.t.uid .copy .mload)

end Sys2Proof.Machine
end

