-- ==== Sys2Proof/Machine/Matrix.lean ====
section
/-!
DEFINITION. The compute-in-memory matrix and the core engines (06_core_matrix.md): alignment and group sums (R34 to R36),
resident B, products, accumulator access, scale registers, routing, block scoring and the index walk. Each instruction
has its checks at acceptance (Table 6.6) and its run.
-/

namespace Sys2Proof.Machine

/-! ### The order of matrix sums (R34 to R36) -/

/-- The exponent of a finite non-zero value of a format, that of its hidden bit. -/
def elExp (f : Fmt) (x : FV) : Option Int :=
  match x with
  | .fin _ m e => if m = 0 then none else some (e + (f.p - 1 : Nat))
  | _ => none

/-- The largest exponent of a group; 0 when every element is zero. -/
def grpExp (f : Fmt) (xs : List FV) : Int :=
  match xs.filterMap (elExp f) with
  | [] => 0
  | e :: es => es.foldl max e

/-- An element aligned to exponent `ea` in `w` bits, with its sign (R34). -/
def alignEl (f : Fmt) (w : Nat) (ea : Int) (x : FV) : Int :=
  match x with
  | .fin n m e => if m = 0 then 0 else signed n (m * 2 ^ (w - f.p) / 2 ^ (ea - (e + (f.p - 1 : Nat))).toNat)
  | _ => 0

/-- What one K group adds (R35): a NaN (with NV) or a value. -/
def groupSum (fa fb : Fmt) (w : Nat) (xs ys : List FV) (sa sb : Byte) : FV × Flags :=
  let both := xs ++ ys
  let nv := flIf (both.any FV.isSig) flNV
  let ps := xs.zip ys
  let infs := (ps.filter (fun p => p.1.isInf || p.2.isInf)).map (fun p => p.1.neg != p.2.neg)
  if both.any FV.isNan || sa = 0xFF || sb = 0xFF then (.nan false, nv)
  else if ps.any (fun p => (p.1.isInf && p.2.isZero) || (p.1.isZero && p.2.isInf)) then (.nan false, flNV)
  else if infs.any id && infs.any (fun n => !n) then (.nan false, flNV)
  else match infs with
  | n :: _ => (.inf n, 0)
  | [] =>
    let ea := grpExp fa xs
    let eb := grpExp fb ys
    let s : Int := (ps.map (fun p => alignEl fa w ea p.1 * alignEl fb w eb p.2)).sum
    if s = 0 then (.fin false 0 0, 0)
    else (.fin (decide (s < 0)) s.natAbs
      (ea + eb - 2 * ((w : Int) - 1) + ((sa.toNat : Int) - 127) + ((sb.toNat : Int) - 127)), 0)

/-- FA80 arithmetic: a rounded value; FA80 rounding sets no flag (R35). -/
def fa80Round (x : FV) : Nat := (roundV fa80 false 0 0 x false).1

/-- Adds one group to an accumulator element (R35). -/
def accGroup (fa fb : Fmt) (w : Nat) (acc : Nat) (xs ys : List FV) (sa sb : Byte) : Nat × Flags :=
  let a := fa80.dec acc
  let (g, nv) := groupSum fa fb w xs ys sa sb
  if g.isNan then (fa80.qnan, nv ||| flIf a.isSig flNV)
  else
    let (z, fl) := fvAdd 0 a (fa80.dec (fa80Round g))
    (fa80Round z, nv ||| fl)

/-- The runs of 32 positions of a list. -/
def chunks32 {α : Type} : Nat → List α → List (List α)
  | 0, _ => []
  | n + 1, l => if l.isEmpty then [] else l.take 32 :: chunks32 n (l.drop 32)

/-- mma_element of R35, group by group. -/
def mmaElement (fa fb : Fmt) (w : Nat) : Nat → List (List FV) → List (List FV) → List Byte → List Byte → Flags →
    Nat × Flags
  | acc, x :: xs, y :: ys, sa, sb, fl =>
    let (a, f) := accGroup fa fb w acc x y (sa.headD 0x7F) (sb.headD 0x7F)
    mmaElement fa fb w a xs ys (sa.drop 1) (sb.drop 1) (fl ||| f)
  | acc, _, _, _, _, fl => (acc, fl)

/-- int_element of R194, group by group, each addition saturated (R20). -/
def intElement : Int → List (List Int) → List (List Int) → Flags → Int × Flags
  | acc, x :: xs, y :: ys, fl =>
    let g : Int := ((x.zip y).map (fun p => p.1 * p.2)).sum
    let (a, c) := clampInt (intMin 80 true) (intMax 80 true) (acc + g)
    intElement a xs ys (fl ||| flIf c flSAT)
  | acc, _, _, fl => (acc, fl)

/-! ### Operand layouts (Table 6.5) -/

/-- A 16-bit field of a register value. -/
def fld16 (w : Word) (i : Nat) : Nat := (w.extractLsb' (16 * i) 16).toNat

/-- Shape and placement. -/
structure MDims where
  m : Nat
  n : Nat
  k : Nat
  kb0 : Nat
  nb0 : Nat
  ac : Nat
  ar : Nat
deriving DecidableEq, Repr

/-- The dimensions that two registers hold. -/
def mdims (sh pl : Word) : MDims := ⟨fld16 sh 0, fld16 sh 1, fld16 sh 2, fld16 pl 0, fld16 pl 1, fld16 pl 2, fld16 pl 3⟩

/-- A non-empty product region (R187). -/
def MDims.live (d : MDims) : Bool := d.m != 0 && d.n != 0 && d.k != 0

/-- Order 2 for shape and placement: Table 6.5, and the block within resident B. -/
def MDims.fits (d : MDims) (sh : Word) (b : ResidentB) : Bool :=
  fld16 sh 3 == 0 && decide (d.m ≤ 64) && decide (d.n ≤ 128) && decide (d.k ≤ 1024) &&
  decide (d.kb0 + d.k ≤ b.kb) && decide (d.nb0 + d.n ≤ b.nb)

/-- Order 2 for the accumulator block. -/
def MDims.inAcc (d : MDims) : Bool := decide (d.ar + d.m ≤ 64) && decide (d.ac + d.n ≤ 128)

/-! ### Formats (Table 6.3) -/

/-- The types of a format. -/
def fmtType (f : BitVec 2) (e : BitVec 5) : Bool :=
  match f.toNat with
  | 0 => e == 0x0F
  | 1 => isFp8 e
  | 2 => e == 0x0B
  | _ => e == 0x01

/-- Whether a layout suits a format: row-major, or MX for FP8 and FP4. -/
def fmtLayout (f : BitVec 2) (layout : BitVec 2) : Bool := layout == 0 || (layout == 2 && (f == 1 || f == 2))

/-- The aligned width. -/
def fmtW (f : BitVec 2) : Nat :=
  match f.toNat with
  | 0 => 16
  | 1 => 8
  | _ => 4

/-- A float format of a type. -/
def fmtOf (e : BitVec 5) : Fmt :=
  match cls e with
  | .flt f => f
  | _ => fp32

/-! ### Accumulators (R184) -/

/-- An accumulator. -/
def Team.accOf (t : Team) (a : AReg) : Acc := t.acc.get a.toFin
/-- Replaces an accumulator. -/
def Team.putAcc (t : Team) (a : AReg) (x : Acc) : Team := { t with acc := t.acc.set a.toFin x }
/-- An element. -/
def Acc.el (x : Acc) (r c : Nat) : Nat := (kget 0 x.cells (r * 128 + c)).toNat
/-- Writes an element. -/
def Acc.put (x : Acc) (r c v : Nat) : Acc := { x with cells := kset 0 x.cells (r * 128 + c) (BitVec.ofNat 80 v) }
/-- Order 1: the accumulator lies within the team's share (R107). -/
def Team.accOk (t : Team) (a : AReg) : Chk Unit := must (decide (a.toNat < accShare t.part))

/-! ### Products (R194, R195) -/

/-- Resident column `j` of a block, as codes. -/
def ResidentB.col (b : ResidentB) (d : MDims) (j : Nat) : List Nat :=
  (List.range d.k).map (fun k => (kget 0 b.cells ((d.kb0 + k) * 128 + d.nb0 + j)).toNat)

/-- The scales of column `j`, group by group. -/
def ResidentB.colScales (b : ResidentB) (d : MDims) (j : Nat) : List Byte :=
  if b.bmx then (List.range ((d.k + 31) / 32)).map (fun g => kget 0x7F b.scales ((d.kb0 / 32 + g) * 128 + d.nb0 + j))
  else []

/-- A resident block as the products of one instruction read it: float columns with scales. -/
def ResidentB.floats (b : ResidentB) (d : MDims) : List (List (List FV) × List Byte) :=
  (List.range d.n).map (fun j => (chunks32 d.k ((b.col d j).map (fmtOf b.btype).dec), b.colScales d j))

/-- An integer or trit element. -/
def intEl (e : BitVec 5) (x : Nat) : Int :=
  match readElem (cls e) x with
  | (.int v, _) => v
  | _ => 0

/-- A resident block of integers or trits. -/
def ResidentB.ints (b : ResidentB) (d : MDims) : List (List (List Int)) :=
  (List.range d.n).map (fun j => chunks32 d.k ((b.col d j).map (intEl b.btype)))

/-- One float row of a product: into accumulator row AR + i. -/
def floatRow (d : MDims) (fa fb : Fmt) (w : Nat) (i : Nat) (codes : List Nat) (sas : List Byte)
    (cols : List (List (List FV) × List Byte)) (x : Acc) (fl : Flags) : Acc × Flags :=
  let a := chunks32 d.k (codes.map fa.dec)
  cols.zipIdx.foldl (fun (p : Acc × Flags) cj =>
    let (v, f) := mmaElement fa fb w (p.1.el (d.ar + i) (d.ac + cj.2)) a cj.1.1 sas cj.1.2 p.2
    (p.1.put (d.ar + i) (d.ac + cj.2) v, f)) (x, fl)

/-- One integer row of a product. -/
def intRow (d : MDims) (ea : BitVec 5) (i : Nat) (codes : List Nat) (cols : List (List (List Int))) (x : Acc)
    (fl : Flags) : Acc × Flags :=
  let a := chunks32 d.k (codes.map (intEl ea))
  cols.zipIdx.foldl (fun (p : Acc × Flags) cj =>
    let (v, f) := intElement (intOf 80 true (p.1.el (d.ar + i) (d.ac + cj.2))) a cj.1 p.2
    (p.1.put (d.ar + i) (d.ac + cj.2) (intCode 80 v), f)) (x, fl)

/-- The scale of A row `i` in each group: from an MX A, from a scale register (R195), or none. -/
def rowScales (t : Team) (d : MDims) (mx : List Byte) (en : Option EReg) (i : Nat) : List Byte :=
  match en with
  | some e => List.replicate ((d.k + 31) / 32) (kget 0x7F (t.scale.get e.toFin).bytes i)
  | none => mx

/-- Adds A row `i` to the product of a team: its accumulator and flags. -/
def productRow (t : Team) (isInt : Bool) (w : Nat) (ea : BitVec 5) (d : MDims) (ad : AReg) (en : Option EReg) (i : Nat)
    (codes : List Nat) (mx : List Byte) : Team :=
  let x := t.accOf ad
  let (x, fl) :=
    if isInt then intRow d ea i codes (t.resB.ints d) x 0
    else floatRow d (fmtOf ea) (fmtOf t.resB.btype) w i codes (rowScales t d mx en i) (t.resB.floats d) x 0
  (t.putAcc ad x).applyEnv ⟨t.lfsr, fl⟩

/-- The checks of resident B for a format: valid, its type, MX alignment, and of the accumulator's mode. -/
def ResidentB.ok (b : ResidentB) (types : BitVec 5 → Bool) (mxOk : Bool) (d : MDims) : Bool :=
  b.bv && types b.btype && (!b.bmx || (mxOk && d.kb0 % 32 == 0))

/-- The checks of a scale-register operand (R195). -/
def esaOk (t : Team) (f : BitVec 2) (aMx : Bool) (k : Nat) (en : Option EReg) : Bool :=
  match en with
  | none => true
  | some e => (f == 1 || f == 2) && !aMx && decide (k ≤ 32 * 2 ^ (t.scale.get e.toFin).gc.toNat)

/-- MMA: its checks. -/
def acceptMma (i : TIn) (f : BitVec 2) (ad : AReg) (ta : Src) (ss sp : SReg) (en : Option EReg) : Chk Unit := do
  let a ← i.t.srcNoStream ta.t
  i.t.accOk ad
  let d := mdims (i.c.rs ss) (i.c.rs sp)
  must (d.fits (i.c.rs ss) i.t.resB && d.inAcc)
  must (fmtType f a.geo.etype && fmtLayout f a.geo.layout && i.t.resB.ok (fmtType f) true d &&
    (i.t.accOf ad).int == (f == 3) && (!d.live || a.geo.holds d.m d.k) && esaOk i.t f a.geo.mx d.k en)
  must (!d.live || slotsFit i.t [] [ta.t])

/-- The scales of a row of an MX tile, group by group. -/
def Tile.rowScales (a : Tile) (k r : Nat) : List Byte :=
  if a.geo.mx then (List.range ((k + 31) / 32)).map (a.sc r) else []

/-- Rows of a row group (06_core_matrix.md). -/
def rowGroup : Nat := 4

/-- The rows that a product with M = `m` does now: all from the restart row on, or the next row group; and whether that
leaves rows to do. -/
def TIn.groupRows (i : TIn) (m : Nat) : Nat × Bool :=
  if i.step && decide (rowGroup < m - i.xrow) then (rowGroup, true) else (m - i.xrow, false)

/-- A run of rows that may stop at a row boundary. -/
def Run.upTo (r : Run) (more : Bool) (row : Nat) : Run :=
  match r with
  | .done s => if more then .part s row else .done s
  | r => r

/-- Products over the rows of a tile, from the restart row on (R189, R194). -/
def tileProduct (i : TIn) (isInt : Bool) (w : Nat) (ad : AReg) (ta : Src) (d : MDims) (en : Option EReg) : Run :=
  if !d.live then .done i.s
  else
    let a := i.rd ta.t
    let (n, more) := i.groupRows d.m
    let rows := (List.range n).map (fun j => i.xrow + j)
    (Run.done (i.s.putTeam (rows.foldl (fun t r =>
      productRow t isInt w a.geo.etype d ad en r ((List.range d.k).map (a.el r)) (a.rowScales d.k r)) i.t))).upTo more
        (i.xrow + n)

/-- MMA (R194). -/
def runMma (i : TIn) (f : BitVec 2) (ad : AReg) (ta : Src) (ss sp : SReg) (en : Option EReg) : Run :=
  tileProduct i (f == 3) (fmtW f) ad ta (mdims (i.c.rs ss) (i.c.rs sp)) en

/-- MMAT: its checks (R197). -/
def acceptMmat (i : TIn) (ad : AReg) (ta : Src) (ss sp : SReg) : Chk Unit := do
  let a ← i.t.srcNoStream ta.t
  i.t.accOk ad
  let d := mdims (i.c.rs ss) (i.c.rs sp)
  must (d.fits (i.c.rs ss) i.t.resB && d.inAcc)
  must (a.geo.etype == 0x01 && a.geo.dense && i.t.resB.ok (fun e => e == 0x0A) false d && (i.t.accOf ad).int &&
    (!d.live || a.geo.holds d.m d.k))
  must (!d.live || slotsFit i.t [] [ta.t])
/-- MMAT (R197). -/
def runMmat (i : TIn) (ad : AReg) (ta : Src) (ss sp : SReg) : Run :=
  tileProduct i true 8 ad ta (mdims (i.c.rs ss) (i.c.rs sp)) none

/-- Order 5 of Table 6.6 for a record: rights, NDIM, type and layout, and col0 of an MX record. -/
def matrixRec (d : Shape) (h : Handle) (typeOk : BitVec 5 → BitVec 2 → Bool) (col0 : Nat) : Chk Unit := do
  useShape d h .matrix false .mload none
  if decide (d.ndim ≤ 2) && typeOk d.etype d.layout && (d.layout != 2 || col0 % 32 == 0) then .ok ()
  else shapeFault kShape .mload h none

/-- MMAM: its checks. -/
def acceptMmam (i : TIn) (f : BitVec 2) (ad : AReg) (h : Handle) (ss sx sp : SReg) (en : Option EReg) : Chk Unit := do
  i.t.accOk ad
  let d := mdims (i.c.rs ss) (i.c.rs sp)
  let r := i.rcd h
  must (d.fits (i.c.rs ss) i.t.resB && d.inAcc)
  must (i.t.resB.ok (fmtType f) true d && (i.t.accOf ad).int == (f == 3) &&
    esaOk i.t f (r.valid && h != 0 && r.layout == 2) d.k en)
  matrixRec r h (fun e l => fmtType f e && fmtLayout f l) (originOf (i.c.rs sx)).2

/-- The element checks of one A row of MMAM (R196). -/
def mmamRowChks (i : TIn) (h : Handle) (sx : SReg) (k row : Nat) : List (Chk ElSite) :=
  let (row0, col0) := originOf (i.c.rs sx)
  (List.range k).map (fun c => atEl none h row c (do
    let (x, ks) ← elChk i.s i.t (i.rcd h) .read .mload [col0 + c, row0 + row] (c % 32 == 0)
    let e : ElSite := ⟨row, c, x, ks, (i.rcd h).scaleAddr [col0 + c, row0 + row], []⟩
    e.ecc i.s (i.rcd h) .mload
    .ok e))

/-- The rows of MMAM from `row` on, `n` of them (R189). -/
def mmamRows (i : TIn) (f : BitVec 2) (ad : AReg) (h : Handle) (sx : SReg) (d : MDims) (en : Option EReg) :
    Nat → Nat → State → Run
  | 0, _, s => .done s
  | n + 1, row, s =>
    match s.team? i.t.uid with
    | none => .done s
    | some t =>
      match allChk (mmamRowChks { i with s, t } h sx d.k row) with
      | .error (.fault g) => .fail s { g with xrow := some (BitVec.ofNat 16 row) }
      | .error .walk => .walk
      | .error .stall => .stall s
      | .ok es =>
        let (els, scs, s) := (if (i.rcd h).layout = 2 then readSegs .mload i.t.uid (segments es) s
          else
            let (els, s) := readEls .mload i.t.uid es s
            (els, [], s))
        mmamRows i f ad h sx d en n (row + 1) (s.modTeam i.t.uid (fun t =>
          productRow t (f == 3) (fmtW f) (i.rcd h).etype d ad en row (els.map (·.2.2)) (scs.map (·.2.2))))

/-- MMAM (R194, R196). -/
def runMmam (i : TIn) (f : BitVec 2) (ad : AReg) (h : Handle) (ss sx sp : SReg) (en : Option EReg) : Run :=
  let d := mdims (i.c.rs ss) (i.c.rs sp)
  let (n, more) := i.groupRows d.m
  if !d.live then .done i.s else (mmamRows i f ad h sx d en n i.xrow i.s).upTo more (i.xrow + n)

/-! ### Loading B (R192, R193) -/

/-- The types and layouts that resident B admits (R192). -/
def bTypeOk (e : BitVec 5) (layout : BitVec 2) : Bool :=
  ((e == 0x0F || isMxType e || e == 0x01 || e == 0x0A) && layout == 0) || (isMxType e && layout == 2)

/-- Resident B as the block is written into it: as it stands, or after .init. -/
def ldbTarget (i : TIn) (dims : Option SReg) (e : BitVec 5) (mx : Bool) : ResidentB :=
  match dims with
  | none => i.t.resB
  | some sd => ⟨true, e, mx, fld16 (i.c.rs sd) 0, fld16 (i.c.rs sd) 1, [], []⟩

/-- Order 2 of a load of B: Table 6.5, the block within KB and NB, the team's cells (Table 6.1). -/
def ldbFits (i : TIn) (dims : Option SReg) (so : SReg) (b : ResidentB) : Bool :=
  let o := i.c.rs so
  o.extractLsb' 32 32 == 0 &&
  (match dims with
   | none => true
   | some sd => (i.c.rs sd).extractLsb' 32 32 == 0 && decide (1 ≤ b.kb) && decide (b.kb ≤ 1024) && decide (1 ≤ b.nb) &&
     decide (b.nb ≤ 128)) &&
  decide (fld16 o 0 + i.c.ec ≤ b.kb) && decide (fld16 o 1 + i.c.er ≤ b.nb) &&
  decide (b.kb * b.nb ≤ cellShare i.t.part * (if b.btype = 0x0A then 2 else 1))

/-- Order 3 of a load of B: type, layout, MX alignment. -/
def ldbOrder3 (i : TIn) (dims : Option SReg) (so : SReg) (b : ResidentB) : Bool :=
  b.bv && (!b.bmx || (fld16 (i.c.rs so) 0 % 32 == 0 && (dims.isNone || b.kb % 32 == 0)))

/-- Writes a block into resident B: elements (r, c) and the scales of rows' segments; trit code 0b10 becomes 0. -/
def ResidentB.load (b : ResidentB) (o : Word) (els : List (Nat × Nat × Nat)) (scs : List (Nat × Nat × Byte)) :
    ResidentB × Flags :=
  let kb0 := fld16 o 0
  let nb0 := fld16 o 1
  let bad := fun (v : Nat) => b.btype == 0x0A && v % 4 == 2
  ({ b with
      cells := els.foldl (fun m e => kset 0 m ((kb0 + e.2.1) * 128 + nb0 + e.1)
        (if bad e.2.2 then 0 else BitVec.ofNat 16 e.2.2)) b.cells,
      scales := if b.bmx then scs.foldl (fun m e => kset 0x7F m ((kb0 / 32 + e.2.1) * 128 + nb0 + e.1) e.2.2) b.scales
        else b.scales },
   flIf (els.any (fun e => bad e.2.2)) flFMT)

/-- LDB: its checks. -/
def acceptLdb (i : TIn) (dims : Option SReg) (ta : Src) (so : SReg) : Chk Unit := do
  let a ← i.t.srcNoStream ta.t
  let b := ldbTarget i dims a.geo.etype a.geo.mx
  must (ldbFits i dims so b)
  must (bTypeOk a.geo.etype a.geo.layout && ldbOrder3 i dims so b && a.geo.etype == b.btype && a.geo.mx == b.bmx &&
    (!i.c.live || a.geo.holds i.c.er i.c.ec))
  must (!i.c.live || slotsFit i.t [] [ta.t])
/-- LDB (R192). -/
def runLdb (i : TIn) (dims : Option SReg) (ta : Src) (so : SReg) : Run :=
  let a := i.rd ta.t
  let b := ldbTarget i dims a.geo.etype a.geo.mx
  if i.c.live then
    let (b, fl) := b.load (i.c.rs so) (i.ext.map (fun rc => (rc.1, rc.2, a.el rc.1 rc.2)))
      (if a.geo.mx then a.touched i.c.er i.c.ec else [])
    .done (i.s.putTeam ({ i.t with resB := b }.applyEnv ⟨i.t.lfsr, fl⟩))
  else .done (i.s.putTeam { i.t with resB := b })

/-- LDBM: its checks. -/
def acceptLdbm (i : TIn) (dims : Option SReg) (h : Handle) (sx so : SReg) : Chk Unit := do
  let r := i.rcd h
  let b := ldbTarget i dims r.etype (r.layout == 2)
  must (ldbFits i dims so b)
  must (ldbOrder3 i dims so b)
  matrixRec r h (fun e l => bTypeOk e l && e == b.btype && (l == 2) == b.bmx) (originOf (i.c.rs sx)).2
/-- The element checks of LDBM, row-major. -/
def ldbmChks (i : TIn) (h : Handle) (sx : SReg) : List (Chk ElSite) :=
  let (row0, col0) := originOf (i.c.rs sx)
  i.ext.map (fun rc => atEl none h rc.1 rc.2 (do
    let (x, ks) ← elChk i.s i.t (i.rcd h) .read .mload [col0 + rc.2, row0 + rc.1] (rc.2 % 32 == 0)
    let e : ElSite := ⟨rc.1, rc.2, x, ks, (i.rcd h).scaleAddr [col0 + rc.2, row0 + rc.1], []⟩
    e.ecc i.s (i.rcd h) .mload
    .ok e))
/-- LDBM (R193). -/
def runLdbm (i : TIn) (dims : Option SReg) (h : Handle) (sx so : SReg) : Run :=
  let r := i.rcd h
  let b := ldbTarget i dims r.etype (r.layout == 2)
  if i.c.live then runChk i.s (do
    let es ← allChk (ldbmChks i h sx)
    let (els, scs, s) := (if r.layout = 2 then readSegs .mload i.t.uid (segments es) i.s
      else
        let (els, s) := readEls .mload i.t.uid es i.s
        (els, [], s))
    let (b, fl) := b.load (i.c.rs so) els scs
    .ok (s.modTeam i.t.uid (fun t => { t with resB := b }.applyEnv ⟨t.lfsr, fl⟩)))
  else .done (i.s.putTeam { i.t with resB := b })

/-! ### Accumulator access (R198 to R202) -/

/-- ACLR: its checks. -/
def acceptAclr (i : TIn) (ad : AReg) : Chk Unit := i.t.accOk ad
/-- ACLR (R198). -/
def runAclr (i : TIn) (int : Bool) (ad : AReg) : Run := .done (i.s.putTeam (i.t.putAcc ad ⟨int, []⟩))

/-- Order 2 of a window: Table 6.5, and the extent within the accumulator. -/
def windowOk (i : TIn) (sw : SReg) : Bool :=
  let w := i.c.rs sw
  w.extractLsb' 32 32 == 0 && decide (fld16 w 0 + i.c.er ≤ 64) && decide (fld16 w 1 + i.c.ec ≤ 128)

/-- ARD's destinations (R199). -/
def ardType (e : BitVec 5) : Bool :=
  match e.toNat with
  | 1 | 2 | 3 | 0x0B | 0x0C | 0x0D | 0x0E | 0x0F | 0x10 => true
  | _ => false

/-- ARD: its checks. -/
def acceptArd (i : TIn) (cv : Conv) (td : TReg) (as : AReg) (sw sx : SReg) : Chk Unit := do
  let d ← i.t.dst td
  i.t.accOk as
  let x := (i.c.rs sx).toInt
  must (windowOk i sw && decide (-256 ≤ x) && decide (x ≤ 256))
  must (d.geo.dense && ardType d.geo.etype && (!cv.nsat || isFp8 d.geo.etype) &&
    (!cv.s || ((i.t.accOf as).int && isInt d.geo.etype)) && (!i.c.live || d.geo.holds i.c.er i.c.ec))
  must (!i.c.live || slotsFit i.t [d.geo] [])

/-- `out` of R199. -/
def ardOut (k : EClass) (accInt : Bool) (mode : Rm) (cv : Conv) (v : FV) (env : Env) : Nat × Env :=
  match k with
  | .int b sg =>
    if accInt then
      let (d, env) := env.draw mode
      match v with
      | .fin n m e =>
        let (x, inexact) := roundInt mode d n m e
        let (c, fl) := narrowInt b sg cv.s x
        (c, env.flag (fl ||| flIf inexact flNX))
      | _ => (0, env.flag flNV)
    else fvToInt b sg mode v env
  | .flt f => rnd f cv.nsat mode v false env
  | _ => (0, env)

/-- The value of an accumulator element. -/
def Acc.val (x : Acc) (r c : Nat) : FV :=
  if x.int then fvOfInt (intOf 80 true (x.el r c)) else fa80.dec (x.el r c)

/-- ARD (R199). -/
def runArd (i : TIn) (clr : Bool) (cv : Conv) (td : TReg) (as : AReg) (sw sx : SReg) (en : Option EReg) : Run :=
  if !i.c.live then .done i.s
  else
    let d := i.rd td
    let x := i.t.accOf as
    let w := i.c.rs sw
    let (els, e) := runEls (fun r c env =>
      let v := x.val (fld16 w 0 + r) (fld16 w 1 + c)
      let v := (match en with
        | none => v
        | some e =>
          let q := kget 0x7F (i.t.scale.get e.toFin).bytes r
          if q = 0xFF then (if v.isSig then v else .nan false) else fvScale v (127 - (q.toNat : Int)))
      ardOut (cls d.geo.etype) x.int (resolveRm cv.rm i.c.drm) cv (fvScale v (i.c.rs sx).toInt) env) i.ext i.t.env
    let s := i.put td (d.write els []) e
    .done (if clr then s.modTeam i.t.uid (fun t => t.putAcc as
      (i.ext.foldl (fun (x : Acc) rc => x.put (fld16 w 0 + rc.1) (fld16 w 1 + rc.2) 0) x)) else s)

/-- AWR: its checks; E8M0 and trit are neither float nor integer types (log 20). -/
def acceptAwr (i : TIn) (ad : AReg) (ta : Src) (sw : SReg) : Chk Unit := do
  let a ← i.t.srcNoStream ta.t
  i.t.accOk ad
  must (windowOk i sw)
  must (a.geo.dense && (isInt a.geo.etype || (isFlt a.geo.etype && !(i.t.accOf ad).int)) &&
    (!i.c.live || a.geo.holds i.c.er i.c.ec))
  must (!i.c.live || slotsFit i.t [] [ta.t])
/-- The new element of AWR: the code and the flags (R200); FA80 rounding sets no flag (log 21). -/
def awrEl (accInt add : Bool) (k : EClass) (old : Nat) (x : Nat) : Nat × Flags :=
  let v := (readElem k x).1
  if accInt then
    match v with
    | .int y =>
      let (z, c) := clampInt (intMin 80 true) (intMax 80 true) ((if add then intOf 80 true old else 0) + y)
      (intCode 80 z, flIf c flSAT)
    | _ => (old, 0)
  else
    let y := (match v with
      | .int y => fvOfInt y
      | .flt y => y)
    if add then
      let (z, fl) := fvAdd 0 (fa80.dec old) y
      (fa80Round z, fl)
    else (fa80Round y, flIf y.isSig flNV)
/-- AWR (R200). -/
def runAwr (i : TIn) (add : Bool) (ad : AReg) (ta : Src) (sw : SReg) : Run :=
  if !i.c.live then .done i.s
  else
    let a := i.rd ta.t
    let x := i.t.accOf ad
    let w := i.c.rs sw
    let (y, fl) := i.ext.foldl (fun (p : Acc × Flags) rc =>
      let r := fld16 w 0 + rc.1
      let c := fld16 w 1 + rc.2
      let (v, f) := awrEl x.int add (cls a.geo.etype) (p.1.el r c) (a.el rc.1 rc.2)
      (p.1.put r c v, p.2 ||| f)) (x, 0)
    .done (i.s.putTeam ((i.t.putAcc ad y).applyEnv ⟨i.t.lfsr, fl⟩))

/-- AMAXA: its checks. -/
def acceptAmaxa (i : TIn) (acc : Bool) (td : TReg) (as : AReg) (sw : SReg) : Chk Unit := do
  let d ← i.t.dst td
  i.t.accOk as
  must (windowOk i sw)
  must (d.geo.dense && d.geo.etype == 0x10 && (!i.c.live || d.geo.holds i.c.er i.c.ec))
  must (!i.c.live || slotsFit i.t [d.geo] (if acc then [td] else []))
/-- The magnitude of an accumulator row, in FP32 rounded up (R201). -/
def amaxaRow (x : Acc) (r c0 n : Nat) (env : Env) : Nat × Env :=
  let els := (List.range n).map (fun c => x.el r (c0 + c))
  if x.int then
    let m := els.foldl (fun m e => Nat.max m (intOf 80 true e).natAbs) 0
    let (c, fl) := roundV fp32 false 3 0 (.fin false m 0) false
    (c, env.flag fl)
  else
    let (m, fl) := (els.drop 1).foldl (fun (p : Nat × Flags) e =>
      let (y, f) := fmaxabs fa80 p.1 e
      (y, p.2 ||| f)) (els.headD 0, 0)
    let (c, f2) := roundV fp32 false 3 0 (fvAbs (fa80.dec m)) false
    (c, env.flag (fl ||| f2))
/-- AMAXA (R201). -/
def runAmaxa (i : TIn) (acc : Bool) (td : TReg) (as : AReg) (sw : SReg) : Run :=
  if !i.c.live then .done i.s
  else
    let d := i.rd td
    let x := i.t.accOf as
    let w := i.c.rs sw
    let (els, e) := runEls (fun r _ env =>
      let (m, env) := amaxaRow x (fld16 w 0 + r) (fld16 w 1) i.c.ec env
      if acc then
        let (m, fl) := fmaxabs fp32 (d.el r 0) m
        (m, env.flag fl)
      else (m, env)) ((List.range i.c.er).map (fun r => (r, 0))) i.t.env
    .done (i.put td (d.write els []) e)

/-- TSCL: its checks (R202); it uses EXT only. -/
def acceptTscl (i : TIn) (ta : Src) : Chk Unit := do
  let a ← i.t.srcNoStream ta.t
  must (a.geo.dense && a.geo.etype == 0x10 && (i.c.er == 0 || a.geo.holds i.c.er 1))
  must (i.c.er == 0 || slotsFit i.t [] [ta.t])
/-- The largest exponent of TSCL's target. -/
def tsclEmax (tgt : BitVec 2) : Int :=
  match tgt.toNat with
  | 0 => 8
  | 1 => 15
  | _ => 2
/-- TSCL (R202). -/
def runTscl (i : TIn) (tgt gc : BitVec 2) (en : EReg) (ta : Src) : Run :=
  if i.c.er = 0 then .done i.s
  else
    let a := i.rd ta.t
    let bytes := kmapOf (0x7F : Byte) ((List.range (min 64 i.c.er)).map (fun r =>
      (r, BitVec.ofNat 8 (scaleCode (tsclEmax tgt) (fp32.dec (a.el r 0))))))
    .done (i.s.putTeam { i.t with scale := i.t.scale.set en.toFin ⟨gc, bytes⟩ })

/-! ### The engines (R203 to R205) -/

/-- Elements of a tile by position (R203). -/
def Tile.positions (x : Tile) (vs : List Nat) : Tile :=
  x.write (vs.zipIdx.map (fun p => (p.2 / x.geo.cols, p.2 % x.geo.cols, p.1))) []

/-- The id types of ROUTE. -/
def idType (e : BitVec 5) : Bool :=
  match e.toNat with
  | 1 | 2 | 3 | 6 | 7 | 8 => true
  | _ => false

/-- ROUTE: its checks. -/
def acceptRoute (i : TIn) (td tc : TReg) (ti : Src) (se : SReg) : Chk Unit := do
  let a ← i.t.srcNoStream ti.t
  let d ← i.t.dst td
  let c ← i.t.dst tc
  let e := (i.c.rs se).toNat
  must (decide (1 ≤ e) && decide (e ≤ 1024) && decide (i.c.ec ≤ 16))
  must (idType a.geo.etype && a.geo.dense && isIdx32 d.geo.etype && d.geo.dense && isIdx32 c.geo.etype && c.geo.dense &&
    (!i.c.live || a.geo.holds i.c.er i.c.ec) && decide (i.c.er * i.c.ec ≤ d.geo.rows * d.geo.cols) &&
    decide (e ≤ c.geo.rows * c.geo.cols))
  must (!i.c.live || slotsFit i.t [d.geo, c.geo] [ti.t])
/-- The assignments of each expert: token order, then choice order. -/
def routeLists (er ec e : Nat) (id : Nat → Nat → Int) : List (List Nat) :=
  (List.range e).map (fun (x : Nat) => ((coords er ec).filter (fun rc => id rc.1 rc.2 == (x : Int))).map (fun rc => rc.1 * ec + rc.2))
/-- ROUTE (R203). Where td and tc name one tile, which R203 does not speak of, the counts stay: the model's choice (log 110). -/
def runRoute (i : TIn) (td tc : TReg) (ti : Src) (se : SReg) : Run :=
  if !i.c.live then .done (i.s.putTeam (i.t.push 0))
  else
    let a := i.rd ti.t
    let ls := routeLists i.c.er i.c.ec (i.c.rs se).toNat (fun r c => intEl a.geo.etype (a.el r c))
    let t := (i.t.putTile td (some ((i.rd td).positions ls.flatten))).putTile tc
      (some ((i.rd tc).positions (ls.map List.length)))
    .done (i.s.putTeam (t.push (BitVec.ofNat 64 ls.flatten.length)))

/-- ABLK: its checks. -/
def acceptAblk (i : TIn) (fp8 : Bool) (td : TReg) (ta : Src) (ss sp : SReg) : Chk Unit := do
  let a ← i.t.srcNoStream ta.t
  let m ← i.t.dst td
  let f : BitVec 2 := if fp8 then 1 else 0
  let d := mdims (i.c.rs ss) (i.c.rs sp)
  must (d.fits (i.c.rs ss) i.t.resB && d.ac == 0)
  must (m.geo.dense && (m.geo.etype == 0x01 || m.geo.etype == 0x06) && fmtType f a.geo.etype &&
    fmtLayout f a.geo.layout && i.t.resB.ok (fmtType f) true d &&
    (!d.live || (a.geo.holds d.m d.k && m.geo.holds d.m d.n)))
  must (!d.live || slotsFit i.t [m.geo] [ta.t])
/-- Whether score `x` at `j` ranks before `y` at `l` (R204). -/
def ranksBefore (x : FV) (j : Nat) (y : FV) (l : Nat) : Bool :=
  if x.isNan then y.isNan && decide (j < l)
  else if y.isNan then true
  else
    let c := fvCmp x y
    decide (c > 0) || (c == 0 && decide (j < l))
/-- The kept columns of one row of scores. -/
def ablkKeep (k : Nat) (elig : List (Nat × FV)) (j : Nat) : Bool :=
  match elig.find? (fun p => p.1 == j) with
  | none => false
  | some (_, x) => decide ((elig.filter (fun p => ranksBefore p.2 p.1 x j)).length < k)
/-- ABLK (R204). -/
def runAblk (i : TIn) (fp8 causal : Bool) (td : TReg) (ta : Src) (ss sp : SReg) (k : BitVec 8) : Run :=
  let f : BitVec 2 := if fp8 then 1 else 0
  let d := mdims (i.c.rs ss) (i.c.rs sp)
  if !d.live then .done i.s
  else
    let a := i.rd ta.t
    let d0 := ((i.c.rs sp).extractLsb' 48 16).toInt
    let cols := i.t.resB.floats d
    let row := fun (r : Nat) =>
      let codes := (List.range d.k).map (a.el r)
      let (x, fl) := floatRow { d with ar := 0, ac := 0 } (fmtOf a.geo.etype) (fmtOf i.t.resB.btype) (fmtW f) 0 codes
        (a.rowScales d.k r) cols Acc.init 0
      ((List.range d.n).map (fun j => (j, fa80.dec (x.el 0 j))), fl)
    let rows := (List.range d.m).map row
    let els := rows.zipIdx.flatMap (fun p =>
      let elig := p.1.1.filter (fun q => !causal || decide ((q.1 : Int) ≤ p.2 + d0))
      (List.range d.n).map (fun j => (p.2, j, if ablkKeep k.toNat elig j then 1 else 0)))
    .done (i.put td ((i.rd td).write els []) ⟨i.t.lfsr, rows.foldl (fun f p => f ||| p.2) 0⟩)

/-- IWALK: its checks (R205); a trit tile is no integer tile (log 20). -/
def acceptIwalk (i : TIn) (td tc : TReg) (tm : Src) (ss : SReg) : Chk Unit := do
  let m ← i.t.srcNoStream tm.t
  let d ← i.t.dst td
  let c ← i.t.dst tc
  must (decide ((i.c.rs ss).toNat ≤ i.c.er * i.c.ec))
  must (((m.geo.dense && isInt m.geo.etype) || m.geo.packed) && isIdx32 d.geo.etype && d.geo.dense &&
    isIdx32 c.geo.etype && c.geo.dense && d.geo.rows == c.geo.rows && d.geo.cols == c.geo.cols &&
    (!i.c.live || m.geo.holds i.c.er i.c.ec))
  must (!i.c.live || slotsFit i.t [d.geo, c.geo] [tm.t])
/-- IWALK (R205). Where td and tc name one tile, which R205 does not speak of, the column indices stay: the model's choice
(log 110). -/
def runIwalk (i : TIn) (td tc : TReg) (tm : Src) (ss sx : SReg) : Run :=
  if !i.c.live then .done (i.s.putTeam (i.t.push 0))
  else
    let m := i.rd tm.t
    let d := i.rd td
    let (row0, col0) := originOf (i.c.rs sx)
    let isSet := fun (rc : Nat × Nat) => if m.geo.packed then m.bit rc.1 rc.2 else nonZero m.geo.etype (m.el rc.1 rc.2)
    let hits := (i.ext.zipIdx.drop (i.c.rs ss).toNat).filter (fun p => isSet p.1)
    let cap := d.geo.rows * d.geo.cols
    let take := hits.take cap
    let pos := (match hits[cap]? with
      | some p => p.2
      | none => i.c.er * i.c.ec)
    let t := (i.t.putTile td (some (d.positions (take.map (fun p => (row0 + p.1.1) % 2 ^ 32))))).putTile tc
      (some ((i.rd tc).positions (take.map (fun p => (col0 + p.1.2) % 2 ^ 32))))
    .done (i.s.putTeam (t.push (BitVec.ofNat 64 (take.length + pos * 2 ^ 32))))

end Sys2Proof.Machine
end

