-- ==== Sys2Proof/Machine/Updates.lean ====
section
/-!
DEFINITION. Update streams (R314 to R322): the hand-off of pairs to casks, spilling and the lees area, boundaries that
need the update queue drained, and UPD.
-/

namespace Sys2Proof.Machine

/-! ### Casks and runs (R320, R322) -/

/-- The device address of a region word by its page's frame, whatever the state of the page. -/
def Ctx.wordAddr (c : Ctx) (r : Region) (idx : Nat) : Nat :=
  let va := r.base + idx * opWidth r.op.toNat
  winFrame (c.winEntry ((va - winBase) / winPage)) + va % winPage

/-- Runs that a context holds on a stack, oldest first. -/
def Pkg.runsOf (k : Pkg) (ctx : CtxId) (stack : Nat) : List Nat :=
  k.keys.foldl (fun acc e => match e.run with
    | some n => if e.ctx == ctx && e.stack == stack && !acc.contains n then acc ++ [n] else acc
    | none => acc) []

/-- Inserts a name into a rising list. -/
def insertNat (n : Nat) : List Nat → List Nat
  | [] => [n]
  | x :: xs => if n ≤ x then n :: x :: xs else x :: insertNat n xs

/-- Sorts names. -/
def sortNats (l : List Nat) : List Nat := l.foldl (fun a n => insertNat n a) []

/-- The cask of a device address: one of the 262,144 of its stack's Press (R294, R320). -/
def caskOf (a : Nat) : Nat := Config.caskHash (stackOffset a) % 262144

/-- The keys that stand in a cask, out of runs. -/
def Pkg.caskKeys (k : Pkg) (stack cask : Nat) : List PressKey :=
  k.keys.filter (fun e => e.stack == stack && e.cask == cask && e.run.isNone)

/-- Racks the performed keys that satisfy `p`. -/
def State.rackKeysOf (s : State) (pk : PkgNo) (p : PressKey → Bool) : State :=
  ((s.pkg pk).keys.filter (fun e => e.owner.isNone && p e)).foldl (fun s e => s.rackWord pk e.ctx e.handle e.idx) s

/-- Racks performed keys run by run, oldest first, until fewer than `lim` runs are held (R322). -/
def State.freeRuns (pk : PkgNo) (ctx : CtxId) (stack lim : Nat) : List Nat → State → State
  | [], s => s
  | n :: ns, s =>
    if ((s.pkg pk).runsOf ctx stack).length < lim then s
    else State.freeRuns pk ctx stack lim ns (s.rackKeysOf pk (fun e => e.run == some n))

/-- One more spill of a region. -/
def Region.spilled (r : Region) : Region := { r with spills := min (r.spills + 1) (2 ^ 32 - 1) }

/-- The SPILLS count of a region of a context rises. -/
def Pkg.countSpill (k : Pkg) (ctx : CtxId) (h : Nat) : Pkg :=
  match kfind k.ctxs ctx.toNat with
  | some c => (match kfind c.regions h with
    | some r => { k with ctxs := kput k.ctxs ctx.toNat { c with regions := kput c.regions h r.spilled } }
    | none => k)
  | none => k

/-- Writes the 4 least recently used keys of a cask as one run (R320); the SPILLS count of each region rises, once
for each context in the run (log 100). -/
def State.spill (s : State) (pk : PkgNo) (stack cask : Nat) : State :=
  s.modPkg pk (fun k =>
    let old := (sortNats ((k.caskKeys stack cask).map (·.used))).take 4
    let out := fun (e : PressKey) => e.stack == stack && e.cask == cask && e.run.isNone && old.contains e.used
    let hs := ((k.keys.filter out).map (fun e => (e.ctx, e.handle))).eraseDups
    let k := { k with keys := k.keys.map (fun e => if out e then { e with run := some k.nextRun } else e),
                      nextRun := k.nextRun + 1 }
    hs.foldl (fun k ch => k.countSpill ch.1 ch.2) k)

/-- Makes room for one key in a cask; none when the Press cannot take it (R322). -/
def State.caskRoom (s : State) (pk : PkgNo) (c : Ctx) (stack cask : Nat) : Option State :=
  if ((s.pkg pk).caskKeys stack cask).length < 8 then some s
  else
    let s := State.freeRuns pk c.id stack c.leesRuns (sortNats ((s.pkg pk).runsOf c.id stack)) s
    if ((s.pkg pk).runsOf c.id stack).length < c.leesRuns then some (s.spill pk stack cask)
    else
      let s := s.rackKeysOf pk (fun e => e.stack == stack && e.cask == cask && e.run.isNone)
      if ((s.pkg pk).caskKeys stack cask).length < 8 then some s else none

/-- One pair reaches the Press of its word's stack: it joins its pending key or takes a new one (R320). -/
def State.pressTake (s : State) (pk : PkgNo) (ctx : CtxId) (uid : Nat) (u : Pair) : Option State :=
  match s.ctx? pk ctx with
  | none => some s
  | some c =>
    match kfind c.regions u.handle with
    | none => some s
    | some r =>
      let own := some (uid, u.gid, u.ph)
      let same := fun (e : PressKey) => e.ctx == ctx && e.handle == u.handle && e.idx == u.idx && e.owner == own
      let stamp := s.nextId
      let s := { s with nextId := stamp + 1 }
      if (s.pkg pk).keys.any same then
        some (s.modPkg pk (fun k =>
          { k with keys := k.keys.map (fun e => if same e then { e with ups := e.ups ++ [u], used := stamp } else e) }))
      else
        let a := c.wordAddr r u.idx
        let stack := stackOf a
        let cask := caskOf a
        match s.caskRoom pk c stack cask with
        | none => none
        | some s =>
          some (s.modPkg pk (fun k => { k with keys := k.keys ++
            [{ ctx, handle := u.handle, idx := u.idx, stack, cask, owner := own, ups := [u], run := none, used := stamp }] }))

/-- Hands on up to `n` pairs of a team's update queue (R319), stopping at a Press that cannot take one. -/
def State.handOffN (uid : Nat) : Nat → State → State
  | 0, s => s
  | n + 1, s =>
    match s.team? uid with
    | none => s
    | some t =>
      match t.updq with
      | [] => s
      | u :: us =>
        match s.pressTake t.pkg t.ctx uid u with
        | none => s
        | some s => State.handOffN uid n (s.modTeam uid (fun t => { t with updq := us }))

/-- Hands on what the Press takes of the whole queue. -/
def State.handOffAll (s : State) (uid : Nat) : State :=
  match s.team? uid with
  | some t => State.handOffN uid t.updq.length s
  | none => s

/-- Whether a team's update queue is empty. -/
def State.updEmpty (s : State) (uid : Nat) : Bool :=
  match s.team? uid with
  | some t => t.updq.isEmpty
  | none => true

/-- Whether the Press takes every pair of a team's update queue now; while it does not, the update instruction that hands them
on stalls (R319, R322). -/
def State.pressTakes (s : State) (uid : Nat) : Bool := (s.handOffAll uid).updEmpty uid

/-- A boundary that other publications are stated to precede; it needs every pair handed on (R321), and is none while the
Press cannot take one. -/
def State.boundaryAfter (s : State) (uid : Nat) (sc : ScopeCode) (prec : List Nat) : Option State :=
  let s := s.handOffAll uid
  if s.updEmpty uid then
    let (s, b) := s.publish uid sc false false
    some (s.complete uid sc b prec)
  else none

/-! ### UPD (R316, R318, R319) -/

/-- The unperformed pairs of a team. -/
def State.unperformed (s : State) (t : Team) : Nat :=
  t.updq.length + (((s.pkg t.pkg).keys.filter (fun e => match e.owner with
    | some (u, _, _) => u == t.uid
    | none => false)).map (fun e => e.ups.length)).sum

/-- Whether a registration by the host is not visible to a team yet: it is after the team's next CFENCE.host.team (R388,
log 93). -/
def Ctx.hidden (c : Ctx) (t : Team) (table : Bool) (h : Nat) : Bool :=
  c.hostSets.any (fun x => x.2.1 == table && x.2.2 == h && !t.seen.contains x.1)

/-- A registration that the host makes through HOST.SVC, which stands for team 0. -/
def State.noteHost (s : State) (t : Team) (table : Bool) (h : Nat) : State :=
  if t.uid = 0 then
    { s with nextId := s.nextId + 1 }.modCtx t.pkg t.ctx (fun c => { c with hostSets := c.hostSets ++ [(s.nextId, table, h)] })
  else s

/-- The region of a handle for a team. -/
def State.region? (s : State) (t : Team) (rh : BitVec 10) : Option Region :=
  match s.teamCtx? t with
  | some c => if rh = 0 || c.hidden t false rh.toNat then none else kfind c.regions rh.toNat
  | none => none

/-- The value tile types of an operator (Table 13.1). -/
def updType (op : Nat) (e : BitVec 5) : Bool :=
  let sgn := e == 0x01 || e == 0x02 || e == 0x03 || e == 0x04
  let uns := e == 0x06 || e == 0x07 || e == 0x08 || e == 0x09
  match op with
  | 0 | 7 | 8 | 9 => e == 0x10
  | 1 => e == 0x0F || e == 0x10
  | 2 | 3 | 4 => sgn
  | 5 | 6 => uns
  | 10 | 11 | 12 | 13 => sgn || uns
  | _ => false

/-- The value of an element as a pair carries it. -/
def updValue (e : BitVec 5) (x : Nat) : Word :=
  match cls e with
  | .int b sg => BitVec.ofInt 64 (intOf b sg x)
  | .flt f => if f = bf16 then BitVec.ofNat 64 (x * 65536) else BitVec.ofNat 64 x
  | _ => 0

/-- UPD: its checks at acceptance. The quota counts the rows from the restart row on: a forced save has left the rows before
it among the unperformed pairs (R318, R319). -/
def acceptUpd (i : TIn) (ti tv : Src) (rh : BitVec 10) : Chk Unit := do
  let x ← i.t.srcNoStream ti.t
  let v ← i.t.srcNoStream tv.t
  i.extChk [x.geo, v.geo] [] [ti.t, tv.t] (do
    match i.s.region? i.t rh with
    | none => illOp
    | some r => must (x.geo.dense && isIdx32 x.geo.etype && v.geo.dense && updType r.op.toNat v.geo.etype))
  must (!i.c.live || decide ((i.c.er - i.xrow) * i.c.ec + i.s.unperformed i.t ≤ 2 ^ 20))

/-- The check of one element on the update path: whether it is dropped. -/
def updChk (c : Ctx) (r : Region) (strict : Bool) (idx : Nat) : Chk Bool :=
  if r.len ≤ idx then (if strict then failK kUpdIdx .upd else .ok true)
  else
    let va := r.base + idx * opWidth r.op.toNat
    match xlChk (c.winXlate .update va) .upd .update va with
    | .ok _ => .ok false
    | .error f => .error f

/-- Records the first dropped index (Table 4.4). -/
def updfDrop (updf : Word) (r c : Nat) : Word :=
  if updf.getLsbD 32 then updf else BitVec.ofNat 64 (2 ^ 32 + r * 2 ^ 16 + c)

/-- Puts pairs into a team's update queue with their order keys (R314). -/
def Team.emit (t : Team) (rh : BitVec 10) (ps : List (Nat × Word)) : Team :=
  { t with updSeq := t.updSeq + ps.length,
           updq := t.updq ++ ps.zipIdx.map (fun p => ⟨rh.toNat, p.1.1, p.1.2, t.phc, t.gid, t.updSeq + p.2⟩) }

/-- The element checks of UPD, row-major from the restart row. -/
def updChks (i : TIn) (c : Ctx) (r : Region) (strict : Bool) (ti : Src) : List (Chk (Nat × Nat × Bool)) :=
  let x := i.rd ti.t
  (i.ext.drop (i.xrow * i.c.ec)).map (fun rc =>
    mapFault (fun f => { f with xrow := some (BitVec.ofNat 16 i.xrow) }) (atEl (some ti.t) 0 rc.1 rc.2 (do
      let d ← updChk c r strict (x.el rc.1 rc.2)
      .ok (rc.1, rc.2, d))))

/-- A UPD that has begun makes no check again: whether each element from the restart row on is dropped. -/
def updRest (i : TIn) (r : Region) (ti : Src) : List (Nat × Nat × Bool) :=
  (i.ext.drop (i.xrow * i.c.ec)).map (fun rc => (rc.1, rc.2, decide (r.len ≤ (i.rd ti.t).el rc.1 rc.2)))

/-- The state with rows of a UPD in the update queue: all from the restart row on, or the next one (`one`); `es` tells which
elements are dropped. -/
def placedRows (i : TIn) (ti tv : Src) (rh : BitVec 10) (es : List (Nat × Nat × Bool)) (one : Bool) : State :=
  let x := i.rd ti.t
  let v := i.rd tv.t
  let updf := es.foldl (fun u e => if e.2.2 then updfDrop u e.1 e.2.1 else u) i.t.updf
  let now := if one then es.filter (fun e => e.1 == i.xrow) else es
  let ps := (now.filter (fun e => !e.2.2)).map (fun e => (x.el e.1 e.2.1, updValue v.geo.etype (v.el e.1 e.2.1)))
  i.s.putTeam ({ i.t with updf := updf }.emit rh ps)

/-- Places the rows of a UPD into the update queue (R316, R319): all from the restart row on, or the next one. While the Press
cannot take what the queue holds, no further row is placed, and after its last row the UPD does not complete. -/
def placeRows (i : TIn) (ti tv : Src) (rh : BitVec 10) (es : List (Nat × Nat × Bool)) : Run :=
  let whole := placedRows i ti tv rh es false
  if !i.s.pressTakes i.t.uid then .stall (i.s.handOffAll i.t.uid)
  else if decide (i.xrow + 1 < i.c.er) && (i.step || !whole.pressTakes i.t.uid) then
    .part (placedRows i ti tv rh es true) (i.xrow + 1)
  else if whole.pressTakes i.t.uid then .done whole
  else .part (whole.handOffAll i.t.uid) i.c.er

/-- UPD (R316, R319), with the region read at acceptance. -/
def runUpd (i : TIn) (strict : Bool) (ti tv : Src) (rh : BitVec 10) : Run :=
  if !i.c.live then .done i.s
  else match i.s.teamCtx? i.t, i.region with
    | some c, some r =>
      if i.begun then placeRows i ti tv rh (updRest i r ti)
      else
        match allChk (updChks i c r strict ti) with
        | .ok es => placeRows i ti tv rh es
        | .error (.fault f) => .fail i.s f
        | .error .walk => .walk
        | .error .stall => .stall i.s
    | _, _ => .done i.s

end Sys2Proof.Machine
end

