-- ==== Sys2Proof/Machine/Messages.lean ====
section
/-!
DEFINITION. Receive queues (R242, R245, R248) and the tile messages
SENDT and RECVT (R243 to R246).
-/

namespace Sys2Proof.Machine

/-! ### Receive queues (R242, R248) -/

/-- Entries of one kind in a receive queue. -/
def rqRoom (part : BitVec 2) (tile : Bool) : Nat := if tile then 32 / 2 ^ part.toNat else 32

/-- Whether a receive queue has a free entry of a kind. -/
def rqFree (q : List Msg) (part : BitVec 2) (tile : Bool) : Bool :=
  decide ((q.filter (fun m => m.tile == tile)).length < rqRoom part tile)

/-- Whether a message matches a receive (R246): of 11 source bits in the cluster, 25 in the fabric. -/
def Msg.matches (m : Msg) (tile : Bool) (w : Wild) (src : Gid) (tag : BitVec 16) : Bool :=
  m.delivered && m.tile == tile && (w.anySrc || m.src == src) && (w.anyTag || m.tag == tag)

/-- Delivers every message on its way, before a save (R227) or a queue reset (R302), in the order of acceptance. Between
different senders, for which R245 allows any order, that is the model's choice (log 108). -/
def deliverAll (q : List Msg) : List Msg :=
  q.filter (·.delivered) ++ (q.filter (fun m => !m.delivered)).map (fun m => { m with delivered := true })

/-- Delivers the messages whose time is up (R244), and with them every earlier one of their sender (R245, R366). -/
def deliverDue (now : Nat) (q : List Msg) : List Msg :=
  let up := fun (m : Msg) => !m.delivered &&
    q.any (fun n => !n.delivered && n.src == m.src && decide (m.order ≤ n.order) && decide (n.due ≤ now))
  q.filter (fun m => !up m) ++ (q.filter up).map (fun m => { m with delivered := true })

/-- Delivers the oldest message on its way of one sender; of which one, `n` chooses (R245). -/
def deliverOne (n : Nat) (q : List Msg) : List Msg :=
  let first := q.filter (fun m => !m.delivered && !q.any (fun k => !k.delivered && k.src == m.src && decide (k.order < m.order)))
  match first[n % first.length]? with
  | some m => q.filter (fun n => n.order != m.order) ++ [{ m with delivered := true }]
  | none => q

/-- Time passes for a team's receive queues: every message whose time is up is delivered (R244, R364). -/
def Team.deliver (now : Nat) (t : Team) : Team := { t with rq := deliverDue now t.rq, frq := deliverDue now t.frq }

/-- The oldest delivered message that a receive matches, and the queue without it (R246). -/
def rqTake (q : List Msg) (tile : Bool) (w : Wild) (src : Gid) (tag : BitVec 16) : Option (Msg × List Msg) :=
  (q.find? (fun m => m.matches tile w src tag)).map (fun m => (m, q.filter (fun n => n.order != m.order)))

/-! ### Sending in the cluster (R244) -/

/-- The source of a cluster message: core and team. -/
def srcOf (g : Gid) : Gid := (g.extractLsb' 0 11).zeroExtend 25

/-- The team that a SEND addresses, and whether it is saved: a placed or saved team of the context that has not
joined. -/
def State.sendTarget (s : State) (t : Team) (route : Word) (team : BitVec 3) : Chk (Team × Bool) :=
  match follow (s.mapOf t.gid) route (gidCore t.gid).toNat with
  | none => failK kRoute .send
  | some c =>
    let g := mkGid t.pkg (gidDie t.gid) (gidClu t.gid) (BitVec.ofNat 8 c) team
    match s.teamAt? t.ctx g with
    | some u => if u.status = .joined then failK kAccess .send else .ok (u, false)
    | none =>
      match s.saved.find? (fun v => v.team.ctx == t.ctx && v.team.gid == g && v.team.status != .joined) with
      | some v => .ok (v.team, true)
      | none => failK kAccess .send

/-- The publications that precede a team's next boundary, its own included. -/
def State.lastOf (s : State) (uid : Nat) : List Nat :=
  match s.team? uid with
  | some t => t.lastPub
  | none => []

/-- The send of a message to a checked target: reservation, boundary at .clu, delivery on its way (R244). The message
comes with its place still open. None while the boundary waits for the Press. -/
def State.sendMsg (s : State) (t : Team) (u : Team) (saved : Bool) (m : Msg) : Option (State × Bool) :=
  let ok := !saved && !u.preq && rqFree u.rq u.part m.tile
  match s.boundaryAfter t.uid 2 [] with
  | none => none
  | some s =>
    if ok then
      let m := { m with order := s.nextId, prec := s.lastOf t.uid, due := s.now + nsCycles 400, delivered := false }
      some ({ s with nextId := s.nextId + 1 }.modTeam u.uid (fun u => { u with rq := u.rq ++ [m] }), true)
    else some (s, false)

/-- A scalar message. -/
def scalarMsg (src : Gid) (tag : BitVec 16) (v : Word) : Msg :=
  { order := 0, tile := false, src, tag, payload := v, geo := ⟨0, 0, 0, 0, 0⟩, elems := [], scales := [], bytes := [],
    prec := [], due := 0, delivered := false, hops := [] }

/-- A tile message of the extent: elements in row-major order, those of a touched segment beyond EXTC zero, and the
scales of the touched segments. -/
def tileMsg (src : Gid) (tag : BitVec 16) (x : Tile) (er ec : Nat) : Msg :=
  { scalarMsg src tag 0 with
    tile := true, geo := { x.geo with rows := er, cols := ec },
    elems := (coords er ec).map (fun rc => BitVec.ofNat 64 (x.el rc.1 rc.2)),
    scales := if x.geo.mx then (x.touched er ec).map (·.2.2) else [] }

/-- The payload bytes of a tile message (R244). -/
def payloadBytes (g : Geo) (er ec : Nat) : Nat :=
  er * ((ec * ebits g.etype + 7) / 8) + (if g.mx then er * ((ec + 31) / 32) else 0)

/-- Writes a guard from the tile side (R112). -/
def Team.putG (t : Team) (k : GReg) (b : Bool) : Team := { t with g := setBit t.g k.toNat b }

/-- SENDT: its checks. -/
def acceptSendt (i : TIn) (ta : Src) : Chk Unit := do
  let a ← i.t.src ta.t
  i.extChk [a.geo] [] [ta.t]
    (must ((a.geo.dense || a.geo.mx) && decide (payloadBytes a.geo i.c.er i.c.ec ≤ 4096)))
/-- SENDT (R244). -/
def runSendt (i : TIn) (k : GReg) (ta : Src) (sr : SReg) (team : BitVec 3) (tag : BitVec 16) : Run :=
  if i.c.live && !i.t.streamsReady i.c.er [ta.t] then .stall i.s
  else match i.s.sendTarget i.t (i.c.rs sr) team with
    | .error (.fault f) => .fail i.s f
    | .error .walk => .walk
    | .error .stall => .stall i.s
    | .ok (u, saved) =>
      let a := i.rd ta.t
      match i.s.sendMsg i.t u saved (tileMsg (srcOf i.t.gid) tag a.fixed i.c.er i.c.ec) with
      | none => .stall (i.s.handOffAll i.t.uid)
      | some (s, ok) => .done ((s.modTeam i.t.uid (fun t =>
          (if i.c.live then t.consume i.c.er [ta.t] else t).putG k ok)).tritRead i.t.uid a.geo.etype
            ((coords i.c.er i.c.ec).map (fun rc => a.el rc.1 rc.2)))

/-- The source operand of a receive in the cluster (Table 9.3): its reserved bits are zero. -/
def srcOperandOk (v : Word) : Bool := v.extractLsb' 11 53 == 0

/-- RECVT: its checks. -/
def acceptRecvt (i : TIn) (td : TReg) (sm : SReg) : Chk Unit := do
  let _ ← i.t.dst td
  must (srcOperandOk (i.c.rs sm))

/-- The tile that a message writes into a binding (R246). -/
def Msg.into (m : Msg) (d : Tile) : Tile :=
  if m.geo.rows = 0 ∨ m.geo.cols = 0 then d
  else d.loaded (((coords m.geo.rows m.geo.cols).zip m.elems).map (fun p => (p.1.1, p.1.2, p.2.toNat)))
    (((coords m.geo.rows m.geo.segs).zip m.scales).map (fun p => (p.1.1, p.1.2, p.2)))

/-- RECVT (R246). -/
def runRecvt (i : TIn) (w : Wild) (td : TReg) (sm : SReg) (tag : BitVec 16) : Run :=
  match rqTake i.t.rq true w ((i.c.rs sm).truncate 25) tag with
  | none => .stall i.s
  | some (m, q) =>
    let d := i.rd td
    if m.geo.etype != d.geo.etype || m.geo.layout != d.geo.layout || !d.geo.holds m.geo.rows m.geo.cols then
      runChk i.s (illOpTile td)
    else
      match (i.s.modTeam i.t.uid (fun t => { t with rq := q })).boundaryAfter i.t.uid 2 m.prec with
      | none => .stall (i.s.handOffAll i.t.uid)
      | some s => .done (s.modTeam i.t.uid (fun t => ((t.putTile td (some (m.into d))).push
        (BitVec.ofNat 64 (m.geo.rows * 2 ^ 48 + m.geo.cols * 2 ^ 32 + m.src.toNat * 2 ^ 16 + m.tag.toNat)))))

end Sys2Proof.Machine
end

