-- ==== Sys2Proof/Machine/Record.lean ====
section
/-!
DEFINITION. The launch record's fields (Tables 18.1 and 18.2), groups and their members (R241, R249, R368).
-/

namespace Sys2Proof.Machine

/-- A doubleword of a record. -/
def recD (r : List Word) (n : Nat) : Word := r.getD n 0

def recEntry (r : List Word) : Word := (recD r 0).extractLsb' 0 52 |>.zeroExtend 64
def recArgs (r : List Word) : Nat := ((recD r 1).extractLsb' 0 52).toNat
def recLft (r : List Word) : BitVec 52 := (recD r 2).extractLsb' 0 52
def recFcq (r : List Word) : Nat := ((recD r 3).extractLsb' 0 52).toNat
def recCpl (r : List Word) : Nat := ((recD r 4).extractLsb' 0 52).toNat
def recSeed (r : List Word) : BitVec 32 := (recD r 5).extractLsb' 32 32
def recGraph (r : List Word) : BitVec 16 := (recD r 5).extractLsb' 16 16
def recRange (r : List Word) : Nat := ((recD r 6).extractLsb' 32 32).toNat
def recShare0 (r : List Word) : Nat := ((recD r 6).extractLsb' 0 32).toNat
def recStride (r : List Word) : Nat := ((recD r 7).extractLsb' 0 32).toNat
def recSer (r : List Word) : Bool := (recD r 8).getLsbD 16
/-- Levels. -/
def recLevels (r : List Word) : Nat := ((recD r 8).extractLsb' 13 3).toNat + 1
def recDl (r : List Word) : Nat := ((recD r 8).extractLsb' 11 2).toNat
def recSys (r : List Word) : Bool := (recD r 8).getLsbD 10
def recDeque (r : List Word) : Bool := (recD r 8).getLsbD 9
def recPart (r : List Word) : BitVec 2 := (recD r 8).extractLsb' 7 2
def recSlip (r : List Word) : BitVec 7 := (recD r 8).extractLsb' 0 7

/-- The entry of a level (Table 18.2). -/
def recLevel (r : List Word) (i : Nat) : BitVec 32 := (recD r (9 + i / 2)).extractLsb' (32 * (i % 2)) 32
def levDomain (e : BitVec 32) : Nat := (e.extractLsb' 29 3).toNat
def levScope (e : BitVec 32) : ScopeCode := e.extractLsb' 26 3
def levCount (e : BitVec 32) : Nat := (e.extractLsb' 0 16).toNat

/-- The widest scope that any level names (Table 4.8, R252). -/
def recScope (r : List Word) : ScopeCode :=
  (List.range (recLevels r)).foldl (fun s i => scopeMax s (levScope (recLevel r i))) 0

/-- Whether a level's scope contains its domain (R249, R368). -/
def levScopeOk (e : BitVec 32) : Bool := decide (levDomain e ≤ (levScope e).toNat)

/-- The instances or units that one instance of level `n` holds at the last level: COUNTs multiplied. -/
def recUnits (r : List Word) (n : Nat) : Nat :=
  ((List.range (recLevels r)).map (fun i => if n ≤ i then levCount (recLevel r i) else 1)).prod

/-- The teams of one instance of level `n`. -/
def recTeams (r : List Word) (n : Nat) : Nat :=
  if levDomain (recLevel r (recLevels r - 1)) = 0 then recUnits r n else recUnits r n * teamsPerCore (recPart r)

/-- A member of a group: a team placed, saved or exited. -/
structure Member where
  uid : Nat
  gid : Gid
  /-- The publication of its EXIT. -/
  exitPub : Option Nat
deriving DecidableEq, Repr

/-- Whether a team belongs to the group at level `n` that holds `t`; a forked child belongs to none. -/
def Team.inGroup (u t : Team) (n : Nat) : Bool :=
  u.launch == t.launch && u.inst == t.inst && u.path.take n == t.path.take n && u.parent.isNone

/-- The members of the group at level `n` of a team, those that have been placed. -/
def State.members (s : State) (t : Team) (n : Nat) : List Member :=
  let live := (s.teams ++ s.saved.map (·.team)).filter (fun u => u.inGroup t n)
  let gone : List ExitedTeam := (match s.launch? t.launch with
    | some l => l.exited.filter (fun x => x.inst == t.inst && x.path.take n == t.path.take n)
    | none => [])
  live.map (fun u => ⟨u.uid, u.gid, none⟩) ++ gone.map (fun x => ⟨x.uid, x.gid, some x.pub⟩)

/-- The record of a team's launch. -/
def State.recordOf (s : State) (t : Team) : List Word :=
  match s.launch? t.launch with
  | some l => l.record
  | none => []

/-- Inserts a member by global id. -/
def insertMember (m : Member) : List Member → List Member
  | [] => [m]
  | x :: xs => if m.gid.ule x.gid then m :: x :: xs else x :: insertMember m xs

/-- The members by rank: increasing global id (R368). -/
def State.ranked (s : State) (t : Team) (n : Nat) : List Member :=
  (s.members t n).foldl (fun a m => insertMember m a) []

/-- Whether every member of the group has been placed. -/
def State.groupWhole (s : State) (t : Team) (n : Nat) : Bool :=
  decide (recTeams (s.recordOf t) n ≤ (s.members t n).length)

/-- Whether level `n` of the team's launch admits ALLX and FBAR for it (R368). -/
def State.wideLevel (s : State) (t : Team) (n : Nat) : Bool :=
  let r := s.recordOf t
  let e := recLevel r n
  decide (n < recLevels r) && decide (3 ≤ levDomain e) && decide (levDomain e ≤ 5) && levScopeOk e && t.parent.isNone

/-- Whether level `n` admits BAR for the team (R249). -/
def State.barLevel (s : State) (t : Team) (n : Nat) : Bool :=
  let r := s.recordOf t
  let e := recLevel r n
  decide (n < recLevels r) && decide (levDomain e ≤ 2) && levScopeOk e && t.parent.isNone

end Sys2Proof.Machine
end

