-- ==== Sys2Proof/Machine/Exchange.lean ====
section
/-!
DEFINITION. Tile instructions of the fabric: FGTH (R367) and ALLX (R368 to R371).
-/

namespace Sys2Proof.Machine

/-! ### FGTH -/

/-- FGTH: its checks; the window is the one space that it permits (R367). -/
def acceptFgth (i : TIn) (kind : BitVec 2) (td ti : TReg) (h : Handle) : Chk Unit :=
  acceptGather i ((i.rcd h).space == 2) true kind td ⟨ti, false⟩ h .send

/-- A window address as the package that holds its page translates it (R367): its key. -/
def State.homeXlate (s : State) (t : Team) (va : Nat) : Xl :=
  match s.teamCtx? t with
  | none => .fault kWindow (va / winPage * winPage) 4
  | some c =>
    if !inWin va then .fault kTrans (va / 4096 * 4096) 0
    else match c.winXlate .read va with
    | .ok k =>
      let p := keyPkg k
      if !s.routed t.pkg p then .fault kRoute 0 0
      else match s.ctx? p t.ctx with
        | none => .fault kWindow (va / winPage * winPage) 4
        | some c' =>
          match c'.winXlate .read va with
          | .ok k' => if keyPkg k' != p || s.barred .read k' then .fault kAccess (va / 4096 * 4096) 0 else .ok k'
          | x => x
    | x => x

/-- One element of FGTH: index, bounds and both translations. -/
def fgthSite (i : TIn) (d : Shape) (idx : List Nat) : Chk Site := do
  let w := ebits d.etype
  let n := max 1 (w / 8)
  let a := d.elemAddr idx
  let i0 := idx.headD 0
  if !(idx.zipIdx.all (fun xi => decide (xi.1 < if xi.2 < d.ndim then d.sz xi.2 else 1))) || decide (a < d.base) ||
      decide (d.bound < a + n) then failK kBounds .send
  else do
    let ks ← (keysFrom a n).mapM (fun b => xlChk (i.s.homeXlate i.t b) .send .read b)
    i.s.eccChk .send a ks
    .ok ⟨a, ks, if w < 8 then i0 * w % 8 else 0, w, 0⟩

/-- The element checks of FGTH, row-major. -/
def fgthChks (i : TIn) (kind : BitVec 2) (td ti : TReg) (h : Handle) (sx : SReg) : List (Chk ElSite) :=
  let (row0, col0) := originOf (i.c.rs sx)
  let d := i.rcd h
  let y := i.rd ti
  i.ext.map (fun rc => atEl (some td) h rc.1 rc.2 (do
    let x ← fgthSite i d (gatherIdx kind d y row0 col0 rc.1 rc.2)
    .ok ⟨rc.1, rc.2, x, [], 0, []⟩))

/-- FGTH (R367). -/
def runFgth (i : TIn) (kind : BitVec 2) (td ti : TReg) (h : Handle) (sx : SReg) : Run :=
  i.live [ti] (fun i => runChk i.s (do
    let es ← allChk (fgthChks i kind td ti h sx)
    let s := i.s.cfence i.t.uid .team .send
    match s.team? i.t.uid with
    | none => .ok s
    | some t => .ok (loadEls { i with s, t } .send td es)))

/-! ### ALLX -/

/-- The element of an index tile at a position (R203), unsigned. -/
def Tile.at (x : Tile) (p : Nat) : Nat := x.el (p / x.geo.cols) (p % x.geo.cols)

/-- The three records of ALLX: send, receive, drop list. -/
def allxHandles (w : Word) : Handle × Handle × Handle := (w.extractLsb' 0 16, w.extractLsb' 16 16, w.extractLsb' 32 16)

/-- Rows of a record in the sense of ALLX. -/
def Shape.tokenRows (d : Shape) : Nat := if d.ndim ≤ 1 then 1 else d.sz 1

/-- The counts that ta holds for `n` members. -/
def allxCounts (x : Tile) (n : Nat) : List Nat := (List.range n).map x.at

/-- ALLX: its checks (Table 16.5, orders 1 to 3). -/
def acceptAllx (i : TIn) (n : BitVec 3) (td ta : TReg) (sr sc : SReg) : Chk Unit := do
  let r := i.c.rs sr
  let cap := i.c.rs sc
  must (r.extractLsb' 48 16 == 0 && cap.extractLsb' 32 32 == 0 && i.s.wideLevel i.t n.toNat)
  let a ← i.t.srcNoStream ta
  let d ← i.t.dst td
  let p := recTeams (i.s.recordOf i.t) n.toNat
  let idx := fun (g : Geo) => g.dense && isIdx32 g.etype && decide (p ≤ g.rows * g.cols)
  must (idx d.geo && idx a.geo)
  let (hs, hr, hd) := allxHandles r
  let s := i.rcd hs
  let v := i.rcd hr
  let l := i.rcd hd
  let place := fun (x : Shape) => x.space == 0 || x.space == 2
  useSpace s hs .read (place s) .send none
  useSpace s hs .send (place s) .send none
  useSpace v hr .write (place v) .send none
  useSpace l hd .write (place l) .send none
  if s.layout == 0 && decide (s.ndim ≤ 2) then .ok () else shapeFault kShape .send hs none
  if v.layout == 0 && decide (v.ndim ≤ 2) && v.etype == s.etype && v.sz 0 == s.sz 0 then .ok ()
  else shapeFault kShape .send hr none
  if l.ndim == 1 && isIdx32 l.etype then .ok () else shapeFault kShape .send hd none
  let tot := (allxCounts a p).sum
  must (decide (tot ≤ s.tokenRows) && decide (cap.toNat ≤ v.tokenRows) && decide (tot ≤ l.sz 0))

/-- An element in another package's memory is an access fault, whether or not a route joins the packages (Tables 14.5 and 16.5). -/
def homeFault (a : Nat) (f : FaultInfo) : FaultInfo :=
  if f.kind = kRoute then { f with kind := kAccess, addr := some (BitVec.ofNat 52 a), page := none } else f

/-- Order 4 for one byte of a record: bounds, translation and HOME equal to the own package. -/
def allxByte (i : TIn) (d : Shape) (h : Handle) (acc : Access) (row col a : Nat) : Chk Nat :=
  atEl none h row col (do
    if decide (a < d.base) || decide (d.bound ≤ a) then failK kBounds .send else .ok ()
    let ks ← mapFault (homeFault a) (i.s.recKeys i.t d acc .send a 1)
    let k := ks.headD 0
    if isDevKey k && keyPkg k != i.t.pkg then
      .error (.fault { FaultInfo.plain kAccess .send with addr := some (BitVec.ofNat 52 a) })
    else do
      if acc = .read then i.s.recEcc d .send a ks else .ok ()
      .ok k)

/-- Order 4 for one row of tokens: the keys of its bytes. -/
def allxRow (i : TIn) (d : Shape) (h : Handle) (acc : Access) (row : Nat) : Chk (List Nat) :=
  allChk ((List.range ((d.sz 0 * ebits d.etype + 7) / 8)).map (fun b =>
    allxByte i d h acc row (b * 8 / ebits d.etype) (d.elemAddr [0, row] + b)))

/-- Order 4 for one position of the drop list; position p of a column-major record is the element (p, 0) (R61, R63). -/
def allxPos (i : TIn) (d : Shape) (h : Handle) (p : Nat) : Chk (List Nat) :=
  let (row, col) := if d.layout = 1 then (p, 0) else (0, p)
  allChk ((List.range 4).map (fun b => allxByte i d h .write row col (d.elemAddr [p] + b)))

/-- What a member brings to an exchange: all of order 4 has passed. -/
def allxJoin (i : TIn) (n : Nat) (ta : TReg) (sr sc : SReg) : Chk (Join × State) := do
  let p := recTeams (i.s.recordOf i.t) n
  let (hs, hr, hd) := allxHandles (i.c.rs sr)
  let cs := allxCounts (i.rd ta) p
  let cap := (i.c.rs sc).toNat
  let tot := cs.sum
  let sk ← allChk ((List.range tot).map (allxRow i (i.rcd hs) hs .read))
  let rk ← allChk ((List.range cap).map (allxRow i (i.rcd hr) hr .write))
  let dk ← allChk ((List.range tot).map (allxPos i (i.rcd hd) hd))
  let s := i.s.cfence i.t.uid .team .send
  let (rows, s) := sk.foldl (fun (acc : List (List Byte) × State) ks =>
    let (bs, s) := readBytes .send i.t.uid ks acc.2
    (acc.1 ++ [bs], s)) ([], s)
  .ok (⟨i.t.uid, i.t.gid, cs, cap, rows, rk, dk, i.t.lastPub, false⟩, s)

/-- The exchange that a team's next ALLX on a level joins. -/
def Exchange.isFor (e : Exchange) (t : Team) (n k : Nat) : Bool :=
  e.launch == t.launch && e.inst == t.inst && e.path == t.path.take n && e.level == n && e.k == k

/-- Replaces an exchange. -/
def State.putExchange (s : State) (e : Exchange) : State :=
  { s with exchanges := s.exchanges.map (fun x =>
      if x.launch == e.launch && x.inst == e.inst && x.path == e.path && x.level == e.level && x.k == e.k then e else x) }

/-- A member's part of an exchange is over; the exchange goes with its last one (R371). -/
def State.endJoin (s : State) (e : Exchange) (uid : Nat) : State :=
  let s := s.putExchange { e with joins := e.joins.map (fun j => if j.uid = uid then { j with done := true } else j) }
  { s with exchanges := s.exchanges.filter (fun x => !(x.closed && x.joins.all (·.done))) }

/-- Grants of one receiver in rank order (R370): what each sender offers, and the room left. -/
def allxGrants : Nat → List Nat → List Nat
  | _, [] => []
  | room, c :: cs => let g := min c room; g :: allxGrants (room - g) cs

/-- The joins of an exchange by rank. -/
def Exchange.byRank (e : Exchange) : List Join :=
  (e.joins.foldl (fun (a : List Member) j => insertMember ⟨j.uid, j.gid, none⟩ a) []).filterMap (fun m =>
    e.joins.find? (fun j => j.uid == m.uid))

/-- The grants of every receiver: by receiver rank, then sender rank. -/
def allxAll (js : List Join) : List (List Nat) :=
  js.zipIdx.map (fun jq => allxGrants jq.1.cap (js.map (fun s => s.counts.getD jq.2 0)))

/-- Writes a row to its bytes' keys, an element at a time. -/
def writeRow (uid : Nat) (ebytes : Nat) : Nat → List Host.Cell → State → State
  | 0, _, s => s
  | n + 1, cs, s =>
    if cs.isEmpty then s
    else writeRow uid ebytes n (cs.drop ebytes) (s.store uid .send (cs.take ebytes))

/-- A row of `bits` bits as it is stored: the unused high bits of its last byte are zero (R13). -/
def rowBytes (bits : Nat) (bs : List Byte) : List Byte :=
  bs.zipIdx.map (fun bj => if 8 * bj.2 + 8 ≤ bits then bj.1 else bj.1 &&& BitVec.ofNat 8 (2 ^ (bits - 8 * bj.2) - 1))

/-- The prefix sum of a list. -/
def sumTo (l : List Nat) (n : Nat) : Nat := (l.take n).sum

/-- A member's completion of a closed exchange (R370); of trit rows the code 0b10 is read as 0 by its sender (R12). -/
def allxFinish (i : TIn) (n : BitVec 3) (td : TReg) (sr : SReg) (js : List Join) (me : Join) : State :=
  let q := js.findIdx (fun j => j.uid == me.uid)
  let all := allxAll js
  let g := all.getD q []
  let d := i.rcd (allxHandles (i.c.rs sr)).1
  let eb := max 1 (ebits d.etype / 8)
  let bits := d.sz 0 * ebits d.etype
  let got := (js.zipIdx.flatMap (fun jp =>
    (jp.1.rows.drop (sumTo jp.1.counts q)).take (g.getD jp.2 0)))
  let read := me.rows.flatMap (fun r => ((rowBytes bits r).flatMap trits))
  let s := i.s.tritRead i.t.uid d.etype read
  let s := (me.recv.zip got).foldl (fun s kr =>
    writeRow i.t.uid eb kr.1.length (kr.1.zip ((rowBytes bits kr.2).map (tritByte d.etype))) s) s
  let drops := (List.range js.length).flatMap (fun p =>
    let off := sumTo me.counts p
    let granted := (all.getD p []).getD q 0
    (List.range (me.counts.getD p 0 - granted)).map (fun k => off + granted + k))
  let s := (me.drop.zip drops).foldl (fun s kr => s.store i.t.uid .send (kr.1.zip (natToBytes 4 kr.2))) s
  let s := s.cfence i.t.uid .send .team
  let prec := js.foldl (fun a j => union a j.prec) []
  s.modTeam i.t.uid (fun t =>
    let d := (t.tile td).getD (Tile.blank 0 ⟨0, 0, 0, 0, 1⟩)
    let t := (t.putTile td (some (d.positions g))).push (BitVec.ofNat 64 (g.sum * 2 ^ 32 + drops.length))
    { t with knows := union t.knows prec, exchs := t.exchs.set n.toFin (t.exchs.get n.toFin + 1) })

/-- The packages of the members of an exchange that have joined. -/
def Exchange.pkgs (e : Exchange) : List PkgNo :=
  e.joins.foldl (fun ps j => if ps.contains (gidPkg j.gid) then ps else ps ++ [gidPkg j.gid]) []

/-- Whether the package route tables join every two of some packages (R359). -/
def State.allRouted (s : State) (ps : List PkgNo) : Bool := ps.all (fun p => ps.all (fun q => s.routed p q))

/-- Whether an exchange of `n` members closes now: its home holds every member's counts, which packages without a route
to each other cannot bring (R359, R371, log 92). -/
def State.closes (s : State) (e : Exchange) (n : Nat) : Bool :=
  e.closed || (decide (n ≤ e.joins.length) && s.allRouted e.pkgs)

/-- ALLX (R370): it joins its exchange, which passes its fault point (R369), then waits until the exchange has closed. -/
def runAllx (i : TIn) (n : BitVec 3) (td ta : TReg) (sr sc : SReg) : Run :=
  let k := i.t.exchs.get n.toFin
  match i.s.exchanges.find? (fun e => e.isFor i.t n.toNat k && e.joins.any (fun j => j.uid == i.t.uid)) with
  | none =>
    match allxJoin i n.toNat ta sr sc with
    | .error (.fault f) => .fail i.s f
    | .error .walk => .walk
    | .error .stall => .stall i.s
    | .ok (j, s) =>
      match s.exchanges.find? (fun e => e.isFor i.t n.toNat k) with
      | some e => .part (s.putExchange { e with joins := e.joins ++ [j] }) i.xrow
      | none => .part { s with exchanges := s.exchanges ++
          [⟨i.t.launch, i.t.inst, i.t.path.take n.toNat, n.toNat, k, [j], false⟩] } i.xrow
  | some e =>
    match e.joins.find? (fun j => j.uid == i.t.uid) with
    | none => .stall i.s
    | some me =>
      if i.s.closes e (recTeams (i.s.recordOf i.t) n.toNat) then
        let e := { e with closed := true }
        .done (allxFinish { i with s := (i.s.putExchange e).endJoin e i.t.uid } n td sr e.byRank me)
      else .stall i.s

end Sys2Proof.Machine
end

