-- ==== Sys2Proof/Machine/Replay.lean ====
section
/-!
DEFINITION. VNTQ and VNTW (R334 to R341): their checks, the match test, outcomes and the entries of a table.
-/

namespace Sys2Proof.Machine

/-! ### Linear order (R335) -/

/-- Outer positions of a record. -/
def Shape.outers (d : Shape) : Nat := ((List.range (d.ndim - 1)).map (fun j => d.sz (j + 1))).prod

/-- The elements of a record in linear order: outer index, index 0 and the indices. -/
def Shape.linear (d : Shape) : List (Nat × Nat × List Nat) :=
  (List.range d.outers).flatMap (fun q =>
    let o := boxIdx d (d.sz (d.ndim - 1)) (d.ndim - 1) 1 q
    (List.range (d.sz 0)).map (fun k => (q, k, k :: o)))

/-- Elements of a record. -/
def Shape.count (d : Shape) : Nat := d.outers * d.sz 0

/-- The output bytes of a record. -/
def Shape.outBytes (d : Shape) : Nat := d.count * (ebits d.etype / 8)

/-! ### Operands and checks (Tables 14.4 and 14.5) -/

/-- The table handle of a block operand. -/
def vntTbl (b : Word) : Nat := (b.extractLsb' 16 6).toNat
/-- The block id. -/
def vntBlk (b : Word) : Nat := (b.extractLsb' 32 32).toNat
/-- The output handle. -/
def vntHout (b : Word) : Handle := b.extractLsb' 0 16

/-- The table that a block operand names. -/
def State.vntTable? (s : State) (t : Team) (b : Word) : Option VTable :=
  match s.teamCtx? t with
  | some c => if vntTbl b = 0 || c.hidden t true (vntTbl b) then none else kfind c.tables (vntTbl b)
  | none => none

/-- The types of an input record. -/
def vntInType (e : BitVec 5) : Bool := e == 0x10 || e == 0x0E || e == 0x0F || isFp8 e

/-- Table 14.5, orders 1 to 3. Within order 2 every check of hin is made before any of HOUT: the table gives no order between
the two records, so that is the model's choice (log 114). -/
def acceptVnt (i : TIn) (replay : Bool) (h : Handle) (sb st : SReg) : Chk Unit := do
  let b := i.c.rs sb
  match i.s.vntTable? i.t b with
  | none => illOp
  | some tb => do
    must (b.extractLsb' 22 10 == 0 && (i.c.rs st).extractLsb' 32 32 == 0 && decide (vntBlk b < tb.nblk))
    let x := i.rcd h
    let y := i.rcd (vntHout b)
    useSpace x h .read (x.space == 2) .team none
    if x.layout == 0 && vntInType x.etype then .ok () else shapeFault kShape .team h none
    useSpace y (vntHout b) (if replay then .write else .read) (y.space == 2) .team none
    if y.layout == 0 && (eclass y.etype).isSome && decide (8 ≤ ebits y.etype) then .ok ()
    else shapeFault kShape .team (vntHout b) none
    must (decide (x.count ≤ tb.cin) && decide (y.outBytes ≤ tb.cout))

/-- Order 4 over a record, in linear order: the sites of its elements. -/
def vntSites (i : TIn) (d : Shape) (h : Handle) (acc : Access) : List (Chk Site) :=
  d.linear.map (fun e => atEl none h e.1 e.2.1 (do
    let x ← mapFault (homeFault (d.elemAddr e.2.2)) (i.s.site i.t d acc .team e.2.2)
    if x.keys.any (fun k => isDevKey k && keyPkg k != i.t.pkg) then
      .error (.fault { FaultInfo.plain kAccess .team with addr := some (BitVec.ofNat 52 (d.elemAddr e.2.2)) })
    else do
      if acc = .read then i.s.eccChk .team (d.elemAddr e.2.2) x.keys else .ok ()
      .ok x))

/-- Reads the codes of some sites. -/
def readSites (uid : Nat) : List Site → State → List Nat × State
  | [], s => ([], s)
  | x :: xs, s =>
    match s.team? uid with
    | none => ([], s)
    | some t =>
      let (v, s) := s.readSite t .team x
      let (vs, s) := readSites uid xs s
      (v :: vs, s)

/-- An input element widened to FP32. -/
def vntWiden (e : BitVec 5) (x : Nat) : BitVec 32 :=
  if e = 0x10 then BitVec.ofNat 32 x else BitVec.ofNat 32 (roundV fp32 false 0 0 ((fmtOf e).dec x) false).1

/-! ### The match test (R337) -/

/-- The sums d and s over the elements, or none when an element can never match. -/
def vntSums : List (BitVec 32 × BitVec 32) → Nat → Nat → Option (Nat × Nat)
  | [], d, s => some (d, s)
  | (x, r) :: rest, d, s =>
    let a := fp32.dec x.toNat
    let b := fp32.dec r.toNat
    if a.isNan || a.isInf || b.isNan || b.isInf then none
    else
      let t := fvAbs (fp32.dec (roundV fp32 false 0 0 (fvAdd 0 a (fvNeg b)).1 false).1)
      if t.isInf then none
      else vntSums rest (fa80Round (fvAdd 0 (fa80.dec d) t).1) (fa80Round (fvAdd 0 (fa80.dec s) (fvAbs b)).1)

/-- vnt_match of R337. -/
def vntMatch (xs : List (BitVec 32)) (ob : Nat) (e : VEntry) (theta : BitVec 32) : Bool :=
  e.v && e.n == xs.length && e.ob == ob &&
  match vntSums (xs.zip e.ref) 0 0 with
  | none => false
  | some (d, s) => decide (fvCmp (fa80.dec d) (fvMul (fp32.dec theta.toNat) (fa80.dec s)).1 ≤ 0)

/-- Replaces a table of a context. -/
def State.putTable (s : State) (t : Team) (n : Nat) (tb : VTable) : State :=
  s.modCtx t.pkg t.ctx (fun c => { c with tables := kput c.tables n tb })

/-- Writes an output, an element at a time, in linear order. -/
def writeOut (uid : Nat) : List Site → List Byte → State → State
  | [], _, s => s
  | x :: xs, bs, s => writeOut uid xs (bs.drop x.keys.length) (s.store uid .team (x.keys.zip bs))

/-- VNTQ: its checks. -/
def acceptVntq (i : TIn) (h : Handle) (sb st : SReg) : Chk Unit := acceptVnt i true h sb st
/-- VNTQ (R338). -/
def runVntq (i : TIn) (k : GReg) (h : Handle) (sb st : SReg) : Run :=
  let b := i.c.rs sb
  match i.s.vntTable? i.t b with
  | none => .done i.s
  | some tb => runChk i.s (do
      let d := i.rcd h
      let o := i.rcd (vntHout b)
      let xs ← allChk (vntSites i d h .read)
      let ys ← allChk (vntSites i o (vntHout b) .write)
      let (cs, s) := readSites i.t.uid xs i.s
      let e := kget VEntry.empty tb.entries (vntBlk b)
      let fresh := vntMatch (cs.map (vntWiden d.etype)) o.outBytes e tb.theta
      let tag : BitVec 32 := (i.c.rs st).truncate 32
      let stale := tag.ule e.tag || decide (tb.maxRun ≤ e.run)
      let s := s.modCtx i.t.pkg i.t.ctx (fun c =>
        if !fresh then { c with misses := c.misses + 1 }
        else if stale then { c with stales := c.stales + 1 }
        else { c with hits := c.hits + 1,
                      tables := kput c.tables (vntTbl b)
                        { tb with entries := kput tb.entries (vntBlk b) { e with run := e.run + 1 } } })
      let hit := fresh && !stale
      let s := if hit then writeOut i.t.uid ys e.output s else s
      .ok (s.modTeam i.t.uid (fun t => t.putG k hit)))

/-- VNTW: its checks. -/
def acceptVntw (i : TIn) (h : Handle) (sb st : SReg) : Chk Unit := acceptVnt i false h sb st
/-- VNTW (R339). -/
def runVntw (i : TIn) (h : Handle) (sb st : SReg) : Run :=
  let b := i.c.rs sb
  match i.s.vntTable? i.t b with
  | none => .done i.s
  | some tb => runChk i.s (do
      let d := i.rcd h
      let o := i.rcd (vntHout b)
      let xs ← allChk (vntSites i d h .read)
      let ys ← allChk (vntSites i o (vntHout b) .read)
      let (cs, s) := readSites i.t.uid xs i.s
      let (os, s) := readSites i.t.uid ys s
      let e : VEntry := { v := true, tag := (i.c.rs st).truncate 32, run := 0, n := xs.length,
                          ref := cs.map (vntWiden d.etype), ob := o.outBytes,
                          output := os.flatMap (natToBytes (ebits o.etype / 8)) }
      .ok (s.putTable i.t (vntTbl b) { tb with entries := kput tb.entries (vntBlk b) e }))

end Sys2Proof.Machine
end

