-- ==== Sys2Proof/Machine/TileSide.lean ====
section
/-!
DEFINITION. The tile side as one: which checks and which run a tile-side instruction has, what it captures, which guard
and extents wait for it (R110, R112, R190).
-/

namespace Sys2Proof.Machine

/-- The checks at acceptance. -/
def tileAccept (ins : Instr) (i : TIn) : Chk Unit :=
  match ins with
  | .tadd s _ td ta tb => acceptTadd i s td ta tb
  | .tsub s _ td ta tb => acceptTsub i s td ta tb
  | .tmul s _ td ta tb => acceptTmul i s td ta tb
  | .tfma s _ td ta tb => acceptTfma i s td ta tb
  | .tmax td ta tb => acceptTmax i td ta tb
  | .tmin td ta tb => acceptTmin i td ta tb
  | .tcmp _ td ta tb => acceptTcmp i td ta tb
  | .tsel td ta tb => acceptTsel i td ta tb
  | .tmov td ta => acceptTmov i td ta
  | .tcvt _ nsat s td ta => acceptTcvt i nsat s td ta
  | .tld td h sx => acceptTld i td h sx
  | .tst ta h sx => acceptTst i ta h sx
  | .tldff td h sx => acceptTldff i td h sx
  | .ttrn td ta => acceptTtrn i td ta
  | .tdecl td h => acceptTdecl i td h
  | .trel _ => acceptTrel
  | .text ta => acceptText i ta
  | .tgth u kind td ti h _ => acceptTgth i u kind td ti h
  | .tsct kind ta ti h _ => acceptTsct i kind ta ti h
  | .tcopy _ h sd ss => acceptTcopy i h sd ss
  | .tcopyStr q h ss => acceptTcopyStr i q h ss
  | .twait _ _ => acceptTwait
  | .qbind q t => acceptQbind i q t
  | .qrel q => acceptQrel i q
  | .tfill td _ => acceptTfill i td
  | .tiota td _ _ => acceptTiota i td
  | .tslide _ fill td ta _ => acceptTslide i fill td ta
  | .tpack td ta => acceptTpack i td ta
  | .tunpk td ta => acceptTunpk i td ta
  | .tqnt _ nsat td ta => acceptTqnt i nsat td ta
  | .tdqt _ scale td ta => acceptTdqt i scale td ta
  | .map cv cnt td ta tb _ _ fn => acceptMap i cv cnt td ta tb fn
  | .reduce _ two cv td ta tb _ _ fn => acceptReduce i two cv td ta tb fn
  | .scan _ two cv td ta tb _ _ fn => acceptScan i two cv td ta tb fn
  | .trds two _ ta tb _ _ fn => acceptTrds i two ta tb fn
  | .ldb dims ta so => acceptLdb i dims ta so
  | .ldbm dims h sx so => acceptLdbm i dims h sx so
  | .mma f ad ta ss sp en => acceptMma i f ad ta ss sp en
  | .mmam f ad h ss sx sp en => acceptMmam i f ad h ss sx sp en
  | .mmat ad ta ss sp => acceptMmat i ad ta ss sp
  | .aclr _ ad => acceptAclr i ad
  | .ard _ cv td as sw sx _ => acceptArd i cv td as sw sx
  | .awr _ ad ta sw => acceptAwr i ad ta sw
  | .amaxa acc td as sw => acceptAmaxa i acc td as sw
  | .tscl _ _ _ ta => acceptTscl i ta
  | .route td tc ti se => acceptRoute i td tc ti se
  | .ablk fp8 _ td ta ss sp _ => acceptAblk i fp8 td ta ss sp
  | .iwalk td tc tm ss _ => acceptIwalk i td tc tm ss
  | .sendt _ ta _ _ _ => acceptSendt i ta
  | .recvt _ td sm _ => acceptRecvt i td sm
  | .upd _ ti tv rh => acceptUpd i ti tv rh
  | .vntq _ h sb st => acceptVntq i h sb st
  | .vntw h sb st => acceptVntw i h sb st
  | .allx n td ta sr sc => acceptAllx i n td ta sr sc
  | .fgth kind td ti h _ => acceptFgth i kind td ti h
  | _ => .ok ()

/-- The run; copies run row by row instead (`copyRow`). -/
def tileRun (ins : Instr) (_seq : Nat) (i : TIn) : Run :=
  match ins with
  | .tadd s rm td ta tb => runTadd i s rm td ta tb
  | .tsub s rm td ta tb => runTsub i s rm td ta tb
  | .tmul s rm td ta tb => runTmul i s rm td ta tb
  | .tfma s rm td ta tb => runTfma i s rm td ta tb
  | .tmax td ta tb => runTmax i td ta tb
  | .tmin td ta tb => runTmin i td ta tb
  | .tcmp cc td ta tb => runTcmp i cc td ta tb
  | .tsel td ta tb => runTsel i td ta tb
  | .tmov td ta => runTmov i td ta
  | .tcvt rm nsat s td ta => runTcvt i rm nsat s td ta
  | .tld td h sx => runTld i td h sx
  | .tst ta h sx => runTst i ta h sx
  | .tldff td h sx => runTldff i td h sx
  | .ttrn td ta => runTtrn i td ta
  | .tdecl td h => runTdecl i td h
  | .trel td => runTrel i td
  | .text ta => runText i ta
  | .tgth u kind td ti h sx => runTgth i u kind td ti h sx
  | .tsct kind ta ti h sx => runTsct i kind ta ti h sx
  | .twait _ _ => runTwait i
  | .qbind q t => runQbind i q t
  | .qrel q => runQrel i q
  | .tfill td sa => runTfill i td sa
  | .tiota td sa sb => runTiota i td sa sb
  | .tslide dir fill td ta n => runTslide i dir fill td ta n
  | .tpack td ta => runTpack i td ta
  | .tunpk td ta => runTunpk i td ta
  | .tqnt rm nsat td ta => runTqnt i rm nsat td ta
  | .tdqt rm scale td ta => runTdqt i rm scale td ta
  | .map cv cnt td ta tb sa sb fn => runMap i cv cnt td ta tb sa sb fn
  | .reduce col two cv td ta tb sa sb fn => runReduce i col two cv td ta tb sa sb fn
  | .scan col two cv td ta tb sa sb fn => runScan i col two cv td ta tb sa sb fn
  | .trds two rm ta tb sa sb fn => runTrds i two rm ta tb sa sb fn
  | .ldb dims ta so => runLdb i dims ta so
  | .ldbm dims h sx so => runLdbm i dims h sx so
  | .mma f ad ta ss sp en => runMma i f ad ta ss sp en
  | .mmam f ad h ss sx sp en => runMmam i f ad h ss sx sp en
  | .mmat ad ta ss sp => runMmat i ad ta ss sp
  | .aclr int ad => runAclr i int ad
  | .ard clr cv td as sw sx en => runArd i clr cv td as sw sx en
  | .awr add ad ta sw => runAwr i add ad ta sw
  | .amaxa acc td as sw => runAmaxa i acc td as sw
  | .tscl tgt gc en ta => runTscl i tgt gc en ta
  | .route td tc ti se => runRoute i td tc ti se
  | .ablk fp8 causal td ta ss sp k => runAblk i fp8 causal td ta ss sp k
  | .iwalk td tc tm ss sx => runIwalk i td tc tm ss sx
  | .sendt k ta sr team tag => runSendt i k ta sr team tag
  | .recvt w td sm tag => runRecvt i w td sm tag
  | .upd strict ti tv rh => runUpd i strict ti tv rh
  | .vntq k h sb st => runVntq i k h sb st
  | .vntw h sb st => runVntw i h sb st
  | .allx n td ta sr sc => runAllx i n td ta sr sc
  | .fgth kind td ti h sx => runFgth i kind td ti h sx
  | _ => .done i.s

/-- Whether an accepted instruction captures XROW and clears it (R187, R190). -/
def capturesXrow (ins : Instr) (c : Capture) : Bool :=
  match ins with
  | .tcopy .. | .tcopyStr .. => true
  | .upd .. => true
  | .mma _ _ _ ss sp _ | .mmat _ _ ss sp => (mdims (c.rs ss) (c.rs sp)).live
  | .mmam _ _ _ ss _ sp _ => (mdims (c.rs ss) (c.rs sp)).live
  | _ => false

/-- The shape handles that an instruction reads at acceptance (R64). -/
def tileHandles (ins : Instr) (c : Capture) : List Handle :=
  match ins with
  | .tld _ h _ | .tst _ h _ | .tldff _ h _ | .tdecl _ h | .tgth _ _ _ _ h _ | .tsct _ _ _ h _ | .tcopyStr _ h _
  | .ldbm _ h _ _ | .mmam _ _ h _ _ _ _ | .fgth _ _ _ h _ => [h]
  | .tcopy _ h sd _ => [h, (c.rs sd).extractLsb' 0 16]
  | .vntq _ h sb _ | .vntw h sb _ => [h, vntHout (c.rs sb)]
  | .allx _ _ _ sr _ => let (a, b, d) := allxHandles (c.rs sr); [a, b, d]
  | _ => []

/-- The guard that a TIQ entry will write (R112). -/
def tileGuard (ins : Instr) : Option GReg :=
  match ins with
  | .vntq k .. | .sendt k .. => some k
  | _ => none

/-- A guard that some entry of the TIQ will write is pending (R112). -/
def Team.pending (t : Team) (k : GReg) : Bool := k != 0 && t.tiq.any (fun e => tileGuard e.instr == some k)

/-- The extents wait for a TLDFF in the TIQ, which writes them (R158). -/
def Team.extPending (t : Team) : Bool := t.tiq.any (fun e => match e.instr with
  | .tldff .. => true
  | _ => false)

/-- A tile store, or a replay, that a younger scalar load waits for (R118). -/
def Team.storePending (t : Team) : Bool := t.tiq.any (fun e => match e.instr with
  | .tst .. | .tsct .. | .vntq .. => true
  | _ => false)

/-- The lane function that an instruction reads at acceptance, with the state after the reads (R81): none for other
instructions and for an empty extent. -/
def tileCode (ins : Instr) (i : TIn) : Option (Chk ((Bool × List (BitVec 32)) × State)) :=
  if !i.c.live then none
  else
    let dt := fun (td : TReg) => [(i.rd td).geo.etype]
    match ins with
    | .map _ cnt td ta tb _ _ fn => some (codeMap i cnt td ta tb fn)
    | .reduce _ two _ td ta tb _ _ (.fn f) | .scan _ two _ td ta tb _ _ (.fn f) => some (codeRed i two ta tb f (dt td))
    | .trds two _ ta tb _ _ (.fn f) => some (codeRed i two ta tb f [])
    | _ => none

/-- The region that an instruction reads at acceptance (R316). -/
def tileRegion (ins : Instr) (i : TIn) : Option Region :=
  match ins with
  | .upd _ _ _ rh => i.s.region? i.t rh
  | _ => none

/-- The destination and the sources of an instruction among the tile names (R149). -/
def tileNames (ins : Instr) : List TReg × List TReg :=
  match ins with
  | .tadd _ _ td ta tb | .tsub _ _ td ta tb | .tmul _ _ td ta tb | .tmax td ta tb | .tmin td ta tb | .tcmp _ td ta tb =>
    ([td], [ta.t, tb.t])
  | .tfma _ _ td ta tb | .tsel td ta tb => ([td], [ta.t, tb.t, td])
  | .tmov td ta | .tcvt _ _ _ td ta | .ttrn td ta | .tpack td ta | .tunpk td ta | .tqnt _ _ td ta | .tdqt _ _ td ta =>
    ([td], [ta.t])
  | .tld td _ _ | .tldff td _ _ | .tfill td _ | .tiota td _ _ | .ard _ _ td _ _ _ _ | .recvt _ td _ _ => ([td], [])
  | .tst ta _ _ => ([], [ta])
  | .ldb _ ta _ | .mma _ _ ta _ _ _ | .mmat _ ta _ _ | .awr _ _ ta _ | .tscl _ _ _ ta | .sendt _ ta _ _ _ =>
    ([], [ta.t])
  | .tgth _ _ td ti _ _ => ([td], [ti.t])
  | .fgth _ td ti _ _ => ([td], [ti])
  | .tsct _ ta ti _ _ => ([], [ta.t, ti.t])
  | .tslide _ fill td ta _ => ([td], slideSrcs fill ta)
  | .map _ cnt td ta tb _ _ _ => ([td], mapSrcs cnt td ta tb)
  | .reduce _ two _ td ta tb _ _ _ | .scan _ two _ td ta tb _ _ _ => ([td], redSrcs two ta tb)
  | .trds two _ ta tb _ _ _ => ([], redSrcs two ta tb)
  | .amaxa _ td _ _ => ([td], [])
  | .route td tc ti _ => ([td, tc], [ti.t])
  | .ablk _ _ td ta _ _ _ => ([td], [ta.t])
  | .iwalk td tc tm _ _ => ([td, tc], [tm.t])
  | .upd _ ti tv _ => ([], [ti.t, tv.t])
  | .allx _ td ta _ _ => ([td], [ta])
  | _ => ([], [])

/-- Whether an instruction holds tile slots from acceptance until it completes (R149): over an empty extent or region it writes
nothing (R146, R187), but a packed TMOV, a bitmap-sparse load, RECVT and ALLX use no extent (R167, R169). -/
def tileHolds (ins : Instr) (i : TIn) : Bool :=
  match ins with
  | .tmov _ ta => (i.rd ta.t).geo.packed || i.c.live
  | .tld _ h _ | .tldff _ h _ => (i.rcd h).sparse || i.c.live
  | .mma _ _ _ ss sp _ | .mmat _ _ ss sp | .mmam _ _ _ ss _ sp _ | .ablk _ _ _ _ ss sp _ => (mdims (i.c.rs ss) (i.c.rs sp)).live
  | .tscl .. => i.c.er != 0
  | .recvt .. | .allx .. => true
  | _ => i.c.live

/-- Whether an instruction may run before an older copy has passed its fault point (R150, R152, R163, R188): it writes tile
names, streams, flags, extents, branch-queue entries and the team's own views alone. -/
def runsPastCopy (ins : Instr) : Bool :=
  match ins with
  | .tadd .. | .tsub .. | .tmul .. | .tfma .. | .tmax .. | .tmin .. | .tcmp .. | .tsel .. | .tmov .. | .tcvt .. | .ttrn ..
  | .tfill .. | .tiota .. | .tslide .. | .tpack .. | .tunpk .. | .tqnt .. | .tdqt .. | .map .. | .reduce .. | .scan ..
  | .trds .. | .text .. | .tld .. | .tldff .. | .tgth .. | .tdecl .. | .trel .. | .amaxa .. | .route .. | .ablk ..
  | .iwalk .. | .qbind .. | .qrel .. | .twait .. => true
  | .ard clr _ _ _ _ _ _ => !clr
  | _ => false

/-- Whether an instruction waits behind a copy without holding up the younger ones that do not depend on it: it writes
memory, sends, receives or copies once everything older has passed its fault point (R117, R152). What writes an accumulator,
resident B or a scale register holds up everything (R188). -/
def waitsAside (ins : Instr) : Bool :=
  match ins with
  | .tst .. | .tsct .. | .sendt .. | .recvt .. | .upd .. | .tcopy .. | .tcopyStr .. | .vntq .. | .vntw .. | .allx .. | .fgth .. => true
  | _ => false

/-- Whether an instruction reads memory for a tile. -/
def loadsTile (ins : Instr) : Bool :=
  match ins with
  | .tld .. | .tldff .. | .tgth .. => true
  | _ => false

/-- Whether an instruction may take draws (R24): the ones that move, load, store or send do not. -/
def mayDraw (ins : Instr) : Bool :=
  match ins with
  | .tmov .. | .ttrn .. | .tfill .. | .tiota .. | .tslide .. | .tpack .. | .tunpk .. | .tmax .. | .tmin .. | .tcmp .. | .tsel ..
  | .text .. | .tdecl .. | .trel .. | .qbind .. | .qrel .. | .twait .. | .route .. | .iwalk .. => false
  | ins => !(waitsAside ins || loadsTile ins)

/-- Whether an instruction is ABLK, which shares the macros with what is older (R188). -/
def isAblk (ins : Instr) : Bool :=
  match ins with
  | .ablk .. => true
  | _ => false

/-- Whether an instruction is a copy (R161). -/
def isCopy (ins : Instr) : Bool :=
  match ins with
  | .tcopy .. | .tcopyStr .. => true
  | _ => false

end Sys2Proof.Machine
end

