-- ==== Sys2Proof/Machine/Front.lean ====
section
/-!
DEFINITION. The scalar front's accesses: instruction fetch (R40), scalar loads and stores (R130, R118), the probe of
first-fault loads (R131).
-/

namespace Sys2Proof.Machine

/-- A fault with an address. -/
def failAt {α : Type} (kind : BitVec 8) (path : Path) (a : Word) : Chk α :=
  .error (.fault { FaultInfo.plain kind path with addr := some (a.truncate 52) })

/-- The keys of an aligned scalar access: alignment, then address, translation and access (R130). -/
def State.scalarKeys (s : State) (t : Team) (acc : Access) (path : Path) (a : Word) (n : Nat) : Chk (List Nat) :=
  if a.toNat % n ≠ 0 then failAt kAlign path a
  else do
    let k ← xlChk (s.xlateScalar t acc a) path acc (a.extractLsb' 0 52).toNat
    .ok (keysFrom k n)

/-- An 8-byte word fetched at an address. -/
def State.fetch8 (s : State) (t : Team) (pc : Word) : Chk (Word × State) := do
  let ks ← s.scalarKeys t .fetch .fetch pc 8
  s.eccChk .fetch (pc.extractLsb' 0 52).toNat ks
  let (bs, s) := s.load t .fetch ks
  .ok (BitVec.ofNat 64 (bytesToNat bs), s)

/-- Whether the front reads the literal of a word: an X instruction (a hint too, log 88) that R58 admits and whose guard is
known and true (R41, R57, R112). -/
def Team.readsLit (t : Team) (w : Word) : Bool :=
  wordIsX w && !t.pending (wordGuard w).idx && t.rg (wordGuard w).idx != (wordGuard w).inv &&
  (match decodeWord w 0 with
   | .ok _ => true
   | .error _ => false)

/-- The word at PC, and the literal of an X instruction that runs (R40, R46). -/
def State.fetchWord (s : State) (t : Team) : Chk (Word × Word × State) := do
  let (w, s) ← s.fetch8 t t.pc
  if t.readsLit w then do
    let (l, s) ← s.fetch8 t (t.pc + 8)
    .ok (w, l, s)
  else .ok (w, 0, s)

/-- A loaded value, extended. -/
def extendLoad (z : BitVec 2) (u : Bool) (x : Nat) : Word :=
  let n := 8 * 2 ^ z.toNat
  if u then BitVec.ofNat 64 (x % 2 ^ n) else BitVec.ofInt 64 (intOf n true x)

/-- The team's held stores over some bytes, oldest first (R118). -/
def Team.overlay (t : Team) (keys : List Nat) (bs : List Byte) : List Byte :=
  (keys.zip bs).map (fun kb => t.sbuf.foldl (fun b h => (kfind h.cells kb.1).getD b) kb.2)

/-- Reads the bytes of a scalar load. -/
def State.loadBytes (s : State) (t : Team) (keys : List Nat) : List Byte × State :=
  let (bs, s) := s.load t .team keys
  (t.overlay keys bs, s)

/-- The first element after the first whose load would fault from its address alone (R131), or a walk that waits. DEDUCED (log
116): a route fault (kind 0x11, R359) is one of these, though R131 lists kinds 0x04 to 0x08 alone. -/
def State.probe (s : State) (t : Team) (a : Word) (size : Nat) : Nat → Nat → Except Stop (Option (Nat × BitVec 8))
  | 0, _ => .ok none
  | n + 1, i =>
    match s.xlateScalar t .read (a + BitVec.ofNat 64 (i * size)) with
    | .ok _ => s.probe t a size n (i + 1)
    | .wait => .error .walk
    | .fault k _ _ => .ok (some (i, k))

/-- Whether a word needs the context's system attribute (R54). -/
def isSystem (b : Body) : Bool :=
  match b with
  | .long (.eret ..) | .long (.ctxs ..) | .long (.ctxl ..) => true
  | _ => false

end Sys2Proof.Machine
end

