-- ==== Sys2Proof/Machine/RunAhead.lean ====
section
/-!
DEFINITION. Fault run-ahead (R223): from the checkpoint on, a shadow of the team computes what it can and records the
pages that would fault. The shadow lives in a copy of the state that is thrown away.
-/

namespace Sys2Proof.Machine

/-- A recorded page (Table 7.7). -/
structure PageRec where
  page : BitVec 52
  kind : BitVec 8
  wr : Bool
  size : BitVec 3
deriving DecidableEq, Repr

/-- The page entry of a record (Table 7.7). -/
def PageRec.entry (p : PageRec) : Word :=
  (0 : BitVec 12) ++ p.page.extractLsb' 12 40 ++ p.kind ++ BitVec.ofBool p.wr ++ p.size

/-- The shadow: its state, which values are unknown, and the pages recorded. -/
structure Shadow where
  s : State
  uid : Nat
  xs : List SReg
  xg : List GReg
  xt : List TReg
  /-- Special registers whose values are unknown. -/
  xp : List (BitVec 5)
  pages : List PageRec
  ended : Bool

/-- The shadow's team. -/
def Shadow.team (h : Shadow) : Team := (h.s.team? h.uid).getD Team.init

/-- Replaces the shadow's team. -/
def Shadow.put (h : Shadow) (t : Team) : Shadow := { h with s := h.s.putTeam t }

/-- Ends the run-ahead. -/
def Shadow.stop (h : Shadow) : Shadow := { h with ended := true }

/-- Whether a fault kind is one of pages: page, walk or window. -/
def isPageKind (k : BitVec 8) : Bool := k == kPage || k == kWalk || k == kWindow

/-- Adds a page in the order of discovery; a page found again keeps its entry, and WR gathers. -/
def addPage (p : PageRec) (ps : List PageRec) : List PageRec :=
  if ps.any (fun q => q.page == p.page) then
    ps.map (fun q => if q.page == p.page then { q with wr := q.wr || p.wr } else q)
  else ps ++ [p]

/-- A fault met by a probe: a page is recorded, any other kind ends the run-ahead. -/
def Shadow.meet (h : Shadow) (f : FaultInfo) : Shadow :=
  match f.page with
  | some (p, size, wr) =>
    if isPageKind f.kind then
      let ps := addPage ⟨p, f.kind, wr, size⟩ h.pages
      { h with pages := ps, ended := h.ended || decide (256 ≤ ps.length) }
    else h.stop
  | none => h.stop

/-- A probe. -/
def Shadow.see {α : Type} (h : Shadow) (x : Chk α) : Shadow :=
  match x with
  | .error (.fault f) => h.meet f
  | _ => h

/-- A list of probes, in order. -/
def Shadow.seeAll {α : Type} (h : Shadow) (xs : List (Chk α)) : Shadow :=
  xs.foldl (fun h x => if h.ended then h else h.see x) h

/-! ### Scalar values -/

/-- A register known to the shadow. -/
def Shadow.rs (h : Shadow) (r : SReg) : Option Word := if r != 0 && h.xs.contains r then none else some (h.team.rs r)

/-- A guard known to the shadow. -/
def Shadow.rg (h : Shadow) (k : GReg) : Option Bool := if k != 0 && h.xg.contains k then none else some (h.team.rg k)

/-- Operand b. -/
def Shadow.opd (h : Shadow) (b : Opd) : Option Word :=
  match b with
  | .reg r => h.rs r
  | .imm v => some (v.signExtend 64)

/-- Writes a register, or makes it unknown. -/
def Shadow.wr (h : Shadow) (r : SReg) (v : Option Word) : Shadow :=
  if r = 0 then h
  else match v with
  | some x => { h.put { h.team with s := h.team.s.set r.toFin x } with xs := h.xs.filter (fun q => q != r) }
  | none => { h with xs := r :: h.xs }

/-- Writes a guard, or makes it unknown. -/
def Shadow.wg (h : Shadow) (k : GReg) (v : Option Bool) : Shadow :=
  match v with
  | some x => { h.put (h.team.putG k x) with xg := h.xg.filter (fun q => q != k) }
  | none => { h with xg := k :: h.xg }

/-- Both operands of a scalar instruction, where both are known. -/
def Shadow.operands (h : Shadow) (sa : SReg) (b : Opd) : Option (Word × Word) :=
  (h.rs sa).bind (fun x => (h.opd b).map (fun y => (x, y)))

/-- The address of a scalar access, where it is known. -/
def Shadow.addr (h : Shadow) (sa : SReg) (b : Opd) : Option Word := (h.operands sa b).map (fun xy => xy.1 + xy.2)

/-- Special registers whose values are not known any more. -/
def Shadow.forget (h : Shadow) (ns : List (BitVec 5)) : Shadow := { h with xp := ns ++ h.xp }

/-- Writes special registers with known values. -/
def Shadow.know (h : Shadow) (ns : List (BitVec 5)) (t : Team) : Shadow :=
  { h.put t with xp := h.xp.filter (fun n => !ns.contains n) }

/-- Whether an extent is unknown. -/
def Shadow.xe (h : Shadow) : Bool := h.xp.contains 0 || h.xp.contains 1

/-- An ALU result; a saturating operation may set SATF (R32). -/
def Shadow.alu (h : Shadow) (op : AluOp) (m : AluMode) (sd sa : SReg) (b : Opd) : Shadow :=
  match h.operands sa b with
  | some (x, y) =>
    let r := Machine.alu op m x y
    let h := h.wr sd (some r.1)
    if r.2 then h.know [4] { h.team with satf := 1 } else h
  | none => if m.s && h.team.satf == 0 then (h.wr sd none).forget [4] else h.wr sd none

/-- A shadow load. -/
def Shadow.load (h : Shadow) (z : BitVec 2) (u : Bool) (sd : SReg) (a : Option Word) : Shadow :=
  match a with
  | none => h.wr sd none
  | some a =>
    match h.s.scalarKeys h.team .read .team a (2 ^ z.toNat) with
    | .error (.fault f) => (h.meet f).wr sd none
    | .error _ => h.wr sd none
    | .ok ks =>
      match h.s.eccChk .team (a.extractLsb' 0 52).toNat ks with
      | .error _ => h.stop
      | .ok _ => h.wr sd (some (extendLoad z u (bytesToNat (h.s.loadBytes h.team ks).1)))

/-- A shadow first-fault load: it truncates in the shadow alone. -/
def Shadow.ldff (h : Shadow) (z : BitVec 2) (u : Bool) (sd : SReg) (a : Option Word) : Shadow :=
  if h.xp.contains 0 then (h.wr sd none).forget [2]
  else
    let t := h.team
    if t.ext = 0 then h.know [2] { t with fsr := 0 }
    else
      let h := h.load z u sd a
      match a with
      | none => h.forget [0, 2]
      | some a =>
        match h.s.probe t a (2 ^ z.toNat) (t.ext.toNat - 1) 1 with
        | .ok (some (i, k)) => h.know [2] { h.team with ext := BitVec.ofNat 16 i, fsr := fsrOf i k }
        | .ok none => h.know [2] { h.team with fsr := 0 }
        | .error _ => h.forget [0, 2]

/-- Transfers control; an unknown or misaligned target ends the run-ahead. -/
def Shadow.jump (h : Shadow) (target : Option Word) : Shadow :=
  match target with
  | some a => if a.toNat % 8 = 0 then h.put { h.team with pc := a } else h.stop
  | none => h.stop

/-- The target of a word offset. -/
def Team.label (t : Team) (off : BitVec 32) : Word := t.pc + 8 * off.signExtend 64

/-- The value of a special register as the shadow knows it. -/
def Shadow.spr (h : Shadow) (n : BitVec 5) : Option Word :=
  if h.xp.contains n then none else some (h.s.sprRead h.team n)

/-- A scalar instruction that is no transfer; outward ones end the run-ahead. -/
def Shadow.scalar (h : Shadow) (i : Instr) : Shadow :=
  match i with
  | .nop | .hint .. | .pref .. | .evict .. => h
  | .add m sd sa b => h.alu .add m sd sa b
  | .sub m sd sa b => h.alu .sub m sd sa b
  | .mul m sd sa b => h.alu .mul m sd sa b
  | .mulh m sd sa b => h.alu .mulh m sd sa b
  | .div m sd sa b => h.alu .div m sd sa b
  | .rem m sd sa b => h.alu .rem m sd sa b
  | .and m sd sa b => h.alu .and m sd sa b
  | .or m sd sa b => h.alu .or m sd sa b
  | .xor m sd sa b => h.alu .xor m sd sa b
  | .shl m sd sa b => h.alu .shl m sd sa b
  | .shr m sd sa b => h.alu .shr m sd sa b
  | .sra m sd sa b => h.alu .sra m sd sa b
  | .min m sd sa b => h.alu .min m sd sa b
  | .max m sd sa b => h.alu .max m sd sa b
  | .clz w sd sa => h.wr sd ((h.rs sa).map (fun x => BitVec.ofNat 64 (clzBits (cntWidth w) x.toNat)))
  | .ctz w sd sa => h.wr sd ((h.rs sa).map (fun x => BitVec.ofNat 64 (ctzNat (cntWidth w) x.toNat)))
  | .popc w sd sa => h.wr sd ((h.rs sa).map (fun x => BitVec.ofNat 64 (popBits (cntWidth w) x.toNat)))
  | .sel k sd sa b => h.wr sd (match h.rg k with
      | some g => if g then h.rs sa else h.opd b
      | none => none)
  | .cmp cc cb gk sa b =>
    let c := (h.operands sa b).map (fun xy => cmpCond cc xy.1 xy.2)
    h.wg gk (if cb = 0 then c else (h.rg gk).bind (fun g => c.map (cmpCombine cb g)))
  | .gop op gd ga gb => h.wg gd ((h.rg ga).bind (fun x => (h.rg gb).map (gopVal op x)))
  | .lea sd form =>
    h.wr sd (match form with
      | .index sa sb n => (h.rs sa).bind (fun (x : Word) => (h.rs sb).map (fun (y : Word) => x + (y <<< n.toNat)))
      | .base sa imm => (h.rs sa).map (fun x => x + imm.signExtend 64)
      | .label imm => some (h.team.pc + imm.signExtend 64))
  | .ld z u sd sa b => h.load z u sd (h.addr sa b)
  | .ldff z u sd sa b => h.ldff z u sd (h.addr sa b)
  | .st z _ sa b =>
    (match h.addr sa b with
     | some a => h.see (h.s.scalarKeys h.team .write .team a (2 ^ z.toNat))
     | none => h)
  | .mfs sd n => h.wr sd (h.spr n)
  | .mts n sa =>
    (match h.rs sa with
     | none => h.forget [n]
     | some v =>
       if v &&& ~~~ sprMask n != 0 || (n == 3 && decide (6 ≤ (v.extractLsb' 0 3).toNat)) then h.stop
       else h.know [n] (h.team.setSpr n v))
  | .li sd imm => h.wr sd (some (imm.signExtend 64))
  | .liX sd lit => h.wr sd (some lit)
  | .lih sd imm => h.wr sd ((h.rs sd).map (fun x => imm ++ x.extractLsb' 0 32))
  | .winq sd sa b =>
    h.wr sd (match h.addr sa b, h.s.teamCtx? h.team with
      | some a, some c => if a.extractLsb' 52 12 = 0 && inWin a.toNat then some (c.winEntry ((a.toNat - winBase) / winPage))
          else some (-1)
      | _, _ => none)
  | .probe tile w k sm tag =>
    h.wg k ((h.rs sm).map (fun x => h.team.rq.any (fun m => m.matches tile w (x.truncate 25) tag)))
  | _ => h.stop

/-- A control transfer, whose word is at the shadow's PC; anything else is a scalar instruction and the front goes on. -/
def Shadow.front (h : Shadow) (i : Instr) : Shadow :=
  let t := h.team
  let next := fun (h : Shadow) => h.put { h.team with pc := t.pc + BitVec.ofNat 64 i.longBytes }
  match i with
  | .br off => h.jump (some (t.label off))
  | .jmp sa imm => h.jump ((h.rs sa).map (fun x => x + imm.signExtend 64))
  | .call sd tgt =>
    (match tgt with
     | .label off => (h.jump (some (t.label off))).wr sd (some (t.pc + 8))
     | .reg sa => (h.jump (h.rs sa)).wr sd (some (t.pc + 8)))
  | .ret sa => h.jump (h.rs sa)
  | .loop sd off =>
    (match h.rs sd with
     | none => h.stop
     | some x => if x = 1 then next (h.wr sd (some 0)) else (h.jump (some (t.label off))).wr sd (some (x - 1)))
  | i => next (h.scalar i)

/-! ### The tile side -/

/-- The scalar registers that a tile-side instruction reads. -/
def tileScalars (ins : Instr) : List SReg :=
  match ins with
  | .tld _ _ sx | .tst _ _ sx | .tldff _ _ sx | .tgth _ _ _ _ _ sx | .tsct _ _ _ _ sx => [sx]
  | .tcopy _ _ sd ss => [sd, ss]
  | .tcopyStr _ _ ss => [ss]
  | .ldb dims _ so => so :: dims.toList
  | .ldbm dims _ sx so => [sx, so] ++ dims.toList
  | .mma _ _ _ ss sp _ | .mmat _ _ ss sp | .ablk _ _ _ _ ss sp _ => [ss, sp]
  | .mmam _ _ _ ss sx sp _ => [ss, sx, sp]
  | .ard _ _ _ _ sw sx _ => [sw, sx]
  | .awr _ _ _ sw | .amaxa _ _ _ sw => [sw]
  | .route _ _ _ se => [se]
  | .iwalk _ _ _ ss sx => [ss, sx]
  | _ => []

/-- The tile names whose contents a tile-side instruction writes. -/
def tileDsts (ins : Instr) : List TReg :=
  match ins with
  | .tadd _ _ td _ _ | .tsub _ _ td _ _ | .tmul _ _ td _ _ | .tfma _ _ td _ _ | .tmax td _ _ | .tmin td _ _
  | .tcmp _ td _ _ | .tsel td _ _ | .tmov td _ | .tcvt _ _ _ td _ | .tld td _ _ | .tldff td _ _ | .ttrn td _
  | .tgth _ _ td _ _ _ | .tfill td _ | .tiota td _ _ | .tslide _ _ td _ _ | .tpack td _ | .tunpk td _ | .tqnt _ _ td _
  | .tdqt _ _ td _ | .map _ _ td _ _ _ _ _ | .reduce _ _ _ td _ _ _ _ _ | .scan _ _ _ td _ _ _ _ _
  | .ard _ _ td _ _ _ _ | .amaxa _ td _ _ | .ablk _ _ td _ _ _ _ => [td]
  | .route td tc _ _ | .iwalk td tc _ _ _ => [td, tc]
  | _ => []

/-- Bytes of a bitmap-sparse record. -/
def spanChks (i : TIn) (d : Shape) (acc : Access) : List (Chk (List Nat)) :=
  (List.range d.span).map (fun b => i.s.recKeys i.t d acc .team (d.base + b) 1)

/-- The probes of an element of a record: its bytes, and apart from them its segment's scale and its padding. -/
def probeEl (i : TIn) (d : Shape) (acc : Access) (path : Path) (idx : List Nat) (first : Bool) : List (Chk Unit) :=
  [(i.s.site i.t d acc path idx).map (fun _ => ())] ++
  (if d.layout = 2 ∧ first = true then
    [if decide (d.scaleAddr idx < d.base) || decide (d.bound ≤ d.scaleAddr idx) then failK kBounds path
     else (i.s.scaleSite i.t d acc path idx).map (fun _ => ())] else []) ++
  [(padSite i.s i.t d acc path idx).map (fun _ => ())]

/-- The probes of the elements of an extent; `idx` gives the record's indices of (r, c). -/
def probeEls (i : TIn) (h : Handle) (acc : Access) (path : Path) (els : List (Nat × Nat)) (idx : Nat → Nat → List Nat) :
    List (Chk Unit) :=
  els.flatMap (fun rc => probeEl i (i.rcd h) acc path (idx rc.1 rc.2) (rc.2 % 32 == 0))

/-- The indices of (r, c) of a record from an origin (R156). -/
def fromOrigin (w : Word) (r c : Nat) : List Nat := [(originOf w).2 + c, (originOf w).1 + r]

/-- The probes of one copy row: sources and destinations. -/
def probeCopy (i : TIn) (c : Copy) (n : Nat) : List (Chk Unit) :=
  (copyLine c.src n c.srcIdx c.dstIdx c.row).flatMap (fun e =>
    probeEl i c.src .read .copy e.2.1 true ++ (if c.q.isSome then [] else probeEl i c.dst .write .copy e.2.2 true))

/-- The probes of a tile-side instruction that has passed its checks. -/
def Shadow.probeTile (h : Shadow) (ins : Instr) (i : TIn) : Shadow :=
  match ins with
  | .tld _ hd sx =>
    if (i.rcd hd).sparse then h.seeAll (spanChks i (i.rcd hd) .read)
    else h.seeAll (probeEls i hd .read .team i.ext (fromOrigin (i.c.rs sx)))
  | .tst _ hd sx =>
    if (i.rcd hd).sparse then h.seeAll (spanChks i (i.rcd hd) .write)
    else h.seeAll (probeEls i hd .write .team i.ext (fromOrigin (i.c.rs sx)))
  | .tldff td hd sx =>
    if !i.c.live then h
    else if (i.rcd hd).sparse then
      (match runSparse i td hd true with
       | .ok (_, cut) => h.know [2] (h.team.truncated i.c.ec cut)
       | .error (.fault f) => h.meet f
       | .error _ => h)
    else
      let (es, stop) := firstFault (loadChks i td hd sx)
      match stop with
      | some (.fault f) =>
        if es.isEmpty || !truncates f then h.meet f
        else h.know [2] (h.team.truncated i.c.ec (some ((es.length / i.c.ec, es.length % i.c.ec), f)))
      | _ => h.know [2] { h.team with fsr := 0 }
  | .tgth u kind _ ti hd sx => if h.xt.contains ti.t then h
    else h.seeAll (probeEls i hd .read (gatherPath u) i.ext
      (gatherIdx kind (i.rcd hd) (i.rd ti.t) (originOf (i.c.rs sx)).1 (originOf (i.c.rs sx)).2))
  | .tsct kind _ ti hd sx => if h.xt.contains ti.t then h
    else h.seeAll (probeEls i hd .write .team i.ext
      (gatherIdx kind (i.rcd hd) (i.rd ti.t) (originOf (i.c.rs sx)).1 (originOf (i.c.rs sx)).2))
  | .ldbm _ hd sx _ => h.seeAll (probeEls i hd .read .mload i.ext (fromOrigin (i.c.rs sx)))
  | .mmam _ _ hd ss sx sp _ =>
    let d := mdims (i.c.rs ss) (i.c.rs sp)
    if d.live then
      (List.range (d.m - i.xrow)).foldl (fun h r => if h.ended then h
        else h.seeAll (probeEls i hd .read .mload ((List.range d.k).map (fun c => (i.xrow + r, c))) (fromOrigin (i.c.rs sx)))) h
    else h
  | .tcopy _ hd sd ss =>
    (match copyStart i 0 0 none hd (i.c.rs sd) (i.c.rs ss) with
     | .error (.fault f) => h.meet f
     | .error _ => h
     | .ok c =>
       if c.src.layout = 3 then h.seeAll ((spanChks i c.src .read ++ spanChks i c.dst .write))
       else
         let n := (copyCount c.src c.srcWord).getD 0
         (List.range (c.rows - c.row)).foldl (fun h r =>
           if h.ended then h else h.seeAll (probeCopy i { c with row := c.row + r } n)) h)
  | .tcopyStr q hd ss =>
    (match copyStart i 0 0 (some q) hd 0 (i.c.rs ss) with
     | .error (.fault f) => h.meet f
     | .error _ => h
     | .ok c =>
       let n := (copyCount c.src c.srcWord).getD 0
       let h := (List.range (c.rows - c.row)).foldl (fun h r =>
         if h.ended then h else h.seeAll (probeCopy i { c with row := c.row + r } n)) h
       let t := h.team
       h.put (match t.q.get q.toFin with
         | some st => { t with q := t.q.set q.toFin (some { st with claimable := st.claimable + (c.rows - c.row) }) }
         | none => t))
  | _ => h

/-- What a tile-side instruction makes unknown among the special registers: flags, and the extents of a first-fault load. -/
def tileForgets (ins : Instr) : List (BitVec 5) :=
  match ins with
  | .tldff .. => [0, 1, 2, 3, 4]
  | _ => [3, 4]

/-- A tile-side instruction in the shadow; `cap` is what it captures, before the scalar slot of its word. -/
def Shadow.tile (h : Shadow) (ins : Instr) (cap : Capture) (ok : Bool) : Shadow :=
  if ins = .nop then h
  else if ins.isOutward || (ins.pushes && decide (16 ≤ h.team.credits)) then h.stop
  else
    -- a seventeenth push is a fault of another kind (R113)
    let xrow := h.xp.contains 6
    let h := h.forget [3, 4]
    let h := h.put { h.team with credits := if ins.pushes then h.team.credits + 1 else h.team.credits }
    let t := h.team
    let i : TIn := ⟨h.s, t, cap, [], t.xrow.toNat, none, none, false, false⟩
    match ins with
    | .tdecl .. | .trel _ | .qbind .. | .qrel _ =>
      (match tileAccept ins i with
       | .error (.fault f) => h.meet f
       | .error _ => h
       | .ok _ =>
         match tileRun ins 0 i with
         | .done s => { h with s := s }
         | _ => h)
    | _ =>
      let known := ok && (tileScalars ins).all (fun r => r == 0 || !h.xs.contains r) && !(capturesXrow ins cap && xrow)
      let h := if !known then (if capturesXrow ins cap then h.know [6] { h.team with xrow := 0 } else h.forget (tileForgets ins))
        else match tileAccept ins i with
          | .error (.fault f) => h.meet f
          | .error _ => h
          | .ok _ => (h.probeTile ins i).put
              (if capturesXrow ins cap then { (h.probeTile ins i).team with xrow := 0 } else (h.probeTile ins i).team)
      let t := (tileDsts ins).foldl (fun (t : Team) n => match t.tile n with
        | some x => t.putTile n (some { x with written := true })
        | none => t) h.team
      { h.put t with xt := tileDsts ins ++ h.xt }

/-! ### Words -/

/-- One word in the shadow. -/
def Shadow.word (h : Shadow) (b : Bundle) : Shadow :=
  let t := h.team
  let next := fun (h : Shadow) => h.put { h.team with pc := t.pc + BitVec.ofNat 64 b.bytes }
  let transfer := (match b.body with
    | .long (.br _) | .long (.jmp ..) | .long (.call ..) | .long (.ret _) | .long (.loop ..) => true
    | _ => false)
  let tileOnly := fun (i : Instr) => i.isTileSide
  match h.rg b.guard.idx with
  | none =>
    -- whether the word runs is unknown: what it would write is unknown
    if transfer then h.stop
    else (match b.body with
      | .long i =>
        if i.isOutward then h.stop
        else if tileOnly i then next (skipped h i)
        else
          let h' := h.scalar i
          if h'.ended then h.stop
          else next (unsure h h')
      | .pair a i =>
        if i.isOutward || a.isOutward then h.stop
        else
          let h' := h.scalar a
          if h'.ended then h.stop
          else next (skipped (unsure h h') i))
  | some g =>
    if g == b.guard.inv then next h
    else
      let cap : Capture := ⟨t.ext, t.extc, t.drm, t.s⟩
      let ok := !h.xe
      match b.body with
      | .long i => if tileOnly i then next (h.tile i cap ok) else h.front i
      | .pair a i =>
        let k := h.xs
        let h1 := h.scalar a
        if h1.ended then h1
        else
          -- the tile slot reads what stood before the word
          let h2 := { h1 with xs := k }.tile i cap ok
          next { h2 with xs := h1.xs }
where
  /-- Registers that may have changed. -/
  unknownS (h h' : Shadow) : List SReg :=
    ((List.range 32).map (BitVec.ofNat 5)).filter (fun r => h.rs r != h'.rs r)
  /-- Guards that may have changed. -/
  unknownG (h h' : Shadow) : List GReg :=
    ((List.range 8).map (BitVec.ofNat 3)).filter (fun k => h.rg k != h'.rg k)
  /-- Special registers that may have changed. -/
  unknownP (h h' : Shadow) : List (BitVec 5) :=
    ((List.range 20).map (BitVec.ofNat 5)).filter (fun n => h.spr n != h'.spr n)
  /-- A scalar instruction that may or may not have run. -/
  unsure (h h' : Shadow) : Shadow :=
    { h with xs := unknownS h h' ++ h.xs, xg := unknownG h h' ++ h.xg, xp := unknownP h h' ++ h.xp }
  /-- A tile-side instruction that may or may not run. -/
  skipped (h : Shadow) (i : Instr) : Shadow :=
    { h.forget (tileForgets i ++ if capturesXrow i h.team.capture then [6] else []) with xt := tileDsts i ++ h.xt }

/-- Runs ahead over at most `n` words. -/
def Shadow.run : Nat → Shadow → Shadow
  | 0, h => h
  | n + 1, h =>
    if h.ended then h
    else match h.s.fetchWord h.team with
    | .error (.fault f) => (h.meet f).stop
    | .error _ => h.stop
    | .ok (w, l, s) =>
      match decodeWord w l with
      | .error _ => h.stop
      | .ok b => Shadow.run n ({ h with s := s }.word b)

/-- The pages that run-ahead finds for a fault at the team's checkpoint; the first is that of the reported fault. -/
def State.runAhead (s : State) (uid : Nat) (f : FaultInfo) : List PageRec :=
  if isPageKind f.kind then
    ((⟨s, uid, [], [], [], [], [], false⟩ : Shadow).meet f |> Shadow.run 4096).pages
  else []

end Sys2Proof.Machine
end

