-- ==== Sys2Proof/Machine/Ops.lean ====
section
/-!
DEFINITION. The shared operations of a team: held stores and commitment (R115, R118), taking a fault (R116, R220, R223),
the scalar front (R110 to R117), the block sequencer (R147, R161), boundaries that other publications precede.
-/

namespace Sys2Proof.Machine

/-! ### Held stores and commitment -/

/-- A store at place `n` in program order performs; a forced save may still have to undo it (R227). -/
def State.storeAt (s : State) (uid n : Nat) (cells : List Host.Cell) : State :=
  (s.store uid .team cells).modTeam uid (fun t => t.keepLate n (.write s.nextId))

/-- Performs held stores in program order. -/
def performHeld (uid : Nat) : List HeldStore → State → State
  | [], s => s
  | h :: hs, s => performHeld uid hs (s.storeAt uid h.seq h.cells)

/-- Performs the held stores of a team older than `n`. -/
def State.performStores (s : State) (uid n : Nat) : State :=
  match s.team? uid with
  | none => s
  | some t =>
    performHeld uid (t.sbuf.filter (fun h => decide (h.seq < n)))
      (s.putTeam { t with sbuf := t.sbuf.filter (fun h => decide (n ≤ h.seq)) })

/-- The place of the oldest instruction of the team that has not passed its fault point: an entry of the TIQ, or the
pair word in progress; with neither, the next word. -/
def Team.safeSeq (t : Team) : Nat :=
  match t.oldestSeq, t.pairing with
  | some n, _ => n
  | none, some (n, _) => n
  | none, none => t.wordSeq

/-- What fault points passed so far release: held stores perform (R118), history entries are freed (R115). -/
def State.settle (s : State) (uid : Nat) : State :=
  match s.team? uid with
  | none => s
  | some t => (s.performStores uid t.safeSeq).modTeam uid (fun t => t.commit)

/-! ### Taking a fault (R116, R220) -/

/-- Whether the spec leaves open if a record gives an address, and which: a bounds fault, and a fault at a byte of a record in
scratchpad or cluster space, whose offset is no virtual address (R220, log 81). -/
def FaultInfo.addrOpen (f : FaultInfo) : Bool :=
  f.addr.isNone && (f.kind == kBounds || (f.handle != 0 && (f.kind == kAccess || f.kind == kEcc)))

/-- Whether the spec leaves open which tile a record of a tile-side instruction names: Table 5.3 says so for order 1, for whole
records and for elements alone (R147, log 81). -/
def FaultInfo.nameOpen (f : FaultInfo) : Bool := f.tname.isNone && (f.kind == kIllOp || f.kind == kIllInstr)

/-- F3 of a fault record: AV and ADDR. -/
def addrWord (f : FaultInfo) (free : Nat) : Word :=
  if f.addrOpen then Config.freeWord (2 ^ 64 * (free + 1)) &&& 0x800F_FFFF_FFFF_FFFF
  else BitVec.ofBool f.addr.isSome ++ (0 : BitVec 11) ++ f.addr.getD 0

/-- TV and TNAME of a fault record; `tile` tells whether a tile-side instruction faults. -/
def nameBits (f : FaultInfo) (tile : Bool) (free : Nat) : BitVec 7 :=
  if tile && f.nameOpen then (Config.freeWord (2 ^ 64 * (free + 1) + 1)).truncate 7
  else BitVec.ofBool f.tname.isSome ++ f.tname.getD 0

/-- A fault record of eight doublewords (Table 7.5). -/
def faultWords (t : Team) (h : HeldFault) (xrow : BitVec 16) (npg : Nat) (seq : BitVec 32) (cyc : Word) (tile : Bool)
    (free : Nat) : List Word :=
  let f := h.info
  let (row, col) := f.coord.getD (0, 0)
  let (lfn, lpos) := f.lane.getD (0, 0)
  [ t.ctx ++ f.kind ++ f.path.code ++ BitVec.ofBool h.slot ++ BitVec.ofBool (npg != 0) ++ (0 : BitVec 10) ++ t.gid,
    h.pc,
    h.word,
    addrWord f free,
    BitVec.ofBool f.coord.isSome ++ nameBits f tile free ++ (0 : BitVec 8) ++ f.handle ++ row ++ col,
    BitVec.ofBool f.lane.isSome ++ lfn ++ lpos ++ xrow ++ (0 : BitVec 16) ++ f.code,
    BitVec.ofNat 9 npg ++ (0 : BitVec 23) ++ seq,
    cyc ]

/-- FCRD as a fault leaves it (Table 4.4). -/
def fcrdOf (f : FaultInfo) : Word :=
  match f.coord with
  | some (r, c) => (0 : BitVec 31) ++ (1 : BitVec 1) ++ r ++ c
  | none => 0

/-- The lines of a stream that discarded consumers took (R164). -/
def Team.returned (t : Team) (y : Younger) (q : QReg) : List (List Word) :=
  match t.q.get q.toFin with
  | some st => st.taken.drop (y.taken.get q.toFin)
  | none => []

/-- Of the lines that go back, those past the room of the stream that the copy in progress fills: they are left to that
copy (log 44). -/
def Team.over (t : Team) (y : Younger) (q : QReg) : Nat :=
  match t.q.get q.toFin, t.copies.head? with
  | some st, some c => if c.q = some q then (t.returned y q).length + st.lines.length - t.streamLines st else 0
  | _, _ => 0

/-- A stream with the lines back that discarded consumers took, in their order (R164). -/
def Team.refill (t : Team) (y : Younger) (q : QReg) (st : Stream) : Stream :=
  let back := t.returned y q
  { st with lines := (back ++ st.lines).take (back.length + st.lines.length - t.over y q),
            claimable := st.claimable + back.length - t.over y q, taken := st.taken.take (y.taken.get q.toFin) }

/-- The tile names, draws, pushes, streams and stream lines of instructions that ran past a discarded entry, undone (R116,
R164); their flags have not joined FPST and SATF yet. -/
def Team.restore (t : Team) (y : Younger) : Team :=
  { t with tiles := y.tiles, lfsr := y.lfsr, bq := t.bq.take (t.bq.length - y.pushed), credits := t.credits - y.pushed,
           q := Vector.ofFn (fun i =>
             match y.rebound.find? (fun r => r.1.toFin == i) with
             | some r => r.2
             | none => (t.q.get i).map (t.refill y (BitVec.ofNat 3 i.val))) }

/-- The lines that a discarded copy into a stream will not bring are not claimable. -/
def Team.dropClaims (t : Team) : Team :=
  match t.copies.head? with
  | some c => (match c.q with
    | some q => (match t.q.get q.toFin with
      | some st => { t with q := t.q.set q.toFin (some { st with claimable := st.claimable - (c.rows - c.row) }) }
      | none => t)
    | none => t)
  | none => t

/-- What stood before instructions ran past the entry at place `n`. -/
def Team.pastAt (t : Team) (n : Nat) : Option Younger :=
  (t.tiq.find? (fun e => e.seq == n)).bind (·.past)

/-- The team as R116 leaves it: younger TIQ entries are discarded and their credits with them, uncommitted writes
undone, held stores of discarded instructions dropped, PC at the faulting word; then FCRD and XROW as R220 says. Lines past
the room of their stream are the discarded copy's to copy again. -/
def Team.rollBack (t : Team) (h : HeldFault) : Team :=
  let gone := t.tiq.filter (fun e => decide (h.seq ≤ e.seq))
  let y := t.pastAt h.seq
  let lost := match y, t.copies.head? with
    | some y, some c => (c.q.map (t.over y)).getD 0
    | _, _ => 0
  let u := (t.undoFrom h.seq).dropClaims
  let u := (y.map u.restore).getD u
  { u with
    tiq := t.tiq.filter (fun e => decide (e.seq < h.seq)),
    credits := u.credits - (gone.filter (fun e => e.instr.pushes)).length,
    copies := [], broken := (t.copies.head?.map (fun c => { c with row := c.row - lost })).filter (fun c => c.q.isSome),
    sbuf := t.sbuf.filter (fun x => decide (x.seq < h.seq)),
    pairing := none, heldFault := none, wait := .none, tileWalk := none,
    pc := h.pc, wordSeq := h.seq, fcrd := fcrdOf h.info, xrow := (h.info.xrow.getD u.xrow) - BitVec.ofNat 16 lost }

/-- Takes a fault: the team rolls back and stops, and its record is on its way to the fault queue (R116, R220). -/
def State.takeFault (s : State) (uid : Nat) (h : HeldFault) : State :=
  match s.team? uid with
  | none => s
  | some t =>
    let tile := t.tiq.any (fun e => e.seq == h.seq)
    let s := (s.putTeam (t.rollBack h)).settle uid
    match s.team? uid with
    | none => s
    | some t =>
      let pages := s.runAhead uid h.info
      let seq := (match s.teamCtx? t with
        | some c => c.faultSeq
        | none => 0)
      let words := faultWords t h t.xrow pages.length seq (s.cyc t) tile s.free ++ pages.map PageRec.entry
      let s := s.putTeam { t with status := .stopped h.resume seq }
      let s := s.modCtx t.pkg t.ctx (fun c =>
        { c with faultSeq := c.faultSeq + 1, posts := c.posts ++ [⟨uid, t.launch, words⟩] })
      match s.launch? t.launch with
      | some l => s.putLaunch { l with faults := l.faults + 1 }
      | none => s

/-- A fault of the front (R116), in the tile slot of a pair or not (R43): taken at once, or held while an older tile-side
instruction may fault. -/
def State.slotFault (s : State) (uid : Nat) (f : FaultInfo) (resume : Option Word) (slot : Bool) : State :=
  match s.team? uid with
  | none => s
  | some t =>
    let h : HeldFault := ⟨f, t.seqHere, t.pc, t.word, slot, resume.getD t.pc⟩
    if t.clear then s.takeFault uid h
    else s.putTeam { t with heldFault := some h, pairing := none, wait := .none }

/-- A fault of the front outside a tile slot. -/
def State.frontFault (s : State) (uid : Nat) (f : FaultInfo) (resume : Option Word) : State := s.slotFault uid f resume false

/-- Takes a held fault once nothing older is left. -/
def State.takeHeld (s : State) (uid : Nat) : State :=
  match s.team? uid with
  | some t =>
    (match t.heldFault, t.clear with
     | some h, true => s.takeFault uid h
     | _, _ => s)
  | none => s

/-! ### The scalar front -/

/-- Whether a front instruction that is not outward writes a register (R115). -/
def frontWrites (i : Instr) : Bool :=
  match i with
  | .nop | .hint .. | .st .. | .br _ | .jmp .. | .ret _ | .drain .. | .pref .. | .evict .. => false
  | i => !i.isOutward

/-- Whether an instruction is UPD. -/
def isUpd (i : Instr) : Bool :=
  match i with
  | .upd .. => true
  | _ => false

/-- The guards that a front instruction reads or writes besides the word's own (R112). -/
def guardOperands (i : Instr) : List GReg :=
  match i with
  | .sel k .. => [k]
  | .cmp _ _ k .. => [k]
  | .gop _ d a b => [d, a, b]
  | .probe _ _ k .. => [k]
  | _ => []

/-- Whether the tile side may write a special register that a front instruction names (R136, R158). -/
def Team.sprBusy (t : Team) (n : BitVec 5) : Bool :=
  if n.toNat ≤ 1 then t.extPending else decide (n.toNat ≤ 8) && !t.tiq.isEmpty

/-- Entries of the history buffer that hold a register's old value (R115). -/
def Team.histEntries (t : Team) : Nat :=
  (t.hist.filter (fun u => match u.what with
    | .sat | .flags _ _ | .pop _ => false
    | _ => true)).length

/-- Whether an outward instruction waits for the tile side: until every older entry has passed its fault point (R117),
and, where it could not be taken back, until no ALLX is open that a forced save would discard with it (R227), whose
accesses perform and whose members it would acquire (R215, R371) (log 104). TRAP and BRK stop the team; FORK and JOIN test
their operands first and then wait themselves. -/
def Team.outwardWaits (t : Team) (i : Instr) : Bool :=
  match i with
  | .trap _ | .brk _ | .fork .. | .join _ => !t.clear
  | _ => !t.tiq.isEmpty

/-- Whether a front instruction cannot issue yet: a fault is held, the history buffer is full (a word of several writes
needs one free entry, log 95), an outward instruction
has older tile-side work (R117), a guard is pending (R112), a special register, the extents or a load wait for the tile
side (R118, R136). -/
def Team.mustWait (t : Team) (i : Instr) : Bool :=
  t.heldFault.isSome ||
  (frontWrites i && decide (64 ≤ t.histEntries)) ||
  (i.isOutward && t.outwardWaits i) ||
  (guardOperands i).any t.pending ||
  (match i with
   | .mfs _ n => t.sprBusy n
   | .mts n _ => t.sprBusy n
   | .ldff .. => t.extPending || t.storePending
   | .ld .. => t.storePending
   | .drain upd copy tiq => t.tiq.any (fun e => tiq || (copy && isCopy e.instr) || (upd && isUpd e.instr))
   | .yield .. => t.preq && !t.tiq.isEmpty
   | _ => false)

/-- The team that issues now: the current one, while it runs. -/
def State.issuing? (s : State) : Option Team :=
  match s.curTeam? with
  | some t => if t.status = .running then some t else none
  | none => none

/-- A walk of the front waits on a node under migration (R273). -/
def Team.startWalk (t : Team) (now : Nat) : Team :=
  match t.wait with
  | .walk _ => t
  | _ => { t with wait := .walk now }

/-- Runs a front instruction: `f` is its work on the team that issues, which moves PC itself; a stop of `f` is a fault
precise at the word, a wait on a walk, or a wait. -/
def State.front (s : State) (i : Instr) (f : Team → Run) : Host.Outcome State Fault Refusal :=
  match s.issuing? with
  | none => .fault .noRunningTeam
  | some t =>
    if t.mustWait i then .next s
    else
      match f t with
      | .done s' => .next s'
      | .part s' _ => .next s'
      | .fail s' info => .next (s'.frontFault t.uid info none)
      | .walk => .next (s.putTeam (t.startWalk s.now))
      | .stall s' => .next s'

/-- A front instruction that changes the team alone and goes on to the next word. -/
def State.frontTeam (s : State) (i : Instr) (f : Team → Team) : Host.Outcome State Fault Refusal :=
  s.front i (fun t => .done (s.putTeam ((f t).advance i.longBytes)))

/-- The word of the team is done. -/
def State.advance (s : State) (uid n : Nat) : State := s.modTeam uid (fun t => t.advance n)

/-- A boundary as part of an instruction (R207): it waits for the Press, then goes on. -/
def State.bound (s : State) (uid : Nat) (sc : ScopeCode) (prec : List Nat) (k : State → Run) : Run :=
  match s.boundaryAfter uid sc prec with
  | none => .stall (s.handOffAll uid)
  | some s => k s

/-- A front check that ends in a state. -/
def chkRun (s : State) {α : Type} (x : Chk α) (k : α → Run) : Run :=
  match x with
  | .ok a => k a
  | .error (.fault f) => .fail s f
  | .error .walk => .walk
  | .error .stall => .stall s

/-! ### The block sequencer -/

/-- A fault at a TIQ entry. -/
def TileEntry.held (e : TileEntry) (f : FaultInfo) : HeldFault := ⟨f, e.seq, e.pc, e.word, e.slot, e.pc⟩

/-- The team as its tile side sees it: a walk of the tile side waits since `tileWalk`. -/
def Team.forTile (t : Team) : Team :=
  { t with wait := match t.tileWalk with
      | some st => .walk st
      | none => .none }

/-- A walk of the tile side waits. -/
def State.startTileWalk (s : State) (uid : Nat) : State :=
  s.modTeam uid (fun t => match t.tileWalk with
    | some _ => t
    | none => { t with tileWalk := some s.now })

/-- Changes the head of the TIQ. -/
def Team.modHead (t : Team) (f : TileEntry → TileEntry) : Team :=
  match t.tiq with
  | e :: es => { t with tiq := f e :: es }
  | [] => t

/-- Gives the front its own wait back after work of the tile side, which waits on no walk any more. -/
def State.backToFront (s : State) (uid : Nat) (w : Wait) : State :=
  s.modTeam uid (fun t => { t with wait := w, tileWalk := none })

/-- The records that an instruction reads at acceptance (R64). -/
def State.recsAt (s : State) (t : Team) (e : TileEntry) : List (Handle × Shape) :=
  (tileHandles e.instr e.cap).map (fun h => (h, s.readShape t h))

/-- The team as an entry finds its tile names and draws: as they stood before younger instructions ran past it (R25, R148). -/
def Team.asOf (t : Team) (e : TileEntry) : Team :=
  match e.past with
  | some y => { t with tiles := y.tiles, lfsr := y.lfsr }
  | none => t

/-- The tile names that an entry holds slots for: those it writes and those it reads. -/
def TileEntry.slotNames (e : TileEntry) : List TReg × List TReg := if e.holds then tileNames e.instr else ([], [])

/-- The slots of what a tile name holds, if it is bound and meets a condition. -/
def slotsIf (p : Tile → Bool) (x : Option Tile) : Nat :=
  match x with
  | some x => if p x then x.geo.slots else 0
  | none => 0

/-- One entry's part in the slots of a tile name's contents: their number so far, and whether those that stand are counted. -/
def Team.slotStep (t : Team) (n : TReg) (acc : Nat × Bool) (e : TileEntry) : Nat × Bool :=
  let x := (t.asOf e).tile n
  let acc := if e.slotNames.2.contains n && !acc.2 then (acc.1 + slotsIf (fun x => x.written || x.strm.isSome) x, true) else acc
  let acc := if e.slotNames.1.contains n then (acc.1 + slotsIf (fun _ => true) x, true) else acc
  if e.past.any (fun y => y.after.contains n) then (acc.1, false) else acc

/-- The slots of all contents of one tile name that are in use (R148): what each of some entries, in program order, reads or
writes, and what the name holds after them; contents that several of them read count once. -/
def Team.slotsNamed (t : Team) (es : List TileEntry) (n : TReg) : Nat :=
  let acc := es.foldl (t.slotStep n) (0, false)
  if acc.2 then acc.1 else acc.1 + slotsIf (·.written) (t.tile n)

/-- The tile slots in use with some entries of the team accepted (R148, R149, log 13). -/
def Team.slotsUsed (t : Team) (es : List TileEntry) : Nat :=
  ((List.range 64).map (fun n => t.slotsNamed es (BitVec.ofNat 6 n))).sum

/-- The accepted entries of the TIQ. -/
def Team.taken (t : Team) : List TileEntry := t.tiq.filter (·.accepted)

/-- Whether an entry can be accepted now: it takes no fresh slots or the share has enough of them free (R148, R149), and a
copy finds fewer than 16 accepted ones (R161). Where the written names alone leave too few, it waits for ever (log 13). -/
def Team.roomFor (t : Team) (e : TileEntry) : Bool :=
  (e.slotNames.1.isEmpty || decide (t.slotsUsed (t.taken ++ [e]) ≤ slotShare t.part)) &&
  (!isCopy e.instr || decide ((t.taken.filter (fun x => isCopy x.instr)).length < 16))

/-- The state as if the held stores older than `n` had performed, which the team's own younger reads see (R118, R153). -/
def State.foresee (s : State) (uid n : Nat) : State := s.performStores uid n

/-- The state `z` with the writes taken out again that a look ahead from `s` has made. -/
def State.unforesee (z s : State) (t : Team) : State :=
  { z with writes := z.writes.filter (fun w => decide (w.id < s.nextId)), bad := s.bad }.modTeam t.uid (fun u =>
    { u with sbuf := t.sbuf, late := t.late, views := u.views.map (fun (v : List Nat) => v.filter (fun n => decide (n < s.nextId))) })

/-- Acceptance of an entry (R147): its records are read, its checks made, free slots awaited (R149), its lane function
(R81) and its region (R316) read, its restart row captured (R190). -/
def State.acceptEntry (s : State) (t : Team) (e : TileEntry) : Chk (TileEntry × State) := do
  let t1 := t.forTile
  let i : TIn := ⟨s.putTeam t1, t1, e.cap, s.recsAt t e, t.xrow.toNat, none, none, false, false⟩
  tileAccept e.instr i
  let e := { e with
    accepted := true, recs := s.recsAt t e, region := tileRegion e.instr i, holds := tileHolds e.instr i, xrow := t.xrow.toNat }
  if t.roomFor e then .ok () else .error .stall
  match tileCode e.instr i with
  | none => .ok (e, s)
  | some (.ok (code, s')) => .ok ({ e with code := some code }, s'.putTeam t)
  | some (.error x) => .error x

/-- Acceptance of an entry of the team, whose reads see the team's older held stores (R118, R153). -/
def State.acceptSeeing (s : State) (t : Team) (e : TileEntry) : Chk (TileEntry × State) :=
  if t.sbuf.isEmpty then s.acceptEntry t e
  else
    let z := s.foresee t.uid (e.seq + 1)
    match z.team? t.uid with
    | none => .error .stall
    | some v => do
      let (e', z') ← z.acceptEntry v e
      .ok (e', z'.unforesee s t)

/-- The head of the TIQ is accepted (R147). -/
def State.acceptHead (s : State) (uid : Nat) : State :=
  match s.team? uid with
  | none => s
  | some t =>
    match t.tiq with
    | [] => s
    | e :: _ =>
      if e.accepted then s
      else
        match s.acceptSeeing t e with
        | .error (.fault f) => s.takeFault uid (e.held f)
        | .error .walk => s.startTileWalk uid
        | .error .stall => s
        | .ok (e', s') =>
          s'.putTeam { (t.modHead (fun _ => e')) with
            tileWalk := none, xrow := if capturesXrow e.instr e.cap then 0 else t.xrow }

/-- The copy that an entry begins (R161, R164). -/
def copyBegin (i : TIn) (e : TileEntry) : Chk Copy :=
  match e.instr with
  | .tcopy tag h sd ss => copyStart i e.seq tag none h (e.cap.rs sd) (e.cap.rs ss)
  | .tcopyStr q h ss => copyStart i e.seq 0 (some q) h 0 (e.cap.rs ss)
  | _ => .error .stall

/-- Whether an instruction leaves part of its work done when it faults (R161, R189). -/
def leavesPart (i : Instr) : Bool :=
  match i with
  | .tcopy .. | .tcopyStr .. | .mma .. | .mmam .. | .mmat .. => true
  | _ => false

/-- The lines that a copy into a stream will bring become claimable, in program order (R164). -/
def Team.claimLines (t : Team) (c : Copy) : Team :=
  match c.q with
  | some q => (match t.q.get q.toFin with
    | some st => { t with q := t.q.set q.toFin (some { st with claimable := st.claimable + (c.rows - c.row) }) }
    | none => t)
  | none => t

/-- The team with the tile names and draws of younger instructions again, where an entry that they ran past has yet to write
its own. -/
def Team.namesBack (t : Team) (e : TileEntry) (old : Team) : Team :=
  if e.past.isSome then { t with tiles := old.tiles, lfsr := old.lfsr } else t

/-- The streams that an instruction names, by a q register or by binding afresh a tile name of theirs. -/
def Team.qNames (t : Team) (ins : Instr) : List QReg :=
  match ins with
  | .qbind q _ | .qrel q | .tcopyStr q _ _ => [q]
  | .tdecl td _ | .trel td => t.streamsOf [td]
  | _ => []

/-- The tile names that an instruction binds or unbinds. -/
def Team.binds (t : Team) (ins : Instr) : List TReg :=
  match ins with
  | .tdecl td _ | .trel td | .qbind _ td => [td]
  | .qrel q => ((t.q.get q.toFin).map (·.tile)).toList
  | _ => []

/-- Gives the younger entries that instructions have run past what `u` holds of some tile names, of the draws when they have
moved, and of the lines taken from some streams; a name that has been written since keeps what it holds. It answers the
names that nothing has written since, too. -/
def passOn (u : Team) (drawn : Bool) (qs : List QReg) : List TReg → List TileEntry → List TReg × List TileEntry
  | ns, [] => (ns, [])
  | ns, e :: es =>
    match e.past with
    | none => (ns, e :: es)
    | some y =>
      let y := { y with
        tiles := ns.foldl (fun (ts : Vector (Option Tile) 64) n => ts.set n.toFin (u.tile n)) y.tiles,
        lfsr := if drawn then u.lfsr else y.lfsr,
        taken := qs.foldl (fun (v : Vector Nat 8) q =>
          v.set q.toFin (((u.q.get q.toFin).map (fun st => st.taken.length)).getD 0)) y.taken }
      let (ms, es) := passOn u drawn qs (ns.filter (fun n => !y.after.contains n)) es
      (ms, { e with past := some y } :: es)

/-- The team after an entry that younger instructions have run past: what it wrote stands for the younger ones that wait, and
for all, where no younger one has written the name (R148). -/
def Team.inOrder (u : Team) (e : TileEntry) (old : Team) : Team :=
  match e.past with
  | none => u
  | some y =>
    let drawn := u.lfsr != y.lfsr
    let qs := old.qNames e.instr ++ (old.asOf e).streamsOf (tileNames e.instr).2
    let ns := ((tileNames e.instr).1 ++ old.binds e.instr).filter (fun n => !y.after.contains n)
    let (ms, es) := passOn u drawn qs ns (u.tiq.filter (fun x => decide (e.seq < x.seq)))
    { u with tiles := ms.foldl (fun (ts : Vector (Option Tile) 64) n => ts.set n.toFin (u.tile n)) old.tiles,
             lfsr := if drawn then u.lfsr else old.lfsr,
             tiq := u.tiq.filter (fun x => decide (x.seq ≤ e.seq)) ++ es }

/-- The accepted head of the TIQ runs (R151): its work, or the start of its copy. A store in the scalar slot of the
same word precedes it and stays only if it does not fault (R43, R153). With `step`, a run of rows goes on by one row
group, or by one row (R189, R319). -/
def State.issueHead (s : State) (uid : Nat) (step : Bool) : State :=
  match s.team? uid with
  | none => s
  | some t =>
    match t.tiq with
    | [] => s
    | e :: _ =>
      if !e.accepted || e.issued then s
      else
        let s0 := s.putTeam (t.forTile.asOf e)
        let s1 := if leavesPart e.instr then s0 else s0.performStores uid (e.seq + 1)
        match s1.team? uid with
        | none => s
        | some t1 =>
          let i := e.tin s1 t1 step
          if isCopy e.instr then
            match copyBegin i e with
            | .ok c => s.putTeam { (t.claimLines c).modHead (fun e => { e with issued := true }) with
                copies := [c], broken := none, tileWalk := none }
            | .error (.fault f) => s.takeFault uid (e.held f)
            | .error .walk => s.startTileWalk uid
            | .error .stall => s
          else
            match tileRun e.instr e.seq i with
            | .done s' => (s'.modTeam uid (fun u =>
                (u.inOrder e t).modHead (fun e => { e with issued := true }))).backToFront uid t.wait
            | .fail s' f =>
              if leavesPart e.instr then (s'.backToFront uid t.wait).takeFault uid (e.held f)
              else s.takeFault uid (e.held f)
            | .walk => s.startTileWalk uid
            | .stall s' => (s'.modTeam uid (fun u => u.namesBack e t)).backToFront uid t.wait
            | .part s' row =>
              (s'.modTeam uid (fun u =>
                (u.namesBack e t).modHead (fun e => { e with begun := true, xrow := row }))).backToFront uid t.wait

/-- One copy row of the copy in progress (R161). -/
def State.stepCopy (s : State) (uid : Nat) : State :=
  match s.team? uid with
  | none => s
  | some t =>
    match t.tiq, t.copies with
    | e :: _, c :: _ =>
      if c.rows ≤ c.row then s
      else
        let t1 := t.forTile
        match copyRow (e.tin (s.putTeam t1) t1 false) c with
        | .ok s' => (s'.modTeam uid (fun t => { t with copies := [{ c with row := c.row + 1 }] })).backToFront uid t.wait
        | .error (.fault f) => s.takeFault uid (e.held { f with xrow := some (BitVec.ofNat 16 c.row) })
        | .error .walk => s.startTileWalk uid
        | .error .stall => s
    | _, _ => s

/-- Whether the copy in progress has moved every row. -/
def Team.copyDone (t : Team) : Bool :=
  match t.copies with
  | c :: _ => decide (c.rows ≤ c.row)
  | [] => true

/-- Once no entry is left that instructions have run past, what consumers took of streams is gone (R164). -/
def Team.keepYounger (t : Team) : Team :=
  if t.tiq.any (fun e => e.past.isSome) then t
  else { t with q := t.q.map (fun x => x.map (fun st => { st with taken := [] })) }

/-- The TIQ without its head. -/
def Team.leave (t : Team) (es : List TileEntry) : Team := Team.keepYounger { t with tiq := es, copies := [] }

/-- The head of the TIQ has done its work: it leaves (R111), and history entries that waited for it are freed (R115). -/
def State.leaveHead (s : State) (uid : Nat) : State :=
  s.modTeam uid (fun t => match t.tiq with
    | [] => t
    | e :: es => if e.issued && t.copyDone then (t.leave es).commit else t)

/-- The head of the TIQ leaves if its work is done, held stores perform (R118) and a held fault may be taken (R116). -/
def State.completeHead (s : State) (uid : Nat) : State := ((s.leaveHead uid).settle uid).takeHeld uid

/-- Rows of a copy one after another. -/
def stepCopies (uid : Nat) : Nat → State → State
  | 0, s => s
  | n + 1, s => stepCopies uid n (s.stepCopy uid)

/-- Rows that the copy in progress has left. -/
def State.copyLeft (s : State) (uid : Nat) : Nat :=
  match s.team? uid with
  | some t => (match t.copies with
    | c :: _ => c.rows - c.row
    | [] => 0)
  | none => 0

/-- What stands now, for the entries that an instruction runs past. -/
def Team.younger (t : Team) : Younger :=
  ⟨t.tiles, t.lfsr, 0, t.q.map (fun x => (x.map (fun st => st.taken.length)).getD 0), [], []⟩

/-- A stream as it stands goes to what is undone with an entry, before an instruction rebinds it. -/
def Team.keepStream (t : Team) (y : Younger) (q : QReg) : Younger :=
  if y.rebound.any (fun r => r.1 == q) then y
  else { y with rebound := (q, (t.q.get q.toFin).map (t.refill y q)) :: y.rebound }

/-- An entry `e` that runs past `front`: each of those keeps what stood before. -/
def Team.markPast (t : Team) (e : TileEntry) : List TileEntry → List TileEntry
  | [] => []
  | f :: fs =>
    let y := (t.qNames e.instr).foldl t.keepStream (f.past.getD t.younger)
    let y := if e.instr.pushes then { y with pushed := y.pushed + 1 } else y
    let y := if fs.isEmpty then { y with
      after := y.after ++ (tileNames e.instr).1 ++ t.binds e.instr ++ (e.past.map (·.after)).getD [] } else y
    { f with past := some y } :: t.markPast e fs

/-- Whether the checks of an instruction at acceptance need what a waiting entry has yet to do: the binding of a tile name, or
the counts that ALLX reads. -/
def Team.checksNeed (t : Team) (h e : TileEntry) : Bool :=
  ((tileNames e.instr).1 ++ (tileNames e.instr).2 ++ t.binds e.instr).any (t.binds h.instr).contains ||
  (match e.instr with
   | .allx _ _ ta _ _ => (tileNames h.instr).1.contains ta
   | _ => false)

/-- Whether an instruction must follow an older one that waits: it reads what that one writes (R148), takes lines from the
same stream or rebinds it (R164, R165), pushes after it (R113) or uses the macros after it (R188). -/
def Team.follows (t : Team) (h e : TileEntry) : Bool :=
  let reads := fun (x : TileEntry) => (t.asOf x).streamsOf (tileNames x.instr).2
  let named := t.qNames h.instr
  (tileNames e.instr).2.any (tileNames h.instr).1.contains ||
  (t.qNames e.instr).any (fun q => named.contains q || (reads h).contains q) ||
  (reads e).any (fun q => (reads h).contains q ||
    (named.contains q && !(isCopy h.instr && (h.issued || (t.q.get q.toFin).any (fun st =>
      decide (slabLines e.cap.er ≤ st.claimable)))))) ||
  (h.instr.pushes && e.instr.pushes) || (isAblk h.instr && isAblk e.instr)

/-- Whether TWAIT waits for a copy (R163). -/
def waitsFor (ins : Instr) (c : TileEntry) : Bool :=
  match ins, c.instr with
  | .twait all n, .tcopy tag .. => all || n == tag
  | .twait all _, .tcopyStr .. => all
  | _, _ => false

/-- The team with the lines that older copies of the TIQ will bring claimed, which its checks count (R164). -/
def State.claiming (s : State) (t : Team) (front : List TileEntry) : Team :=
  front.foldl (fun u h => if h.issued then u else
    match copyBegin (h.tin s t false) h with
    | .ok c => u.claimLines c
    | .error _ => u) t

/-- Acceptance of an entry behind others that wait (R147), unless it has been accepted. -/
def State.acceptPast (z : State) (v : Team) (front : List TileEntry) (e : TileEntry) : Chk (TileEntry × State) :=
  if e.accepted then .ok (e, z)
  else do
    let (e', z') ← z.acceptEntry (z.claiming v front) e
    .ok (e', z'.modTeam v.uid (fun u => { u with
      q := v.q, xrow := if capturesXrow e.instr e.cap then 0 else v.xrow, tiq := u.tiq.map (fun x => if x.seq = e.seq then e' else x) }))

/-- The state as if an entry that waits had done its work, as far as younger reads of memory see it (R153), and whether such
reads must wait for it: it stores what is not known yet, or what it receives or publishes changes what they see. -/
def State.foreseeEntry (z : State) (v : Team) (front : List TileEntry) (e : TileEntry) : State × Bool :=
  match e.instr with
  | .tst .. | .tsct .. =>
    if front.any (fun h => v.follows h e) then (z, true)
    else
      let w := (v.asOf e).forTile
      (match tileRun e.instr e.seq (e.tin (z.putTeam w) w false) with
       | .done z2 => (z2.modTeam v.uid (fun u => { v with views := u.views, late := u.late }), false)
       | _ => (z, true))
  | .recvt .. | .vntq .. | .allx .. => (z, true)
  | .sendt .. => (z, z.pubs.any (fun b => b.ctx == v.ctx && b.uid != v.uid))
  | _ => (z, false)

/-- TLDFF past a copy leaves what undoes its extents and FSR (R116, R158). -/
def Team.logExtents (t u : Team) (e : TileEntry) : Team :=
  match e.instr with
  | .tldff .. => { u with hist := ⟨e.seq, .spr 0 (t.getSpr 0)⟩ :: ⟨e.seq, .spr 1 (t.getSpr 1)⟩ :: ⟨e.seq, .spr 2 t.fsr⟩ :: u.hist }
  | _ => u

/-- The flags that an instruction has set past older ones wait for it to commit (R31, R32, R116). -/
def Team.laterFlags (t u : Team) (e : TileEntry) : Team :=
  if u.fpst == t.fpst && u.satf == t.satf then u
  else { u with fpst := t.fpst, satf := t.satf, hist := ⟨e.seq, .flags (u.fpst &&& 0x3F00) u.satf⟩ :: u.hist }

/-- The team after the entry `e` has run past `front`. -/
def Team.ranPast (t u : Team) (front : List TileEntry) (e : TileEntry) : Team :=
  let u := t.laterFlags (t.logExtents (u.inOrder e t) e) e
  { u with tiq := t.markPast e front ++ u.tiq.filter (fun x => decide (e.seq < x.seq)), wait := t.wait, tileWalk := t.tileWalk }

/-- The state in which nothing more runs past `front`: what has been accepted on the way stays accepted. -/
def State.nonePast (s z : State) (t : Team) (front es : List TileEntry) : State :=
  if t.taken.length = (front ++ es).countP (·.accepted) then s
  else
    let xrow := ((z.team? t.uid).map (·.xrow)).getD t.xrow
    (z.unforesee s t).putTeam { t with tiq := front ++ es, xrow }

/-- What the run of an instruction past `front` comes to. -/
inductive Past where
  /-- It has run. -/
  | ran (s : State)
  /-- It waits, and younger ones that do not depend on it go on. -/
  | aside
  /-- It waits, and holds up what is younger. -/
  | stops

/-- Tries to run the accepted entry `e` past `front`; `mem` tells whether reads of memory must wait. Draws are taken in program
order (R25): one that takes some waits for older ones that may. -/
def State.tryPast (z : State) (v : Team) (front : List TileEntry) (e : TileEntry) (mem : Bool) : Past :=
  if front.any (waitsFor e.instr) then .stops
  else if runsPastCopy e.instr then
    if front.any (fun h => v.follows h e) || (mem && loadsTile e.instr) then .aside
    else
      let w := (v.asOf e).forTile
      match tileRun e.instr e.seq (e.tin (z.putTeam w) w false) with
      | .done z2 =>
        if ((z2.team? v.uid).map (·.lfsr)).getD w.lfsr != w.lfsr && front.any (fun h => mayDraw h.instr) then .aside else .ran z2
      | .stall _ => .aside
      | _ => .stops
  else if waitsAside e.instr then .aside
  else .stops

/-- The oldest entry behind the copy in progress that may run before the copy has passed its fault point runs (R150, R151,
R164, R188), each being accepted in its turn (R147); `front` are the entries before it, `z` what the team's reads see
there, `mem` whether reads of memory must wait. -/
def State.runPast (s : State) (uid : Nat) : List TileEntry → List TileEntry → State → Bool → State
  | front, [], z, _ =>
    (match s.team? uid with
     | some t => s.nonePast z t front []
     | none => s)
  | front, e :: es, z, mem =>
    let z := z.foresee uid (e.seq + 1)
    match s.team? uid, z.team? uid with
    | some t, some v =>
      if front.any (fun h => v.checksNeed h e) then s.nonePast z t front (e :: es)
      else
        match z.acceptPast v front e with
        | .error _ => s.nonePast z t front (e :: es)
        | .ok (e', z') =>
          let v := (z'.team? uid).getD v
          match z'.tryPast v front e' mem with
          | .ran z2 => (z2.unforesee s t).modTeam uid (fun u => t.ranPast u front e')
          | .stops => s.nonePast z' t front (e' :: es)
          | .aside =>
            let (z2, m) := z'.foreseeEntry v front e'
            s.runPast uid (front ++ [e']) es z2 (mem || m)
    | _, _ => s

/-- An entry behind a copy in progress runs, where one may. -/
def State.runYounger (s : State) (uid : Nat) : State :=
  match s.team? uid with
  | none => s
  | some t =>
    match t.tiq with
    | c :: es => if isCopy c.instr && c.issued then s.runPast uid [c] es s false else s
    | [] => s

/-- Runs the head of the TIQ as far as it goes now; with `step`, a run of rows goes on by one row group or row alone. -/
def State.runHeadBy (s : State) (uid : Nat) (step : Bool) : State :=
  let s := (s.acceptHead uid).issueHead uid step
  (stepCopies uid (s.copyLeft uid) s).completeHead uid

/-- Runs the head of the TIQ as far as it goes now. -/
def State.runHead (s : State) (uid : Nat) : State := s.runHeadBy uid false

/-- The entry that the front places for a tile-side instruction (R110). -/
def Team.entryFor (t : Team) (i : Instr) : TileEntry :=
  { instr := i, seq := t.seqHere, pc := t.pc, word := t.word, slot := t.pairing.isSome, cap := t.capture,
    accepted := false, recs := [], code := none, region := none, holds := false, xrow := 0, begun := false, issued := false,
    past := none }

/-- The team after placing an entry: a pushing instruction takes a credit (R113). -/
def Team.place (t : Team) (i : Instr) : Team :=
  { (t.advance i.longBytes) with
    tiq := t.tiq ++ [t.entryFor i], credits := if i.pushes then t.credits + 1 else t.credits }

/-- Whether the front cannot place a tile-side instruction yet: the TIQ holds SLIP entries (R111), a fault is held, or a
first-fault load has yet to write the extents that it captures (R158). -/
def Team.placeWaits (t : Team) : Bool :=
  t.heldFault.isSome || decide (t.slip.toNat ≤ t.tiq.length) || t.extPending

/-- A tile-side instruction at the front: it is placed in the TIQ (R110), and with nothing older there and no turn of the
outside world against it, the sequencer runs it. -/
def State.tileExec (s : State) (i : Instr) : Host.Outcome State Fault Refusal :=
  match s.issuing? with
  | none => .fault .noRunningTeam
  | some t =>
    if t.placeWaits then .next s
    else if i.pushes && decide (16 ≤ t.credits) then
      .next (s.slotFault t.uid (FaultInfo.plain kIllOp .team) none t.pairing.isSome)
    else
      let s' := s.putTeam (t.place i)
      if s.ahead || !t.tiq.isEmpty then .next s' else .next (s'.runHead t.uid)

/-- The sequencer's next step for a team: acceptance, issue of a row group or of a whole instruction, copy rows and
completion; then the entry behind a copy that is still in progress. -/
def State.tileProgress (s : State) (uid : Nat) : State := (s.runHeadBy uid true).runYounger uid

/-- The sequencer waits for what the front or other parties must do: the copy in progress finds its stream full (R164), or every
entry in the TIQ has passed its fault point (R369). -/
def Team.tileWaits (t : Team) : Bool :=
  t.clear ||
  (match t.copies with
   | c :: _ => c.q.any (fun q => !t.streamRoom q)
   | _ => false)

end Sys2Proof.Machine
end

