-- ==== Sys2Proof/Machine/Services.lean ====
section
/-!
DEFINITION. The service calls of Table 4.8: EXIT, SHAPE.SET and SHAPE.INV with the record checks of R62, YIELD.DONE, and
numbers that no table assigns (R138, R139).
-/

namespace Sys2Proof.Machine

/-! ### Shape records (R62, R139) -/

/-- What a record must meet for status 4 not to arise: reserved bits, V, and the permitted fields. -/
def Shape.fieldsOk (d : Shape) : Bool :=
  let n := d.ndim
  let eb := ebits d.etype
  d.d1.extractLsb' 60 3 == 0 && d.d2.extractLsb' 52 12 == 0 && d.d5.extractLsb' 58 6 == 0 &&
  d.d6.extractLsb' 58 6 == 0 && d.d7.extractLsb' 58 6 == 0 &&
  (if d.space = 1 then d.d2.extractLsb' 21 23 == 0 && (d.layout == 2 || d.d2.extractLsb' 0 21 == 0)
   else d.layout == 2 || d.d2 == 0) &&
  d.valid && n != 0 && eb != 0 && decide (d.etype.toNat ≤ 0x11) &&
  (List.range 7).all (fun i => decide (i < n) || (d.sz i == 1 && d.strideField i == 0)) &&
  (d.layout != 2 || isMxType d.etype) &&
  (if d.layout = 3 then decide (n ≤ 2) && decide (d.nnz.toNat ≤ d.sz 0 * (if n = 2 then d.sz 1 else 1)) else d.nnz == 0)

/-- Whether a byte range lies in what the context may use of a space (R62). -/
def spaceHolds (space : BitVec 2) (split : BitVec 3) (lo hi : Nat) : Bool :=
  match space.toNat with
  | 0 | 1 => decide (hi ≤ shareBytes split)
  | 2 => decide (winBase ≤ lo) && decide (hi ≤ winEnd)
  | _ => decide (hi ≤ 2 ^ 52) && (decide (hi ≤ winBase) || decide (winEnd ≤ lo))

/-- The status of a record image (Table 4.9), 0 when it is accepted. Code 8 never arises: every TCORE names one of the
256 logical cores. An address beyond a scratchpad or cluster space fails by 6 or 7, in its bits [51:21] too (log 97). -/
def shapeStatus (d : Shape) (split : BitVec 3) : Word :=
  if !d.fieldsOk then 4
  else if d.base % max 1 (ebits d.etype / 8) != 0 then 5
  else if d.bound < d.base + d.span then 6
  else if !spaceHolds d.space split d.base d.bound ||
      (d.layout == 2 && !spaceHolds d.space split d.scale (d.scale + d.scaleBytes)) then 7
  else 0

/-- A record from the bytes of its image. -/
def shapeOf (bs : List Byte) : Shape :=
  let w := fun i => BitVec.ofNat 64 (bytesToNat ((bs.drop (8 * i)).take 8))
  ⟨w 0, w 1, w 2, w 3, w 4, w 5, w 6, w 7⟩

/-- Rewrites an entry of the object table of a context on a package: other teams may read the old record for a while
(R64); `by_` is 0 for the host. -/
def State.putShape (s : State) (p : PkgNo) (ctx : CtxId) (by_ : Nat) (gid : Gid) (h : Handle) (d : Shape) : State :=
  match s.ctx? p ctx with
  | none => s
  | some c =>
    let o : OldShape := ⟨s.nextId, h, kget Shape.zero c.obj h.toNat, by_, gid⟩
    { s with nextId := s.nextId + 1 }.putCtx p { c with obj := kset Shape.zero c.obj h.toNat d, oldObj := c.oldObj ++ [o] }

/-! ### Service calls -/

/-- A service returns: its status is written, the front goes on. -/
def State.svcDone (s : State) (uid : Nat) (sd : SReg) (status : Word) : Run :=
  .done (s.modTeam uid (fun t => (t.wrS sd status).advance 8))

/-- The keys of `n` bytes at an aligned address that a service reads or writes, or none when it cannot. -/
def State.svcKeys (s : State) (t : Team) (acc : Access) (a : Word) (n : Nat) : Chk (Option (List Nat)) :=
  if a.toNat % 8 ≠ 0 then .ok none
  else
    match allChk ((List.range (n / 8)).map (fun i => s.scalarKeys t acc .team (a + BitVec.ofNat 64 (8 * i)) 8)) with
    | .ok ks => if acc = .read && (s.badKey? ks.flatten).isSome then .ok none else .ok (some ks.flatten)
    | .error (.fault _) => .ok none
    | .error x => .error x

/-- EXIT takes the team away: its last boundary has completed (R138, R248, R249, R253). -/
def State.leave (s : State) (t : Team) (pub : Nat) : State :=
  let s := s.dropTeam t.uid
  let s := (match s.launch? t.launch with
    | some l => s.putLaunch { l with exited := l.exited ++ [⟨t.uid, t.inst, t.path, t.gid, pub⟩] }
    | none => s)
  let mates := (s.teams ++ s.saved.map (·.team)).any (fun u =>
    u.launch == t.launch && u.inst == t.inst && u.deque && gidCoreKey u.gid == gidCoreKey t.gid)
  if t.deque && !mates then s.modPkg t.pkg (fun k => { k with deques := kdel k.deques (coreSlot t.gid) }) else s

/-- EXIT (R138, R252). -/
def execExit (sd : SReg) (s : State) : Host.Outcome State Fault Refusal :=
  s.front (.exit sd) (fun t =>
    if t.parent.isSome || !t.kids.isEmpty then .fail s (FaultInfo.plain kIllOp .team)
    else
      let s := s.handOffAll t.uid
      if !s.updEmpty t.uid then .stall s
      else
        let sc := recScope (s.recordOf t)
        let (s, b) := s.publish t.uid sc true true
        .done ((s.complete t.uid sc b []).leave t b))

/-- SHAPE.SET (R138, R139, R62). -/
def execShapeSet (sd : SReg) (s : State) : Host.Outcome State Fault Refusal :=
  s.front (.shapeSet sd) (fun t =>
    let h := t.rs 1
    if h = 0 || h.extractLsb' 16 48 != 0 then s.svcDone t.uid sd 2
    else chkRun s (s.svcKeys t .read (t.rs 2) 64) (fun ks =>
      match ks with
      | none => s.svcDone t.uid sd 3
      | some ks =>
        let (bs, s) := s.loadBytes t ks
        let d := shapeOf bs
        let st := shapeStatus d t.split
        if st = 0 then (s.putShape t.pkg t.ctx t.uid t.gid (h.truncate 16) d).svcDone t.uid sd 0
        else s.svcDone t.uid sd st))

/-- A record with V cleared. -/
def Shape.clearV (d : Shape) : Shape := { d with d1 := d.d1 &&& ~~~ (BitVec.twoPow 64 63) }

/-- SHAPE.INV (R138, R139). -/
def execShapeInv (sd : SReg) (s : State) : Host.Outcome State Fault Refusal :=
  s.front (.shapeInv sd) (fun t =>
    let h := t.rs 1
    if h = 0 || h.extractLsb' 16 48 != 0 then s.svcDone t.uid sd 2
    else
      match s.teamCtx? t with
      | none => s.svcDone t.uid sd 0
      | some c =>
        (s.putShape t.pkg t.ctx t.uid t.gid (h.truncate 16) (kget Shape.zero c.obj h.toNat).clearV).svcDone t.uid sd 0)

/-- The team leaves its core for a save (R226, R227), its state kept as data (log 103); the messages accepted for it have been
delivered (R248, R362). -/
def State.suspend (s : State) (uid : Nat) (kind : SaveKind) : State :=
  match s.team? uid with
  | none => s
  | some t => { s.dropTeam uid with
      saved := s.saved ++ [⟨{ t with
        preq := false, pdlEnd := 0, wait := .none, rq := deliverAll t.rq, frq := deliverAll t.frq }, kind, s.cyc t⟩] }

/-- YIELD.DONE (R138, R139, R226), its status written before the save (log 65): once PDL is 0 the team issues no more and
waits for its forced save (R227, log 96). -/
def execYieldDone (sd : SReg) (s : State) : Host.Outcome State Fault Refusal :=
  s.front (.yieldDone sd) (fun t =>
    if t.preq && decide (t.pdlEnd ≤ s.now) then .stall s
    else if t.preq then .done ((s.modTeam t.uid (fun t => (t.wrS sd 0).advance 8)).suspend t.uid .yielded)
    else s.svcDone t.uid sd 9)

/-- A service number that no table assigns (Table 4.8): status 1, no effect. -/
def execSvcUnassigned (sd : SReg) (n : BitVec 16) (s : State) : Host.Outcome State Fault Refusal :=
  s.front (.svcUnassigned sd n) (fun t => s.svcDone t.uid sd 1)

end Sys2Proof.Machine
end

