-- ==== Sys2Proof/Machine/Launches.lean ====
section
/-!
DEFINITION. Launch records and placement: the checks of R384, the shape of a level tree (R385), the team that a placement
makes (R106, R23, R80, R298), and what happens to a core that passes between contexts (R238, R239).
-/

namespace Sys2Proof.Machine

/-! ### The checks of a record (R384) -/

/-- Cores of one instance of level `i`. -/
def recCores (r : List Word) (i : Nat) : Nat :=
  let last := recLevels r - 1
  let n := ((List.range last).map (fun j => if i ≤ j then levCount (recLevel r j) else 1)).prod
  if levDomain (recLevel r last) = 0 then n else n * levCount (recLevel r last)

/-- Cores that one instance of a domain holds at most: 4,096 packages for the fabric. -/
def domainCores (d : Nat) : Nat :=
  match d with
  | 0 | 1 | 2 => 256
  | 3 => 512
  | 4 => 1024
  | _ => 4096 * 1024

/-- Reserved bits of a record, the unused level entries included. -/
def recReservedOk (r : List Word) : Bool :=
  (recD r 0).extractLsb' 52 12 == 0 && (recD r 1).extractLsb' 52 12 == 0 && (recD r 2).extractLsb' 52 12 == 0 &&
  (recD r 3).extractLsb' 52 12 == 0 && (recD r 4).extractLsb' 52 12 == 0 && (recD r 5).extractLsb' 0 16 == 0 &&
  (recD r 7).extractLsb' 32 32 == 0 && (recD r 8).extractLsb' 17 47 == 0 &&
  recD r 13 == 0 && recD r 14 == 0 && recD r 15 == 0 &&
  (List.range 8).all (fun i => if i < recLevels r then (recLevel r i).extractLsb' 16 10 == 0 else recLevel r i == 0)

/-- How many instances of level `j` one unit of that level's domain holds (R385), a cluster for the narrow domains; `n` bounds
the levels looked at. -/
def recHolds (r : List Word) : Nat → Nat → Nat
  | 0, _ => 0
  | n + 1, j =>
    let d := levDomain (recLevel r j)
    let k := levDomain (recLevel r (j + 1))
    if d ≤ 2 then 256 / max 1 (recCores r j)
    else if j + 1 = recLevels r then domainCores d / max 1 (recCores r j)
    else recHolds r n (j + 1) * 2 ^ (d - max 2 k) / max 1 (levCount (recLevel r j))

/-- The packages that one instance of a fabric level needs: its instances of the first narrower level, as many a package as
one holds (R384). -/
def recPackages (r : List Word) (i : Nat) : Nat :=
  match (List.range (recLevels r)).find? (fun j => decide (i ≤ j) && levDomain (recLevel r j) != 5) with
  | none => (recCores r i + 1023) / 1024
  | some j =>
    let each := recHolds r 8 j * 2 ^ (4 - max 2 (levDomain (recLevel r j)))
    let all := ((List.range j).map (fun k => if i ≤ k then levCount (recLevel r k) else 1)).prod
    (all + each - 1) / max 1 each

/-- One level of a record. -/
def recLevelOk (r : List Word) (i : Nat) : Bool :=
  let e := recLevel r i
  let last := recLevels r - 1
  decide (levDomain e ≤ 5) && decide ((levScope e).toNat ≤ 5) && levCount e != 0 &&
  (i == last || decide (levDomain (recLevel r (i + 1)) ≤ levDomain e)) &&
  (levDomain e != 0 || (i == last && decide (levCount e ≤ teamsPerCore (recPart r)))) &&
  decide (recCores r i ≤ domainCores (levDomain e)) && (levDomain e != 5 || decide (recPackages r i ≤ 4096))

/-- The checks of R384. -/
def recordOk (r : List Word) : Bool :=
  recReservedOk r && (recEntry r).toNat % 8 == 0 && recArgs r % 8 == 0 && (recLft r).toNat % 8 == 0 &&
  recFcq r % 65536 == 0 && recCpl r % 8 == 0 && recFcq r != 0 && recCpl r != 0 &&
  decide (1 ≤ (recSlip r).toNat) && decide ((recSlip r).toNat ≤ 64) &&
  (List.range (recLevels r)).all (recLevelOk r) &&
  recRange r != 0 && decide (recShare0 r ≤ recRange r) &&
  (recRange r == 1 || decide (levDomain (recLevel r 0) ≤ 3))

/-! ### The level tree (R385) -/

/-- Which instance of each level after the first holds core `j` of an instance. -/
def recPath (r : List Word) (j : Nat) : List Nat :=
  (List.range (recLevels r - 1)).map (fun i => j / max 1 (recCores r (i + 1)) % max 1 (levCount (recLevel r i)))

/-- Teams of a placed core. -/
def recCoreTeams (r : List Word) : Nat :=
  let e := recLevel r (recLevels r - 1)
  if levDomain e = 0 then levCount e else teamsPerCore (recPart r)

/-- The unit of a domain that holds a core: its number. -/
def unitOf (dom : Nat) (g : Gid) : Nat :=
  match dom with
  | 0 | 1 | 2 => g.toNat / 2 ^ 11
  | 3 => g.toNat / 2 ^ 12
  | 4 => g.toNat / 2 ^ 13
  | _ => 0

/-- Units of a domain that one unit of the next wider one holds. -/
def unitsBelow (dom : Nat) : Nat := if dom = 5 then 4096 else 2

/-- Pieces of a list. -/
def chunks {α : Type} (n : Nat) : Nat → List α → List (List α)
  | 0, _ => []
  | k + 1, l => if l.isEmpty then [] else l.take n :: chunks n k (l.drop n)

/-- One instance of a level lies in one unit of its domain, and its parts are spread (R385). -/
def levelPlaced (r : List Word) (i : Nat) (cores : List Gid) : Bool :=
  let dom := levDomain (recLevel r i)
  let one := cores.all (fun g => unitOf dom g == unitOf dom (cores.headD 0))
  if 3 ≤ dom ∧ i + 1 < recLevels r ∧ levDomain (recLevel r (i + 1)) < dom then
    let parts := chunks (max 1 (recCores r (i + 1))) cores.length cores
    let us := parts.map (fun p => unitOf (dom - 1) (p.headD 0))
    let cap := (levCount (recLevel r i) + unitsBelow dom - 1) / unitsBelow dom
    one && us.all (fun u => decide ((us.filter (fun v => v == u)).length ≤ cap))
  else one

/-- Cores in the order of the level tree are placed as R385 says. -/
def coresPlaced (r : List Word) (cores : List Gid) : Bool :=
  (List.range (recLevels r)).all (fun i =>
    (chunks (max 1 (recCores r i)) cores.length cores).all (levelPlaced r i))

/-! ### New teams -/

/-- The views of a new team: what belongs to every view (R208, R298, R382) and, by a free choice each, earlier
publications of its context whose scope makes it a party (R240). -/
def State.initView (s : State) (l : Launch) (uid : Nat) (gid : Gid) : List Nat :=
  (s.pubs.filter (fun b => b.ctx == l.ctx && partyOf b.scope b.uid b.gid uid gid)).foldl (fun v b =>
    if pickAt s.free (b.id * 2 ^ 24 + uid) 2 = 1 then union v b.view else v) l.view0

/-- Records, regions and tables that a new team must see: those that the host wrote before its launch was popped (R388). -/
def State.initSeen (s : State) (p : PkgNo) (l : Launch) : List Nat :=
  match s.ctx? p l.ctx with
  | some c => c.hostMade.filter (fun i => decide (i < l.id))
  | none => []

/-- SPLIT of a context. -/
def State.splitOf (s : State) (p : PkgNo) (ctx : CtxId) : BitVec 3 :=
  match s.ctx? p ctx with
  | some c => c.split
  | none => 0

/-- A team as placement makes it (Table 4.1). -/
def State.newTeam (s : State) (l : Launch) (inst uid : Nat) (gid : Gid) (path : List Nat) (ordinal : Nat) : Team :=
  let r := l.record
  { Team.init with
    uid, gid, ctx := l.ctx, launch := l.id, inst, path, pc := recEntry r,
    s := Team.init.s.set 1 (BitVec.ofNat 64 (recArgs r + inst * recStride r)), placedAt := s.now, slip := recSlip r,
    split := s.splitOf (gidPkg gid) l.ctx, part := recPart r, lfsr := lfsrSeed (recSeed r) ordinal, lft := recLft r,
    sys := recSys r, deque := recDeque r, views := Vector.replicate 5 (s.initView l uid gid),
    epochs := Vector.replicate 5 s.free, knows := l.knows, seen := s.initSeen (gidPkg gid) l }

/-! ### Cores that pass between contexts (R238, R239) -/

/-- Where the saved deque of a launch's instance on a core stands (R253). -/
def parkedDeque (launch inst slot : Nat) : Nat := ((launch + 1) * 2 ^ 32 + inst) * 1024 + slot

/-- Whether a key lies in the scratchpad of a core. -/
def inScratch (core k : Nat) : Bool := decide (scrKey core 0 ≤ k) && decide (k < scrKey core (2 ^ 21))

/-- Renames the keys of a memory. -/
def remapMem (f : Nat → Option Nat) (m : Memory) : Memory :=
  m.foldl (fun acc c => match f c.1 with
    | some k => Memory.put acc k c.2
    | none => acc) []

/-- Renames cells. -/
def remapCells (f : Nat → Option Nat) (cs : List Host.Cell) : List Host.Cell :=
  cs.filterMap (fun c => (f c.1).map (fun k => (k, c.2)))

/-- Moves or drops the bytes of some keys wherever the machine holds them. -/
def State.remap (s : State) (f : Nat → Option Nat) : State :=
  { s with
    mem := remapMem f s.mem,
    writes := s.writes.map (fun w => { w with cells := remapCells f w.cells }),
    bad := s.bad.filterMap f,
    pkgs := s.pkgs.map (fun kp => (kp.1, { kp.2 with ctxs := kp.2.ctxs.map (fun kc =>
      (kc.1, { kc.2 with start := remapMem f kc.2.start })) })) }

/-- Clears a core's SRAM array (R238). -/
def State.clearCore (s : State) (g : Gid) : State :=
  let core := gidCoreKey g
  s.remap (fun k => if inScratch core k then none else some k)

/-- Saves the share of a context on a core that another context takes (R239). -/
def State.parkCore (s : State) (ctx : CtxId) (g : Gid) : State :=
  let core := gidCoreKey g
  (s.remap (fun k => some (if inScratch core k then parkKey ctx core (k - scrKey core 0) else k))).modPkg (gidPkg g)
    (fun k => { k with shares := k.shares ++ [(ctx, core)] })

/-- Restores a saved share, of a core `old`, into the core of `g`. -/
def State.unparkCore (s : State) (ctx : CtxId) (old : Nat) (g : Gid) : State :=
  let core := gidCoreKey g
  let lo := parkKey ctx old 0
  if (s.pkg (gidPkg g)).shares.contains (ctx, old) then
    (s.remap (fun k => some (if lo ≤ k ∧ k < lo + 2 ^ 21 then scrKey core (k - lo) else k))).modPkg (gidPkg g)
      (fun k => { k with shares := k.shares.filter (fun x => x != (ctx, old)) })
  else s

/-- Moves a deque of a package. -/
def Pkg.moveDeque (k : Pkg) (src dst : Nat) : Pkg :=
  match kfind k.deques src with
  | some d => { k with deques := kput (kdel k.deques src) dst d }
  | none => k

/-- Whether teams of a launch's instance in deque mode are saved off a core. -/
def State.dequeSaved (s : State) (launch inst core : Nat) : Bool :=
  s.saved.any (fun x => x.team.launch == launch && x.team.inst == inst && x.team.deque && gidCoreKey x.team.gid == core)

/-- The deque that an instance leaves on a core is saved with its teams, or discarded when it has none (R253). -/
def State.parkDeque (s : State) (launch inst : Nat) (g : Gid) : State :=
  let slot := coreSlot g
  let keep := s.dequeSaved launch inst (gidCoreKey g)
  s.modPkg (gidPkg g) (fun k =>
    if keep then k.moveDeque slot (parkedDeque launch inst slot) else { k with deques := kdel k.deques slot })

/-- A core passes from the instance last placed there to one of a context: the share and the deque that the former still
needs are saved; the array is cleared for another context (R238, R239, R253). -/
def State.vacate (s : State) (o : CtxId × Nat × Nat) (ctx : CtxId) (g : Gid) : State :=
  let s := s.parkDeque o.2.1 o.2.2 g
  if o.1 = ctx then s
  else
    let keeps := s.saved.any (fun x => x.team.ctx == o.1 && gidCoreKey x.team.gid == gidCoreKey g) &&
      !(s.pkg (gidPkg g)).shares.contains (o.1, gidCoreKey g)
    (if keeps then s.parkCore o.1 g else s).clearCore g

/-- Readies a core for teams of a launch's instance: what another instance, launch or context left there is saved or cleared,
the share and the deque saved for this one are restored (R238, R239, R253), and the route table is written (R236). -/
def State.takeCore (s : State) (ctx : CtxId) (launch inst : Nat) (g : Gid) : State :=
  let slot := coreSlot g
  let s := (match kfind (s.pkg (gidPkg g)).owners slot with
    | some o => if o = (ctx, launch, inst) then s else s.vacate o ctx g
    | none => s.clearCore g)
  ((s.unparkCore ctx (gidCoreKey g) g).modPkg (gidPkg g) (fun k =>
    { (k.moveDeque (parkedDeque launch inst slot) slot) with owners := kput k.owners slot (ctx, launch, inst) })).putRoutes g

/-! ### Whether a placement may be made -/

/-- Positions that one leg from a position reaches. -/
def legsFrom (m : KMap Mark) (p : Int × Int) : List (Int × Int) :=
  (List.range 4).flatMap (fun d => (List.range 15).filterMap (fun n => meshLeg m d (n + 1) p))

/-- Positions that at most `n` legs reach. -/
def legReach (m : KMap Mark) : Nat → List (Int × Int) → List (Int × Int)
  | 0, ps => ps
  | n + 1, ps => legReach m n (ps.foldl (fun acc p =>
      (legsFrom m p).foldl (fun acc q => if acc.contains q then acc else acc ++ [q]) acc) ps)

/-- Whether a turn string joins every two working positions (R234, R77: six legs). -/
def meshJoined (m : KMap Mark) : Bool :=
  let ws := (workingCores m).map (fun p => ((p.1 : Int), (p.2 : Int)))
  ws.all (fun p => let r := legReach m 6 [p]; ws.all (fun q => r.contains q))

/-- Whether a cluster takes placements. -/
def State.clusterOk (s : State) (g : Gid) : Bool :=
  let m := s.mapOf g
  m.isEmpty || ((workingCores m).length == 256 && meshJoined m)

/-- Whether a package holds teams: powered and booted, in service, its dies joined (Table 12.6). -/
def Pkg.runs (k : Pkg) : Bool := k.power == .on && k.booted && !k.outOfService && k.linkUp

/-- Whether a package takes new groups: it is cool enough (R393). -/
def Pkg.takes (k : Pkg) : Bool := k.runs && !k.hot

/-- The window tables that a die holds after loading that of a context, if it can (R278). -/
def State.residency (s : State) (p : PkgNo) (die : Bool) (ctx : CtxId) : Option (List CtxId) :=
  let rs := ((s.pkg p).die die).resident
  if rs.contains ctx then some rs
  else if rs.length < 2 then some (rs ++ [ctx])
  else
    let idle := fun (c : CtxId) => !s.teams.any (fun t => t.ctx == c && t.pkg == p && gidDie t.gid == die)
    match rs.find? idle with
    | some c => some (rs.filter (fun x => x != c) ++ [ctx])
    | none => none

/-- Loads the window table of a context into a die. -/
def State.loadWindow (s : State) (p : PkgNo) (die : Bool) (ctx : CtxId) : State :=
  match s.residency p die ctx with
  | some rs => s.modPkg p (fun k => k.putDie die { (k.die die) with resident := rs })
  | none => s

/-- Whether a context exists on a package. -/
def State.ctxLive (s : State) (p : PkgNo) (ctx : CtxId) : Bool := (s.ctx? p ctx).isSome

/-- Whether teams of a context may be placed on a core now, as far as the core and its cluster go. -/
def State.coreFree (s : State) (ctx : CtxId) (g : Gid) : Bool :=
  gidTeam g == 0 && s.teams.all (fun t => gidCoreKey t.gid != gidCoreKey g) && (s.pkg (gidPkg g)).runs &&
  s.ctxLive (gidPkg g) ctx && s.clusterOk g && (s.residency (gidPkg g) (gidDie g) ctx).isSome

end Sys2Proof.Machine
end

