-- ==== Sys2Proof/Machine/PressExec.lean ====
section
/-!
DEFINITION. The Press: region services (R310 to R312), UPDS, RACK and RACKR (R317, R325, R326), the hand-off and background
racking (R319, R322).
-/

namespace Sys2Proof.Machine

/-! ### Ranges of window memory -/

/-- Whether two byte ranges meet. -/
def rangesMeet (a n b m : Nat) : Bool := decide (a < b + m) && decide (b < a + n)

/-- Whether a window range meets a region, a residue plane or a backing area of the context on its package. -/
def Ctx.rangeTaken (c : Ctx) (va len : Nat) : Bool :=
  c.regions.any (fun hr => rangesMeet va len hr.2.base hr.2.bytes ||
    (hr.2.plane != 0 && rangesMeet va len hr.2.plane (hr.2.len * 48))) ||
  c.tables.any (fun ht => rangesMeet va len ht.2.back (ht.2.nblk * ht.2.esz))

/-- Whether a range lies in the tile window. -/
def inWindow (va len : Nat) : Bool := decide (winBase ≤ va) && decide (va + len ≤ winEnd)

/-- Whether every page of a window range has one of the given states and HOME equal to a package. -/
def Ctx.pagesIn (c : Ctx) (pkg : PkgNo) (states : List Nat) (va len : Nat) : Bool :=
  let first := (va - winBase) / winPage
  (List.range ((va + len - 1 - winBase) / winPage - first + 1)).all (fun i =>
    let e := c.winEntry (first + i)
    states.contains (e.extractLsb' 0 3).toNat && e.extractLsb' 52 12 == pkg)

/-- The keys of a window range whose pages have frames. -/
def Ctx.frameKeys (c : Ctx) (va len : Nat) : List Nat :=
  (List.range len).filterMap (fun i =>
    let e := c.winEntry ((va + i - winBase) / winPage)
    if e.extractLsb' 0 3 != 0 then some (devKey (e.extractLsb' 52 12) (winFrame e + (va + i) % winPage)) else none)

/-- Bytes whose contents are unspecified from now on (log 5). -/
def State.spoil (s : State) (ctx : CtxId) (keys : List Nat) : State :=
  s.systemStore ctx (keys.map (fun k => (k, Config.freeByte (s.free * 2 ^ 64 + k))))

/-! ### Region services -/

/-- The status of REGION.SET (Table 13.3). -/
def regionStatus (c : Ctx) (pkg : PkgNo) (h base len ctl plane : Word) : Word :=
  let op := (ctl.extractLsb' 0 4).toNat
  let n := len.toNat * opWidth op
  let ext := base.toNat
  if h = 0 || (1023#64).ult h || (kfind c.regions h.toNat).isSome then 10
  else if 14 ≤ op || decide (4 < (ctl.extractLsb' 4 3).toNat) || ctl.extractLsb' 7 57 != 0 then 12
  else if ext % 128 ≠ 0 || len = 0 || decide (2 ^ 32 < len.toNat) || n % 128 ≠ 0 || !inWindow ext n then 11
  else if c.rangeTaken ext n || !c.pagesIn pkg [1, 3] ext n then 13
  else if op ≤ 1 then
    (if plane.toNat % 64 ≠ 0 || !inWindow plane.toNat (len.toNat * 48) || !c.pagesIn pkg [1] plane.toNat (len.toNat * 48) ||
        c.rangeTaken plane.toNat (len.toNat * 48) || rangesMeet plane.toNat (len.toNat * 48) ext n then 14 else 0)
  else if plane ≠ 0 then 14 else 0

/-- The caller's own stores to a range count as its contents when a region is registered there. -/
def State.ownContents (s : State) (t : Team) (keys : List Nat) : State :=
  let fresh := s.writes.filter (fun w => (t.view .team).contains w.id && !w.entered)
  { s with mem := fresh.foldl (fun m w => Memory.putCells m (w.cells.filter (fun c => keys.contains c.1))) s.mem }

/-- REGION.SET (R310 to R312). -/
def execRegionSet (sd : SReg) (s : State) : Host.Outcome State Fault Refusal :=
  s.front (.regionSet sd) (fun t =>
    match s.teamCtx? t with
    | none => s.svcDone t.uid sd 10
    | some c =>
      let st := regionStatus c t.pkg (t.rs 1) (t.rs 2) (t.rs 3) (t.rs 4) (t.rs 5)
      if st = 0 then
        let op := (t.rs 4).extractLsb' 0 4
        let r : Region := { base := (t.rs 2).toNat, len := (t.rs 3).toNat, op, scope := (t.rs 4).extractLsb' 4 3,
                            plane := (t.rs 5).toNat, nv := false, of := false, spills := 0, residues := [], infs := [], tops := [] }
        let s := s.ownContents t (c.frameKeys r.base r.bytes)
        ((s.modCtx t.pkg t.ctx (fun c => c.putRegion (t.rs 1).toNat r)).noteHost t false (t.rs 1).toNat).svcDone t.uid sd 0
      else s.svcDone t.uid sd st)

/-- Whether some team of the context holds updates of a region that are not performed yet. -/
def State.pendingFor (s : State) (p : PkgNo) (ctx : CtxId) (h : Nat) : Bool :=
  (s.pkg p).keys.any (fun k => k.ctx == ctx && k.handle == h && k.owner.isSome) ||
  (s.teams ++ s.saved.map (·.team)).any (fun t => t.ctx == ctx && t.pkg == p && t.updq.any (fun u => u.handle == h))

/-- REGION.REL (R310 to R312). -/
def execRegionRel (sd : SReg) (s : State) : Host.Outcome State Fault Refusal :=
  s.front (.regionRel sd) (fun t =>
    let h := (t.rs 1).toNat
    match s.teamCtx? t with
    | none => s.svcDone t.uid sd 10
    | some c =>
      if h = 0 || 1023 < h || (kfind c.regions h).isNone then s.svcDone t.uid sd 10
      else if s.pendingFor t.pkg t.ctx h then s.svcDone t.uid sd 15
      else
        let s := s.rackKeysOf t.pkg (fun k => k.ctx == t.ctx && k.handle == h)
        if (s.pkg t.pkg).keys.any (fun k => k.ctx == t.ctx && k.handle == h) then
          .stall (s.modTeam t.uid (fun t => { t with wait := .service }))
        else
          match s.teamCtx? t with
          | none => s.svcDone t.uid sd 10
          | some c =>
            match kfind c.regions h with
            | none => s.svcDone t.uid sd 10
            | some r =>
              let keys := c.frameKeys r.base r.bytes
              let s := s.modCtx t.pkg t.ctx (fun c => { c with
                regions := kdel c.regions h, hostSets := c.hostSets.filter (fun x => x.2.1 || x.2.2 != h) })
              let s := s.systemStore t.ctx (keys.map (fun k => (k, Memory.get s.mem k)))
              let s := if r.plane = 0 then s else s.spoil t.ctx (c.frameKeys r.plane (r.len * 48))
              s.svcDone t.uid sd 0)

/-- The image of REGION.STAT (Table 13.4). -/
def regionImage (r : Region) : List Word :=
  [ BitVec.ofNat 64 r.base, BitVec.ofNat 64 r.len, (0 : BitVec 57) ++ r.scope ++ r.op,
    (0 : BitVec 16) ++ BitVec.ofNat 32 r.spills ++ (0 : BitVec 14) ++ BitVec.ofBool r.of ++ BitVec.ofBool r.nv,
    BitVec.ofNat 64 r.plane ]

/-- One store of a service: on the team path, or on the host path when the host runs it (R388). -/
def State.svcStore (s : State) (uid : Nat) (cells : List Host.Cell) : State :=
  if uid = 0 then s.hostPut cells else s.store uid .team cells

/-- Performs stores of doublewords, at consecutive keys of 8 bytes each. -/
def storeDwords (uid : Nat) : List Word → List Nat → State → State
  | [], _, s => s
  | w :: ws, ks, s => storeDwords uid ws (ks.drop 8) (s.svcStore uid ((ks.take 8).zip (natToBytes 8 w.toNat)))

/-- REGION.STAT (R310, R311). -/
def execRegionStat (sd : SReg) (s : State) : Host.Outcome State Fault Refusal :=
  s.front (.regionStat sd) (fun t =>
    let h := (t.rs 1).toNat
    match s.teamCtx? t with
    | none => s.svcDone t.uid sd 10
    | some c =>
      match (if h = 0 || 1023 < h then none else kfind c.regions h) with
      | none => s.svcDone t.uid sd 10
      | some r =>
        if (t.rs 3).extractLsb' 1 63 != 0 then s.svcDone t.uid sd 12
        else chkRun s (s.svcKeys t .write (t.rs 2) 40) (fun ks =>
          match ks with
          | none => s.svcDone t.uid sd 16
          | some ks =>
            let s := storeDwords t.uid (regionImage r) ks s
            let s := if (t.rs 3).getLsbD 0 then
                s.modCtx t.pkg t.ctx (fun c => c.putRegion h { r with nv := false, of := false }) else s
            s.svcDone t.uid sd 0))

/-! ### UPDS, RACK, RACKR -/

/-- The value that UPDS emits (Table 13.1). -/
def updsValue (op : Nat) (v : Word) : Word :=
  if opWidth op = 8 then v else (v.extractLsb' 0 32).zeroExtend 64

/-- UPDS (R317); it stalls while the Press cannot take its pair, or an older one (R319, R322). -/
def execUpds (strict : Bool) (sv si : SReg) (rh : BitVec 10) (s : State) : Host.Outcome State Fault Refusal :=
  s.front (.upds strict sv si rh) (fun t =>
    match s.teamCtx? t, s.region? t rh with
    | some c, some r =>
      if 2 ^ 20 < s.unperformed t + 1 then .fail s (FaultInfo.plain kIllOp .team)
      else chkRun s (mapFault (fun f => { f with coord := some (0, 0) }) (updChk c r strict (t.rs si).toNat)) (fun drop =>
        let t' := if drop then { t with updf := updfDrop t.updf 0 0 }
          else t.emit rh [((t.rs si).toNat, updsValue r.op.toNat (t.rs sv))]
        let s' := s.putTeam (t'.advance 8)
        if drop || s'.pressTakes t.uid then .done s' else .stall (s.handOffAll t.uid))
    | _, _ => .fail s (FaultInfo.plain kIllOp .team))

/-- RACK (R325). -/
def execRack (rh : BitVec 10) (sa sb : SReg) (s : State) : Host.Outcome State Fault Refusal :=
  s.front (.rack rh sa sb) (fun t =>
    match s.region? t rh with
    | none => .fail s (FaultInfo.plain kIllOp .team)
    | some r =>
      let a := (t.rs sa).toNat
      let n := min (t.rs sb).toNat (r.len - a)
      .done ((s.rackKeysOf t.pkg (fun k =>
        k.ctx == t.ctx && k.handle == rh.toNat && decide (a ≤ k.idx) && decide (k.idx < a + n))).advance t.uid 8))

/-- The identity of an operator (Table 13.1). -/
def opIdentity (op : Nat) : Nat :=
  match op with
  | 3 => 0x7FFF_FFFF_FFFF_FFFF
  | 4 => 0x8000_0000_0000_0000
  | 5 => 0xFFFF_FFFF_FFFF_FFFF
  | 7 => 0x7F80_0000
  | 8 => 0xFF80_0000
  | 10 => 0xFFFF_FFFF_FFFF_FFFF
  | _ => 0

/-- RACKR (R326). -/
def execRackr (sd sa : SReg) (rh : BitVec 10) (s : State) : Host.Outcome State Fault Refusal :=
  s.front (.rackr sd sa rh) (fun t =>
    match s.teamCtx? t, s.region? t rh with
    | some c, some r =>
      let i := (t.rs sa).toNat
      let w := opWidth r.op.toNat
      if r.len ≤ i then .fail s { FaultInfo.plain kUpdIdx .upd with coord := some (0, 0) }
      else
        let va := r.base + i * w
        chkRun s (xlChk (c.winXlate .update va) .upd .update va) (fun k =>
          let s := s.rackWord t.pkg t.ctx rh.toNat i
          let v := Memory.num s.mem k w
          let s := s.modCtx t.pkg t.ctx (fun c => match kfind c.regions rh.toNat with
            | some r => c.putRegion rh.toNat (r.rebase i)
            | none => c)
          let s := { s with mem := Memory.putCells s.mem (cellsAt k (natToBytes w (opIdentity r.op.toNat))) }
          .done (s.modTeam t.uid (fun t => (t.wrS sd (BitVec.ofNat 64 v)).advance 8)))
    | _, _ => .fail s (FaultInfo.plain kIllOp .team))

/-! ### The Press's own steps -/

/-- The team at a global id, placed. -/
def State.teamOf (s : State) (gid : Gid) : Option Team := s.teams.find? (fun t => t.gid == gid)

/-- HAND_OFF (R319): up to 16 pairs leave the team's update queue for the Press. -/
def execHandOff (gid : Gid) (s : State) : Host.Outcome State Fault Refusal :=
  match s.teamOf gid with
  | some t => .next (State.handOffN t.uid 16 s)
  | none => .next s

/-- BACKGROUND_RACKING (R322): the performed keys of a context on a stack are racked into memory. -/
def execBackgroundRacking (pkg : PkgNo) (stack : BitVec 4) (ctx : CtxId) (s : State) : Host.Outcome State Fault Refusal :=
  .next (s.rackKeysOf pkg (fun k => k.ctx == ctx && k.stack == stack.toNat))

end Sys2Proof.Machine
end

