-- ==== Sys2Proof/Machine/System.lean ====
section
/-!
DEFINITION. PHASE (R213), CFENCE (R215), AMO and CAS (R217 to R219).
-/

namespace Sys2Proof.Machine

/-- PHASE (R213). -/
def execPhase (scope : ScopeCode) (s : State) : Host.Outcome State Fault Refusal :=
  s.front (.phase scope) (fun t => s.bound t.uid scope [] (fun s => .done (s.advance t.uid 8)))

/-- The path of a code of Table 7.2. -/
def pathOf (c : BitVec 3) : Path :=
  match c.toNat with
  | 0 => .team
  | 1 => .copy
  | 2 => .mload
  | 3 => .gath
  | 4 => .send
  | 5 => .upd
  | 6 => .host
  | _ => .fetch

/-- CFENCE (R215): older accesses of the team have performed, since it is outward. -/
def execCfence (fromPath toPath : BitVec 3) (s : State) : Host.Outcome State Fault Refusal :=
  s.front (.cfence fromPath toPath) (fun t =>
    .done ((s.cfence t.uid (pathOf fromPath) (pathOf toPath)).advance t.uid 8))

/-- The keys of an atomic's word, after the checks of R219. -/
def State.atomicKeys (s : State) (t : Team) (a : Word) (n : Nat) : Chk (List Nat) := do
  let ks ← s.scalarKeys t .atomic .team a n
  s.eccChk .team (a.extractLsb' 0 52).toNat ks
  .ok ks

/-- Bytes of an atomic's size. -/
def atomicBytes (d : Bool) : Nat := if d then 8 else 4

/-- The word that an atomic finds at its point of the atomic order (R217). -/
def State.atomicWord (s : State) (ks : List Nat) : Nat := bytesToNat (ks.map (Memory.get s.mem))

/-- AMO (R218). -/
def execAmo (op : BitVec 5) (d : Bool) (scope : ScopeCode) (sd sa sb : SReg) (s : State) :
    Host.Outcome State Fault Refusal :=
  s.front (.amo op d scope sd sa sb) (fun t =>
    let n := atomicBytes d
    chkRun s (s.atomicKeys t (t.rs sa) n) (fun ks =>
      let old := s.atomicWord ks
      let r := amoVal op.toNat (8 * n) old ((t.rs sb).toNat % 2 ^ (8 * n))
      let s := s.atomicWrite t.uid scope (ks.zip (natToBytes n r.1))
      .done (s.modTeam t.uid (fun t =>
        ({ t with fpst := t.fpst ||| (r.2 &&& 0x3F00) }.wrS sd (BitVec.ofNat 64 old)).advance 8))))

/-- CAS (R218). -/
def execCas (d : Bool) (scope : ScopeCode) (sd sa sb : SReg) (s : State) : Host.Outcome State Fault Refusal :=
  s.front (.cas d scope sd sa sb) (fun t =>
    let n := atomicBytes d
    chkRun s (s.atomicKeys t (t.rs sa) n) (fun ks =>
      let old := s.atomicWord ks
      let s := if old = (t.rs sd).toNat % 2 ^ (8 * n) then
          s.atomicWrite t.uid scope (ks.zip (natToBytes n (t.rs sb).toNat)) else s
      .done (s.modTeam t.uid (fun t => (t.wrS sd (BitVec.ofNat 64 old)).advance 8))))

end Sys2Proof.Machine
end

