-- ==== Sys2Proof/Machine/Cluster.lean ====
section
/-!
DEFINITION. The cluster (09_cluster.md): scalar messages (R242 to R247), barriers (R249), CLAIM (R250), FORK and JOIN
(R251, R252), the deque (R253, R254), LAUNCH (R256).
-/

namespace Sys2Proof.Machine

/-! ### Messages -/

/-- SEND (R244). -/
def execSend (k : GReg) (sr sp : SReg) (team : BitVec 3) (tag : BitVec 16) (s : State) :
    Host.Outcome State Fault Refusal :=
  s.front (.send k sr sp team tag) (fun t =>
    chkRun s (s.sendTarget t (t.rs sr) team) (fun (u : Team × Bool) =>
      match s.sendMsg t u.1 u.2 (scalarMsg (srcOf t.gid) tag (t.rs sp)) with
      | none => .stall (s.handOffAll t.uid)
      | some (s, ok) => .done (s.modTeam t.uid (fun t => (t.wrG k ok).advance 8))))

/-- MESSAGE_DELIVERY (R244, R245): the oldest message of some sender on its way to the team is delivered. -/
def execMessageDelivery (gid : Gid) (s : State) : Host.Outcome State Fault Refusal :=
  match s.teamOf gid with
  | some t => .next (s.putTeam { t with rq := deliverOne (s.pick t.uid (2 ^ 16)) t.rq })
  | none => .next s

/-- RECV (R246). -/
def execRecv (w : Wild) (sd sm : SReg) (tag : BitVec 16) (s : State) : Host.Outcome State Fault Refusal :=
  s.front (.recv w sd sm tag) (fun t =>
    if !srcOperandOk (t.rs sm) then .fail s (FaultInfo.plain kIllOp .team)
    else
      match rqTake t.rq false w ((t.rs sm).truncate 25) tag with
      | none => .stall s
      | some (m, q) =>
        s.bound t.uid 2 m.prec (fun s => .done (s.modTeam t.uid (fun t =>
          let t := { t with rq := q }.wrS sd m.payload
          let t := if w.anySrc || w.anyTag then t.wrS (sd + 1) (BitVec.ofNat 64 (m.src.toNat * 2 ^ 16 + m.tag.toNat)) else t
          t.advance 8))))

/-- PROBE (R247). -/
def execProbe (tile : Bool) (w : Wild) (k : GReg) (sm : SReg) (tag : BitVec 16) (s : State) :
    Host.Outcome State Fault Refusal :=
  s.front (.probe tile w k sm tag) (fun t =>
    if !srcOperandOk (t.rs sm) then .fail s (FaultInfo.plain kIllOp .team)
    else .done (s.putTeam
      ((t.wrG k (t.rq.any (fun m => m.matches tile w ((t.rs sm).truncate 25) tag))).advance 8)))

/-! ### Barriers -/

/-- A team on its core or saved. -/
def State.anyTeam? (s : State) (uid : Nat) : Option Team :=
  (s.teams ++ s.saved.map (·.team)).find? (fun t => t.uid == uid)

/-- How many BARs or FBARs of a level the team has joined. -/
def Team.barCount (t : Team) (fabric : Bool) (n : Fin 8) : Nat := if fabric then t.fbars.get n else t.bars.get n

/-- The publication with which a member has arrived at the `k`-th barrier of a level: its arrival's or its EXIT's. -/
def State.arrivalOf (s : State) (fabric : Bool) (n k : Nat) (m : Member) : Option Nat :=
  match m.exitPub with
  | some p => some p
  | none =>
    match s.anyTeam? m.uid with
    | some u => (u.arrivals.find? (fun a => a.1 == fabric && a.2.1 == n && a.2.2.1 == k)).map (fun a => a.2.2.2)
    | none => none

/-- The arrival of a team at a barrier: its boundary publishes (R249, R372); none while the Press cannot take its pairs. -/
def State.barArrive (s : State) (t : Team) (fabric : Bool) (n : BitVec 3) : Option State :=
  let s := s.handOffAll t.uid
  if s.updEmpty t.uid then
    let (s, b) := s.publish t.uid (levScope (recLevel (s.recordOf t) n.toNat)) false false
    let k := t.barCount fabric n.toFin + 1
    some (s.modTeam t.uid (fun t =>
      { t with bars := if fabric then t.bars else t.bars.set n.toFin k,
               fbars := if fabric then t.fbars.set n.toFin k else t.fbars,
               arrivals := t.arrivals ++ [(fabric, n.toNat, k, b)], wait := .arrived fabric n.toNat b }))
  else none

/-- The packages of a group's members. -/
def State.memberPkgs (s : State) (t : Team) (n : Nat) : List PkgNo := ((s.members t n).map (fun m => gidPkg m.gid)).eraseDups

/-- The publications of every member's arrival, once all have arrived; those of a fabric barrier travel by the package
route tables (R359, log 92). -/
def State.barReady (s : State) (t : Team) (fabric : Bool) (n k : Nat) : Option (List Nat) :=
  if s.groupWhole t n && (!fabric || s.allRouted (s.memberPkgs t n)) then (s.members t n).mapM (s.arrivalOf fabric n k)
  else none

/-- A barrier that every member has reached completes for each of them, whatever becomes of the others (R249, R372). -/
def State.latchBars (s : State) : State :=
  { s with teams := s.teams.map (fun t => match t.wait, t.latched with
      | .arrived f n _, none => { t with latched := s.barReady t f n (t.barCount f (Fin.ofNat 8 n)) }
      | _, _ => t) }

/-- The completion of a barrier that the team waits in. -/
def State.barFinish (s : State) (uid : Nat) (fabric : Bool) : Option State :=
  match s.team? uid with
  | none => none
  | some t =>
    match t.wait with
    | .arrived f n pub =>
      if f == fabric then
        match t.latched <|> s.barReady t f n (t.barCount f (Fin.ofNat 8 n)) with
        | some prec =>
          some (((s.complete uid (levScope (recLevel (s.recordOf t) n)) pub prec).modTeam uid (fun t =>
            { t with latched := none })).advance uid 8)
        | none => none
      else none
    | _ => none

/-- BAR or FBAR on a level that admits it. -/
def State.barRun (s : State) (t : Team) (fabric : Bool) (n : BitVec 3) : Run :=
  match t.wait with
  | .arrived _ _ _ =>
    (match s.barFinish t.uid fabric with
     | some s => .done s
     | none => .stall s)
  | _ =>
    match s.barArrive t fabric n with
    | none => .stall (s.handOffAll t.uid)
    | some s =>
      match s.barFinish t.uid fabric with
      | some s => .done s
      | none => .stall s

/-- BAR (R249). -/
def execBar (n : BitVec 3) (s : State) : Host.Outcome State Fault Refusal :=
  s.front (.bar n) (fun t =>
    if s.barLevel t n.toNat then s.barRun t false n else .fail s (FaultInfo.plain kIllOp .team))

/-- BARRIER_COMPLETION (R249): the barrier that a team waits in completes once every member has arrived. -/
def execBarrierCompletion (gid : Gid) (s : State) : Host.Outcome State Fault Refusal :=
  match s.teamOf gid with
  | some t =>
    if t.runs then
      (match s.barFinish t.uid false with
       | some s' => .next s'
       | none => .next s)
    else .next s
  | none => .next s

/-! ### CLAIM -/

/-- CLAIM (R250). -/
def execClaim (scope : ScopeCode) (sd sa sb : SReg) (s : State) : Host.Outcome State Fault Refusal :=
  s.front (.claim scope sd sa sb) (fun t =>
    let req := (t.rs sb).toNat
    let lim := (t.rs sd).toNat
    if 65535 < req then .fail s (FaultInfo.plain kIllOp .team)
    else chkRun s (s.atomicKeys t (t.rs sa) 8) (fun ks =>
      let old := s.atomicWord ks
      let g := if old < lim then min req (lim - old) else 0
      let s := if 0 < g then s.atomicWrite t.uid scope (ks.zip (natToBytes 8 (old + g))) else s
      .done (s.modTeam t.uid (fun t =>
        ((t.wrS sd (BitVec.ofNat 64 old)).wrSpr 0 (BitVec.ofNat 64 g)).advance 8))))

/-! ### FORK and JOIN -/

/-- The slots that a team's bound names hold. -/
def Team.heldSlots (t : Team) : Nat :=
  (t.tiles.toList.map (fun x => match x with
    | some x => if x.written || x.strm.isSome then x.geo.slots else 0
    | none => 0)).sum

/-- Resident B after the team's share has halved (R251). -/
def ResidentB.halve (b : ResidentB) (part : BitVec 2) : ResidentB :=
  let scales := if b.bmx then (b.kb + 31) / 32 * b.nb else 0
  if cellShare part * (if b.btype = 0x0A then 2 else 1) < b.kb * b.nb || bscaleShare part < scales then
    { b with bv := false, cells := [], scales := [] }
  else b

/-- The smallest team number that no team of a team's core holds, the saved teams of its launch there included. -/
def State.freeTeamNo (s : State) (t : Team) : Option (BitVec 3) :=
  let mates := s.teams ++ (s.saved.map (·.team)).filter (fun u => u.launch == t.launch)
  let used := (mates.filter (fun u => gidCoreKey u.gid == gidCoreKey t.gid)).map (fun u => (gidTeam u.gid).toNat)
  ((List.range 8).find? (fun n => !used.contains n)).map (BitVec.ofNat 3)

/-- A global id with another team number. -/
def withTeamNo (g : Gid) (n : BitVec 3) : Gid := (g.extractLsb' 3 22 : BitVec 22) ++ n

/-- The child of a FORK (R251, R23). -/
def State.childOf (s : State) (t : Team) (uid : Nat) (gid : Gid) (k : GReg) (sd : SReg) (off : BitVec 32) : Team :=
  let n := accShare t.part
  let view := (match s.launch? t.launch with
    | some l => s.initView l uid gid
    | none => [])
  let c : Team := { Team.init with
    uid, gid, ctx := t.ctx, launch := t.launch, inst := t.inst, path := t.path, parent := some t.uid, status := .running,
    pc := t.label off, s := t.s, g := setBit t.g k.toNat true, scale := t.scale, ext := t.ext, extc := t.extc,
    fpst := t.fpst &&& 7, phc := t.phc + 1, placedAt := s.now, slip := t.slip, split := t.split, part := t.part + 1,
    lfsr := lfsrFork t.lfsr, lft := t.lft, sys := t.sys, deque := t.deque,
    acc := Vector.ofFn (fun i => if i.val < n / 2 then t.acc.get (Fin.ofNat 16 (n / 2 + i.val)) else Acc.init),
    views := Vector.replicate 5 view, epochs := Vector.replicate 5 s.free, knows := t.lastPub,
    seen := (match s.launch? t.launch with
      | some l => s.initSeen t.pkg l
      | none => []) }
  c.wrS sd (t.gid.zeroExtend 64)

/-- A child joins the teams and its launch's children. -/
def State.addKin (s : State) (launch uid : Nat) (c : Team) : State :=
  { s with teams := s.teams ++ [c],
           launches := s.launches.map (fun l => if l.id == launch then { l with kin := l.kin ++ [uid] } else l) }

/-- FORK (R251); it is refused too when no team number of the core is free (log 102). -/
def execFork (k : GReg) (sd : SReg) (off : BitVec 32) (s : State) : Host.Outcome State Fault Refusal :=
  s.front (.fork k sd off) (fun t =>
    if t.deque then .fail s (FaultInfo.plain kIllOp .team)
    else
      match (if t.part = 3 || t.preq then none else s.freeTeamNo t) with
      | none => .done (s.putTeam ((t.wrG k false).advance 8))
      | some n =>
        let s := s.handOffAll t.uid
        if !t.tiq.isEmpty || !s.updEmpty t.uid then .stall s
        else if slotShare (t.part + 1) < t.heldSlots then .fail s (FaultInfo.plain kIllOp .team)
        else
          let gid := withTeamNo t.gid n
          let (uid, s) := s.fresh
          let c := s.childOf t uid gid k sd off
          let s := s.modTeam t.uid (fun t =>
            let half := accShare t.part / 2
            let t := { t with
              part := t.part + 1, kids := uid :: t.kids, resB := t.resB.halve (t.part + 1),
              acc := Vector.ofFn (fun i => if i.val < half then t.acc.get i else Acc.init) }
            ((t.wrS sd (gid.zeroExtend 64)).wrG k true).advance 8)
          .done (s.addKin t.launch uid c))

/-- The parent takes a joined child back (R252). -/
def Team.takeBack (t c : Team) : Team :=
  let n := accShare c.part
  { t with
    part := t.part - 1, kids := t.kids.filter (fun u => u != c.uid),
    acc := Vector.ofFn (fun i => if n ≤ i.val ∧ i.val < 2 * n then c.acc.get (Fin.ofNat 16 (i.val - n)) else t.acc.get i),
    phc := (if t.phc.ult c.phc then c.phc else t.phc) + 1, updSeq := 0, knows := union t.knows c.lastPub }

/-- JOIN in the parent role (R252); an open ALLX before it goes first (R227, log 104). -/
def State.joinChild (s : State) (t : Team) (kid : Nat) : Run :=
  match s.team? kid with
  | some c =>
    if c.status = .joined ∧ t.tiq = [] then .done ((s.dropTeam kid).putTeam ((t.takeBack c).advance 8)) else .stall s
  | none => .stall s

/-- JOIN in the child role (R252): the team stops issuing for good. DESIGN CHOICE (log 122): its boundary adds 1 to the child's PHC,
as any boundary does (R207), though the word never completes. -/
def State.joinParent (s : State) (t : Team) : Run :=
  let s := s.handOffAll t.uid
  if !t.tiq.isEmpty || !s.updEmpty t.uid then .stall s
  else
    let sc := recScope (s.recordOf t)
    let (s, b) := s.publish t.uid sc true true
    .done ((s.complete t.uid sc b []).modTeam t.uid (fun t => { t with status := .joined, rq := [], frq := [], preq := false }))

/-- The global id of a team that is placed or saved. -/
def State.gidOf (s : State) (uid : Nat) : Option Gid := (s.anyTeam? uid).map (·.gid)

/-- JOIN (R252). -/
def execJoin (sp : SReg) (s : State) : Host.Outcome State Fault Refusal :=
  s.front (.join sp) (fun t =>
    let names := fun (uid : Nat) => match s.gidOf uid with
      | some g => (g.zeroExtend 64 : Word) == t.rs sp
      | none => false
    match t.parent, t.kids with
    | _, kid :: _ => if names kid then s.joinChild t kid else .fail s (FaultInfo.plain kIllOp .team)
    | some p, [] => if names p then s.joinParent t else .fail s (FaultInfo.plain kIllOp .team)
    | none, [] => .fail s (FaultInfo.plain kIllOp .team))

/-! ### The deque -/

/-- The deque of a core. -/
def State.dequeOf (s : State) (g : Gid) : List (Word × Word × List Nat) := kget [] (s.pkg (gidPkg g)).deques (coreSlot g)

/-- Replaces it. -/
def State.putDeque (s : State) (g : Gid) (d : List (Word × Word × List Nat)) : State :=
  s.modPkg (gidPkg g) (fun k => { k with deques := kset [] k.deques (coreSlot g) d })

/-- SPAWN (R253). -/
def execSpawn (k : GReg) (sa : SReg) (off : BitVec 32) (s : State) : Host.Outcome State Fault Refusal :=
  s.front (.spawn k sa off) (fun t =>
    let d := s.dequeOf t.gid
    if !t.deque then .fail s (FaultInfo.plain kIllOp .team)
    else if 64 ≤ d.length then .done (s.putTeam ((t.wrG k false).advance 8))
    else .done ((s.putDeque t.gid ((t.label off, t.rs sa, t.lastPub) :: d)).putTeam ((t.wrG k true).advance 8)))

/-- The logical neighbours of a core, in the order of R254. -/
def takeOrder (n : Nat) : List Nat :=
  (if n % 16 ≠ 15 then [n + 1] else []) ++ (if n < 240 then [n + 16] else []) ++ (if n % 16 ≠ 0 then [n - 1] else []) ++
  (if 16 ≤ n then [n - 16] else [])

/-- A core of the same cluster. -/
def withCore (g : Gid) (n : Nat) : Gid := mkGid (gidPkg g) (gidDie g) (gidClu g) (BitVec.ofNat 8 n) 0

/-- The entry that TAKE finds (R254), and the state without it. -/
def State.findTask (s : State) (t : Team) : Option ((Word × Word × List Nat) × State) :=
  match s.dequeOf t.gid with
  | e :: d => some (e, s.putDeque t.gid d)
  | [] =>
    let near := (takeOrder (gidCore t.gid).toNat).map (withCore t.gid)
    let ours := near.filter (fun g => s.teams.any (fun u => u.launch == t.launch && gidCoreKey u.gid == gidCoreKey g))
    match ours.find? (fun g => !(s.dequeOf g).isEmpty) with
    | some g =>
      let d := s.dequeOf g
      d.getLast?.map (fun e => (e, s.putDeque g d.dropLast))
    | none => none

/-- TAKE (R254). -/
def execTake (k : GReg) (sd : SReg) (s : State) : Host.Outcome State Fault Refusal :=
  s.front (.take k sd) (fun t =>
    if !t.deque then .fail s (FaultInfo.plain kIllOp .team)
    else
      match s.findTask t with
      | some (e, s') =>
        .done (s'.putTeam ((({ t with knows := union t.knows e.2.2 }.wrS sd e.2.1).wrG k true).jumpTo e.1))
      | none => .done (s.putTeam ((t.wrG k false).advance 8)))

/-! ### Queues in memory, and LAUNCH -/

/-- The key of an address of a host command (log): bit 63 names host memory, else it is device memory of the package. -/
def cmdKey (p : PkgNo) (a : Nat) : Nat := if 2 ^ 63 ≤ a then hostKey (a % 2 ^ 52) else devKey p (a % 2 ^ 40)

/-- A doubleword as the host path reads it. -/
def State.hostDword (s : State) (k : Nat) : Word := BitVec.ofNat 64 (bytesToNat (s.hostValue (keysFrom k 8)))

/-- Writes a doubleword on the host path, for firmware. -/
def State.fwDword (s : State) (k : Nat) (v : Word) : State := s.hostPut (cellsAt k (natToBytes 8 v.toNat))

/-- The bytes of a queue's tail doubleword. -/
def Queue.tailKeys (x : Queue) (p : PkgNo) : List Nat := keysFrom (cmdKey p x.tailAt) 8

/-- Records that stand in the ring and have not been popped. -/
def State.ringCount (s : State) (p : PkgNo) (q : Queue) : Nat :=
  (s.hostDword (cmdKey p q.tailAt)).toNat - q.head

/-- The doublewords of a record from its bytes. -/
def recordOfBytes (bs : List Byte) : List Word :=
  (List.range 16).map (fun i => BitVec.ofNat 64 (bytesToNat ((bs.drop (8 * i)).take 8)))

/-- The keys of a launch record that LAUNCH reads on the team path, or none: it must be aligned, readable and in device
memory. DESIGN CHOICE (log 121): aligned to its 128 bytes, where Table 9.6 says only "misaligned". -/
def State.recordKeys (s : State) (t : Team) (a : Word) : Chk (Option (List Nat)) :=
  match s.svcKeys t .read a 128 with
  | .ok (some ks) => if a.toNat % 128 = 0 && ks.all isDevKey then .ok (some ks) else .ok none
  | x => x

/-- Appends a record to a queue (R256), behind the records that stand in its ring by now (R382). -/
def State.appendRecord (s : State) (p : PkgNo) (q : BitVec 6) (r : List Word) (prec : List Nat) : State :=
  let n := (s.hostDword (cmdKey p ((s.pkg p).queues.get q.toFin).tailAt)).toNat
  s.modPkg p (fun k =>
    let x := k.queues.get q.toFin
    { k with queues := k.queues.set q.toFin { x with appended := x.appended ++ [(r, prec, n)] } })

/-- LAUNCH returns its status. -/
def State.launchDone (s : State) (uid : Nat) (sd : SReg) (st : Word) : Run :=
  .done (s.modTeam uid (fun t => (t.wrS sd st).advance 8))

/-- LAUNCH (R256); a queue whose reset is in progress takes no record (R302). -/
def execLaunch (sd sa sb : SReg) (s : State) : Host.Outcome State Fault Refusal :=
  s.front (.launch sd sa sb) (fun t =>
    let q : BitVec 6 := (t.rs sb).truncate 6
    let x := (s.pkg t.pkg).queues.get q.toFin
    if (63#64).ult (t.rs sb) || !x.open_ || x.ctx != t.ctx || (s.pkg t.pkg).resetting.contains q then
      s.launchDone t.uid sd 2
    else chkRun s (s.recordKeys t (t.rs sa)) (fun ks =>
      match ks with
      | none => s.launchDone t.uid sd 3
      | some ks =>
        let (bs, s) := s.loadBytes t ks
        let s := s.rackKeys (x.tailKeys t.pkg)
        let r := recordOfBytes bs
        if !recordOk r then s.launchDone t.uid sd 4
        else if 2 ^ x.k ≤ s.ringCount t.pkg x + x.appended.length then s.launchDone t.uid sd 1
        else (s.appendRecord t.pkg q r t.lastPub).launchDone t.uid sd 0))

end Sys2Proof.Machine
end

