-- ==== Sys2Proof/Machine/Control.lean ====
section
/-!
DEFINITION. Meanings of the control transfers (R132, R133, R40), DRAIN (R135), YIELD (R137), TRAP and BRK (R140).
-/

namespace Sys2Proof.Machine

/-- Goes to a target; one that is no word address is an illegal instruction at the transfer (R40). -/
def State.transfer (s : State) (t : Team) (target : Word) : Run :=
  if target.toNat % 8 = 0 then .done (s.putTeam (t.jumpTo target)) else .fail s (FaultInfo.plain kIllInstr .team)

/-- BR (R132). -/
def execBr (off : BitVec 32) (s : State) : Host.Outcome State Fault Refusal :=
  s.front (.br off) (fun t => s.transfer t (t.label off))

/-- JMP (R132). -/
def execJmp (sa : SReg) (imm : BitVec 32) (s : State) : Host.Outcome State Fault Refusal :=
  s.front (.jmp sa imm) (fun t => s.transfer t (t.rs sa + imm.signExtend 64))

/-- The target of CALL. -/
def Team.callTo (t : Team) (tgt : CallTarget) : Word :=
  match tgt with
  | .label off => t.label off
  | .reg sa => t.rs sa

/-- CALL (R132). -/
def execCall (sd : SReg) (tgt : CallTarget) (s : State) : Host.Outcome State Fault Refusal :=
  s.front (.call sd tgt) (fun t => s.transfer (t.wrS sd (t.pc + 8)) (t.callTo tgt))

/-- RET (R132). -/
def execRet (sa : SReg) (s : State) : Host.Outcome State Fault Refusal :=
  s.front (.ret sa) (fun t => s.transfer t (t.rs sa))

/-- LOOP (R133). -/
def execLoop (sd : SReg) (off : BitVec 32) (s : State) : Host.Outcome State Fault Refusal :=
  s.front (.loop sd off) (fun t =>
    let c := t.rs sd - 1
    if c = 0 then .done (s.putTeam ((t.wrS sd c).advance 8)) else s.transfer (t.wrS sd c) (t.label off))

/-- DRAIN (R135): the TIQ and the copies have been waited for; pairs are handed to the Press. -/
def execDrain (upd copy tiq : Bool) (s : State) : Host.Outcome State Fault Refusal :=
  s.front (.drain upd copy tiq) (fun t =>
    if upd then
      let s := s.handOffAll t.uid
      if s.updEmpty t.uid then .done (s.advance t.uid 8) else .stall s
    else .done (s.advance t.uid 8))

/-- YIELD (R137). -/
def execYield (sd : SReg) (off : BitVec 32) (s : State) : Host.Outcome State Fault Refusal :=
  s.front (.yield sd off) (fun t =>
    if t.preq then
      let s := s.handOffAll t.uid
      if s.updEmpty t.uid then
        .done (s.modTeam t.uid (fun t => (t.wrS sd (t.pc + 8)).jumpTo (t.label off)))
      else .stall s
    else .done (s.advance t.uid 8))

/-- The facts of a TRAP or BRK. -/
def trapInfo (kind : BitVec 8) (code : BitVec 16) : FaultInfo := { FaultInfo.plain kind .team with code }

/-- TRAP (R140): the software-trap fault, resumed at the next word. -/
def execTrap (code : BitVec 16) (s : State) : Host.Outcome State Fault Refusal :=
  s.front (.trap code) (fun t => .done (s.frontFault t.uid (trapInfo kTrap code) (some (t.pc + 8))))

/-- BRK (R140): the breakpoint fault, resumed at the next word. -/
def execBrk (code : BitVec 16) (s : State) : Host.Outcome State Fault Refusal :=
  s.front (.brk code) (fun t => .done (s.frontFault t.uid (trapInfo kBreak code) (some (t.pc + 8))))

end Sys2Proof.Machine
end

