-- ==== Sys2Proof/Machine/EngineExec.lean ====
section
/-!
DEFINITION. Meanings of the matrix and core engines (06_core_matrix.md) and the tile-side instructions of the cluster,
the Press, the vintage cache and the fabric (R110): each is placed in the TIQ and run by the block sequencer; its checks
and its work are its arms of `tileAccept` and `tileRun`.
-/

namespace Sys2Proof.Machine

/-- LDB (R192). -/
def execLdb (dims : Option SReg) (ta : Src) (so : SReg) (s : State) : Host.Outcome State Fault Refusal :=
  s.tileExec (.ldb dims ta so)

/-- LDBM (R193). -/
def execLdbm (dims : Option SReg) (h : Handle) (sx so : SReg) (s : State) : Host.Outcome State Fault Refusal :=
  s.tileExec (.ldbm dims h sx so)

/-- MMA (R194, R195). -/
def execMma (f : BitVec 2) (ad : AReg) (ta : Src) (ss sp : SReg) (en : Option EReg) (s : State) : Host.Outcome State Fault Refusal :=
  s.tileExec (.mma f ad ta ss sp en)

/-- MMAM (R196). -/
def execMmam (f : BitVec 2) (ad : AReg) (h : Handle) (ss sx sp : SReg) (en : Option EReg) (s : State) : Host.Outcome State Fault Refusal :=
  s.tileExec (.mmam f ad h ss sx sp en)

/-- MMAT (R197). -/
def execMmat (ad : AReg) (ta : Src) (ss sp : SReg) (s : State) : Host.Outcome State Fault Refusal :=
  s.tileExec (.mmat ad ta ss sp)

/-- ACLR (R198). -/
def execAclr (int : Bool) (ad : AReg) (s : State) : Host.Outcome State Fault Refusal :=
  s.tileExec (.aclr int ad)

/-- ARD (R199). -/
def execArd (clr : Bool) (cv : Conv) (td : TReg) (as : AReg) (sw sx : SReg) (en : Option EReg) (s : State) : Host.Outcome State Fault Refusal :=
  s.tileExec (.ard clr cv td as sw sx en)

/-- AWR (R200). -/
def execAwr (add : Bool) (ad : AReg) (ta : Src) (sw : SReg) (s : State) : Host.Outcome State Fault Refusal :=
  s.tileExec (.awr add ad ta sw)

/-- AMAXA (R201). -/
def execAmaxa (acc : Bool) (td : TReg) (as : AReg) (sw : SReg) (s : State) : Host.Outcome State Fault Refusal :=
  s.tileExec (.amaxa acc td as sw)

/-- TSCL (R202). -/
def execTscl (tgt gc : BitVec 2) (en : EReg) (ta : Src) (s : State) : Host.Outcome State Fault Refusal :=
  s.tileExec (.tscl tgt gc en ta)

/-- ROUTE (R203). -/
def execRoute (td tc : TReg) (ti : Src) (se : SReg) (s : State) : Host.Outcome State Fault Refusal :=
  s.tileExec (.route td tc ti se)

/-- ABLK (R204). -/
def execAblk (fp8 causal : Bool) (td : TReg) (ta : Src) (ss sp : SReg) (k : BitVec 8) (s : State) : Host.Outcome State Fault Refusal :=
  s.tileExec (.ablk fp8 causal td ta ss sp k)

/-- IWALK (R205). -/
def execIwalk (td tc : TReg) (tm : Src) (ss sx : SReg) (s : State) : Host.Outcome State Fault Refusal :=
  s.tileExec (.iwalk td tc tm ss sx)

/-- SENDT (R244). -/
def execSendt (k : GReg) (ta : Src) (sr : SReg) (team : BitVec 3) (tag : BitVec 16) (s : State) : Host.Outcome State Fault Refusal :=
  s.tileExec (.sendt k ta sr team tag)

/-- RECVT (R246). -/
def execRecvt (w : Wild) (td : TReg) (sm : SReg) (tag : BitVec 16) (s : State) : Host.Outcome State Fault Refusal :=
  s.tileExec (.recvt w td sm tag)

/-- UPD (R316). -/
def execUpd (strict : Bool) (ti tv : Src) (rh : BitVec 10) (s : State) : Host.Outcome State Fault Refusal :=
  s.tileExec (.upd strict ti tv rh)

/-- VNTQ (R338). -/
def execVntq (k : GReg) (h : Handle) (sb st : SReg) (s : State) : Host.Outcome State Fault Refusal :=
  s.tileExec (.vntq k h sb st)

/-- VNTW (R339). -/
def execVntw (h : Handle) (sb st : SReg) (s : State) : Host.Outcome State Fault Refusal :=
  s.tileExec (.vntw h sb st)

/-- FGTH (R367). -/
def execFgth (kind : BitVec 2) (td ti : TReg) (h : Handle) (sx : SReg) (s : State) : Host.Outcome State Fault Refusal :=
  s.tileExec (.fgth kind td ti h sx)

/-- ALLX (R370). -/
def execAllx (n : BitVec 3) (td ta : TReg) (sr sc : SReg) (s : State) : Host.Outcome State Fault Refusal :=
  s.tileExec (.allx n td ta sr sc)

end Sys2Proof.Machine
end

