-- ==== Sys2Proof/Machine/SideEvents.lean ====
section
/-!
DEFINITION. Steps of the hardware beside a team's front: the store buffer (R118), the block sequencer (R147, R151, R111),
the copy engine (R161, R162), faults and their records (R116, R389, R301, R228), walks that wait too long (R273), message
delivery in the fabric (R364).
-/

namespace Sys2Proof.Machine

/-- A step of the team placed at a global id; nothing happens where none is. -/
def State.atTeam (s : State) (gid : Gid) (f : Team → State) : Host.Outcome State Fault Refusal :=
  match s.teamOf gid with
  | some t => .next (f t)
  | none => .next s

/-- STORE_PERFORM (R118): the team's oldest held store performs once everything older has passed its fault point. -/
def execStorePerform (gid : Gid) (s : State) : Host.Outcome State Fault Refusal :=
  s.atTeam gid (fun t =>
    match t.sbuf with
    | h :: _ => if h.seq < t.safeSeq then s.performStores t.uid (h.seq + 1) else s
    | [] => s)

/-- TIQ_ACCEPT (R147). -/
def execTiqAccept (gid : Gid) (s : State) : Host.Outcome State Fault Refusal :=
  s.atTeam gid (fun t => s.acceptHead t.uid)

/-- MICRO_OPERATION_ISSUE (R151): the accepted head of the team's TIQ runs. -/
def execMicroOperationIssue (gid : Gid) (s : State) : Host.Outcome State Fault Refusal :=
  s.atTeam gid (fun t => s.issueHead t.uid true)

/-- TILE_INSTRUCTION_COMPLETION (R111). -/
def execTileInstructionCompletion (gid : Gid) (s : State) : Host.Outcome State Fault Refusal :=
  s.atTeam gid (fun t => s.leaveHead t.uid)

/-- COPY_ROW (R161). -/
def execCopyRow (gid : Gid) (s : State) : Host.Outcome State Fault Refusal :=
  s.atTeam gid (fun t => s.stepCopy t.uid)

/-- COPY_COMPLETION (R162): the copy in progress moves all its rows and completes. -/
def execCopyCompletion (gid : Gid) (s : State) : Host.Outcome State Fault Refusal :=
  s.atTeam gid (fun t =>
    if t.copies.isEmpty then s else (stepCopies t.uid (s.copyLeft t.uid) s).completeHead t.uid)

/-- FAULT (R116): the held fault is taken once nothing older is left. -/
def execFault (gid : Gid) (s : State) : Host.Outcome State Fault Refusal :=
  s.atTeam gid (fun t => s.takeHeld t.uid)

/-- When a walk of the team began to wait (R273). -/
def Team.walkStart (t : Team) : Option Nat :=
  match t.tileWalk, t.wait with
  | some st, _ => some st
  | none, .walk st => some st
  | _, _ => none

/-- WALK_TIMEOUT (R273): 20 µs of waiting are up; the walk fault is raised by the tile side at once, by the front in the
team's next turn, which comes next. -/
def execWalkTimeout (gid : Gid) (s : State) : Host.Outcome State Fault Refusal :=
  s.atTeam gid (fun t =>
    match t.walkStart with
    | none => s
    | some st =>
      let s := { s with now := max s.now (st + walkLimit) }
      if t.tileWalk.isSome then s.runHead t.uid else { s with agenda := .team t.uid :: s.agenda })

/-! ### Message delivery -/

/-- FABRIC_MESSAGE_DELIVERY (R364, R366). -/
def execFabricMessageDelivery (gid : Gid) (s : State) : Host.Outcome State Fault Refusal :=
  s.atTeam gid (fun t => s.putTeam { t with frq := deliverOne (s.pick t.uid (2 ^ 16)) t.frq })

/-! ### Cancel tokens (R301) -/

/-- Raises a token; with 64 in the list it is pending. -/
def Ctx.raise (c : Ctx) (now : Nat) (g : BitVec 16) : Ctx :=
  if g = 0 || c.tokens.any (fun x => x.1 == g) || c.tokensPending.any (fun x => x.1 == g) then c
  else if c.tokens.length < 64 then { c with tokens := c.tokens ++ [(g, now)] }
  else { c with tokensPending := c.tokensPending ++ [(g, now)] }

/-- Pending tokens enter the list as far as it has room, each with the time when it was raised. -/
def Ctx.takeIn (c : Ctx) : Ctx :=
  let n := 64 - c.tokens.length
  { c with tokens := c.tokens ++ c.tokensPending.take n, tokensPending := c.tokensPending.drop n }

/-- The kinds of fault that raise a token. -/
def tokenKind (k : BitVec 8) : Bool :=
  match k.toNat with
  | 1 | 2 | 3 | 9 | 10 | 11 | 12 | 13 | 14 | 16 | 17 => true
  | _ => false

/-! ### Fault records (R389) and resolutions (R228) -/

/-- Bytes of the fault ring that hold records: all but its last 64. -/
def faultRing : Nat := 2 ^ 20 - 64

/-- Whether the fault ring of a context has room for `n` bytes: the tail never catches up with the head. -/
def State.faultRoom (s : State) (p : PkgNo) (c : Ctx) (n : Nat) : Bool :=
  let tail := (s.hostDword (devKey p (c.faultQ + faultRing))).toNat
  let head := (s.hostDword (devKey p (c.faultQ + faultRing + 8))).toNat
  decide ((tail + faultRing - head % faultRing) % faultRing + n < faultRing)

/-- Writes doublewords into the ring from byte `at_` on, wrapping. -/
def State.ringWords (s : State) (p : PkgNo) (base at_ : Nat) : List Word → State
  | [] => s
  | w :: ws => (s.fwDword (devKey p (base + at_ % faultRing)) w).ringWords p base (at_ + 8) ws

/-- The bytes of a record. -/
def FaultPost.bytes (f : FaultPost) : Nat := 8 * f.words.length

/-- The token that a posted record raises (R301). -/
def State.postToken (s : State) (p : PkgNo) (ctx : CtxId) (f : FaultPost) : State :=
  let kind : BitVec 8 := (f.words.getD 0 0).extractLsb' 40 8
  match s.launch? f.launch with
  | some l => if tokenKind kind then s.modCtx p ctx (fun c => c.raise s.now (recGraph l.record)) else s
  | none => s

/-- FAULT_RECORD_POST (R389, R301): the oldest waiting record of a context enters its fault queue, once there is room. -/
def execFaultRecordPost (pkg : PkgNo) (ctx : CtxId) (s : State) : Host.Outcome State Fault Refusal :=
  match s.ctx? pkg ctx with
  | none => .next s
  | some c =>
    match c.posts with
    | [] => .next s
    | f :: rest =>
      let s := s.rackKeys (keysFrom (devKey pkg (c.faultQ + faultRing)) 16)
      if !s.faultRoom pkg c f.bytes then .next s
      else
        let tail := (s.hostDword (devKey pkg (c.faultQ + faultRing))).toNat
        let s := s.ringWords pkg c.faultQ tail f.words
        let s := s.fwDword (devKey pkg (c.faultQ + faultRing)) (BitVec.ofNat 64 ((tail + f.bytes) % faultRing))
        let s := s.modCtx pkg ctx (fun c => { c with posts := rest, msixSignals := c.msixSignals + 1 })
        .next (s.postToken pkg ctx f)

/-- Firmware writes doublewords at a virtual address of a context (R228, R386); one that does not translate is dropped. -/
def State.fwVa (s : State) (p : PkgNo) (ctx : CtxId) (va : Nat) : List Word → State
  | [] => s
  | w :: ws =>
    match s.ctx? p ctx with
    | none => s
    | some c =>
      match s.xlateHost p c va with
      | .ok k => (s.fwDword k w).fwVa p ctx (va + 8) ws
      | _ => s.fwVa p ctx (va + 8) ws

/-- The first doubleword of a fault-completion entry (R228). -/
def completionHead (seq : BitVec 32) (gid : Gid) : Word := (0 : BitVec 7) ++ gid ++ seq

/-- A saved team stopped at the fault of that record. -/
def SavedTeam.stoppedAt (x : SavedTeam) (ctx : CtxId) (seq : BitVec 32) : Bool :=
  x.team.ctx == ctx && (match x.team.status with
    | .stopped _ n => n == seq
    | _ => false)

/-- FAULT_COMPLETION (R228): the resolution of a fault whose team is saved is posted to the fault-completion queue of its
launch. -/
def execFaultCompletion (pkg : PkgNo) (ctx : CtxId) (seq : BitVec 32) (s : State) : Host.Outcome State Fault Refusal :=
  match s.ctx? pkg ctx, s.saved.find? (fun x => x.stoppedAt ctx seq && x.team.pkg == pkg) with
  | some c, some x =>
    let va := recFcq (s.recordOf x.team) + 16 * (c.fcqTail % 4096)
    let s := s.fwVa pkg ctx va [completionHead seq x.team.gid, 0]
    .next (s.modCtx pkg ctx (fun c => { c with fcqTail := c.fcqTail + 1, resolved := c.resolved ++ [(seq, x.team.gid)] }))
  | _, _ => .next s

end Sys2Proof.Machine
end

