-- ==== Sys2Proof/Machine/SaveArea.lean ====
section
/-!
DEFINITION. The save area of Tables 7.8 to 7.10: its image of a team and back; ERET, CTXS and CTXL (R224, R225).
-/

namespace Sys2Proof.Machine

/-! ### The image of a team -/

/-- Packs elements of `eb` bits into `n` bytes, element 0 lowest. -/
def packBits (eb n : Nat) (els : List Nat) : List Byte :=
  natToBytes n (els.zipIdx.foldl (fun a xi => a + xi.1 * 2 ^ (eb * xi.2)) 0)

/-- Pads or cuts a byte list to `n` bytes. -/
def fitBytes (n : Nat) (bs : List Byte) : List Byte := (List.range n).map (fun i => bs.getD i 0)

/-- Doublewords of a byte list. -/
def wordsOf (bs : List Byte) : List Word :=
  (List.range ((bs.length + 7) / 8)).map (fun i => BitVec.ofNat 64 (bytesToNat ((bs.drop (8 * i)).take 8)))

/-- The footprint of a tile as bytes (R144). -/
def Tile.footBytes (x : Tile) : List Byte :=
  if x.geo.packed then fitBytes x.geo.footprint x.packedBytes
  else
    (List.range x.geo.rows).flatMap (fun r =>
      packBits (ebits x.geo.etype) x.geo.rowBytes ((List.range x.geo.cols).map (x.el r))) ++
    (if x.geo.mx then (coords x.geo.rows x.geo.segs).map (fun p => x.sc p.1 p.2) else [])

/-- The written tiles of a team with the first slot that each takes in the section; the order is a free choice (log 25). -/
def State.savedSlots (s : State) (t : Team) : List (Nat × Nat) :=
  let names := (List.range 64).filter (fun n => match t.tiles[n]? with
    | some (some x) => x.written
    | _ => false)
  ((rotate names (s.pick 1 names.length)).foldl (fun (acc : List (Nat × Nat) × Nat) n =>
    let k := (match t.tiles[n]? with
      | some (some x) => x.geo.slots
      | _ => 0)
    (acc.1 ++ [(n, acc.2)], acc.2 + k)) ([], 0)).1

/-- The first slot of a tile. -/
def slotOf (slots : List (Nat × Nat)) (n : Nat) : Nat := ((slots.find? (fun x => x.1 == n)).map (·.2)).getD 0

/-- The binding doubleword of a tile name (Table 7.10, TB). -/
def bindWord (slots : List (Nat × Nat)) (n : Nat) (x : Option Tile) : Word :=
  match x with
  | none => 0
  | some x =>
    BitVec.ofBool true ++ BitVec.ofBool x.written ++ BitVec.ofBool x.strm.isSome ++ (x.strm.getD 0 : BitVec 3) ++
      (0 : BitVec 10) ++ BitVec.ofNat 16 (slotOf slots n) ++ BitVec.ofNat 16 x.count ++ x.handle

/-- The geometry doubleword of a tile name (TG). -/
def geoWord (x : Option Tile) : Word :=
  match x with
  | none => 0
  | some x =>
    (0 : BitVec 3) ++ x.geo.etype ++ x.geo.layout ++ (0 : BitVec 6) ++ x.geo.nnz ++ BitVec.ofNat 16 (x.geo.rows - 1) ++
      BitVec.ofNat 16 (x.geo.cols - 1)

/-- The four doublewords of a stream register (QS). -/
def streamWords (t : Team) (n : Nat) : List Word :=
  match t.q[n]? with
  | some (some st) =>
    let part := t.broken.filter (fun c => c.q == some (BitVec.ofNat 3 n))
    let owed := (part.map (fun c => c.rows - c.row)).getD 0
    [ BitVec.ofNat 32 owed ++ BitVec.ofNat 16 st.lines.length ++ (0 : BitVec 9) ++ st.tile ++ (1 : BitVec 1),
      (part.map (·.srcWord)).getD 0, (part.map (fun c => c.srcH.zeroExtend 64)).getD 0, 0 ]
  | _ => [0, 0, 0, 0]

/-- The resumption PC of a team. -/
def Team.resumePc (t : Team) : Word :=
  match t.status with
  | .stopped pc _ => pc
  | _ => t.pc

/-- The doublewords of the header that are not zero, by index (Table 7.10). -/
def State.headerMap (s : State) (t : Team) (slots : List (Nat × Nat)) : List (Nat × Word) :=
  [(0, t.resumePc), (32, t.g.zeroExtend 64 &&& 0xFE), (53, t.lfsr.zeroExtend 64), (54, BitVec.ofNat 64 t.bq.length),
   (231, (0 : BitVec 38) ++ BitVec.ofNat 8 t.resB.nb ++ BitVec.ofNat 11 t.resB.kb ++ BitVec.ofBool t.resB.bmx ++
      t.resB.btype ++ BitVec.ofBool t.resB.bv),
   (232, BitVec.ofNat 64 ((List.range 16).foldl (fun a i => a + if (t.acc.get (Fin.ofNat 16 i)).int then 2 ^ i else 0) 0))]
  ++ (List.range 31).map (fun i => (i + 1, t.rs (BitVec.ofNat 5 (i + 1))))
  ++ (List.range 20).map (fun n => (33 + n, s.sprRead t (BitVec.ofNat 5 n)))
  ++ t.bq.zipIdx.map (fun vi => (55 + vi.2, vi.1))
  ++ (List.range 64).map (fun n => (71 + n, bindWord slots n ((t.tiles[n]?).getD none)))
  ++ (List.range 64).map (fun n => (135 + n, geoWord ((t.tiles[n]?).getD none)))
  ++ (List.range 8).flatMap (fun n => (streamWords t n).zipIdx.map (fun wi => (199 + 4 * n + wi.2, wi.1)))

/-- The header. -/
def State.headerImage (s : State) (t : Team) (slots : List (Nat × Nat)) : List Word :=
  let m := s.headerMap t slots
  (List.range 512).map (fun i => ((m.find? (fun x => x.1 == i)).map (·.2)).getD 0)

/-- The tiles section. -/
def tilesImage (t : Team) (slots : List (Nat × Nat)) : List Byte :=
  fitBytes (slotShare t.part * 4096) (slots.flatMap (fun ns =>
    match t.tiles[ns.1]? with
    | some (some x) => fitBytes (x.geo.slots * 4096) x.footBytes
    | _ => []))

/-- The accumulators section: 64 x 128 elements of 10 bytes a name. -/
def accImage (t : Team) : List Byte :=
  (List.range (accShare t.part)).flatMap (fun a =>
    (List.range 8192).flatMap (fun k => natToBytes 10 (kget 0 (t.acc.get (Fin.ofNat 16 a)).cells k).toNat))

/-- The cell of resident B at place `j` of the section: k and n. -/
def cellAt (nb j : Nat) : Nat × Nat := (j / max 1 nb, j % max 1 nb)

/-- The code of resident B at place `j`. -/
def ResidentB.at (b : ResidentB) (j : Nat) : Nat :=
  let (k, n) := cellAt b.nb j
  if k < b.kb then (kget 0 b.cells (k * 128 + n)).toNat else 0

/-- B cell `j`: one element, or two trits (R181). -/
def ResidentB.cell (b : ResidentB) (j : Nat) : Nat :=
  if b.btype = 0x0A then b.at (2 * j) % 4 + b.at (2 * j + 1) % 4 * 4 else b.at j

/-- The resident-B section: cells, scales, scale registers (log 25). -/
def residentImage (t : Team) : List Byte :=
  (List.range (cellShare t.part)).flatMap (fun j => natToBytes 2 (t.resB.cell j)) ++
  fitBytes 4096 ((List.range (bscaleShare t.part)).map (fun j =>
      let (g, n) := cellAt t.resB.nb j
      kget 0x7F t.resB.scales (g * 128 + n)) ++
    (List.range 16).flatMap (fun e =>
      let x := t.scale.get (Fin.ofNat 16 e)
      (List.range 64).map (kget 0x7F x.bytes) ++ [x.gc.zeroExtend 8]))

/-- The streams section: the lines of each q register, packed as rows of its tile. -/
def streamImage (t : Team) : List Byte :=
  (List.range 8).flatMap (fun n => fitBytes 32768 (match t.q[n]? with
    | some (some st) =>
      (match t.tile st.tile with
       | some x => st.lines.flatMap (fun l => packBits (ebits x.geo.etype) x.geo.rowBytes (l.map BitVec.toNat))
       | none => [])
    | _ => []))

/-- Bytes of the save area of a partition (R225). -/
def areaBytes (part : BitVec 2) : Nat :=
  4096 + slotShare part * 4096 + accShare part * 81920 + (2 * cellShare part + 4096) + 262144

/-- The image of a team in its save area. -/
def State.saveImage (s : State) (t : Team) : List Word :=
  let slots := s.savedSlots t
  s.headerImage t slots ++ wordsOf (tilesImage t slots ++ accImage t ++ residentImage t ++ streamImage t)

/-! ### From an image to a team -/

/-- Bits of special register `n` that a save area keeps zero (Table 4.4). -/
def sprReserved (n : Nat) : Word :=
  match n with
  | 7 => 0xFFFF_FFFE_0000_0000
  | 8 | 9 => 0
  | 10 => 0xFFFF_FFFF_FFFF_FFFE
  | 11 => 0xFFFF_FFFF_0000_0000
  | 12 => 0xFFFF_FFFF_FE00_0000
  | 13 => 0xFFFF_FFFF_FFFF_FF80
  | 14 => 0xFFFF_FFFF_FFFF_FFF8
  | 15 => 0xFFFF_FFFF_FFFF_FFFC
  | 16 => 0xFFFF_FFFF_FFFF_FF00
  | 17 | 18 => 0xFFFF_FFFF_FFFF_FFFE
  | 19 => 0xFFFF_FFFF_FFFF_F000
  | n => ~~~ sprMask (BitVec.ofNat 5 n)

/-- The geometry that TG holds. -/
def geoOf (w : Word) : Geo :=
  ⟨w.extractLsb' 56 5, w.extractLsb' 54 2, w.extractLsb' 32 16, (w.extractLsb' 16 16).toNat + 1,
   (w.extractLsb' 0 16).toNat + 1⟩

/-- Whether every reserved field of a header is zero. DESIGN CHOICE (log 120): a BQN of 17 to 31, for which Tables 7.9 and 7.10 name
no status, counts as a reserved field that is not. -/
def headerClean (h : List Word) : Bool :=
  let d := fun (i : Nat) => h.getD i 0
  d 32 &&& ~~~ (0xFE : Word) == 0 &&
  (List.range 20).all (fun n => d (33 + n) &&& sprReserved n == 0) &&
  (d 53).extractLsb' 32 32 == 0 && decide ((d 54).toNat ≤ 16) &&
  (List.range 64).all (fun n => (d (71 + n)).extractLsb' 48 10 == 0 &&
    (d (135 + n)).extractLsb' 61 3 == 0 && (d (135 + n)).extractLsb' 48 6 == 0) &&
  (List.range 8).all (fun n => (d (199 + 4 * n)).extractLsb' 7 9 == 0 && (d (201 + 4 * n)).extractLsb' 16 48 == 0 &&
    d (202 + 4 * n) == 0) &&
  (d 231).extractLsb' 26 38 == 0 && (d 232).extractLsb' 16 48 == 0 &&
  (List.range 279).all (fun i => d (233 + i) == 0)

/-- Whether every saved geometry is that of its handle's record. -/
def State.geosMatch (s : State) (t : Team) (h : List Word) : Bool :=
  (List.range 64).all (fun n =>
    let b := h.getD (71 + n) 0
    let hd : Handle := b.extractLsb' 0 16
    !b.getLsbD 63 || (s.readShape t hd).geo? hd t.part == some (geoOf (h.getD (135 + n) 0)))

/-- Element `c` of a packed row. -/
def rowEl (eb row c : Nat) : Nat := row / 2 ^ (eb * c) % 2 ^ eb

/-- The bytes of a section from byte `off` on. -/
def sectionBytes (bs : List Byte) (off n : Nat) : List Byte := (bs.drop off).take n

/-- A tile from its bytes. -/
def loadTile (x : Tile) (count : Nat) (bs : List Byte) : Tile :=
  let eb := ebits x.geo.etype
  if x.geo.packed then
    let mb := x.geo.rows * x.geo.mapRow
    let vals := bytesToNat (bs.drop mb)
    { x with written := true, count,
             bitmap := kmapOf 0 ((bs.take mb).zipIdx.map (fun bi => (bi.2, bi.1))),
             data := kmapOf 0 ((List.range count).map (fun j => (j, BitVec.ofNat 64 (rowEl eb vals j)))) }
  else
    let row := fun (r : Nat) => bytesToNat (sectionBytes bs (r * x.geo.rowBytes) x.geo.rowBytes)
    let scs := bs.drop (x.geo.rows * x.geo.rowBytes)
    (x.loaded ((coords x.geo.rows x.geo.cols).map (fun p => (p.1, p.2, rowEl eb (row p.1) p.2)))
      (if x.geo.mx then (coords x.geo.rows x.geo.segs).zipIdx.map (fun p => (p.1.1, p.1.2, scs.getD p.2 0x7F)) else []))

/-- The binding of tile name `n` in an image. -/
def imageTile (h : List Word) (tiles : List Byte) (n : Nat) : Option Tile :=
  let b := h.getD (71 + n) 0
  if b.getLsbD 63 then
    let x := Tile.blank (b.extractLsb' 0 16) (geoOf (h.getD (135 + n) 0))
    let x := if b.getLsbD 62 then
        loadTile x (b.extractLsb' 16 16).toNat (sectionBytes tiles ((b.extractLsb' 32 16).toNat * 4096) x.geo.footprint)
      else x
    some { x with strm := if b.getLsbD 61 then some (b.extractLsb' 58 3) else none }
  else none

/-- Stream register `n` of an image. -/
def imageStream (h : List Word) (streams : List Byte) (n : Nat) : Option Stream :=
  let w := h.getD (199 + 4 * n) 0
  if w.getLsbD 0 then
    let g := geoOf (h.getD (135 + (w.extractLsb' 1 6).toNat) 0)
    let held := min (w.extractLsb' 16 16).toNat (streamCap g)
    let line := fun (i : Nat) => bytesToNat (sectionBytes streams (n * 32768 + i * g.rowBytes) g.rowBytes)
    some ⟨w.extractLsb' 1 6, (List.range held).map (fun i =>
      (List.range g.cols).map (fun c => BitVec.ofNat 64 (rowEl (ebits g.etype) (line i) c))), held, []⟩
  else none

/-- The incomplete TCOPY.str of an image. -/
def imageBroken (h : List Word) (xrow : Nat) : Option Copy :=
  (List.range 8).findSome? (fun n =>
    let owed := ((h.getD (199 + 4 * n) 0).extractLsb' 32 32).toNat
    let sw := h.getD (200 + 4 * n) 0
    if owed = 0 then none
    else some { seq := 0, tag := 0, q := some (BitVec.ofNat 3 n), srcH := (h.getD (201 + 4 * n) 0).extractLsb' 0 16,
                dstH := 0, src := Shape.zero, dst := Shape.zero, srcWord := sw, srcIdx := (sw.extractLsb' 0 32).toNat,
                dstIdx := 0, row := xrow, rows := xrow + owed })

/-- Accumulator `a` of an image. -/
def imageAcc (h : List Word) (accs : List Byte) (a : Nat) : Acc :=
  ⟨(h.getD 232 0).getLsbD a, kmapOf 0 ((List.range 8192).map (fun k =>
    (k, BitVec.ofNat 80 (bytesToNat (sectionBytes accs (a * 81920 + 10 * k) 10)))))⟩

/-- Resident B of an image. -/
def imageResident (h : List Word) (part : BitVec 2) (bs : List Byte) : ResidentB :=
  let w := h.getD 231 0
  let kb := (w.extractLsb' 7 11).toNat
  let nb := (w.extractLsb' 18 8).toNat
  let scs := bs.drop (2 * cellShare part)
  let trits := w.extractLsb' 1 5 == 0x0A
  let code := fun (j : Nat) =>
    if trits then rowEl 2 (bytesToNat (sectionBytes bs (j / 2 * 2) 2)) (j % 2) else bytesToNat (sectionBytes bs (2 * j) 2)
  { bv := w.getLsbD 0, btype := w.extractLsb' 1 5, bmx := w.getLsbD 6, kb, nb,
    cells := kmapOf 0 ((List.range (min (cellShare part * (if trits then 2 else 1)) (kb * nb))).map (fun j =>
      let (k, n) := cellAt nb j
      (k * 128 + n, BitVec.ofNat 16 (code j)))),
    scales := kmapOf 0x7F ((List.range (min (bscaleShare part) ((kb + 31) / 32 * nb))).map (fun j =>
      let (g, n) := cellAt nb j
      (g * 128 + n, scs.getD j 0x7F))) }

/-- Scale register `e` of an image. -/
def imageScale (part : BitVec 2) (bs : List Byte) (e : Nat) : ScaleReg :=
  let x := bs.drop (2 * cellShare part + bscaleShare part + 65 * e)
  ⟨(x.getD 64 0).extractLsb' 0 2, kmapOf 0x7F ((x.take 64).zipIdx.map (fun bi => (bi.2, bi.1)))⟩

/-- A stopped team with the state of an image (R224): what names its place and its partition stays. PC keeps its low bits
zero (R40), and L is loaded as it stands, be it zero (log 89). -/
def State.fromImage (s : State) (t : Team) (h : List Word) (body : List Byte) (seq : BitVec 32) : Team :=
  let d := fun (i : Nat) => h.getD i 0
  let o1 := slotShare t.part * 4096
  let o2 := o1 + accShare t.part * 81920
  let o3 := o2 + (2 * cellShare t.part + 4096)
  let tiles := sectionBytes body 0 o1
  let accs := sectionBytes body o1 (o2 - o1)
  let res := sectionBytes body o2 (o3 - o2)
  let streams := body.drop o3
  let u := (List.range 7).foldl (fun (u : Team) n => u.setSpr (BitVec.ofNat 5 n) (d (33 + n))) t
  { u with
    pc := d 0 &&& ~~~7, status := .stopped (d 0 &&& ~~~7) seq, s := Vector.ofFn (fun i => if i.val = 0 then 0 else d i.val),
    g := ((d 32).extractLsb' 0 8 &&& 0xFE) ||| 1, fcrd := d 40, phc := d 41,
    placedAt := s.now + 2 ^ 64 - (d 42).toNat, preq := (d 43).getLsbD 0, pdlEnd := s.now + (d 44).toNat, lfsr := (d 53).extractLsb' 0 32,
    bq := (List.range (d 54).toNat).map (fun i => d (55 + i)), credits := (d 54).toNat,
    tiles := Vector.ofFn (fun i => imageTile h tiles i.val), q := Vector.ofFn (fun i => imageStream h streams i.val),
    broken := imageBroken h ((d 39).extractLsb' 0 16).toNat,
    acc := Vector.ofFn (fun i => if i.val < accShare t.part then imageAcc h accs i.val else t.acc.get i),
    resB := imageResident h t.part res, scale := Vector.ofFn (fun i => imageScale t.part res i.val) }

/-! ### ERET, CTXS, CTXL (R224) -/

/-- The target of a call and the status that refuses it (Table 7.9). -/
def State.ctxTarget (s : State) (t : Team) (sa : Word) : Except Word (Team × Word × BitVec 32) :=
  if sa.extractLsb' 25 39 != 0 then .error 2
  else match s.teamAt? t.ctx (sa.extractLsb' 0 25) with
  | none => .error 2
  | some u =>
    match u.status with
    | .stopped pc seq => .ok (u, pc, seq)
    | _ => .error 1

/-- A system instruction (R54): a team whose launch lacks the system attribute takes the illegal-instruction fault. -/
def State.systemFront (s : State) (i : Instr) (f : Team → Run) : Host.Outcome State Fault Refusal :=
  s.front i (fun t => if t.sys then f t else .fail s (FaultInfo.plain kIllInstr .team))

/-- ERET (R54, R224). -/
def execEret (sd sa : SReg) (s : State) : Host.Outcome State Fault Refusal :=
  s.systemFront (.eret sd sa) (fun t =>
    match s.ctxTarget t (t.rs sa) with
    | .error st => s.svcDone t.uid sd st
    | .ok (u, pc, _) => (s.modTeam u.uid (fun u => { u with status := .running, pc })).svcDone t.uid sd 0)

/-- The keys of a save area, or none when it is not as required (status 3). -/
def State.areaKeys (s : State) (t : Team) (acc : Access) (a : Word) (part : BitVec 2) : Chk (Option (List Nat)) :=
  if a.toNat % 4096 ≠ 0 then .ok none
  else
    match allChk ((List.range (areaBytes part / 8)).map (fun i => s.scalarKeys t acc .team (a + BitVec.ofNat 64 (8 * i)) 8)) with
    | .ok ks =>
      if !ks.flatten.all isDevKey then .ok none
      else if acc = .read then (s.eccChk .team (a.extractLsb' 0 52).toNat ks.flatten).map (fun _ => some ks.flatten)
      else .ok (some ks.flatten)
    | .error (.fault _) => .ok none
    | .error x => .error x

/-- CTXS (R54, R224, R225). -/
def execCtxs (sd sa sb : SReg) (s : State) : Host.Outcome State Fault Refusal :=
  s.systemFront (.ctxs sd sa sb) (fun t =>
    match s.ctxTarget t (t.rs sa) with
    | .error st => s.svcDone t.uid sd st
    | .ok (u, _, _) => chkRun s (s.areaKeys t .write (t.rs sb) u.part) (fun ks =>
      match ks with
      | none => s.svcDone t.uid sd 3
      | some ks => (storeDwords t.uid (s.saveImage u) ks s).svcDone t.uid sd 0))

/-- CTXL (R54, R224, R225). -/
def execCtxl (sd sa sb : SReg) (s : State) : Host.Outcome State Fault Refusal :=
  s.systemFront (.ctxl sd sa sb) (fun t =>
    match s.ctxTarget t (t.rs sa) with
    | .error st => s.svcDone t.uid sd st
    | .ok (u, _, seq) => chkRun s (s.areaKeys t .read (t.rs sb) u.part) (fun ks =>
      match ks with
      | none => s.svcDone t.uid sd 3
      | some ks =>
        let (bs, s) := s.loadBytes t ks
        let h := wordsOf (bs.take 4096)
        if !headerClean h || (h.getD 48 0).extractLsb' 0 2 != u.part || !s.geosMatch u h then s.svcDone t.uid sd 4
        else (s.putTeam (s.fromImage u h (bs.drop 4096) seq)).svcDone t.uid sd 0))

end Sys2Proof.Machine
end

