-- ==== Sys2Proof/Machine/Preempt.lean ====
section
/-!
DEFINITION. Pre-emption: requests, forced saves and resumption (R226 to R228, R239).
-/

namespace Sys2Proof.Machine

/-- PDL of a deadline class, in cycles (Table 18.3). -/
def deadlineCycles (dl : Nat) : Nat :=
  match dl with
  | 0 => 12000
  | 1 => 60000
  | 2 => 240000
  | _ => 1200000

/-- PREEMPTION_REQUEST (R226): PREQ.REQ := 1, PDL := the deadline of the launch's class. -/
def execPreemptionRequest (gid : Gid) (s : State) : Host.Outcome State Fault Refusal :=
  s.atTeam gid (fun t =>
    if t.preq then s
    else s.putTeam { t with preq := true, pdlEnd := s.now + deadlineCycles (recDl (s.recordOf t)) })

/-- PREEMPTION_WITHDRAWAL (R226): REQ := 0, PDL := 0. -/
def execPreemptionWithdrawal (gid : Gid) (s : State) : Host.Outcome State Fault Refusal :=
  s.atTeam gid (fun t => s.putTeam { t with preq := false, pdlEnd := 0 })

/-! ### Forced save (R227) -/

/-- A barrier's arrival that has not completed is withdrawn (R249, R372). -/
def Team.withdrawBar (t : Team) : Team :=
  match t.wait with
  | .arrived f n _ =>
    let i := Fin.ofNat 8 n
    let k := t.barCount f i
    { t with bars := if f then t.bars else t.bars.set i (k - 1), fbars := if f then t.fbars.set i (k - 1) else t.fbars,
             arrivals := t.arrivals.filter (fun a => !(a.1 == f && a.2.1 == n && a.2.2.1 == k)), wait := .none,
             latched := none }
  | _ => t

/-- Exchanges that have not closed lose the join of a team (R371). -/
def State.withdrawJoins (s : State) (uid : Nat) : State :=
  { s with exchanges := (s.exchanges.map (fun e =>
      if e.closed then e else { e with joins := e.joins.filter (fun j => j.uid != uid) })).filter (fun e => !e.joins.isEmpty) }

/-- Whether the head of the TIQ is an ALLX whose exchange every member has joined. -/
def State.allxClosed (s : State) (t : Team) : Bool :=
  match t.tiq with
  | e :: _ => (match e.instr with
    | .allx n _ _ _ _ => s.exchanges.any (fun x => x.isFor t n.toNat (t.exchs.get n.toFin) &&
        x.joins.any (fun j => j.uid == t.uid) && s.closes x (recTeams (s.recordOf t) n.toNat))
    | _ => false)
  | [] => false

/-- The restart row that discarding the head of the TIQ leaves (R161, R189, R190). -/
def Team.stopRow (t : Team) : BitVec 16 :=
  match t.tiq, t.copies with
  | _, c :: _ => BitVec.ofNat 16 c.row
  | e :: _, [] => if e.accepted && capturesXrow e.instr e.cap then BitVec.ofNat 16 e.xrow else t.xrow
  | [], [] => t.xrow

/-- The instruction that a save stops at, as R116 discards it: the head of the TIQ, else the word at PC. -/
def Team.stopPoint (t : Team) : HeldFault :=
  match t.tiq with
  | e :: _ => e.held { FaultInfo.plain 0 .team with xrow := some t.stopRow }
  | [] => ⟨{ FaultInfo.plain 0 .team with xrow := some t.xrow }, t.wordSeq, t.pc, t.word, false, t.pc⟩

/-- The team with everything from its stopping point on discarded (R227, step 5); nothing is reported. -/
def Team.discardAll (t : Team) : Team := { t.rollBack t.stopPoint with fcrd := t.fcrd }

/-- A UPD at the head of the TIQ has completed for a save once its last pair is in the update queue (R227, R319). -/
def Team.updPlaced (t : Team) : Team :=
  t.modHead (fun e => if isUpd e.instr && e.begun && decide (e.cap.er ≤ e.xrow) then { e with issued := true } else e)

/-- What a save completes first: a barrier whose members have all arrived, an instruction past its fault point, a UPD that has
placed its last row, a closed exchange, a fault that is due. -/
def State.finishDue (s : State) (uid : Nat) : State :=
  let s := s.modTeam uid Team.updPlaced
  let s := (s.leaveHead uid).settle uid
  let s := (match s.team? uid with
    | some t => if s.allxClosed t then s.runHead uid else s
    | none => s)
  let s := (match s.barFinish uid false with
    | some s' => s'
    | none => (s.barFinish uid true).getD s)
  s.takeHeld uid

/-- The stores that a team has performed at place `n` of its program and later are made undone: they were younger than an
ALLX that had not closed (R227); no boundary has published them (log 104). -/
def State.unstore (s : State) (t : Team) (n : Nat) : State :=
  let gone := t.late.filterMap (fun u => match u.what with
    | .write id => if n ≤ u.seq then some id else none
    | _ => none)
  { s with writes := s.writes.filter (fun w => !gone.contains w.id) }.modTeam t.uid (fun u =>
    { u with views := u.views.map (fun (v : List Nat) => v.filter (fun id => !gone.contains id)) })

/-- Stops a team and saves it (R227): what is due completes, the rest is discarded. -/
def State.forceSave (s : State) (uid : Nat) : State :=
  let s := s.finishDue uid
  match s.team? uid with
  | none => s
  | some t =>
    let stopped := (match t.status with
      | .stopped _ _ => true
      | _ => false)
    let s := (s.putTeam t.withdrawBar).withdrawJoins uid
    let s := if t.runs then ((s.unstore t t.stopPoint.seq).modTeam uid Team.discardAll).settle uid else s
    s.suspend uid (if stopped then .stopped else .forced)

/-- FORCED_SAVE (R227): PDL has reached 0. -/
def execForcedSave (gid : Gid) (s : State) : Host.Outcome State Fault Refusal :=
  s.atTeam gid (fun t => if t.preq && decide (t.pdlEnd ≤ s.now) then s.forceSave t.uid else s)

/-! ### Resumption (R226, R228, R239) -/

/-- A team that answered its pre-emption has its header alone (R226). -/
def Team.headerOnly (t : Team) : Team :=
  { t with tiles := Vector.replicate 64 none, q := Vector.replicate 8 none, acc := Vector.replicate 16 Acc.init,
           resB := ResidentB.init, scale := Vector.replicate 16 ScaleReg.init, broken := none }

/-- The team as it comes back to a core. -/
def State.revived (s : State) (x : SavedTeam) (gid : Gid) : Team :=
  let t := if x.kind = .yielded then x.team.headerOnly else x.team
  let t := { t with gid, placedAt := s.now + 2 ^ 64 - x.cyc.toNat }
  match t.status with
  | .stopped pc seq =>
    let done := (match s.ctx? x.team.pkg t.ctx with
      | some c => c.resolved.any (fun r => r.1 == seq)
      | none => false)
    if done then { t with status := .running, pc } else t
  | _ => t

/-- A launch whose group lies within one core or team: it may resume elsewhere (R239). -/
def recNarrow (r : List Word) : Bool := decide (levDomain (recLevel r 0) ≤ 1)

/-- Whether a launch is a gang: its level 0 is bound to the fabric and an instance lies on several packages (R374). -/
def Launch.isGang (l : Launch) : Bool :=
  levDomain (recLevel l.record 0) == 5 &&
  l.insts.any (fun i => i.cores.any (fun c => c / 1024 != i.cores.headD 0 / 1024))

/-- Whether a team belongs to the same instance of the same launch as another. -/
def Team.mateOf (u t : Team) : Bool := u.launch == t.launch && u.inst == t.inst

/-- Whether every team on a core is of a team's instance. -/
def State.coreMates (s : State) (t : Team) (g : Gid) : Bool :=
  s.teams.all (fun u => gidCoreKey u.gid != gidCoreKey g || u.mateOf t)

/-- Whether the other cores of a team's instance lie in the cluster of a core, as those of one narrow instance do (R385). -/
def State.instanceNear (s : State) (t : Team) (gid : Gid) : Bool :=
  match s.launch? t.launch with
  | some l => l.insts.all (fun i => i.idx != t.inst ||
      (i.cores.filter (fun c => c != gidCoreKey t.gid)).all (fun c => c / 256 == gidCoreKey gid / 256))
  | none => true

/-- Whether a saved team may come back at a global id; the heat of a package holds up new groups alone (R393). It moves to
another core only while the scratchpad that moves with it is its own mates' alone (log 109). -/
def State.mayResume (s : State) (x : SavedTeam) (gid : Gid) : Bool :=
  let t := x.team
  let home := gidCoreKey gid == gidCoreKey t.gid
  gidPkg gid == t.pkg && (s.pkg t.pkg).runs && s.ctxLive t.pkg t.ctx && s.clusterOk gid &&
  (s.residency t.pkg (gidDie gid) t.ctx).isSome && s.teams.all (fun u => u.gid != gid) && s.coreMates t gid &&
  (if home then gid == t.gid
   else recNarrow (s.recordOf t) && s.instanceNear t gid && gidTeam gid == gidTeam t.gid &&
     s.teams.all (fun u => gidCoreKey u.gid != gidCoreKey gid &&
       !(u.ctx == t.ctx && gidCoreKey u.gid == gidCoreKey t.gid)) &&
     s.saved.all (fun y => y.team.ctx != t.ctx || (gidCoreKey y.team.gid != gidCoreKey gid &&
       (gidCoreKey y.team.gid != gidCoreKey t.gid || y.team.mateOf t))))

/-- The rest of its instance follows a team that resumes on another core: saved mates, and the instance's core. -/
def State.moveMates (s : State) (t : Team) (gid : Gid) : State :=
  let old := gidCoreKey t.gid
  { s with
    saved := s.saved.map (fun y => if y.team.mateOf t && gidCoreKey y.team.gid == old then
      { y with team := { y.team with gid := withTeamNo gid (gidTeam y.team.gid) } } else y),
    launches := s.launches.map (fun l => if l.id == t.launch then
      { l with insts := l.insts.map (fun i => if i.idx = t.inst then
          { i with cores := i.cores.map (fun c => if c = old then gidCoreKey gid else c) } else i) }
      else l) }

/-- The scratchpad share of a resuming team's context and its instance's deque come to its core (R239, R253); on another core
the share takes the place of all that stood there. -/
def State.bringShare (s : State) (t : Team) (gid : Gid) : State :=
  let old := gidCoreKey t.gid
  if old = gidCoreKey gid then s.takeCore t.ctx t.launch t.inst gid
  else
    let s := if (s.pkg t.pkg).shares.contains (t.ctx, old) then s else s.parkCore t.ctx t.gid
    let s := if kfind (s.pkg t.pkg).owners (coreSlot t.gid) = some (t.ctx, t.launch, t.inst) then
        s.parkDeque t.launch t.inst t.gid else s
    (((s.takeCore t.ctx t.launch t.inst gid).clearCore gid).unparkCore t.ctx old gid).modPkg t.pkg (fun k =>
      k.moveDeque (parkedDeque t.launch t.inst (coreSlot t.gid)) (coreSlot gid))

/-- A saved team comes back. -/
def State.resume (s : State) (x : SavedTeam) (gid : Gid) : State :=
  let t := x.team
  let s := (s.bringShare t gid).loadWindow t.pkg (gidDie gid) t.ctx
  let u := s.revived x gid
  let s := { s with saved := s.saved.filter (fun y => y.team.uid != t.uid) }
  let s := if gidCoreKey gid = gidCoreKey t.gid then s else s.moveMates t gid
  let s := (match t.status with
    | .stopped _ seq => s.modCtx t.pkg t.ctx (fun c => { c with resolved := c.resolved.filter (fun r => r.1 != seq) })
    | _ => s)
  { s with teams := s.teams ++ [u] }

/-- RESUMPTION (R226, R228, R239): a saved team returns to a core; members of gangs return in their slices. DESIGN CHOICE (log
74): R79 holds launches alone, so a saved team comes back while a pass over its image's routes is pending. -/
def execResumption (uid : Nat) (newGid : Gid) (s : State) : Host.Outcome State Fault Refusal :=
  match s.saved.find? (fun x => x.team.uid == uid) with
  | none => .next s
  | some x =>
    let gang := (match s.launch? x.team.launch with
      | some l => l.isGang
      | none => false)
    if !gang && s.mayResume x newGid then .next (s.resume x newGid) else .next s

end Sys2Proof.Machine
end

