-- ==== Sys2Proof/Machine/Sched.lean ====
section
/-!
DEFINITION. The global scheduler core and the leaf controllers: popping (R382, R301), instances and steals (R288, R289),
placement (R241, R287, R385), completion (R386), gang slices (R374).
-/

namespace Sys2Proof.Machine

/-! ### Completion doublewords -/

/-- The completion doubleword (R386). -/
def completionWord (status : Nat) (q : BitVec 6) (faults : Nat) : Word :=
  BitVec.ofNat 64 (2 ^ 63 + status * 2 ^ 40 + q.toNat * 2 ^ 32 + faults % 2 ^ 32)

/-- Posts a completion at CPL; a record without an aligned CPL has none (log 26). -/
def State.postCompletion (s : State) (p : PkgNo) (ctx : CtxId) (r : List Word) (status : Nat) (q : BitVec 6) (faults : Nat) :
    State :=
  if recCpl r = 0 ∨ recCpl r % 8 ≠ 0 then s else s.fwVa p ctx (recCpl r) [completionWord status q faults]

/-! ### Popping (R382, R301) -/

/-- A queue of a package. -/
def State.queue (s : State) (p : PkgNo) (q : BitVec 6) : Queue := (s.pkg p).queues.get q.toFin

/-- Changes a queue of a package. -/
def State.modQueue (s : State) (p : PkgNo) (q : BitVec 6) (f : Queue → Queue) : State :=
  s.modPkg p (fun k => { k with queues := k.queues.set q.toFin (f (k.queues.get q.toFin)) })

/-- Whether a context's cancel list holds up its entries: 64 tokens and one more pending. -/
def Ctx.tokensFull (c : Ctx) : Bool := decide (64 ≤ c.tokens.length) && !c.tokensPending.isEmpty

/-- Whether firmware holds the launches of a context on a package: the pass over the routes of its image is
still to come, the first one or one after a retirement (R79, log 74). -/
def State.imageHeld (s : State) (p : PkgNo) (ctx : CtxId) : Bool := (s.pkg p).awaiting.contains ctx

/-- Whether the core may pop an entry of a queue. -/
def State.poppable (s : State) (p : PkgNo) (q : BitVec 6) : Bool :=
  let x := s.queue p q
  x.open_ && !(s.pkg p).resetting.contains q && !s.imageHeld p x.ctx && (decide (0 < s.ringCount p x) || !x.appended.isEmpty) &&
  (match s.ctx? p x.ctx with
   | some c => !c.tokensFull
   | none => false)

/-- The queue of a priority whose turn it is. -/
def State.nextOf (s : State) (p : PkgNo) (pri : BitVec 3) : Option (BitVec 6) :=
  let last := (s.pkg p).lastPop.get pri.toFin
  ((List.range 64).map (fun i => last + 1 + BitVec.ofNat 6 i)).find? (fun q => s.poppable p q && (s.queue p q).pri == pri)

/-- The queue that the core pops next: of the highest priority, round-robin among equals. -/
def State.nextQueue (s : State) (p : PkgNo) : Option (BitVec 6) :=
  ((List.range 8).map (fun i => 7 - BitVec.ofNat 3 i)).findSome? (s.nextOf p)

/-- The key of the ring entry with a running number. -/
def Queue.slotKey (x : Queue) (p : PkgNo) (n : Nat) : Nat := cmdKey p x.ring + n % 2 ^ x.k * 128

/-- The scheduler core reads the tails of the open queues; region words among them are racked (R295). -/
def State.watchTails (s : State) (p : PkgNo) : State :=
  s.rackKeys (((s.pkg p).queues.toList.filter (·.open_)).flatMap (fun x => x.tailKeys p))

/-- Takes an entry of the ring: its record; the head index advances. -/
def State.popRing (s : State) (p : PkgNo) (q : BitVec 6) : List Word × State :=
  let x := s.queue p q
  let ks := keysFrom (x.slotKey p x.head) 128
  let s := s.rackKeys ks
  let r := recordOfBytes (s.hostValue ks)
  let s := s.modQueue p q (fun x => { x with head := x.head + 1 })
  (r, s.fwDword (cmdKey p x.headAt) (BitVec.ofNat 64 (x.head + 1)))

/-- Takes the next entry of a queue, in the order of submission (R382): the oldest appended record, with the publications
that precede its teams, once the ring entries before it are gone; else the ring's. -/
def State.popEntry (s : State) (p : PkgNo) (q : BitVec 6) : List Word × List Nat × State :=
  let x := s.queue p q
  let ring := let rs := s.popRing p q; (rs.1, [], rs.2)
  match x.appended with
  | (r, ks, n) :: rest =>
    if n ≤ x.head ∨ s.ringCount p x = 0 then (r, ks, s.modQueue p q (fun x => { x with appended := rest })) else ring
  | [] => ring

/-- Whether a token drops an entry of graph `g` popped now: one raised 2 µs ago or more does, a younger one may. -/
def State.dropsEntry (s : State) (c : Ctx) (g : BitVec 16) : Bool :=
  match c.tokens.find? (fun x => x.1 == g) with
  | some x => g != 0 && (decide (x.2 + nsCycles 2000 ≤ s.now) || s.pick 3 2 == 1)
  | none => false

/-- A launch as it is popped (R288, R298). -/
def State.newLaunch (s : State) (p : PkgNo) (q : BitVec 6) (ctx : CtxId) (r : List Word) (ks : List Nat) : Launch :=
  { id := s.nextId, pkg := p, queue := q, ctx, record := r, lo0 := 0, hi0 := recShare0 r, lo1 := recShare0 r,
    hi1 := recRange r, insts := [], exited := [], kin := [], faults := 0, stolen := false, gang := .idle, ready := [],
    late := [], cut := [], knows := ks, view0 := (s.writes.filter (fun w => w.uid == 0)).map (·.id) }

/-- QUEUE_POP (R382, R384, R301). -/
def execQueuePop (pkg : PkgNo) (q : BitVec 6) (s : State) : Host.Outcome State Fault Refusal :=
  let s := s.watchTails pkg
  let k := s.pkg pkg
  let x := s.queue pkg q
  if k.power != .on || !k.booted || s.nextQueue pkg != some q then .next s
  else
    match s.ctx? pkg x.ctx with
    | none => .next s
    | some c =>
      let (r, ks, s1) := s.popEntry pkg q
      let s1 := s1.modPkg pkg (fun k => { k with lastPop := k.lastPop.set x.pri.toFin q })
      if !recordOk r then .next (s1.postCompletion pkg x.ctx r 2 q 0)
      else if s.dropsEntry c (recGraph r) then .next (s1.postCompletion pkg x.ctx r 1 q 0)
      else .next { s1 with nextId := s1.nextId + 1, launches := s1.launches ++ [s1.newLaunch pkg q x.ctx r ks] }

/-! ### Instances (R288, R289) -/

/-- The range of a die. -/
def Launch.range (l : Launch) (die : Bool) : Nat × Nat := if die then (l.lo1, l.hi1) else (l.lo0, l.hi0)

/-- Replaces the range of a die. -/
def Launch.putRange (l : Launch) (die : Bool) (r : Nat × Nat) : Launch :=
  if die then { l with lo1 := r.1, hi1 := r.2 } else { l with lo0 := r.1, hi0 := r.2 }

/-- Whether every instance of a launch has been taken and placed. -/
def Launch.allPlaced (l : Launch) : Bool :=
  decide (l.hi0 ≤ l.lo0) && decide (l.hi1 ≤ l.lo1) && l.insts.all (fun i => decide (i.total ≤ i.cores.length))

/-- Whether the launches before it in its queue let a launch be placed: all are placed, and complete if it is serial
(R382). What a reset of the queue has ended holds up nothing (R302). -/
def State.orderOk (s : State) (l : Launch) : Bool :=
  s.launches.all (fun m => m.pkg != l.pkg || m.queue != l.queue || decide (l.id ≤ m.id) || m.cut.contains m.pkg ||
    (m.allPlaced && !recSer l.record))

/-- The first global id of a core of a cluster. -/
def coreGid (p : PkgNo) (die clu : Bool) (n : Nat) : Gid := mkGid p die clu (BitVec.ofNat 8 n) 0

/-- How many cores of a cluster are free for a new group of a context. -/
def State.freeIn (s : State) (p : PkgNo) (ctx : CtxId) (die clu : Bool) : Nat :=
  if (s.pkg p).takes then ((List.range 256).filter (fun n => s.coreFree ctx (coreGid p die clu n))).length else 0

/-- Whether the cores of a die can hold one instance; one wider than a die, or without a range, is not held up here. -/
def State.dieHolds (s : State) (l : Launch) (die : Bool) : Bool :=
  let n := recCores l.record 0
  let a := s.freeIn l.pkg l.ctx die false
  let b := s.freeIn l.pkg l.ctx die true
  if recRange l.record ≤ 1 then true
  else if levDomain (recLevel l.record 0) ≤ 2 then decide (n ≤ a) || decide (n ≤ b)
  else if levDomain (recLevel l.record 0) = 3 then decide (n ≤ a + b)
  else true

/-- Whether a token drops the instances of a launch that are not placed (Table 12.4): of a ranged one it does, of one
popped before it may. -/
def State.dropsRange (s : State) (l : Launch) : Bool :=
  match s.ctx? l.pkg l.ctx with
  | some c => c.tokens.any (fun x => x.1 == recGraph l.record) && recGraph l.record != 0 &&
      (decide (1 < recRange l.record) || s.pick 4 2 == 1)
  | none => false

/-- The writes that a serial launch's teams see from the start: those of the completed launches of its queue (R382). -/
def State.serialView (s : State) (l : Launch) : List Nat :=
  if recSer l.record then
    let done := (s.queue l.pkg l.queue).done
    (s.writes.filter (fun w => done.contains w.uid)).map (·.id)
  else []

/-- INSTANCE_PLACEMENT (R288): a die takes the lowest instance of its own range. -/
def execInstancePlacement (launch : Nat) (die : Bool) (s : State) : Host.Outcome State Fault Refusal :=
  match s.launch? launch with
  | none => .next s
  | some l =>
    let (lo, hi) := l.range die
    let busy := l.insts.any (fun i => i.die == die && decide (i.cores.length < i.total)) || s.imageHeld l.pkg l.ctx
    if hi ≤ lo ∨ busy = true ∨ s.orderOk l = false ∨ s.dieHolds l die = false then .next s
    else if s.dropsRange l then .next (s.putLaunch (l.putRange die (hi, hi)))
    else
      .next (s.putLaunch { (l.putRange die (lo + 1, hi)) with
        insts := l.insts ++ [⟨lo, die, [], recCores l.record 0⟩], view0 := union l.view0 (s.serialView l) })

/-- STEAL (R289). -/
def execSteal (launch : Nat) (die : Bool) (s : State) : Host.Outcome State Fault Refusal :=
  match s.launch? launch with
  | none => .next s
  | some l =>
    let (lo, hi) := l.range die
    let (elo, ehi) := l.range (!die)
    if l.stolen ∨ lo < hi ∨ s.dieHolds l die = false then .next s
    else
      let n := ehi - elo
      if 2 ≤ n then
        let mid := ehi - n / 2
        .next (s.putLaunch ((l.putRange die (mid, ehi)).putRange (!die) (elo, mid)))
      else .next (s.putLaunch { l with stolen := true })

/-! ### Placement (R241, R287, R385) -/

/-- Inserts a global id in increasing order. -/
def insertGid (g : Gid) : List Gid → List Gid
  | [] => [g]
  | x :: xs => if g.ule x then g :: x :: xs else x :: insertGid g xs

/-- The rank of a global id among some. -/
def rankOf (g : Gid) (gs : List Gid) : Nat := (gs.foldl (fun a x => insertGid x a) []).idxOf g

/-- The global id of team `n` of a core, and of a core by its key. -/
def keyGid (core : Nat) (n : Nat) : Gid := BitVec.ofNat 25 (core * 8 + n)

/-- The global ids of an instance on some cores. -/
def instGids (r : List Word) (cores : List Nat) : List Gid :=
  cores.flatMap (fun c => (List.range (recCoreTeams r)).map (keyGid c))

/-- The teams that a placement makes on a core, in place `pos` of the instance; `all` are the instance's global ids. -/
def State.coreTeams (s : State) (l : Launch) (inst pos : Nat) (core : Nat) (all : List Gid) : List Team :=
  let r := l.record
  let ids := (List.range (recCoreTeams r)).map (fun k => (s.nextId + k, keyGid core k))
  ids.map (fun ug => s.newTeam l inst ug.1 ug.2 (recPath r pos) (inst * recTeams r 0 + rankOf ug.2 all))

/-- Places the teams of one core; a team held before a gang's start takes its seed then. -/
def State.placeCore (s : State) (l : Launch) (inst pos core : Nat) (all : List Gid) (st : TeamStatus) : State :=
  let g := keyGid core 0
  let s := (s.takeCore l.ctx l.id inst g).loadWindow (gidPkg g) (gidDie g) l.ctx
  let ts := s.coreTeams l inst pos core all
  { s with nextId := s.nextId + ts.length, teams := s.teams ++ ts.map (fun t =>
    { t with status := st, fresh := st == .held, lfsr := if st = .held then 0 else t.lfsr }) }

/-- Places several cores, from place `pos` of the instance on. -/
def State.placeCores (s : State) (l : Launch) (inst : Nat) (all : List Gid) (st : TeamStatus) : Nat → List Nat → State
  | _, [] => s
  | pos, c :: cs => (s.placeCore l inst pos c all st).placeCores l inst all st (pos + 1) cs

/-- Adds cores to an instance of a launch. -/
def Launch.addCores (l : Launch) (inst : Nat) (cores : List Nat) : Launch :=
  { l with insts := l.insts.map (fun i => if i.idx = inst then { i with cores := i.cores ++ cores } else i) }

/-- Whether a list of global ids rises strictly. -/
def rising : List Gid → Bool
  | [] => true
  | [_] => true
  | a :: b :: rest => a.ult b && rising (b :: rest)

/-- Whether cores may be given to an instance now (R241): a group bound to the cluster domain or wider is placed whole,
one bound to the core or team domain as its cores become free. An instance lies on the die that took it, unless its levels
span more than one die (R288). A hot package begins no group; one already begun goes on (R393). Nothing is placed where a
queue reset has ended the work (R375). -/
def State.coresOk (s : State) (l : Launch) (i : Inst) (cores : List Gid) : Bool :=
  let r := l.record
  let all := i.cores.map (fun c => keyGid c 0) ++ cores
  !cores.isEmpty && cores.all (fun g => s.coreFree l.ctx g && gidPkg g == l.pkg) && decide (cores.eraseDups.length = cores.length) &&
  ((s.pkg l.pkg).takes || !i.cores.isEmpty) && !l.cut.contains l.pkg && !s.imageHeld l.pkg l.ctx &&
  decide (all.length ≤ i.total) &&
  (decide (3 < levDomain (recLevel r 0)) || cores.all (fun g => gidDie g == i.die)) &&
  (if recNarrow r then rising all && all.all (fun g => unitOf 2 g == unitOf 2 (all.headD 0))
   else i.cores.isEmpty && decide (cores.length = i.total) && coresPlaced r cores)

/-- GROUP_PLACEMENT (R287, R241, R385): the cores are given in the order of the level tree. -/
def execGroupPlacement (launch inst : Nat) (cores : List Gid) (s : State) : Host.Outcome State Fault Refusal :=
  match s.launch? launch with
  | none => .next s
  | some l =>
    match l.insts.find? (fun i => i.idx == inst) with
    | none => .next s
    | some i =>
      if s.coresOk l i cores then
        let ks := cores.map gidCoreKey
        let all := instGids l.record (i.cores ++ ks)
        .next ((s.placeCores l inst all .running i.cores.length ks).putLaunch (l.addCores inst ks))
      else .next s

/-- LAUNCH_COMPLETION (R386, R298): every team of every instance has exited. What a reset at home has ended leaves without a
record (R302). -/
def execLaunchCompletion (launch : Nat) (s : State) : Host.Outcome State Fault Refusal :=
  match s.launch? launch with
  | none => .next s
  | some l =>
    let live := (s.teams ++ s.saved.map (·.team)).any (fun t => t.launch == l.id)
    let gone := fun (s : State) => { s with launches := s.launches.filter (fun m => m.id != l.id) }
    if live || !(l.allPlaced || l.cut.contains l.pkg) then .next s
    else if l.cut.contains l.pkg then .next (gone s)
    else
      let s := s.postCompletion l.pkg l.ctx l.record (if l.insts.isEmpty then 1 else 0) l.queue l.faults
      let s := s.modQueue l.pkg l.queue (fun x => { x with done := x.done ++ l.exited.map (·.uid) ++ l.kin })
      .next (gone s)

/-! ### Gang slices (R374) -/

/-- Whether a launch can be a gang: its level 0 is bound to the fabric. -/
def Launch.fabric (l : Launch) : Bool := levDomain (recLevel l.record 0) == 5

/-- Whether a member of a launch is placed on a package. -/
def State.placedOn (s : State) (l : Launch) (p : PkgNo) : Bool := s.teams.any (fun t => t.launch == l.id && t.pkg == p)

/-- A saved member comes back to the cores it held, held until the start. -/
def State.holdSaved (s : State) (x : SavedTeam) : State :=
  (s.resume x x.team.gid).modTeam x.team.uid (fun t => if t.status = .running then { t with status := .held } else t)

/-- Saved members of a launch on a package. -/
def State.savedOn (s : State) (l : Launch) (p : PkgNo) : List SavedTeam :=
  s.saved.filter (fun x => x.team.launch == l.id && x.team.pkg == p)

/-- A package has reported ready for the slot to come. -/
def Launch.addReady (l : Launch) (p : PkgNo) : Launch := { l with ready := l.ready ++ [p], gang := .idle }

/-- The home has sent nothing for the slot to come: every package has done what the last start or abort asked of it. -/
def Launch.rests (l : Launch) : Bool := l.gang == .idle || (l.gang == .aborting && l.ready.isEmpty && l.late.isEmpty)

/-- READY (R374): a package places the members that it hosts, releases none, and reports ready to the home, which a route
must join it to (R359); `cores` are those of a first slice, later slices use the cores that the members held. -/
def execReady (launch : Nat) (pkg : PkgNo) (cores : List Gid) (s : State) : Host.Outcome State Fault Refusal :=
  match s.launch? launch with
  | none => .next s
  | some l =>
    if !l.fabric || !l.rests || l.cut.contains pkg || l.cut.contains l.pkg || s.imageHeld pkg l.ctx || l.ready.contains pkg || s.placedOn l pkg ||
        !s.orderOk l || !s.routed pkg l.pkg then
      .next s
    else
      let back := s.savedOn l pkg
      if !back.isEmpty then
        if back.all (fun x => s.mayResume x x.team.gid) then
          .next ((back.foldl State.holdSaved s).putLaunch (l.addReady pkg))
        else .next s
      else
        match l.insts.find? (fun i => i.idx == 0) with
        | none => .next s
        | some i =>
          let ks := cores.map gidCoreKey
          if !cores.isEmpty && (s.pkg pkg).takes && cores.all (fun g => s.coreFree l.ctx g && gidPkg g == pkg) &&
              decide (cores.eraseDups.length = cores.length) && decide (i.cores.length + cores.length ≤ i.total) then
            .next ((s.placeCores l 0 [] .held i.cores.length ks).putLaunch ((l.addCores 0 ks).addReady pkg))
          else .next s

/-- Whether a package hosts members of a launch that have not exited. -/
def State.hosts (s : State) (l : Launch) (p : PkgNo) : Bool := s.placedOn l p || !(s.savedOn l p).isEmpty

/-- Whether every member package of a gang has reported ready; one whose members have all exited, or that a queue reset has
emptied, has nothing to report, but a gang that has lost members before its first start is not whole. -/
def State.gangReady (s : State) (l : Launch) : Bool :=
  match l.insts.find? (fun i => i.idx == 0) with
  | none => false
  | some i =>
    let gs := i.cores.map (fun c => keyGid c 0)
    decide (i.cores.length = i.total) && coresPlaced l.record gs && gs.all (fun g => l.ready.contains (gidPkg g) || !s.hosts l (gidPkg g)) &&
    s.saved.all (fun x => x.team.launch != l.id) && (l.cut.isEmpty || s.teams.all (fun t => t.launch != l.id || !t.fresh))

/-- The member packages of a gang whose report is missing, as far as its cores tell; a queue reset has freed those of some. -/
def Launch.lateOnes (l : Launch) : List PkgNo :=
  ((l.insts.flatMap (fun i => i.cores.map (fun c => gidPkg (keyGid c 0)))).eraseDups).filter (fun p =>
    !l.ready.contains p && !l.cut.contains p)

/-- GANG_SLICE_START (R374): at T minus the margin the home sends start when every report is in, else abort. -/
def execGangSliceStart (launch : Nat) (s : State) : Host.Outcome State Fault Refusal :=
  match s.launch? launch with
  | none => .next s
  | some l =>
    if !l.fabric || !l.rests || l.cut.contains l.pkg then .next s
    else if s.gangReady l then .next (s.putLaunch { l with gang := .starting })
    else .next (s.putLaunch { l with gang := .aborting, late := l.lateOnes })

/-- A package has done what the home sent; with the last one started the gang rests. After an abort a late package still takes
its forced saves whenever the abort reaches it, until a package reports ready for the next slot. -/
def Launch.dropReady (l : Launch) (p : PkgNo) : Launch :=
  let rs := l.ready.filter (fun q => q != p)
  { l with ready := rs, late := l.late.filter (fun q => q != p),
           gang := if rs.isEmpty && l.gang == .starting then .idle else l.gang }

/-- A held member is released; a fresh one takes its seed (R23). -/
def Launch.release (l : Launch) (t : Team) : Team :=
  let all := (l.insts.filter (fun i => i.idx == t.inst)).flatMap (fun i => instGids l.record i.cores)
  { t with
    status := if t.status = .held then .running else t.status, fresh := false,
    lfsr := if t.fresh then lfsrSeed (recSeed l.record) (t.inst * recTeams l.record 0 + rankOf t.gid all) else t.lfsr }

/-- Releases the members of a launch on a package. -/
def State.releaseOn (s : State) (l : Launch) (p : PkgNo) : State :=
  { s with teams := s.teams.map (fun t => if t.launch == l.id && t.pkg == p then l.release t else t) }

/-- START (R374): a package releases its members with one start pulse. -/
def execStart (launch : Nat) (pkg : PkgNo) (s : State) : Host.Outcome State Fault Refusal :=
  match s.launch? launch with
  | none => .next s
  | some l =>
    if l.gang != .starting || !l.ready.contains pkg || !s.routed l.pkg pkg then .next s
    else .next ((s.releaseOn l pkg).putLaunch (l.dropReady pkg))

/-- A member of an aborted start leaves its core: one that has been started before is saved again. -/
def State.unplace (s : State) (t : Team) : State :=
  if t.fresh then s.dropTeam t.uid
  else
    let s := s.modTeam t.uid (fun t => if t.status = .held then { t with status := .running } else t)
    s.suspend t.uid (match t.status with
      | .stopped _ _ => .stopped
      | _ => .forced)

/-- Whether a team that is being pre-empted still holds a core of a gang: one that the members held, or, of a first slice,
whose cores firmware alone knows, by a free choice (log 101). -/
def State.holdsGang (s : State) (l : Launch) (t : Team) : Bool :=
  t.preq && t.launch != l.id &&
  (l.insts.any (fun i => i.cores.contains (gidCoreKey t.gid)) ||
   (l.insts.any (fun i => decide (i.cores.length < i.total)) && s.pick (2 ^ 42 + t.uid) 2 == 1))

/-- ABORT (R374): a package unplaces the members; on a package that is late the teams that still hold the gang's cores take
their forced saves at once. -/
def execAbort (launch : Nat) (pkg : PkgNo) (s : State) : Host.Outcome State Fault Refusal :=
  match s.launch? launch with
  | none => .next s
  | some l =>
    if l.gang != .aborting || l.cut.contains pkg || !s.routed l.pkg pkg then .next s
    else if l.ready.contains pkg then
      let mine := s.teams.filter (fun t => t.launch == l.id && t.pkg == pkg)
      let fresh := mine.any (·.fresh)
      let l := if fresh then { l with insts := l.insts.map (fun i =>
          { i with cores := i.cores.filter (fun c => gidPkg (keyGid c 0) != pkg) }) } else l
      .next ((mine.foldl State.unplace s).putLaunch (l.dropReady pkg))
    else
      let late := s.teams.filter (fun t => t.pkg == pkg && s.holdsGang l t)
      .next ((late.foldl (fun s t => s.forceSave t.uid) s).putLaunch (l.dropReady pkg))

end Sys2Proof.Machine
end

