-- ==== Sys2Proof/Machine/FabricExec.lean ====
section
/-!
DEFINITION. The fabric: FSEND and FRECV (R358, R362 to R366), FBAR (R372), the close of an exchange (R371).
-/

namespace Sys2Proof.Machine

/-- Hops of a route literal (R358). -/
def routeHops (r : Word) : Nat := (r.extractLsb' 56 4).toNat

/-- The port of hop `h`. -/
def routePort (r : Word) (h : Nat) : BitVec 4 := r.extractLsb' (4 * h) 4

/-- Whether a route literal is well formed (R358). -/
def routeOk (r : Word) : Bool :=
  r.extractLsb' 60 4 == 0 && decide (routeHops r ≤ 14) &&
  (List.range 14).all (fun h => decide (h < routeHops r) || routePort r h == 0)

/-- Follows `n` hops from package `p`, hop number `h` next: the end and the ports taken; none at a port that is not up. -/
def State.fabFollow (s : State) (r : Word) : Nat → Nat → PkgNo → Option (PkgNo × List (PkgNo × BitVec 4))
  | 0, _, p => some (p, [])
  | n + 1, h, p =>
    let x := (s.pkg p).ports.get (routePort r h).toFin
    if x.mark = .up then (s.fabFollow r n (h + 1) x.peer).map (fun e => (e.1, (p, routePort r h) :: e.2)) else none

/-- The keys of `n` bytes that an access on the send path reaches (R364, R365). -/
def State.sendKeys (s : State) (t : Team) (acc : Access) (a : Word) (n : Nat) : Chk (List Nat) :=
  (allChk ((List.range n).map (fun i => do
    let va := a + BitVec.ofNat 64 i
    let ks ← s.scalarKeys t acc .send va 1
    if acc = .read then s.eccChk .send (va.extractLsb' 0 52).toNat ks else .ok ()
    .ok ks))).map List.flatten

/-- The target of an FSEND on its end package, and whether it is saved (R364). -/
def State.fabTarget (s : State) (t : Team) (p : PkgNo) (tgt : BitVec 13) : Chk (Team × Bool) :=
  let g : Gid := p ++ (tgt : BitVec 13)
  match s.teamAt? t.ctx g with
  | some u => if u.status = .joined then failK kAccess .send else .ok (u, false)
  | none =>
    match s.saved.find? (fun v => v.team.ctx == t.ctx && v.team.gid == g && v.team.status != .joined) with
    | some v => .ok (v.team, true)
    | none => failK kAccess .send

/-- What an FSEND puts on its way. -/
def fabMsg (t : Team) (tag : BitVec 16) (bs : List Byte) (order due : Nat) (hops : List (PkgNo × BitVec 4)) : Msg :=
  { scalarMsg t.gid tag 0 with order, bytes := bs, prec := t.lastPub, due, hops }

/-- FSEND (R364). -/
def execFsend (k : GReg) (sa sl : SReg) (tgt : BitVec 13) (tag : BitVec 16) (route : Word) (s : State) :
    Host.Outcome State Fault Refusal :=
  s.front (.fsend k sa sl tgt tag route) (fun t =>
    let n := (t.rs sl).toNat
    if 4096 < n then .fail s (FaultInfo.plain kIllOp .team)
    else if !routeOk route then .fail s (FaultInfo.plain kRoute .send)
    else chkRun s (s.sendKeys t .read (t.rs sa) n) (fun ks =>
      let (bs, s1) := readBytes .send t.uid ks (s.cfence t.uid .team .send)
      match s.fabFollow route (routeHops route) 0 t.pkg with
      | none => .fail s (FaultInfo.plain kRoute .send)
      | some (p, hops) => chkRun s (s.fabTarget t p tgt) (fun (us : Team × Bool) =>
        let (u, saved) := us
        let ok := (hops.isEmpty || Config.linkSlotFree s.free) && decide (u.frq.length < 8) && !u.preq && !saved
        let m := fabMsg t tag bs s1.nextId (s1.now + nsCycles (600 + 450 * routeHops route)) hops
        let s1 := if ok then { s1 with nextId := s1.nextId + 1 }.modTeam u.uid (fun u => { u with frq := u.frq ++ [m] })
          else s1
        .done (s1.modTeam t.uid (fun t => (t.wrG k ok).advance 16)))))

/-- The header of a fabric message (Table 16.3). -/
def fabHeader (m : Msg) : Word := m.tag ++ (0 : BitVec 10) ++ BitVec.ofNat 13 m.bytes.length ++ m.src

/-- Stores bytes on the send path, each by itself. -/
def storeSend (uid : Nat) : List Host.Cell → State → State
  | [], s => s
  | c :: cs, s => storeSend uid cs (s.store uid .send [c])

/-- FRECV (R365). -/
def execFrecv (w : Wild) (sd sm : SReg) (tag : BitVec 16) (s : State) : Host.Outcome State Fault Refusal :=
  s.front (.frecv w sd sm tag) (fun t =>
    if (t.rs sm).extractLsb' 25 39 != 0 then .fail s (FaultInfo.plain kIllOp .team)
    else
      match rqTake t.frq false w ((t.rs sm).truncate 25) tag with
      | none => .stall s
      | some (m, q) => chkRun s (s.sendKeys t .write (t.rs sd) m.bytes.length) (fun ks =>
        let s := storeSend t.uid (ks.zip m.bytes) s
        let s := s.modTeam t.uid (fun t => { t with frq := q, knows := union t.knows m.prec })
        .done ((s.cfence t.uid .send .team).modTeam t.uid (fun t => (t.wrS sd (fabHeader m)).advance 8))))

/-- FBAR (R372). -/
def execFbar (n : BitVec 3) (s : State) : Host.Outcome State Fault Refusal :=
  s.front (.fbar n) (fun t =>
    if s.wideLevel t n.toNat then s.barRun t true n else .fail s (FaultInfo.plain kIllOp .team))

/-- FABRIC_BARRIER_COMPLETION (R372): the barrier that a team waits in completes once every member has arrived. -/
def execFabricBarrierCompletion (gid : Gid) (s : State) : Host.Outcome State Fault Refusal :=
  s.atTeam gid (fun t => if t.runs then (s.barFinish t.uid true).getD s else s)

/-- EXCHANGE_CLOSE (R371): the exchange that a team has joined closes once its home holds the counts of every member. -/
def execExchangeClose (gid : Gid) (s : State) : Host.Outcome State Fault Refusal :=
  s.atTeam gid (fun t => { s with exchanges := s.exchanges.map (fun e =>
    if e.joins.any (fun j => j.uid == t.uid) && e.launch == t.launch && s.closes e (recTeams (s.recordOf t) e.level) then { e with closed := true }
    else e) })

end Sys2Proof.Machine
end

