-- ==== Sys2Proof/Machine/HostPath.lean ====
section
/-!
DEFINITION. The host path: memory through BAR2 and host memory (R298, R312, R313, R331, R381, R392), the device register
block (R9, R268, R270, R387, R390, R391, R392).
-/

namespace Sys2Proof.Machine

/-! ### Memory -/

/-- The key of byte `i` of a host access. -/
def targetKey (h : HostTarget) (i : Nat) : Nat :=
  match h with
  | .dev p pa => devKey p (pa.toNat + i)
  | .host a => hostKey (a.toNat + i)

/-- How many bytes of a host access its target holds: a BAR2 access ends with the aperture. -/
def targetBytes (h : HostTarget) (n : Nat) : Nat :=
  match h with
  | .dev _ pa => min n (2 ^ 40 - pa.toNat)
  | .host a => min n (2 ^ 52 - a.toNat)

/-- A write of host software (R298, R313): that of the firmware's range is discarded (R392). -/
def State.hostCells (s : State) (cells : List Host.Cell) : State :=
  s.hostPut (cells.filter (fun c => !(isDevKey c.1 && decide (fwBase ≤ c.1 % 2 ^ 40))))

/-- HOST_WRITE (R298, R313, R392). -/
def execHostWrite (tgt : HostTarget) (bytes : List Byte) (s : State) : Host.Outcome State Fault Refusal :=
  .next (s.hostCells ((bytes.take (targetBytes tgt bytes.length)).zipIdx.map (fun bi => (targetKey tgt bi.2, bi.1))))

/-- HOST_READ (R298, R323): region words are racked; `State.hostValue` of the state after it is what is read. -/
def execHostRead (tgt : HostTarget) (n : Nat) (s : State) : Host.Outcome State Fault Refusal :=
  .next (s.rackKeys ((List.range (targetBytes tgt n)).map (targetKey tgt)))

/-! ### Residency registers (R268) -/

/-- A residency register of a die. -/
def Die.rsvAt (d : Die) (n : BitVec 4) : Rsv := d.rsv.get n.toFin

/-- EN of a register. -/
def Rsv.en (r : Rsv) : Bool := r.w2.getLsbD 16
/-- WMASK of a register. -/
def Rsv.wmask (r : Rsv) : BitVec 16 := r.w2.extractLsb' 0 16

/-- Set bits of a mask. -/
def ways (m : BitVec 16) : Nat := ((List.range 16).filter (fun i => m.getLsbD i)).length

/-- The fields of W2 that the host writes. -/
def rsvFields : Word := 0xFFFF_0000_00F1_FFFF

/-- Whether a write of W2 is refused (R268). -/
def Die.rsvRefuses (d : Die) (n : BitVec 4) (v : Word) : Bool :=
  let r := d.rsvAt n
  let mask : BitVec 16 := v.extractLsb' 0 16
  let others := ((List.range 16).filter (fun i => i != n.toNat)).filterMap (fun i =>
    let x := d.rsvAt (BitVec.ofNat 4 i)
    if x.en then some x.wmask else none)
  v.getLsbD 16 &&
  (mask == 0 || others.any (fun m => m &&& mask != 0) || decide (12 < ways mask + (others.map ways).sum) ||
   r.next1.ule r.next0)

/-- A write of W2: W0 and W1 take effect with it; a refused one clears EN and sets ERR. -/
def Die.writeW2 (d : Die) (n : BitVec 4) (v : Word) : Die :=
  let r := d.rsvAt n
  let r' : Rsv := if d.rsvRefuses n v then { r with w2 := (r.w2 &&& ~~~ (0x10000 : Word)) ||| 0x20000 }
    else { r with w0 := r.next0, w1 := r.next1, w2 := v &&& rsvFields }
  { d with rsv := d.rsv.set n.toFin r' }

/-- RSV_W2_WRITE (R268). -/
def execRsvW2Write (pkg : PkgNo) (die : Bool) (n : BitVec 4) (v : Word) (s : State) : Host.Outcome State Fault Refusal :=
  .next (s.modPkg pkg (fun k => k.putDie die ((k.die die).writeW2 n v)))

/-! ### Firmware control (R390) -/

/-- The time in which the trial firmware must set COMMIT: 2 s (R390). -/
def trialLimit : Nat := nsCycles 2000000000

/-- COMMIT within 2 s of the trial's start: the trial slot becomes active. -/
def Pkg.commitTrial (k : Pkg) (now : Nat) : Pkg :=
  if k.trial && decide (now < k.trialAt + trialLimit) then { k with active := !k.active, trial := false } else k

/-- COMMIT (R390, Table 18.5). -/
def execCommit (pkg : PkgNo) (s : State) : Host.Outcome State Fault Refusal := .next (s.modPkg pkg (fun k => k.commitTrial s.now))

/-! ### The register block -/

/-- The residency register, and its word, at an offset of the register block: die, number, word. -/
def rsvOffset (off : Nat) : Option (Bool × BitVec 4 × Nat) :=
  if 0x2000 ≤ off ∧ off < 0x2800 ∧ off % 0x400 < 0x180 ∧ off % 8 = 0 then
    some (decide (0x2400 ≤ off), BitVec.ofNat 4 (off % 0x400 / 0x18), off % 0x400 % 0x18 / 8)
  else none

/-- A write of a register of BAR0 (R9): fields take it, reserved bits and read-only registers do not. -/
def Pkg.regWrite (k : Pkg) (now off : Nat) (v : Word) : Pkg :=
  if off = 0x100 then (if v.getLsbD 2 then k.commitTrial now else k)
  else if 0x1000 ≤ off ∧ off < 0x1040 ∧ off % 8 = 0 then
    { k with mailbox := k.mailbox.set (Fin.ofNat 8 ((off - 0x1000) / 8)) v }
  else if off = 0x2180 ∨ off = 0x2580 then
    let die := off == 0x2580
    k.putDie die { (k.die die) with clq := v &&& 0xFFF }
  else
    match rsvOffset off with
    | none => k
    | some (die, n, w) =>
      let d := k.die die
      if w = 2 then k.putDie die (d.writeW2 n v)
      else
        let x := v &&& 0x000F_FFFF_FFFF_F000
        let r := d.rsvAt n
        k.putDie die { d with rsv := d.rsv.set n.toFin (if w = 0 then { r with next0 := x } else { r with next1 := x }) }

/-- REGISTER_WRITE (R9). -/
def execRegisterWrite (pkg : PkgNo) (off : BitVec 16) (v : Word) (s : State) : Host.Outcome State Fault Refusal :=
  .next (s.modPkg pkg (fun k => k.regWrite s.now off.toNat v))

/-- FWCTL (Table 18.5); ACT names the active slot. -/
def Pkg.fwctl (k : Pkg) : Word :=
  (0 : BitVec 60) ++ BitVec.ofBool k.revert ++ (0 : BitVec 1) ++ BitVec.ofBool k.trial ++ BitVec.ofBool k.active

/-- DEVID (R391): which of the two parts it is, and the stepping, are open (log 6). -/
def devid : Word :=
  (if (Config.freeWord 0).getLsbD 8 then 0x0A01 else 0x0A02 : BitVec 16) ++ (1 : BitVec 8) ++
    (Config.freeWord 0).extractLsb' 0 8 ++ (0 : BitVec 32)

/-- What a host read of a register of BAR0 returns. W0 and W1 of a residency register read as last written. -/
def Pkg.regRead (k : Pkg) (off : Nat) : Word :=
  if off = 0 then devid
  else if off = 0x100 then k.fwctl
  else if 0x1000 ≤ off ∧ off < 0x1040 ∧ off % 8 = 0 then k.mailbox.get (Fin.ofNat 8 ((off - 0x1000) / 8))
  else if off = 0x2180 then k.die0.clq
  else if off = 0x2580 then k.die1.clq
  else if 0x3000 ≤ off ∧ off % 8 = 0 then BitVec.ofNat 64 (kget 0 k.softErrors ((off - 0x3000) / 8))
  else
    match rsvOffset off with
    | none => 0
    | some (die, n, w) =>
      let r := (k.die die).rsvAt n
      if w = 0 then r.next0 else if w = 1 then r.next1 else r.w2

end Sys2Proof.Machine
end

