-- ==== Sys2Proof/Machine/SyncExec.lean ====
section
/-!
DEFINITION. The die: sync registers and their mirrors (R282 to R286), PREF and EVICT (R280), WINQ (R281).
-/

namespace Sys2Proof.Machine

/-! ### Sync registers -/

/-- A register as it reads when it is allocated (R282). -/
def SyncReg.zero : SyncReg := ⟨0, []⟩

/-- A register at its home. -/
def State.syncAt (s : State) (p : PkgNo) (phys : Nat) : SyncReg := kget SyncReg.zero (s.pkg p).sync phys

/-- The die of a register's home (R282). -/
def syncHome (phys : Nat) : Bool := decide (2048 ≤ phys)

/-- The local copy that a WAIT on a die tests (R282). -/
def State.syncLocal (s : State) (p : PkgNo) (die : Bool) (phys : Nat) : SyncReg :=
  if die == syncHome phys then s.syncAt p phys else kget SyncReg.zero (s.pkg p).mirror phys

/-- The conditions of SYNC.WAIT (R283). -/
def syncCond (cc : BitVec 3) (a b : Word) : Bool :=
  match cc.toNat with
  | 0 => a == b
  | 1 => a != b
  | 2 => b.ule a
  | 3 => a.ult b
  | 4 => b.sle a
  | _ => a.slt b

/-- A waiting team sees a value that its local copy takes (R284). -/
def Team.seeSync (t : Team) (phys : Nat) (r : SyncReg) : Team :=
  match t.wait with
  | .sync n cc b pub none =>
    if n = phys ∧ syncCond cc r.val b = true then { t with wait := .sync n cc b pub (some (r.val, r.prec)) } else t
  | _ => t

/-- Every team that waits on a local copy sees its new value. -/
def State.showSync (s : State) (p : PkgNo) (die : Bool) (phys : Nat) (r : SyncReg) : State :=
  { s with teams := s.teams.map (fun t => if t.pkg == p && gidDie t.gid == die then t.seeSync phys r else t) }

/-- A write at the home, on its way to the mirror (R282). -/
def State.syncWrite (s : State) (p : PkgNo) (phys : Nat) (r : SyncReg) : State :=
  let due := s.now + nsCycles 500
  (s.modPkg p (fun k => { k with sync := kset SyncReg.zero k.sync phys r,
                                 mirrorQ := k.mirrorQ ++ [(phys, due, r)] })).showSync p (syncHome phys) phys r

/-- The mirror applies one write. -/
def State.applyMirror (s : State) (p : PkgNo) (phys : Nat) (r : SyncReg) : State :=
  (s.modPkg p (fun k => { k with mirror := kset SyncReg.zero k.mirror phys r })).showSync p (!syncHome phys) phys r

/-- The mirror applies every write whose time is up. -/
def State.mirrorDue (s : State) (p : PkgNo) : State :=
  let q := (s.pkg p).mirrorQ
  let up := q.filter (fun x => decide (x.2.1 ≤ s.now))
  (up.foldl (fun s x => s.applyMirror p x.1 x.2.2) s).modPkg p (fun k =>
    { k with mirrorQ := q.filter (fun x => !decide (x.2.1 ≤ s.now)) })

/-- Removes the first write of a register on its way. -/
def dropMirror (phys : Nat) : List (Nat × Nat × SyncReg) → List (Nat × Nat × SyncReg)
  | [] => []
  | x :: xs => if x.1 = phys then xs else x :: dropMirror phys xs

/-- MIRROR (R282): the mirror applies the oldest write of a register on its way; which register comes first is open. -/
def execMirror (pkg : PkgNo) (s : State) : Host.Outcome State Fault Refusal :=
  let q := (s.pkg pkg).mirrorQ
  let regs := (q.map (·.1)).foldl (fun a x => if a.contains x then a else a ++ [x]) ([] : List Nat)
  match (rotate regs (s.pick 0 regs.length)).head? with
  | none => .next s
  | some n =>
    match q.find? (fun x => x.1 == n) with
    | none => .next s
    | some x => .next ((s.modPkg pkg (fun k => { k with mirrorQ := dropMirror n k.mirrorQ })).applyMirror pkg n x.2.2)

/-- The physical register that a SYNC names (R282, R283). -/
def State.syncReg (s : State) (t : Team) (n : Word) : Chk Nat :=
  match s.teamCtx? t with
  | none => failK kAccess .team
  | some c => if n.toNat < c.syncCount then .ok (c.syncBase + n.toNat) else failK kAccess .team

/-- TAS, FADD, LD and ST (R284): the boundary publishes, the operation takes its point at the home, the boundary
completes; `f` gives the value written, if any. -/
def State.syncOp (s : State) (t : Team) (scope : ScopeCode) (sa : SReg) (f : Word → Option Word)
    (k : Team → Word → Team) : Run :=
  chkRun s (s.syncReg t (t.rs sa)) (fun phys =>
    let s := s.handOffAll t.uid
    if !s.updEmpty t.uid then .stall s
    else
      let (s, b) := s.publish t.uid scope false false
      let r := s.syncAt t.pkg phys
      let s := s.complete t.uid scope b r.prec
      let s := (match f r.val with
        | some v => s.syncWrite t.pkg phys ⟨v, union r.prec (s.lastOf t.uid)⟩
        | none => s)
      .done (s.modTeam t.uid (fun t => (k t r.val).advance 8)))

/-- SYNC.TAS (R284). -/
def execSyncTas (scope : ScopeCode) (sd sa sb : SReg) (s : State) : Host.Outcome State Fault Refusal :=
  s.front (.syncTas scope sd sa sb) (fun t =>
    s.syncOp t scope sa (fun v => if v = 0 then some (t.rs sb) else none) (fun t v => t.wrS sd v))

/-- SYNC.FADD (R284). -/
def execSyncFadd (scope : ScopeCode) (sd sa sb : SReg) (s : State) : Host.Outcome State Fault Refusal :=
  s.front (.syncFadd scope sd sa sb) (fun t =>
    s.syncOp t scope sa (fun v => some (v + t.rs sb)) (fun t v => t.wrS sd v))

/-- SYNC.LD (R284). -/
def execSyncLd (scope : ScopeCode) (sd sa : SReg) (s : State) : Host.Outcome State Fault Refusal :=
  s.front (.syncLd scope sd sa) (fun t => s.syncOp t scope sa (fun _ => none) (fun t v => t.wrS sd v))

/-- SYNC.ST (R284). -/
def execSyncSt (scope : ScopeCode) (sa sb : SReg) (s : State) : Host.Outcome State Fault Refusal :=
  s.front (.syncSt scope sa sb) (fun t => s.syncOp t scope sa (fun _ => some (t.rs sb)) (fun t _ => t))

/-- A WAIT that has issued goes on (R284): it ends with the first value seen that meets its condition. -/
def State.waitOn (s : State) (uid : Nat) (scope : ScopeCode) (sd : SReg) : Run :=
  match s.team? uid with
  | some t =>
    (match t.wait with
     | .sync _ _ _ pub (some (v, prec)) =>
       .done ((s.complete uid scope pub prec).modTeam uid (fun t => (t.wrS sd v).advance 8))
     | _ => .stall s)
  | none => .stall s

/-- SYNC.WAIT (R284). -/
def execSyncWait (cc scope : BitVec 3) (sd sa sb : SReg) (s : State) : Host.Outcome State Fault Refusal :=
  s.front (.syncWait cc scope sd sa sb) (fun t =>
    match t.wait with
    | .sync _ _ _ _ _ => (s.mirrorDue t.pkg).waitOn t.uid scope sd
    | _ => chkRun s (s.syncReg t (t.rs sa)) (fun phys =>
      let s := s.handOffAll t.uid
      if !s.updEmpty t.uid then .stall s
      else
        let (s, b) := (s.mirrorDue t.pkg).publish t.uid scope false false
        let r := s.syncLocal t.pkg (gidDie t.gid) phys
        (s.modTeam t.uid (fun u => { u with wait := .sync phys cc (t.rs sb) b none }.seeSync phys r)).waitOn t.uid scope sd))

/-! ### Caches and the window -/

/-- PREF (R280): no value changes (R267). -/
def execPref (l1 : Bool) (sa : SReg) (len : Opd) (s : State) : Host.Outcome State Fault Refusal :=
  s.frontTeam (.pref l1 sa len) (fun t => t)

/-- EVICT (R280): no value changes (R267). -/
def execEvict (kind : BitVec 2) (sa : SReg) (len : Opd) (s : State) : Host.Outcome State Fault Refusal :=
  s.frontTeam (.evict kind sa len) (fun t => t)

/-- The window entry of an address, or all ones outside the window (R281). -/
def State.winQuery (s : State) (t : Team) (a : Word) : Word :=
  match s.teamCtx? t with
  | some c => if inWin a.toNat then c.winEntry ((a.toNat - winBase) / winPage) else 0xFFFF_FFFF_FFFF_FFFF
  | none => 0xFFFF_FFFF_FFFF_FFFF

/-- WINQ (R281). -/
def execWinq (sd sa : SReg) (b : Opd) (s : State) : Host.Outcome State Fault Refusal :=
  s.frontTeam (.winq sd sa b) (fun t => t.wrS sd (s.winQuery t (t.rs sa + t.opd b)))

end Sys2Proof.Machine
end

