-- ==== Sys2Proof/Machine/Ends.lean ====
section
/-!
DEFINITION. Work that ends: queue reset (R302, R375), the end of a context (R222, R304, R328, R344), event records (R392).
-/

namespace Sys2Proof.Machine

/-! ### Queue reset (R302) -/

/-- Steps 2 to 4 and 7 for a placed team of the work: a closed exchange completes, the team leaves with its slots. -/
def State.stopTeam (s : State) (t : Team) : State :=
  let s := if s.allxClosed t then s.runHead t.uid else s
  (s.withdrawJoins t.uid).dropTeam t.uid

/-- Every message on its way to a team of a context is delivered (step 4). -/
def State.deliverAllOf (s : State) (ctx : CtxId) : State :=
  { s with teams := s.teams.map (fun t => if t.ctx == ctx then { t with rq := deliverAll t.rq, frq := deliverAll t.frq } else t) }

/-- Updates of some teams that are not performed are discarded (step 5). -/
def Pkg.dropPending (k : Pkg) (uids : List Nat) : Pkg :=
  { k with keys := k.keys.filter (fun x => match x.owner with
      | some (u, _, _) => !uids.contains u
      | none => true) }

/-- The deques of the cores of deque-mode teams are discarded (step 7), saved ones too. -/
def Pkg.dropDeques (k : Pkg) (ts : List Team) : Pkg :=
  (ts.filter (·.deque)).foldl (fun k t =>
    let slot := coreSlot t.gid
    let k := { k with deques := kdel k.deques (parkedDeque t.launch t.inst slot) }
    match kfind k.owners slot with
    | some o => if o.2 = (t.launch, t.inst) then { k with deques := kdel k.deques slot } else k
    | none => { k with deques := kdel k.deques slot }) k

/-- A saved share that no saved team needs any more is discarded. -/
def State.dropShares (s : State) (p : PkgNo) : State :=
  let gone := (s.pkg p).shares.filter (fun x => !s.saved.any (fun y => y.team.ctx == x.1 && gidCoreKey y.team.gid == x.2))
  gone.foldl (fun s x =>
    let lo := parkKey x.1 x.2 0
    (s.remap (fun k => if lo ≤ k ∧ k < lo + 2 ^ 21 then none else some k)).modPkg p (fun k =>
      { k with shares := k.shares.filter (fun y => y != x) })) s

/-- The mirror writes of a context that are on their way are applied (R282, R303). -/
def State.flushMirror (s : State) (p : PkgNo) (ctx : CtxId) : State :=
  match s.ctx? p ctx with
  | none => s
  | some c =>
    let mine := fun (x : Nat × Nat × SyncReg) => decide (c.syncBase ≤ x.1) && decide (x.1 < c.syncBase + c.syncCount)
    let q := (s.pkg p).mirrorQ
    ((q.filter mine).foldl (fun s x => s.applyMirror p x.1 x.2.2) s).modPkg p (fun k =>
      { k with mirrorQ := q.filter (fun x => !mine x) })

/-- A launch after a reset on a package, which alone it touches (R375): no instance is taken there any more, and the home expects
nothing more of it; what the home has sent to other packages still reaches them. -/
def Launch.cutOff (l : Launch) (p : PkgNo) : Launch :=
  let home := l.pkg == p
  { l.dropReady p with lo0 := if home then l.hi0 else l.lo0, lo1 := if home then l.hi1 else l.lo1, cut := l.cut ++ [p] }

/-- Ends the work of some launches on a package, without completion records; a launch is gone once its home has ended it and no
team of it is left on another package (R375); what it wrote takes its place in the atomic
orders, where the host reads it (R303). -/
def State.endWork (s : State) (p : PkgNo) (ctx : CtxId) (ids : List Nat) : State :=
  let mine := fun (t : Team) => ids.contains t.launch && t.pkg == p
  let ts := s.teams.filter mine
  let all := ts ++ (s.saved.map (·.team)).filter mine
  let s := ts.foldl State.stopTeam s.latchBars
  let s := { s with saved := s.saved.filter (fun x => !mine x.team) }.deliverAllOf ctx
  let s := s.enter ((s.writes.filter (fun w => all.any (fun t => t.uid == w.uid))).map (·.id))
  let s := s.modPkg p (fun k => (k.dropPending (all.map (·.uid))).dropDeques all)
  let s := s.modCtx p ctx (fun c => { c with posts := c.posts.filter (fun f => !ids.contains f.launch) })
  let s := (s.flushMirror p ctx).dropShares p
  { s with launches := (s.launches.map (fun l => if ids.contains l.id then l.cutOff p else l)).filter (fun l =>
      !ids.contains l.id || !l.cut.contains l.pkg || (s.teams ++ s.saved.map (·.team)).any (fun t => t.launch == l.id)) }

/-- Whether a launch is work of a queue of a package: it was popped there, or, of a launch of another package, its members
on this one belong to the queue of the same number (log 91). -/
def Launch.workOf (l : Launch) (p : PkgNo) (q : BitVec 6) (ctx : CtxId) : Bool :=
  l.queue == q && l.ctx == ctx && !l.cut.contains p && (l.pkg == p || l.insts.any (fun i => i.cores.any (fun c => gidPkg (keyGid c 0) == p)))

/-- Steps 1 to 8 of a queue reset (R302, R375, Table 12.5). -/
def State.resetQueue (s : State) (p : PkgNo) (q : BitVec 6) : State :=
  let x := s.queue p q
  let s := s.rackKeys (x.tailKeys p)
  let tail := (s.hostDword (cmdKey p x.tailAt)).toNat
  let s := (s.modQueue p q (fun x => { x with appended := [], head := tail })).fwDword (cmdKey p x.headAt) (BitVec.ofNat 64 tail)
  s.endWork p x.ctx ((s.launches.filter (fun l => l.workOf p q x.ctx)).map (·.id))

/-! ### Event records (R392) -/

/-- The event ring in device memory. -/
def eventRing : Nat := 0xFF_FFF0_0000

/-- What ended a context or retired a unit. -/
inductive EventKind where
  | command
  | ecc
  | core
  | leaf
  | stack
  | peer
  | link
  | port
  | watchdog
  | trial
  | heat
  | standby
  | retirement
deriving DecidableEq, Repr

/-- The number of a kind. -/
def EventKind.code (k : EventKind) : Nat := k.ctorIdx

/-- An event record (R392): the context, the unit and the kind. -/
structure EventRec where
  ctx : Option CtxId
  unit : Nat
  kind : EventKind
deriving DecidableEq, Repr

/-- The 32 bytes of an event record, whose layout is open (log 27). -/
def EventRec.bytes (e : EventRec) : List Byte :=
  (List.range 32).map (Config.eventByte ((e.ctx.map (fun c => c.toNat + 1)).getD 0) e.unit e.kind.code)

/-- Reports an event: its record enters the ring, then the tail doubleword follows. -/
def State.report (s : State) (p : PkgNo) (e : EventRec) : State :=
  let n := (s.pkg p).eventTail
  let s := s.hostPut (cellsAt (devKey p (eventRing + n % 32767 * 32)) e.bytes)
  let s := s.fwDword (devKey p (eventRing + 2 ^ 20 - 8)) (BitVec.ofNat 64 ((n + 1) % 32767 * 32))
  s.modPkg p (fun k => { k with eventTail := n + 1 })

/-! ### The end of a context -/

/-- Residue planes and backing areas of a context revert to ordinary memory, with unspecified contents. -/
def State.spoilRanges (s : State) (c : Ctx) : State :=
  s.spoil c.id (c.regions.flatMap (fun hr => if hr.2.plane = 0 then [] else c.frameKeys hr.2.plane (hr.2.len * 48)) ++
    c.tables.flatMap (fun ht => c.frameKeys ht.2.back (ht.2.nblk * ht.2.esz)))

/-- A package without a context: its queues, sync registers, keys, regions and tables; its cores are no context's (R238). -/
def Pkg.dropCtx (k : Pkg) (c : Ctx) : Pkg :=
  let inBlock := fun (n : Nat) => decide (c.syncBase ≤ n) && decide (n < c.syncBase + c.syncCount)
  { k with
    ctxs := kdel k.ctxs c.id.toNat, keys := k.keys.filter (fun x => x.ctx != c.id),
    queues := k.queues.map (fun q => if q.open_ && q.ctx == c.id then Queue.init else q),
    sync := kfilter (fun n => !inBlock n) k.sync, mirror := kfilter (fun n => !inBlock n) k.mirror,
    mirrorQ := k.mirrorQ.filter (fun x => !inBlock x.1),
    owners := k.owners.filter (fun o => o.2.1 != c.id), shares := k.shares.filter (fun x => x.1 != c.id),
    routed := k.routed.filter (fun x => x != c.id), awaiting := k.awaiting.filter (fun x => x != c.id),
    die0 := { k.die0 with resident := k.die0.resident.filter (fun x => x != c.id) },
    die1 := { k.die1 with resident := k.die1.resident.filter (fun x => x != c.id) } }

/-- Ends a context on one package: a reset of each of its queues, then whatever else it holds there. -/
def State.endOn (s : State) (p : PkgNo) (ctx : CtxId) : State :=
  match s.ctx? p ctx with
  | none => s
  | some c =>
    let qs := ((List.range 64).map (BitVec.ofNat 6)).filter (fun q => (s.queue p q).open_ && (s.queue p q).ctx == ctx)
    let s := qs.foldl (fun s q => s.resetQueue p q) s
    let s := s.endWork p ctx ((s.launches.filter (fun l => l.ctx == ctx)).map (·.id))
    (s.spoilRanges c).modPkg p (fun k => k.dropCtx c)

/-- The packages that hold a context. -/
def State.pkgsOf (s : State) (ctx : CtxId) : List PkgNo :=
  (s.pkgs.filter (fun kp => (kfind kp.2.ctxs ctx.toNat).isSome)).map (fun kp => BitVec.ofNat 12 kp.1)

/-- Ends a context (R222, R304): every team stops, each of its queues is reset. -/
def State.endCtx (s : State) (ctx : CtxId) : State := (s.pkgsOf ctx).foldl (fun s p => s.endOn p ctx) s

/-- Ends contexts for an event on a package, each with its event record. -/
def State.failCtxs (s : State) (p : PkgNo) (unit : Nat) (kind : EventKind) (cs : List CtxId) : State :=
  cs.foldl (fun s c => (s.endCtx c).report p ⟨some c, unit, kind⟩) s

/-- The contexts with a placed team that meets a condition. -/
def State.ctxsWith (s : State) (f : Team → Bool) : List CtxId := ((s.teams.filter f).map (·.ctx)).eraseDups

/-- The contexts with a team, placed or saved, on a package. -/
def State.ctxsAt (s : State) (p : PkgNo) : List CtxId :=
  (((s.teams ++ s.saved.map (·.team)).filter (fun t => t.pkg == p)).map (·.ctx)).eraseDups

end Sys2Proof.Machine
end

