-- ==== Sys2Proof/Machine/VintageExec.lean ====
section
/-!
DEFINITION. The vintage services (R332, R333) and counters (R341, R342).
-/

namespace Sys2Proof.Machine

/-- Whether FP32 bits are a threshold: finite, and not negative, −0 included (R330, Table 14.2). -/
def thetaOk (b : BitVec 32) : Bool := !b.getLsbD 31 && b.extractLsb' 23 8 != 0xFF

/-- The table that VNT.SET's arguments describe. -/
def vntOf (s2 s3 s4 s5 s6 : Word) : VTable :=
  { theta := s2.extractLsb' 0 32, maxRun := (s3.extractLsb' 0 16).toNat, nblk := (s4.extractLsb' 0 17).toNat,
    cin := (s5.extractLsb' 0 21).toNat, cout := (s5.extractLsb' 32 25).toNat, back := s6.toNat, entries := [] }

/-- The status of VNT.SET (Table 14.2). -/
def vntStatus (c : Ctx) (pkg : PkgNo) (h s2 s3 s4 s5 s6 : Word) : Word :=
  let t := vntOf s2 s3 s4 s5 s6
  let n := t.nblk * t.esz
  if h = 0 || (63#64).ult h || (kfind c.tables h.toNat).isSome then 17
  else if !thetaOk t.theta || t.maxRun = 0 || s2.extractLsb' 32 32 != 0 || s3.extractLsb' 16 48 != 0 ||
      s4.extractLsb' 17 47 != 0 || s5.extractLsb' 21 11 != 0 || s5.extractLsb' 57 7 != 0 then 18
  else if t.nblk = 0 || 65536 < t.nblk || t.cin = 0 || 2 ^ 20 < t.cin || t.cout = 0 || 2 ^ 24 < t.cout then 19
  else if s6.toNat % 4096 ≠ 0 || !inWindow s6.toNat n || !c.pagesIn pkg [1] s6.toNat n || c.rangeTaken s6.toNat n then 20
  else 0

/-- VNT.SET (R332, R333). -/
def execVntSet (sd : SReg) (s : State) : Host.Outcome State Fault Refusal :=
  s.front (.vntSet sd) (fun t =>
    match s.teamCtx? t with
    | none => s.svcDone t.uid sd 17
    | some c =>
      let st := vntStatus c t.pkg (t.rs 1) (t.rs 2) (t.rs 3) (t.rs 4) (t.rs 5) (t.rs 6)
      if st = 0 then
        ((s.putTable t (t.rs 1).toNat (vntOf (t.rs 2) (t.rs 3) (t.rs 4) (t.rs 5) (t.rs 6))).noteHost t true
          (t.rs 1).toNat).svcDone t.uid sd 0
      else s.svcDone t.uid sd st)

/-- Whether a TIQ entry is an accepted replay of a table that has not completed. -/
def TileEntry.usesTable (e : TileEntry) (n : Nat) : Bool :=
  e.accepted && match e.instr with
  | .vntq _ _ sb _ | .vntw _ sb _ => vntTbl (e.cap.rs sb) == n
  | _ => false

/-- VNT.REL (R332, R333). -/
def execVntRel (sd : SReg) (s : State) : Host.Outcome State Fault Refusal :=
  s.front (.vntRel sd) (fun t =>
    let h := (t.rs 1).toNat
    match s.teamCtx? t with
    | none => s.svcDone t.uid sd 17
    | some c =>
      match (if h = 0 || 63 < h then none else kfind c.tables h) with
      | none => s.svcDone t.uid sd 17
      | some tb =>
        if (s.ctxTeams t.ctx).any (fun u => u.pkg == t.pkg && u.tiq.any (fun e => e.usesTable h)) then
          .stall (s.modTeam t.uid (fun t => { t with wait := .service }))
        else
          let s := s.modCtx t.pkg t.ctx (fun c => { c with
              tables := kdel c.tables h, hostSets := c.hostSets.filter (fun x => !x.2.1 || x.2.2 != h) })
          (s.spoil t.ctx (c.frameKeys tb.back (tb.nblk * tb.esz))).svcDone t.uid sd 0)

/-- VNT.INV (R332, R333). -/
def execVntInv (sd : SReg) (s : State) : Host.Outcome State Fault Refusal :=
  s.front (.vntInv sd) (fun t =>
    let h := (t.rs 1).toNat
    let first := (t.rs 2).toNat
    let n := (t.rs 3).toNat
    match s.teamCtx? t with
    | none => s.svcDone t.uid sd 17
    | some c =>
      match (if h = 0 || 63 < h then none else kfind c.tables h) with
      | none => s.svcDone t.uid sd 17
      | some tb =>
        if tb.nblk ≤ first || tb.nblk < first + n then s.svcDone t.uid sd 21
        else
          let last := if n = 0 then tb.nblk else first + n
          let es := kmapOf VEntry.empty (tb.entries.map (fun be =>
            let e := kget VEntry.empty tb.entries be.1
            (be.1, if first ≤ be.1 ∧ be.1 < last then { e with v := false } else e)))
          (s.putTable t h { tb with entries := es }).svcDone t.uid sd 0)

/-- A counter of the context. -/
def Ctx.counter (c : Ctx) (k : BitVec 2) : Word :=
  match k.toNat with
  | 0 => c.hits
  | 1 => c.misses
  | _ => c.stales

/-- Clears a counter. -/
def Ctx.clearCounter (c : Ctx) (k : BitVec 2) : Ctx :=
  match k.toNat with
  | 0 => { c with hits := 0 }
  | 1 => { c with misses := 0 }
  | _ => { c with stales := 0 }

/-- VNTC (R342). -/
def execVntc (k : BitVec 2) (clr : Bool) (sd : SReg) (s : State) : Host.Outcome State Fault Refusal :=
  s.front (.vntc k clr sd) (fun t =>
    let v := (match s.teamCtx? t with
      | some c => c.counter k
      | none => 0)
    let s := if clr then s.modCtx t.pkg t.ctx (fun c => c.clearCounter k) else s
    .done (s.modTeam t.uid (fun t => (t.wrS sd v).advance 8)))

end Sys2Proof.Machine
end

