-- ==== Sys2Proof/Machine/HostCmd.lean ====
section
/-!
DEFINITION. Host commands through the mailbox (R387, Table 18.4) and HOST.SVC (R388).
-/

namespace Sys2Proof.Machine

/-! ### The mailbox -/

/-- A doubleword of the mailbox. -/
def Pkg.mail (k : Pkg) (i : Nat) : Word := k.mailbox.get (Fin.ofNat 8 i)

/-- The code of the command that waits in the mailbox. -/
def State.pendingCode (s : State) (p : PkgNo) : Option Nat :=
  let k := s.pkg p
  if k.power == .on && k.booted && (k.mail 0).getLsbD 63 then some ((k.mail 0).extractLsb' 0 63).toNat else none

/-- A command ends: bit 63 clears, the status goes to doubleword 1. -/
def State.endCommand (s : State) (p : PkgNo) (status : Word) : State :=
  s.modPkg p (fun k => { k with mailbox :=
    (k.mailbox.set 0 (k.mail 0 &&& 0x7FFF_FFFF_FFFF_FFFF)).set 1 status })

/-- Runs a command, if it is the one that waits: its effect and status 0, or a status and no effect. -/
def State.command (s : State) (p : PkgNo) (code : Nat) (f : Pkg → Except Word State) : Host.Outcome State Fault Refusal :=
  if s.pendingCode p = some code then
    match f (s.pkg p) with
    | .ok s' => .next (s'.endCommand p 0)
    | .error st => .next (s.endCommand p st)
  else .next s

/-- The status of a bad argument. -/
def badArg {α : Type} : Except Word α := .error 2
/-- The status of a busy context or queue. -/
def busyArg {α : Type} : Except Word α := .error 3

/-- A context id among the arguments. -/
def ctxArg (w : Word) : Option CtxId := if w.extractLsb' 16 48 = 0 then some (w.extractLsb' 0 16) else none

/-- A context that exists on a package, named by an argument. -/
def State.ctxOf (s : State) (p : PkgNo) (w : Word) : Option Ctx := (ctxArg w).bind (s.ctx? p)

/-- An aligned range of `n` bytes of host or device memory among the arguments (log 28). -/
def rangeOk (a : Word) (align n : Nat) : Bool :=
  a.toNat % align == 0 &&
  (if a.getLsbD 63 then a.extractLsb' 52 11 == 0 && decide (a.toNat % 2 ^ 52 + n ≤ 2 ^ 52) else decide (a.toNat + n ≤ 2 ^ 40))

/-! ### Contexts -/

/-- A context as CTX.CREATE makes it (R387, R59, R275, R282). -/
def State.newCtx (s : State) (k : Pkg) (id : CtxId) : Ctx :=
  let m := fun (i : Nat) => k.mail i
  { id, start := s.mem, ptRoot := (m 2).toNat, syncBase := ((m 3).extractLsb' 0 32).toNat,
    syncCount := ((m 3).extractLsb' 32 32).toNat, leesRuns := (m 4).toNat, split := (m 5).extractLsb' 0 3,
    faultQ := (m 6).toNat, msix := m 7, msixSignals := 0, obj := [], oldObj := [], hostSets := [], win := [],
    ptSnaps := [⟨0, 2 ^ 40, s.hostMem, s.nextId⟩], regions := [], tables := [], hits := 0, misses := 0, stales := 0,
    tokens := [], tokensPending := [], faultSeq := 0, posts := [], resolved := [], fcqTail := 0 }

/-- The arguments of CTX.CREATE. -/
def Pkg.createOk (k : Pkg) : Bool :=
  let root := k.mail 2
  let base := ((k.mail 3).extractLsb' 0 32).toNat
  let count := ((k.mail 3).extractLsb' 32 32).toNat
  let fq := k.mail 6
  root.toNat % 8192 == 0 && decide (root.toNat < 2 ^ 40) && decide (base + count ≤ 4096) &&
  k.ctxs.all (fun kc => decide (kc.2.syncBase + kc.2.syncCount ≤ base) || decide (base + count ≤ kc.2.syncBase)) &&
  decide ((k.mail 5).toNat ≤ 4) && fq.toNat % 2 ^ 20 == 0 && decide (fq.toNat + 2 ^ 20 ≤ fwBase)

/-- Whether firmware holds the launches of a new context: its image, which the loader has yet to load, may hold routes (R79), by
a free choice (log 74). -/
def Pkg.holdImage (k : Pkg) (id : CtxId) (held : Bool) : Pkg :=
  if held then { k with routed := k.routed ++ [id], awaiting := k.awaiting ++ [id] } else k

/-- CTX.CREATE (R387); what the new context reads of memory is racked first (R295, log 99). -/
def execCtxCreate (pkg : PkgNo) (s : State) : Host.Outcome State Fault Refusal :=
  s.command pkg 0x01 (fun k =>
    match ctxArg (k.mail 1) with
    | none => badArg
    | some id =>
      if (s.ctx? pkg id).isSome then busyArg
      else if !k.createOk then badArg
      else
        let s := s.rackKeysOf pkg (fun _ => true)
        let c := s.newCtx k id
        let block := fun (n : Nat) => decide (c.syncBase ≤ n) && decide (n < c.syncBase + c.syncCount)
        .ok ((s.modPkg pkg (fun k => { (k.holdImage id (s.pick 5 2 == 1)) with
          sync := kfilter (fun n => !block n) k.sync, mirror := kfilter (fun n => !block n) k.mirror,
          mirrorQ := k.mirrorQ.filter (fun x => !block x.1) })).putCtx pkg c))

/-- CTX.END (R387, R304, R392). -/
def execCtxEnd (pkg : PkgNo) (s : State) : Host.Outcome State Fault Refusal :=
  s.command pkg 0x02 (fun k =>
    match s.ctxOf pkg (k.mail 1) with
    | none => badArg
    | some c => .ok (s.failCtxs pkg 0 .command [c.id]))

/-! ### Queues and tokens -/

/-- QUEUE.OPEN (R382): the head starts as its doubleword stands. -/
def execQueueOpen (pkg : PkgNo) (s : State) : Host.Outcome State Fault Refusal :=
  s.command pkg 0x03 (fun k =>
    let q := k.mail 1
    let depth := (k.mail 5).toNat
    match s.ctxOf pkg (k.mail 2) with
    | none => badArg
    | some c =>
      if (63#64).ult q || (7#64).ult (k.mail 3) || decide (depth < 4) || decide (16 < depth) || !rangeOk (k.mail 4) 128 (2 ^ depth * 128) ||
          !rangeOk (k.mail 6) 8 8 || !rangeOk (k.mail 7) 8 8 || (k.mail 6).toNat / 64 == (k.mail 7).toNat / 64 then badArg
      else if (k.queues.get (Fin.ofNat 64 q.toNat)).open_ || k.resetting.contains (q.extractLsb' 0 6) then busyArg
      else
        let s := s.rackKeys (keysFrom (cmdKey pkg (k.mail 7).toNat) 8)
        .ok (s.modQueue pkg (q.extractLsb' 0 6) (fun _ =>
          { open_ := true, ctx := c.id, pri := (k.mail 3).extractLsb' 0 3, ring := (k.mail 4).toNat, k := depth,
            tailAt := (k.mail 6).toNat, headAt := (k.mail 7).toNat,
            head := (s.hostDword (cmdKey pkg (k.mail 7).toNat)).toNat, appended := [], done := [] })))

/-- QUEUE.RESET (R302): a first turn does steps 1 to 8 of Table 12.5, and the command waits; a later turn reports completion. -/
def execQueueReset (pkg : PkgNo) (s : State) : Host.Outcome State Fault Refusal :=
  if s.pendingCode pkg = some 0x04 then
    let k := s.pkg pkg
    let q := (k.mail 1).extractLsb' 0 6
    if (63#64).ult (k.mail 1) then .next (s.endCommand pkg 2)
    else if k.resetting.contains q then
      .next ((s.modPkg pkg (fun k => { k with resetting := k.resetting.filter (fun x => x != q) })).endCommand pkg 0)
    else if !(s.queue pkg q).open_ then .next (s.endCommand pkg 2)
    else .next ((s.resetQueue pkg q).modPkg pkg (fun k => { k with resetting := k.resetting ++ [q] }))
  else .next s

/-- A graph number among the arguments. -/
def graphArg (w : Word) : Option (BitVec 16) := if w.extractLsb' 16 48 = 0 then some (w.extractLsb' 0 16) else none

/-- CANCEL (R301). -/
def execCancel (pkg : PkgNo) (s : State) : Host.Outcome State Fault Refusal :=
  s.command pkg 0x05 (fun k =>
    match s.ctxOf pkg (k.mail 1), graphArg (k.mail 2) with
    | some c, some g => if g = 0 then badArg else .ok (s.putCtx pkg (c.raise s.now g))
    | _, _ => badArg)

/-- A context without the token of a graph, or without any. -/
def Ctx.clearTokens (c : Ctx) (g : BitVec 16) : Ctx :=
  ({ c with tokens := if g = 0 then [] else c.tokens.filter (fun x => x.1 != g),
            tokensPending := if g = 0 then [] else c.tokensPending.filter (fun x => x.1 != g) }).takeIn

/-- CANCEL.CLR (R387). -/
def execCancelClr (pkg : PkgNo) (s : State) : Host.Outcome State Fault Refusal :=
  s.command pkg 0x06 (fun k =>
    match s.ctxOf pkg (k.mail 1), graphArg (k.mail 2) with
    | some c, some g => .ok (s.putCtx pkg (c.clearTokens g))
    | _, _ => badArg)

/-! ### Translation and the window -/

/-- TLB.INV (R274): walks of the range read the page table as the host path leaves it now, region words racked (R295). -/
def execTlbInv (pkg : PkgNo) (s : State) : Host.Outcome State Fault Refusal :=
  s.command pkg 0x07 (fun k =>
    match s.ctxOf pkg (k.mail 1) with
    | none => badArg
    | some c =>
      let first := (k.mail 2).toNat
      let count := (k.mail 3).toNat
      if 2 ^ 40 < first + count then badArg
      else
        let s := s.rackKeysOf pkg (fun _ => true)
        .ok (s.modCtx pkg c.id (fun c => { c with ptSnaps := ⟨first, count, s.hostMem, s.nextId⟩ :: c.ptSnaps })))

/-- Whether a window entry may be stored (R277). -/
def winEntryOk (e : Word) : Bool :=
  decide ((e.extractLsb' 0 3).toNat ≤ 4) && !e.getLsbD 3 && e.extractLsb' 6 19 == 0 && e.extractLsb' 45 7 == 0 &&
  decide ((e.extractLsb' 25 20).toNat < 0x7FFF)

/-- Whether a Press key's word lies in some window pages of a context. -/
def Ctx.keyInPages (c : Ctx) (first count : Nat) (x : PressKey) : Bool :=
  x.ctx == c.id &&
  (match kfind c.regions x.handle with
   | some r =>
     let page := (r.base + x.idx * opWidth r.op.toNat - winBase) / winPage
     decide (first ≤ page) && decide (page < first + count)
   | none => false)

/-- Whether a key lies in a frame that some window pages of a context show now. -/
def Ctx.inFrames (c : Ctx) (first count key : Nat) : Bool :=
  (List.range count).any (fun i =>
    let e := c.winEntry (first + i)
    let lo := devKey (e.extractLsb' 52 12) (winFrame e)
    e.extractLsb' 0 3 != 0 && decide (lo ≤ key) && decide (key < lo + winPage))

/-- Whether accesses translated by some window entries have yet to perform (R277): held stores, and the rows of exchanges that
their members have joined (log 90). -/
def State.winBusy (s : State) (p : PkgNo) (c : Ctx) (first count : Nat) : Bool :=
  s.teams.any (fun t => t.pkg == p && t.ctx == c.id &&
    (t.sbuf.any (fun h => h.cells.any (fun x => c.inFrames first count x.1)) ||
     s.exchanges.any (fun e => e.joins.any (fun j => j.uid == t.uid && !j.done &&
       (j.recv ++ j.drop).any (fun ks => ks.any (c.inFrames first count))))))

/-- The pages that a WIN.SET names: context, first entry and count, when they can be. -/
def State.winArgs (s : State) (p : PkgNo) : Option (Ctx × Nat × Nat) :=
  let k := s.pkg p
  (s.ctxOf p (k.mail 1)).bind (fun c =>
    let n := (k.mail 3).toNat
    if 131072 < (k.mail 2).toNat + n || !rangeOk (k.mail 4) 8 (8 * n) then none else some (c, (k.mail 2).toNat, n))

/-- WIN.SET (R277, R327): once the accesses under the old entries have performed (log 90), keys of the pages are racked into
the old frames, then every entry is written, or none. -/
def execWinSet (pkg : PkgNo) (s : State) : Host.Outcome State Fault Refusal :=
  if s.pendingCode pkg = some 0x08 then
    match s.winArgs pkg with
    | none => .next (s.endCommand pkg 2)
    | some (c, first, n) =>
      if s.winBusy pkg c first n then .next s
      else
        let at_ := cmdKey pkg ((s.pkg pkg).mail 4).toNat
        let s := s.rackKeys (keysFrom at_ (8 * n))
        let es := (List.range n).map (fun i => s.hostDword (at_ + 8 * i))
        if es.all winEntryOk then
          .next (((s.rackKeysOf pkg (c.keyInPages first n)).modCtx pkg c.id (fun c =>
            { c with win := es.zipIdx.foldl (fun w ei => kset 0 w (first + ei.2) ei.1) c.win })).endCommand pkg 0)
        else .next (s.endCommand pkg 2)
  else .next s

/-! ### Firmware images (R390) -/

/-- The slot that is not active. -/
def Pkg.alternate (k : Pkg) : List Byte := if k.active then k.slot0 else k.slot1
/-- The active slot. -/
def Pkg.activeSlot (k : Pkg) : List Byte := if k.active then k.slot1 else k.slot0
/-- Replaces the slot that is not active. -/
def Pkg.putAlternate (k : Pkg) (bs : List Byte) : Pkg := if k.active then { k with slot0 := bs } else { k with slot1 := bs }

/-- Whether the boot ROM accepts an image: its signature over its digest verifies (log 8). -/
def imageOk (image : List Byte) : Bool := Config.falconVerifies (Config.shake256 image) image

/-- FW.STAGE (R390): a verified image of host memory is written to the alternate slot. -/
def execFwStage (pkg : PkgNo) (s : State) : Host.Outcome State Fault Refusal :=
  s.command pkg 0x09 (fun k =>
    let image := s.hostValue (keysFrom (hostKey (k.mail 1).toNat) (k.mail 2).toNat)
    if 2 ^ 52 < (k.mail 1).toNat + (k.mail 2).toNat then badArg
    else if imageOk image then .ok (s.modPkg pkg (fun k => k.putAlternate image)) else badArg)

/-- The boot ROM's choice: the active slot, or, when its signature fails, the previous slot with REVERT set. -/
def Pkg.boot (k : Pkg) : Pkg :=
  if imageOk k.activeSlot then { k with booted := true }
  else if imageOk k.alternate then { k with booted := true, active := !k.active, revert := true }
  else { k with revert := true }

/-- A port before it trains again. -/
def Port.untrained (x : Port) : Port := { x with mark := if x.mark = .up then .down else x.mark, comp := false }

/-- A package without power or after a reset: what its flash holds and where its ports are cabled stays (log 29). -/
def Pkg.restart (k : Pkg) (power : Power) : Pkg :=
  { Pkg.init with power, slot0 := k.slot0, slot1 := k.slot1, active := k.active, revert := k.revert, ports := k.ports.map Port.untrained,
                  die0 := { Die.init with map0 := k.die0.map0, map1 := k.die0.map1 },
                  die1 := { Die.init with map0 := k.die1.map0, map1 := k.die1.map1 } }

/-- A trial that fails (R390): the watchdog resets the package, the previous slot boots, REVERT is set. -/
def Pkg.revertTrial (k : Pkg) : Pkg := { (k.restart .on).boot with revert := true }

/-- FW.ACTIVATE (R390): the alternate slot boots on trial; one whose signature fails has the result of a trial that is not
committed. -/
def execFwActivate (pkg : PkgNo) (s : State) : Host.Outcome State Fault Refusal :=
  s.command pkg 0x0A (fun k =>
    if !k.ctxs.isEmpty then busyArg
    else if imageOk k.alternate then .ok (s.modPkg pkg (fun k => { k with trial := true, trialAt := s.now }))
    else .ok (s.modPkg pkg Pkg.revertTrial))

/-! ### HOST.SVC (R388) -/

/-- Whether HOST.SVC accepts a service number. -/
def hostSvcOk (n : Nat) : Bool := n == 1 || n == 2 || (0x10 ≤ n && n ≤ 0x12) || (0x20 ≤ n && n ≤ 0x22)

/-- The caller that a service sees when the host calls it: it stands on no core, reads what the host path reads, and has
the arguments in s1 to s5. -/
def State.hostCaller (s : State) (k : Pkg) (p : PkgNo) (c : Ctx) : Team :=
  { Team.init with
    uid := 0, gid := p ++ (0 : BitVec 13), ctx := c.id, status := .running, split := c.split,
    s := Vector.ofFn (fun i => if 1 ≤ i.val ∧ i.val ≤ 5 then k.mail (i.val + 2) else 0),
    views := Vector.replicate 5 ((s.writes.filter (fun w => w.entered || s.hostView.contains w.id)).map (·.id)),
    epochs := Vector.replicate 5 s.free, seen := c.oldObj.map (·.id) ++ c.hostSets.map (·.1),
    wait := match k.hostWalk with
      | some st => .walk st
      | none => .none }

/-- The service of a number, run for the current team with its status to s1. -/
def runService (n : Nat) (s : State) : Host.Outcome State Fault Refusal :=
  match n with
  | 0x01 => execShapeSet 1 s
  | 0x02 => execShapeInv 1 s
  | 0x10 => execRegionSet 1 s
  | 0x11 => execRegionRel 1 s
  | 0x12 => execRegionStat 1 s
  | 0x20 => execVntSet 1 s
  | 0x21 => execVntRel 1 s
  | _ => execVntInv 1 s

/-- When a walk of a waiting service call began to wait (R273). -/
def Team.walkSince (t : Team) : Option Nat :=
  match t.wait with
  | .walk st => some st
  | _ => none

/-- What a service call of the host leaves: its writes stand on the host path; one that waits goes on later. -/
def State.serviceEnd (s : State) (p : PkgNo) (cur : Nat) : State :=
  match s.team? 0 with
  | none => s
  | some t =>
    let s := s.enter (t.view .team)
    let s := { s.dropTeam 0 with cur }
    if t.pc = 0 then s.modPkg p (fun k => { k with hostWalk := t.walkSince })
    else (s.endCommand p 0).modPkg p (fun k => { k with mailbox := k.mailbox.set 2 (t.rs 1), hostWalk := none })

/-- HOST.SVC (R388). -/
def execHostSvc (pkg : PkgNo) (s : State) : Host.Outcome State Fault Refusal :=
  if s.pendingCode pkg = some 0x0B then
    let k := s.pkg pkg
    match s.ctxOf pkg (k.mail 1) with
    | none => .next (s.endCommand pkg 2)
    | some c =>
      let n := (k.mail 2).toNat
      if !hostSvcOk n then .next (s.endCommand pkg 2)
      else
        match runService n { s with teams := s.teams ++ [s.hostCaller k pkg c], cur := 0 } with
        | .next s' => .next (s'.serviceEnd pkg s.cur)
        | x => x
  else .next s

/-- UNKNOWN_COMMAND_CODE (R387). -/
def execUnknownCommandCode (pkg : PkgNo) (s : State) : Host.Outcome State Fault Refusal :=
  match s.pendingCode pkg with
  | some n => if 1 ≤ n ∧ n ≤ 0x0B then .next s else .next (s.endCommand pkg 1)
  | none => .next s

end Sys2Proof.Machine
end

