-- ==== Sys2Proof/Machine/Firmware.lean ====
section
/-!
DEFINITION. Firmware, identity, power and failures: boot and trials (R390), SPDM (R391), errors (R222, R290, R305, R392), the
die-to-die link (R291), temperature, clock and power (R4, R393).
-/

namespace Sys2Proof.Machine

/-! ### Boot (R390) -/

/-- BOOT (R390). -/
def execBoot (pkg : PkgNo) (s : State) : Host.Outcome State Fault Refusal :=
  let k := s.pkg pkg
  if k.power == .on && !k.booted then .next (s.modPkg pkg Pkg.boot) else .next s

/-- The contexts of a package. -/
def State.ctxsOn (s : State) (p : PkgNo) : List CtxId := (s.pkg p).ctxs.map (fun kc => kc.2.id)

/-- Ends every context of a package, each with its event record. -/
def State.endAll (s : State) (p : PkgNo) (kind : EventKind) : State := s.failCtxs p 0 kind (s.ctxsOn p)

/-- TRIAL_TIMEOUT (R390): 2 s without COMMIT; the watchdog resets the package, the previous slot boots, REVERT is set. -/
def execTrialTimeout (pkg : PkgNo) (s : State) : Host.Outcome State Fault Refusal :=
  let k := s.pkg pkg
  if k.trial && decide (k.trialAt + trialLimit ≤ s.now) then
    .next ((s.endAll pkg .trial).modPkg pkg Pkg.revertTrial)
  else .next s

/-- WATCHDOG (R305, R390): every context on the package ends and the global scheduler core restarts. -/
def execWatchdog (pkg : PkgNo) (s : State) : Host.Outcome State Fault Refusal := .next (s.endAll pkg .watchdog)

/-! ### Identity (R391) -/

/-- The Falcon-1024 identity key of a package, by which its answers are signed (R391, log 8). -/
def identityOf (p : PkgNo) : List Byte := Config.identityKey p.toNat

/-- GET_MEASUREMENTS (R391). -/
def execGetMeasurements (pkg : PkgNo) (s : State) : Host.Outcome State Fault Refusal :=
  .next (s.modPkg pkg (fun k => { k with spdmAnswer :=
    [Config.bootRom, k.activeSlot, k.alternate, Config.fusedConfig].map Config.shake256 }))

/-- NEGOTIATE_ALGORITHMS (R391). -/
def execNegotiateAlgorithms (pkg : PkgNo) (falcon1024 shake256 : Bool) (s : State) : Host.Outcome State Fault Refusal :=
  .next (s.modPkg pkg (fun k => { k with spdmAgreed := falcon1024 && shake256 }))

/-! ### Errors and failures -/

/-- SOFT_ERROR (R290, R305, R392). -/
def execSoftError (pkg : PkgNo) (unit : Nat) (s : State) : Host.Outcome State Fault Refusal :=
  .next (s.modPkg pkg (fun k => { k with softErrors := kset 0 k.softErrors unit (kget 0 k.softErrors unit + 1) }))

/-- Whether some of the 8 granules from a key on meets a condition on package and address: larger pages span all eight
stacks of their half (R293). -/
def granules (f : PkgNo → Nat → Bool) (n k : Nat) : Bool :=
  isDevKey k && (List.range n).any (fun j => f (keyPkg k) ((k + 4096 * j) % 2 ^ 40))

/-- Whether the page table of a context maps memory that meets a condition, under a node; `n` levels left. -/
def State.mapsUnder (s : State) (p : PkgNo) (c : Ctx) (f : PkgNo → Nat → Bool) : Nat → Nat → Nat → Bool
  | 0, _, _ => false
  | n + 1, va, node => (List.range 1024).any (fun i =>
      let v := va + i * 2 ^ (10 * n + 12)
      match pteStep p .read v n true (s.ptEntry p c v n node) with
      | .done (.ok k) => granules f (if n = 0 then 1 else 8) k
      | .done _ => false
      | .next a => s.mapsUnder p c f n v a)

/-- Whether a context holds memory that meets a condition on package and address: a page that its tables map there. -/
def State.mapsTo (s : State) (p : PkgNo) (c : Ctx) (f : PkgNo → Nat → Bool) : Bool :=
  c.win.any (fun x => x.2.extractLsb' 0 3 != 0 && granules f 8 (devKey (x.2.extractLsb' 52 12) (winFrame x.2))) ||
  s.mapsUnder p c f 4 0 c.ptRoot

/-- The contexts with memory that meets a condition. -/
def State.ctxsWithMem (s : State) (f : PkgNo → Nat → Bool) : List CtxId :=
  (s.pkgs.flatMap (fun kp => (kp.2.ctxs.filter (fun kc => s.mapsTo (BitVec.ofNat 12 kp.1) kc.2 f)).map (fun kc => kc.2.id))).eraseDups

/-- The context whose team last wrote the 128-byte line of a key, while it lives; writes on the host path apart (R290). -/
def State.lastWriter (s : State) (key : Nat) : Option CtxId :=
  let hit := s.writes.filter (fun w => w.uid != 0 && w.cells.any (fun c => c.1 / 128 == key / 128))
  hit.getLast?.bind (fun w => (s.pkgsOf w.ctx).findSome? (fun p => (s.ctx? p w.ctx).bind (fun c =>
    if ((c.ptSnaps.getLast?).map (·.stamp)).getD 0 ≤ w.id then some w.ctx else none)))

/-- The context that owns the data of a line (R305): of those whose tables map it, the one whose team last wrote it, else the
first (log 76). -/
def State.dataOwner (s : State) (key : Nat) : Option CtxId :=
  let cs := s.ctxsWithMem (fun p a => p == keyPkg key && a / 4096 == key % 2 ^ 40 / 4096)
  match s.lastWriter key with
  | some c => if cs.contains c then some c else cs.head?
  | none => cs.head?

/-- The context that owns what an uncorrectable error has struck on a package (R222, Tables 9.7, 11.9, 12.6, 16.8). -/
def State.errorOwner (s : State) (p : PkgNo) (site : ErrorSite) : Option CtxId :=
  let k := s.pkg p
  let held := fun (ctx : CtxId) (f : Ctx → Bool) => (s.ctx? p ctx).bind (fun c => if f c then some ctx else none)
  match site with
  | .unread _ | .cached => none
  | .written key => s.lastWriter key
  | .cellar key => s.dataOwner key
  | .window ctx => held ctx (fun _ => k.die0.resident.contains ctx || k.die1.resident.contains ctx)
  | .sync phys => (k.ctxs.find? (fun kc => decide (kc.2.syncBase ≤ phys) && decide (phys < kc.2.syncBase + kc.2.syncCount))).map
      (fun kc => kc.2.id)
  | .press ctx h => held ctx (fun _ => k.keys.any (fun x => x.ctx == ctx && x.handle == h))
  | .residue ctx h => held ctx (fun c => (kfind c.regions h).any (fun r => r.plane != 0))
  | .vintage ctx h => held ctx (fun c => (kfind c.tables h).isSome)
  | .engine ctx => held ctx (fun _ => true)
  | .team gid => (s.teamOf gid).map (·.ctx)

/-- UNCORRECTABLE_ERROR (R222): data not read yet carries the error to its reader; else the owner's context ends. -/
def execUncorrectableError (pkg : PkgNo) (site : ErrorSite) (s : State) : Host.Outcome State Fault Refusal :=
  match site with
  | .unread key => .next { s with bad := union s.bad [key] }
  | _ =>
    match s.errorOwner pkg site with
    | some c => .next (s.failCtxs pkg 0 .ecc [c])
    | none => .next s

/-- The nearest row with a spare position, the lower row of two (R234). -/
def nearestSpare (m : KMap Mark) (y : Nat) : Option (Nat × Nat) :=
  let rows := (List.range 16).flatMap (fun d => (if d ≤ y then [y - d] else []) ++ (if y + d ≤ 15 then [y + d] else []))
  rows.findSome? (fun r => ((List.range 17).find? (fun x => meshMark m r x == .spare)).map (fun x => (r, x)))

/-- The retirement of a position: a spare takes the place of one that worked (R234). -/
def retireAt (m : KMap Mark) (y x : Nat) : KMap Mark :=
  let was := meshMark m y x
  let m := kput m (y * meshCols + x) .retired
  if was = .working then
    match nearestSpare m y with
    | some (r, c) => kput m (r * meshCols + c) .working
    | none => m
  else m

/-- Retires a position of a package's mesh. DESIGN CHOICE (log 123): scratchpads and last-placed owners stay under their logical
numbers, which the retirement counts anew. -/
def Pkg.retire (k : Pkg) (pos : Position) : Pkg :=
  let d := k.die pos.die
  if pos.x.toNat < 17 then k.putDie pos.die (d.putMap pos.clu (retireAt (d.map pos.clu) pos.y.toNat pos.x.toNat)) else k

/-- The number of a position as a unit. -/
def positionUnit (p : Position) : Nat := ((p.die.toNat * 2 + p.clu.toNat) * 16 + p.y.toNat) * 32 + p.x.toNat

/-- A retirement is reported: firmware holds the launches of every image with routes until the loader's next pass (R79). -/
def Pkg.awaitPass (k : Pkg) : Pkg := { k with awaiting := k.routed }

/-- RETIREMENT (R234): made only while no team stands on the cluster. -/
def execRetirement (pkg : PkgNo) (pos : Position) (s : State) : Host.Outcome State Fault Refusal :=
  if s.teams.any (fun t => t.pkg == pkg && gidDie t.gid == pos.die && gidClu t.gid == pos.clu) then .next s
  else .next ((s.modPkg pkg (fun k => (k.retire pos).awaitPass)).report pkg ⟨none, (positionUnit pos), .retirement⟩)

/-- UNIT_FAILURE (R257, R290, R305, R376). -/
def execUnitFailure (pkg : PkgNo) (unit : HwUnit) (s : State) : Host.Outcome State Fault Refusal :=
  let onClu := fun (d c : Bool) (t : Team) => t.pkg == pkg && gidDie t.gid == d && gidClu t.gid == c
  match unit with
  | .core d c y x =>
    let pos : Position := ⟨d, c, y, x⟩
    .next (((s.failCtxs pkg (positionUnit pos) .core (s.ctxsWith (onClu d c))).modPkg pkg (fun k => (k.retire pos).awaitPass)).report pkg
      ⟨none, (positionUnit pos), .retirement⟩)
  | .leaf d c => .next (s.failCtxs pkg (d.toNat * 2 + c.toNat) .leaf (s.ctxsWith (onClu d c)))
  | .stack n =>
    .next ((s.failCtxs pkg n.toNat .stack (s.ctxsWithMem (fun p a => p == pkg && stackOf a == n.toNat))).modPkg pkg (fun k =>
      { k with outOfService := true }))
  | .peer p =>
    .next ((s.failCtxs pkg p.toNat .peer (union' (s.ctxsAt p) (s.ctxsWithMem (fun q _ => q == p)))).modPkg p (fun k =>
      { k with outOfService := true }))
where
  /-- The union of two lists of contexts. -/
  union' (a b : List CtxId) : List CtxId := a ++ b.filter (fun x => !a.contains x)

/-- HOST_ATTACHMENT_FAILURE (R392): CXL uncorrectable-error reporting is raised. -/
def execHostAttachmentFailure (pkg : PkgNo) (s : State) : Host.Outcome State Fault Refusal :=
  .next (s.modPkg pkg (fun k => { k with hostError := true }))

/-! ### The die-to-die link (R291, R305) -/

/-- FLIT_REPLAY (R291, R356): a replay has no visible effect. -/
def execFlitReplay (_pkg : PkgNo) (_port : Option (BitVec 4)) (s : State) : Host.Outcome State Fault Refusal := .next s

/-- D2D_LINK_FAILURE (R305): contexts with a team on the package end; it takes no placement until it is reset. -/
def execD2dLinkFailure (pkg : PkgNo) (s : State) : Host.Outcome State Fault Refusal :=
  .next ((s.failCtxs pkg 0 .link (s.ctxsAt pkg)).modPkg pkg (fun k =>
    { k with linkUp := false, linkComp := false, outOfService := true }))

/-- D2D_LINK_TRAINING (R291, Table 12.3): both ends advertise compressed transfers. -/
def execD2dLinkTraining (pkg : PkgNo) (s : State) : Host.Outcome State Fault Refusal :=
  .next (s.modPkg pkg (fun k => { k with linkUp := true, linkComp := true }))

/-! ### Clock, temperature, power (R4, R393) -/

/-- SUPPLY_SAG (R4): the die's clock is stretched. -/
def execSupplySag (pkg : PkgNo) (die : Bool) (s : State) : Host.Outcome State Fault Refusal :=
  .next (s.modPkg pkg (fun k => k.putDie die { (k.die die) with sagAt := some s.now }))

/-- The clock of a die after a time without sag. -/
def Die.calm (d : Die) (now : Nat) : Die :=
  match d.sagAt with
  | some st => if st + 1000 ≤ now then { d with sagAt := none } else d
  | none => d

/-- CLOCK_RETURN (R393): after 1,000 cycles without sag. -/
def execClockReturn (pkg : PkgNo) (die : Bool) (s : State) : Host.Outcome State Fault Refusal :=
  .next (s.modPkg pkg (fun k => k.putDie die ((k.die die).calm s.now)))

/-- JUNCTION_105 (R393): no new group is placed. -/
def execJunction105 (pkg : PkgNo) (s : State) : Host.Outcome State Fault Refusal :=
  .next (s.modPkg pkg (fun k => { k with hot := true }))

/-- JUNCTION_BELOW_100 (R393). -/
def execJunctionBelow100 (pkg : PkgNo) (s : State) : Host.Outcome State Fault Refusal :=
  .next (s.modPkg pkg (fun k => { k with hot := false }))

/-- Whether a key lies in a package: its device memory, its scratchpads. -/
def keyOn (p : PkgNo) (k : Nat) : Bool :=
  (isDevKey k && keyPkg k == p) ||
  (decide (scrKey (p.toNat * 1024) 0 ≤ k) && decide (k < scrKey (p.toNat * 1024 + 1024) 0))

/-- A package loses its power: nothing that it held survives but its flash. -/
def State.powerOff (s : State) (p : PkgNo) : State :=
  (s.remap (fun k => if keyOn p k then none else some k)).modPkg p (fun k => k.restart .off)

/-- JUNCTION_115 (R393): every context ends and the package removes its own power. -/
def execJunction115 (pkg : PkgNo) (s : State) : Host.Outcome State Fault Refusal :=
  .next ((s.endAll pkg .heat).powerOff pkg)

/-- STANDBY (R393): all power goes and no state survives. -/
def execStandby (pkg : PkgNo) (s : State) : Host.Outcome State Fault Refusal := .next ((s.endAll pkg .standby).powerOff pkg)

/-- WAKE (R393): a full boot. -/
def execWake (pkg : PkgNo) (s : State) : Host.Outcome State Fault Refusal :=
  if (s.pkg pkg).power == .off then .next (s.modPkg pkg (fun k => { k with power := .on }.boot)) else .next s

end Sys2Proof.Machine
end

