-- ==== Sys2Proof/Machine/Routes.lean ====
section
/-!
DEFINITION. Ports (R356, R357) and the loader's pass over route fixups (R73, R78, R79, R359, R394).
-/

namespace Sys2Proof.Machine

/-! ### Ports -/

/-- A port of a package. -/
def Pkg.port (k : Pkg) (n : BitVec 4) : Port := k.ports.get n.toFin
/-- Replaces a port. -/
def Pkg.putPort (k : Pkg) (n : BitVec 4) (x : Port) : Pkg := { k with ports := k.ports.set n.toFin x }

/-- Takes an up port down. -/
def Pkg.portDown (k : Pkg) (n : BitVec 4) : Pkg :=
  if (k.port n).mark = .up then k.putPort n { k.port n with mark := .down } else k

/-- Fabric messages on their way, with the context of their receiver. -/
def State.onWay (s : State) : List (CtxId × Msg) :=
  (s.teams ++ s.saved.map (·.team)).flatMap (fun t => (t.frq.filter (fun m => !m.delivered)).map (fun m => (t.ctx, m)))

/-- Whether the package routes between some packages cross a link, named by its two ends. -/
def State.routesCross (s : State) (a b : PkgNo × BitVec 4) (ps : List PkgNo) : Bool :=
  ps.any (fun p => ps.any (fun q => match s.tableRoute p q with
    | some r => r.contains a || r.contains b
    | none => false))

/-- Exchanges under way whose counts or rows travel over a link, with their contexts. -/
def State.exchangesOver (s : State) (a b : PkgNo × BitVec 4) : List CtxId :=
  s.exchanges.zipIdx.filterMap (fun e =>
    if e.1.joins.any (fun j => !j.done) && s.routesCross a b e.1.pkgs && s.pick (2 ^ 41 + e.2) 2 == 1 then
      (s.launch? e.1.launch).map (·.ctx)
    else none)

/-- Fabric barriers whose arrivals travel over a link, with their contexts. -/
def State.barsOver (s : State) (a b : PkgNo × BitVec 4) : List CtxId :=
  s.teams.filterMap (fun t => match t.wait with
    | .arrived true n _ => if s.routesCross a b (s.memberPkgs t n) && s.pick (2 ^ 43 + t.uid) 2 == 1 then some t.ctx else none
    | _ => none)

/-- The bytes that the copy row in progress of a team reads and writes. -/
def State.copyKeys (s : State) (t : Team) : List Nat :=
  match t.tiq, t.copies with
  | e :: _, c :: _ =>
    let i := e.tin s t false
    let n := (copyCount c.src c.srcWord).getD 0
    let got := fun (x : Chk (List Nat)) => match x with
      | .ok ks => ks
      | .error _ => []
    if c.rows ≤ c.row then []
    else if c.src.layout = 3 then
      (sparseBox c n).flatMap (fun b => got (i.sparseByte c.src .read .copy b.1) ++ got (i.sparseByte c.dst .write .copy b.2))
    else (copySites i c n).flatMap (fun x => got (x.map (fun y => y.src.keys ++ y.srcScale ++ y.dst.keys ++ y.dstScale ++ y.pad)))
  | _, _ => []

/-- Copies in progress on memory of another package whose way leads over a link, with their contexts. -/
def State.copiesOver (s : State) (a b : PkgNo × BitVec 4) : List CtxId :=
  s.teams.filterMap (fun t =>
    let ps := (((s.copyKeys t).filter isDevKey).map keyPkg).eraseDups
    if ps.any (fun p => s.routesCross a b [t.pkg, p]) && s.pick (2 ^ 44 + t.uid) 2 == 1 then some t.ctx else none)

/-- The contexts that lose a transfer when a link goes down: of the messages, exchanges, barriers and copies whose way leads
over it, a free choice is crossing at that moment. -/
def State.lostAt (s : State) (a b : PkgNo × BitVec 4) : List CtxId :=
  ((s.onWay.filter (fun cm => (cm.2.hops.contains a || cm.2.hops.contains b) && s.pick (2 ^ 40 + cm.2.order) 2 == 1)).map
    (·.1) ++ s.exchangesOver a b ++ s.barsOver a b ++ s.copiesOver a b).eraseDups

/-- An up link goes down at both ends; a transfer that crosses it is lost and its context ends (R357). -/
def State.dropLink (s : State) (pkg : PkgNo) (port : BitVec 4) : State :=
  let x := (s.pkg pkg).port port
  if x.mark = .up then
    let s1 := (s.modPkg pkg (fun k => k.portDown port)).modPkg x.peer (fun k =>
      if (k.port x.peerPort).peer = pkg ∧ (k.port x.peerPort).peerPort = port then k.portDown x.peerPort else k)
    s1.failCtxs pkg port.toNat .port (s.lostAt (pkg, port) (x.peer, x.peerPort))
  else s

/-- PORT_DOWN (R357). -/
def execPortDown (pkg : PkgNo) (port : BitVec 4) (s : State) : Host.Outcome State Fault Refusal := .next (s.dropLink pkg port)

/-- PORT_RETIRE (R357, R392): the routes of every package may change (R79, R359). -/
def execPortRetire (pkg : PkgNo) (port : BitVec 4) (s : State) : Host.Outcome State Fault Refusal :=
  let x := (s.pkg pkg).port port
  if x.mark = .down then
    let s := s.modPkg pkg (fun k => k.putPort port { x with mark := .retired })
    .next ({ s with pkgs := s.pkgs.map (fun (kp : Nat × Pkg) => (kp.1, kp.2.awaitPass)) }.report pkg ⟨none, port.toNat, .port⟩)
  else .next s

/-- PORT_TRAINING (R356, R357, Table 12.3): a port comes up, or fails to train and is down. -/
def execPortTraining (pkg : PkgNo) (port : BitVec 4) (peer : PkgNo) (peerPort : BitVec 4) (up comp : Bool) (s : State) :
    Host.Outcome State Fault Refusal :=
  if peer = pkg ∨ ((s.pkg pkg).port port).mark = .retired then .next s
  else .next ((if up then s else s.dropLink pkg port).modPkg pkg (fun k =>
    k.putPort port ⟨if up then .up else .down, peer, peerPort, up && comp⟩))

/-! ### Package routes -/

/-- The route literal of some hops (R77). -/
def routeWord (ps : List (BitVec 4)) : Word :=
  BitVec.ofNat 64 (ps.length * 2 ^ 56 + ps.zipIdx.foldl (fun a pi => a + pi.1.toNat * 16 ^ pi.2) 0)

/-- The literal that the package route table of `p` holds for package number `q` (R359). DESIGN CHOICE (log 117): beyond the
table's 4,096 entries the spec states no value, and the no-route value stands. -/
def State.fabLiteral (s : State) (p : PkgNo) (q : Nat) : Word :=
  if 4096 ≤ q then noRoute
  else match s.tableRoute p (BitVec.ofNat 12 q) with
  | some r => routeWord (r.map (·.2))
  | none => noRoute

/-! ### The pass -/

/-- The logical core that a turn table names for core `c`, or none outside the grid (R73). -/
def turnTarget (f : RouteFixup) (c : Nat) : Option Nat :=
  if f.abs then some (f.tgt.extractLsb' 0 8).toNat
  else
    let y := ((c / 16 : Nat) : Int) + (f.tgt.extractLsb' 8 8).toInt
    let x := ((c % 16 : Nat) : Int) + (f.tgt.extractLsb' 0 8).toInt
    if 0 ≤ y ∧ y < 16 ∧ 0 ≤ x ∧ x < 16 then some (y.toNat * 16 + x.toNat) else none

/-- Entry `n` of a turn table: die, cluster and core of the issuing core. -/
def State.turnEntry (s : State) (p : PkgNo) (f : RouteFixup) (n : Nat) : Word :=
  let m := ((s.pkg p).die (decide (512 ≤ n))).map (decide (256 ≤ n % 512))
  match turnTarget f (n % 256) with
  | some c => chosenTurn m (n % 256) c
  | none => noRoute

/-- The doublewords that a record patches in (R78). -/
def State.fixupWords (s : State) (p : PkgNo) (f : RouteFixup) : List Word :=
  match f.kind.toNat with
  | 2 => (List.range 1024).map (s.turnEntry p f)
  | 3 => [s.fabLiteral p (f.tgt.toNat % 4096)]
  | 4 => (List.range f.count.toNat).map (fun i => s.fabLiteral p (f.tgt.toNat % 4096 + i))
  | _ => []

/-- The address of a host access. -/
def targetAddr (h : HostTarget) : Nat :=
  match h with
  | .dev _ pa => pa.toNat
  | .host a => a.toNat

/-- Where doubleword `n` that a record patches stands: in the page of its location, 4 KiB pages being mapped apart. -/
def fixupPlace (f : RouteFixup) (n : Nat) : Option (HostTarget × Nat) :=
  let o := ((f.locs.head?.map targetAddr).getD 0) % 4096 + 8 * n
  if o / 4096 = 0 then f.locs.head?.map (fun h => (h, 8 * n)) else (f.locs[o / 4096]?).map (fun h => (h, o % 4096))

/-- Writes the doublewords of a record on the host path, from number `n` on. -/
def State.patchWords (s : State) (f : RouteFixup) (n : Nat) : List Word → State
  | [] => s
  | w :: ws =>
    (match fixupPlace f n with
     | some (h, off) => s.hostCells ((natToBytes 8 w.toNat).zipIdx.map (fun (bi : Byte × Nat) => (targetKey h (off + bi.2), bi.1)))
     | none => s).patchWords f (n + 1) ws

/-- The pass is done for some contexts: firmware no longer holds their launches. -/
def Pkg.passDone (k : Pkg) (cs : List CtxId) : Pkg :=
  { k with routed := k.routed ++ cs.filter (fun c => !k.routed.contains c),
           awaiting := k.awaiting.filter (fun c => !cs.contains c) }

/-- Teams to be placed or resumed on a package read what a pass has written since `first` (R79, log 74): no team ever reads a
route of before it. -/
def State.showPass (s : State) (p : PkgNo) (cs : List CtxId) (first : Nat) : State :=
  let ids := (s.writes.filter (fun w => decide (first ≤ w.id))).map (·.id)
  { s with
    launches := s.launches.map (fun l => if cs.contains l.ctx then { l with view0 := union l.view0 ids } else l),
    saved := s.saved.map (fun x => if cs.contains x.team.ctx && x.team.pkg == p then
      { x with team := { x.team with views := x.team.views.map (fun v => union v ids) } } else x) }

/-- ROUTE_FIXUP_PASS (R79, log 74): while no context launched from the image is placed on the package, every patched doubleword is
written from the current maps, and no other byte changes. The pass is one step; firmware holds the launches of the image until
the first one, and after a retirement until the next. -/
def execRouteFixupPass (pkg : PkgNo) (fixups : List RouteFixup) (s : State) : Host.Outcome State Fault Refusal :=
  if s.teams.any (fun t => t.pkg == pkg && fixups.any (fun f => f.ctxs.contains t.ctx)) then .next s
  else
    let cs := (fixups.flatMap (·.ctxs)).eraseDups
    let z := fixups.foldl (fun s f => s.patchWords f 0 (s.fixupWords pkg f)) s
    .next ((z.modPkg pkg (fun k => k.passDone cs)).showPass pkg cs s.nextId)

end Sys2Proof.Machine
end

