-- ==== Sys2Proof/Machine/Scalar.lean ====
section
/-!
DEFINITION. Meanings of the scalar instructions that are no control transfers: arithmetic and logic (R122, R123), counts
(R124), guards (R125 to R127), constants and addresses (R128, R129), loads and stores (R130, R131, R118), the branch queue
and the special registers (R134, R136), NOP and hints (R141, R55).
-/

namespace Sys2Proof.Machine

/-! ### Arithmetic and logic -/

/-- Writes an ALU result, and SATF when it saturated (R123). -/
def Team.aluWrite (t : Team) (op : AluOp) (m : AluMode) (sd sa : SReg) (b : Opd) : Team :=
  let r := alu op m (t.rs sa) (t.opd b)
  let t := t.wrS sd r.1
  if r.2 then t.setSat else t

/-- NOP (R141). -/
def execNop (s : State) : Host.Outcome State Fault Refusal := s.frontTeam .nop (fun t => t)

/-- A hint (R55): no effect. -/
def execHint (fmt : HintFmt) (op : BitVec 4) (rest : BitVec 48) (s : State) : Host.Outcome State Fault Refusal :=
  s.frontTeam (.hint fmt op rest) (fun t => t)

/-- ADD (R123). -/
def execAdd (m : AluMode) (sd sa : SReg) (b : Opd) (s : State) : Host.Outcome State Fault Refusal :=
  s.frontTeam (.add m sd sa b) (fun t => t.aluWrite .add m sd sa b)

/-- SUB (R123). -/
def execSub (m : AluMode) (sd sa : SReg) (b : Opd) (s : State) : Host.Outcome State Fault Refusal :=
  s.frontTeam (.sub m sd sa b) (fun t => t.aluWrite .sub m sd sa b)

/-- MUL (R123). -/
def execMul (m : AluMode) (sd sa : SReg) (b : Opd) (s : State) : Host.Outcome State Fault Refusal :=
  s.frontTeam (.mul m sd sa b) (fun t => t.aluWrite .mul m sd sa b)

/-- MULH (R123). -/
def execMulh (m : AluMode) (sd sa : SReg) (b : Opd) (s : State) : Host.Outcome State Fault Refusal :=
  s.frontTeam (.mulh m sd sa b) (fun t => t.aluWrite .mulh m sd sa b)

/-- DIV (R123). -/
def execDiv (m : AluMode) (sd sa : SReg) (b : Opd) (s : State) : Host.Outcome State Fault Refusal :=
  s.frontTeam (.div m sd sa b) (fun t => t.aluWrite .div m sd sa b)

/-- REM (R123). -/
def execRem (m : AluMode) (sd sa : SReg) (b : Opd) (s : State) : Host.Outcome State Fault Refusal :=
  s.frontTeam (.rem m sd sa b) (fun t => t.aluWrite .rem m sd sa b)

/-- AND (R123). -/
def execAnd (m : AluMode) (sd sa : SReg) (b : Opd) (s : State) : Host.Outcome State Fault Refusal :=
  s.frontTeam (.and m sd sa b) (fun t => t.aluWrite .and m sd sa b)

/-- OR (R123). -/
def execOr (m : AluMode) (sd sa : SReg) (b : Opd) (s : State) : Host.Outcome State Fault Refusal :=
  s.frontTeam (.or m sd sa b) (fun t => t.aluWrite .or m sd sa b)

/-- XOR (R123). -/
def execXor (m : AluMode) (sd sa : SReg) (b : Opd) (s : State) : Host.Outcome State Fault Refusal :=
  s.frontTeam (.xor m sd sa b) (fun t => t.aluWrite .xor m sd sa b)

/-- SHL (R123). -/
def execShl (m : AluMode) (sd sa : SReg) (b : Opd) (s : State) : Host.Outcome State Fault Refusal :=
  s.frontTeam (.shl m sd sa b) (fun t => t.aluWrite .shl m sd sa b)

/-- SHR (R123). -/
def execShr (m : AluMode) (sd sa : SReg) (b : Opd) (s : State) : Host.Outcome State Fault Refusal :=
  s.frontTeam (.shr m sd sa b) (fun t => t.aluWrite .shr m sd sa b)

/-- SRA (R123). -/
def execSra (m : AluMode) (sd sa : SReg) (b : Opd) (s : State) : Host.Outcome State Fault Refusal :=
  s.frontTeam (.sra m sd sa b) (fun t => t.aluWrite .sra m sd sa b)

/-- MIN (R123). -/
def execMin (m : AluMode) (sd sa : SReg) (b : Opd) (s : State) : Host.Outcome State Fault Refusal :=
  s.frontTeam (.min m sd sa b) (fun t => t.aluWrite .min m sd sa b)

/-- MAX (R123). -/
def execMax (m : AluMode) (sd sa : SReg) (b : Opd) (s : State) : Host.Outcome State Fault Refusal :=
  s.frontTeam (.max m sd sa b) (fun t => t.aluWrite .max m sd sa b)

/-- CLZ (R124). -/
def execClz (w : Bool) (sd sa : SReg) (s : State) : Host.Outcome State Fault Refusal :=
  s.frontTeam (.clz w sd sa) (fun t => t.wrS sd (BitVec.ofNat 64 (clzBits (cntWidth w) (t.rs sa).toNat)))

/-- CTZ (R124). -/
def execCtz (w : Bool) (sd sa : SReg) (s : State) : Host.Outcome State Fault Refusal :=
  s.frontTeam (.ctz w sd sa) (fun t => t.wrS sd (BitVec.ofNat 64 (ctzNat (cntWidth w) (t.rs sa).toNat)))

/-- POPC (R124). -/
def execPopc (w : Bool) (sd sa : SReg) (s : State) : Host.Outcome State Fault Refusal :=
  s.frontTeam (.popc w sd sa) (fun t => t.wrS sd (BitVec.ofNat 64 (popBits (cntWidth w) (t.rs sa).toNat)))

/-! ### Guards and selection -/

/-- SEL (R125). -/
def execSel (k : GReg) (sd sa : SReg) (b : Opd) (s : State) : Host.Outcome State Fault Refusal :=
  s.frontTeam (.sel k sd sa b) (fun t => t.wrS sd (if t.rg k then t.rs sa else t.opd b))

/-- CMP (R126). -/
def execCmp (cc : BitVec 3) (cb : BitVec 2) (gk : GReg) (sa : SReg) (b : Opd) (s : State) :
    Host.Outcome State Fault Refusal :=
  s.frontTeam (.cmp cc cb gk sa b) (fun t => t.wrG gk (cmpCombine cb (t.rg gk) (cmpCond cc (t.rs sa) (t.opd b))))

/-- GOP (R127). -/
def execGop (op : BitVec 3) (gd ga gb : GReg) (s : State) : Host.Outcome State Fault Refusal :=
  s.frontTeam (.gop op gd ga gb) (fun t => t.wrG gd (gopVal op (t.rg ga) (t.rg gb)))

/-! ### Constants and addresses -/

/-- The address of LEA (R129). -/
def Team.leaVal (t : Team) (form : LeaForm) : Word :=
  match form with
  | .index sa sb n => t.rs sa + t.rs sb <<< n.toNat
  | .base sa imm => t.rs sa + imm.signExtend 64
  | .label imm => t.pc + imm.signExtend 64

/-- LEA (R129). -/
def execLea (sd : SReg) (form : LeaForm) (s : State) : Host.Outcome State Fault Refusal :=
  s.frontTeam (.lea sd form) (fun t => t.wrS sd (t.leaVal form))

/-- LI, S form (R128). -/
def execLi (sd : SReg) (imm : BitVec 32) (s : State) : Host.Outcome State Fault Refusal :=
  s.frontTeam (.li sd imm) (fun t => t.wrS sd (imm.signExtend 64))

/-- LI, X form (R128). -/
def execLiX (sd : SReg) (lit : Word) (s : State) : Host.Outcome State Fault Refusal :=
  s.frontTeam (.liX sd lit) (fun t => t.wrS sd lit)

/-- LIH (R128). -/
def execLih (sd : SReg) (imm : BitVec 32) (s : State) : Host.Outcome State Fault Refusal :=
  s.frontTeam (.lih sd imm) (fun t => t.wrS sd (imm ++ (t.rs sd).extractLsb' 0 32))

/-! ### Loads and stores -/

/-- The keys that a scalar load reads: alignment, translation, access, errors (R130). -/
def State.loadKeys (s : State) (t : Team) (a : Word) (n : Nat) : Chk (List Nat) := do
  let ks ← s.scalarKeys t .read .team a n
  s.eccChk .team (a.extractLsb' 0 52).toNat ks
  .ok ks

/-- The value of a scalar load. -/
def State.loadValue (s : State) (t : Team) (ks : List Nat) (z : BitVec 2) (u : Bool) : Word :=
  extendLoad z u (bytesToNat (s.loadBytes t ks).1)

/-- LD (R130). -/
def execLd (z : BitVec 2) (u : Bool) (sd sa : SReg) (b : Opd) (s : State) : Host.Outcome State Fault Refusal :=
  s.front (.ld z u sd sa b) (fun t =>
    chkRun s (s.loadKeys t (t.rs sa + t.opd b) (2 ^ z.toNat)) (fun ks =>
      .done ((s.rackKeys ks).modTeam t.uid (fun t' => (t'.wrS sd (s.loadValue t ks z u)).advance 8))))

/-- A scalar store (R118): held while tile-side work of an older word or of the same word may fault, else performed. -/
def State.putStore (s : State) (t : Team) (cells : List Host.Cell) : State :=
  if t.clear && t.pairing.isNone then s.storeAt t.uid t.seqHere cells
  else s.modTeam t.uid (fun u => { u with sbuf := u.sbuf ++ [⟨t.seqHere, cells⟩] })

/-- ST (R130, R118). -/
def execSt (z : BitVec 2) (sd sa : SReg) (b : Opd) (s : State) : Host.Outcome State Fault Refusal :=
  s.front (.st z sd sa b) (fun t =>
    chkRun s (s.scalarKeys t .write .team (t.rs sa + t.opd b) (2 ^ z.toNat)) (fun ks =>
      .done ((s.putStore t (ks.zip (natToBytes (2 ^ z.toNat) (t.rs sd).toNat))).advance t.uid 8)))

/-- LDFF's truncation of EXT and its FSR (R131). -/
def Team.ldffEnd (t : Team) (stop : Option (Nat × BitVec 8)) : Team :=
  match stop with
  | some (i, k) => (t.wrSpr 0 (BitVec.ofNat 64 i)).wrSpr 2 (fsrOf i k)
  | none => t.wrSpr 2 0

/-- LDFF (R131). -/
def execLdff (z : BitVec 2) (u : Bool) (sd sa : SReg) (b : Opd) (s : State) : Host.Outcome State Fault Refusal :=
  s.front (.ldff z u sd sa b) (fun t =>
    let a := t.rs sa + t.opd b
    if t.ext = 0 then .done (s.putTeam ((t.wrSpr 2 0).advance 8))
    else chkRun s (s.loadKeys t a (2 ^ z.toNat)) (fun ks =>
      chkRun s (s.probe t a (2 ^ z.toNat) (t.ext.toNat - 1) 1) (fun stop =>
        .done ((s.rackKeys ks).modTeam t.uid (fun t' =>
          ((t'.wrS sd (s.loadValue t ks z u)).ldffEnd stop).advance 8)))))

/-! ### The branch queue and the special registers -/

/-- BQPOP (R134, R113). -/
def execBqpop (sd : SReg) (s : State) : Host.Outcome State Fault Refusal :=
  s.front (.bqpop sd) (fun t =>
    if t.credits = 0 then .fail s (FaultInfo.plain kIllOp .team)
    else match t.bq with
    | [] => .stall s
    | v :: vs => .done (s.putTeam
        ((({ (t.log (.pop v)) with bq := vs, credits := t.credits - 1 } : Team).wrS sd v).advance 8)))

/-- MFS (R136). -/
def execMfs (sd : SReg) (n : BitVec 5) (s : State) : Host.Outcome State Fault Refusal :=
  s.frontTeam (.mfs sd n) (fun t => t.wrS sd (s.sprRead t n))

/-- Whether a value fits the fields of a special register (R136, R31). -/
def sprFits (n : BitVec 5) (v : Word) : Bool :=
  v &&& ~~~ sprMask n == 0 && !(n == 3 && decide (6 ≤ (v.extractLsb' 0 3).toNat))

/-- MTS (R136). -/
def execMts (n : BitVec 5) (sa : SReg) (s : State) : Host.Outcome State Fault Refusal :=
  s.front (.mts n sa) (fun t =>
    if sprFits n (t.rs sa) then .done (s.putTeam ((t.wrSpr n (t.rs sa)).advance 8))
    else .fail s (FaultInfo.plain kIllOp .team))

end Sys2Proof.Machine
end

