-- ==== Sys2Proof/Machine/TileExec.lean ====
section
/-!
DEFINITION. Meanings of the tile space (05_core_tiles.md): each is placed in the TIQ and run by the
block sequencer; its checks and its work are its arms of `tileAccept` and `tileRun`.
-/

namespace Sys2Proof.Machine

/-- TADD (R176). -/
def execTadd (sat : Bool) (rm : Rm) (td : TReg) (ta tb : Src) (s : State) : Host.Outcome State Fault Refusal :=
  s.tileExec (.tadd sat rm td ta tb)

/-- TSUB (R176). -/
def execTsub (sat : Bool) (rm : Rm) (td : TReg) (ta tb : Src) (s : State) : Host.Outcome State Fault Refusal :=
  s.tileExec (.tsub sat rm td ta tb)

/-- TMUL (R176). -/
def execTmul (sat : Bool) (rm : Rm) (td : TReg) (ta tb : Src) (s : State) : Host.Outcome State Fault Refusal :=
  s.tileExec (.tmul sat rm td ta tb)

/-- TFMA (R176). -/
def execTfma (sat : Bool) (rm : Rm) (td : TReg) (ta tb : Src) (s : State) : Host.Outcome State Fault Refusal :=
  s.tileExec (.tfma sat rm td ta tb)

/-- TMAX (R176, R33). -/
def execTmax (td : TReg) (ta tb : Src) (s : State) : Host.Outcome State Fault Refusal :=
  s.tileExec (.tmax td ta tb)

/-- TMIN (R176, R33). -/
def execTmin (td : TReg) (ta tb : Src) (s : State) : Host.Outcome State Fault Refusal :=
  s.tileExec (.tmin td ta tb)

/-- TCMP (R177). -/
def execTcmp (cc : BitVec 3) (td : TReg) (ta tb : Src) (s : State) : Host.Outcome State Fault Refusal :=
  s.tileExec (.tcmp cc td ta tb)

/-- TSEL (R177). -/
def execTsel (td : TReg) (ta tb : Src) (s : State) : Host.Outcome State Fault Refusal :=
  s.tileExec (.tsel td ta tb)

/-- TMOV (R169). -/
def execTmov (td : TReg) (ta : Src) (s : State) : Host.Outcome State Fault Refusal :=
  s.tileExec (.tmov td ta)

/-- TCVT (R173). -/
def execTcvt (rm : Rm) (nsat sat : Bool) (td : TReg) (ta : Src) (s : State) : Host.Outcome State Fault Refusal :=
  s.tileExec (.tcvt rm nsat sat td ta)

/-- TLD (R156, R167). -/
def execTld (td : TReg) (h : Handle) (sx : SReg) (s : State) : Host.Outcome State Fault Refusal :=
  s.tileExec (.tld td h sx)

/-- TST (R157, R167). -/
def execTst (ta : TReg) (h : Handle) (sx : SReg) (s : State) : Host.Outcome State Fault Refusal :=
  s.tileExec (.tst ta h sx)

/-- TLDFF (R158). -/
def execTldff (td : TReg) (h : Handle) (sx : SReg) (s : State) : Host.Outcome State Fault Refusal :=
  s.tileExec (.tldff td h sx)

/-- TTRN (R171). -/
def execTtrn (td : TReg) (ta : Src) (s : State) : Host.Outcome State Fault Refusal :=
  s.tileExec (.ttrn td ta)

/-- TDECL (R144, R155). -/
def execTdecl (td : TReg) (h : Handle) (s : State) : Host.Outcome State Fault Refusal :=
  s.tileExec (.tdecl td h)

/-- TREL (R155). -/
def execTrel (td : TReg) (s : State) : Host.Outcome State Fault Refusal :=
  s.tileExec (.trel td)

/-- TEXT (R155). -/
def execText (ta : Src) (s : State) : Host.Outcome State Fault Refusal :=
  s.tileExec (.text ta)

/-- TGTH (R159). -/
def execTgth (unordered : Bool) (kind : BitVec 2) (td : TReg) (ti : Src) (h : Handle) (sx : SReg) (s : State) : Host.Outcome State Fault Refusal :=
  s.tileExec (.tgth unordered kind td ti h sx)

/-- TSCT (R160). -/
def execTsct (kind : BitVec 2) (ta ti : Src) (h : Handle) (sx : SReg) (s : State) : Host.Outcome State Fault Refusal :=
  s.tileExec (.tsct kind ta ti h sx)

/-- TCOPY in tag mode (R161). -/
def execTcopy (tag : BitVec 4) (h : Handle) (sd ss : SReg) (s : State) : Host.Outcome State Fault Refusal :=
  s.tileExec (.tcopy tag h sd ss)

/-- TCOPY.str (R164). -/
def execTcopyStr (q : QReg) (h : Handle) (ss : SReg) (s : State) : Host.Outcome State Fault Refusal :=
  s.tileExec (.tcopyStr q h ss)

/-- TWAIT (R163). -/
def execTwait (all : Bool) (tag : BitVec 4) (s : State) : Host.Outcome State Fault Refusal :=
  s.tileExec (.twait all tag)

/-- QBIND (R164). -/
def execQbind (q : QReg) (t : TReg) (s : State) : Host.Outcome State Fault Refusal :=
  s.tileExec (.qbind q t)

/-- QREL (R165). -/
def execQrel (q : QReg) (s : State) : Host.Outcome State Fault Refusal :=
  s.tileExec (.qrel q)

/-- TFILL (R170). -/
def execTfill (td : TReg) (sa : SReg) (s : State) : Host.Outcome State Fault Refusal :=
  s.tileExec (.tfill td sa)

/-- TIOTA (R170). -/
def execTiota (td : TReg) (sa sb : SReg) (s : State) : Host.Outcome State Fault Refusal :=
  s.tileExec (.tiota td sa sb)

/-- TSLIDE (R172). -/
def execTslide (dir : BitVec 2) (fill : Option Src) (td : TReg) (ta : Src) (n : BitVec 6) (s : State) : Host.Outcome State Fault Refusal :=
  s.tileExec (.tslide dir fill td ta n)

/-- TPACK (R168). -/
def execTpack (td : TReg) (ta : Src) (s : State) : Host.Outcome State Fault Refusal :=
  s.tileExec (.tpack td ta)

/-- TUNPK (R168). -/
def execTunpk (td : TReg) (ta : Src) (s : State) : Host.Outcome State Fault Refusal :=
  s.tileExec (.tunpk td ta)

/-- TQNT (R174). -/
def execTqnt (rm : Rm) (nsat : Bool) (td : TReg) (ta : Src) (s : State) : Host.Outcome State Fault Refusal :=
  s.tileExec (.tqnt rm nsat td ta)

/-- TDQT (R175). -/
def execTdqt (rm : Rm) (scale : Option EReg) (td : TReg) (ta : Src) (s : State) : Host.Outcome State Fault Refusal :=
  s.tileExec (.tdqt rm scale td ta)

/-- MAP (R178). -/
def execMap (cv : Conv) (cnt : BitVec 2) (td : TReg) (ta tb : Src) (sa sb : SReg) (fn : BitVec 8) (s : State) : Host.Outcome State Fault Refusal :=
  s.tileExec (.map cv cnt td ta tb sa sb fn)

/-- REDUCE (R179, R37). -/
def execReduce (col two : Bool) (cv : Conv) (td : TReg) (ta tb : Src) (sa sb : SReg) (fn : StepFn) (s : State) : Host.Outcome State Fault Refusal :=
  s.tileExec (.reduce col two cv td ta tb sa sb fn)

/-- SCAN (R179, R38). -/
def execScan (col two : Bool) (cv : Conv) (td : TReg) (ta tb : Src) (sa sb : SReg) (fn : StepFn) (s : State) : Host.Outcome State Fault Refusal :=
  s.tileExec (.scan col two cv td ta tb sa sb fn)

/-- TRDS (R180). -/
def execTrds (two : Bool) (rm : Rm) (ta tb : Src) (sa sb : SReg) (fn : StepFn) (s : State) : Host.Outcome State Fault Refusal :=
  s.tileExec (.trds two rm ta tb sa sb fn)

end Sys2Proof.Machine
end

