-- ==== Sys2Proof/Machine/Dispatch.lean ====
section
/-!
DEFINITION. Dispatch: one arm per constructor of `Instr`, each a call of its meaning.
-/

namespace Sys2Proof.Machine

/-- The meaning of every step of spec/opcode_table.json. -/
def exec (i : Instr) (s : State) : Host.Outcome State Fault Refusal :=
  match i with
  | .nop => Sys2Proof.Machine.execNop s
  | .hint fmt op rest => Sys2Proof.Machine.execHint fmt op rest s
  | .add m sd sa b => Sys2Proof.Machine.execAdd m sd sa b s
  | .sub m sd sa b => Sys2Proof.Machine.execSub m sd sa b s
  | .mul m sd sa b => Sys2Proof.Machine.execMul m sd sa b s
  | .mulh m sd sa b => Sys2Proof.Machine.execMulh m sd sa b s
  | .div m sd sa b => Sys2Proof.Machine.execDiv m sd sa b s
  | .rem m sd sa b => Sys2Proof.Machine.execRem m sd sa b s
  | .and m sd sa b => Sys2Proof.Machine.execAnd m sd sa b s
  | .or m sd sa b => Sys2Proof.Machine.execOr m sd sa b s
  | .xor m sd sa b => Sys2Proof.Machine.execXor m sd sa b s
  | .shl m sd sa b => Sys2Proof.Machine.execShl m sd sa b s
  | .shr m sd sa b => Sys2Proof.Machine.execShr m sd sa b s
  | .sra m sd sa b => Sys2Proof.Machine.execSra m sd sa b s
  | .min m sd sa b => Sys2Proof.Machine.execMin m sd sa b s
  | .max m sd sa b => Sys2Proof.Machine.execMax m sd sa b s
  | .clz w sd sa => Sys2Proof.Machine.execClz w sd sa s
  | .ctz w sd sa => Sys2Proof.Machine.execCtz w sd sa s
  | .popc w sd sa => Sys2Proof.Machine.execPopc w sd sa s
  | .sel k sd sa b => Sys2Proof.Machine.execSel k sd sa b s
  | .cmp cc cb gk sa b => Sys2Proof.Machine.execCmp cc cb gk sa b s
  | .gop op gd ga gb => Sys2Proof.Machine.execGop op gd ga gb s
  | .lea sd form => Sys2Proof.Machine.execLea sd form s
  | .ld z u sd sa b => Sys2Proof.Machine.execLd z u sd sa b s
  | .st z sd sa b => Sys2Proof.Machine.execSt z sd sa b s
  | .storePerform gid => Sys2Proof.Machine.execStorePerform gid s
  | .ldff z u sd sa b => Sys2Proof.Machine.execLdff z u sd sa b s
  | .bqpop sd => Sys2Proof.Machine.execBqpop sd s
  | .mfs sd n => Sys2Proof.Machine.execMfs sd n s
  | .mts n sa => Sys2Proof.Machine.execMts n sa s
  | .li sd imm => Sys2Proof.Machine.execLi sd imm s
  | .liX sd lit => Sys2Proof.Machine.execLiX sd lit s
  | .lih sd imm => Sys2Proof.Machine.execLih sd imm s
  | .br off => Sys2Proof.Machine.execBr off s
  | .jmp sa imm => Sys2Proof.Machine.execJmp sa imm s
  | .call sd tgt => Sys2Proof.Machine.execCall sd tgt s
  | .ret sa => Sys2Proof.Machine.execRet sa s
  | .loop sd off => Sys2Proof.Machine.execLoop sd off s
  | .drain upd copy tiq => Sys2Proof.Machine.execDrain upd copy tiq s
  | .yield sd off => Sys2Proof.Machine.execYield sd off s
  | .exit sd => Sys2Proof.Machine.execExit sd s
  | .shapeSet sd => Sys2Proof.Machine.execShapeSet sd s
  | .shapeInv sd => Sys2Proof.Machine.execShapeInv sd s
  | .yieldDone sd => Sys2Proof.Machine.execYieldDone sd s
  | .regionSet sd => Sys2Proof.Machine.execRegionSet sd s
  | .regionRel sd => Sys2Proof.Machine.execRegionRel sd s
  | .regionStat sd => Sys2Proof.Machine.execRegionStat sd s
  | .vntSet sd => Sys2Proof.Machine.execVntSet sd s
  | .vntRel sd => Sys2Proof.Machine.execVntRel sd s
  | .vntInv sd => Sys2Proof.Machine.execVntInv sd s
  | .svcUnassigned sd n => Sys2Proof.Machine.execSvcUnassigned sd n s
  | .trap code => Sys2Proof.Machine.execTrap code s
  | .brk code => Sys2Proof.Machine.execBrk code s
  | .tiqAccept gid => Sys2Proof.Machine.execTiqAccept gid s
  | .microOperationIssue gid => Sys2Proof.Machine.execMicroOperationIssue gid s
  | .tileInstructionCompletion gid => Sys2Proof.Machine.execTileInstructionCompletion gid s
  | .tadd sat rm td ta tb => Sys2Proof.Machine.execTadd sat rm td ta tb s
  | .tsub sat rm td ta tb => Sys2Proof.Machine.execTsub sat rm td ta tb s
  | .tmul sat rm td ta tb => Sys2Proof.Machine.execTmul sat rm td ta tb s
  | .tfma sat rm td ta tb => Sys2Proof.Machine.execTfma sat rm td ta tb s
  | .tmax td ta tb => Sys2Proof.Machine.execTmax td ta tb s
  | .tmin td ta tb => Sys2Proof.Machine.execTmin td ta tb s
  | .tcmp cc td ta tb => Sys2Proof.Machine.execTcmp cc td ta tb s
  | .tsel td ta tb => Sys2Proof.Machine.execTsel td ta tb s
  | .tmov td ta => Sys2Proof.Machine.execTmov td ta s
  | .tcvt rm nsat sat td ta => Sys2Proof.Machine.execTcvt rm nsat sat td ta s
  | .tld td h sx => Sys2Proof.Machine.execTld td h sx s
  | .tst ta h sx => Sys2Proof.Machine.execTst ta h sx s
  | .tldff td h sx => Sys2Proof.Machine.execTldff td h sx s
  | .ttrn td ta => Sys2Proof.Machine.execTtrn td ta s
  | .tdecl td h => Sys2Proof.Machine.execTdecl td h s
  | .trel td => Sys2Proof.Machine.execTrel td s
  | .text ta => Sys2Proof.Machine.execText ta s
  | .tgth unordered kind td ti h sx => Sys2Proof.Machine.execTgth unordered kind td ti h sx s
  | .tsct kind ta ti h sx => Sys2Proof.Machine.execTsct kind ta ti h sx s
  | .tcopy tag h sd ss => Sys2Proof.Machine.execTcopy tag h sd ss s
  | .tcopyStr q h ss => Sys2Proof.Machine.execTcopyStr q h ss s
  | .copyCompletion gid => Sys2Proof.Machine.execCopyCompletion gid s
  | .twait all tag => Sys2Proof.Machine.execTwait all tag s
  | .qbind q t => Sys2Proof.Machine.execQbind q t s
  | .qrel q => Sys2Proof.Machine.execQrel q s
  | .tfill td sa => Sys2Proof.Machine.execTfill td sa s
  | .tiota td sa sb => Sys2Proof.Machine.execTiota td sa sb s
  | .tslide dir fill td ta n => Sys2Proof.Machine.execTslide dir fill td ta n s
  | .tpack td ta => Sys2Proof.Machine.execTpack td ta s
  | .tunpk td ta => Sys2Proof.Machine.execTunpk td ta s
  | .tqnt rm nsat td ta => Sys2Proof.Machine.execTqnt rm nsat td ta s
  | .tdqt rm scale td ta => Sys2Proof.Machine.execTdqt rm scale td ta s
  | .map cv cnt td ta tb sa sb fn => Sys2Proof.Machine.execMap cv cnt td ta tb sa sb fn s
  | .reduce col two cv td ta tb sa sb fn => Sys2Proof.Machine.execReduce col two cv td ta tb sa sb fn s
  | .scan col two cv td ta tb sa sb fn => Sys2Proof.Machine.execScan col two cv td ta tb sa sb fn s
  | .trds two rm ta tb sa sb fn => Sys2Proof.Machine.execTrds two rm ta tb sa sb fn s
  | .ldb dims ta so => Sys2Proof.Machine.execLdb dims ta so s
  | .ldbm dims h sx so => Sys2Proof.Machine.execLdbm dims h sx so s
  | .mma f ad ta ss sp en => Sys2Proof.Machine.execMma f ad ta ss sp en s
  | .mmam f ad h ss sx sp en => Sys2Proof.Machine.execMmam f ad h ss sx sp en s
  | .mmat ad ta ss sp => Sys2Proof.Machine.execMmat ad ta ss sp s
  | .aclr int ad => Sys2Proof.Machine.execAclr int ad s
  | .ard clr cv td as sw sx en => Sys2Proof.Machine.execArd clr cv td as sw sx en s
  | .awr add ad ta sw => Sys2Proof.Machine.execAwr add ad ta sw s
  | .amaxa acc td as sw => Sys2Proof.Machine.execAmaxa acc td as sw s
  | .tscl tgt gc en ta => Sys2Proof.Machine.execTscl tgt gc en ta s
  | .route td tc ti se => Sys2Proof.Machine.execRoute td tc ti se s
  | .ablk fp8 causal td ta ss sp k => Sys2Proof.Machine.execAblk fp8 causal td ta ss sp k s
  | .iwalk td tc tm ss sx => Sys2Proof.Machine.execIwalk td tc tm ss sx s
  | .send k sr sp team tag => Sys2Proof.Machine.execSend k sr sp team tag s
  | .sendt k ta sr team tag => Sys2Proof.Machine.execSendt k ta sr team tag s
  | .messageDelivery gid => Sys2Proof.Machine.execMessageDelivery gid s
  | .recv w sd sm tag => Sys2Proof.Machine.execRecv w sd sm tag s
  | .recvt w td sm tag => Sys2Proof.Machine.execRecvt w td sm tag s
  | .probe tile w k sm tag => Sys2Proof.Machine.execProbe tile w k sm tag s
  | .bar n => Sys2Proof.Machine.execBar n s
  | .barrierCompletion gid => Sys2Proof.Machine.execBarrierCompletion gid s
  | .claim scope sd sa sb => Sys2Proof.Machine.execClaim scope sd sa sb s
  | .fork k sd off => Sys2Proof.Machine.execFork k sd off s
  | .join sp => Sys2Proof.Machine.execJoin sp s
  | .spawn k sa off => Sys2Proof.Machine.execSpawn k sa off s
  | .take k sd => Sys2Proof.Machine.execTake k sd s
  | .launch sd sa sb => Sys2Proof.Machine.execLaunch sd sa sb s
  | .syncTas scope sd sa sb => Sys2Proof.Machine.execSyncTas scope sd sa sb s
  | .syncFadd scope sd sa sb => Sys2Proof.Machine.execSyncFadd scope sd sa sb s
  | .syncWait cc scope sd sa sb => Sys2Proof.Machine.execSyncWait cc scope sd sa sb s
  | .syncLd scope sd sa => Sys2Proof.Machine.execSyncLd scope sd sa s
  | .syncSt scope sa sb => Sys2Proof.Machine.execSyncSt scope sa sb s
  | .mirror pkg => Sys2Proof.Machine.execMirror pkg s
  | .pref l1 sa len => Sys2Proof.Machine.execPref l1 sa len s
  | .evict kind sa len => Sys2Proof.Machine.execEvict kind sa len s
  | .winq sd sa b => Sys2Proof.Machine.execWinq sd sa b s
  | .upd strict ti tv rh => Sys2Proof.Machine.execUpd strict ti tv rh s
  | .upds strict sv si rh => Sys2Proof.Machine.execUpds strict sv si rh s
  | .handOff gid => Sys2Proof.Machine.execHandOff gid s
  | .backgroundRacking pkg stack ctx => Sys2Proof.Machine.execBackgroundRacking pkg stack ctx s
  | .rack rh sa sb => Sys2Proof.Machine.execRack rh sa sb s
  | .rackr sd sa rh => Sys2Proof.Machine.execRackr sd sa rh s
  | .vntq k h sb st => Sys2Proof.Machine.execVntq k h sb st s
  | .vntw h sb st => Sys2Proof.Machine.execVntw h sb st s
  | .vntc c clr sd => Sys2Proof.Machine.execVntc c clr sd s
  | .fsend k sa sl tgt tag route => Sys2Proof.Machine.execFsend k sa sl tgt tag route s
  | .fabricMessageDelivery gid => Sys2Proof.Machine.execFabricMessageDelivery gid s
  | .frecv w sd sm tag => Sys2Proof.Machine.execFrecv w sd sm tag s
  | .fgth kind td ti h sx => Sys2Proof.Machine.execFgth kind td ti h sx s
  | .allx n td ta sr sc => Sys2Proof.Machine.execAllx n td ta sr sc s
  | .exchangeClose gid => Sys2Proof.Machine.execExchangeClose gid s
  | .fbar n => Sys2Proof.Machine.execFbar n s
  | .fabricBarrierCompletion gid => Sys2Proof.Machine.execFabricBarrierCompletion gid s
  | .phase scope => Sys2Proof.Machine.execPhase scope s
  | .cfence fromPath toPath => Sys2Proof.Machine.execCfence fromPath toPath s
  | .amo op d scope sd sa sb => Sys2Proof.Machine.execAmo op d scope sd sa sb s
  | .cas d scope sd sa sb => Sys2Proof.Machine.execCas d scope sd sa sb s
  | .eret sd sa => Sys2Proof.Machine.execEret sd sa s
  | .ctxs sd sa sb => Sys2Proof.Machine.execCtxs sd sa sb s
  | .ctxl sd sa sb => Sys2Proof.Machine.execCtxl sd sa sb s
  | .fault gid => Sys2Proof.Machine.execFault gid s
  | .faultRecordPost pkg ctx => Sys2Proof.Machine.execFaultRecordPost pkg ctx s
  | .faultCompletion pkg ctx seq => Sys2Proof.Machine.execFaultCompletion pkg ctx seq s
  | .walkTimeout gid => Sys2Proof.Machine.execWalkTimeout gid s
  | .preemptionRequest gid => Sys2Proof.Machine.execPreemptionRequest gid s
  | .preemptionWithdrawal gid => Sys2Proof.Machine.execPreemptionWithdrawal gid s
  | .forcedSave gid => Sys2Proof.Machine.execForcedSave gid s
  | .resumption uid newGid => Sys2Proof.Machine.execResumption uid newGid s
  | .queuePop pkg q => Sys2Proof.Machine.execQueuePop pkg q s
  | .groupPlacement launch inst cores => Sys2Proof.Machine.execGroupPlacement launch inst cores s
  | .instancePlacement launch die => Sys2Proof.Machine.execInstancePlacement launch die s
  | .steal launch die => Sys2Proof.Machine.execSteal launch die s
  | .launchCompletion launch => Sys2Proof.Machine.execLaunchCompletion launch s
  | .gangSliceStart launch => Sys2Proof.Machine.execGangSliceStart launch s
  | .ready launch pkg cores => Sys2Proof.Machine.execReady launch pkg cores s
  | .start launch pkg => Sys2Proof.Machine.execStart launch pkg s
  | .abort launch pkg => Sys2Proof.Machine.execAbort launch pkg s
  | .ctxCreate pkg => Sys2Proof.Machine.execCtxCreate pkg s
  | .ctxEnd pkg => Sys2Proof.Machine.execCtxEnd pkg s
  | .queueOpen pkg => Sys2Proof.Machine.execQueueOpen pkg s
  | .queueReset pkg => Sys2Proof.Machine.execQueueReset pkg s
  | .cancel pkg => Sys2Proof.Machine.execCancel pkg s
  | .cancelClr pkg => Sys2Proof.Machine.execCancelClr pkg s
  | .tlbInv pkg => Sys2Proof.Machine.execTlbInv pkg s
  | .winSet pkg => Sys2Proof.Machine.execWinSet pkg s
  | .fwStage pkg => Sys2Proof.Machine.execFwStage pkg s
  | .fwActivate pkg => Sys2Proof.Machine.execFwActivate pkg s
  | .hostSvc pkg => Sys2Proof.Machine.execHostSvc pkg s
  | .rsvW2Write pkg die n v => Sys2Proof.Machine.execRsvW2Write pkg die n v s
  | .commit pkg => Sys2Proof.Machine.execCommit pkg s
  | .registerWrite pkg off v => Sys2Proof.Machine.execRegisterWrite pkg off v s
  | .hostRead tgt n => Sys2Proof.Machine.execHostRead tgt n s
  | .hostWrite tgt bytes => Sys2Proof.Machine.execHostWrite tgt bytes s
  | .boot pkg => Sys2Proof.Machine.execBoot pkg s
  | .trialTimeout pkg => Sys2Proof.Machine.execTrialTimeout pkg s
  | .watchdog pkg => Sys2Proof.Machine.execWatchdog pkg s
  | .getMeasurements pkg => Sys2Proof.Machine.execGetMeasurements pkg s
  | .negotiateAlgorithms pkg falcon1024 shake256 => Sys2Proof.Machine.execNegotiateAlgorithms pkg falcon1024 shake256 s
  | .retirement pkg pos => Sys2Proof.Machine.execRetirement pkg pos s
  | .routeFixupPass pkg fixups => Sys2Proof.Machine.execRouteFixupPass pkg fixups s
  | .portDown pkg port => Sys2Proof.Machine.execPortDown pkg port s
  | .portRetire pkg port => Sys2Proof.Machine.execPortRetire pkg port s
  | .portTraining pkg port peer peerPort up comp => Sys2Proof.Machine.execPortTraining pkg port peer peerPort up comp s
  | .flitReplay pkg port => Sys2Proof.Machine.execFlitReplay pkg port s
  | .d2dLinkFailure pkg => Sys2Proof.Machine.execD2dLinkFailure pkg s
  | .softError pkg unit => Sys2Proof.Machine.execSoftError pkg unit s
  | .uncorrectableError pkg site => Sys2Proof.Machine.execUncorrectableError pkg site s
  | .unitFailure pkg unit => Sys2Proof.Machine.execUnitFailure pkg unit s
  | .supplySag pkg die => Sys2Proof.Machine.execSupplySag pkg die s
  | .clockReturn pkg die => Sys2Proof.Machine.execClockReturn pkg die s
  | .junction105 pkg => Sys2Proof.Machine.execJunction105 pkg s
  | .junction115 pkg => Sys2Proof.Machine.execJunction115 pkg s
  | .standby pkg => Sys2Proof.Machine.execStandby pkg s
  | .wake pkg => Sys2Proof.Machine.execWake pkg s
  | .copyRow gid => Sys2Proof.Machine.execCopyRow gid s
  | .junctionBelow100 pkg => Sys2Proof.Machine.execJunctionBelow100 pkg s
  | .hostAttachmentFailure pkg => Sys2Proof.Machine.execHostAttachmentFailure pkg s
  | .d2dLinkTraining pkg => Sys2Proof.Machine.execD2dLinkTraining pkg s
  | .unknownCommandCode pkg => Sys2Proof.Machine.execUnknownCommandCode pkg s

end Sys2Proof.Machine
end

