-- ==== Sys2Proof/Machine/Step.lean ====
section
/-!
DEFINITION. One step of the machine: whose turn it is, the fetch, and the word that runs.
-/

namespace Sys2Proof.Machine

/-- Time passes, messages whose time is up arrive (R244), and a fresh number for free values comes up (log 3, 4). -/
def State.tick (s : State) : State :=
  let now := s.now + 1 + Config.stepCycles s.free
  { s with now, free := s.free + 1, teams := s.teams.map (Team.deliver now) }

/-- The teams that run, from the one after the current team on, the current one last. -/
def State.rotation (s : State) : List Team :=
  let i := s.teams.findIdx (fun t => t.uid == s.cur)
  (s.teams.drop (i + 1) ++ s.teams.take (i + 1)).filter Team.runs

/-- The next turn: the outside world's choice, else the next running team's (R151, R110). -/
def State.turn (s : State) : Option Turn × State :=
  match s.agenda with
  | x :: rest => (some x, { s with agenda := rest })
  | [] =>
    match s.rotation with
    | t :: _ => (some (.team t.uid), s)
    | [] => (none, s)

/-- The word of a pair is left as it stands: its scalar slot waits, or it has faulted. -/
def pairStops (pc : Word) (t : Team) : Bool := t.status != .running || t.heldFault.isSome || t.pc == pc

/-- The end of a pair word. -/
def State.endPair (s : State) (uid : Nat) : State := (s.modTeam uid (fun t => { t with pairing := none })).settle uid

/-- A pair word (R43): the scalar slot first, then the tile slot, which reads what stood before the word. -/
def State.runPair (s : State) (uid : Nat) (a i : Instr) : Host.Outcome State Fault Refusal :=
  match s.team? uid with
  | none => .next s
  | some t =>
    if i != .nop && t.placeWaits then .next s
    else
      match exec a (s.putTeam { t with pairing := some (t.wordSeq, t.capture) }) with
      | .next s1 =>
        (match s1.team? uid with
         | none => .next s1
         | some t1 =>
           if pairStops t.pc t1 then .next (s1.putTeam { t1 with pairing := none })
           else
             match exec i (s1.putTeam { t1 with pc := t.pc }) with
             | .next s2 => .next (s2.endPair uid)
             | x => x)
      | x => x

/-- What the word does once it is decoded: a system instruction of a team without the attribute faults whatever its guard
(R41, R54, R58), a pending guard waits (R112), a false one makes the word a no-operation
(R41), a true one runs it. -/
def State.runBundle (s : State) (uid : Nat) (b : Bundle) : Host.Outcome State Fault Refusal :=
  match s.team? uid with
  | none => .next s
  | some t =>
    if isSystem b.body && !t.sys then .next (s.frontFault uid (FaultInfo.plain kIllInstr .team) none)
    else if t.pending b.guard.idx then .next s
    else if t.rg b.guard.idx == b.guard.inv then .next (s.advance uid b.bytes)
    else
      match b.body with
      | .long i => exec i s
      | .pair a i => s.runPair uid a i

/-- The word of the team's front: fetched, decoded, run. -/
def State.runWord (s : State) (t : Team) : Host.Outcome State Fault Refusal :=
  if t.heldFault.isSome then .next (s.takeHeld t.uid)
  else
    match s.fetchWord t with
    | .error (.fault f) =>
      .next ((s.putTeam { t with word := Config.freeWord s.free }).frontFault t.uid f none)
    | .error .walk => .next (s.putTeam (t.startWalk s.now))
    | .error .stall => .next s
    | .ok (w, l, s1) =>
      let s1 := s1.modTeam t.uid (fun t => { t with word := w })
      match decodeWord w l with
      | .error _ => .next (s1.slotFault t.uid (FaultInfo.plain kIllInstr .team) none (badTileSlot w))
      | .ok b => s1.runBundle t.uid b

/-- A team's turn: its tile side goes on while the TIQ holds work, unless the turn is the front's alone; where the tile side
waits, or has no work, the front takes its next word. -/
def State.runTeam (s : State) (uid : Nat) (ahead : Bool) : Host.Outcome State Fault Refusal :=
  match s.team? uid with
  | none => .next s
  | some t =>
    if t.status != .running then .next s
    else
      let s := ({ s with cur := uid, ahead } : State).settle uid
      if !ahead && !t.tiq.isEmpty then
        let s := s.tileProgress uid
        match s.team? uid with
        | some u => if u.status == .running && t.tileWaits && u.tileWaits then { s with ahead := true }.runWord u else .next s
        | none => .next s
      else
        match s.team? uid with
        | some t => s.runWord t
        | none => .next s

/-- One step. -/
def step (s : State) : Host.Outcome State Fault Refusal :=
  match s.tick.turn with
  | (some (.team uid), s) => s.runTeam uid false
  | (some (.ahead uid), s) => s.runTeam uid true
  | (some (.event i), s) => if i.isEvent then exec i s else .next s
  | (none, s) => .next s

/-! ### A program placed by hand -/

/-- The context that `withFetchWord` runs in. -/
def Ctx.forFetch (m : Memory) : Ctx :=
  { id := 1, start := m, ptRoot := 0, syncBase := 0, syncCount := 64, leesRuns := 4, split := 1, faultQ := 0, msix := 0,
    msixSignals := 0, obj := [], oldObj := [], hostSets := [], win := [(0, 1)], ptSnaps := [], regions := [], tables := [], hits := 0,
    misses := 0, stales := 0, tokens := [], tokensPending := [], faultSeq := 0, posts := [], resolved := [],
    fcqTail := 0 }

/-- Its launch: one group of one core, which may use system instructions and the deque. -/
def Launch.forFetch (id : Nat) : Launch :=
  { id, pkg := 0, queue := 0, ctx := 1,
    record := [BitVec.ofNat 64 winBase, 0, 0, 0, 0, 0, 0, 0, 0x601, 0x2800_0001], lo0 := 0, hi0 := 0, lo1 := 0, hi1 := 0,
    insts := [⟨0, false, [0], 1⟩], exited := [], kin := [], faults := 0, stolen := false,
    gang := .idle, ready := [], late := [], cut := [], knows := [], view0 := [] }

/-- The machine with one instruction at the program counter of a fresh team whose turn is next: it stands for the load of
a program, and a launch of it, from outside the machine (log 2). -/
def State.withFetchWord (s : State) (nbits w : Nat) : State :=
  let cells := cellsAt (devKey 0 0) (natToBytes 16 (w % 2 ^ nbits))
  let m := Memory.putCells s.mem cells
  let uid := s.nextId
  let t : Team := { Team.init with
    uid, ctx := 1, launch := uid + 1, status := .running, pc := BitVec.ofNat 64 winBase, split := 1, slip := 1,
    sys := true, deque := true, placedAt := s.now }
  { s with nextId := uid + 2, teams := s.teams ++ [t], launches := s.launches ++ [Launch.forFetch (uid + 1)],
           cur := uid, ahead := false, agenda := [.team uid], mem := m,
           pkgs := kput s.pkgs 0 { (s.pkg 0) with ctxs := kput (s.pkg 0).ctxs 1 (Ctx.forFetch m) } }

end Sys2Proof.Machine
end

