-- ==== Sys2Proof/Safety.lean ====
section
/-!
DEFINITION. The terms the claims use: good states, when a team issues an instruction, and the manual's own formulas for
results, written apart from the meanings.
-/

namespace Sys2Proof.Machine

/-! ### Good states -/

/-- Memory is held in its canonical form. -/
def State.MemOk (s : State) : Prop := s.mem.wf = true

/-- No two writes share a name; each name is below the next one to be given, and a write is ordered only after names below
its own. -/
def State.WritesFresh (s : State) : Prop :=
  (s.writes.map (·.id)).Nodup ∧ ∀ w ∈ s.writes, w.id < s.nextId ∧ ∀ n ∈ w.before, n < w.id

/-- What every step keeps. -/
def State.Inv (s : State) : Prop := s.MemOk ∧ s.WritesFresh

/-! ### A team at an instruction -/

/-- The team `t` issues the front instruction `i`: it is the running team whose turn it is, and nothing that R112, R115,
R116, R117, R118, R135 or R136 names holds the word back. -/
def State.Issues (s : State) (t : Team) (i : Instr) : Prop := s.issuing? = some t ∧ t.mustWait i = false

/-- Nothing of the team's tile side is under way, and no write or store of its front is uncommitted. -/
structure Team.Quiet (t : Team) : Prop where
  tiq : t.tiq = []
  copies : t.copies = []
  hist : t.hist = []
  sbuf : t.sbuf = []
  held : t.heldFault = none
  pair : t.pairing = none
  walk : t.tileWalk = none
  late : t.late = []

/-- The team as its tile-side instruction finds it once the sequencer has accepted it as the entry `e` (R110, R147, R190):
past the word, the instruction at the head of its TIQ. -/
def Team.entered (t : Team) (e : TileEntry) : Team :=
  { t.place e.instr with tiq := [e], xrow := if capturesXrow e.instr t.capture then 0 else t.xrow }

/-- The records that the instruction reads at acceptance (R64). -/
def State.recsOf (s : State) (t : Team) (i : Instr) : List (Handle × Shape) :=
  (tileHandles i t.capture).map (fun h => (h, s.readShape t h))

/-- What the instruction's checks work on. -/
def State.atAccept (s : State) (t : Team) (i : Instr) : TIn :=
  ⟨s.putTeam (t.place i), t.place i, t.capture, s.recsOf t i, t.xrow.toNat, none, none, false, false⟩

/-- The lane function that the instruction reads at acceptance, if it names one (R81), and the state after that. -/
def State.codeAt (s : State) (t : Team) (i : Instr) : Option (Bool × List (BitVec 32)) × State :=
  match tileCode i (s.atAccept t i) with
  | some (.ok (c, s')) => (some c, s'.putTeam (t.place i))
  | _ => (none, s.putTeam (t.place i))

/-- The entry once accepted: its records, its lane function, its region, whether it holds slots, its restart row (R64, R81, R149, R190,
R316). -/
def State.entryAt (s : State) (t : Team) (i : Instr) : TileEntry :=
  { t.entryFor i with
    accepted := true, recs := s.recsOf t i, code := (s.codeAt t i).1, region := tileRegion i (s.atAccept t i),
    holds := tileHolds i (s.atAccept t i), xrow := t.xrow.toNat }

/-- What the instruction works on. -/
def State.atRun (s : State) (t : Team) (i : Instr) : TIn :=
  (s.entryAt t i).tin ((s.codeAt t i).2.putTeam (t.entered (s.entryAt t i))) (t.entered (s.entryAt t i)) false

/-- The team `t` issues the tile-side instruction `i`, the sequencer takes it at once, and it passes the checks that it
makes at acceptance (R81, R110, R113, R147, R149, Tables 5.3 and 6.6). -/
structure State.Takes (s : State) (t : Team) (i : Instr) : Prop where
  issues : s.issuing? = some t
  quiet : t.Quiet
  now : s.ahead = false
  room : 0 < t.slip.toNat
  credit : i.pushes = true → t.credits < 16
  accepted : tileAccept i (s.atAccept t i) = .ok ()
  slots : (t.place i).roomFor (s.entryAt t i) = true
  code : ∀ x, tileCode i (s.atAccept t i) ≠ some (.error x)

/-- The step of `s` is a turn of the front of the team `t`, which fetches the word `w` and, for an X instruction, the
literal `l`; the word runs in `s'`, where the team is `t`. -/
def State.Fetches (s : State) (w l : Word) (s' : State) (t : Team) : Prop :=
  ∃ (ahead : Bool) (s0 s1 : State) (t0 t1 : Team),
    s.tick.turn = (some (if ahead then .ahead t.uid else .team t.uid), s0) ∧
    s0.team? t.uid = some t0 ∧ t0.status = .running ∧ (ahead = true ∨ t0.tiq = []) ∧
    (({ s0 with cur := t.uid, ahead } : State).settle t.uid).team? t.uid = some t1 ∧ t1.heldFault = none ∧
    (({ s0 with cur := t.uid, ahead } : State).settle t.uid).fetchWord t1 = .ok (w, l, s1) ∧
    s' = s1.modTeam t.uid (fun u => { u with word := w }) ∧ s'.team? t.uid = some t

/-- The Press takes every pair that the team has emitted, so that a boundary of it need not wait (R207, R321). -/
def State.Clears (s : State) (uid : Nat) : Prop := (s.handOffAll uid).updEmpty uid = true

/-- The state after a boundary that need not wait: pairs are handed on, the view is published, and the boundary
completes (R207, R210, R211). -/
def State.passes (s : State) (uid : Nat) (sc : ScopeCode) (prec : List Nat) : State :=
  ((s.handOffAll uid).publish uid sc false false).1.complete uid sc
    ((s.handOffAll uid).publish uid sc false false).2 prec

/-- The state once the instruction has left the TIQ (R111). -/
def State.past (s : State) (uid : Nat) : State :=
  s.modTeam uid (fun t => { t.leave [] with wait := .none, tileWalk := none })

/-- The tile-side instruction `i`, once taken, has the effect `E`; with an empty extent it does nothing (R146); `srcs` are its
sources, of which streams must have delivered and are consumed (R164); `P` is what its accesses need. -/
def State.TileDone (s : State) (t : Team) (i : Instr) (srcs : List TReg) (P : TIn → Prop) (E : TIn → State) : Prop :=
  s.Takes t i →
    ((s.atRun t i).c.live = false → exec i s = .next ((s.atRun t i).s.past t.uid)) ∧
    ((s.atRun t i).c.live = true → (s.atRun t i).t.streamsReady (s.atRun t i).c.er srcs = true → P (s.atRun t i) →
      exec i s = .next (((E (s.atRun t i)).modTeam t.uid (fun u => u.consume (s.atRun t i).c.er srcs)).past t.uid))

/-- The tile-side instruction `i`, once taken, has the effect `E`, whatever the extent; `P` is what it needs. -/
def State.TileOne (s : State) (t : Team) (i : Instr) (P : TIn → Prop) (E : TIn → State) : Prop :=
  s.Takes t i → P (s.atRun t i) → exec i s = .next ((E (s.atRun t i)).past t.uid)

/-- The team `t` stands at the global id `gid`. -/
def State.At (s : State) (gid : Gid) (t : Team) : Prop := s.teamOf gid = some t ∧ s.team? t.uid = some t

/-- The copy `c` of the team's tile-side instruction begins once the sequencer has accepted it as the entry `e` (R161,
R164). -/
def Team.copying (t : Team) (e : TileEntry) (c : Copy) : Team :=
  { ((t.entered e).claimLines c).modHead (fun e => { e with issued := true }) with
    copies := [c], broken := none, tileWalk := none }

/-- The elements of a tile over its whole geometry: `v` within `er` rows and `ec` columns, zero elsewhere (R146). -/
def Tile.Shows (x : Tile) (er ec : Nat) (v : Nat → Nat → Nat) : Prop :=
  x.written = true ∧ ∀ r c, r < x.geo.rows → c < x.geo.cols → x.el r c = if r < er ∧ c < ec then v r c else 0

/-- The effect of computing every element of the extent into `td`: `f` gives an element's bits from its row and column,
with the flags and draws so far. -/
def TIn.fillWith (x : TIn) (td : TReg) (f : Nat → Nat → Env → Nat × Env) : State :=
  x.put td ((x.rd td).write (runEls f x.ext x.t.env).1 []) (runEls f x.ext x.t.env).2

/-- After the step the tile `td` of the team shows `v` over the extent and zero elsewhere (R146). -/
def State.ShowsTile (s : State) (t : Team) (i : Instr) (td : TReg) (er ec : Nat) (v : Nat → Nat → Nat) : Prop :=
  ∃ s' u x, exec i s = .next s' ∧ s'.team? t.uid = some u ∧ u.tile td = some x ∧ x.Shows er ec v

/-! ### The manual's formulas -/

/-- The operations of R123 on `n` bits, saturation apart: the low `n` bits of the result. -/
def aluBv (op : AluOp) {n : Nat} (u : Bool) (a b : BitVec n) : BitVec n :=
  match op with
  | .add => a + b
  | .sub => a - b
  | .mul => a * b
  | .mulh => if u then (a.zeroExtend (2 * n) * b.zeroExtend (2 * n)).extractLsb' n n
             else (a.signExtend (2 * n) * b.signExtend (2 * n)).extractLsb' n n
  | .div => if b = 0 then BitVec.allOnes n else if u then a / b else a.sdiv b
  | .rem => if b = 0 then a else if u then a % b else a.srem b
  | .and => a &&& b
  | .or => a ||| b
  | .xor => a ^^^ b
  | .shl => a <<< (b.toNat % n)
  | .shr => a >>> (b.toNat % n)
  | .sra => a.sshiftRight (b.toNat % n)
  | .min => if (if u then a.ule b else a.sle b) then a else b
  | .max => if (if u then b.ule a else b.sle a) then a else b

/-- The exact sum, difference or product of R123. -/
def aluExact (op : AluOp) {n : Nat} (u : Bool) (a b : BitVec n) : Int :=
  let x : Int := if u then a.toNat else a.toInt
  let y : Int := if u then b.toNat else b.toInt
  match op with
  | .sub => x - y
  | .mul => x * y
  | _ => x + y

/-- R123 on `n` bits, saturation included: the result and whether SATF is set. -/
def aluBits (op : AluOp) {n : Nat} (sat u : Bool) (a b : BitVec n) : BitVec n × Bool :=
  let x := aluExact op u a b
  let lo : Int := if u then 0 else -2 ^ (n - 1)
  let hi : Int := if u then 2 ^ n - 1 else 2 ^ (n - 1) - 1
  if sat ∧ x < lo then (BitVec.ofInt n lo, true)
  else if sat ∧ hi < x then (BitVec.ofInt n hi, true)
  else (aluBv op u a b, false)

/-- `ext` of R123. -/
def aluExt {n : Nat} (u : Bool) (x : BitVec n) : Word := if u then x.zeroExtend 64 else x.signExtend 64

/-- R123: the result and whether SATF is set. -/
def aluRule (op : AluOp) (m : AluMode) (a b : Word) : Word × Bool :=
  if m.w then
    let r := aluBits op m.s m.u (a.truncate 32) (b.truncate 32)
    (aluExt m.u r.1, r.2)
  else
    let r := aluBits op m.s m.u a b
    (aluExt m.u r.1, r.2)

/-- The instruction of an operation of R123. -/
def aluInstr (op : AluOp) (m : AluMode) (sd sa : SReg) (b : Opd) : Instr :=
  match op with
  | .add => .add m sd sa b
  | .sub => .sub m sd sa b
  | .mul => .mul m sd sa b
  | .mulh => .mulh m sd sa b
  | .div => .div m sd sa b
  | .rem => .rem m sd sa b
  | .and => .and m sd sa b
  | .or => .or m sd sa b
  | .xor => .xor m sd sa b
  | .shl => .shl m sd sa b
  | .shr => .shr m sd sa b
  | .sra => .sra m sd sa b
  | .min => .min m sd sa b
  | .max => .max m sd sa b

/-- The conditions of Table 4.7. -/
def cmpRule (cc : BitVec 3) (a b : Word) : Prop :=
  match cc with
  | 0#3 => a = b
  | 1#3 => a ≠ b
  | 2#3 => a.toInt < b.toInt
  | 3#3 => a.toInt ≤ b.toInt
  | 4#3 => b.toInt < a.toInt
  | 5#3 => b.toInt ≤ a.toInt
  | 6#3 => a.toNat < b.toNat
  | _ => b.toNat ≤ a.toNat

/-- `v` counts the leading zeros of the low `n` bits of `a` (R124). -/
def IsLeadingZeros (n : Nat) (a : Word) (v : Nat) : Prop :=
  v ≤ n ∧ (∀ i, i < v → a.getLsbD (n - 1 - i) = false) ∧ (v < n → a.getLsbD (n - 1 - v) = true)

/-- `v` counts the trailing zeros of the low `n` bits of `a` (R124). -/
def IsTrailingZeros (n : Nat) (a : Word) (v : Nat) : Prop :=
  v ≤ n ∧ (∀ i, i < v → a.getLsbD i = false) ∧ (v < n → a.getLsbD v = true)

/-- The set bits of the low `n` bits (R124). -/
def setBitsOf (n : Nat) (a : Word) : Nat := ((List.range n).filter (fun i => a.getLsbD i)).length

/-- The value that a scalar load of `2^z` bytes writes (R130): the bytes, least significant first, extended. -/
def loadRule (z : BitVec 2) (u : Bool) (bs : List Byte) : Word :=
  let x := BitVec.ofNat (8 * 2 ^ z.toNat) (bytesToNat bs)
  if u then x.zeroExtend 64 else x.signExtend 64

end Sys2Proof.Machine

namespace Sys2Proof

/-! ### Front instructions that only write registers -/

/-- The scalar instructions that touch nothing but registers (R123 to R129, R136, R280, R281). -/
def Instr.registerOnly : Instr → Bool
  | .nop | .hint .. | .add .. | .sub .. | .mul .. | .mulh .. | .div .. | .rem .. | .and .. | .or .. | .xor .. | .shl ..
  | .shr .. | .sra .. | .min .. | .max .. | .clz .. | .ctz .. | .popc .. | .sel .. | .cmp .. | .gop .. | .lea .. | .li ..
  | .liX .. | .lih .. | .mfs .. | .pref .. | .evict .. | .winq .. => true
  | _ => false

/-- Their destination among the scalar registers. -/
def Instr.destS : Instr → Option SReg
  | .add _ d _ _ | .sub _ d _ _ | .mul _ d _ _ | .mulh _ d _ _ | .div _ d _ _ | .rem _ d _ _ | .and _ d _ _ | .or _ d _ _
  | .xor _ d _ _ | .shl _ d _ _ | .shr _ d _ _ | .sra _ d _ _ | .min _ d _ _ | .max _ d _ _ | .clz _ d _ | .ctz _ d _
  | .popc _ d _ | .sel _ d _ _ | .lea d _ | .li d _ | .liX d _ | .lih d _ | .mfs d _ | .winq d _ _ => some d
  | _ => none

/-- Their destination among the guards. -/
def Instr.destG : Instr → Option GReg
  | .cmp _ _ k _ _ | .gop _ k _ _ => some k
  | _ => none

/-- Whether an instruction can set SATF (R123). -/
def Instr.saturates : Instr → Bool
  | .add m .. | .sub m .. | .mul m .. => m.s
  | _ => false

end Sys2Proof
end

