-- ==== Sys2Proof/Certificates/Slice0/Obligations.lean ====
section
/-!
DEFINITION. The statements for the provers, in the order of OBLIGATIONS.json.
-/

open Sys2Proof Sys2Proof.Machine

/-! ### Words -/

/-- R39, R58 and the encoding tables: the word of every well-formed instruction, under every guard that R41 admits, decodes
to that instruction under that guard; an X instruction's literal is kept. -/
def Obligations.DecodeAfterEncode : Prop :=
  ∀ (i : Instr) (e : Enc) (g : Guard), i.wellFormed = true → encode i = some e → ¬(g.inv = true ∧ g.idx = 0) →
    decodeWord (e.words g).1 (e.words g).2 = .ok ⟨g, .long i⟩

/-- Words written out from the encoding tables decode to the instructions that they stand for: an ALU word, LOOP, SHAPE.SET,
SYNC, BAR, FBAR, SEND, TAKE, UPDS, PHASE, AMO, FSEND, ERET of the scalar formats; TLD, TSLIDE, TCOPY, QBIND, MAP, MMA, ROUTE,
VNTQ and ALLX of the long tile format; and a pair. -/
def Obligations.SpecWordsDecode : Prop :=
  decodeWord 0x400138A0000186A0 0 = .ok ⟨.always, .long (.add ⟨false, false, false⟩ 7 2 (.imm 100000))⟩ ∧
  decodeWord 0x40862020FFFFFFFD 0 = .ok ⟨.always, .long (.loop 4 0xFFFFFFFD)⟩ ∧
  decodeWord 0x42A028C100000404 0 = .ok ⟨.always, .long (.syncFadd 4 5 3 4)⟩ ∧
  decodeWord 0x4285002000000001 0 = .ok ⟨.always, .long (.bar 1)⟩ ∧
  decodeWord 0x42E4002000000001 0 = .ok ⟨.always, .long (.fbar 1)⟩ ∧
  decodeWord 0x42C1290000020000 0 = .ok ⟨.always, .long (.upds false 5 4 2)⟩ ∧
  decodeWord 0x4300000100000000 0 = .ok ⟨.always, .long (.phase 1)⟩ ∧
  decodeWord 0x4302_28C1_0000_0164 0 = .ok ⟨.always, .long (.amo 1 true 1 5 3 4)⟩ ∧
  decodeWord 0xC2E039A200100061 0x0200000000000093 =
    .ok ⟨.always, .long (.fsend 2 6 7 0x10 0x61 0x0200000000000093)⟩ ∧
  decodeWord 0x4089302000000001 0 = .ok ⟨.always, .long (.shapeSet 6)⟩ ∧
  decodeWord 0x428029E200040042 0 = .ok ⟨.always, .long (.send 2 7 5 4 0x42)⟩ ∧
  decodeWord 0x428A400600000000 0 = .ok ⟨.always, .long (.take 6 8)⟩ ∧
  decodeWord 0x430428C000000000 0 = .ok ⟨.always, .long (.eret 5 3)⟩ ∧
  decodeWord 0x810B100003008123 0 = .ok ⟨.always, .long (.tld 4 0x8123 6)⟩ ∧
  decodeWord 0x818B209290030065 0 = .ok ⟨.always, .long (.tslide 3 (some ⟨10, true⟩) 8 ⟨9, false⟩ 37)⟩ ∧
  decodeWord 0x8185240002980077 0 = .ok ⟨.always, .long (.tcopy 9 0x77 5 6)⟩ ∧
  decodeWord 0x8187049000000000 0 = .ok ⟨.always, .long (.qbind 1 9)⟩ ∧
  decodeWord 0x81900420E21613FE 0 = .ok ⟨.always, .long (.map ⟨3, false, true⟩ 2 1 ⟨2, true⟩ ⟨3, false⟩ 4 5 0xFE)⟩ ∧
  decodeWord 0x82020860252C0000 0 = .ok ⟨.always, .long (.mma 0 2 ⟨6, true⟩ 10 11 none)⟩ ∧
  decodeWord 0x820A619683800000 0 = .ok ⟨.always, .long (.route 24 26 ⟨25, false⟩ 7)⟩ ∧
  decodeWord 0x82C4040002980011 0 = .ok ⟨.always, .long (.vntq 1 0x11 5 6)⟩ ∧
  decodeWord 0x82E224800A540000 0 = .ok ⟨.always, .long (.allx 0 9 8 20 21)⟩ ∧
  decodeWord 0x0000000002286246 0 = .ok ⟨.always, .pair .nop (.tadd false 6 5 ⟨3, true⟩ ⟨4, false⟩)⟩

/-! ### Steps -/

/-- A step whose front fetches a word with a true guard that is not pending runs the decoded instruction, in the state that
the fetch leaves: nothing stands between them but the word, kept as the team's last fetched one. A system instruction runs so
in a team with the system attribute (R54). That a step is one turn of one team is the model's own order of events (log 2, 3).
-/
def Obligations.StepRunsDecoded : Prop :=
  ∀ (s s' : State) (t : Team) (w l : Word) (g : Guard) (i : Instr),
    s.Fetches w l s' t → decodeWord w l = .ok ⟨g, .long i⟩ → (isSystem (.long i) = true → t.sys = true) →
    t.pending g.idx = false → t.rg g.idx = !g.inv →
    step s = exec i s'

/-- R41, R58, R54: when the guard is false the word has no effect, and execution continues at the next word: 8 bytes on, 16
after an X instruction. The checks of R58 are made whatever the guard: ERET, CTXS or CTXL of a team without the system
attribute raises the illegal-instruction fault, whose PATH is 0 by the model's reading (log 32). -/
def Obligations.FalseGuardNoEffect : Prop :=
  ∀ (s s' : State) (t : Team) (w l : Word) (b : Bundle),
    s.Fetches w l s' t → decodeWord w l = .ok b →
    ((isSystem b.body = true → t.sys = true) → t.pending b.guard.idx = false → t.rg b.guard.idx = b.guard.inv →
      step s = .next (s'.modTeam t.uid (fun u =>
        { u with pc := u.pc + BitVec.ofNat 64 b.bytes, wordSeq := u.seqHere + 1, wait := .none }))) ∧
    (isSystem b.body = true → t.sys = false →
      step s = .next (s'.frontFault t.uid (FaultInfo.plain 0x01 .team) none))

/-- R58, R41, R220: a word whose guard is g0 inverted is no instruction, whatever else it holds; and a word that is no
instruction raises the illegal-instruction fault at its own place, before anything of it runs. The record names the tile slot
when that slot of a pair with a good guard and a good scalar slot is the one at fault (R43), and PATH 0, which is the model's
reading (log 32). -/
def Obligations.IllegalWordFaults : Prop :=
  (∀ w lit : Word, w.getLsbD 61 = true → w.extractLsb' 58 3 = 0 → decodeWord w lit = .error .guardInverted) ∧
  (∀ (s s' : State) (t : Team) (w l : Word) (e : DecodeError),
    s.Fetches w l s' t → decodeWord w l = .error e →
    let slot := w.extractLsb' 62 2 = 0 ∧ ¬(w.getLsbD 61 = true ∧ w.extractLsb' 58 3 = 0) ∧
      ∃ a, scalarSlot (w.extractLsb' 32 26) = .ok a
    (slot → step s = .next (s'.slotFault t.uid (FaultInfo.plain 0x01 .team) none true)) ∧
    (¬slot → step s = .next (s'.slotFault t.uid (FaultInfo.plain 0x01 .team) none false)))

/-- R43: the slots of a pair read their operands as they stood before the word. With an ALU operation in the scalar slot and
a tile instruction that the front only places, the scalar register is written, and the entry placed in the TIQ holds the
registers, extents and rounding mode from before that write, the PC of the word and the mark of the tile slot. -/
def Obligations.PairReadsBefore : Prop :=
  ∀ (s s' : State) (t : Team) (w l : Word) (g : Guard) (op : AluOp) (m : AluMode) (sd sa : SReg) (b : Opd) (i : Instr),
    s.Fetches w l s' t →
    decodeWord w l = .ok ⟨g, .pair (aluInstr op m sd sa b) i⟩ → t.pending g.idx = false → t.rg g.idx = !g.inv →
    i.isTileSide = true → i.pushes = false → s'.cur = t.uid → s'.ahead = true → t.status = .running →
    t.pairing = none → t.heldFault = none → t.extPending = false → t.histEntries < 64 → t.tiq.length < t.slip.toNat →
    ∃ s1 u, step s = .next s1 ∧ s1.team? t.uid = some u ∧ u.pc = t.pc + 8 ∧
      (sd ≠ 0 → u.rs sd = (alu op m (t.rs sa) (t.opd b)).1) ∧ (∀ r, r ≠ sd → u.rs r = t.rs r) ∧
      ∃ e, u.tiq = t.tiq ++ [e] ∧ e.instr = i ∧ e.pc = t.pc ∧ e.slot = true ∧ e.cap = ⟨t.ext, t.extc, t.drm, t.s⟩

/-! ### Registers and the history buffer -/

/-- R120, R115, R41: s0 reads 0 and a write to it is discarded without a history entry; any other register reads what was
written last; a write takes one entry that holds the old value while it is uncommitted: in a pair, or while some older tile-side
instruction has not passed its fault point, as only an ALLX does before it is done (R369). The same for guards: g0 reads 1 and
cannot be written. What a committed write leaves for a forced save that withdraws an open ALLX is the model's own (log 104). -/
def Obligations.RegisterWrites : Prop :=
  ∀ (t : Team) (r : SReg) (v : Word) (k : GReg) (b : Bool),
    let entry := fun (u : UndoWhat) => if t.pairing.isSome ∨ t.clear = false then ⟨t.seqHere, u⟩ :: t.hist else t.hist
    let kept := fun (u : UndoWhat) =>
      if (t.pairing = none ∧ t.clear = true) ∧ t.behindOpen t.seqHere = true then ⟨t.seqHere, u⟩ :: t.late else t.late
    (t.clear = true ↔ ∀ e ∈ t.tiq, e.begun = true ∧ ∃ n td ta sr sc, e.instr = .allx n td ta sr sc) ∧
    t.rs 0 = 0 ∧ t.wrS 0 v = t ∧ t.rg 0 = true ∧ t.wrG 0 b = t ∧
    (r ≠ 0 → (t.wrS r v).rs r = v ∧ (∀ r', r' ≠ r → (t.wrS r v).rs r' = t.rs r') ∧
      t.wrS r v = { t with
        s := t.s.set r.toFin v, hist := entry (.sreg r (t.rs r)), late := kept (.sreg r (t.rs r)) }) ∧
    (k ≠ 0 → (t.wrG k b).rg k = b ∧ (∀ k', k' ≠ k → (t.wrG k b).rg k' = t.rg k') ∧
      t.wrG k b = { t with
        g := setBit t.g k.toNat b, hist := entry (.greg k (t.rg k)), late := kept (.greg k (t.rg k)) })

/-- R116: undoing the uncommitted writes of a word gives back what stood before it: a scalar register, a guard, a writable
special register, the popped head of the branch queue with its credit. -/
def Obligations.UndoRestores : Prop :=
  ∀ (t : Team) (r : SReg) (v : Word) (k : GReg) (b : Bool) (n : BitVec 5) (x : Word) (xs : List Word),
    t.logs = true → (∀ u ∈ t.hist ++ t.late, u.seq < t.seqHere) →
    ((t.wrS r v).undoFrom t.seqHere).s = t.s ∧
    ((t.wrG k b).undoFrom t.seqHere).g = t.g ∧
    (n.toNat ≤ 6 → ((t.wrSpr n v).undoFrom t.seqHere).getSpr n = t.getSpr n) ∧
    (t.bq = x :: xs → 0 < t.credits →
      ({ t.log (.pop x) with bq := xs, credits := t.credits - 1 }.undoFrom t.seqHere).bq = t.bq ∧
      ({ t.log (.pop x) with bq := xs, credits := t.credits - 1 }.undoFrom t.seqHere).credits = t.credits)

/-- R220, Table 7.5: a fault taken by a team with no tile-side work stops it at the faulting word with its registers as they
are; FCRD and XROW are loaded, the context's record number advances, the launch counts the fault, and a record is posted
that names the context, the kind, the path, the slot, the team, the PC, the word, the number and CYC. -/
def Obligations.FaultTaken : Prop :=
  ∀ (s : State) (t : Team) (h : HeldFault) (c : Ctx) (l : Launch),
    s.team? t.uid = some t → t.Quiet → s.teamCtx? t = some c → s.launch? t.launch = some l →
    ∃ u c' words,
      (s.takeFault t.uid h).team? t.uid = some u ∧
      u = { t with status := .stopped h.resume c.faultSeq, pc := h.pc, wordSeq := h.seq, wait := .none, tileWalk := none,
                   broken := none, fcrd := fcrdOf h.info, xrow := h.info.xrow.getD t.xrow, heldFault := none } ∧
      (s.takeFault t.uid h).teamCtx? t = some c' ∧
      c' = { c with faultSeq := c.faultSeq + 1, posts := c.posts ++ [⟨t.uid, t.launch, words⟩] } ∧
      (s.takeFault t.uid h).launch? t.launch = some { l with faults := l.faults + 1 } ∧
      (words.getD 0 0).extractLsb' 48 16 = t.ctx ∧ (words.getD 0 0).extractLsb' 40 8 = h.info.kind ∧
      (words.getD 0 0).extractLsb' 37 3 = h.info.path.code ∧ (words.getD 0 0).getLsbD 36 = h.slot ∧
      (words.getD 0 0).getLsbD 35 = decide (8 < words.length) ∧
      (words.getD 0 0).extractLsb' 25 10 = 0 ∧ (words.getD 0 0).extractLsb' 0 25 = t.gid ∧
      words.getD 1 0 = h.pc ∧ words.getD 2 0 = h.word ∧
      (words.getD 6 0).extractLsb' 0 32 = c.faultSeq ∧ words.getD 7 0 = s.cyc t

/-! ### Arithmetic, logic, counts, guards, constants -/

/-- R123: the operations of the ALU, in every mode that Table 4.6 permits, for either form of operand b, with SATF. The
result goes to sd, the front goes on to the next word, and nothing else of the state changes. -/
def Obligations.AluResults : Prop :=
  ∀ (op : AluOp) (m : AluMode) (sd sa : SReg) (b : Opd) (s : State) (t : Team),
    (aluInstr op m sd sa b).wellFormed = true → s.Issues t (aluInstr op m sd sa b) →
    exec (aluInstr op m sd sa b) s = .next (s.putTeam
      ((if (aluRule op m (t.rs sa) (t.opd b)).2
        then (t.wrS sd (aluRule op m (t.rs sa) (t.opd b)).1).setSat
        else t.wrS sd (aluRule op m (t.rs sa) (t.opd b)).1).advance 8))

/-- R124: CLZ, CTZ and POPC count the leading zeros, the trailing zeros and the set bits of the low n bits; the first two
give n for a zero operand. -/
def Obligations.CountResults : Prop :=
  ∀ (w : Bool) (sd sa : SReg) (s : State) (t : Team), s.issuing? = some t →
    (t.mustWait (.clz w sd sa) = false → ∃ v, IsLeadingZeros (if w then 32 else 64) (t.rs sa) v ∧
      exec (.clz w sd sa) s = .next (s.putTeam ((t.wrS sd (BitVec.ofNat 64 v)).advance 8))) ∧
    (t.mustWait (.ctz w sd sa) = false → ∃ v, IsTrailingZeros (if w then 32 else 64) (t.rs sa) v ∧
      exec (.ctz w sd sa) s = .next (s.putTeam ((t.wrS sd (BitVec.ofNat 64 v)).advance 8))) ∧
    (t.mustWait (.popc w sd sa) = false →
      exec (.popc w sd sa) s = .next (s.putTeam
        ((t.wrS sd (BitVec.ofNat 64 (setBitsOf (if w then 32 else 64) (t.rs sa)))).advance 8)))

/-- R125: SEL takes a when the guard is 1 and b otherwise; with k = 0 always a; while the guard is pending it waits (R112).
-/
def Obligations.SelResult : Prop :=
  ∀ (k : GReg) (sd sa : SReg) (b : Opd) (s : State) (t : Team),
    (s.Issues t (.sel k sd sa b) →
      (t.rg k = true → exec (.sel k sd sa b) s = .next (s.putTeam ((t.wrS sd (t.rs sa)).advance 8))) ∧
      (t.rg k = false → exec (.sel k sd sa b) s = .next (s.putTeam ((t.wrS sd (t.opd b)).advance 8))) ∧
      (k = 0 → exec (.sel k sd sa b) s = .next (s.putTeam ((t.wrS sd (t.rs sa)).advance 8)))) ∧
    (s.issuing? = some t → t.pending k = true → exec (.sel k sd sa b) s = .next s)

/-- R126, R127: CMP combines its condition into a guard, GOP writes the chosen function of two guards. -/
def Obligations.GuardResults : Prop :=
  ∀ (cc : BitVec 3) (cb : BitVec 2) (gk : GReg) (sa : SReg) (b : Opd) (op : BitVec 3) (gd ga gb : GReg) (s : State) (t : Team),
    (s.Issues t (.cmp cc cb gk sa b) → ∃ c : Bool, (c = true ↔ cmpRule cc (t.rs sa) (t.opd b)) ∧
      exec (.cmp cc cb gk sa b) s = .next (s.putTeam ((t.wrG gk
        (match cb with
         | 0#2 => c
         | 1#2 => t.rg gk && c
         | 2#2 => t.rg gk || c
         | _ => t.rg gk && !c)).advance 8))) ∧
    (s.Issues t (.gop op gd ga gb) →
      exec (.gop op gd ga gb) s = .next (s.putTeam ((t.wrG gd
        (match op with
         | 0#3 => t.rg ga && t.rg gb
         | 1#3 => t.rg ga || t.rg gb
         | 2#3 => (t.rg ga).xor (t.rg gb)
         | 3#3 => t.rg ga && !t.rg gb
         | 4#3 => t.rg ga || !t.rg gb
         | 5#3 => !(t.rg ga && t.rg gb)
         | 6#3 => !(t.rg ga || t.rg gb)
         | _ => !(t.rg ga).xor (t.rg gb))).advance 8)))

/-- R128: LI writes the sign-extended immediate, or in X form the literal; LIH writes the upper half and keeps the lower.
Each is a register write (R115), made by `wrS`. -/
def Obligations.ConstantResults : Prop :=
  ∀ (sd : SReg) (imm : BitVec 32) (lit : Word) (s : State) (t : Team), s.issuing? = some t →
    (t.mustWait (.li sd imm) = false → exec (.li sd imm) s = .next (s.putTeam ((t.wrS sd (imm.signExtend 64)).advance 8))) ∧
    (t.mustWait (.liX sd lit) = false → exec (.liX sd lit) s = .next (s.putTeam ((t.wrS sd lit).advance 16))) ∧
    (t.mustWait (.lih sd imm) = false → ∃ v : Word, v.extractLsb' 32 32 = imm ∧
      v.extractLsb' 0 32 = (t.rs sd).extractLsb' 0 32 ∧
      exec (.lih sd imm) s = .next (s.putTeam ((t.wrS sd v).advance 8)))

/-- R129, R141, R55, R280, R281: LEA's three forms, and the words that write nothing: NOP, hints, PREF and EVICT; WINQ
writes the window entry, or all ones outside the window. -/
def Obligations.AddressAndNoEffect : Prop :=
  ∀ (sd sa sb : SReg) (n : BitVec 3) (imm : BitVec 32) (fmt : HintFmt) (op : BitVec 4) (rest : BitVec 48) (l1 : Bool)
    (kind : BitVec 2) (len b : Opd) (c : Ctx) (s : State) (t : Team), s.issuing? = some t →
    (t.mustWait (.lea sd (.index sa sb n)) = false → exec (.lea sd (.index sa sb n)) s =
      .next (s.putTeam ((t.wrS sd (t.rs sa + (t.rs sb <<< n.toNat))).advance 8))) ∧
    (t.mustWait (.lea sd (.base sa imm)) = false → exec (.lea sd (.base sa imm)) s =
      .next (s.putTeam ((t.wrS sd (t.rs sa + imm.signExtend 64)).advance 8))) ∧
    (t.mustWait (.lea sd (.label imm)) = false → exec (.lea sd (.label imm)) s =
      .next (s.putTeam ((t.wrS sd (t.pc + imm.signExtend 64)).advance 8))) ∧
    (t.mustWait .nop = false → exec .nop s = .next (s.putTeam (t.advance 8))) ∧
    (t.mustWait (.hint fmt op rest) = false →
      exec (.hint fmt op rest) s = .next (s.putTeam (t.advance (if fmt = .x then 16 else 8)))) ∧
    (t.mustWait (.pref l1 sa len) = false → exec (.pref l1 sa len) s = .next (s.putTeam (t.advance 8))) ∧
    (t.mustWait (.evict kind sa len) = false → exec (.evict kind sa len) s = .next (s.putTeam (t.advance 8))) ∧
    (t.mustWait (.winq sd sa b) = false → s.teamCtx? t = some c → exec (.winq sd sa b) s =
      .next (s.putTeam ((t.wrS sd
        (if 0x0008000000000000 ≤ (t.rs sa + t.opd b).toNat ∧ (t.rs sa + t.opd b).toNat < 0x0008040000000000
         then kget 0 c.win (((t.rs sa + t.opd b).toNat - 0x0008000000000000) / 2 ^ 25)
         else 0xFFFFFFFFFFFFFFFF)).advance 8)))

/-- The frame of the scalar instructions that touch nothing but registers: when one gives a next state, every other team,
every byte of memory on every path, every other register, the flags and the queues stay as they were. -/
def Obligations.RegisterOnlyFrame : Prop :=
  ∀ (s s' : State) (t : Team) (i : Instr), s.Issues t i → i.registerOnly = true → i.wellFormed = true →
    exec i s = .next s' →
    ∃ t', s' = s.putTeam t' ∧
      t' = { t with pc := t'.pc, wordSeq := t'.wordSeq, wait := t'.wait, hist := t'.hist, late := t'.late, s := t'.s,
                    g := t'.g, satf := t'.satf } ∧
      (∀ r, i.destS ≠ some r → t'.rs r = t.rs r) ∧ (∀ k, i.destG ≠ some k → t'.rg k = t.rg k) ∧
      (i.saturates = false → t'.satf = t.satf) ∧
      (∀ v, v ≠ t.uid → s'.team? v = s.team? v) ∧
      (∀ u p k, s'.viewBytes u p [k] = s.viewBytes u p [k]) ∧ (∀ k, Memory.get s'.mem k = Memory.get s.mem k)

/-! ### Special registers and the branch queue -/

/-- R136: MFS reads a special register, zero-extended; an MTS whose value fits writes it and one whose value does not raises
illegal operation with the register as it was. R134, R113: BQPOP removes the head entry and gives back its credit; with no
push to come it is an illegal operation, and while the entry is still to come it waits. -/
def Obligations.SpecialRegisters : Prop :=
  (∀ (sd sa : SReg) (n : BitVec 5) (s : State) (t : Team), s.issuing? = some t →
      (t.mustWait (.mfs sd n) = false → exec (.mfs sd n) s = .next (s.putTeam ((t.wrS sd (s.sprRead t n)).advance 8))) ∧
      (t.mustWait (.mts n sa) = false → sprFits n (t.rs sa) = true →
        exec (.mts n sa) s = .next (s.putTeam ((t.wrSpr n (t.rs sa)).advance 8))) ∧
      (t.mustWait (.mts n sa) = false → sprFits n (t.rs sa) = false →
        exec (.mts n sa) s = .next (s.frontFault t.uid (FaultInfo.plain 0x02 .team) none)) ∧
      (n.toNat ≤ 6 → sprFits n (t.rs sa) = true → s.sprRead (t.wrSpr n (t.rs sa)) n = t.rs sa)) ∧
  (∀ (sd : SReg) (s : State) (t : Team), s.Issues t (.bqpop sd) →
      (∀ v vs, t.bq = v :: vs → t.credits ≠ 0 → exec (.bqpop sd) s =
        .next (s.putTeam ((({ t.log (.pop v) with bq := vs, credits := t.credits - 1 } : Team).wrS sd v).advance 8))) ∧
      (t.credits = 0 → exec (.bqpop sd) s = .next (s.frontFault t.uid (FaultInfo.plain 0x02 .team) none)) ∧
      (t.bq = [] → t.credits ≠ 0 → exec (.bqpop sd) s = .next s))

/-! ### Control transfers, waits, traps -/

/-- R133: LOOP counts sd down and transfers while the count is not zero; with s0 it transfers every time. -/
def Obligations.LoopResult : Prop :=
  ∀ (sd : SReg) (off : BitVec 32) (s : State) (t : Team), s.Issues t (.loop sd off) → t.pc.toNat % 8 = 0 →
    (t.rs sd - 1 = 0 → exec (.loop sd off) s = .next (s.putTeam ((t.wrS sd 0).advance 8))) ∧
    (t.rs sd - 1 ≠ 0 → exec (.loop sd off) s =
      .next (s.putTeam ((t.wrS sd (t.rs sd - 1)).jumpTo (t.pc + 8 * off.signExtend 64)))) ∧
    (sd = 0 → exec (.loop sd off) s = .next (s.putTeam (t.jumpTo (t.pc + 8 * off.signExtend 64))))

/-- R132, R40: BR, JMP, CALL and RET set the next PC, CALL after writing the address of the next word; a register target that
is no word address is an illegal instruction at the transfer, whose register is not written; that fault's PATH is 0 by the
model's reading (log 32). -/
def Obligations.TransferResults : Prop :=
  ∀ (sd sa : SReg) (off : BitVec 32) (s : State) (t : Team), s.issuing? = some t → t.pc.toNat % 8 = 0 →
    (t.mustWait (.br off) = false →
      exec (.br off) s = .next (s.putTeam (t.jumpTo (t.pc + 8 * off.signExtend 64)))) ∧
    (t.mustWait (.jmp sa off) = false → (t.rs sa + off.signExtend 64).toNat % 8 = 0 →
      exec (.jmp sa off) s = .next (s.putTeam (t.jumpTo (t.rs sa + off.signExtend 64)))) ∧
    (t.mustWait (.jmp sa off) = false → (t.rs sa + off.signExtend 64).toNat % 8 ≠ 0 →
      exec (.jmp sa off) s = .next (s.frontFault t.uid (FaultInfo.plain 0x01 .team) none)) ∧
    (t.mustWait (.call sd (.label off)) = false → exec (.call sd (.label off)) s =
      .next (s.putTeam ((t.wrS sd (t.pc + 8)).jumpTo (t.pc + 8 * off.signExtend 64)))) ∧
    (t.mustWait (.call sd (.reg sa)) = false → (t.rs sa).toNat % 8 = 0 →
      exec (.call sd (.reg sa)) s = .next (s.putTeam ((t.wrS sd (t.pc + 8)).jumpTo (t.rs sa)))) ∧
    (t.mustWait (.call sd (.reg sa)) = false → (t.rs sa).toNat % 8 ≠ 0 →
      exec (.call sd (.reg sa)) s = .next (s.frontFault t.uid (FaultInfo.plain 0x01 .team) none)) ∧
    (t.mustWait (.ret sa) = false → (t.rs sa).toNat % 8 = 0 →
      exec (.ret sa) s = .next (s.putTeam (t.jumpTo (t.rs sa)))) ∧
    (t.mustWait (.ret sa) = false → (t.rs sa).toNat % 8 ≠ 0 →
      exec (.ret sa) s = .next (s.frontFault t.uid (FaultInfo.plain 0x01 .team) none))

/-- R135, R137: DRAIN goes on once its queues are empty, handing pairs to the Press with .upd; YIELD goes on when no request
is pending, and with one it drains, writes the address of the next word and transfers. -/
def Obligations.DrainAndYield : Prop :=
  ∀ (upd copy tiq : Bool) (sd : SReg) (off : BitVec 32) (s : State) (t : Team), s.issuing? = some t →
    (t.mustWait (.drain upd copy tiq) = false → upd = false → exec (.drain upd copy tiq) s = .next (s.advance t.uid 8)) ∧
    (t.mustWait (.drain upd copy tiq) = false → upd = true → s.Clears t.uid →
      exec (.drain upd copy tiq) s = .next ((s.handOffAll t.uid).advance t.uid 8)) ∧
    (t.mustWait (.yield sd off) = false → t.preq = false → exec (.yield sd off) s = .next (s.advance t.uid 8)) ∧
    (t.mustWait (.yield sd off) = false → t.preq = true → s.Clears t.uid →
      exec (.yield sd off) s = .next ((s.handOffAll t.uid).modTeam t.uid (fun u =>
        (u.wrS sd (u.pc + 8)).jumpTo (u.pc + 8 * off.signExtend 64))))

/-- R140: TRAP raises the software-trap fault and BRK the breakpoint fault at the word's PC, with the code in the record; a
handler that resumes the team resumes it at the following word. While older tile-side work has not passed its fault point
they wait; behind an ALLX alone that has joined its exchange they need not (R369). -/
def Obligations.TrapAndBreak : Prop :=
  ∀ (code : BitVec 16) (s : State) (t : Team), s.issuing? = some t → t.pairing = none →
    (t.mustWait (.trap code) = false → exec (.trap code) s = .next (s.takeFault t.uid
      ⟨{ FaultInfo.plain 0x0E .team with code }, t.wordSeq, t.pc, t.word, false, t.pc + 8⟩)) ∧
    (t.mustWait (.brk code) = false → exec (.brk code) s = .next (s.takeFault t.uid
      ⟨{ FaultInfo.plain 0x0F .team with code }, t.wordSeq, t.pc, t.word, false, t.pc + 8⟩)) ∧
    (t.clear = false → exec (.trap code) s = .next s ∧ exec (.brk code) s = .next s) ∧
    (t.heldFault = none → t.clear = true →
      t.mustWait (.trap code) = false ∧ t.mustWait (.brk code) = false)

/-! ### Scalar memory accesses -/

/-- R130: a load whose address is aligned and translates reads its bytes, least significant first, and writes them to sd
extended; an address that is no multiple of the size raises an alignment fault and performs nothing. That the alignment fault
comes first where the address is not canonical or does not translate either is the model's reading (log 115, DEDUCED): R130
does not rank the two. -/
def Obligations.LoadResult : Prop :=
  ∀ (z : BitVec 2) (u : Bool) (sd sa : SReg) (b : Opd) (s : State) (t : Team), s.Issues t (.ld z u sd sa b) →
    (∀ ks, s.loadKeys t (t.rs sa + t.opd b) (2 ^ z.toNat) = .ok ks →
      exec (.ld z u sd sa b) s = .next ((s.rackKeys ks).modTeam t.uid (fun v =>
        (v.wrS sd (loadRule z u (s.loadBytes t ks).1)).advance 8))) ∧
    ((t.rs sa + t.opd b).toNat % 2 ^ z.toNat ≠ 0 →
      exec (.ld z u sd sa b) s = .next (s.frontFault t.uid
        { FaultInfo.plain 0x03 .team with addr := some ((t.rs sa + t.opd b).truncate 52) } none))

/-- R131: LDFF with no rows only clears FSR; else it loads as LD does, and stops the count EXT at the first later element
whose address would fault, whose number and kind go to FSR; when none would, FSR is cleared. -/
def Obligations.FirstFaultLoad : Prop :=
  ∀ (z : BitVec 2) (u : Bool) (sd sa : SReg) (b : Opd) (s : State) (t : Team), s.Issues t (.ldff z u sd sa b) →
    (t.ext = 0 → exec (.ldff z u sd sa b) s = .next (s.putTeam ((t.wrSpr 2 0).advance 8))) ∧
    (∀ ks, t.ext ≠ 0 → s.loadKeys t (t.rs sa + t.opd b) (2 ^ z.toNat) = .ok ks →
      (∀ i, 1 ≤ i → i < t.ext.toNat →
        ∃ k, s.xlateScalar t .read (t.rs sa + t.opd b + BitVec.ofNat 64 (i * 2 ^ z.toNat)) = .ok k) →
      exec (.ldff z u sd sa b) s = .next ((s.rackKeys ks).modTeam t.uid (fun v =>
        ((v.wrS sd (loadRule z u (s.loadBytes t ks).1)).wrSpr 2 0).advance 8))) ∧
    (∀ ks n kind p q, t.ext ≠ 0 → s.loadKeys t (t.rs sa + t.opd b) (2 ^ z.toNat) = .ok ks →
      1 ≤ n → n < t.ext.toNat →
      (∀ i, 1 ≤ i → i < n →
        ∃ k, s.xlateScalar t .read (t.rs sa + t.opd b + BitVec.ofNat 64 (i * 2 ^ z.toNat)) = .ok k) →
      s.xlateScalar t .read (t.rs sa + t.opd b + BitVec.ofNat 64 (n * 2 ^ z.toNat)) = .fault kind p q →
      exec (.ldff z u sd sa b) s = .next ((s.rackKeys ks).modTeam t.uid (fun v =>
        (((v.wrS sd (loadRule z u (s.loadBytes t ks).1)).wrSpr 0 (BitVec.ofNat 64 n)).wrSpr 2
          (BitVec.ofNat 64 (n * 65536 + kind.toNat * 256 + 1))).advance 8)))

/-- R130, R118: a store whose address is aligned and translates writes the low bytes of its register, least significant first:
at once when every older tile-side instruction has passed its fault point, else, and in the scalar slot of a pair, it is held
in program order. The oldest held store performs when everything older has passed its fault point. An unaligned address faults
and performs nothing; that the alignment fault comes before any fault of translation is the model's reading (log 115,
DEDUCED). What a store leaves for a forced save that withdraws an open ALLX before it is the model's own (log 104); with
nothing in the TIQ it leaves nothing. -/
def Obligations.StoreResult : Prop :=
  ∀ (z : BitVec 2) (sd sa : SReg) (b : Opd) (s : State) (t : Team),
    (s.Issues t (.st z sd sa b) →
      (∀ ks, s.scalarKeys t .write .team (t.rs sa + t.opd b) (2 ^ z.toNat) = .ok ks →
        let cells := ks.zip ((List.range (2 ^ z.toNat)).map (fun i => (t.rs sd).extractLsb' (8 * i) 8))
        (t.clear = true → t.pairing = none → exec (.st z sd sa b) s = .next (((s.store t.uid .team cells).modTeam t.uid (fun u =>
          u.keepLate t.wordSeq (.write s.nextId))).advance t.uid 8)) ∧
        (t.tiq = [] → ∀ n w, t.keepLate n w = t) ∧
        (t.clear = false ∨ t.pairing.isSome = true → exec (.st z sd sa b) s = .next ((s.modTeam t.uid (fun u =>
          { u with sbuf := u.sbuf ++ [⟨t.seqHere, cells⟩] })).advance t.uid 8))) ∧
      ((t.rs sa + t.opd b).toNat % 2 ^ z.toNat ≠ 0 →
        exec (.st z sd sa b) s = .next (s.frontFault t.uid
          { FaultInfo.plain 0x03 .team with addr := some ((t.rs sa + t.opd b).truncate 52) } none))) ∧
    (∀ h hs, s.At t.gid t → t.sbuf = h :: hs → h.seq < t.safeSeq → (∀ x ∈ hs, h.seq < x.seq) →
      exec (.storePerform t.gid) s = .next (((s.putTeam { t with sbuf := hs }).store t.uid .team h.cells).modTeam t.uid (fun u =>
        u.keepLate h.seq (.write s.nextId))))

/-- R208, R209: what a store changes and what it leaves. Its bytes read back as written on its own path; every byte that it
does not write reads as before, to every team and on every path; no other team and no register changes. It reads back under
the naming that every step keeps (WriteNamesFresh), where no write that the team made on another path covers the byte. -/
def Obligations.StoreFrame : Prop :=
  ∀ (s : State) (t : Team) (p : Path) (cells : List Host.Cell), s.team? t.uid = some t →
    ∃ t', (s.store t.uid p cells).team? t.uid = some t' ∧ t' = t.setView p (t.view p ++ [s.nextId]) ∧
      (∀ q k, s.WritesFresh → kfind cells k = none → (s.store t.uid p cells).viewBytes t' q [k] = s.viewBytes t q [k]) ∧
      (∀ v, v ≠ t.uid → (s.store t.uid p cells).team? v = s.team? v) ∧
      (∀ u q k, kfind cells k = none → (s.store t.uid p cells).viewBytes u q [k] = s.viewBytes u q [k]) ∧
      (s.store t.uid p cells).mem = s.mem ∧
      (∀ k b, s.WritesFresh → (∀ w ∈ s.writes, w.uid = t.uid → w.path ≠ p → kfind w.cells k = none) →
        kfind cells k = some b → (s.store t.uid p cells).viewBytes t' p [k] = [b])

/-! ### Services -/

/-- R138, R139: EXIT ends a team that has neither parent nor children: its boundary completes at the scope of its record and
it leaves its core. R252: EXIT by a team in the child role, or by one with a child that it has not joined, is an illegal
operation. -/
def Obligations.ExitLeaves : Prop :=
  ∀ (sd : SReg) (s : State) (t : Team), s.Issues t (.exit sd) →
    (t.parent = none → t.kids = [] → s.Clears t.uid →
      let q := (s.handOffAll t.uid).publish t.uid (recScope ((s.handOffAll t.uid).recordOf t)) true true
      exec (.exit sd) s = .next
        ((q.1.complete t.uid (recScope ((s.handOffAll t.uid).recordOf t)) q.2 []).leave t q.2)) ∧
    (t.parent.isSome = true ∨ t.kids ≠ [] →
      exec (.exit sd) s = .next (s.frontFault t.uid (FaultInfo.plain 0x02 .team) none)) ∧
    (∀ s0 b, ((s0 : State).leave t b).team? t.uid = none)

/-- R138, R139, R62: SHAPE.SET refuses a bad handle, returns the status of the image that it read and enters an accepted
one; SHAPE.INV clears V and keeps every other bit; YIELD.DONE without a request returns 9, with one it gives up the core while
PDL is above 0 and after that waits for the forced save; a number that no table assigns returns 1. That YIELD.DONE writes its
status 0 before the save is the model's reading (log 65), the wait at PDL 0 too (log 96). -/
def Obligations.ShapeServices : Prop :=
  ∀ (sd : SReg) (n : BitVec 16) (s : State) (t : Team) (c : Ctx), s.issuing? = some t →
    (t.mustWait (.shapeSet sd) = false → t.rs 1 = 0 ∨ (t.rs 1).extractLsb' 16 48 ≠ 0 →
      exec (.shapeSet sd) s = .next (s.modTeam t.uid (fun u => (u.wrS sd 2).advance 8))) ∧
    (∀ ks, t.mustWait (.shapeSet sd) = false → t.rs 1 ≠ 0 → (t.rs 1).extractLsb' 16 48 = 0 →
      s.svcKeys t .read (t.rs 2) 64 = .ok (some ks) →
      let d := shapeOf (s.loadBytes t ks).1
      exec (.shapeSet sd) s = .next
        ((if shapeStatus d t.split = 0
          then (s.loadBytes t ks).2.putShape t.pkg t.ctx t.uid t.gid ((t.rs 1).truncate 16) d
          else (s.loadBytes t ks).2).modTeam t.uid (fun u => (u.wrS sd (shapeStatus d t.split)).advance 8))) ∧
    (t.mustWait (.shapeInv sd) = false → t.rs 1 ≠ 0 → (t.rs 1).extractLsb' 16 48 = 0 → s.teamCtx? t = some c →
      ∃ d, d.valid = false ∧
        d = { kget Shape.zero c.obj (t.rs 1).toNat with d1 := d.d1 } ∧
        (∀ b, b < 63 → d.d1.getLsbD b = (kget Shape.zero c.obj (t.rs 1).toNat).d1.getLsbD b) ∧
        exec (.shapeInv sd) s = .next ((s.putShape t.pkg t.ctx t.uid t.gid ((t.rs 1).truncate 16) d).modTeam t.uid
          (fun u => (u.wrS sd 0).advance 8))) ∧
    (t.mustWait (.yieldDone sd) = false → t.preq = false →
      exec (.yieldDone sd) s = .next (s.modTeam t.uid (fun u => (u.wrS sd 9).advance 8))) ∧
    (t.mustWait (.yieldDone sd) = false → t.preq = true → s.now < t.pdlEnd →
      exec (.yieldDone sd) s =
        .next ((s.modTeam t.uid (fun u => (u.wrS sd 0).advance 8)).suspend t.uid .yielded)) ∧
    (t.mustWait (.yieldDone sd) = false → t.preq = true → t.pdlEnd ≤ s.now → exec (.yieldDone sd) s = .next s) ∧
    (t.mustWait (.svcUnassigned sd n) = false →
      exec (.svcUnassigned sd n) s = .next (s.modTeam t.uid (fun u => (u.wrS sd 1).advance 8)))

/-- R310 to R312: the region services: registration, release once nothing is pending and every performed update is racked,
and the image with the clearing of its flags. A bad registration returns its status and changes nothing else. That the words
of a new region take the bytes that the registering team sees is the model's reading (log 62). -/
def Obligations.RegionServices : Prop :=
  ∀ (sd : SReg) (s : State) (t : Team) (c : Ctx), s.issuing? = some t → s.teamCtx? t = some c →
    (t.mustWait (.regionSet sd) = false →
      regionStatus c t.pkg (t.rs 1) (t.rs 2) (t.rs 3) (t.rs 4) (t.rs 5) = 0 →
      let r : Region := ⟨(t.rs 2).toNat, (t.rs 3).toNat, (t.rs 4).extractLsb' 0 4, (t.rs 4).extractLsb' 4 3,
        (t.rs 5).toNat, false, false, 0, [], [], []⟩
      exec (.regionSet sd) s = .next ((((s.ownContents t (c.frameKeys r.base r.bytes)).modCtx t.pkg t.ctx
        (fun x => x.putRegion (t.rs 1).toNat r)).noteHost t false (t.rs 1).toNat).modTeam t.uid (fun u =>
          (u.wrS sd 0).advance 8))) ∧
    (t.mustWait (.regionSet sd) = false →
      regionStatus c t.pkg (t.rs 1) (t.rs 2) (t.rs 3) (t.rs 4) (t.rs 5) ≠ 0 →
      exec (.regionSet sd) s = .next (s.modTeam t.uid (fun u =>
        (u.wrS sd (regionStatus c t.pkg (t.rs 1) (t.rs 2) (t.rs 3) (t.rs 4) (t.rs 5))).advance 8))) ∧
    (∀ c' r, t.mustWait (.regionRel sd) = false → 1 ≤ (t.rs 1).toNat → (t.rs 1).toNat ≤ 1023 →
      (kfind c.regions (t.rs 1).toNat).isSome = true → s.pendingFor t.pkg t.ctx (t.rs 1).toNat = false →
      let mine := fun (k : PressKey) => k.ctx == t.ctx && k.handle == (t.rs 1).toNat
      let z := s.rackKeysOf t.pkg mine
      (z.pkg t.pkg).keys.any mine = false → z.teamCtx? t = some c' → kfind c'.regions (t.rs 1).toNat = some r →
      let m := z.modCtx t.pkg t.ctx (fun x => { x with
        regions := kdel x.regions (t.rs 1).toNat,
        hostSets := x.hostSets.filter (fun y => y.2.1 || y.2.2 != (t.rs 1).toNat) })
      let y := m.systemStore t.ctx ((c'.frameKeys r.base r.bytes).map (fun k => (k, Memory.get m.mem k)))
      exec (.regionRel sd) s = .next ((if r.plane = 0 then y
        else y.spoil t.ctx (c'.frameKeys r.plane (r.len * 48))).modTeam t.uid (fun u => (u.wrS sd 0).advance 8))) ∧
    (∀ r ks, t.mustWait (.regionStat sd) = false → 1 ≤ (t.rs 1).toNat → (t.rs 1).toNat ≤ 1023 →
      kfind c.regions (t.rs 1).toNat = some r → (t.rs 3).extractLsb' 1 63 = 0 →
      s.svcKeys t .write (t.rs 2) 40 = .ok (some ks) →
      let y := storeDwords t.uid (regionImage r) ks s
      exec (.regionStat sd) s = .next ((if (t.rs 3).getLsbD 0
        then y.modCtx t.pkg t.ctx (fun x => x.putRegion (t.rs 1).toNat { r with nv := false, of := false }) else y).modTeam t.uid
          (fun u => (u.wrS sd 0).advance 8)))

/-- R332, R333, R342: the vintage services and counters. That the backing area then holds unspecified bytes is R332's; that
they are free values is the model's form (log 5). -/
def Obligations.VintageServices : Prop :=
  ∀ (sd : SReg) (k : BitVec 2) (clr : Bool) (s : State) (t : Team) (c : Ctx), s.issuing? = some t → s.teamCtx? t = some c →
    (t.mustWait (.vntSet sd) = false →
      vntStatus c t.pkg (t.rs 1) (t.rs 2) (t.rs 3) (t.rs 4) (t.rs 5) (t.rs 6) = 0 →
      let tb := vntOf (t.rs 2) (t.rs 3) (t.rs 4) (t.rs 5) (t.rs 6)
      exec (.vntSet sd) s = .next (((s.modCtx t.pkg t.ctx (fun x =>
        { x with tables := kput x.tables (t.rs 1).toNat tb })).noteHost t true (t.rs 1).toNat).modTeam t.uid (fun u =>
          (u.wrS sd 0).advance 8))) ∧
    (∀ tb, t.mustWait (.vntRel sd) = false → 1 ≤ (t.rs 1).toNat → (t.rs 1).toNat ≤ 63 →
      kfind c.tables (t.rs 1).toNat = some tb →
      (∀ u ∈ s.teams, ∀ e ∈ u.tiq, e.usesTable (t.rs 1).toNat = false) →
      exec (.vntRel sd) s = .next (((s.modCtx t.pkg t.ctx (fun x => { x with
        tables := kdel x.tables (t.rs 1).toNat,
        hostSets := x.hostSets.filter (fun y => !y.2.1 || y.2.2 != (t.rs 1).toNat) })).spoil t.ctx (c.frameKeys tb.back (tb.nblk * tb.esz))).modTeam
          t.uid (fun u => (u.wrS sd 0).advance 8))) ∧
    (∀ tb, t.mustWait (.vntInv sd) = false → 1 ≤ (t.rs 1).toNat → (t.rs 1).toNat ≤ 63 →
      kfind c.tables (t.rs 1).toNat = some tb → (t.rs 2).toNat < tb.nblk → (t.rs 2).toNat + (t.rs 3).toNat ≤ tb.nblk →
      ∃ tb', tb' = { tb with entries := tb'.entries } ∧
        (∀ b, kget VEntry.empty tb'.entries b = { kget VEntry.empty tb.entries b with
          v := (kget VEntry.empty tb.entries b).v && !(decide ((t.rs 2).toNat ≤ b) &&
            decide (b < if t.rs 3 = 0 then tb.nblk else (t.rs 2).toNat + (t.rs 3).toNat)) }) ∧
        exec (.vntInv sd) s = .next ((s.modCtx t.pkg t.ctx (fun x =>
          { x with tables := kput x.tables (t.rs 1).toNat tb' })).modTeam t.uid (fun u => (u.wrS sd 0).advance 8))) ∧
    (t.mustWait (.vntc k clr sd) = false →
      exec (.vntc k clr sd) s = .next ((if clr then s.modCtx t.pkg t.ctx (fun x => x.clearCounter k) else s).modTeam t.uid
        (fun u => (u.wrS sd (c.counter k)).advance 8)))

/-! ### Tiles: element-wise operations, moves, conversions -/

/-- R176, R177: the eight element-wise operations compute every element of the extent from the elements of their sources in
that place, with the rounding, flags and draws of the number formats. -/
def Obligations.ElementWise : Prop :=
  ∀ (s : State) (t : Team) (sat : Bool) (rm : Rm) (cc : BitVec 3) (td : TReg) (ta tb : Src),
    let k := fun (x : TIn) => cls (x.rd td).geo.etype
    let a := fun (x : TIn) (r c : Nat) => (x.rd ta.t).el r c
    let b := fun (x : TIn) (r c : Nat) => (x.rd tb.t).el r c
    let d := fun (x : TIn) (r c : Nat) => (x.rd td).el r c
    let arith := fun (op : Nat) (x : TIn) => x.fillWith td (fun r c =>
      ewArith op sat (if rm = 6 then x.c.drm else rm) (k x) (a x r c) (b x r c) (d x r c))
    let ok := fun (_ : TIn) => True
    s.TileDone t (.tadd sat rm td ta tb) [ta.t, tb.t] ok (arith 0) ∧
    s.TileDone t (.tsub sat rm td ta tb) [ta.t, tb.t] ok (arith 1) ∧
    s.TileDone t (.tmul sat rm td ta tb) [ta.t, tb.t] ok (arith 2) ∧
    s.TileDone t (.tfma sat rm td ta tb) [ta.t, tb.t] ok (arith 3) ∧
    s.TileDone t (.tmax td ta tb) [ta.t, tb.t] ok (fun x =>
      x.fillWith td (fun r c => ewMinMax true (k x) (a x r c) (b x r c))) ∧
    s.TileDone t (.tmin td ta tb) [ta.t, tb.t] ok (fun x =>
      x.fillWith td (fun r c => ewMinMax false (k x) (a x r c) (b x r c))) ∧
    s.TileDone t (.tcmp cc td ta tb) [ta.t, tb.t] ok (fun x =>
      x.fillWith td (fun r c => ewCmp cc.toNat (k x) (a x r c) (b x r c))) ∧
    s.TileDone t (.tsel td ta tb) [ta.t, tb.t] ok (fun x =>
      x.fillWith td (fun r c e => (if nonZero (x.rd td).geo.etype (d x r c) then a x r c else b x r c, e)))

/-- R176, R177, R146: on integer tiles that no stream feeds, the operations without saturation give each element of the
extent the wrapped exact result, the maximum, the minimum or the selection, and every other element of the destination 0. -/
def Obligations.ElementWiseIntegers : Prop :=
  ∀ (s : State) (t : Team) (rm : Rm) (td : TReg) (ta tb : Src) (a b d : Tile) (w : Nat) (sg : Bool),
    t.tile ta.t = some a → t.tile tb.t = some b → t.tile td = some d → a.strm = none → b.strm = none →
    eclass d.geo.etype = some (.int w sg) → t.capture.live = true →
    let er := t.ext.toNat
    let ec := t.extc.toNat
    let x := fun (r c : Nat) => intOf w sg (a.el r c)
    let y := fun (r c : Nat) => intOf w sg (b.el r c)
    let z := fun (r c : Nat) => intOf w sg (d.el r c)
    (s.Takes t (.tadd false rm td ta tb) →
      s.ShowsTile t (.tadd false rm td ta tb) td er ec (fun r c => intCode w (x r c + y r c))) ∧
    (s.Takes t (.tsub false rm td ta tb) →
      s.ShowsTile t (.tsub false rm td ta tb) td er ec (fun r c => intCode w (x r c - y r c))) ∧
    (s.Takes t (.tmul false rm td ta tb) →
      s.ShowsTile t (.tmul false rm td ta tb) td er ec (fun r c => intCode w (x r c * y r c))) ∧
    (s.Takes t (.tfma false rm td ta tb) →
      s.ShowsTile t (.tfma false rm td ta tb) td er ec (fun r c => intCode w (x r c * y r c + z r c))) ∧
    (s.Takes t (.tmax td ta tb) →
      s.ShowsTile t (.tmax td ta tb) td er ec (fun r c => if y r c ≤ x r c then a.el r c else b.el r c)) ∧
    (s.Takes t (.tmin td ta tb) →
      s.ShowsTile t (.tmin td ta tb) td er ec (fun r c => if x r c ≤ y r c then a.el r c else b.el r c)) ∧
    (s.Takes t (.tsel td ta tb) →
      s.ShowsTile t (.tsel td ta tb) td er ec (fun r c => if z r c ≠ 0 then a.el r c else b.el r c))

/-- R169 to R172, R146: what the moves leave in a destination that no stream feeds: TMOV the source's elements, TTRN its
transpose, TFILL one value, TIOTA a ramp, TSLIDE in its eight forms the elements moved by n with the fill's or zeros shifted
in; every element beyond the extent is 0. TMOV of an MX tile moves the scales of the segments that the extent touches; of a
packed tile it moves the bitmap, the count and the stored values whole. A trit code 0b10 arrives as 0 (R12, log 83). The
model's readings: TMOV of a packed tile moves it also where the extent is empty (log 80) and compares the formats of the two
tiles, not their capacities (log 14). -/
def Obligations.MovesAndFills : Prop :=
  ∀ (s : State) (t : Team) (td : TReg) (ta fb : Src) (sa sb : SReg) (n : BitVec 6) (a b d : Tile),
    t.tile td = some d → t.tile ta.t = some a → t.tile fb.t = some b → a.strm = none → b.strm = none →
    let er := t.ext.toNat
    let ec := t.extc.toNat
    let m := 2 ^ ebits d.geo.etype
    let w := tritFix d.geo.etype
    (d.geo.layout = 0 → t.capture.live = true →
      (s.Takes t (.tmov td ta) → s.ShowsTile t (.tmov td ta) td er ec (fun r c => w (a.el r c))) ∧
      (s.Takes t (.ttrn td ta) → s.ShowsTile t (.ttrn td ta) td ec er (fun r c => w (a.el c r))) ∧
      (s.Takes t (.tfill td sa) → s.ShowsTile t (.tfill td sa) td er ec (fun _ _ => w ((t.rs sa).toNat % m))) ∧
      (s.Takes t (.tiota td sa sb) →
        s.ShowsTile t (.tiota td sa sb) td er ec (fun r c => ((t.rs sa).toNat + r * (t.rs sb).toNat + c) % m)) ∧
      (∀ fill, fill = none ∨ fill = some fb →
        let z := fun (r c : Nat) => if fill = none then 0 else b.el r c
        (s.Takes t (.tslide 0 fill td ta n) → s.ShowsTile t (.tslide 0 fill td ta n) td er ec (fun r c =>
          w (if n.toNat ≤ c then a.el r (c - n.toNat) else z r c))) ∧
        (s.Takes t (.tslide 1 fill td ta n) → s.ShowsTile t (.tslide 1 fill td ta n) td er ec (fun r c =>
          w (if c + n.toNat < ec then a.el r (c + n.toNat) else z r c))) ∧
        (s.Takes t (.tslide 2 fill td ta n) → s.ShowsTile t (.tslide 2 fill td ta n) td er ec (fun r c =>
          w (if n.toNat ≤ r then a.el (r - n.toNat) c else z r c))) ∧
        (s.Takes t (.tslide 3 fill td ta n) → s.ShowsTile t (.tslide 3 fill td ta n) td er ec (fun r c =>
          w (if r + n.toNat < er then a.el (r + n.toNat) c else z r c))))) ∧
    (d.geo.layout = 2 → t.capture.live = true → s.Takes t (.tmov td ta) →
      ∃ s' u x, exec (.tmov td ta) s = .next s' ∧ s'.team? t.uid = some u ∧ u.tile td = some x ∧
        x.Shows er ec (fun r c => w (a.el r c)) ∧
        ∀ r k, r < x.geo.rows → k < x.geo.segs → x.sc r k = if r < er ∧ k < (ec + 31) / 32 then a.sc r k else 0x7F) ∧
    (d.geo.layout = 3 → s.Takes t (.tmov td ta) →
      ∃ s' u x, exec (.tmov td ta) s = .next s' ∧ s'.team? t.uid = some u ∧ u.tile td = some x ∧ x.written = true ∧
        x.geo = d.geo ∧ x.bitmap = a.bitmap ∧ x.count = a.count ∧
        ∀ j, j < a.count → (kget 0 x.data j).toNat = w (kget 0 a.data j).toNat)

/-- R168: TPACK stores the non-zero elements of the extent in row-major order, when no more of them are there than the
packed tile has values; TUNPK spreads the stored elements that lie in the extent. Reading a trit code 0b10 sets FMT (R12). -/
def Obligations.PackAndUnpack : Prop :=
  ∀ (s : State) (t : Team) (td : TReg) (ta : Src),
    let ty := fun (x : TIn) => (x.rd ta.t).geo.etype
    let all := fun (x : TIn) => x.ext.map (fun rc => (rc.1, rc.2, (x.rd ta.t).el rc.1 rc.2))
    let els := fun (x : TIn) => (all x).filter (fun e => nonZero (ty x) e.2.2)
    let part := fun (x : TIn) => (x.rd ta.t).packedEls.filter (fun e => decide (e.1 < x.c.er) && decide (e.2.1 < x.c.ec))
    s.TileDone t (.tpack td ta) [ta.t] (fun x => (els x).length ≤ (x.rd td).geo.nnz.toNat)
      (fun x => x.put td ((x.rd td).writePacked (els x)) (x.moveEnv (ty x) (all x))) ∧
    s.TileDone t (.tunpk td ta) [ta.t] (fun _ => True)
      (fun x => x.put td ((x.rd td).write (part x) []) (x.moveEnv (ty x) (part x)))

/-- R173 to R175: TCVT converts every element of the extent from its value; TDQT multiplies elements by their scales; TQNT
quantises row segments of 32 elements, each with one scale. -/
def Obligations.ConvertAndQuantise : Prop :=
  ∀ (s : State) (t : Team) (rm : Rm) (nsat sat : Bool) (sc : Option EReg) (td : TReg) (ta : Src),
    let mode := fun (x : TIn) => if rm = 6 then x.c.drm else rm
    s.TileDone t (.tcvt rm nsat sat td ta) [ta.t] (fun _ => True) (fun x => x.fillWith td (fun r c e =>
      let v := readElem (cls (x.rd ta.t).geo.etype) ((x.rd ta.t).el r c)
      convElem (cls (x.rd td).geo.etype) (mode x) nsat sat v.1 (e.flag v.2))) ∧
    (∀ f g : Fmt, s.TileDone t (.tdqt rm sc td ta) [ta.t]
      (fun x => cls (x.rd td).geo.etype = .flt f ∧ cls (x.rd ta.t).geo.etype = .flt g)
      (fun x => x.fillWith td (fun r c e =>
        let q := match sc with
          | none => (x.rd ta.t).sc r (c / 32)
          | some n => kget 0x7F (x.t.scale.get n.toFin).bytes r
        rnd f false (mode x) (scaled g q ((x.rd ta.t).el r c)) false
          (e.flag (flIf (q != 0xFF && (g.dec ((x.rd ta.t).el r c)).isSig) flNV))))) ∧
    (∀ f g : Fmt, s.TileDone t (.tqnt rm nsat td ta) [ta.t]
      (fun x => cls (x.rd td).geo.etype = .flt f ∧ cls (x.rd ta.t).geo.etype = .flt g)
      (fun x =>
        let q := tqntGo f (mxEmax (x.rd td).geo.etype) (mode x) nsat (fun r c => g.dec ((x.rd ta.t).el r c)) x.c.ec
          (coords x.c.er ((x.c.ec + 31) / 32)) x.t.env
        x.put td ((x.rd td).write q.1 q.2.1) q.2.2))

/-- R174, R17: the scale that TQNT gives a segment whose largest magnitude is a non-zero finite value m * 2^e: the exponent
floor(log2) of that value less emax, biased by 127, within 0 to 254; a segment of zeros has scale 0x7F. -/
def Obligations.ScaleOfSegment : Prop :=
  ∀ (emax : Int) (sg : Bool) (m : Nat) (e : Int),
    (m ≠ 0 → (scaleCode emax (.fin sg m e) : Int) = max 0 (min 254 (e + Nat.log2 m - emax + 127))) ∧
    scaleCode emax (.fin sg 0 e) = 0x7F

/-- R144, R155, R163 to R165: binding, release, streams, TEXT and TWAIT. That TREL and TDECL of a name that QBIND bound
unbind its stream register (log 16), and that TEXT of such a name takes no slab of it (log 36), are the model's readings. -/
def Obligations.Bindings : Prop :=
  ∀ (s : State) (t : Team) (td : TReg) (h : Handle) (ta : Src) (q : QReg) (all : Bool) (tag : BitVec 4),
    (∀ g, s.TileOne t (.tdecl td h) (fun x => (x.s.recFor x.t x.recs h).geo? h x.t.part = some g)
      (fun x => x.s.putTeam ((x.t.freeStream td).putTile td (some (Tile.blank h g))))) ∧
    s.TileOne t (.trel td) (fun _ => True) (fun x => x.s.putTeam ((x.t.freeStream td).putTile td none)) ∧
    (∀ a, s.TileOne t (.text ta) (fun x => x.t.tile ta.t = some a) (fun x => x.s.putTeam { x.t with
      bq := x.t.bq ++ [BitVec.ofNat 64 ((if a.geo.layout = 3 then a.count else 0) * 2 ^ 32 + a.geo.rows * 2 ^ 16 +
        a.geo.cols)] })) ∧
    (∀ a, s.TileOne t (.qbind q td) (fun x => x.t.tile td = some a) (fun x => x.s.putTeam
      { x.t.putTile td (some { a with strm := some q, written := false, data := [], scales := [] }) with
        q := x.t.q.set q.toFin (some ⟨td, [], 0, []⟩) })) ∧
    (∀ st, s.TileOne t (.qrel q) (fun x => x.t.q.get q.toFin = some st) (fun x => x.s.putTeam
      { x.t.putTile st.tile none with q := x.t.q.set q.toFin none })) ∧
    s.TileOne t (.twait all tag) (fun _ => True) (fun x =>
      ((x.s.cfence t.uid .copy .team).cfence t.uid .copy .gath).cfence t.uid .copy .mload)

/-! ### Tiles and memory -/

/-- R156, R159, R167, R166: TLD and TGTH load every element of the extent once each one's checks have passed, on the team path,
or the gather path for an unordered gather. A load of a bitmap-sparse record reads the bitmap, then as many values as it has
set bits, and gives each set position its value, into a dense or a packed tile, without the extent; TLDFF does so too when no
byte faults, and clears FSR. With an empty extent the loads of every other record, and a gather, do nothing (R146). That a load
of a bitmap-sparse record is made with an empty extent too, R167 before R146, is the model's reading (log 17), and that a load
carries the trit code 0b10 as it stands (log 83). -/
def Obligations.TileLoads : Prop :=
  ∀ (s : State) (t : Team) (td : TReg) (ti : Src) (h : Handle) (sx : SReg) (u : Bool) (kind : BitVec 2) (es : List ElSite)
    (mk vk : List (List Nat)) (bm vb : List Byte) (s1 s2 : State),
    let set := fun (x : TIn) => setBits (x.rcd h).sparseRows ((x.rcd h).sz 0) (x.rcd h).mapRow bm
    let w := fun (x : TIn) => ebits (x.rcd h).etype
    let nb := fun (x : TIn) => (x.rcd h).sparseRows * (x.rcd h).mapRow
    let els := fun (x : TIn) => (set x).zipIdx.map (fun p =>
      (p.1.1, p.1.2, bytesToNat vb / 2 ^ (p.2 * w x) % 2 ^ w x))
    let reads := fun (x : TIn) => (x.rcd h).sparse = true ∧
      allChk ((List.range (nb x)).map (x.sparseByte (x.rcd h) .read .team)) = .ok mk ∧
      readBytes .team t.uid mk.flatten x.s = (bm, s1) ∧ (set x).length = (x.rcd h).nnz.toNat ∧
      allChk ((List.range (((set x).length * w x + 7) / 8)).map (fun b => x.sparseByte (x.rcd h) .read .team (nb x + b))) =
        .ok vk ∧
      readBytes .team t.uid vk.flatten s1 = (vb, s2)
    let fills := fun (x : TIn) => ({ x with s := s2 } : TIn).put td (if (x.rd td).geo.packed then (x.rd td).writePacked (els x)
      else (x.rd td).loaded (els x) []) x.t.env
    s.TileOne t (.tld td h sx) (fun x => (x.rcd h).sparse = false ∧ x.c.live = false) (fun x => x.s) ∧
    s.TileOne t (.tld td h sx) (fun x => (x.rcd h).sparse = false ∧ x.c.live = true ∧
        allChk ((loadChks x td h sx).map (withEcc x .team h (some td))) = .ok es)
      (fun x => loadEls x .team td es) ∧
    s.TileDone t (.tgth u kind td ti h sx) [ti.t] (fun x =>
        allChk ((gatherChks x true kind td ti h sx (if u then .gath else .team)).map
          (withEcc x (if u then .gath else .team) h (some td))) = .ok es)
      (fun x => loadEls x (if u then .gath else .team) td es) ∧
    s.TileOne t (.tldff td h sx) (fun x => (x.rcd h).sparse = false ∧ x.c.live = false) (fun x => x.s) ∧
    s.TileOne t (.tldff td h sx) (fun x => (x.rcd h).sparse = false ∧ x.c.live = true ∧
        allChk (loadChks x td h sx) = .ok es ∧ eccEls x .team h (some td) es = .ok ())
      (fun x => (loadEls x .team td es).modTeam t.uid (fun v => { v with fsr := 0 })) ∧
    s.TileOne t (.tld td h sx) reads fills ∧
    s.TileOne t (.tldff td h sx) reads (fun x => (fills x).modTeam t.uid (fun v => { v with fsr := 0 }))

/-- R158, Table 4.4: a first-fault tile load whose element n, not the first, meets a bounds, window or translation fault of
kind k with the checks of all earlier elements passed: the extent becomes the whole rows before it, or the elements before it
in row 0, those are loaded, and FSR holds their number and the kind; with an empty extent it does nothing (R146). That page
and walk faults count as translation faults is the model's reading (log 17). -/
def Obligations.FirstFaultTileLoad : Prop :=
  ∀ (s : State) (t : Team) (td : TReg) (h : Handle) (sx : SReg) (es : List ElSite) (rest : List (Chk ElSite)) (f : FaultInfo),
    truncates f = true →
    s.TileOne t (.tldff td h sx) (fun x => (x.rcd h).sparse = false ∧ x.c.live = false) (fun x => x.s) ∧
    s.TileOne t (.tldff td h sx) (fun x => (x.rcd h).sparse = false ∧ x.c.live = true ∧ es ≠ [] ∧
        loadChks x td h sx = es.map .ok ++ .error (.fault f) :: rest ∧
        eccEls x .team h (some td) es = .ok ())
      (fun x =>
        let n := es.length
        let rows := if n < x.c.ec then 1 else n / x.c.ec
        let cols := if n < x.c.ec then n else x.c.ec
        (loadEls x .team td (es.filter (fun e => decide (e.r < rows) && decide (e.c < cols)))).modTeam t.uid (fun v =>
          { v with ext := BitVec.ofNat 16 rows, extc := if cols = x.c.ec then v.extc else BitVec.ofNat 16 cols,
                   fsr := BitVec.ofNat 64 (rows * cols * 65536 + f.kind.toNat * 256 + 1) }))

/-- R157, R160, R167: TST and TSCT write every element of the extent of a dense tile to its place in the record once every
element's checks have passed, on the team path, in row-major order. Of one TST, whose writes R157 leaves unordered among
themselves, that order is the model's choice (log 87), seen where the record's rows overlap; of TSCT it is R160's. TST of an
MX tile writes each segment with its scale and its padding as one write (R17); of a packed tile whose count is the record's
NNZ the bytes of its bitmap and values, each by itself. Reading a trit code 0b10 gives 0 and sets FMT (R12). That a packed
store makes no use of the origin is the model's reading (log 86). -/
def Obligations.TileStores : Prop :=
  ∀ (s : State) (t : Team) (ta : TReg) (tsrc ti : Src) (h : Handle) (sx : SReg) (kind : BitVec 2) (es : List ElSite)
    (ks : List (List Nat)),
    s.TileDone t (.tst ta h sx) [ta] (fun x => (x.rd ta).geo.layout = 0 ∧ allChk (tstChks x ta h sx) = .ok es)
      (fun x => (writeEls .team t.uid (es.map (fun e => (e.site, tritFix (x.rd ta).geo.etype ((x.rd ta).el e.r e.c)))) x.s).tritRead
        t.uid (x.rd ta).geo.etype (es.map (fun e => (x.rd ta).el e.r e.c))) ∧
    s.TileDone t (.tst ta h sx) [ta] (fun x => (x.rd ta).geo.layout = 2 ∧ allChk (tstChks x ta h sx) = .ok es)
      (fun x => writeSegs .team t.uid ((segments es).map (fun g =>
        (g.map (fun e => (e.site, (x.rd ta).el e.r e.c)),
         g.flatMap (fun e => e.scale.map (fun k => (k, (x.rd ta).sc e.r (e.c / 32)))) ++
           g.flatMap (fun e => e.pad.map (fun k => (k, 0)))))) x.s) ∧
    s.TileDone t (.tst ta h sx) [ta] (fun x => (x.rd ta).geo.layout = 3 ∧ (x.rd ta).count = (x.rcd h).nnz.toNat ∧
        allChk ((List.range (x.rd ta).fixed.packedBytes.length).map (x.sparseByte (x.rcd h) .write .team)) = .ok ks)
      (fun x => ((ks.flatten.zip (x.rd ta).fixed.packedBytes).foldl (fun z kb => z.store t.uid .team [kb]) x.s).tritRead t.uid
        (x.rd ta).geo.etype ((x.rd ta).packedEls.map (fun e => e.2.2))) ∧
    s.TileDone t (.tsct kind tsrc ti h sx) [tsrc.t, ti.t]
      (fun x => allChk (gatherChks x false kind tsrc.t ti h sx .team) = .ok es)
      (fun x => (writeEls .team t.uid (es.map (fun e => (e.site, tritFix (x.rd tsrc.t).geo.etype ((x.rd tsrc.t).el e.r e.c)))) x.s).tritRead
        t.uid (x.rd tsrc.t).geo.etype (es.map (fun e => (x.rd tsrc.t).el e.r e.c)))

/-! ### The block sequencer and the copy engine -/

/-- R161, R162, R164, R147, R149, R151, R189, R111: a copy begins at its captured row, moves a row at a time and completes; a
head of the TIQ is accepted, waits for free slots, runs, by rows where it may stop between them, and leaves. A row of a dense
tag-mode copy writes the elements that it read, in order, an MX row its segments whole, a trit code 0b10 as 0 with FMT set
(R12); a row for a stream becomes a line of it, and waits while the stream holds 64 lines (Table 5.1), or fewer where their
bytes fill its 32 KiB (log 44); the scale of a destination segment that takes elements of two is the model's (log 106).
Acceptance waits while the contents in use would pass the share of slots, for a copy while 16 are accepted; which contents are
in use is log 13's reading. That a team's tile instructions run one after another is one of the orders that R151 permits, the
model's choice (log 43). -/
def Obligations.SequencerSteps : Prop :=
  ∀ (s s1 : State) (t : Team) (tag : BitVec 4) (q : QReg) (h : Handle) (sd ss : SReg) (c : Copy) (cs : List Copy)
    (e : TileEntry) (es : List TileEntry) (x : TIn) (sites : List CopySite) (row : Nat) (code : Bool × List (BitVec 32)),
    let copies := fun (i : Instr) => exec i s = .next ((stepCopies t.uid (c.rows - c.row) (s.putTeam
      (t.copying (s.entryAt t i) c))).completeHead t.uid)
    let read := fun (runs : List (List CopySite)) => copyRead x.t.uid runs x.s
    let one := read (sites.map (fun y => [y]))
    let segs := read (copyRuns (fun y z => !y.srcScale.isEmpty && y.srcScale == z.srcScale) sites)
    let fix := fun (es : List (CopySite × Nat × Byte)) => es.map (fun y => (y.1, tritFix c.src.etype y.2.1, y.2.2))
    let after := fun (p : List (CopySite × Nat × Byte) × State) => p.2.tritRead x.t.uid c.src.etype (p.1.map (fun y => y.2.1))
    let acc : TIn := ⟨s.putTeam t.forTile, t.forTile, e.cap, s.recsAt t e, t.xrow.toNat, none, none, false, false⟩
    let taken : TileEntry := { e with
      accepted := true, recs := s.recsAt t e, region := tileRegion e.instr acc, holds := tileHolds e.instr acc, xrow := t.xrow.toNat }
    let before := t.tiq.filter (fun y => y.accepted)
    let roomy := (taken.slotNames.1 = [] ∨ t.slotsUsed (before ++ [taken]) ≤ slotShare t.part) ∧
      (isCopy e.instr = true → (before.filter (fun y => isCopy y.instr)).length < 16)
    let head := fun (y : TileEntry) => { t with
      tiq := y :: es, tileWalk := none, xrow := if capturesXrow e.instr e.cap then 0 else t.xrow }
    (s.Takes t (.tcopy tag h sd ss) →
      copyStart (s.atRun t (.tcopy tag h sd ss)) t.wordSeq tag none h (t.rs sd) (t.rs ss) = .ok c →
      copies (.tcopy tag h sd ss)) ∧
    (s.Takes t (.tcopyStr q h ss) →
      copyStart (s.atRun t (.tcopyStr q h ss)) t.wordSeq 0 (some q) h 0 (t.rs ss) = .ok c → copies (.tcopyStr q h ss)) ∧
    (c.src.layout ≠ 3 → allChk (copySites x c ((copyCount c.src c.srcWord).getD 0)) = .ok sites →
      (c.src.layout ≠ 2 → c.q = none → copyRow x c = .ok (writeEls .copy x.t.uid
        ((fix one.1).map (fun y => (y.1.dst, y.2.1))) (after one))) ∧
      (c.src.layout = 2 → c.q = none →
        copyRow x c = .ok (writeSegs .copy x.t.uid (copySegs (fix segs.1)) (after segs))) ∧
      (∀ st, c.src.layout ≠ 2 → c.q = some q → x.t.q.get q.toFin = some st → st.lines.length < x.t.streamLines st →
        copyRow x c = .ok ((after one).modTeam x.t.uid (fun u =>
          u.appendLine q ((fix one.1).map (fun y => BitVec.ofNat 64 y.2.1)))))) ∧
    (∀ st, c.q = some q → x.t.q.get q.toFin = some st → x.t.streamLines st ≤ st.lines.length → copyRow x c = .error .stall) ∧
    (∀ (u : Team) (st : Stream) (d : Tile), u.tile st.tile = some d → 8 * ((d.geo.cols * ebits d.geo.etype + 7) / 8) ≤ 4096 →
      u.streamLines st = 64) ∧
    (s.At t.gid t → t.tiq = e :: es → t.copies = c :: cs → c.row < c.rows →
      copyRow (e.tin (s.putTeam t.forTile) t.forTile false) c = .ok s1 →
      exec (.copyRow t.gid) s = .next ((s1.modTeam t.uid (fun u =>
        { u with copies := [{ c with row := c.row + 1 }] })).backToFront t.uid t.wait)) ∧
    (s.At t.gid t → t.tiq = [e] → e.issued = true → t.copies = c :: cs → c.rows ≤ c.row → t.sbuf = [] → t.hist = [] →
      t.late = [] → t.heldFault = none →
      exec (.copyCompletion t.gid) s = .next (s.putTeam { t with
        tiq := [], copies := [], q := t.q.map (fun x => x.map (fun st => { st with taken := [] })) })) ∧
    (s.At t.gid t → t.tiq = e :: es → e.accepted = false → t.sbuf = [] → tileAccept e.instr acc = .ok () →
      (roomy → tileCode e.instr acc = none →
        exec (.tiqAccept t.gid) s = .next (s.putTeam (head taken))) ∧
      (roomy → tileCode e.instr acc = some (.ok (code, s1)) →
        exec (.tiqAccept t.gid) s = .next ((s1.putTeam t).putTeam (head { taken with code := some code }))) ∧
      (¬roomy → exec (.tiqAccept t.gid) s = .next s)) ∧
    (s.At t.gid t → t.tiq = e :: es → e.accepted = true → e.issued = false → isCopy e.instr = false → t.sbuf = [] →
      let run := tileRun e.instr e.seq (e.tin (s.putTeam (t.forTile.asOf e)) (t.forTile.asOf e) true)
      (run = .done s1 → exec (.microOperationIssue t.gid) s = .next ((s1.modTeam t.uid (fun u =>
        (u.inOrder e t).modHead (fun y => { y with issued := true }))).backToFront t.uid t.wait)) ∧
      (run = .part s1 row → exec (.microOperationIssue t.gid) s = .next ((s1.modTeam t.uid (fun u =>
        (u.namesBack e t).modHead (fun y => { y with begun := true, xrow := row }))).backToFront t.uid t.wait))) ∧
    (s.At t.gid t → t.tiq = e :: es → e.issued = true → t.copyDone = true →
      ∃ s2, exec (.tileInstructionCompletion t.gid) s = .next s2 ∧
        s2.team? t.uid = some (t.leave es).commit ∧
        (∀ v, v ≠ t.uid → s2.team? v = s.team? v) ∧ s2.mem = s.mem ∧ s2.writes = s.writes)

/-! ### Lane functions -/

/-- R81, R178 to R180: MAP gives each element of the extent what its function, whose words were read at acceptance, returns
for that element: one column an invocation, or two when the function is packed. REDUCE puts the reduction of each line into
the first column, or with .col the first row; SCAN puts the running values; TRDS reduces rows, then the rows' results, and
pushes the value; with an empty extent TRDS pushes 0. What runs is the function as read at acceptance, whatever the table
holds later. Where the draws of a conversion of results fall, and that a result in the destination's own format is converted
like any other, are the model's choices (log 85, 113). -/
def Obligations.LaneResults : Prop :=
  (∀ (s s1 : State) (t : Team) (cv : Conv) (cnt : BitVec 2) (td : TReg) (ta tb : Src) (sa sb : SReg) (fn : BitVec 8)
      (ws : List (BitVec 32)),
      let i : Instr := .map cv cnt td ta tb sa sb fn
      let y := s.atAccept t i
      let lf := ws.map lword
      let reads := fun (pk : Bool) (_ : TIn) => laneFetch y fn cnt.toNat false
        ((y.rd td).geo.etype :: y.types (mapSrcs cnt td ta tb)) = .ok ((pk, ws), s1)
      let ops := fun (x : TIn) => (mapSrcs cnt td ta tb).map (fun n => ((x.rd n).geo.etype, (x.rd n).el))
      let rv := (laneRet lf).1
      let ty := (laneRet lf).2
      let conv := fun (x : TIn) => laneConv (cls (x.rd td).geo.etype) (resolveRm cv.rm x.c.drm) cv.nsat cv.s
      let put := fun (x : TIn) (f : Nat → Env → List (Nat × Nat × Nat) × Env) =>
        x.put td ((x.rd td).write (byRows f (List.range x.c.er) x.t.env).1 []) (byRows f (List.range x.c.er) x.t.env).2
      s.TileDone t i (mapSrcs cnt td ta tb) (reads false) (fun x => put x (fun r env =>
        let p := laneRow x lf (ops x) (t.rs sa) (t.rs sb) r env
        conv x (p.1.zipIdx.map (fun v => (r, v.2, laneVal ty 0 (v.1.reg rv)))) p.2)) ∧
      s.TileDone t i (mapSrcs cnt td ta tb) (reads true) (fun x => put x (fun r env =>
        let p := laneRowPk x lf (ops x) (t.rs sa) (t.rs sb) r env
        conv x (p.1.zipIdx.flatMap (fun v => (r, 2 * v.2, laneVal ty 0 (v.1.reg rv)) ::
          (if v.1.hi then [(r, 2 * v.2 + 1, laneVal ty 1 (v.1.reg rv))] else []))) p.2))) ∧
  (∀ (s s1 : State) (t : Team) (i : Instr) (pk : Bool) (ws : List (BitVec 32)),
      tileCode i (s.atAccept t i) = some (.ok ((pk, ws), s1)) → (s.atRun t i).lfn = ⟨pk, ws.map lword⟩) ∧
  (∀ (s : State) (t : Team) (col two : Bool) (cv : Conv) (rm : Rm) (td : TReg) (ta tb : Src) (sa sb : SReg) (fn : StepFn),
      let conv := fun (x : TIn) => laneConv (cls (x.rd td).geo.etype) (resolveRm cv.rm x.c.drm) cv.nsat cv.s
      let set := fun (x : TIn) => redSetup x two cv.rm ta tb sa sb fn
      let lines := fun (x : TIn) => redLines col x.c.ec (set x).1
      let ty := fun (x : TIn) => (set x).2.1
      let put := fun (x : TIn) (f : Nat → Env → List (Nat × Nat × Nat) × Env) =>
        let y := byRows f (List.range (lines x).length) (set x).2.2.2
        x.put td ((x.rd td).write y.1 []) y.2
      s.TileDone t (.reduce col two cv td ta tb sa sb fn) (redSrcs two ta tb) (fun _ => True) (fun x => put x (fun n env =>
        let r := reduceLine (set x).2.2.1 ((lines x).getD n []) env
        conv x [(if col then 0 else n, if col then n else 0, laneVal (ty x) 0 (r.1.getD 0))] r.2)) ∧
      s.TileDone t (.scan col two cv td ta tb sa sb fn) (redSrcs two ta tb) (fun _ => True) (fun x => put x (fun n env =>
        let r := scanLine (set x).2.2.1 ((lines x).getD n []) env
        conv x (r.1.zipIdx.map (fun y =>
          (if col then y.2 else n, if col then n else y.2, laneVal (ty x) 0 (y.1.getD 0)))) r.2)) ∧
      s.TileOne t (.trds two rm ta tb sa sb fn) (fun x => x.c.live = false) (fun x => x.s.putTeam (x.t.push 0)) ∧
      s.TileOne t (.trds two rm ta tb sa sb fn)
        (fun x => x.c.live = true ∧ x.t.streamsReady x.c.er (redSrcs two ta tb) = true)
        (fun x =>
          let q := redSetup x two rm ta tb sa sb fn
          let rows := byRows (fun n env =>
            let r := reduceLine q.2.2.1 (q.1.getD n []) env
            ([r.1.getD 0], r.2)) (List.range q.1.length) q.2.2.2
          let z := reduceLine q.2.2.1 rows.1 rows.2
          (x.s.putTeam ((x.t.applyEnv z.2).push
            (trdsWord q.2.1 (laneTy (x.rd ta.t).geo.etype == 1) (z.1.getD 0)))).modTeam t.uid
            (fun u => u.consume x.c.er (redSrcs two ta tb))))

/-! ### The matrix engine -/

/-- R189, R190, R192 to R198, R202: loads of B, products, ACLR and TSCL. A product does the rows from the restart row on; over
an empty region it does nothing. An MMAM that faults in a row keeps the rows before it and leaves XROW at that row, so that its
restart goes on there. A load of B with .init and an empty extent only makes B valid with its type and dimensions; TSCL uses
EXT only. -/
def Obligations.MatrixResults : Prop :=
  ∀ (s s1 : State) (t : Team) (dims : Option SReg) (h : Handle) (ta : Src) (so sx ss sp : SReg) (f : BitVec 2) (ad : AReg)
    (en : Option EReg) (int : Bool) (tgt gc : BitVec 2) (e : EReg),
    let b := fun (x : TIn) => ldbTarget x dims (x.rd ta.t).geo.etype (x.rd ta.t).geo.mx
    let l := fun (x : TIn) => (b x).load (t.rs so) (x.ext.map (fun rc => (rc.1, rc.2, (x.rd ta.t).el rc.1 rc.2)))
      (if (x.rd ta.t).geo.mx then (x.rd ta.t).touched x.c.er x.c.ec else [])
    let d := mdims (t.rs ss) (t.rs sp)
    let rows := fun (isInt : Bool) (w : Nat) (en : Option EReg) (x : TIn) => x.s.putTeam (((List.range d.m).drop x.xrow).foldl
      (fun u r => productRow u isInt w (x.rd ta.t).geo.etype d ad en r ((List.range d.k).map ((x.rd ta.t).el r))
        ((x.rd ta.t).rowScales d.k r)) x.t)
    s.TileOne t (.ldb dims ta so) (fun x => x.c.live = true)
      (fun x => x.s.putTeam ({ x.t with resB := (l x).1 }.applyEnv ⟨x.t.lfsr, (l x).2⟩)) ∧
    s.TileOne t (.ldb dims ta so) (fun x => x.c.live = false) (fun x => x.s.putTeam { x.t with resB := b x }) ∧
    (∀ es els, s.TileOne t (.ldbm dims h sx so) (fun x => x.c.live = true ∧ (x.rcd h).layout ≠ 2 ∧
        allChk (ldbmChks x h sx) = .ok es ∧ readEls .mload t.uid es x.s = (els, s1))
      (fun x =>
        let y := (ldbTarget x dims (x.rcd h).etype false).load (t.rs so) els []
        s1.modTeam t.uid (fun u => { u with resB := y.1 }.applyEnv ⟨u.lfsr, y.2⟩))) ∧
    (∀ es els scs, s.TileOne t (.ldbm dims h sx so) (fun x => x.c.live = true ∧ (x.rcd h).layout = 2 ∧
        allChk (ldbmChks x h sx) = .ok es ∧ readSegs .mload t.uid (segments es) x.s = (els, scs, s1))
      (fun x =>
        let y := (ldbTarget x dims (x.rcd h).etype true).load (t.rs so) els scs
        s1.modTeam t.uid (fun u => { u with resB := y.1 }.applyEnv ⟨u.lfsr, y.2⟩))) ∧
    s.TileOne t (.ldbm dims h sx so) (fun x => x.c.live = false) (fun x =>
      x.s.putTeam { x.t with resB := ldbTarget x dims (x.rcd h).etype ((x.rcd h).layout == 2) }) ∧
    s.TileOne t (.mma f ad ta ss sp en) (fun _ => d.live = true) (rows (f == 3) (fmtW f) en) ∧
    s.TileOne t (.mma f ad ta ss sp en) (fun _ => d.live = false) (fun x => x.s) ∧
    s.TileOne t (.mmat ad ta ss sp) (fun _ => d.live = true) (rows true 8 none) ∧
    s.TileOne t (.mmat ad ta ss sp) (fun _ => d.live = false) (fun x => x.s) ∧
    s.TileOne t (.mmam f ad h ss sx sp en)
      (fun x => d.live = true ∧ mmamRows x f ad h sx d en (d.m - x.xrow) x.xrow x.s = .done s1) (fun _ => s1) ∧
    s.TileOne t (.mmam f ad h ss sx sp en) (fun _ => d.live = false) (fun x => x.s) ∧
    (∀ g, let i : Instr := .mmam f ad h ss sx sp en
      let x := s.atRun t i
      s.Takes t i → d.live = true → mmamRows x f ad h sx d en (d.m - x.xrow) x.xrow x.s = .fail s1 g →
      let z := (s1.backToFront t.uid .none).takeFault t.uid ((s.entryAt t i).held g)
      exec i s = .next ((stepCopies t.uid (z.copyLeft t.uid) z).completeHead t.uid)) ∧
    s.TileOne t (.aclr int ad) (fun _ => True) (fun x => x.s.putTeam (x.t.putAcc ad ⟨int, []⟩)) ∧
    s.TileOne t (.tscl tgt gc e ta) (fun x => x.c.er ≠ 0) (fun x => x.s.putTeam { x.t with
      scale := x.t.scale.set e.toFin ⟨gc, kmapOf 0x7F ((List.range (min 64 x.c.er)).map (fun r =>
        (r, BitVec.ofNat 8 (scaleCode (tsclEmax tgt) (fp32.dec ((x.rd ta.t).el r 0))))))⟩ })

/-- R194, R187: the integer product. Each element of the accumulator block grows by the sum of the products of A's row and
B's column, exactly, when no sum leaves 80 bits. -/
def Obligations.IntegerProduct : Prop :=
  ∀ (s : State) (t : Team) (ad : AReg) (ta : Src) (ss sp : SReg) (a : Tile),
    let d := mdims (t.rs ss) (t.rs sp)
    s.Takes t (.mma 3 ad ta ss sp none) → t.tile ta.t = some a → t.xrow = 0 → d.live = true →
    (∀ r c, |intOf 80 true ((t.accOf ad).el r c)| < 2 ^ 78) →
    ∃ s' u, exec (.mma 3 ad ta ss sp none) s = .next s' ∧ s'.team? t.uid = some u ∧
      ∀ i j, i < d.m → j < d.n →
        intOf 80 true ((u.accOf ad).el (d.ar + i) (d.ac + j)) = intOf 80 true ((t.accOf ad).el (d.ar + i) (d.ac + j)) +
          ((List.range d.k).map (fun k => intOf 8 true (a.el i k) *
            intOf 8 true (kget 0 t.resB.cells ((d.kb0 + k) * 128 + d.nb0 + j)).toNat)).sum

/-- R199 to R201: ARD reads a window of an accumulator into a tile, through its row scales and its exponent shift, and with
.clr clears what it read; AWR writes or adds a tile to a window; AMAXA gives each row's largest magnitude in FP32. What AWR
does with trit and E8M0 elements, and that its rounding sets no flag, are the model's readings (log 20, 21). -/
def Obligations.AccumulatorAccess : Prop :=
  ∀ (s : State) (t : Team) (clr add acc : Bool) (cv : Conv) (td : TReg) (ta : Src) (ac : AReg) (sw sx : SReg)
    (en : Option EReg),
    let r0 := fld16 (t.rs sw) 0
    let c0 := fld16 (t.rs sw) 1
    s.TileDone t (.ard clr cv td ac sw sx en) [] (fun _ => True) (fun x =>
      let y := x.fillWith td (fun r c env =>
        let v := (x.t.accOf ac).val (r0 + r) (c0 + c)
        let v := (match en with
          | none => v
          | some e =>
            let q := kget 0x7F (x.t.scale.get e.toFin).bytes r
            if q = 0xFF then (if v.isSig then v else .nan false) else fvScale v (127 - (q.toNat : Int)))
        ardOut (cls (x.rd td).geo.etype) (x.t.accOf ac).int (resolveRm cv.rm x.c.drm) cv (fvScale v (t.rs sx).toInt) env)
      if clr then y.modTeam t.uid (fun u => u.putAcc ac
        (x.ext.foldl (fun z rc => z.put (r0 + rc.1) (c0 + rc.2) 0) (x.t.accOf ac))) else y) ∧
    s.TileDone t (.awr add ac ta sw) [] (fun _ => True) (fun x =>
      let y := x.ext.foldl (fun (p : Acc × Flags) rc =>
        ((p.1.put (r0 + rc.1) (c0 + rc.2) (awrEl (x.t.accOf ac).int add (cls (x.rd ta.t).geo.etype)
          (p.1.el (r0 + rc.1) (c0 + rc.2)) ((x.rd ta.t).el rc.1 rc.2)).1),
         p.2 ||| (awrEl (x.t.accOf ac).int add (cls (x.rd ta.t).geo.etype)
          (p.1.el (r0 + rc.1) (c0 + rc.2)) ((x.rd ta.t).el rc.1 rc.2)).2)) (x.t.accOf ac, 0)
      x.s.putTeam ((x.t.putAcc ac y.1).applyEnv ⟨x.t.lfsr, y.2⟩)) ∧
    s.TileDone t (.amaxa acc td ac sw) [] (fun _ => True) (fun x =>
      let y := runEls (fun r _ env =>
        let m := amaxaRow (x.t.accOf ac) (r0 + r) c0 x.c.ec env
        if acc then ((fmaxabs fp32 ((x.rd td).el r 0) m.1).1, m.2.flag (fmaxabs fp32 ((x.rd td).el r 0) m.1).2) else m)
        ((List.range x.c.er).map (fun r => (r, 0))) x.t.env
      x.put td ((x.rd td).write y.1 []) y.2)

/-- R203 to R205: ROUTE sorts the assignments by expert and pushes their number; ABLK keeps the k best scores of each row;
IWALK gathers the set positions from its start on and pushes their number with the position to go on from. Where the two
destinations of ROUTE or IWALK are one tile, the one written second stays: the model's choice (log 110). -/
def Obligations.EngineResults : Prop :=
  ∀ (s : State) (t : Team) (td tc : TReg) (ti : Src) (se ss sp sx : SReg) (fp8 causal : Bool) (k : BitVec 8),
    s.TileOne t (.route td tc ti se) (fun x => x.c.live = true) (fun x =>
      let of := fun (n : Nat) => ((coords x.c.er x.c.ec).filter (fun rc =>
        intEl (x.rd ti.t).geo.etype ((x.rd ti.t).el rc.1 rc.2) == (n : Int))).map (fun rc => rc.1 * x.c.ec + rc.2)
      let ls := (List.range (t.rs se).toNat).map of
      x.s.putTeam (((x.t.putTile td (some ((x.rd td).positions ls.flatten))).putTile tc
        (some ((x.rd tc).positions (ls.map List.length)))).push (BitVec.ofNat 64 ls.flatten.length))) ∧
    s.TileOne t (.route td tc ti se) (fun x => x.c.live = false) (fun x => x.s.putTeam (x.t.push 0)) ∧
    (let d := mdims (t.rs ss) (t.rs sp)
     s.TileOne t (.ablk fp8 causal td ti ss sp k) (fun _ => d.live = true) (fun x =>
       let a := x.rd ti.t
       let row := fun (r : Nat) => floatRow { d with ar := 0, ac := 0 } (fmtOf a.geo.etype) (fmtOf x.t.resB.btype)
         (fmtW (if fp8 then 1 else 0)) 0 ((List.range d.k).map (a.el r)) (a.rowScales d.k r) (x.t.resB.floats d) Acc.init 0
       let score := fun (r : Nat) => (List.range d.n).map (fun j => (j, fa80.dec ((row r).1.el 0 j)))
       let elig := fun (r : Nat) => (score r).filter (fun q => !causal ||
         decide ((q.1 : Int) ≤ r + ((t.rs sp).extractLsb' 48 16).toInt))
       x.put td ((x.rd td).write ((List.range d.m).flatMap (fun r => (List.range d.n).map (fun j =>
         (r, j, if ablkKeep k.toNat (elig r) j then 1 else 0)))) [])
         ⟨x.t.lfsr, ((List.range d.m).map row).foldl (fun g p => g ||| p.2) 0⟩) ∧
     s.TileOne t (.ablk fp8 causal td ti ss sp k) (fun _ => d.live = false) (fun x => x.s)) ∧
    s.TileOne t (.iwalk td tc ti ss sx) (fun x => x.c.live = true) (fun x =>
      let m := x.rd ti.t
      let hits := (x.ext.zipIdx.drop (t.rs ss).toNat).filter (fun p =>
        if m.geo.packed then m.bit p.1.1 p.1.2 else nonZero m.geo.etype (m.el p.1.1 p.1.2))
      let take := hits.take ((x.rd td).geo.rows * (x.rd td).geo.cols)
      let pos := (match hits[(x.rd td).geo.rows * (x.rd td).geo.cols]? with
        | some p => p.2
        | none => x.c.er * x.c.ec)
      x.s.putTeam (((x.t.putTile td (some ((x.rd td).positions (take.map (fun p =>
          ((originOf (t.rs sx)).1 + p.1.1) % 2 ^ 32))))).putTile tc (some ((x.rd tc).positions (take.map (fun p =>
          ((originOf (t.rs sx)).2 + p.1.2) % 2 ^ 32))))).push (BitVec.ofNat 64 (take.length + pos * 2 ^ 32)))) ∧
    s.TileOne t (.iwalk td tc ti ss sx) (fun x => x.c.live = false) (fun x => x.s.putTeam (x.t.push 0))

/-! ### Messages, queues and updates of the tile side -/

/-- R244, R246, R316, R338, R339, R367, R370: the tile-side instructions of the cluster, the Press, the vintage cache and the
fabric. SENDT sends the elements of its extent after a boundary at .clu, a trit code 0b10 as 0 with FMT set (R12); RECVT
writes a message's tile and pushes its header; UPD, when the Press takes all of them, emits a pair for each element of the
extent that lies in the region; VNTQ
serves an output when the input matches and is fresh enough; VNTW stores an entry; FGTH loads elements of window memory from
the packages that hold them; ALLX, its exchange closed, writes what it was granted and pushes the counts. -/
def Obligations.TileSideQueues : Prop :=
  ∀ (s s1 s2 : State) (t u : Team) (k : GReg) (ta ti tv : Src) (sr sm sb st sx sc : SReg) (team : BitVec 3) (tag : BitVec 16)
    (w : Wild) (td ts : TReg) (rh : BitVec 10) (strict saved : Bool) (h : Handle) (kind : BitVec 2) (n : BitVec 3)
    (c : Ctx) (r : Region) (tb : VTable),
    let emitted := fun (x : TIn) (es : List (Nat × Nat × Bool)) =>
      let updf := es.foldl (fun f e => if e.2.2 then updfDrop f e.1 e.2.1 else f) x.t.updf
      let ps := (es.filter (fun e => !e.2.2)).map (fun e =>
        ((x.rd ti.t).el e.1 e.2.1, updValue (x.rd tv.t).geo.etype ((x.rd tv.t).el e.1 e.2.1)))
      x.s.putTeam (({ x.t with updf := updf } : Team).emit rh ps)
    (∀ ok, s.TileOne t (.sendt k ta sr team tag)
      (fun x => (x.c.live = true → x.t.streamsReady x.c.er [ta.t] = true) ∧ x.s.sendTarget x.t (t.rs sr) team = .ok (u, saved) ∧
        x.s.Clears t.uid ∧ ok = (!saved && !u.preq && rqFree u.rq u.part true))
      (fun x =>
        let p := x.s.passes t.uid 2 []
        let m := { tileMsg (srcOf t.gid) tag (x.rd ta.t).fixed x.c.er x.c.ec with
          order := p.nextId, prec := p.lastOf t.uid, due := p.now + nsCycles 400, delivered := false }
        ((if ok then { p with nextId := p.nextId + 1 }.modTeam u.uid (fun v => { v with rq := v.rq ++ [m] }) else p).modTeam
          t.uid (fun v => (if x.c.live then v.consume x.c.er [ta.t] else v).putG k ok)).tritRead t.uid (x.rd ta.t).geo.etype
            ((coords x.c.er x.c.ec).map (fun rc => (x.rd ta.t).el rc.1 rc.2)))) ∧
    (∀ m q, s.TileOne t (.recvt w td sm tag)
      (fun x => rqTake x.t.rq true w ((t.rs sm).truncate 25) tag = some (m, q) ∧
        m.geo.etype = (x.rd td).geo.etype ∧ m.geo.layout = (x.rd td).geo.layout ∧
        (x.rd td).geo.holds m.geo.rows m.geo.cols = true ∧ (x.s.modTeam t.uid (fun v => { v with rq := q })).Clears t.uid)
      (fun x => ((x.s.modTeam t.uid (fun v => { v with rq := q })).passes t.uid 2 m.prec).modTeam t.uid (fun v =>
        (v.putTile td (some (m.into (x.rd td)))).push
          (BitVec.ofNat 64 (m.geo.rows * 2 ^ 48 + m.geo.cols * 2 ^ 32 + m.src.toNat * 2 ^ 16 + m.tag.toNat))))) ∧
    (∀ es : List (Nat × Nat × Bool), s.TileOne t (.upd strict ti tv rh)
      (fun x => x.c.live = true ∧ x.s.teamCtx? x.t = some c ∧ x.region = some r ∧
        allChk (updChks x c r strict ti) = .ok es ∧ x.s.Clears t.uid ∧ (emitted x es).Clears t.uid)
      (fun x => emitted x es)) ∧
    s.TileOne t (.upd strict ti tv rh) (fun x => x.c.live = false) (fun x => x.s) ∧
    (∀ xs ys cs, s.TileOne t (.vntq k h sb st)
      (fun x => x.s.vntTable? x.t (t.rs sb) = some tb ∧ allChk (vntSites x (x.rcd h) h .read) = .ok xs ∧
        allChk (vntSites x (x.rcd (vntHout (t.rs sb))) (vntHout (t.rs sb)) .write) = .ok ys ∧
        readSites t.uid xs x.s = (cs, s1))
      (fun x =>
        let e := kget VEntry.empty tb.entries (vntBlk (t.rs sb))
        let fresh := vntMatch (cs.map (vntWiden (x.rcd h).etype)) (x.rcd (vntHout (t.rs sb))).outBytes e tb.theta
        let stale := ((t.rs st).truncate 32).ule e.tag || decide (tb.maxRun ≤ e.run)
        let y := s1.modCtx t.pkg t.ctx (fun c =>
          if !fresh then { c with misses := c.misses + 1 }
          else if stale then { c with stales := c.stales + 1 }
          else { c with
            hits := c.hits + 1,
            tables := kput c.tables (vntTbl (t.rs sb))
              { tb with entries := kput tb.entries (vntBlk (t.rs sb)) { e with run := e.run + 1 } } })
        (if fresh && !stale then writeOut t.uid ys e.output y else y).modTeam t.uid (fun v => v.putG k (fresh && !stale)))) ∧
    (∀ xs ys cs os, s.TileOne t (.vntw h sb st)
      (fun x => x.s.vntTable? x.t (t.rs sb) = some tb ∧ allChk (vntSites x (x.rcd h) h .read) = .ok xs ∧
        allChk (vntSites x (x.rcd (vntHout (t.rs sb))) (vntHout (t.rs sb)) .read) = .ok ys ∧
        readSites t.uid xs x.s = (cs, s1) ∧ readSites t.uid ys s1 = (os, s2))
      (fun x =>
        let e : VEntry :=
          { v := true, tag := (t.rs st).truncate 32, run := 0, n := xs.length, ref := cs.map (vntWiden (x.rcd h).etype),
            ob := (x.rcd (vntHout (t.rs sb))).outBytes,
            output := os.flatMap (natToBytes (ebits (x.rcd (vntHout (t.rs sb))).etype / 8)) }
        s2.putTable t (vntTbl (t.rs sb)) { tb with entries := kput tb.entries (vntBlk (t.rs sb)) e })) ∧
    (∀ es, s.TileDone t (.fgth kind td ts h sx) [ts]
      (fun x => allChk (fgthChks x kind td ts h sx) = .ok es ∧ (x.s.cfence t.uid .team .send).team? t.uid = some u)
      (fun x => loadEls { x with s := x.s.cfence t.uid .team .send, t := u } .send td es)) ∧
    (∀ e me, s.TileOne t (.allx n td ts sr sc)
      (fun x => x.s.exchanges.find? (fun e => e.isFor x.t n.toNat (x.t.exchs.get n.toFin) &&
          e.joins.any (fun j => j.uid == t.uid)) = some e ∧
        x.s.closes e (recTeams (x.s.recordOf x.t) n.toNat) = true ∧ e.joins.find? (fun j => j.uid == t.uid) = some me)
      (fun x => allxFinish { x with s := (x.s.putExchange { e with closed := true }).endJoin { e with closed := true } t.uid } n td sr
        e.byRank me))

/-! ### Messages -/

/-- R244 to R247, R364, R365, Table 16.3: SEND puts a message on its way after a boundary at .clu, if its target takes it, and
says so in its guard; RECV takes the oldest delivered message that matches, after a boundary that the sender's publications
precede; PROBE looks; deliveries of one sender come in order, and every turn begins with those whose bound has come; in which
order overdue messages of different senders arrive is the model's choice (log 108). FSEND reads its bytes on the send path, follows its route and puts
the message on its way; FRECV stores the bytes on the send path, joins the sender's publications and writes the header.
Whether a link has a free slot is a free value (log 9). -/
def Obligations.Messages : Prop :=
  ∀ (s s1 : State) (t u : Team) (k : GReg) (sr sp sa sl sd sm : SReg) (team : BitVec 3) (tag : BitVec 16) (w : Wild)
    (saved tile : Bool) (m : Msg) (q : List Msg) (tgt : BitVec 13) (route : Word) (ks : List Nat) (bs : List Byte) (p : PkgNo)
    (hops : List (PkgNo × BitVec 4)),
    (s.Issues t (.send k sr sp team tag) → s.sendTarget t (t.rs sr) team = .ok (u, saved) → s.Clears t.uid →
      let ok := !saved && !u.preq && rqFree u.rq u.part false
      let p := s.passes t.uid 2 []
      let m := { scalarMsg (srcOf t.gid) tag (t.rs sp) with
        order := p.nextId, prec := p.lastOf t.uid, due := p.now + nsCycles 400, delivered := false }
      exec (.send k sr sp team tag) s = .next
        ((if ok then { p with nextId := p.nextId + 1 }.modTeam u.uid (fun v => { v with rq := v.rq ++ [m] }) else p).modTeam
          t.uid (fun v => (v.wrG k ok).advance 8))) ∧
    (s.Issues t (.recv w sd sm tag) → (t.rs sm).extractLsb' 11 53 = 0 →
      rqTake t.rq false w ((t.rs sm).truncate 25) tag = some (m, q) → s.Clears t.uid →
      exec (.recv w sd sm tag) s = .next ((s.passes t.uid 2 m.prec).modTeam t.uid (fun v =>
        (if w.anySrc || w.anyTag
          then (({ v with rq := q } : Team).wrS sd m.payload).wrS (sd + 1) (BitVec.ofNat 64 (m.src.toNat * 2 ^ 16 + m.tag.toNat))
          else ({ v with rq := q } : Team).wrS sd m.payload).advance 8))) ∧
    (s.Issues t (.probe tile w k sm tag) → (t.rs sm).extractLsb' 11 53 = 0 →
      exec (.probe tile w k sm tag) s = .next (s.putTeam
        ((t.wrG k (t.rq.any (fun m => m.matches tile w ((t.rs sm).truncate 25) tag))).advance 8))) ∧
    (s.At t.gid t → ∃ n,
      exec (.messageDelivery t.gid) s = .next (s.putTeam { t with rq := deliverOne n t.rq }) ∧
      exec (.fabricMessageDelivery t.gid) s = .next (s.putTeam { t with frq := deliverOne n t.frq })) ∧
    (∀ (n : Nat) (ms : List Msg), (∃ m ∈ ms, m.delivered = false) →
      ∃ m ∈ ms, m.delivered = false ∧ (∀ k ∈ ms, k.delivered = false → k.src = m.src → m.order ≤ k.order) ∧
        deliverOne n ms = ms.filter (fun k => k.order != m.order) ++ [{ m with delivered := true }]) ∧
    (∀ v ∈ s.teams, ∃ v' ∈ s.tick.teams, v'.uid = v.uid ∧
      (∀ m ∈ v.rq, m.delivered = false → m.due ≤ s.tick.now → { m with delivered := true } ∈ v'.rq) ∧
      (∀ m ∈ v.frq, m.delivered = false → m.due ≤ s.tick.now → { m with delivered := true } ∈ v'.frq)) ∧
    (∀ (ms ns : List Msg), rqTake ms tile w ((t.rs sm).truncate 25) tag = some (m, ns) →
      m.delivered = true ∧ m ∈ ms ∧ ns = ms.filter (fun k => k.order != m.order) ∧
      ∃ older later, ms = older ++ m :: later ∧ ∀ k ∈ older, k.matches tile w ((t.rs sm).truncate 25) tag = false) ∧
    (s.Issues t (.fsend k sa sl tgt tag route) → (t.rs sl).toNat ≤ 4096 → routeOk route = true →
      s.sendKeys t .read (t.rs sa) (t.rs sl).toNat = .ok ks →
      readBytes .send t.uid ks (s.cfence t.uid .team .send) = (bs, s1) →
      s.fabFollow route (routeHops route) 0 t.pkg = some (p, hops) → s.fabTarget t p tgt = .ok (u, saved) →
      let ok := (hops.isEmpty || Config.linkSlotFree s.free) && decide (u.frq.length < 8) && !u.preq && !saved
      let m := fabMsg t tag bs s1.nextId (s1.now + nsCycles (600 + 450 * routeHops route)) hops
      exec (.fsend k sa sl tgt tag route) s = .next
        ((if ok then { s1 with nextId := s1.nextId + 1 }.modTeam u.uid (fun v => { v with frq := v.frq ++ [m] }) else s1).modTeam
          t.uid (fun v => (v.wrG k ok).advance 16))) ∧
    (s.Issues t (.fsend k sa sl tgt tag route) → 4096 < (t.rs sl).toNat →
      exec (.fsend k sa sl tgt tag route) s = .next (s.frontFault t.uid (FaultInfo.plain 0x02 .team) none)) ∧
    (s.Issues t (.frecv w sd sm tag) → (t.rs sm).extractLsb' 25 39 = 0 →
      rqTake t.frq false w ((t.rs sm).truncate 25) tag = some (m, q) →
      s.sendKeys t .write (t.rs sd) m.bytes.length = .ok ks →
      exec (.frecv w sd sm tag) s = .next ((((storeSend t.uid (ks.zip m.bytes) s).modTeam t.uid (fun v =>
        { v with frq := q, knows := union v.knows m.prec })).cfence t.uid .send .team).modTeam t.uid (fun v =>
          (v.wrS sd (m.tag ++ (0 : BitVec 10) ++ BitVec.ofNat 13 m.bytes.length ++ m.src)).advance 8)))

/-! ### Barriers, phases, atomics -/

/-- R249, R372, R371: a team that waits in a barrier goes on, its boundary completed at the level's scope, once every
member's arrival is published, now or when a member that has arrived left; a first BAR or FBAR arrives, with its publication.
An exchange closes once every member has joined. Members on packages that no route joins wait: the model's reading
(log 92). -/
def Obligations.BarrierResults : Prop :=
  ∀ (s : State) (t : Team) (n : BitVec 3) (pub : Nat) (prec : List Nat),
    let done := ((s.complete t.uid (levScope (recLevel (s.recordOf t) n.toNat)) pub prec).modTeam t.uid (fun u =>
      { u with latched := none })).advance t.uid 8
    let ready := fun (s : State) (t : Team) (f : Bool) =>
      t.latched <|> s.barReady t f n.toNat (t.barCount f (Fin.ofNat 8 n.toNat))
    (s.Issues t (.bar n) → s.barLevel t n.toNat = true → t.wait = .arrived false n.toNat pub → ready s t false = some prec →
      exec (.bar n) s = .next done) ∧
    (s.Issues t (.fbar n) → s.wideLevel t n.toNat = true → t.wait = .arrived true n.toNat pub → ready s t true = some prec →
      exec (.fbar n) s = .next done) ∧
    (s.At t.gid t → t.runs = true → t.wait = .arrived false n.toNat pub → ready s t false = some prec →
      exec (.barrierCompletion t.gid) s = .next done) ∧
    (s.At t.gid t → t.runs = true → t.wait = .arrived true n.toNat pub → ready s t true = some prec →
      exec (.fabricBarrierCompletion t.gid) s = .next done) ∧
    (∀ s1 v, s.Issues t (.bar n) → s.barLevel t n.toNat = true → t.wait = .none → s.barArrive t false n = some s1 →
      s1.team? t.uid = some v → ready s1 v false = none → exec (.bar n) s = .next s1) ∧
    (∀ s1 v, s.Issues t (.fbar n) → s.wideLevel t n.toNat = true → t.wait = .none → s.barArrive t true n = some s1 →
      s1.team? t.uid = some v → ready s1 v true = none → exec (.fbar n) s = .next s1) ∧
    (s.Issues t (.bar n) → s.barLevel t n.toNat = false →
      exec (.bar n) s = .next (s.frontFault t.uid (FaultInfo.plain 0x02 .team) none)) ∧
    (s.At t.gid t → exec (.exchangeClose t.gid) s = .next { s with exchanges := s.exchanges.map (fun e =>
      if e.joins.any (fun j => j.uid == t.uid) && e.launch == t.launch &&
          s.closes e (recTeams (s.recordOf t) e.level) then { e with closed := true } else e) }) ∧
    (∀ (e : Exchange) (m : Nat), s.closes e m = true ↔ e.closed = true ∨ (m ≤ e.joins.length ∧
      ∀ p ∈ e.pkgs, ∀ q ∈ e.pkgs, s.routed p q = true))

/-- R206, R211 to R213, R215, R217 to R219, R250: a boundary that completes acquires every publication that precedes it, made by
a team of its context when each is a party of the other's scope: its writes enter the team-path view; no other publication's
do. PHASE is a boundary; CFENCE joins one path's view to another's; AMO, CAS and CLAIM act
on the word as the atomic order holds it, write to it in the same place of that order, and return the old value; a failed
CAS and a CLAIM that gets nothing write nothing. -/
def Obligations.AtomicResults : Prop :=
  ∀ (s : State) (t : Team) (sc : ScopeCode) (fp tp : BitVec 3) (op : BitVec 5) (d : Bool) (sd sa sb : SReg) (ks : List Nat),
    let n := if d then 8 else 4
    let old := bytesToNat (ks.map (Memory.get s.mem))
    (s.Issues t (.phase sc) → s.Clears t.uid → exec (.phase sc) s = .next ((s.passes t.uid sc []).advance t.uid 8)) ∧
    (s.Issues t (.cfence fp tp) →
      exec (.cfence fp tp) s = .next ((s.cfence t.uid (pathOf fp) (pathOf tp)).advance t.uid 8)) ∧
    (s.Issues t (.amo op d sc sd sa sb) → s.atomicKeys t (t.rs sa) n = .ok ks →
      let r := amoVal op.toNat (8 * n) old ((t.rs sb).toNat % 2 ^ (8 * n))
      exec (.amo op d sc sd sa sb) s = .next ((s.atomicWrite t.uid sc (ks.zip (natToBytes n r.1))).modTeam t.uid (fun u =>
        ({ u with fpst := u.fpst ||| (r.2 &&& 0x3F00) }.wrS sd (BitVec.ofNat 64 old)).advance 8))) ∧
    (s.Issues t (.cas d sc sd sa sb) → s.atomicKeys t (t.rs sa) n = .ok ks →
      exec (.cas d sc sd sa sb) s = .next
        ((if old = (t.rs sd).toNat % 2 ^ (8 * n) then s.atomicWrite t.uid sc (ks.zip (natToBytes n (t.rs sb).toNat)) else s).modTeam
          t.uid (fun u => (u.wrS sd (BitVec.ofNat 64 old)).advance 8))) ∧
    (s.Issues t (.claim sc sd sa sb) → (t.rs sb).toNat ≤ 65535 → s.atomicKeys t (t.rs sa) 8 = .ok ks →
      let g := if old < (t.rs sd).toNat then min (t.rs sb).toNat ((t.rs sd).toNat - old) else 0
      exec (.claim sc sd sa sb) s = .next
        ((if 0 < g then s.atomicWrite t.uid sc (ks.zip (natToBytes 8 (old + g))) else s).modTeam t.uid (fun u =>
          ((u.wrS sd (BitVec.ofNat 64 old)).wrSpr 0 (BitVec.ofNat 64 g)).advance 8))) ∧
    (s.Issues t (.claim sc sd sa sb) → 65535 < (t.rs sb).toNat →
      exec (.claim sc sd sa sb) s = .next (s.frontFault t.uid (FaultInfo.plain 0x02 .team) none)) ∧
    (let party := fun (b : Pub) => b.ctx = t.ctx ∧ b.uid ≠ t.uid ∧ partyOf b.scope b.uid b.gid t.uid t.gid = true ∧
        partyOf sc t.uid t.gid b.uid b.gid = true
     ∀ (pub : Nat) (prec : List Nat), s.team? t.uid = some t →
      ∃ u, (s.complete t.uid sc pub prec).team? t.uid = some u ∧
        (∀ w ∈ t.view .team, w ∈ u.view .team) ∧
        (∀ b ∈ s.pubs, party b → b.id ∈ t.knows ∨ b.id ∈ prec → ∀ w ∈ b.view, w ∈ u.view .team) ∧
        (∀ w ∈ u.view .team, w ∈ t.view .team ∨ ∃ b ∈ s.pubs, party b ∧ w ∈ b.view))

/-- R282 to R286: a sync operation publishes, takes its point at the register's home after what the register's last writer
published, completes, and writes the new value with what precedes it; a WAIT whose local copy meets its condition returns
it, one whose copy does not waits; the mirror applies the oldest write on its way to a register, the registers in any order. -/
def Obligations.SyncResults : Prop :=
  ∀ (s : State) (t : Team) (sc cc : BitVec 3) (sd sa sb : SReg) (n : Nat),
    let h := s.handOffAll t.uid
    let q := h.publish t.uid sc false false
    let r := q.1.syncAt t.pkg n
    let c := q.1.complete t.uid sc q.2 r.prec
    let put := fun (v : Word) => c.syncWrite t.pkg n ⟨v, union r.prec (c.lastOf t.uid)⟩
    let back := fun (z : State) => z.modTeam t.uid (fun u => (u.wrS sd r.val).advance 8)
    s.issuing? = some t → s.syncReg t (t.rs sa) = .ok n → s.Clears t.uid →
    (t.mustWait (.syncTas sc sd sa sb) = false →
      exec (.syncTas sc sd sa sb) s = .next (back (if r.val = 0 then put (t.rs sb) else c))) ∧
    (t.mustWait (.syncFadd sc sd sa sb) = false → exec (.syncFadd sc sd sa sb) s = .next (back (put (r.val + t.rs sb)))) ∧
    (t.mustWait (.syncLd sc sd sa) = false → exec (.syncLd sc sd sa) s = .next (back c)) ∧
    (t.mustWait (.syncSt sc sa sb) = false → exec (.syncSt sc sa sb) s = .next ((put (t.rs sb)).advance t.uid 8)) ∧
    (t.mustWait (.syncWait cc sc sd sa sb) = false → t.wait = .none →
      let m := (h.mirrorDue t.pkg).publish t.uid sc false false
      let l := m.1.syncLocal t.pkg (gidDie t.gid) n
      syncCond cc l.val (t.rs sb) = true →
      ∃ z, exec (.syncWait cc sc sd sa sb) s = .next z ∧
        z = ((m.1.modTeam t.uid (fun u => { u with wait := .sync n cc (t.rs sb) m.2 (some (l.val, l.prec)) })).complete
          t.uid sc m.2 l.prec).modTeam t.uid (fun u => (u.wrS sd l.val).advance 8)) ∧
    (t.mustWait (.syncWait cc sc sd sa sb) = false → t.wait = .none →
      let m := (h.mirrorDue t.pkg).publish t.uid sc false false
      syncCond cc (m.1.syncLocal t.pkg (gidDie t.gid) n).val (t.rs sb) = false →
      exec (.syncWait cc sc sd sa sb) s = .next (m.1.modTeam t.uid (fun u =>
        { u with wait := .sync n cc (t.rs sb) m.2 none }))) ∧
    (∀ p, (s.pkg p).mirrorQ ≠ [] → ∃ l reg due x r, (s.pkg p).mirrorQ = l ++ (reg, due, x) :: r ∧ (∀ y ∈ l, y.1 ≠ reg) ∧
      exec (.mirror p) s = .next ((s.modPkg p (fun k => { k with mirrorQ := l ++ r })).applyMirror p reg x))

/-! ### Teams and tasks -/

/-- R251 to R254, R256: FORK makes a child with half of the parent's tile state and clears the guard when it cannot, for want
of a team number too (log 102); JOIN takes the child back, or in the child ends its issue; SPAWN puts a task into the core's
deque, TAKE takes its newest, or the oldest of the first neighbour that has one; LAUNCH appends a record to a queue of its
context and returns status 0, or 1 for a full queue, 2 for another queue, 3 for bytes that it may not read, 4 for a record
that does not check. The model's readings: that status 2 comes before the others and that a ring's indices run freely (log
56), that a record is aligned when it stands at a multiple of 128 (log 121), and that a child's JOIN counts its boundary (log
122). -/
def Obligations.TeamsAndTasks : Prop :=
  ∀ (s : State) (t : Team) (k : GReg) (sd sa sb sp : SReg) (off : BitVec 32) (n : BitVec 3) (c : Team) (kid : Nat)
    (ks : List Nat),
    (s.Issues t (.fork k sd off) → t.deque = false → (t.part = 3 ∨ t.preq = true ∨ s.freeTeamNo t = none) →
      exec (.fork k sd off) s = .next (s.putTeam ((t.wrG k false).advance 8))) ∧
    (s.Issues t (.fork k sd off) → t.deque = false → t.part ≠ 3 → t.preq = false → s.freeTeamNo t = some n →
      t.tiq = [] → s.Clears t.uid → t.heldSlots ≤ slotShare (t.part + 1) →
      let h := s.handOffAll t.uid
      let g := withTeamNo t.gid n
      exec (.fork k sd off) s = .next (({ h with nextId := h.nextId + 1 }.modTeam t.uid (fun u =>
        (({ u with
          part := u.part + 1, kids := h.nextId :: u.kids, resB := u.resB.halve (u.part + 1),
          acc := Vector.ofFn (fun i => if i.val < accShare u.part / 2 then u.acc.get i else Acc.init) }.wrS sd
            (g.zeroExtend 64)).wrG k true).advance 8)).addKin t.launch h.nextId
              ({ h with nextId := h.nextId + 1 }.childOf t h.nextId g k sd off))) ∧
    (s.Issues t (.join sp) → (∃ rest, t.kids = kid :: rest) → s.gidOf kid = some c.gid → t.rs sp = c.gid.zeroExtend 64 →
      s.team? kid = some c → c.status = .joined → t.tiq = [] →
      exec (.join sp) s = .next ((s.dropTeam kid).putTeam ((t.takeBack c).advance 8))) ∧
    (∀ p g, s.Issues t (.join sp) → t.kids = [] → t.parent = some p → s.gidOf p = some g → t.rs sp = g.zeroExtend 64 → t.tiq = [] →
      s.Clears t.uid →
      let q := (s.handOffAll t.uid).publish t.uid (recScope ((s.handOffAll t.uid).recordOf t)) true true
      exec (.join sp) s = .next ((q.1.complete t.uid (recScope ((s.handOffAll t.uid).recordOf t)) q.2 []).modTeam t.uid
        (fun u => { u with status := .joined, rq := [], frq := [], preq := false }))) ∧
    (s.Issues t (.spawn k sa off) → t.deque = true →
      exec (.spawn k sa off) s = .next (if 64 ≤ (s.dequeOf t.gid).length then s.putTeam ((t.wrG k false).advance 8)
        else (s.putDeque t.gid ((t.label off, t.rs sa, t.lastPub) :: s.dequeOf t.gid)).putTeam ((t.wrG k true).advance 8))) ∧
    (s.Issues t (.take k sd) → t.deque = true →
      (s.findTask t = none → exec (.take k sd) s = .next (s.putTeam ((t.wrG k false).advance 8))) ∧
      (∀ pc v prec d, s.dequeOf t.gid = (pc, v, prec) :: d → exec (.take k sd) s = .next ((s.putDeque t.gid d).putTeam
        ((({ t with knows := union t.knows prec }.wrS sd v).wrG k true).jumpTo pc))) ∧
      (∀ g pc v prec, s.dequeOf t.gid = [] → ((takeOrder (gidCore t.gid).toNat).map (withCore t.gid)).find? (fun g =>
          s.teams.any (fun u => u.launch == t.launch && gidCoreKey u.gid == gidCoreKey g) && !(s.dequeOf g).isEmpty) = some g →
        (s.dequeOf g).getLast? = some (pc, v, prec) →
        exec (.take k sd) s = .next ((s.putDeque g (s.dequeOf g).dropLast).putTeam
          ((({ t with knows := union t.knows prec }.wrS sd v).wrG k true).jumpTo pc)))) ∧
    (s.Issues t (.launch sd sa sb) →
      let q := (s.pkg t.pkg).queues.get ((t.rs sb).truncate 6 : BitVec 6).toFin
      let back := fun (z : State) (st : Word) => z.modTeam t.uid (fun u => (u.wrS sd st).advance 8)
      let resetting := (s.pkg t.pkg).resetting.contains ((t.rs sb).truncate 6)
      (63 < (t.rs sb).toNat ∨ q.open_ = false ∨ q.ctx ≠ t.ctx ∨ resetting = true →
        exec (.launch sd sa sb) s = .next (back s 2)) ∧
      ((t.rs sb).toNat ≤ 63 → q.open_ = true → q.ctx = t.ctx → resetting = false →
        (s.recordKeys t (t.rs sa) = .ok none → exec (.launch sd sa sb) s = .next (back s 3)) ∧
        (s.recordKeys t (t.rs sa) = .ok (some ks) →
          let l := s.loadBytes t ks
          let z := l.2.rackKeys (q.tailKeys t.pkg)
          let r := recordOfBytes l.1
          (recordOk r = false → exec (.launch sd sa sb) s = .next (back z 4)) ∧
          (recordOk r = true → 2 ^ q.k ≤ z.ringCount t.pkg q + q.appended.length →
            exec (.launch sd sa sb) s = .next (back z 1)) ∧
          (recordOk r = true → z.ringCount t.pkg q + q.appended.length < 2 ^ q.k → exec (.launch sd sa sb) s =
            .next (back (z.appendRecord t.pkg ((t.rs sb).truncate 6) r t.lastPub) 0)))))

/-! ### The Press -/

/-- R317, R319, R322, R325, R326: UPDS emits one pair, or drops it, and stalls while the Press does not take its pairs; RACK
racks the performed updates of a range; RACKR racks one word, returns it and leaves the operator's identity; pairs move to the
Press; a stack racks on its own. Which keys spill is left free (log 7); a stack's own racking takes the whole stack's keys of
the context (log 66); the PATH of a record that no access raised is the model's reading (log 32). -/
def Obligations.PressResults : Prop :=
  ∀ (s : State) (t : Team) (strict : Bool) (sv si sa sb sd : SReg) (rh : BitVec 10) (c : Ctx) (r : Region) (key : Nat),
    s.region? t rh = some r → s.teamCtx? t = some c →
    (s.Issues t (.upds strict sv si rh) → s.unperformed t < 2 ^ 20 →
      (updChk c r strict (t.rs si).toNat = .ok false →
        let z := s.putTeam ((t.emit rh [((t.rs si).toNat, updsValue r.op.toNat (t.rs sv))]).advance 8)
        (z.Clears t.uid → exec (.upds strict sv si rh) s = .next z) ∧
        (¬z.Clears t.uid → exec (.upds strict sv si rh) s = .next (s.handOffAll t.uid))) ∧
      (updChk c r strict (t.rs si).toNat = .ok true → exec (.upds strict sv si rh) s =
        .next (s.putTeam ({ t with updf := updfDrop t.updf 0 0 }.advance 8)))) ∧
    (s.Issues t (.rack rh sa sb) → exec (.rack rh sa sb) s = .next ((s.rackKeysOf t.pkg (fun k =>
      k.ctx == t.ctx && k.handle == rh.toNat && decide ((t.rs sa).toNat ≤ k.idx) &&
        decide (k.idx < (t.rs sa).toNat + min (t.rs sb).toNat (r.len - (t.rs sa).toNat)))).advance t.uid 8)) ∧
    (s.Issues t (.rackr sd sa rh) → (t.rs sa).toNat < r.len →
      c.winXlate .update (r.base + (t.rs sa).toNat * opWidth r.op.toNat) = .ok key →
      let w := opWidth r.op.toNat
      let z := s.rackWord t.pkg t.ctx rh.toNat (t.rs sa).toNat
      let y := z.modCtx t.pkg t.ctx (fun c => match kfind c.regions rh.toNat with
        | some r => c.putRegion rh.toNat (r.rebase (t.rs sa).toNat)
        | none => c)
      exec (.rackr sd sa rh) s = .next (({ y with
        mem := Memory.putCells y.mem (cellsAt key (natToBytes w (opIdentity r.op.toNat))) } : State).modTeam t.uid (fun u =>
          (u.wrS sd (BitVec.ofNat 64 (Memory.num z.mem key w))).advance 8))) ∧
    (s.Issues t (.rackr sd sa rh) → r.len ≤ (t.rs sa).toNat → exec (.rackr sd sa rh) s =
      .next (s.frontFault t.uid { FaultInfo.plain 0x10 .upd with coord := some (0, 0) } none)) ∧
    (s.At t.gid t → exec (.handOff t.gid) s = .next (State.handOffN t.uid 16 s)) ∧
    (∀ p stack ctx, exec (.backgroundRacking p stack ctx) s =
      .next (s.rackKeysOf p (fun k => k.ctx == ctx && k.stack == stack.toNat)))

/-! ### Fault handling and pre-emption -/

/-- R54, R224: a system instruction without the system attribute is an illegal instruction. With it, ERET resumes a stopped
team of its context; CTXS writes the team's image; CTXL loads one; a name that is no team of the context gives status 2, a
team that is not stopped status 1. The order of the sections of a save area that R227 leaves open is a free choice, and what a
load does not take back is the model's reading (log 25), as are that CTXL loads L = 0 as it stands (log 89), the status of an
image whose BQN is above 16 (log 120) and the PATH of a record that no access raised (log 32). -/
def Obligations.SystemInstructions : Prop :=
  ∀ (s : State) (t u : Team) (sd sa sb : SReg) (pc : Word) (seq : BitVec 32) (ks : List Nat), s.issuing? = some t →
    (t.sys = false →
      (t.mustWait (.eret sd sa) = false →
        exec (.eret sd sa) s = .next (s.frontFault t.uid (FaultInfo.plain 0x01 .team) none)) ∧
      (t.mustWait (.ctxs sd sa sb) = false →
        exec (.ctxs sd sa sb) s = .next (s.frontFault t.uid (FaultInfo.plain 0x01 .team) none)) ∧
      (t.mustWait (.ctxl sd sa sb) = false →
        exec (.ctxl sd sa sb) s = .next (s.frontFault t.uid (FaultInfo.plain 0x01 .team) none))) ∧
    (t.sys = true → t.mustWait (.eret sd sa) = false →
      ((t.rs sa).extractLsb' 25 39 ≠ 0 ∨ s.teamAt? t.ctx ((t.rs sa).extractLsb' 0 25) = none →
        exec (.eret sd sa) s = .next (s.modTeam t.uid (fun v => (v.wrS sd 2).advance 8))) ∧
      ((t.rs sa).extractLsb' 25 39 = 0 → s.teamAt? t.ctx ((t.rs sa).extractLsb' 0 25) = some u →
        (∀ p q, u.status ≠ .stopped p q) → exec (.eret sd sa) s = .next (s.modTeam t.uid (fun v => (v.wrS sd 1).advance 8))) ∧
      (s.ctxTarget t (t.rs sa) = .ok (u, pc, seq) → exec (.eret sd sa) s =
        .next ((s.modTeam u.uid (fun v => { v with status := .running, pc })).modTeam t.uid (fun v =>
          (v.wrS sd 0).advance 8)))) ∧
    (t.sys = true → t.mustWait (.ctxs sd sa sb) = false → s.ctxTarget t (t.rs sa) = .ok (u, pc, seq) →
      s.areaKeys t .write (t.rs sb) u.part = .ok (some ks) →
      exec (.ctxs sd sa sb) s = .next ((storeDwords t.uid (s.saveImage u) ks s).modTeam t.uid (fun v =>
        (v.wrS sd 0).advance 8))) ∧
    (t.sys = true → t.mustWait (.ctxl sd sa sb) = false → s.ctxTarget t (t.rs sa) = .ok (u, pc, seq) →
      s.areaKeys t .read (t.rs sb) u.part = .ok (some ks) →
      let l := s.loadBytes t ks
      let h := wordsOf (l.1.take 4096)
      headerClean h = true → (h.getD 48 0).extractLsb' 0 2 = u.part → l.2.geosMatch u h = true →
      exec (.ctxl sd sa sb) s = .next ((l.2.putTeam (l.2.fromImage u h (l.1.drop 4096) seq)).modTeam t.uid (fun v =>
        (v.wrS sd 0).advance 8)))

/-- R116, R389, R228, R273, R226, R227: a held fault is taken once nothing older is left; a record that has room enters the
ring of its context, with the new tail and a signal; a resolution for a saved team is posted; after 20 microseconds a
waiting walk is looked at again; a request starts the deadline of the launch's class, a withdrawal ends it, a forced save at
its end takes the team off its core, and a saved team that may come back does. The packing of the ring's tail and of the
completion entry are the model's reading (log 67). -/
def Obligations.FaultsAndPreemption : Prop :=
  ∀ (s : State) (t : Team) (h : HeldFault) (pkg : PkgNo) (ctx : CtxId) (seq : BitVec 32) (c : Ctx) (f : FaultPost)
    (rest : List FaultPost) (x : SavedTeam) (st : Nat) (g : Gid),
    (s.At t.gid t → t.heldFault = some h → t.clear = true → exec (.fault t.gid) s = .next (s.takeFault t.uid h)) ∧
    (s.ctx? pkg ctx = some c → c.posts = f :: rest →
      let y := s.rackKeys (keysFrom (devKey pkg (c.faultQ + faultRing)) 16)
      y.faultRoom pkg c f.bytes = true →
      let tail := (y.hostDword (devKey pkg (c.faultQ + faultRing))).toNat
      let z := (y.ringWords pkg c.faultQ tail f.words).fwDword (devKey pkg (c.faultQ + faultRing))
        (BitVec.ofNat 64 ((tail + f.bytes) % faultRing))
      exec (.faultRecordPost pkg ctx) s = .next ((z.modCtx pkg ctx (fun c =>
        { c with posts := rest, msixSignals := c.msixSignals + 1 })).postToken pkg ctx f)) ∧
    (s.ctx? pkg ctx = some c → s.saved.find? (fun y => y.stoppedAt ctx seq && y.team.pkg == pkg) = some x →
      exec (.faultCompletion pkg ctx seq) s = .next ((s.fwVa pkg ctx (recFcq (s.recordOf x.team) + 16 * (c.fcqTail % 4096))
        [completionHead seq x.team.gid, 0]).modCtx pkg ctx (fun c =>
          { c with fcqTail := c.fcqTail + 1, resolved := c.resolved ++ [(seq, x.team.gid)] }))) ∧
    (s.At t.gid t → t.tileWalk = none → t.wait = .walk st → exec (.walkTimeout t.gid) s =
      .next { s with now := max s.now (st + walkLimit), agenda := .team t.uid :: s.agenda }) ∧
    (s.At t.gid t → t.tileWalk = some st → exec (.walkTimeout t.gid) s =
      .next (({ s with now := max s.now (st + walkLimit) } : State).runHead t.uid)) ∧
    (s.At t.gid t → t.preq = false → exec (.preemptionRequest t.gid) s = .next (s.putTeam { t with
      preq := true, pdlEnd := s.now + deadlineCycles (recDl (s.recordOf t)) })) ∧
    (s.At t.gid t → exec (.preemptionWithdrawal t.gid) s = .next (s.putTeam { t with preq := false, pdlEnd := 0 })) ∧
    (s.At t.gid t → t.preq = true → t.pdlEnd ≤ s.now → exec (.forcedSave t.gid) s = .next (s.forceSave t.uid) ∧
      (s.forceSave t.uid).team? t.uid = none) ∧
    (s.saved.find? (fun y => y.team.uid == x.team.uid) = some x → s.mayResume x g = true →
      (∀ l, s.launch? x.team.launch = some l → l.isGang = false) →
      exec (.resumption x.team.uid g) s = .next (s.resume x g))

/-! ### The scheduler -/

/-- R382, R384, R288, R289, R241, R301, R386, R374: the global scheduler core pops a record into a launch, drops one that does
not check with status 2 and one whose graph is cancelled with status 1, and takes nothing while a reset of the queue is in
progress or firmware holds the launches of an image; dies take instances and halve the other's range; cores
are given to groups; a launch whose teams have all exited posts its completion doubleword and goes; gangs report ready, start
together or abort, a late package by forced saves of the teams that hold the gang's cores. Which of several possible cores a
group gets is the event's argument. The model's readings: a record without an aligned CPL posts
nothing (log 26), the first views of a placed team (log 45), the order
of cores in a narrow group and in a gang (log 63, 64), the status of a partly dropped launch (log 70), which teams a late ABORT
saves (log 73, 101), which launches the work of a queue on another package is (log 91). -/
def Obligations.SchedulerSteps : Prop :=
  ∀ (s : State) (p : PkgNo) (q : BitVec 6) (c : Ctx) (l : Launch) (i : Inst) (inst : Nat) (cores : List Gid) (die : Bool),
    (((s.pkg p).resetting.contains q = true ∨ (s.pkg p).awaiting.contains (s.queue p q).ctx = true) → s.poppable p q = false) ∧
    (let y := s.watchTails p
     (y.pkg p).power = .on → (y.pkg p).booted = true → y.nextQueue p = some q → y.ctx? p (y.queue p q).ctx = some c →
      let e := y.popEntry p q
      let z := e.2.2.modPkg p (fun k => { k with lastPop := k.lastPop.set (y.queue p q).pri.toFin q })
      (recordOk e.1 = false →
        exec (.queuePop p q) s = .next (z.postCompletion p (y.queue p q).ctx e.1 2 q 0)) ∧
      (recordOk e.1 = true → y.dropsEntry c (recGraph e.1) = true →
        exec (.queuePop p q) s = .next (z.postCompletion p (y.queue p q).ctx e.1 1 q 0)) ∧
      (recordOk e.1 = true → y.dropsEntry c (recGraph e.1) = false →
        exec (.queuePop p q) s = .next { z with
          nextId := z.nextId + 1, launches := z.launches ++ [z.newLaunch p q (y.queue p q).ctx e.1 e.2.1] })) ∧
    (s.launch? l.id = some l → (l.range die).1 < (l.range die).2 →
      l.insts.any (fun i => i.die == die && decide (i.cores.length < i.total)) = false → s.imageHeld l.pkg l.ctx = false →
      s.orderOk l = true → s.dieHolds l die = true →
      (s.dropsRange l = false → exec (.instancePlacement l.id die) s = .next (s.putLaunch
        { (l.putRange die ((l.range die).1 + 1, (l.range die).2)) with
          insts := l.insts ++ [⟨(l.range die).1, die, [], recCores l.record 0⟩], view0 := union l.view0 (s.serialView l) })) ∧
      (s.dropsRange l = true → exec (.instancePlacement l.id die) s =
        .next (s.putLaunch (l.putRange die ((l.range die).2, (l.range die).2))))) ∧
    (s.launch? l.id = some l → l.stolen = false → (l.range die).2 ≤ (l.range die).1 → s.dieHolds l die = true →
      let n := (l.range (!die)).2 - (l.range (!die)).1
      let mid := (l.range (!die)).2 - n / 2
      exec (.steal l.id die) s = .next (s.putLaunch (if 2 ≤ n
        then (l.putRange die (mid, (l.range (!die)).2)).putRange (!die) ((l.range (!die)).1, mid)
        else { l with stolen := true }))) ∧
    (s.launch? l.id = some l → l.insts.find? (fun j => j.idx == inst) = some i → s.coresOk l i cores = true →
      exec (.groupPlacement l.id inst cores) s = .next ((s.placeCores l inst
        (instGids l.record (i.cores ++ cores.map gidCoreKey)) .running i.cores.length (cores.map gidCoreKey)).putLaunch
          (l.addCores inst (cores.map gidCoreKey)))) ∧
    (s.launch? l.id = some l → (∀ u ∈ s.teams, u.launch ≠ l.id) → (∀ x ∈ s.saved, x.team.launch ≠ l.id) →
      (l.cut.contains l.pkg = true → exec (.launchCompletion l.id) s =
        .next { s with launches := s.launches.filter (fun m => m.id != l.id) }) ∧
      (l.allPlaced = true → l.cut.contains l.pkg = false →
        let z := (s.postCompletion l.pkg l.ctx l.record (if l.insts = [] then 1 else 0) l.queue l.faults).modQueue l.pkg l.queue
          (fun x => { x with done := x.done ++ l.exited.map (·.uid) ++ l.kin })
        exec (.launchCompletion l.id) s = .next { z with launches := z.launches.filter (fun m => m.id != l.id) })) ∧
    (∀ va, inWin va = true → let w := c.winEntry ((va - winBase) / winPage)
      w ≠ 0 → s.xlateHost p c va = .ok (devKey (w.extractLsb' 52 12) ((w.extractLsb' 25 20).toNat * 2 ^ 25 + va % 2 ^ 25))) ∧
    (∀ (r : List Word) (st faults key : Nat), recCpl r ≠ 0 → recCpl r % 8 = 0 → s.ctx? p c.id = some c →
      s.xlateHost p c (recCpl r) = .ok key → st ≤ 2 →
      s.postCompletion p c.id r st q faults = s.fwDword key (completionWord st q faults) ∧
      (completionWord st q faults).getLsbD 63 = true ∧ ((completionWord st q faults).extractLsb' 40 8).toNat = st ∧
      (completionWord st q faults).extractLsb' 32 6 = q ∧
      ((completionWord st q faults).extractLsb' 0 32).toNat = faults % 2 ^ 32) ∧
    (l.rests = true ↔ l.gang = .idle ∨ (l.gang = .aborting ∧ l.ready = [] ∧ l.late = [])) ∧
    (s.launch? l.id = some l → l.fabric = true → l.rests = true → l.cut.contains l.pkg = false →
      exec (.gangSliceStart l.id) s = .next (s.putLaunch (if s.gangReady l then { l with gang := .starting }
        else { l with gang := .aborting, late := l.lateOnes }))) ∧
    (s.launch? l.id = some l → l.fabric = true → l.rests = true → l.cut.contains p = false → l.cut.contains l.pkg = false →
      s.imageHeld p l.ctx = false → l.ready.contains p = false → s.placedOn l p = false → s.orderOk l = true → s.routed p l.pkg = true →
      (s.savedOn l p ≠ [] → (∀ x ∈ s.savedOn l p, s.mayResume x x.team.gid = true) →
        exec (.ready l.id p cores) s = .next (((s.savedOn l p).foldl State.holdSaved s).putLaunch (l.addReady p))) ∧
      (s.savedOn l p = [] → l.insts.find? (fun j => j.idx == 0) = some i → cores ≠ [] → (s.pkg p).takes = true →
        (∀ g ∈ cores, s.coreFree l.ctx g = true ∧ gidPkg g = p) → cores.Nodup →
        i.cores.length + cores.length ≤ i.total →
        exec (.ready l.id p cores) s = .next ((s.placeCores l 0 [] .held i.cores.length (cores.map gidCoreKey)).putLaunch
          ((l.addCores 0 (cores.map gidCoreKey)).addReady p)))) ∧
    (s.launch? l.id = some l → l.gang = .starting → l.ready.contains p = true → s.routed l.pkg p = true →
      exec (.start l.id p) s = .next ((s.releaseOn l p).putLaunch (l.dropReady p))) ∧
    (s.launch? l.id = some l → l.gang = .aborting → l.cut.contains p = false → s.routed l.pkg p = true →
      (l.ready.contains p = true →
        let mine := s.teams.filter (fun t => t.launch == l.id && t.pkg == p)
        ((∀ t ∈ mine, t.fresh = false) →
          exec (.abort l.id p) s = .next ((mine.foldl State.unplace s).putLaunch (l.dropReady p))) ∧
        ((∃ t ∈ mine, t.fresh = true) →
          exec (.abort l.id p) s = .next ((mine.foldl State.unplace s).putLaunch
            (({ l with insts := l.insts.map (fun i =>
              { i with cores := i.cores.filter (fun c => gidPkg (keyGid c 0) != p) }) } : Launch).dropReady p)))) ∧
      (l.ready.contains p = false → exec (.abort l.id p) s =
        .next (((s.teams.filter (fun t => t.pkg == p && s.holdsGang l t)).foldl (fun s t => s.forceSave t.uid) s).putLaunch
          (l.dropReady p)))) ∧
    (∀ t : Team, (s.holdsGang l t = true → t.preq = true ∧ t.launch ≠ l.id ∧
        ((∃ j ∈ l.insts, gidCoreKey t.gid ∈ j.cores) ∨ ∃ j ∈ l.insts, j.cores.length < j.total)) ∧
      (t.preq = true → t.launch ≠ l.id → (∃ j ∈ l.insts, gidCoreKey t.gid ∈ j.cores) → s.holdsGang l t = true))

/-! ### The host -/

/-- R387, R382, R302, R301, R274, R277, R390, R388, Table 18.4: the command that waits in the mailbox, its arguments good,
has its effect, clears bit 63 and returns status 0. CTX.END of no context, WIN.SET of a bad entry and FW.STAGE of an image
that does not verify or lies outside host memory return status 2, FW.ACTIVATE while a context is there status 3, a code that no
row has status 1, with no other effect. FW.ACTIVATE of an image that does not verify resets the package and boots the previous
slot, REVERT set. QUEUE.RESET ends the work of its queue at once and reports completion on a later turn; until then a LAUNCH
there is refused. WIN.SET waits for the accesses under the entries that it replaces (log 90). A service of HOST.SVC runs for a
caller that stands on no core; once it has ended, its status is in doubleword 2. The model's choices: how the arguments are
packed in the mailbox and how host addresses are told apart (log 28), what walks read after TLB.INV (log 39, 99), ring
indices run freely (log 56), the caller of a service (log 75), that a queue reset first delivers messages (log 79), which
launches of other packages it ends (log 91), whether a new context's image holds routes (log 74), what survives the reset after
an image that does not verify (log 29) and which mailbox stands after it (log 77); the check of an image is a free function
(log 8). -/
def Obligations.HostCommands : Prop :=
  ∀ (s : State) (p : PkgNo) (c : Ctx) (id : CtxId) (g : BitVec 16),
    let k := s.pkg p
    let m := fun (i : Nat) => (s.pkg p).mail i
    let inBlock := fun (n : Nat) => decide (((m 3).extractLsb' 0 32).toNat ≤ n) &&
      decide (n < ((m 3).extractLsb' 0 32).toNat + ((m 3).extractLsb' 32 32).toNat)
    (s.pendingCode p = some 0x01 → ctxArg (m 1) = some id → s.ctx? p id = none → k.createOk = true →
      let y := s.rackKeysOf p (fun _ => true)
      exec (.ctxCreate p) s = .next (((y.modPkg p (fun k => { (k.holdImage id (y.pick 5 2 == 1)) with
        sync := kfilter (fun n => !inBlock n) k.sync, mirror := kfilter (fun n => !inBlock n) k.mirror,
        mirrorQ := k.mirrorQ.filter (fun x => !inBlock x.1) })).putCtx p (y.newCtx k id)).endCommand p 0)) ∧
    (s.pendingCode p = some 0x02 → s.ctxOf p (m 1) = some c →
      exec (.ctxEnd p) s = .next (((s.endCtx c.id).report p ⟨some c.id, 0, .command⟩).endCommand p 0)) ∧
    (s.pendingCode p = some 0x02 → s.ctxOf p (m 1) = none → exec (.ctxEnd p) s = .next (s.endCommand p 2)) ∧
    (s.pendingCode p = some 0x03 → s.ctxOf p (m 2) = some c → (m 1).toNat ≤ 63 → (m 3).toNat ≤ 7 → 4 ≤ (m 5).toNat →
      (m 5).toNat ≤ 16 → rangeOk (m 4) 128 (2 ^ (m 5).toNat * 128) = true → rangeOk (m 6) 8 8 = true →
      rangeOk (m 7) 8 8 = true →
      (m 6).toNat / 64 ≠ (m 7).toNat / 64 → (k.queues.get (Fin.ofNat 64 (m 1).toNat)).open_ = false →
      k.resetting.contains ((m 1).extractLsb' 0 6) = false →
      let y := s.rackKeys (keysFrom (cmdKey p (m 7).toNat) 8)
      exec (.queueOpen p) s = .next ((y.modQueue p ((m 1).extractLsb' 0 6) (fun _ =>
        { open_ := true, ctx := c.id, pri := (m 3).extractLsb' 0 3, ring := (m 4).toNat, k := (m 5).toNat,
          tailAt := (m 6).toNat, headAt := (m 7).toNat, head := (y.hostDword (cmdKey p (m 7).toNat)).toNat,
          appended := [], done := [] })).endCommand p 0)) ∧
    (s.pendingCode p = some 0x04 → (m 1).toNat ≤ 63 →
      let q := (m 1).extractLsb' 0 6
      (k.resetting.contains q = false → (s.queue p q).open_ = true → exec (.queueReset p) s =
        .next ((s.resetQueue p q).modPkg p (fun k => { k with resetting := k.resetting ++ [q] }))) ∧
      (k.resetting.contains q = true → exec (.queueReset p) s = .next ((s.modPkg p (fun k =>
        { k with resetting := k.resetting.filter (fun x => x != q) })).endCommand p 0))) ∧
    (s.pendingCode p = some 0x05 → s.ctxOf p (m 1) = some c → graphArg (m 2) = some g → g ≠ 0 →
      exec (.cancel p) s = .next ((s.putCtx p (c.raise s.now g)).endCommand p 0)) ∧
    (s.pendingCode p = some 0x06 → s.ctxOf p (m 1) = some c → graphArg (m 2) = some g →
      exec (.cancelClr p) s = .next ((s.putCtx p (c.clearTokens g)).endCommand p 0)) ∧
    (s.pendingCode p = some 0x07 → s.ctxOf p (m 1) = some c → (m 2).toNat + (m 3).toNat ≤ 2 ^ 40 →
      let y := s.rackKeysOf p (fun _ => true)
      exec (.tlbInv p) s = .next ((y.modCtx p c.id (fun c => { c with
        ptSnaps := ⟨(m 2).toNat, (m 3).toNat, y.hostMem, y.nextId⟩ :: c.ptSnaps })).endCommand p 0)) ∧
    (s.pendingCode p = some 0x08 → s.ctxOf p (m 1) = some c → (m 2).toNat + (m 3).toNat ≤ 131072 →
      rangeOk (m 4) 8 (8 * (m 3).toNat) = true →
      let y := s.rackKeys (keysFrom (cmdKey p (m 4).toNat) (8 * (m 3).toNat))
      let es := (List.range (m 3).toNat).map (fun i => y.hostDword (cmdKey p (m 4).toNat + 8 * i))
      let busy := s.winBusy p c (m 2).toNat (m 3).toNat
      (busy = true → exec (.winSet p) s = .next s) ∧
      (busy = false → es.all winEntryOk = true → exec (.winSet p) s = .next
        (((y.rackKeysOf p (c.keyInPages (m 2).toNat (m 3).toNat)).modCtx p c.id (fun c =>
          { c with win := es.zipIdx.foldl (fun w e => kset 0 w ((m 2).toNat + e.2) e.1) c.win })).endCommand p 0)) ∧
      (busy = false → es.all winEntryOk = false → exec (.winSet p) s = .next (y.endCommand p 2))) ∧
    (s.pendingCode p = some 0x09 →
      let image := s.hostValue (keysFrom (hostKey (m 1).toNat) (m 2).toNat)
      let within := (m 1).toNat + (m 2).toNat ≤ 2 ^ 52
      (within → imageOk image = true →
        exec (.fwStage p) s = .next ((s.modPkg p (fun k => k.putAlternate image)).endCommand p 0)) ∧
      (¬within ∨ imageOk image = false → exec (.fwStage p) s = .next (s.endCommand p 2))) ∧
    (s.pendingCode p = some 0x0A →
      (k.ctxs ≠ [] → exec (.fwActivate p) s = .next (s.endCommand p 3)) ∧
      (k.ctxs = [] → imageOk k.alternate = true → exec (.fwActivate p) s =
        .next ((s.modPkg p (fun k => { k with trial := true, trialAt := s.now })).endCommand p 0)) ∧
      (k.ctxs = [] → imageOk k.alternate = false → exec (.fwActivate p) s =
        .next ((s.modPkg p (fun k => { (k.restart .on).boot with revert := true })).endCommand p 0))) ∧
    (s.pendingCode p = some 0x0B → s.ctxOf p (m 1) = some c → hostSvcOk (m 2).toNat = true → (∀ u ∈ s.teams, u.uid ≠ 0) →
      ∃ z, runService (m 2).toNat { s with teams := s.teams ++ [s.hostCaller k p c], cur := 0 } = .next z ∧
        exec (.hostSvc p) s = .next (z.serviceEnd p s.cur) ∧
        (∀ u, z.team? 0 = some u → u.pc ≠ 0 → (((z.serviceEnd p s.cur).pkg p).mail 0).getLsbD 63 = false ∧
          ((z.serviceEnd p s.cur).pkg p).mail 1 = 0 ∧ ((z.serviceEnd p s.cur).pkg p).mail 2 = u.rs 1)) ∧
    (∀ n, s.pendingCode p = some n → ¬(1 ≤ n ∧ n ≤ 0x0B) →
      exec (.unknownCommandCode p) s = .next (s.endCommand p 1))

/-- R9, R268, R298, R313, R390, R391: host accesses to memory and to the registers of BAR0. A write of W2 whose ways are in
use, too many or none, or whose range is empty, clears EN and sets ERR; any other takes its fields. COMMIT within 2 s of a
trial's start makes the trial slot active; a trial that has no COMMIT by then ends every context, resets the package and boots
the previous slot, REVERT set. The digests, the boot ROM, the fuses and the check of an image are free constants (log 8); what
survives a reset, and that a refused W2 keeps the other fields, are the model's readings (log 29, 71). -/
def Obligations.HostPathResults : Prop :=
  ∀ (s : State) (p : PkgNo) (off : BitVec 16) (v : Word) (die : Bool) (n : BitVec 4) (tgt : HostTarget) (bs : List Byte)
    (cnt : Nat) (a b : Bool),
    exec (.hostRead tgt cnt) s = .next (s.rackKeys ((List.range (targetBytes tgt cnt)).map (targetKey tgt))) ∧
    exec (.hostWrite tgt bs) s = .next (s.hostCells
      ((bs.take (targetBytes tgt bs.length)).zipIdx.map (fun x => (targetKey tgt x.2, x.1)))) ∧
    (∃ k, exec (.rsvW2Write p die n v) s = .next (s.modPkg p k) ∧ k = (fun k => k.putDie die ((k.die die).writeW2 n v))) ∧
    (∀ d : Die,
      let mask : BitVec 16 := v.extractLsb' 0 16
      let on := fun (j : BitVec 4) => (d.rsvAt j).w2.getLsbD 16
      let held := fun (j : BitVec 4) => (d.rsvAt j).w2.extractLsb' 0 16
      let others := ((List.range 16).map (BitVec.ofNat 4)).filter (fun j => j != n && on j)
      let refused := v.getLsbD 16 = true ∧ (mask = 0 ∨ (∃ j, j ≠ n ∧ on j = true ∧ held j &&& mask ≠ 0) ∨
        12 < ways mask + (others.map (fun j => ways (held j))).sum ∨ (d.rsvAt n).next1.toNat ≤ (d.rsvAt n).next0.toNat)
      (refused → ((d.writeW2 n v).rsvAt n).w2.getLsbD 16 = false ∧ ((d.writeW2 n v).rsvAt n).w2.getLsbD 17 = true) ∧
      (¬refused → ((d.writeW2 n v).rsvAt n).w2 = v &&& rsvFields ∧ ((d.writeW2 n v).rsvAt n).w2.getLsbD 17 = false ∧
        ((d.writeW2 n v).rsvAt n).w0 = (d.rsvAt n).next0 ∧ ((d.writeW2 n v).rsvAt n).w1 = (d.rsvAt n).next1) ∧
      (∀ j, j ≠ n → (d.writeW2 n v).rsvAt j = d.rsvAt j)) ∧
    exec (.commit p) s = .next (s.modPkg p (fun k =>
      if k.trial = true ∧ s.now < k.trialAt + nsCycles 2000000000 then { k with active := !k.active, trial := false } else k)) ∧
    exec (.registerWrite p off v) s = .next (s.modPkg p (fun k => k.regWrite s.now off.toNat v)) ∧
    (∀ (k : Pkg) (i : Nat), i < 8 → (k.regWrite s.now (0x1000 + 8 * i) v).mail i = v) ∧
    exec (.getMeasurements p) s = .next (s.modPkg p (fun k => { k with spdmAnswer :=
      [Config.bootRom, k.activeSlot, k.alternate, Config.fusedConfig].map Config.shake256 })) ∧
    exec (.negotiateAlgorithms p a b) s = .next (s.modPkg p (fun k => { k with spdmAgreed := a && b })) ∧
    ((s.pkg p).power = .on → (s.pkg p).booted = false → exec (.boot p) s = .next (s.modPkg p Pkg.boot)) ∧
    (∀ k : Pkg, imageOk k.activeSlot = false → imageOk k.alternate = true →
      k.boot = { k with booted := true, active := !k.active, revert := true }) ∧
    ((s.pkg p).trial = true → (s.pkg p).trialAt + nsCycles 2000000000 ≤ s.now → exec (.trialTimeout p) s =
      .next ((s.endAll p .trial).modPkg p (fun k => { (k.restart .on).boot with revert := true })))

/-- R222, R234, R290, R291, R305, R356, R357, R392, R393, R4: errors, retirement, failures of units and links, ports, clock,
temperature and power. An error in data that has been read, or in what a context owns, ends that context alone; every context
that ends and every unit retired is reported. The model's readings: where the fields of an event record lie (log 27), which
spare of two at one distance a retirement takes (log 69), that the records of a fixup pass name the contexts of their image,
whose launches firmware holds from a retirement to the pass (log 74), which contexts have memory on a stack and who owns the
data that a cellar lost (log 76), which transfers a link that goes down loses (log 78), what survives a loss of power or a
restart (log 29), what a retirement leaves under a logical number (log 123) and what fabtab holds beyond the package route
table (log 117). -/
def Obligations.FailuresAndPower : Prop :=
  ∀ (s : State) (p q : PkgNo) (pos : Position) (fx : List RouteFixup) (port pp : BitVec 4)
    (up comp die : Bool) (unit key : Nat) (site : ErrorSite) (o : Option (BitVec 4)) (d c : Bool) (y : BitVec 4) (x : BitVec 5)
    (n : BitVec 4),
    let onClu := fun (d c : Bool) (t : Team) => t.pkg == p && gidDie t.gid == d && gidClu t.gid == c
    (∀ kind, s.failCtxs p unit kind [] = s ∧
      ∀ a as, s.failCtxs p unit kind (a :: as) = ((s.endCtx a).report p ⟨some a, unit, kind⟩).failCtxs p unit kind as) ∧
    exec (.watchdog p) s = .next (s.failCtxs p 0 .watchdog (s.ctxsOn p)) ∧
    (s.teams.any (onClu pos.die pos.clu) = false →
      exec (.retirement p pos) s = .next ((s.modPkg p (fun k => { (k.retire pos) with
        awaiting := (k.retire pos).routed })).report p ⟨none, positionUnit pos, .retirement⟩)) ∧
    ((∀ t ∈ s.teams, t.pkg = p → ∀ f ∈ fx, t.ctx ∉ f.ctxs) →
      let cs := (fx.flatMap (·.ctxs)).eraseDups
      let z := fx.foldl (fun s f => s.patchWords f 0 (s.fixupWords p f)) s
      exec (.routeFixupPass p fx) s = .next ((z.modPkg p (fun k => k.passDone cs)).showPass p cs s.nextId)) ∧
    (∀ (k : Pkg) (cs : List CtxId) (x : CtxId), (x ∈ (k.passDone cs).routed ↔ x ∈ k.routed ∨ x ∈ cs) ∧
      (x ∈ (k.passDone cs).awaiting ↔ x ∈ k.awaiting ∧ x ∉ cs)) ∧
    (((s.pkg p).port port).mark = .up →
      let a := ((s.pkg p).port port).peer
      let b := ((s.pkg p).port port).peerPort
      let z := (s.modPkg p (fun k => k.portDown port)).modPkg a (fun k =>
        if (k.port b).peer = p ∧ (k.port b).peerPort = port then k.portDown b else k)
      exec (.portDown p port) s = .next (z.failCtxs p port.toNat .port (s.lostAt (p, port) (a, b)))) ∧
    (((s.pkg p).port port).mark = .down →
      let z := s.modPkg p (fun k => k.putPort port { ((s.pkg p).port port) with mark := .retired })
      exec (.portRetire p port) s =
        .next ({ z with pkgs := z.pkgs.map (fun (x : Nat × Pkg) => (x.1, { x.2 with awaiting := x.2.routed })) }.report p
          ⟨none, port.toNat, .port⟩)) ∧
    (q ≠ p → ((s.pkg p).port port).mark ≠ .retired → exec (.portTraining p port q pp up comp) s =
      .next ((if up then s else s.dropLink p port).modPkg p (fun k =>
        k.putPort port ⟨if up then .up else .down, q, pp, up && comp⟩))) ∧
    exec (.flitReplay p o) s = .next s ∧
    exec (.d2dLinkFailure p) s = .next ((s.failCtxs p 0 .link (s.ctxsAt p)).modPkg p (fun k =>
      { k with linkUp := false, linkComp := false, outOfService := true })) ∧
    exec (.d2dLinkTraining p) s = .next (s.modPkg p (fun k => { k with linkUp := true, linkComp := true })) ∧
    exec (.softError p unit) s = .next (s.modPkg p (fun k =>
      { k with softErrors := kset 0 k.softErrors unit (kget 0 k.softErrors unit + 1) })) ∧
    exec (.uncorrectableError p (.unread key)) s = .next { s with bad := union s.bad [key] } ∧
    ((∀ key, site ≠ .unread key) →
      (∀ ctx, s.errorOwner p site = some ctx → exec (.uncorrectableError p site) s =
        .next ((s.endCtx ctx).report p ⟨some ctx, 0, .ecc⟩)) ∧
      (s.errorOwner p site = none → exec (.uncorrectableError p site) s = .next s)) ∧
    (let at_ : Position := ⟨d, c, y, x⟩
     exec (.unitFailure p (.core d c y x)) s = .next
      (((s.failCtxs p (positionUnit at_) .core (s.ctxsWith (onClu d c))).modPkg p (fun k => { (k.retire at_) with
        awaiting := (k.retire at_).routed })).report p ⟨none, positionUnit at_, .retirement⟩)) ∧
    exec (.unitFailure p (.leaf d c)) s = .next (s.failCtxs p (d.toNat * 2 + c.toNat) .leaf (s.ctxsWith (onClu d c))) ∧
    (∃ cs, exec (.unitFailure p (.stack n)) s = .next ((s.failCtxs p n.toNat .stack cs).modPkg p (fun k =>
      { k with outOfService := true })) ∧ cs = s.ctxsWithMem (fun r a => r == p && stackOf a == n.toNat)) ∧
    (let a := s.ctxsAt q
     let b := s.ctxsWithMem (fun r _ => r == q)
     exec (.unitFailure p (.peer q)) s = .next ((s.failCtxs p q.toNat .peer (a ++ b.filter (fun x => !a.contains x))).modPkg q
       (fun k => { k with outOfService := true }))) ∧
    exec (.hostAttachmentFailure p) s = .next (s.modPkg p (fun k => { k with hostError := true })) ∧
    exec (.supplySag p die) s = .next (s.modPkg p (fun k => k.putDie die { (k.die die) with sagAt := some s.now })) ∧
    (∃ f : Die → Die, exec (.clockReturn p die) s = .next (s.modPkg p (fun k => k.putDie die (f (k.die die)))) ∧
      ∀ d : Die, f d = { d with sagAt := match d.sagAt with
        | some st => if st + 1000 ≤ s.now then none else some st
        | none => none }) ∧
    exec (.junction105 p) s = .next (s.modPkg p (fun k => { k with hot := true })) ∧
    exec (.junctionBelow100 p) s = .next (s.modPkg p (fun k => { k with hot := false })) ∧
    exec (.junction115 p) s = .next ((s.failCtxs p 0 .heat (s.ctxsOn p)).powerOff p) ∧
    exec (.standby p) s = .next ((s.failCtxs p 0 .standby (s.ctxsOn p)).powerOff p) ∧
    ((s.pkg p).power = .off → exec (.wake p) s = .next (s.modPkg p (fun k => { k with power := .on }.boot)))

/-! ### The machine as a whole -/

/-- Every step keeps memory in its canonical form, and gives every write a name of its own, shared with no other write, above
the names of the writes ordered before it. The canonical form and the names are the model's own way to hold R208's writes (log
10). -/
def Obligations.StepKeepsInv : Prop :=
  ∀ s s' : State, s.Inv → step s = .next s' → s'.Inv

/-- What reset and a placement leave. After reset memory lists nothing and no write stands, so that it is a good state;
there is no team, no launch, no saved team, no publication. That nothing is placed or listed is the model's choice of what
reset shows (log 1, 2, 10). A team at placement has the state of Table 4.1 (R106): its record's entry PC, s1 the address of
its argument block, every other register, guard and special register 0, no tile name and no stream register bound, every
accumulator in float mode with every element +0, every scale byte 0x7F, its queues empty. -/
def Obligations.ResetState : Prop :=
  (State.reset.Inv ∧ State.reset.mem = [] ∧ State.reset.teams = [] ∧ State.reset.saved = [] ∧ State.reset.launches = [] ∧
    State.reset.writes = [] ∧ State.reset.pubs = [] ∧ State.reset.agenda = []) ∧
  ∀ (s : State) (l : Launch) (inst uid : Nat) (gid : Gid) (path : List Nat) (ordinal : Nat),
    let t := s.newTeam l inst uid gid path ordinal
    t.pc = recEntry l.record ∧ t.rs 1 = BitVec.ofNat 64 (recArgs l.record + inst * recStride l.record) ∧
    (∀ r, r ≠ 1 → t.rs r = 0) ∧ t.rg 0 = true ∧ (∀ k, k ≠ 0 → t.rg k = false) ∧
    (∀ n : BitVec 5, n.toNat ≤ 10 → s.sprRead t n = 0) ∧ (∀ x, t.tile x = none) ∧ (∀ i, t.q.get i = none) ∧
    (∀ x, (t.accOf x).int = false ∧ ∀ r c, (t.accOf x).el r c = 0) ∧
    (∀ i r, (t.scale.get i).gc = 0 ∧ kget 0x7F (t.scale.get i).bytes r = 0x7F) ∧
    t.tiq = [] ∧ t.bq = [] ∧ t.copies = [] ∧ t.updq = [] ∧ t.hist = []
end

