-- ==== Sys2Proof/Laws/Memory.lean ====
section
/-!
SUPPORT. Sparse tables and memory: every operation keeps the canonical form, a read after a write gives what was written,
and a write leaves every other key alone.
-/

namespace Sys2Proof.Machine

/-! ### Tables -/

/-- The canonical form in terms of membership: entries stand in the order of their keys, from `lo` on, and none holds the
value that an unlisted key reads as. -/
theorem kwfFrom_iff {α : Type} [DecidableEq α] (d : α) (m : KMap α) (lo : Nat) :
    kwfFrom d lo m = true ↔ m.Pairwise (fun u v => u.1 < v.1) ∧ ∀ kv ∈ m, lo ≤ kv.1 ∧ kv.2 ≠ d := by
  fun_induction kwfFrom d lo m <;> (simp_all [List.pairwise_cons]; try grind)

theorem kdel_sublist {α : Type} (m : KMap α) (a : Nat) : (kdel m a).Sublist m := by
  fun_induction kdel m a <;> simp_all [List.Sublist.cons]

theorem mem_kput {α : Type} {m : KMap α} {a : Nat} {x : α} {kv : Nat × α} (h : kv ∈ kput m a x) :
    kv = (a, x) ∨ kv ∈ m := by
  fun_induction kput m a x <;> grind

theorem kwf_kdel {α : Type} [DecidableEq α] (d : α) (m : KMap α) (a lo : Nat) (h : kwfFrom d lo m = true) :
    kwfFrom d lo (kdel m a) = true := by
  rw [kwfFrom_iff] at h ⊢
  exact ⟨h.1.sublist (kdel_sublist m a), fun _ h' => h.2 _ ((kdel_sublist m a).subset h')⟩

theorem kwf_kput {α : Type} [DecidableEq α] (d : α) (m : KMap α) (a lo : Nat) (x : α) (hx : x ≠ d) (ha : lo ≤ a)
    (h : kwfFrom d lo m = true) : kwfFrom d lo (kput m a x) = true := by
  rw [kwfFrom_iff] at h ⊢
  refine ⟨?_, fun _ h' => (mem_kput h').elim (fun e => e ▸ ⟨ha, hx⟩) (h.2 _)⟩
  have k := h.1
  clear h
  fun_induction kput m a x <;> grind [→ mem_kput, List.pairwise_cons]

/-- Every map operation that writes keeps the canonical form. -/
theorem kwf_kset {α : Type} [DecidableEq α] (d : α) (m : KMap α) (a : Nat) (x : α) (h : kwf d m = true) :
    kwf d (kset d m a x) = true := by
  by_cases hx : x = d
  · rw [kset, if_pos hx]; exact kwf_kdel d m a 0 h
  · rw [kset, if_neg hx]; exact kwf_kput d m a 0 x hx (Nat.zero_le a) h

/-- A key reads as what the map lists for it, or as the default. -/
theorem kget_eq {α : Type} (d : α) (m : KMap α) (b : Nat) : kget d m b = (kfind m b).getD d := by
  fun_induction kget d m b <;> grind [kfind]

/-- What an insertion lists: the new value at its key, the old one elsewhere. -/
theorem kfind_kput {α : Type} (x : α) (m : KMap α) (a b : Nat) :
    kfind (kput m a x) b = if b = a then some x else kfind m b := by
  fun_induction kput m a x <;> grind [kfind]

/-- What a removal lists: nothing at its key, the old value elsewhere. -/
theorem kfind_kdel {α : Type} (m : KMap α) (a b : Nat) : kfind (kdel m a) b = if b = a then none else kfind m b := by
  fun_induction kdel m a <;> grind [kfind]

theorem kget_kput {α : Type} (d x : α) (m : KMap α) (a b : Nat) :
    kget d (kput m a x) b = if b = a then x else kget d m b := by
  rw [kget_eq, kfind_kput, kget_eq, apply_ite (Option.getD · d), Option.getD_some]

theorem kget_kdel {α : Type} (d : α) (m : KMap α) (a b : Nat) :
    kget d (kdel m a) b = if b = a then d else kget d m b := by
  rw [kget_eq, kfind_kdel, kget_eq, apply_ite (Option.getD · d), Option.getD_none]

theorem kget_kset {α : Type} [DecidableEq α] (d : α) (m : KMap α) (a b : Nat) (x : α) :
    kget d (kset d m a x) b = if b = a then x else kget d m b := by
  by_cases hx : x = d
  · rw [kset, if_pos hx, kget_kdel, hx]
  · rw [kset, if_neg hx, kget_kput]

/-! ### Memory -/

theorem Memory.put_wf (m : Memory) (k : Nat) (b : Byte) (h : m.wf = true) : (m.put k b).wf = true := kwf_kset 0 m k b h

theorem Memory.get_put (m : Memory) (k j : Nat) (b : Byte) : (m.put k b).get j = if j = k then b else m.get j :=
  kget_kset 0 m k j b

theorem Memory.putCells_wf (cs : List Host.Cell) (m : Memory) (h : m.wf = true) : (m.putCells cs).wf = true :=
  List.foldlRecOn (motive := fun z => Memory.wf z = true) cs _ h (fun z hz c _ => Memory.put_wf z c.1 c.2 hz)

theorem Memory.get_putCells_other (cs : List Host.Cell) (j : Nat) (hj : ∀ c ∈ cs, c.1 ≠ j) (m : Memory) :
    (m.putCells cs).get j = m.get j :=
  List.foldlRecOn (motive := fun z => Memory.get z j = Memory.get m j) cs _ rfl
    (fun z hz c hc => by rw [Memory.get_put, if_neg (hj c hc).symm, hz])

theorem remapMem_wf (f : Nat → Option Nat) (m : Memory) : (remapMem f m).wf = true :=
  List.foldlRecOn (motive := fun z => Memory.wf z = true) m _ rfl (fun z hz c _ => by
    cases f c.1 with
    | none => exact hz
    | some k => exact Memory.put_wf z k c.2 hz)

/-- Memory after reset has the canonical form. -/
theorem reset_mem_wf : State.reset.mem.wf = true := rfl

/-! ### Stacks -/

/-- R293: a device address is determined by its stack and its place there. -/
theorem stack_place_inj {a b : Nat} (ha : a < 2 ^ 40) (hb : b < 2 ^ 40) (hs : stackOf a = stackOf b)
    (ho : stackOffset a = stackOffset b) : a = b := by
  simp only [stackOffset] at ho
  have hmid : a / 2 ^ 15 % 2 ^ 24 = b / 2 ^ 15 % 2 ^ 24 := by omega
  have h18 : a / 2 ^ 18 % 8 = b / 2 ^ 18 % 8 := by
    have e : ∀ c : Nat, c / 2 ^ 18 % 8 = c / 2 ^ 15 % 2 ^ 24 / 8 % 8 := fun c => by omega
    rw [e, e, hmid]
  have bnd : ∀ c : Nat, (c / 2 ^ 12 % 8 ^^^ c / 2 ^ 15 % 8) ^^^ c / 2 ^ 18 % 8 < 2 ^ 3 := fun c =>
    Nat.xor_lt_two_pow (Nat.xor_lt_two_pow (Nat.mod_lt _ (by decide)) (Nat.mod_lt _ (by decide))) (Nat.mod_lt _ (by decide))
  have ba := bnd a
  have bb := bnd b
  simp only [stackOf] at hs
  have hx : (a / 2 ^ 12 % 8 ^^^ a / 2 ^ 15 % 8) ^^^ a / 2 ^ 18 % 8 =
      (b / 2 ^ 12 % 8 ^^^ b / 2 ^ 15 % 8) ^^^ b / 2 ^ 18 % 8 := by omega
  have h12 : a / 2 ^ 12 % 8 = b / 2 ^ 12 % 8 := by
    rw [show a / 2 ^ 15 % 8 = b / 2 ^ 15 % 8 by omega, h18] at hx
    exact Nat.xor_left_inj.mp (Nat.xor_left_inj.mp hx)
  omega

end Sys2Proof.Machine
end

