-- ==== Sys2Proof/Laws/State.lean ====
section
/-!
SUPPORT. What each named update leaves in each field: one lemma a field, so that no proof unfolds an update.
-/

namespace Sys2Proof.Machine

/-! ### Teams: where the front stands -/

@[simp] theorem Team.advance_uid (t : Team) (n : Nat) : (t.advance n).uid = t.uid := rfl
@[simp] theorem Team.advance_gid (t : Team) (n : Nat) : (t.advance n).gid = t.gid := rfl
@[simp] theorem Team.advance_ctx (t : Team) (n : Nat) : (t.advance n).ctx = t.ctx := rfl
@[simp] theorem Team.advance_launch (t : Team) (n : Nat) : (t.advance n).launch = t.launch := rfl
@[simp] theorem Team.advance_inst (t : Team) (n : Nat) : (t.advance n).inst = t.inst := rfl
@[simp] theorem Team.advance_path (t : Team) (n : Nat) : (t.advance n).path = t.path := rfl
@[simp] theorem Team.advance_parent (t : Team) (n : Nat) : (t.advance n).parent = t.parent := rfl
@[simp] theorem Team.advance_kids (t : Team) (n : Nat) : (t.advance n).kids = t.kids := rfl
@[simp] theorem Team.advance_status (t : Team) (n : Nat) : (t.advance n).status = t.status := rfl
@[simp] theorem Team.advance_wait (t : Team) (n : Nat) : (t.advance n).wait = .none := rfl
@[simp] theorem Team.advance_tileWalk (t : Team) (n : Nat) : (t.advance n).tileWalk = t.tileWalk := rfl
@[simp] theorem Team.advance_pc (t : Team) (n : Nat) : (t.advance n).pc = t.pc + BitVec.ofNat 64 n := rfl
@[simp] theorem Team.advance_word (t : Team) (n : Nat) : (t.advance n).word = t.word := rfl
@[simp] theorem Team.advance_s (t : Team) (n : Nat) : (t.advance n).s = t.s := rfl
@[simp] theorem Team.advance_g (t : Team) (n : Nat) : (t.advance n).g = t.g := rfl
@[simp] theorem Team.advance_tiles (t : Team) (n : Nat) : (t.advance n).tiles = t.tiles := rfl
@[simp] theorem Team.advance_acc (t : Team) (n : Nat) : (t.advance n).acc = t.acc := rfl
@[simp] theorem Team.advance_scale (t : Team) (n : Nat) : (t.advance n).scale = t.scale := rfl
@[simp] theorem Team.advance_q (t : Team) (n : Nat) : (t.advance n).q = t.q := rfl
@[simp] theorem Team.advance_resB (t : Team) (n : Nat) : (t.advance n).resB = t.resB := rfl
@[simp] theorem Team.advance_ext (t : Team) (n : Nat) : (t.advance n).ext = t.ext := rfl
@[simp] theorem Team.advance_extc (t : Team) (n : Nat) : (t.advance n).extc = t.extc := rfl
@[simp] theorem Team.advance_fsr (t : Team) (n : Nat) : (t.advance n).fsr = t.fsr := rfl
@[simp] theorem Team.advance_fpst (t : Team) (n : Nat) : (t.advance n).fpst = t.fpst := rfl
@[simp] theorem Team.advance_satf (t : Team) (n : Nat) : (t.advance n).satf = t.satf := rfl
@[simp] theorem Team.advance_updf (t : Team) (n : Nat) : (t.advance n).updf = t.updf := rfl
@[simp] theorem Team.advance_xrow (t : Team) (n : Nat) : (t.advance n).xrow = t.xrow := rfl
@[simp] theorem Team.advance_fcrd (t : Team) (n : Nat) : (t.advance n).fcrd = t.fcrd := rfl
@[simp] theorem Team.advance_phc (t : Team) (n : Nat) : (t.advance n).phc = t.phc := rfl
@[simp] theorem Team.advance_placedAt (t : Team) (n : Nat) : (t.advance n).placedAt = t.placedAt := rfl
@[simp] theorem Team.advance_preq (t : Team) (n : Nat) : (t.advance n).preq = t.preq := rfl
@[simp] theorem Team.advance_pdlEnd (t : Team) (n : Nat) : (t.advance n).pdlEnd = t.pdlEnd := rfl
@[simp] theorem Team.advance_slip (t : Team) (n : Nat) : (t.advance n).slip = t.slip := rfl
@[simp] theorem Team.advance_split (t : Team) (n : Nat) : (t.advance n).split = t.split := rfl
@[simp] theorem Team.advance_part (t : Team) (n : Nat) : (t.advance n).part = t.part := rfl
@[simp] theorem Team.advance_lfsr (t : Team) (n : Nat) : (t.advance n).lfsr = t.lfsr := rfl
@[simp] theorem Team.advance_fresh (t : Team) (n : Nat) : (t.advance n).fresh = t.fresh := rfl
@[simp] theorem Team.advance_lft (t : Team) (n : Nat) : (t.advance n).lft = t.lft := rfl
@[simp] theorem Team.advance_sys (t : Team) (n : Nat) : (t.advance n).sys = t.sys := rfl
@[simp] theorem Team.advance_deque (t : Team) (n : Nat) : (t.advance n).deque = t.deque := rfl
@[simp] theorem Team.advance_wordSeq (t : Team) (n : Nat) : (t.advance n).wordSeq = t.seqHere + 1 := rfl
@[simp] theorem Team.advance_tiq (t : Team) (n : Nat) : (t.advance n).tiq = t.tiq := rfl
@[simp] theorem Team.advance_bq (t : Team) (n : Nat) : (t.advance n).bq = t.bq := rfl
@[simp] theorem Team.advance_credits (t : Team) (n : Nat) : (t.advance n).credits = t.credits := rfl
@[simp] theorem Team.advance_copies (t : Team) (n : Nat) : (t.advance n).copies = t.copies := rfl
@[simp] theorem Team.advance_broken (t : Team) (n : Nat) : (t.advance n).broken = t.broken := rfl
@[simp] theorem Team.advance_sbuf (t : Team) (n : Nat) : (t.advance n).sbuf = t.sbuf := rfl
@[simp] theorem Team.advance_updq (t : Team) (n : Nat) : (t.advance n).updq = t.updq := rfl
@[simp] theorem Team.advance_updSeq (t : Team) (n : Nat) : (t.advance n).updSeq = t.updSeq := rfl
@[simp] theorem Team.advance_hist (t : Team) (n : Nat) : (t.advance n).hist = t.hist := rfl
@[simp] theorem Team.advance_late (t : Team) (n : Nat) : (t.advance n).late = t.late := rfl
@[simp] theorem Team.advance_heldFault (t : Team) (n : Nat) : (t.advance n).heldFault = t.heldFault := rfl
@[simp] theorem Team.advance_pairing (t : Team) (n : Nat) : (t.advance n).pairing = t.pairing := rfl
@[simp] theorem Team.advance_views (t : Team) (n : Nat) : (t.advance n).views = t.views := rfl
@[simp] theorem Team.advance_epochs (t : Team) (n : Nat) : (t.advance n).epochs = t.epochs := rfl
@[simp] theorem Team.advance_knows (t : Team) (n : Nat) : (t.advance n).knows = t.knows := rfl
@[simp] theorem Team.advance_lastPub (t : Team) (n : Nat) : (t.advance n).lastPub = t.lastPub := rfl
@[simp] theorem Team.advance_bars (t : Team) (n : Nat) : (t.advance n).bars = t.bars := rfl
@[simp] theorem Team.advance_fbars (t : Team) (n : Nat) : (t.advance n).fbars = t.fbars := rfl
@[simp] theorem Team.advance_exchs (t : Team) (n : Nat) : (t.advance n).exchs = t.exchs := rfl
@[simp] theorem Team.advance_latched (t : Team) (n : Nat) : (t.advance n).latched = t.latched := rfl
@[simp] theorem Team.advance_arrivals (t : Team) (n : Nat) : (t.advance n).arrivals = t.arrivals := rfl
@[simp] theorem Team.advance_rq (t : Team) (n : Nat) : (t.advance n).rq = t.rq := rfl
@[simp] theorem Team.advance_frq (t : Team) (n : Nat) : (t.advance n).frq = t.frq := rfl
@[simp] theorem Team.advance_seen (t : Team) (n : Nat) : (t.advance n).seen = t.seen := rfl
@[simp] theorem Team.jumpTo_uid (t : Team) (w : Word) : (t.jumpTo w).uid = t.uid := rfl
@[simp] theorem Team.jumpTo_gid (t : Team) (w : Word) : (t.jumpTo w).gid = t.gid := rfl
@[simp] theorem Team.jumpTo_ctx (t : Team) (w : Word) : (t.jumpTo w).ctx = t.ctx := rfl
@[simp] theorem Team.jumpTo_launch (t : Team) (w : Word) : (t.jumpTo w).launch = t.launch := rfl
@[simp] theorem Team.jumpTo_inst (t : Team) (w : Word) : (t.jumpTo w).inst = t.inst := rfl
@[simp] theorem Team.jumpTo_path (t : Team) (w : Word) : (t.jumpTo w).path = t.path := rfl
@[simp] theorem Team.jumpTo_parent (t : Team) (w : Word) : (t.jumpTo w).parent = t.parent := rfl
@[simp] theorem Team.jumpTo_kids (t : Team) (w : Word) : (t.jumpTo w).kids = t.kids := rfl
@[simp] theorem Team.jumpTo_status (t : Team) (w : Word) : (t.jumpTo w).status = t.status := rfl
@[simp] theorem Team.jumpTo_wait (t : Team) (w : Word) : (t.jumpTo w).wait = .none := rfl
@[simp] theorem Team.jumpTo_tileWalk (t : Team) (w : Word) : (t.jumpTo w).tileWalk = t.tileWalk := rfl
@[simp] theorem Team.jumpTo_pc (t : Team) (w : Word) : (t.jumpTo w).pc = w := rfl
@[simp] theorem Team.jumpTo_word (t : Team) (w : Word) : (t.jumpTo w).word = t.word := rfl
@[simp] theorem Team.jumpTo_s (t : Team) (w : Word) : (t.jumpTo w).s = t.s := rfl
@[simp] theorem Team.jumpTo_g (t : Team) (w : Word) : (t.jumpTo w).g = t.g := rfl
@[simp] theorem Team.jumpTo_tiles (t : Team) (w : Word) : (t.jumpTo w).tiles = t.tiles := rfl
@[simp] theorem Team.jumpTo_acc (t : Team) (w : Word) : (t.jumpTo w).acc = t.acc := rfl
@[simp] theorem Team.jumpTo_scale (t : Team) (w : Word) : (t.jumpTo w).scale = t.scale := rfl
@[simp] theorem Team.jumpTo_q (t : Team) (w : Word) : (t.jumpTo w).q = t.q := rfl
@[simp] theorem Team.jumpTo_resB (t : Team) (w : Word) : (t.jumpTo w).resB = t.resB := rfl
@[simp] theorem Team.jumpTo_ext (t : Team) (w : Word) : (t.jumpTo w).ext = t.ext := rfl
@[simp] theorem Team.jumpTo_extc (t : Team) (w : Word) : (t.jumpTo w).extc = t.extc := rfl
@[simp] theorem Team.jumpTo_fsr (t : Team) (w : Word) : (t.jumpTo w).fsr = t.fsr := rfl
@[simp] theorem Team.jumpTo_fpst (t : Team) (w : Word) : (t.jumpTo w).fpst = t.fpst := rfl
@[simp] theorem Team.jumpTo_satf (t : Team) (w : Word) : (t.jumpTo w).satf = t.satf := rfl
@[simp] theorem Team.jumpTo_updf (t : Team) (w : Word) : (t.jumpTo w).updf = t.updf := rfl
@[simp] theorem Team.jumpTo_xrow (t : Team) (w : Word) : (t.jumpTo w).xrow = t.xrow := rfl
@[simp] theorem Team.jumpTo_fcrd (t : Team) (w : Word) : (t.jumpTo w).fcrd = t.fcrd := rfl
@[simp] theorem Team.jumpTo_phc (t : Team) (w : Word) : (t.jumpTo w).phc = t.phc := rfl
@[simp] theorem Team.jumpTo_placedAt (t : Team) (w : Word) : (t.jumpTo w).placedAt = t.placedAt := rfl
@[simp] theorem Team.jumpTo_preq (t : Team) (w : Word) : (t.jumpTo w).preq = t.preq := rfl
@[simp] theorem Team.jumpTo_pdlEnd (t : Team) (w : Word) : (t.jumpTo w).pdlEnd = t.pdlEnd := rfl
@[simp] theorem Team.jumpTo_slip (t : Team) (w : Word) : (t.jumpTo w).slip = t.slip := rfl
@[simp] theorem Team.jumpTo_split (t : Team) (w : Word) : (t.jumpTo w).split = t.split := rfl
@[simp] theorem Team.jumpTo_part (t : Team) (w : Word) : (t.jumpTo w).part = t.part := rfl
@[simp] theorem Team.jumpTo_lfsr (t : Team) (w : Word) : (t.jumpTo w).lfsr = t.lfsr := rfl
@[simp] theorem Team.jumpTo_fresh (t : Team) (w : Word) : (t.jumpTo w).fresh = t.fresh := rfl
@[simp] theorem Team.jumpTo_lft (t : Team) (w : Word) : (t.jumpTo w).lft = t.lft := rfl
@[simp] theorem Team.jumpTo_sys (t : Team) (w : Word) : (t.jumpTo w).sys = t.sys := rfl
@[simp] theorem Team.jumpTo_deque (t : Team) (w : Word) : (t.jumpTo w).deque = t.deque := rfl
@[simp] theorem Team.jumpTo_wordSeq (t : Team) (w : Word) : (t.jumpTo w).wordSeq = t.seqHere + 1 := rfl
@[simp] theorem Team.jumpTo_tiq (t : Team) (w : Word) : (t.jumpTo w).tiq = t.tiq := rfl
@[simp] theorem Team.jumpTo_bq (t : Team) (w : Word) : (t.jumpTo w).bq = t.bq := rfl
@[simp] theorem Team.jumpTo_credits (t : Team) (w : Word) : (t.jumpTo w).credits = t.credits := rfl
@[simp] theorem Team.jumpTo_copies (t : Team) (w : Word) : (t.jumpTo w).copies = t.copies := rfl
@[simp] theorem Team.jumpTo_broken (t : Team) (w : Word) : (t.jumpTo w).broken = t.broken := rfl
@[simp] theorem Team.jumpTo_sbuf (t : Team) (w : Word) : (t.jumpTo w).sbuf = t.sbuf := rfl
@[simp] theorem Team.jumpTo_updq (t : Team) (w : Word) : (t.jumpTo w).updq = t.updq := rfl
@[simp] theorem Team.jumpTo_updSeq (t : Team) (w : Word) : (t.jumpTo w).updSeq = t.updSeq := rfl
@[simp] theorem Team.jumpTo_hist (t : Team) (w : Word) : (t.jumpTo w).hist = t.hist := rfl
@[simp] theorem Team.jumpTo_late (t : Team) (w : Word) : (t.jumpTo w).late = t.late := rfl
@[simp] theorem Team.jumpTo_heldFault (t : Team) (w : Word) : (t.jumpTo w).heldFault = t.heldFault := rfl
@[simp] theorem Team.jumpTo_pairing (t : Team) (w : Word) : (t.jumpTo w).pairing = t.pairing := rfl
@[simp] theorem Team.jumpTo_views (t : Team) (w : Word) : (t.jumpTo w).views = t.views := rfl
@[simp] theorem Team.jumpTo_epochs (t : Team) (w : Word) : (t.jumpTo w).epochs = t.epochs := rfl
@[simp] theorem Team.jumpTo_knows (t : Team) (w : Word) : (t.jumpTo w).knows = t.knows := rfl
@[simp] theorem Team.jumpTo_lastPub (t : Team) (w : Word) : (t.jumpTo w).lastPub = t.lastPub := rfl
@[simp] theorem Team.jumpTo_bars (t : Team) (w : Word) : (t.jumpTo w).bars = t.bars := rfl
@[simp] theorem Team.jumpTo_fbars (t : Team) (w : Word) : (t.jumpTo w).fbars = t.fbars := rfl
@[simp] theorem Team.jumpTo_exchs (t : Team) (w : Word) : (t.jumpTo w).exchs = t.exchs := rfl
@[simp] theorem Team.jumpTo_latched (t : Team) (w : Word) : (t.jumpTo w).latched = t.latched := rfl
@[simp] theorem Team.jumpTo_arrivals (t : Team) (w : Word) : (t.jumpTo w).arrivals = t.arrivals := rfl
@[simp] theorem Team.jumpTo_rq (t : Team) (w : Word) : (t.jumpTo w).rq = t.rq := rfl
@[simp] theorem Team.jumpTo_frq (t : Team) (w : Word) : (t.jumpTo w).frq = t.frq := rfl
@[simp] theorem Team.jumpTo_seen (t : Team) (w : Word) : (t.jumpTo w).seen = t.seen := rfl

/-! ### Teams: registers and their history -/

@[simp] theorem Team.keepLate_uid (t : Team) (n : Nat) (w : UndoWhat) : (t.keepLate n w).uid = t.uid := by unfold Team.keepLate; split <;> rfl
@[simp] theorem Team.keepLate_gid (t : Team) (n : Nat) (w : UndoWhat) : (t.keepLate n w).gid = t.gid := by unfold Team.keepLate; split <;> rfl
@[simp] theorem Team.keepLate_ctx (t : Team) (n : Nat) (w : UndoWhat) : (t.keepLate n w).ctx = t.ctx := by unfold Team.keepLate; split <;> rfl
@[simp] theorem Team.keepLate_launch (t : Team) (n : Nat) (w : UndoWhat) : (t.keepLate n w).launch = t.launch := by unfold Team.keepLate; split <;> rfl
@[simp] theorem Team.keepLate_inst (t : Team) (n : Nat) (w : UndoWhat) : (t.keepLate n w).inst = t.inst := by unfold Team.keepLate; split <;> rfl
@[simp] theorem Team.keepLate_path (t : Team) (n : Nat) (w : UndoWhat) : (t.keepLate n w).path = t.path := by unfold Team.keepLate; split <;> rfl
@[simp] theorem Team.keepLate_parent (t : Team) (n : Nat) (w : UndoWhat) : (t.keepLate n w).parent = t.parent := by unfold Team.keepLate; split <;> rfl
@[simp] theorem Team.keepLate_kids (t : Team) (n : Nat) (w : UndoWhat) : (t.keepLate n w).kids = t.kids := by unfold Team.keepLate; split <;> rfl
@[simp] theorem Team.keepLate_status (t : Team) (n : Nat) (w : UndoWhat) : (t.keepLate n w).status = t.status := by unfold Team.keepLate; split <;> rfl
@[simp] theorem Team.keepLate_wait (t : Team) (n : Nat) (w : UndoWhat) : (t.keepLate n w).wait = t.wait := by unfold Team.keepLate; split <;> rfl
@[simp] theorem Team.keepLate_tileWalk (t : Team) (n : Nat) (w : UndoWhat) : (t.keepLate n w).tileWalk = t.tileWalk := by unfold Team.keepLate; split <;> rfl
@[simp] theorem Team.keepLate_pc (t : Team) (n : Nat) (w : UndoWhat) : (t.keepLate n w).pc = t.pc := by unfold Team.keepLate; split <;> rfl
@[simp] theorem Team.keepLate_word (t : Team) (n : Nat) (w : UndoWhat) : (t.keepLate n w).word = t.word := by unfold Team.keepLate; split <;> rfl
@[simp] theorem Team.keepLate_s (t : Team) (n : Nat) (w : UndoWhat) : (t.keepLate n w).s = t.s := by unfold Team.keepLate; split <;> rfl
@[simp] theorem Team.keepLate_g (t : Team) (n : Nat) (w : UndoWhat) : (t.keepLate n w).g = t.g := by unfold Team.keepLate; split <;> rfl
@[simp] theorem Team.keepLate_tiles (t : Team) (n : Nat) (w : UndoWhat) : (t.keepLate n w).tiles = t.tiles := by unfold Team.keepLate; split <;> rfl
@[simp] theorem Team.keepLate_acc (t : Team) (n : Nat) (w : UndoWhat) : (t.keepLate n w).acc = t.acc := by unfold Team.keepLate; split <;> rfl
@[simp] theorem Team.keepLate_scale (t : Team) (n : Nat) (w : UndoWhat) : (t.keepLate n w).scale = t.scale := by unfold Team.keepLate; split <;> rfl
@[simp] theorem Team.keepLate_q (t : Team) (n : Nat) (w : UndoWhat) : (t.keepLate n w).q = t.q := by unfold Team.keepLate; split <;> rfl
@[simp] theorem Team.keepLate_resB (t : Team) (n : Nat) (w : UndoWhat) : (t.keepLate n w).resB = t.resB := by unfold Team.keepLate; split <;> rfl
@[simp] theorem Team.keepLate_ext (t : Team) (n : Nat) (w : UndoWhat) : (t.keepLate n w).ext = t.ext := by unfold Team.keepLate; split <;> rfl
@[simp] theorem Team.keepLate_extc (t : Team) (n : Nat) (w : UndoWhat) : (t.keepLate n w).extc = t.extc := by unfold Team.keepLate; split <;> rfl
@[simp] theorem Team.keepLate_fsr (t : Team) (n : Nat) (w : UndoWhat) : (t.keepLate n w).fsr = t.fsr := by unfold Team.keepLate; split <;> rfl
@[simp] theorem Team.keepLate_fpst (t : Team) (n : Nat) (w : UndoWhat) : (t.keepLate n w).fpst = t.fpst := by unfold Team.keepLate; split <;> rfl
@[simp] theorem Team.keepLate_satf (t : Team) (n : Nat) (w : UndoWhat) : (t.keepLate n w).satf = t.satf := by unfold Team.keepLate; split <;> rfl
@[simp] theorem Team.keepLate_updf (t : Team) (n : Nat) (w : UndoWhat) : (t.keepLate n w).updf = t.updf := by unfold Team.keepLate; split <;> rfl
@[simp] theorem Team.keepLate_xrow (t : Team) (n : Nat) (w : UndoWhat) : (t.keepLate n w).xrow = t.xrow := by unfold Team.keepLate; split <;> rfl
@[simp] theorem Team.keepLate_fcrd (t : Team) (n : Nat) (w : UndoWhat) : (t.keepLate n w).fcrd = t.fcrd := by unfold Team.keepLate; split <;> rfl
@[simp] theorem Team.keepLate_phc (t : Team) (n : Nat) (w : UndoWhat) : (t.keepLate n w).phc = t.phc := by unfold Team.keepLate; split <;> rfl
@[simp] theorem Team.keepLate_placedAt (t : Team) (n : Nat) (w : UndoWhat) : (t.keepLate n w).placedAt = t.placedAt := by unfold Team.keepLate; split <;> rfl
@[simp] theorem Team.keepLate_preq (t : Team) (n : Nat) (w : UndoWhat) : (t.keepLate n w).preq = t.preq := by unfold Team.keepLate; split <;> rfl
@[simp] theorem Team.keepLate_pdlEnd (t : Team) (n : Nat) (w : UndoWhat) : (t.keepLate n w).pdlEnd = t.pdlEnd := by unfold Team.keepLate; split <;> rfl
@[simp] theorem Team.keepLate_slip (t : Team) (n : Nat) (w : UndoWhat) : (t.keepLate n w).slip = t.slip := by unfold Team.keepLate; split <;> rfl
@[simp] theorem Team.keepLate_split (t : Team) (n : Nat) (w : UndoWhat) : (t.keepLate n w).split = t.split := by unfold Team.keepLate; split <;> rfl
@[simp] theorem Team.keepLate_part (t : Team) (n : Nat) (w : UndoWhat) : (t.keepLate n w).part = t.part := by unfold Team.keepLate; split <;> rfl
@[simp] theorem Team.keepLate_lfsr (t : Team) (n : Nat) (w : UndoWhat) : (t.keepLate n w).lfsr = t.lfsr := by unfold Team.keepLate; split <;> rfl
@[simp] theorem Team.keepLate_fresh (t : Team) (n : Nat) (w : UndoWhat) : (t.keepLate n w).fresh = t.fresh := by unfold Team.keepLate; split <;> rfl
@[simp] theorem Team.keepLate_lft (t : Team) (n : Nat) (w : UndoWhat) : (t.keepLate n w).lft = t.lft := by unfold Team.keepLate; split <;> rfl
@[simp] theorem Team.keepLate_sys (t : Team) (n : Nat) (w : UndoWhat) : (t.keepLate n w).sys = t.sys := by unfold Team.keepLate; split <;> rfl
@[simp] theorem Team.keepLate_deque (t : Team) (n : Nat) (w : UndoWhat) : (t.keepLate n w).deque = t.deque := by unfold Team.keepLate; split <;> rfl
@[simp] theorem Team.keepLate_wordSeq (t : Team) (n : Nat) (w : UndoWhat) : (t.keepLate n w).wordSeq = t.wordSeq := by unfold Team.keepLate; split <;> rfl
@[simp] theorem Team.keepLate_tiq (t : Team) (n : Nat) (w : UndoWhat) : (t.keepLate n w).tiq = t.tiq := by unfold Team.keepLate; split <;> rfl
@[simp] theorem Team.keepLate_bq (t : Team) (n : Nat) (w : UndoWhat) : (t.keepLate n w).bq = t.bq := by unfold Team.keepLate; split <;> rfl
@[simp] theorem Team.keepLate_credits (t : Team) (n : Nat) (w : UndoWhat) : (t.keepLate n w).credits = t.credits := by unfold Team.keepLate; split <;> rfl
@[simp] theorem Team.keepLate_copies (t : Team) (n : Nat) (w : UndoWhat) : (t.keepLate n w).copies = t.copies := by unfold Team.keepLate; split <;> rfl
@[simp] theorem Team.keepLate_broken (t : Team) (n : Nat) (w : UndoWhat) : (t.keepLate n w).broken = t.broken := by unfold Team.keepLate; split <;> rfl
@[simp] theorem Team.keepLate_sbuf (t : Team) (n : Nat) (w : UndoWhat) : (t.keepLate n w).sbuf = t.sbuf := by unfold Team.keepLate; split <;> rfl
@[simp] theorem Team.keepLate_updq (t : Team) (n : Nat) (w : UndoWhat) : (t.keepLate n w).updq = t.updq := by unfold Team.keepLate; split <;> rfl
@[simp] theorem Team.keepLate_updSeq (t : Team) (n : Nat) (w : UndoWhat) : (t.keepLate n w).updSeq = t.updSeq := by unfold Team.keepLate; split <;> rfl
@[simp] theorem Team.keepLate_hist (t : Team) (n : Nat) (w : UndoWhat) : (t.keepLate n w).hist = t.hist := by unfold Team.keepLate; split <;> rfl
@[simp] theorem Team.keepLate_heldFault (t : Team) (n : Nat) (w : UndoWhat) : (t.keepLate n w).heldFault = t.heldFault := by unfold Team.keepLate; split <;> rfl
@[simp] theorem Team.keepLate_pairing (t : Team) (n : Nat) (w : UndoWhat) : (t.keepLate n w).pairing = t.pairing := by unfold Team.keepLate; split <;> rfl
@[simp] theorem Team.keepLate_views (t : Team) (n : Nat) (w : UndoWhat) : (t.keepLate n w).views = t.views := by unfold Team.keepLate; split <;> rfl
@[simp] theorem Team.keepLate_epochs (t : Team) (n : Nat) (w : UndoWhat) : (t.keepLate n w).epochs = t.epochs := by unfold Team.keepLate; split <;> rfl
@[simp] theorem Team.keepLate_knows (t : Team) (n : Nat) (w : UndoWhat) : (t.keepLate n w).knows = t.knows := by unfold Team.keepLate; split <;> rfl
@[simp] theorem Team.keepLate_lastPub (t : Team) (n : Nat) (w : UndoWhat) : (t.keepLate n w).lastPub = t.lastPub := by unfold Team.keepLate; split <;> rfl
@[simp] theorem Team.keepLate_bars (t : Team) (n : Nat) (w : UndoWhat) : (t.keepLate n w).bars = t.bars := by unfold Team.keepLate; split <;> rfl
@[simp] theorem Team.keepLate_fbars (t : Team) (n : Nat) (w : UndoWhat) : (t.keepLate n w).fbars = t.fbars := by unfold Team.keepLate; split <;> rfl
@[simp] theorem Team.keepLate_exchs (t : Team) (n : Nat) (w : UndoWhat) : (t.keepLate n w).exchs = t.exchs := by unfold Team.keepLate; split <;> rfl
@[simp] theorem Team.keepLate_latched (t : Team) (n : Nat) (w : UndoWhat) : (t.keepLate n w).latched = t.latched := by unfold Team.keepLate; split <;> rfl
@[simp] theorem Team.keepLate_arrivals (t : Team) (n : Nat) (w : UndoWhat) : (t.keepLate n w).arrivals = t.arrivals := by unfold Team.keepLate; split <;> rfl
@[simp] theorem Team.keepLate_rq (t : Team) (n : Nat) (w : UndoWhat) : (t.keepLate n w).rq = t.rq := by unfold Team.keepLate; split <;> rfl
@[simp] theorem Team.keepLate_frq (t : Team) (n : Nat) (w : UndoWhat) : (t.keepLate n w).frq = t.frq := by unfold Team.keepLate; split <;> rfl
@[simp] theorem Team.keepLate_seen (t : Team) (n : Nat) (w : UndoWhat) : (t.keepLate n w).seen = t.seen := by unfold Team.keepLate; split <;> rfl
@[simp] theorem Team.log_uid (t : Team) (w : UndoWhat) : (t.log w).uid = t.uid := by unfold Team.log; split <;> simp
@[simp] theorem Team.log_gid (t : Team) (w : UndoWhat) : (t.log w).gid = t.gid := by unfold Team.log; split <;> simp
@[simp] theorem Team.log_ctx (t : Team) (w : UndoWhat) : (t.log w).ctx = t.ctx := by unfold Team.log; split <;> simp
@[simp] theorem Team.log_launch (t : Team) (w : UndoWhat) : (t.log w).launch = t.launch := by unfold Team.log; split <;> simp
@[simp] theorem Team.log_inst (t : Team) (w : UndoWhat) : (t.log w).inst = t.inst := by unfold Team.log; split <;> simp
@[simp] theorem Team.log_path (t : Team) (w : UndoWhat) : (t.log w).path = t.path := by unfold Team.log; split <;> simp
@[simp] theorem Team.log_parent (t : Team) (w : UndoWhat) : (t.log w).parent = t.parent := by unfold Team.log; split <;> simp
@[simp] theorem Team.log_kids (t : Team) (w : UndoWhat) : (t.log w).kids = t.kids := by unfold Team.log; split <;> simp
@[simp] theorem Team.log_status (t : Team) (w : UndoWhat) : (t.log w).status = t.status := by unfold Team.log; split <;> simp
@[simp] theorem Team.log_wait (t : Team) (w : UndoWhat) : (t.log w).wait = t.wait := by unfold Team.log; split <;> simp
@[simp] theorem Team.log_tileWalk (t : Team) (w : UndoWhat) : (t.log w).tileWalk = t.tileWalk := by unfold Team.log; split <;> simp
@[simp] theorem Team.log_pc (t : Team) (w : UndoWhat) : (t.log w).pc = t.pc := by unfold Team.log; split <;> simp
@[simp] theorem Team.log_word (t : Team) (w : UndoWhat) : (t.log w).word = t.word := by unfold Team.log; split <;> simp
@[simp] theorem Team.log_s (t : Team) (w : UndoWhat) : (t.log w).s = t.s := by unfold Team.log; split <;> simp
@[simp] theorem Team.log_g (t : Team) (w : UndoWhat) : (t.log w).g = t.g := by unfold Team.log; split <;> simp
@[simp] theorem Team.log_tiles (t : Team) (w : UndoWhat) : (t.log w).tiles = t.tiles := by unfold Team.log; split <;> simp
@[simp] theorem Team.log_acc (t : Team) (w : UndoWhat) : (t.log w).acc = t.acc := by unfold Team.log; split <;> simp
@[simp] theorem Team.log_scale (t : Team) (w : UndoWhat) : (t.log w).scale = t.scale := by unfold Team.log; split <;> simp
@[simp] theorem Team.log_q (t : Team) (w : UndoWhat) : (t.log w).q = t.q := by unfold Team.log; split <;> simp
@[simp] theorem Team.log_resB (t : Team) (w : UndoWhat) : (t.log w).resB = t.resB := by unfold Team.log; split <;> simp
@[simp] theorem Team.log_ext (t : Team) (w : UndoWhat) : (t.log w).ext = t.ext := by unfold Team.log; split <;> simp
@[simp] theorem Team.log_extc (t : Team) (w : UndoWhat) : (t.log w).extc = t.extc := by unfold Team.log; split <;> simp
@[simp] theorem Team.log_fsr (t : Team) (w : UndoWhat) : (t.log w).fsr = t.fsr := by unfold Team.log; split <;> simp
@[simp] theorem Team.log_fpst (t : Team) (w : UndoWhat) : (t.log w).fpst = t.fpst := by unfold Team.log; split <;> simp
@[simp] theorem Team.log_satf (t : Team) (w : UndoWhat) : (t.log w).satf = t.satf := by unfold Team.log; split <;> simp
@[simp] theorem Team.log_updf (t : Team) (w : UndoWhat) : (t.log w).updf = t.updf := by unfold Team.log; split <;> simp
@[simp] theorem Team.log_xrow (t : Team) (w : UndoWhat) : (t.log w).xrow = t.xrow := by unfold Team.log; split <;> simp
@[simp] theorem Team.log_fcrd (t : Team) (w : UndoWhat) : (t.log w).fcrd = t.fcrd := by unfold Team.log; split <;> simp
@[simp] theorem Team.log_phc (t : Team) (w : UndoWhat) : (t.log w).phc = t.phc := by unfold Team.log; split <;> simp
@[simp] theorem Team.log_placedAt (t : Team) (w : UndoWhat) : (t.log w).placedAt = t.placedAt := by unfold Team.log; split <;> simp
@[simp] theorem Team.log_preq (t : Team) (w : UndoWhat) : (t.log w).preq = t.preq := by unfold Team.log; split <;> simp
@[simp] theorem Team.log_pdlEnd (t : Team) (w : UndoWhat) : (t.log w).pdlEnd = t.pdlEnd := by unfold Team.log; split <;> simp
@[simp] theorem Team.log_slip (t : Team) (w : UndoWhat) : (t.log w).slip = t.slip := by unfold Team.log; split <;> simp
@[simp] theorem Team.log_split (t : Team) (w : UndoWhat) : (t.log w).split = t.split := by unfold Team.log; split <;> simp
@[simp] theorem Team.log_part (t : Team) (w : UndoWhat) : (t.log w).part = t.part := by unfold Team.log; split <;> simp
@[simp] theorem Team.log_lfsr (t : Team) (w : UndoWhat) : (t.log w).lfsr = t.lfsr := by unfold Team.log; split <;> simp
@[simp] theorem Team.log_fresh (t : Team) (w : UndoWhat) : (t.log w).fresh = t.fresh := by unfold Team.log; split <;> simp
@[simp] theorem Team.log_lft (t : Team) (w : UndoWhat) : (t.log w).lft = t.lft := by unfold Team.log; split <;> simp
@[simp] theorem Team.log_sys (t : Team) (w : UndoWhat) : (t.log w).sys = t.sys := by unfold Team.log; split <;> simp
@[simp] theorem Team.log_deque (t : Team) (w : UndoWhat) : (t.log w).deque = t.deque := by unfold Team.log; split <;> simp
@[simp] theorem Team.log_wordSeq (t : Team) (w : UndoWhat) : (t.log w).wordSeq = t.wordSeq := by unfold Team.log; split <;> simp
@[simp] theorem Team.log_tiq (t : Team) (w : UndoWhat) : (t.log w).tiq = t.tiq := by unfold Team.log; split <;> simp
@[simp] theorem Team.log_bq (t : Team) (w : UndoWhat) : (t.log w).bq = t.bq := by unfold Team.log; split <;> simp
@[simp] theorem Team.log_credits (t : Team) (w : UndoWhat) : (t.log w).credits = t.credits := by unfold Team.log; split <;> simp
@[simp] theorem Team.log_copies (t : Team) (w : UndoWhat) : (t.log w).copies = t.copies := by unfold Team.log; split <;> simp
@[simp] theorem Team.log_broken (t : Team) (w : UndoWhat) : (t.log w).broken = t.broken := by unfold Team.log; split <;> simp
@[simp] theorem Team.log_sbuf (t : Team) (w : UndoWhat) : (t.log w).sbuf = t.sbuf := by unfold Team.log; split <;> simp
@[simp] theorem Team.log_updq (t : Team) (w : UndoWhat) : (t.log w).updq = t.updq := by unfold Team.log; split <;> simp
@[simp] theorem Team.log_updSeq (t : Team) (w : UndoWhat) : (t.log w).updSeq = t.updSeq := by unfold Team.log; split <;> simp
@[simp] theorem Team.log_heldFault (t : Team) (w : UndoWhat) : (t.log w).heldFault = t.heldFault := by unfold Team.log; split <;> simp
@[simp] theorem Team.log_pairing (t : Team) (w : UndoWhat) : (t.log w).pairing = t.pairing := by unfold Team.log; split <;> simp
@[simp] theorem Team.log_views (t : Team) (w : UndoWhat) : (t.log w).views = t.views := by unfold Team.log; split <;> simp
@[simp] theorem Team.log_epochs (t : Team) (w : UndoWhat) : (t.log w).epochs = t.epochs := by unfold Team.log; split <;> simp
@[simp] theorem Team.log_knows (t : Team) (w : UndoWhat) : (t.log w).knows = t.knows := by unfold Team.log; split <;> simp
@[simp] theorem Team.log_lastPub (t : Team) (w : UndoWhat) : (t.log w).lastPub = t.lastPub := by unfold Team.log; split <;> simp
@[simp] theorem Team.log_bars (t : Team) (w : UndoWhat) : (t.log w).bars = t.bars := by unfold Team.log; split <;> simp
@[simp] theorem Team.log_fbars (t : Team) (w : UndoWhat) : (t.log w).fbars = t.fbars := by unfold Team.log; split <;> simp
@[simp] theorem Team.log_exchs (t : Team) (w : UndoWhat) : (t.log w).exchs = t.exchs := by unfold Team.log; split <;> simp
@[simp] theorem Team.log_latched (t : Team) (w : UndoWhat) : (t.log w).latched = t.latched := by unfold Team.log; split <;> simp
@[simp] theorem Team.log_arrivals (t : Team) (w : UndoWhat) : (t.log w).arrivals = t.arrivals := by unfold Team.log; split <;> simp
@[simp] theorem Team.log_rq (t : Team) (w : UndoWhat) : (t.log w).rq = t.rq := by unfold Team.log; split <;> simp
@[simp] theorem Team.log_frq (t : Team) (w : UndoWhat) : (t.log w).frq = t.frq := by unfold Team.log; split <;> simp
@[simp] theorem Team.log_seen (t : Team) (w : UndoWhat) : (t.log w).seen = t.seen := by unfold Team.log; split <;> simp
@[simp] theorem Team.wrS_uid (t : Team) (r : SReg) (v : Word) : (t.wrS r v).uid = t.uid := by unfold Team.wrS; split <;> simp
@[simp] theorem Team.wrS_gid (t : Team) (r : SReg) (v : Word) : (t.wrS r v).gid = t.gid := by unfold Team.wrS; split <;> simp
@[simp] theorem Team.wrS_ctx (t : Team) (r : SReg) (v : Word) : (t.wrS r v).ctx = t.ctx := by unfold Team.wrS; split <;> simp
@[simp] theorem Team.wrS_launch (t : Team) (r : SReg) (v : Word) : (t.wrS r v).launch = t.launch := by unfold Team.wrS; split <;> simp
@[simp] theorem Team.wrS_inst (t : Team) (r : SReg) (v : Word) : (t.wrS r v).inst = t.inst := by unfold Team.wrS; split <;> simp
@[simp] theorem Team.wrS_path (t : Team) (r : SReg) (v : Word) : (t.wrS r v).path = t.path := by unfold Team.wrS; split <;> simp
@[simp] theorem Team.wrS_parent (t : Team) (r : SReg) (v : Word) : (t.wrS r v).parent = t.parent := by unfold Team.wrS; split <;> simp
@[simp] theorem Team.wrS_kids (t : Team) (r : SReg) (v : Word) : (t.wrS r v).kids = t.kids := by unfold Team.wrS; split <;> simp
@[simp] theorem Team.wrS_status (t : Team) (r : SReg) (v : Word) : (t.wrS r v).status = t.status := by unfold Team.wrS; split <;> simp
@[simp] theorem Team.wrS_wait (t : Team) (r : SReg) (v : Word) : (t.wrS r v).wait = t.wait := by unfold Team.wrS; split <;> simp
@[simp] theorem Team.wrS_tileWalk (t : Team) (r : SReg) (v : Word) : (t.wrS r v).tileWalk = t.tileWalk := by unfold Team.wrS; split <;> simp
@[simp] theorem Team.wrS_pc (t : Team) (r : SReg) (v : Word) : (t.wrS r v).pc = t.pc := by unfold Team.wrS; split <;> simp
@[simp] theorem Team.wrS_word (t : Team) (r : SReg) (v : Word) : (t.wrS r v).word = t.word := by unfold Team.wrS; split <;> simp
@[simp] theorem Team.wrS_g (t : Team) (r : SReg) (v : Word) : (t.wrS r v).g = t.g := by unfold Team.wrS; split <;> simp
@[simp] theorem Team.wrS_tiles (t : Team) (r : SReg) (v : Word) : (t.wrS r v).tiles = t.tiles := by unfold Team.wrS; split <;> simp
@[simp] theorem Team.wrS_acc (t : Team) (r : SReg) (v : Word) : (t.wrS r v).acc = t.acc := by unfold Team.wrS; split <;> simp
@[simp] theorem Team.wrS_scale (t : Team) (r : SReg) (v : Word) : (t.wrS r v).scale = t.scale := by unfold Team.wrS; split <;> simp
@[simp] theorem Team.wrS_q (t : Team) (r : SReg) (v : Word) : (t.wrS r v).q = t.q := by unfold Team.wrS; split <;> simp
@[simp] theorem Team.wrS_resB (t : Team) (r : SReg) (v : Word) : (t.wrS r v).resB = t.resB := by unfold Team.wrS; split <;> simp
@[simp] theorem Team.wrS_ext (t : Team) (r : SReg) (v : Word) : (t.wrS r v).ext = t.ext := by unfold Team.wrS; split <;> simp
@[simp] theorem Team.wrS_extc (t : Team) (r : SReg) (v : Word) : (t.wrS r v).extc = t.extc := by unfold Team.wrS; split <;> simp
@[simp] theorem Team.wrS_fsr (t : Team) (r : SReg) (v : Word) : (t.wrS r v).fsr = t.fsr := by unfold Team.wrS; split <;> simp
@[simp] theorem Team.wrS_fpst (t : Team) (r : SReg) (v : Word) : (t.wrS r v).fpst = t.fpst := by unfold Team.wrS; split <;> simp
@[simp] theorem Team.wrS_satf (t : Team) (r : SReg) (v : Word) : (t.wrS r v).satf = t.satf := by unfold Team.wrS; split <;> simp
@[simp] theorem Team.wrS_updf (t : Team) (r : SReg) (v : Word) : (t.wrS r v).updf = t.updf := by unfold Team.wrS; split <;> simp
@[simp] theorem Team.wrS_xrow (t : Team) (r : SReg) (v : Word) : (t.wrS r v).xrow = t.xrow := by unfold Team.wrS; split <;> simp
@[simp] theorem Team.wrS_fcrd (t : Team) (r : SReg) (v : Word) : (t.wrS r v).fcrd = t.fcrd := by unfold Team.wrS; split <;> simp
@[simp] theorem Team.wrS_phc (t : Team) (r : SReg) (v : Word) : (t.wrS r v).phc = t.phc := by unfold Team.wrS; split <;> simp
@[simp] theorem Team.wrS_placedAt (t : Team) (r : SReg) (v : Word) : (t.wrS r v).placedAt = t.placedAt := by unfold Team.wrS; split <;> simp
@[simp] theorem Team.wrS_preq (t : Team) (r : SReg) (v : Word) : (t.wrS r v).preq = t.preq := by unfold Team.wrS; split <;> simp
@[simp] theorem Team.wrS_pdlEnd (t : Team) (r : SReg) (v : Word) : (t.wrS r v).pdlEnd = t.pdlEnd := by unfold Team.wrS; split <;> simp
@[simp] theorem Team.wrS_slip (t : Team) (r : SReg) (v : Word) : (t.wrS r v).slip = t.slip := by unfold Team.wrS; split <;> simp
@[simp] theorem Team.wrS_split (t : Team) (r : SReg) (v : Word) : (t.wrS r v).split = t.split := by unfold Team.wrS; split <;> simp
@[simp] theorem Team.wrS_part (t : Team) (r : SReg) (v : Word) : (t.wrS r v).part = t.part := by unfold Team.wrS; split <;> simp
@[simp] theorem Team.wrS_lfsr (t : Team) (r : SReg) (v : Word) : (t.wrS r v).lfsr = t.lfsr := by unfold Team.wrS; split <;> simp
@[simp] theorem Team.wrS_fresh (t : Team) (r : SReg) (v : Word) : (t.wrS r v).fresh = t.fresh := by unfold Team.wrS; split <;> simp
@[simp] theorem Team.wrS_lft (t : Team) (r : SReg) (v : Word) : (t.wrS r v).lft = t.lft := by unfold Team.wrS; split <;> simp
@[simp] theorem Team.wrS_sys (t : Team) (r : SReg) (v : Word) : (t.wrS r v).sys = t.sys := by unfold Team.wrS; split <;> simp
@[simp] theorem Team.wrS_deque (t : Team) (r : SReg) (v : Word) : (t.wrS r v).deque = t.deque := by unfold Team.wrS; split <;> simp
@[simp] theorem Team.wrS_wordSeq (t : Team) (r : SReg) (v : Word) : (t.wrS r v).wordSeq = t.wordSeq := by unfold Team.wrS; split <;> simp
@[simp] theorem Team.wrS_tiq (t : Team) (r : SReg) (v : Word) : (t.wrS r v).tiq = t.tiq := by unfold Team.wrS; split <;> simp
@[simp] theorem Team.wrS_bq (t : Team) (r : SReg) (v : Word) : (t.wrS r v).bq = t.bq := by unfold Team.wrS; split <;> simp
@[simp] theorem Team.wrS_credits (t : Team) (r : SReg) (v : Word) : (t.wrS r v).credits = t.credits := by unfold Team.wrS; split <;> simp
@[simp] theorem Team.wrS_copies (t : Team) (r : SReg) (v : Word) : (t.wrS r v).copies = t.copies := by unfold Team.wrS; split <;> simp
@[simp] theorem Team.wrS_broken (t : Team) (r : SReg) (v : Word) : (t.wrS r v).broken = t.broken := by unfold Team.wrS; split <;> simp
@[simp] theorem Team.wrS_sbuf (t : Team) (r : SReg) (v : Word) : (t.wrS r v).sbuf = t.sbuf := by unfold Team.wrS; split <;> simp
@[simp] theorem Team.wrS_updq (t : Team) (r : SReg) (v : Word) : (t.wrS r v).updq = t.updq := by unfold Team.wrS; split <;> simp
@[simp] theorem Team.wrS_updSeq (t : Team) (r : SReg) (v : Word) : (t.wrS r v).updSeq = t.updSeq := by unfold Team.wrS; split <;> simp
@[simp] theorem Team.wrS_heldFault (t : Team) (r : SReg) (v : Word) : (t.wrS r v).heldFault = t.heldFault := by unfold Team.wrS; split <;> simp
@[simp] theorem Team.wrS_pairing (t : Team) (r : SReg) (v : Word) : (t.wrS r v).pairing = t.pairing := by unfold Team.wrS; split <;> simp
@[simp] theorem Team.wrS_views (t : Team) (r : SReg) (v : Word) : (t.wrS r v).views = t.views := by unfold Team.wrS; split <;> simp
@[simp] theorem Team.wrS_epochs (t : Team) (r : SReg) (v : Word) : (t.wrS r v).epochs = t.epochs := by unfold Team.wrS; split <;> simp
@[simp] theorem Team.wrS_knows (t : Team) (r : SReg) (v : Word) : (t.wrS r v).knows = t.knows := by unfold Team.wrS; split <;> simp
@[simp] theorem Team.wrS_lastPub (t : Team) (r : SReg) (v : Word) : (t.wrS r v).lastPub = t.lastPub := by unfold Team.wrS; split <;> simp
@[simp] theorem Team.wrS_bars (t : Team) (r : SReg) (v : Word) : (t.wrS r v).bars = t.bars := by unfold Team.wrS; split <;> simp
@[simp] theorem Team.wrS_fbars (t : Team) (r : SReg) (v : Word) : (t.wrS r v).fbars = t.fbars := by unfold Team.wrS; split <;> simp
@[simp] theorem Team.wrS_exchs (t : Team) (r : SReg) (v : Word) : (t.wrS r v).exchs = t.exchs := by unfold Team.wrS; split <;> simp
@[simp] theorem Team.wrS_latched (t : Team) (r : SReg) (v : Word) : (t.wrS r v).latched = t.latched := by unfold Team.wrS; split <;> simp
@[simp] theorem Team.wrS_arrivals (t : Team) (r : SReg) (v : Word) : (t.wrS r v).arrivals = t.arrivals := by unfold Team.wrS; split <;> simp
@[simp] theorem Team.wrS_rq (t : Team) (r : SReg) (v : Word) : (t.wrS r v).rq = t.rq := by unfold Team.wrS; split <;> simp
@[simp] theorem Team.wrS_frq (t : Team) (r : SReg) (v : Word) : (t.wrS r v).frq = t.frq := by unfold Team.wrS; split <;> simp
@[simp] theorem Team.wrS_seen (t : Team) (r : SReg) (v : Word) : (t.wrS r v).seen = t.seen := by unfold Team.wrS; split <;> simp
@[simp] theorem Team.wrG_uid (t : Team) (k : GReg) (b : Bool) : (t.wrG k b).uid = t.uid := by unfold Team.wrG; split <;> simp
@[simp] theorem Team.wrG_gid (t : Team) (k : GReg) (b : Bool) : (t.wrG k b).gid = t.gid := by unfold Team.wrG; split <;> simp
@[simp] theorem Team.wrG_ctx (t : Team) (k : GReg) (b : Bool) : (t.wrG k b).ctx = t.ctx := by unfold Team.wrG; split <;> simp
@[simp] theorem Team.wrG_launch (t : Team) (k : GReg) (b : Bool) : (t.wrG k b).launch = t.launch := by unfold Team.wrG; split <;> simp
@[simp] theorem Team.wrG_inst (t : Team) (k : GReg) (b : Bool) : (t.wrG k b).inst = t.inst := by unfold Team.wrG; split <;> simp
@[simp] theorem Team.wrG_path (t : Team) (k : GReg) (b : Bool) : (t.wrG k b).path = t.path := by unfold Team.wrG; split <;> simp
@[simp] theorem Team.wrG_parent (t : Team) (k : GReg) (b : Bool) : (t.wrG k b).parent = t.parent := by unfold Team.wrG; split <;> simp
@[simp] theorem Team.wrG_kids (t : Team) (k : GReg) (b : Bool) : (t.wrG k b).kids = t.kids := by unfold Team.wrG; split <;> simp
@[simp] theorem Team.wrG_status (t : Team) (k : GReg) (b : Bool) : (t.wrG k b).status = t.status := by unfold Team.wrG; split <;> simp
@[simp] theorem Team.wrG_wait (t : Team) (k : GReg) (b : Bool) : (t.wrG k b).wait = t.wait := by unfold Team.wrG; split <;> simp
@[simp] theorem Team.wrG_tileWalk (t : Team) (k : GReg) (b : Bool) : (t.wrG k b).tileWalk = t.tileWalk := by unfold Team.wrG; split <;> simp
@[simp] theorem Team.wrG_pc (t : Team) (k : GReg) (b : Bool) : (t.wrG k b).pc = t.pc := by unfold Team.wrG; split <;> simp
@[simp] theorem Team.wrG_word (t : Team) (k : GReg) (b : Bool) : (t.wrG k b).word = t.word := by unfold Team.wrG; split <;> simp
@[simp] theorem Team.wrG_s (t : Team) (k : GReg) (b : Bool) : (t.wrG k b).s = t.s := by unfold Team.wrG; split <;> simp
@[simp] theorem Team.wrG_tiles (t : Team) (k : GReg) (b : Bool) : (t.wrG k b).tiles = t.tiles := by unfold Team.wrG; split <;> simp
@[simp] theorem Team.wrG_acc (t : Team) (k : GReg) (b : Bool) : (t.wrG k b).acc = t.acc := by unfold Team.wrG; split <;> simp
@[simp] theorem Team.wrG_scale (t : Team) (k : GReg) (b : Bool) : (t.wrG k b).scale = t.scale := by unfold Team.wrG; split <;> simp
@[simp] theorem Team.wrG_q (t : Team) (k : GReg) (b : Bool) : (t.wrG k b).q = t.q := by unfold Team.wrG; split <;> simp
@[simp] theorem Team.wrG_resB (t : Team) (k : GReg) (b : Bool) : (t.wrG k b).resB = t.resB := by unfold Team.wrG; split <;> simp
@[simp] theorem Team.wrG_ext (t : Team) (k : GReg) (b : Bool) : (t.wrG k b).ext = t.ext := by unfold Team.wrG; split <;> simp
@[simp] theorem Team.wrG_extc (t : Team) (k : GReg) (b : Bool) : (t.wrG k b).extc = t.extc := by unfold Team.wrG; split <;> simp
@[simp] theorem Team.wrG_fsr (t : Team) (k : GReg) (b : Bool) : (t.wrG k b).fsr = t.fsr := by unfold Team.wrG; split <;> simp
@[simp] theorem Team.wrG_fpst (t : Team) (k : GReg) (b : Bool) : (t.wrG k b).fpst = t.fpst := by unfold Team.wrG; split <;> simp
@[simp] theorem Team.wrG_satf (t : Team) (k : GReg) (b : Bool) : (t.wrG k b).satf = t.satf := by unfold Team.wrG; split <;> simp
@[simp] theorem Team.wrG_updf (t : Team) (k : GReg) (b : Bool) : (t.wrG k b).updf = t.updf := by unfold Team.wrG; split <;> simp
@[simp] theorem Team.wrG_xrow (t : Team) (k : GReg) (b : Bool) : (t.wrG k b).xrow = t.xrow := by unfold Team.wrG; split <;> simp
@[simp] theorem Team.wrG_fcrd (t : Team) (k : GReg) (b : Bool) : (t.wrG k b).fcrd = t.fcrd := by unfold Team.wrG; split <;> simp
@[simp] theorem Team.wrG_phc (t : Team) (k : GReg) (b : Bool) : (t.wrG k b).phc = t.phc := by unfold Team.wrG; split <;> simp
@[simp] theorem Team.wrG_placedAt (t : Team) (k : GReg) (b : Bool) : (t.wrG k b).placedAt = t.placedAt := by unfold Team.wrG; split <;> simp
@[simp] theorem Team.wrG_preq (t : Team) (k : GReg) (b : Bool) : (t.wrG k b).preq = t.preq := by unfold Team.wrG; split <;> simp
@[simp] theorem Team.wrG_pdlEnd (t : Team) (k : GReg) (b : Bool) : (t.wrG k b).pdlEnd = t.pdlEnd := by unfold Team.wrG; split <;> simp
@[simp] theorem Team.wrG_slip (t : Team) (k : GReg) (b : Bool) : (t.wrG k b).slip = t.slip := by unfold Team.wrG; split <;> simp
@[simp] theorem Team.wrG_split (t : Team) (k : GReg) (b : Bool) : (t.wrG k b).split = t.split := by unfold Team.wrG; split <;> simp
@[simp] theorem Team.wrG_part (t : Team) (k : GReg) (b : Bool) : (t.wrG k b).part = t.part := by unfold Team.wrG; split <;> simp
@[simp] theorem Team.wrG_lfsr (t : Team) (k : GReg) (b : Bool) : (t.wrG k b).lfsr = t.lfsr := by unfold Team.wrG; split <;> simp
@[simp] theorem Team.wrG_fresh (t : Team) (k : GReg) (b : Bool) : (t.wrG k b).fresh = t.fresh := by unfold Team.wrG; split <;> simp
@[simp] theorem Team.wrG_lft (t : Team) (k : GReg) (b : Bool) : (t.wrG k b).lft = t.lft := by unfold Team.wrG; split <;> simp
@[simp] theorem Team.wrG_sys (t : Team) (k : GReg) (b : Bool) : (t.wrG k b).sys = t.sys := by unfold Team.wrG; split <;> simp
@[simp] theorem Team.wrG_deque (t : Team) (k : GReg) (b : Bool) : (t.wrG k b).deque = t.deque := by unfold Team.wrG; split <;> simp
@[simp] theorem Team.wrG_wordSeq (t : Team) (k : GReg) (b : Bool) : (t.wrG k b).wordSeq = t.wordSeq := by unfold Team.wrG; split <;> simp
@[simp] theorem Team.wrG_tiq (t : Team) (k : GReg) (b : Bool) : (t.wrG k b).tiq = t.tiq := by unfold Team.wrG; split <;> simp
@[simp] theorem Team.wrG_bq (t : Team) (k : GReg) (b : Bool) : (t.wrG k b).bq = t.bq := by unfold Team.wrG; split <;> simp
@[simp] theorem Team.wrG_credits (t : Team) (k : GReg) (b : Bool) : (t.wrG k b).credits = t.credits := by unfold Team.wrG; split <;> simp
@[simp] theorem Team.wrG_copies (t : Team) (k : GReg) (b : Bool) : (t.wrG k b).copies = t.copies := by unfold Team.wrG; split <;> simp
@[simp] theorem Team.wrG_broken (t : Team) (k : GReg) (b : Bool) : (t.wrG k b).broken = t.broken := by unfold Team.wrG; split <;> simp
@[simp] theorem Team.wrG_sbuf (t : Team) (k : GReg) (b : Bool) : (t.wrG k b).sbuf = t.sbuf := by unfold Team.wrG; split <;> simp
@[simp] theorem Team.wrG_updq (t : Team) (k : GReg) (b : Bool) : (t.wrG k b).updq = t.updq := by unfold Team.wrG; split <;> simp
@[simp] theorem Team.wrG_updSeq (t : Team) (k : GReg) (b : Bool) : (t.wrG k b).updSeq = t.updSeq := by unfold Team.wrG; split <;> simp
@[simp] theorem Team.wrG_heldFault (t : Team) (k : GReg) (b : Bool) : (t.wrG k b).heldFault = t.heldFault := by unfold Team.wrG; split <;> simp
@[simp] theorem Team.wrG_pairing (t : Team) (k : GReg) (b : Bool) : (t.wrG k b).pairing = t.pairing := by unfold Team.wrG; split <;> simp
@[simp] theorem Team.wrG_views (t : Team) (k : GReg) (b : Bool) : (t.wrG k b).views = t.views := by unfold Team.wrG; split <;> simp
@[simp] theorem Team.wrG_epochs (t : Team) (k : GReg) (b : Bool) : (t.wrG k b).epochs = t.epochs := by unfold Team.wrG; split <;> simp
@[simp] theorem Team.wrG_knows (t : Team) (k : GReg) (b : Bool) : (t.wrG k b).knows = t.knows := by unfold Team.wrG; split <;> simp
@[simp] theorem Team.wrG_lastPub (t : Team) (k : GReg) (b : Bool) : (t.wrG k b).lastPub = t.lastPub := by unfold Team.wrG; split <;> simp
@[simp] theorem Team.wrG_bars (t : Team) (k : GReg) (b : Bool) : (t.wrG k b).bars = t.bars := by unfold Team.wrG; split <;> simp
@[simp] theorem Team.wrG_fbars (t : Team) (k : GReg) (b : Bool) : (t.wrG k b).fbars = t.fbars := by unfold Team.wrG; split <;> simp
@[simp] theorem Team.wrG_exchs (t : Team) (k : GReg) (b : Bool) : (t.wrG k b).exchs = t.exchs := by unfold Team.wrG; split <;> simp
@[simp] theorem Team.wrG_latched (t : Team) (k : GReg) (b : Bool) : (t.wrG k b).latched = t.latched := by unfold Team.wrG; split <;> simp
@[simp] theorem Team.wrG_arrivals (t : Team) (k : GReg) (b : Bool) : (t.wrG k b).arrivals = t.arrivals := by unfold Team.wrG; split <;> simp
@[simp] theorem Team.wrG_rq (t : Team) (k : GReg) (b : Bool) : (t.wrG k b).rq = t.rq := by unfold Team.wrG; split <;> simp
@[simp] theorem Team.wrG_frq (t : Team) (k : GReg) (b : Bool) : (t.wrG k b).frq = t.frq := by unfold Team.wrG; split <;> simp
@[simp] theorem Team.wrG_seen (t : Team) (k : GReg) (b : Bool) : (t.wrG k b).seen = t.seen := by unfold Team.wrG; split <;> simp
@[simp] theorem Team.setSpr_uid (t : Team) (n : BitVec 5) (v : Word) : (t.setSpr n v).uid = t.uid := by unfold Team.setSpr; split <;> rfl
@[simp] theorem Team.setSpr_gid (t : Team) (n : BitVec 5) (v : Word) : (t.setSpr n v).gid = t.gid := by unfold Team.setSpr; split <;> rfl
@[simp] theorem Team.setSpr_ctx (t : Team) (n : BitVec 5) (v : Word) : (t.setSpr n v).ctx = t.ctx := by unfold Team.setSpr; split <;> rfl
@[simp] theorem Team.setSpr_launch (t : Team) (n : BitVec 5) (v : Word) : (t.setSpr n v).launch = t.launch := by unfold Team.setSpr; split <;> rfl
@[simp] theorem Team.setSpr_inst (t : Team) (n : BitVec 5) (v : Word) : (t.setSpr n v).inst = t.inst := by unfold Team.setSpr; split <;> rfl
@[simp] theorem Team.setSpr_path (t : Team) (n : BitVec 5) (v : Word) : (t.setSpr n v).path = t.path := by unfold Team.setSpr; split <;> rfl
@[simp] theorem Team.setSpr_parent (t : Team) (n : BitVec 5) (v : Word) : (t.setSpr n v).parent = t.parent := by unfold Team.setSpr; split <;> rfl
@[simp] theorem Team.setSpr_kids (t : Team) (n : BitVec 5) (v : Word) : (t.setSpr n v).kids = t.kids := by unfold Team.setSpr; split <;> rfl
@[simp] theorem Team.setSpr_status (t : Team) (n : BitVec 5) (v : Word) : (t.setSpr n v).status = t.status := by unfold Team.setSpr; split <;> rfl
@[simp] theorem Team.setSpr_wait (t : Team) (n : BitVec 5) (v : Word) : (t.setSpr n v).wait = t.wait := by unfold Team.setSpr; split <;> rfl
@[simp] theorem Team.setSpr_tileWalk (t : Team) (n : BitVec 5) (v : Word) : (t.setSpr n v).tileWalk = t.tileWalk := by unfold Team.setSpr; split <;> rfl
@[simp] theorem Team.setSpr_pc (t : Team) (n : BitVec 5) (v : Word) : (t.setSpr n v).pc = t.pc := by unfold Team.setSpr; split <;> rfl
@[simp] theorem Team.setSpr_word (t : Team) (n : BitVec 5) (v : Word) : (t.setSpr n v).word = t.word := by unfold Team.setSpr; split <;> rfl
@[simp] theorem Team.setSpr_s (t : Team) (n : BitVec 5) (v : Word) : (t.setSpr n v).s = t.s := by unfold Team.setSpr; split <;> rfl
@[simp] theorem Team.setSpr_g (t : Team) (n : BitVec 5) (v : Word) : (t.setSpr n v).g = t.g := by unfold Team.setSpr; split <;> rfl
@[simp] theorem Team.setSpr_tiles (t : Team) (n : BitVec 5) (v : Word) : (t.setSpr n v).tiles = t.tiles := by unfold Team.setSpr; split <;> rfl
@[simp] theorem Team.setSpr_acc (t : Team) (n : BitVec 5) (v : Word) : (t.setSpr n v).acc = t.acc := by unfold Team.setSpr; split <;> rfl
@[simp] theorem Team.setSpr_scale (t : Team) (n : BitVec 5) (v : Word) : (t.setSpr n v).scale = t.scale := by unfold Team.setSpr; split <;> rfl
@[simp] theorem Team.setSpr_q (t : Team) (n : BitVec 5) (v : Word) : (t.setSpr n v).q = t.q := by unfold Team.setSpr; split <;> rfl
@[simp] theorem Team.setSpr_resB (t : Team) (n : BitVec 5) (v : Word) : (t.setSpr n v).resB = t.resB := by unfold Team.setSpr; split <;> rfl
@[simp] theorem Team.setSpr_fcrd (t : Team) (n : BitVec 5) (v : Word) : (t.setSpr n v).fcrd = t.fcrd := by unfold Team.setSpr; split <;> rfl
@[simp] theorem Team.setSpr_phc (t : Team) (n : BitVec 5) (v : Word) : (t.setSpr n v).phc = t.phc := by unfold Team.setSpr; split <;> rfl
@[simp] theorem Team.setSpr_placedAt (t : Team) (n : BitVec 5) (v : Word) : (t.setSpr n v).placedAt = t.placedAt := by unfold Team.setSpr; split <;> rfl
@[simp] theorem Team.setSpr_preq (t : Team) (n : BitVec 5) (v : Word) : (t.setSpr n v).preq = t.preq := by unfold Team.setSpr; split <;> rfl
@[simp] theorem Team.setSpr_pdlEnd (t : Team) (n : BitVec 5) (v : Word) : (t.setSpr n v).pdlEnd = t.pdlEnd := by unfold Team.setSpr; split <;> rfl
@[simp] theorem Team.setSpr_slip (t : Team) (n : BitVec 5) (v : Word) : (t.setSpr n v).slip = t.slip := by unfold Team.setSpr; split <;> rfl
@[simp] theorem Team.setSpr_split (t : Team) (n : BitVec 5) (v : Word) : (t.setSpr n v).split = t.split := by unfold Team.setSpr; split <;> rfl
@[simp] theorem Team.setSpr_part (t : Team) (n : BitVec 5) (v : Word) : (t.setSpr n v).part = t.part := by unfold Team.setSpr; split <;> rfl
@[simp] theorem Team.setSpr_lfsr (t : Team) (n : BitVec 5) (v : Word) : (t.setSpr n v).lfsr = t.lfsr := by unfold Team.setSpr; split <;> rfl
@[simp] theorem Team.setSpr_fresh (t : Team) (n : BitVec 5) (v : Word) : (t.setSpr n v).fresh = t.fresh := by unfold Team.setSpr; split <;> rfl
@[simp] theorem Team.setSpr_lft (t : Team) (n : BitVec 5) (v : Word) : (t.setSpr n v).lft = t.lft := by unfold Team.setSpr; split <;> rfl
@[simp] theorem Team.setSpr_sys (t : Team) (n : BitVec 5) (v : Word) : (t.setSpr n v).sys = t.sys := by unfold Team.setSpr; split <;> rfl
@[simp] theorem Team.setSpr_deque (t : Team) (n : BitVec 5) (v : Word) : (t.setSpr n v).deque = t.deque := by unfold Team.setSpr; split <;> rfl
@[simp] theorem Team.setSpr_wordSeq (t : Team) (n : BitVec 5) (v : Word) : (t.setSpr n v).wordSeq = t.wordSeq := by unfold Team.setSpr; split <;> rfl
@[simp] theorem Team.setSpr_tiq (t : Team) (n : BitVec 5) (v : Word) : (t.setSpr n v).tiq = t.tiq := by unfold Team.setSpr; split <;> rfl
@[simp] theorem Team.setSpr_bq (t : Team) (n : BitVec 5) (v : Word) : (t.setSpr n v).bq = t.bq := by unfold Team.setSpr; split <;> rfl
@[simp] theorem Team.setSpr_credits (t : Team) (n : BitVec 5) (v : Word) : (t.setSpr n v).credits = t.credits := by unfold Team.setSpr; split <;> rfl
@[simp] theorem Team.setSpr_copies (t : Team) (n : BitVec 5) (v : Word) : (t.setSpr n v).copies = t.copies := by unfold Team.setSpr; split <;> rfl
@[simp] theorem Team.setSpr_broken (t : Team) (n : BitVec 5) (v : Word) : (t.setSpr n v).broken = t.broken := by unfold Team.setSpr; split <;> rfl
@[simp] theorem Team.setSpr_sbuf (t : Team) (n : BitVec 5) (v : Word) : (t.setSpr n v).sbuf = t.sbuf := by unfold Team.setSpr; split <;> rfl
@[simp] theorem Team.setSpr_updq (t : Team) (n : BitVec 5) (v : Word) : (t.setSpr n v).updq = t.updq := by unfold Team.setSpr; split <;> rfl
@[simp] theorem Team.setSpr_updSeq (t : Team) (n : BitVec 5) (v : Word) : (t.setSpr n v).updSeq = t.updSeq := by unfold Team.setSpr; split <;> rfl
@[simp] theorem Team.setSpr_hist (t : Team) (n : BitVec 5) (v : Word) : (t.setSpr n v).hist = t.hist := by unfold Team.setSpr; split <;> rfl
@[simp] theorem Team.setSpr_late (t : Team) (n : BitVec 5) (v : Word) : (t.setSpr n v).late = t.late := by unfold Team.setSpr; split <;> rfl
@[simp] theorem Team.setSpr_heldFault (t : Team) (n : BitVec 5) (v : Word) : (t.setSpr n v).heldFault = t.heldFault := by unfold Team.setSpr; split <;> rfl
@[simp] theorem Team.setSpr_pairing (t : Team) (n : BitVec 5) (v : Word) : (t.setSpr n v).pairing = t.pairing := by unfold Team.setSpr; split <;> rfl
@[simp] theorem Team.setSpr_views (t : Team) (n : BitVec 5) (v : Word) : (t.setSpr n v).views = t.views := by unfold Team.setSpr; split <;> rfl
@[simp] theorem Team.setSpr_epochs (t : Team) (n : BitVec 5) (v : Word) : (t.setSpr n v).epochs = t.epochs := by unfold Team.setSpr; split <;> rfl
@[simp] theorem Team.setSpr_knows (t : Team) (n : BitVec 5) (v : Word) : (t.setSpr n v).knows = t.knows := by unfold Team.setSpr; split <;> rfl
@[simp] theorem Team.setSpr_lastPub (t : Team) (n : BitVec 5) (v : Word) : (t.setSpr n v).lastPub = t.lastPub := by unfold Team.setSpr; split <;> rfl
@[simp] theorem Team.setSpr_bars (t : Team) (n : BitVec 5) (v : Word) : (t.setSpr n v).bars = t.bars := by unfold Team.setSpr; split <;> rfl
@[simp] theorem Team.setSpr_fbars (t : Team) (n : BitVec 5) (v : Word) : (t.setSpr n v).fbars = t.fbars := by unfold Team.setSpr; split <;> rfl
@[simp] theorem Team.setSpr_exchs (t : Team) (n : BitVec 5) (v : Word) : (t.setSpr n v).exchs = t.exchs := by unfold Team.setSpr; split <;> rfl
@[simp] theorem Team.setSpr_latched (t : Team) (n : BitVec 5) (v : Word) : (t.setSpr n v).latched = t.latched := by unfold Team.setSpr; split <;> rfl
@[simp] theorem Team.setSpr_arrivals (t : Team) (n : BitVec 5) (v : Word) : (t.setSpr n v).arrivals = t.arrivals := by unfold Team.setSpr; split <;> rfl
@[simp] theorem Team.setSpr_rq (t : Team) (n : BitVec 5) (v : Word) : (t.setSpr n v).rq = t.rq := by unfold Team.setSpr; split <;> rfl
@[simp] theorem Team.setSpr_frq (t : Team) (n : BitVec 5) (v : Word) : (t.setSpr n v).frq = t.frq := by unfold Team.setSpr; split <;> rfl
@[simp] theorem Team.setSpr_seen (t : Team) (n : BitVec 5) (v : Word) : (t.setSpr n v).seen = t.seen := by unfold Team.setSpr; split <;> rfl
@[simp] theorem Team.wrSpr_uid (t : Team) (n : BitVec 5) (v : Word) : (t.wrSpr n v).uid = t.uid := by simp [Team.wrSpr]
@[simp] theorem Team.wrSpr_gid (t : Team) (n : BitVec 5) (v : Word) : (t.wrSpr n v).gid = t.gid := by simp [Team.wrSpr]
@[simp] theorem Team.wrSpr_ctx (t : Team) (n : BitVec 5) (v : Word) : (t.wrSpr n v).ctx = t.ctx := by simp [Team.wrSpr]
@[simp] theorem Team.wrSpr_launch (t : Team) (n : BitVec 5) (v : Word) : (t.wrSpr n v).launch = t.launch := by simp [Team.wrSpr]
@[simp] theorem Team.wrSpr_inst (t : Team) (n : BitVec 5) (v : Word) : (t.wrSpr n v).inst = t.inst := by simp [Team.wrSpr]
@[simp] theorem Team.wrSpr_path (t : Team) (n : BitVec 5) (v : Word) : (t.wrSpr n v).path = t.path := by simp [Team.wrSpr]
@[simp] theorem Team.wrSpr_parent (t : Team) (n : BitVec 5) (v : Word) : (t.wrSpr n v).parent = t.parent := by simp [Team.wrSpr]
@[simp] theorem Team.wrSpr_kids (t : Team) (n : BitVec 5) (v : Word) : (t.wrSpr n v).kids = t.kids := by simp [Team.wrSpr]
@[simp] theorem Team.wrSpr_status (t : Team) (n : BitVec 5) (v : Word) : (t.wrSpr n v).status = t.status := by simp [Team.wrSpr]
@[simp] theorem Team.wrSpr_wait (t : Team) (n : BitVec 5) (v : Word) : (t.wrSpr n v).wait = t.wait := by simp [Team.wrSpr]
@[simp] theorem Team.wrSpr_tileWalk (t : Team) (n : BitVec 5) (v : Word) : (t.wrSpr n v).tileWalk = t.tileWalk := by simp [Team.wrSpr]
@[simp] theorem Team.wrSpr_pc (t : Team) (n : BitVec 5) (v : Word) : (t.wrSpr n v).pc = t.pc := by simp [Team.wrSpr]
@[simp] theorem Team.wrSpr_word (t : Team) (n : BitVec 5) (v : Word) : (t.wrSpr n v).word = t.word := by simp [Team.wrSpr]
@[simp] theorem Team.wrSpr_s (t : Team) (n : BitVec 5) (v : Word) : (t.wrSpr n v).s = t.s := by simp [Team.wrSpr]
@[simp] theorem Team.wrSpr_g (t : Team) (n : BitVec 5) (v : Word) : (t.wrSpr n v).g = t.g := by simp [Team.wrSpr]
@[simp] theorem Team.wrSpr_tiles (t : Team) (n : BitVec 5) (v : Word) : (t.wrSpr n v).tiles = t.tiles := by simp [Team.wrSpr]
@[simp] theorem Team.wrSpr_acc (t : Team) (n : BitVec 5) (v : Word) : (t.wrSpr n v).acc = t.acc := by simp [Team.wrSpr]
@[simp] theorem Team.wrSpr_scale (t : Team) (n : BitVec 5) (v : Word) : (t.wrSpr n v).scale = t.scale := by simp [Team.wrSpr]
@[simp] theorem Team.wrSpr_q (t : Team) (n : BitVec 5) (v : Word) : (t.wrSpr n v).q = t.q := by simp [Team.wrSpr]
@[simp] theorem Team.wrSpr_resB (t : Team) (n : BitVec 5) (v : Word) : (t.wrSpr n v).resB = t.resB := by simp [Team.wrSpr]
@[simp] theorem Team.wrSpr_fcrd (t : Team) (n : BitVec 5) (v : Word) : (t.wrSpr n v).fcrd = t.fcrd := by simp [Team.wrSpr]
@[simp] theorem Team.wrSpr_phc (t : Team) (n : BitVec 5) (v : Word) : (t.wrSpr n v).phc = t.phc := by simp [Team.wrSpr]
@[simp] theorem Team.wrSpr_placedAt (t : Team) (n : BitVec 5) (v : Word) : (t.wrSpr n v).placedAt = t.placedAt := by simp [Team.wrSpr]
@[simp] theorem Team.wrSpr_preq (t : Team) (n : BitVec 5) (v : Word) : (t.wrSpr n v).preq = t.preq := by simp [Team.wrSpr]
@[simp] theorem Team.wrSpr_pdlEnd (t : Team) (n : BitVec 5) (v : Word) : (t.wrSpr n v).pdlEnd = t.pdlEnd := by simp [Team.wrSpr]
@[simp] theorem Team.wrSpr_slip (t : Team) (n : BitVec 5) (v : Word) : (t.wrSpr n v).slip = t.slip := by simp [Team.wrSpr]
@[simp] theorem Team.wrSpr_split (t : Team) (n : BitVec 5) (v : Word) : (t.wrSpr n v).split = t.split := by simp [Team.wrSpr]
@[simp] theorem Team.wrSpr_part (t : Team) (n : BitVec 5) (v : Word) : (t.wrSpr n v).part = t.part := by simp [Team.wrSpr]
@[simp] theorem Team.wrSpr_lfsr (t : Team) (n : BitVec 5) (v : Word) : (t.wrSpr n v).lfsr = t.lfsr := by simp [Team.wrSpr]
@[simp] theorem Team.wrSpr_fresh (t : Team) (n : BitVec 5) (v : Word) : (t.wrSpr n v).fresh = t.fresh := by simp [Team.wrSpr]
@[simp] theorem Team.wrSpr_lft (t : Team) (n : BitVec 5) (v : Word) : (t.wrSpr n v).lft = t.lft := by simp [Team.wrSpr]
@[simp] theorem Team.wrSpr_sys (t : Team) (n : BitVec 5) (v : Word) : (t.wrSpr n v).sys = t.sys := by simp [Team.wrSpr]
@[simp] theorem Team.wrSpr_deque (t : Team) (n : BitVec 5) (v : Word) : (t.wrSpr n v).deque = t.deque := by simp [Team.wrSpr]
@[simp] theorem Team.wrSpr_wordSeq (t : Team) (n : BitVec 5) (v : Word) : (t.wrSpr n v).wordSeq = t.wordSeq := by simp [Team.wrSpr]
@[simp] theorem Team.wrSpr_tiq (t : Team) (n : BitVec 5) (v : Word) : (t.wrSpr n v).tiq = t.tiq := by simp [Team.wrSpr]
@[simp] theorem Team.wrSpr_bq (t : Team) (n : BitVec 5) (v : Word) : (t.wrSpr n v).bq = t.bq := by simp [Team.wrSpr]
@[simp] theorem Team.wrSpr_credits (t : Team) (n : BitVec 5) (v : Word) : (t.wrSpr n v).credits = t.credits := by simp [Team.wrSpr]
@[simp] theorem Team.wrSpr_copies (t : Team) (n : BitVec 5) (v : Word) : (t.wrSpr n v).copies = t.copies := by simp [Team.wrSpr]
@[simp] theorem Team.wrSpr_broken (t : Team) (n : BitVec 5) (v : Word) : (t.wrSpr n v).broken = t.broken := by simp [Team.wrSpr]
@[simp] theorem Team.wrSpr_sbuf (t : Team) (n : BitVec 5) (v : Word) : (t.wrSpr n v).sbuf = t.sbuf := by simp [Team.wrSpr]
@[simp] theorem Team.wrSpr_updq (t : Team) (n : BitVec 5) (v : Word) : (t.wrSpr n v).updq = t.updq := by simp [Team.wrSpr]
@[simp] theorem Team.wrSpr_updSeq (t : Team) (n : BitVec 5) (v : Word) : (t.wrSpr n v).updSeq = t.updSeq := by simp [Team.wrSpr]
@[simp] theorem Team.wrSpr_heldFault (t : Team) (n : BitVec 5) (v : Word) : (t.wrSpr n v).heldFault = t.heldFault := by simp [Team.wrSpr]
@[simp] theorem Team.wrSpr_pairing (t : Team) (n : BitVec 5) (v : Word) : (t.wrSpr n v).pairing = t.pairing := by simp [Team.wrSpr]
@[simp] theorem Team.wrSpr_views (t : Team) (n : BitVec 5) (v : Word) : (t.wrSpr n v).views = t.views := by simp [Team.wrSpr]
@[simp] theorem Team.wrSpr_epochs (t : Team) (n : BitVec 5) (v : Word) : (t.wrSpr n v).epochs = t.epochs := by simp [Team.wrSpr]
@[simp] theorem Team.wrSpr_knows (t : Team) (n : BitVec 5) (v : Word) : (t.wrSpr n v).knows = t.knows := by simp [Team.wrSpr]
@[simp] theorem Team.wrSpr_lastPub (t : Team) (n : BitVec 5) (v : Word) : (t.wrSpr n v).lastPub = t.lastPub := by simp [Team.wrSpr]
@[simp] theorem Team.wrSpr_bars (t : Team) (n : BitVec 5) (v : Word) : (t.wrSpr n v).bars = t.bars := by simp [Team.wrSpr]
@[simp] theorem Team.wrSpr_fbars (t : Team) (n : BitVec 5) (v : Word) : (t.wrSpr n v).fbars = t.fbars := by simp [Team.wrSpr]
@[simp] theorem Team.wrSpr_exchs (t : Team) (n : BitVec 5) (v : Word) : (t.wrSpr n v).exchs = t.exchs := by simp [Team.wrSpr]
@[simp] theorem Team.wrSpr_latched (t : Team) (n : BitVec 5) (v : Word) : (t.wrSpr n v).latched = t.latched := by simp [Team.wrSpr]
@[simp] theorem Team.wrSpr_arrivals (t : Team) (n : BitVec 5) (v : Word) : (t.wrSpr n v).arrivals = t.arrivals := by simp [Team.wrSpr]
@[simp] theorem Team.wrSpr_rq (t : Team) (n : BitVec 5) (v : Word) : (t.wrSpr n v).rq = t.rq := by simp [Team.wrSpr]
@[simp] theorem Team.wrSpr_frq (t : Team) (n : BitVec 5) (v : Word) : (t.wrSpr n v).frq = t.frq := by simp [Team.wrSpr]
@[simp] theorem Team.wrSpr_seen (t : Team) (n : BitVec 5) (v : Word) : (t.wrSpr n v).seen = t.seen := by simp [Team.wrSpr]
@[simp] theorem Team.setSat_uid (t : Team)  : (t.setSat).uid = t.uid := by unfold Team.setSat; split <;> simp
@[simp] theorem Team.setSat_gid (t : Team)  : (t.setSat).gid = t.gid := by unfold Team.setSat; split <;> simp
@[simp] theorem Team.setSat_ctx (t : Team)  : (t.setSat).ctx = t.ctx := by unfold Team.setSat; split <;> simp
@[simp] theorem Team.setSat_launch (t : Team)  : (t.setSat).launch = t.launch := by unfold Team.setSat; split <;> simp
@[simp] theorem Team.setSat_inst (t : Team)  : (t.setSat).inst = t.inst := by unfold Team.setSat; split <;> simp
@[simp] theorem Team.setSat_path (t : Team)  : (t.setSat).path = t.path := by unfold Team.setSat; split <;> simp
@[simp] theorem Team.setSat_parent (t : Team)  : (t.setSat).parent = t.parent := by unfold Team.setSat; split <;> simp
@[simp] theorem Team.setSat_kids (t : Team)  : (t.setSat).kids = t.kids := by unfold Team.setSat; split <;> simp
@[simp] theorem Team.setSat_status (t : Team)  : (t.setSat).status = t.status := by unfold Team.setSat; split <;> simp
@[simp] theorem Team.setSat_wait (t : Team)  : (t.setSat).wait = t.wait := by unfold Team.setSat; split <;> simp
@[simp] theorem Team.setSat_tileWalk (t : Team)  : (t.setSat).tileWalk = t.tileWalk := by unfold Team.setSat; split <;> simp
@[simp] theorem Team.setSat_pc (t : Team)  : (t.setSat).pc = t.pc := by unfold Team.setSat; split <;> simp
@[simp] theorem Team.setSat_word (t : Team)  : (t.setSat).word = t.word := by unfold Team.setSat; split <;> simp
@[simp] theorem Team.setSat_s (t : Team)  : (t.setSat).s = t.s := by unfold Team.setSat; split <;> simp
@[simp] theorem Team.setSat_g (t : Team)  : (t.setSat).g = t.g := by unfold Team.setSat; split <;> simp
@[simp] theorem Team.setSat_tiles (t : Team)  : (t.setSat).tiles = t.tiles := by unfold Team.setSat; split <;> simp
@[simp] theorem Team.setSat_acc (t : Team)  : (t.setSat).acc = t.acc := by unfold Team.setSat; split <;> simp
@[simp] theorem Team.setSat_scale (t : Team)  : (t.setSat).scale = t.scale := by unfold Team.setSat; split <;> simp
@[simp] theorem Team.setSat_q (t : Team)  : (t.setSat).q = t.q := by unfold Team.setSat; split <;> simp
@[simp] theorem Team.setSat_resB (t : Team)  : (t.setSat).resB = t.resB := by unfold Team.setSat; split <;> simp
@[simp] theorem Team.setSat_ext (t : Team)  : (t.setSat).ext = t.ext := by unfold Team.setSat; split <;> simp
@[simp] theorem Team.setSat_extc (t : Team)  : (t.setSat).extc = t.extc := by unfold Team.setSat; split <;> simp
@[simp] theorem Team.setSat_fsr (t : Team)  : (t.setSat).fsr = t.fsr := by unfold Team.setSat; split <;> simp
@[simp] theorem Team.setSat_fpst (t : Team)  : (t.setSat).fpst = t.fpst := by unfold Team.setSat; split <;> simp
@[simp] theorem Team.setSat_updf (t : Team)  : (t.setSat).updf = t.updf := by unfold Team.setSat; split <;> simp
@[simp] theorem Team.setSat_xrow (t : Team)  : (t.setSat).xrow = t.xrow := by unfold Team.setSat; split <;> simp
@[simp] theorem Team.setSat_fcrd (t : Team)  : (t.setSat).fcrd = t.fcrd := by unfold Team.setSat; split <;> simp
@[simp] theorem Team.setSat_phc (t : Team)  : (t.setSat).phc = t.phc := by unfold Team.setSat; split <;> simp
@[simp] theorem Team.setSat_placedAt (t : Team)  : (t.setSat).placedAt = t.placedAt := by unfold Team.setSat; split <;> simp
@[simp] theorem Team.setSat_preq (t : Team)  : (t.setSat).preq = t.preq := by unfold Team.setSat; split <;> simp
@[simp] theorem Team.setSat_pdlEnd (t : Team)  : (t.setSat).pdlEnd = t.pdlEnd := by unfold Team.setSat; split <;> simp
@[simp] theorem Team.setSat_slip (t : Team)  : (t.setSat).slip = t.slip := by unfold Team.setSat; split <;> simp
@[simp] theorem Team.setSat_split (t : Team)  : (t.setSat).split = t.split := by unfold Team.setSat; split <;> simp
@[simp] theorem Team.setSat_part (t : Team)  : (t.setSat).part = t.part := by unfold Team.setSat; split <;> simp
@[simp] theorem Team.setSat_lfsr (t : Team)  : (t.setSat).lfsr = t.lfsr := by unfold Team.setSat; split <;> simp
@[simp] theorem Team.setSat_fresh (t : Team)  : (t.setSat).fresh = t.fresh := by unfold Team.setSat; split <;> simp
@[simp] theorem Team.setSat_lft (t : Team)  : (t.setSat).lft = t.lft := by unfold Team.setSat; split <;> simp
@[simp] theorem Team.setSat_sys (t : Team)  : (t.setSat).sys = t.sys := by unfold Team.setSat; split <;> simp
@[simp] theorem Team.setSat_deque (t : Team)  : (t.setSat).deque = t.deque := by unfold Team.setSat; split <;> simp
@[simp] theorem Team.setSat_wordSeq (t : Team)  : (t.setSat).wordSeq = t.wordSeq := by unfold Team.setSat; split <;> simp
@[simp] theorem Team.setSat_tiq (t : Team)  : (t.setSat).tiq = t.tiq := by unfold Team.setSat; split <;> simp
@[simp] theorem Team.setSat_bq (t : Team)  : (t.setSat).bq = t.bq := by unfold Team.setSat; split <;> simp
@[simp] theorem Team.setSat_credits (t : Team)  : (t.setSat).credits = t.credits := by unfold Team.setSat; split <;> simp
@[simp] theorem Team.setSat_copies (t : Team)  : (t.setSat).copies = t.copies := by unfold Team.setSat; split <;> simp
@[simp] theorem Team.setSat_broken (t : Team)  : (t.setSat).broken = t.broken := by unfold Team.setSat; split <;> simp
@[simp] theorem Team.setSat_sbuf (t : Team)  : (t.setSat).sbuf = t.sbuf := by unfold Team.setSat; split <;> simp
@[simp] theorem Team.setSat_updq (t : Team)  : (t.setSat).updq = t.updq := by unfold Team.setSat; split <;> simp
@[simp] theorem Team.setSat_updSeq (t : Team)  : (t.setSat).updSeq = t.updSeq := by unfold Team.setSat; split <;> simp
@[simp] theorem Team.setSat_heldFault (t : Team)  : (t.setSat).heldFault = t.heldFault := by unfold Team.setSat; split <;> simp
@[simp] theorem Team.setSat_pairing (t : Team)  : (t.setSat).pairing = t.pairing := by unfold Team.setSat; split <;> simp
@[simp] theorem Team.setSat_views (t : Team)  : (t.setSat).views = t.views := by unfold Team.setSat; split <;> simp
@[simp] theorem Team.setSat_epochs (t : Team)  : (t.setSat).epochs = t.epochs := by unfold Team.setSat; split <;> simp
@[simp] theorem Team.setSat_knows (t : Team)  : (t.setSat).knows = t.knows := by unfold Team.setSat; split <;> simp
@[simp] theorem Team.setSat_lastPub (t : Team)  : (t.setSat).lastPub = t.lastPub := by unfold Team.setSat; split <;> simp
@[simp] theorem Team.setSat_bars (t : Team)  : (t.setSat).bars = t.bars := by unfold Team.setSat; split <;> simp
@[simp] theorem Team.setSat_fbars (t : Team)  : (t.setSat).fbars = t.fbars := by unfold Team.setSat; split <;> simp
@[simp] theorem Team.setSat_exchs (t : Team)  : (t.setSat).exchs = t.exchs := by unfold Team.setSat; split <;> simp
@[simp] theorem Team.setSat_latched (t : Team)  : (t.setSat).latched = t.latched := by unfold Team.setSat; split <;> simp
@[simp] theorem Team.setSat_arrivals (t : Team)  : (t.setSat).arrivals = t.arrivals := by unfold Team.setSat; split <;> simp
@[simp] theorem Team.setSat_rq (t : Team)  : (t.setSat).rq = t.rq := by unfold Team.setSat; split <;> simp
@[simp] theorem Team.setSat_frq (t : Team)  : (t.setSat).frq = t.frq := by unfold Team.setSat; split <;> simp
@[simp] theorem Team.setSat_seen (t : Team)  : (t.setSat).seen = t.seen := by unfold Team.setSat; split <;> simp

/-! ### Teams: tile state, views, queues -/

@[simp] theorem Team.putTile_uid (t : Team) (n : TReg) (x : Option Tile) : (t.putTile n x).uid = t.uid := rfl
@[simp] theorem Team.putTile_gid (t : Team) (n : TReg) (x : Option Tile) : (t.putTile n x).gid = t.gid := rfl
@[simp] theorem Team.putTile_ctx (t : Team) (n : TReg) (x : Option Tile) : (t.putTile n x).ctx = t.ctx := rfl
@[simp] theorem Team.putTile_launch (t : Team) (n : TReg) (x : Option Tile) : (t.putTile n x).launch = t.launch := rfl
@[simp] theorem Team.putTile_inst (t : Team) (n : TReg) (x : Option Tile) : (t.putTile n x).inst = t.inst := rfl
@[simp] theorem Team.putTile_path (t : Team) (n : TReg) (x : Option Tile) : (t.putTile n x).path = t.path := rfl
@[simp] theorem Team.putTile_parent (t : Team) (n : TReg) (x : Option Tile) : (t.putTile n x).parent = t.parent := rfl
@[simp] theorem Team.putTile_kids (t : Team) (n : TReg) (x : Option Tile) : (t.putTile n x).kids = t.kids := rfl
@[simp] theorem Team.putTile_status (t : Team) (n : TReg) (x : Option Tile) : (t.putTile n x).status = t.status := rfl
@[simp] theorem Team.putTile_wait (t : Team) (n : TReg) (x : Option Tile) : (t.putTile n x).wait = t.wait := rfl
@[simp] theorem Team.putTile_tileWalk (t : Team) (n : TReg) (x : Option Tile) : (t.putTile n x).tileWalk = t.tileWalk := rfl
@[simp] theorem Team.putTile_pc (t : Team) (n : TReg) (x : Option Tile) : (t.putTile n x).pc = t.pc := rfl
@[simp] theorem Team.putTile_word (t : Team) (n : TReg) (x : Option Tile) : (t.putTile n x).word = t.word := rfl
@[simp] theorem Team.putTile_s (t : Team) (n : TReg) (x : Option Tile) : (t.putTile n x).s = t.s := rfl
@[simp] theorem Team.putTile_g (t : Team) (n : TReg) (x : Option Tile) : (t.putTile n x).g = t.g := rfl
@[simp] theorem Team.putTile_tiles (t : Team) (n : TReg) (x : Option Tile) : (t.putTile n x).tiles = t.tiles.set n.toFin x := rfl
@[simp] theorem Team.putTile_acc (t : Team) (n : TReg) (x : Option Tile) : (t.putTile n x).acc = t.acc := rfl
@[simp] theorem Team.putTile_scale (t : Team) (n : TReg) (x : Option Tile) : (t.putTile n x).scale = t.scale := rfl
@[simp] theorem Team.putTile_q (t : Team) (n : TReg) (x : Option Tile) : (t.putTile n x).q = t.q := rfl
@[simp] theorem Team.putTile_resB (t : Team) (n : TReg) (x : Option Tile) : (t.putTile n x).resB = t.resB := rfl
@[simp] theorem Team.putTile_ext (t : Team) (n : TReg) (x : Option Tile) : (t.putTile n x).ext = t.ext := rfl
@[simp] theorem Team.putTile_extc (t : Team) (n : TReg) (x : Option Tile) : (t.putTile n x).extc = t.extc := rfl
@[simp] theorem Team.putTile_fsr (t : Team) (n : TReg) (x : Option Tile) : (t.putTile n x).fsr = t.fsr := rfl
@[simp] theorem Team.putTile_fpst (t : Team) (n : TReg) (x : Option Tile) : (t.putTile n x).fpst = t.fpst := rfl
@[simp] theorem Team.putTile_satf (t : Team) (n : TReg) (x : Option Tile) : (t.putTile n x).satf = t.satf := rfl
@[simp] theorem Team.putTile_updf (t : Team) (n : TReg) (x : Option Tile) : (t.putTile n x).updf = t.updf := rfl
@[simp] theorem Team.putTile_xrow (t : Team) (n : TReg) (x : Option Tile) : (t.putTile n x).xrow = t.xrow := rfl
@[simp] theorem Team.putTile_fcrd (t : Team) (n : TReg) (x : Option Tile) : (t.putTile n x).fcrd = t.fcrd := rfl
@[simp] theorem Team.putTile_phc (t : Team) (n : TReg) (x : Option Tile) : (t.putTile n x).phc = t.phc := rfl
@[simp] theorem Team.putTile_placedAt (t : Team) (n : TReg) (x : Option Tile) : (t.putTile n x).placedAt = t.placedAt := rfl
@[simp] theorem Team.putTile_preq (t : Team) (n : TReg) (x : Option Tile) : (t.putTile n x).preq = t.preq := rfl
@[simp] theorem Team.putTile_pdlEnd (t : Team) (n : TReg) (x : Option Tile) : (t.putTile n x).pdlEnd = t.pdlEnd := rfl
@[simp] theorem Team.putTile_slip (t : Team) (n : TReg) (x : Option Tile) : (t.putTile n x).slip = t.slip := rfl
@[simp] theorem Team.putTile_split (t : Team) (n : TReg) (x : Option Tile) : (t.putTile n x).split = t.split := rfl
@[simp] theorem Team.putTile_part (t : Team) (n : TReg) (x : Option Tile) : (t.putTile n x).part = t.part := rfl
@[simp] theorem Team.putTile_lfsr (t : Team) (n : TReg) (x : Option Tile) : (t.putTile n x).lfsr = t.lfsr := rfl
@[simp] theorem Team.putTile_fresh (t : Team) (n : TReg) (x : Option Tile) : (t.putTile n x).fresh = t.fresh := rfl
@[simp] theorem Team.putTile_lft (t : Team) (n : TReg) (x : Option Tile) : (t.putTile n x).lft = t.lft := rfl
@[simp] theorem Team.putTile_sys (t : Team) (n : TReg) (x : Option Tile) : (t.putTile n x).sys = t.sys := rfl
@[simp] theorem Team.putTile_deque (t : Team) (n : TReg) (x : Option Tile) : (t.putTile n x).deque = t.deque := rfl
@[simp] theorem Team.putTile_wordSeq (t : Team) (n : TReg) (x : Option Tile) : (t.putTile n x).wordSeq = t.wordSeq := rfl
@[simp] theorem Team.putTile_tiq (t : Team) (n : TReg) (x : Option Tile) : (t.putTile n x).tiq = t.tiq := rfl
@[simp] theorem Team.putTile_bq (t : Team) (n : TReg) (x : Option Tile) : (t.putTile n x).bq = t.bq := rfl
@[simp] theorem Team.putTile_credits (t : Team) (n : TReg) (x : Option Tile) : (t.putTile n x).credits = t.credits := rfl
@[simp] theorem Team.putTile_copies (t : Team) (n : TReg) (x : Option Tile) : (t.putTile n x).copies = t.copies := rfl
@[simp] theorem Team.putTile_broken (t : Team) (n : TReg) (x : Option Tile) : (t.putTile n x).broken = t.broken := rfl
@[simp] theorem Team.putTile_sbuf (t : Team) (n : TReg) (x : Option Tile) : (t.putTile n x).sbuf = t.sbuf := rfl
@[simp] theorem Team.putTile_updq (t : Team) (n : TReg) (x : Option Tile) : (t.putTile n x).updq = t.updq := rfl
@[simp] theorem Team.putTile_updSeq (t : Team) (n : TReg) (x : Option Tile) : (t.putTile n x).updSeq = t.updSeq := rfl
@[simp] theorem Team.putTile_hist (t : Team) (n : TReg) (x : Option Tile) : (t.putTile n x).hist = t.hist := rfl
@[simp] theorem Team.putTile_late (t : Team) (n : TReg) (x : Option Tile) : (t.putTile n x).late = t.late := rfl
@[simp] theorem Team.putTile_heldFault (t : Team) (n : TReg) (x : Option Tile) : (t.putTile n x).heldFault = t.heldFault := rfl
@[simp] theorem Team.putTile_pairing (t : Team) (n : TReg) (x : Option Tile) : (t.putTile n x).pairing = t.pairing := rfl
@[simp] theorem Team.putTile_views (t : Team) (n : TReg) (x : Option Tile) : (t.putTile n x).views = t.views := rfl
@[simp] theorem Team.putTile_epochs (t : Team) (n : TReg) (x : Option Tile) : (t.putTile n x).epochs = t.epochs := rfl
@[simp] theorem Team.putTile_knows (t : Team) (n : TReg) (x : Option Tile) : (t.putTile n x).knows = t.knows := rfl
@[simp] theorem Team.putTile_lastPub (t : Team) (n : TReg) (x : Option Tile) : (t.putTile n x).lastPub = t.lastPub := rfl
@[simp] theorem Team.putTile_bars (t : Team) (n : TReg) (x : Option Tile) : (t.putTile n x).bars = t.bars := rfl
@[simp] theorem Team.putTile_fbars (t : Team) (n : TReg) (x : Option Tile) : (t.putTile n x).fbars = t.fbars := rfl
@[simp] theorem Team.putTile_exchs (t : Team) (n : TReg) (x : Option Tile) : (t.putTile n x).exchs = t.exchs := rfl
@[simp] theorem Team.putTile_latched (t : Team) (n : TReg) (x : Option Tile) : (t.putTile n x).latched = t.latched := rfl
@[simp] theorem Team.putTile_arrivals (t : Team) (n : TReg) (x : Option Tile) : (t.putTile n x).arrivals = t.arrivals := rfl
@[simp] theorem Team.putTile_rq (t : Team) (n : TReg) (x : Option Tile) : (t.putTile n x).rq = t.rq := rfl
@[simp] theorem Team.putTile_frq (t : Team) (n : TReg) (x : Option Tile) : (t.putTile n x).frq = t.frq := rfl
@[simp] theorem Team.putTile_seen (t : Team) (n : TReg) (x : Option Tile) : (t.putTile n x).seen = t.seen := rfl
@[simp] theorem Team.putAcc_uid (t : Team) (a : AReg) (x : Acc) : (t.putAcc a x).uid = t.uid := rfl
@[simp] theorem Team.putAcc_gid (t : Team) (a : AReg) (x : Acc) : (t.putAcc a x).gid = t.gid := rfl
@[simp] theorem Team.putAcc_ctx (t : Team) (a : AReg) (x : Acc) : (t.putAcc a x).ctx = t.ctx := rfl
@[simp] theorem Team.putAcc_launch (t : Team) (a : AReg) (x : Acc) : (t.putAcc a x).launch = t.launch := rfl
@[simp] theorem Team.putAcc_inst (t : Team) (a : AReg) (x : Acc) : (t.putAcc a x).inst = t.inst := rfl
@[simp] theorem Team.putAcc_path (t : Team) (a : AReg) (x : Acc) : (t.putAcc a x).path = t.path := rfl
@[simp] theorem Team.putAcc_parent (t : Team) (a : AReg) (x : Acc) : (t.putAcc a x).parent = t.parent := rfl
@[simp] theorem Team.putAcc_kids (t : Team) (a : AReg) (x : Acc) : (t.putAcc a x).kids = t.kids := rfl
@[simp] theorem Team.putAcc_status (t : Team) (a : AReg) (x : Acc) : (t.putAcc a x).status = t.status := rfl
@[simp] theorem Team.putAcc_wait (t : Team) (a : AReg) (x : Acc) : (t.putAcc a x).wait = t.wait := rfl
@[simp] theorem Team.putAcc_tileWalk (t : Team) (a : AReg) (x : Acc) : (t.putAcc a x).tileWalk = t.tileWalk := rfl
@[simp] theorem Team.putAcc_pc (t : Team) (a : AReg) (x : Acc) : (t.putAcc a x).pc = t.pc := rfl
@[simp] theorem Team.putAcc_word (t : Team) (a : AReg) (x : Acc) : (t.putAcc a x).word = t.word := rfl
@[simp] theorem Team.putAcc_s (t : Team) (a : AReg) (x : Acc) : (t.putAcc a x).s = t.s := rfl
@[simp] theorem Team.putAcc_g (t : Team) (a : AReg) (x : Acc) : (t.putAcc a x).g = t.g := rfl
@[simp] theorem Team.putAcc_tiles (t : Team) (a : AReg) (x : Acc) : (t.putAcc a x).tiles = t.tiles := rfl
@[simp] theorem Team.putAcc_acc (t : Team) (a : AReg) (x : Acc) : (t.putAcc a x).acc = t.acc.set a.toFin x := rfl
@[simp] theorem Team.putAcc_scale (t : Team) (a : AReg) (x : Acc) : (t.putAcc a x).scale = t.scale := rfl
@[simp] theorem Team.putAcc_q (t : Team) (a : AReg) (x : Acc) : (t.putAcc a x).q = t.q := rfl
@[simp] theorem Team.putAcc_resB (t : Team) (a : AReg) (x : Acc) : (t.putAcc a x).resB = t.resB := rfl
@[simp] theorem Team.putAcc_ext (t : Team) (a : AReg) (x : Acc) : (t.putAcc a x).ext = t.ext := rfl
@[simp] theorem Team.putAcc_extc (t : Team) (a : AReg) (x : Acc) : (t.putAcc a x).extc = t.extc := rfl
@[simp] theorem Team.putAcc_fsr (t : Team) (a : AReg) (x : Acc) : (t.putAcc a x).fsr = t.fsr := rfl
@[simp] theorem Team.putAcc_fpst (t : Team) (a : AReg) (x : Acc) : (t.putAcc a x).fpst = t.fpst := rfl
@[simp] theorem Team.putAcc_satf (t : Team) (a : AReg) (x : Acc) : (t.putAcc a x).satf = t.satf := rfl
@[simp] theorem Team.putAcc_updf (t : Team) (a : AReg) (x : Acc) : (t.putAcc a x).updf = t.updf := rfl
@[simp] theorem Team.putAcc_xrow (t : Team) (a : AReg) (x : Acc) : (t.putAcc a x).xrow = t.xrow := rfl
@[simp] theorem Team.putAcc_fcrd (t : Team) (a : AReg) (x : Acc) : (t.putAcc a x).fcrd = t.fcrd := rfl
@[simp] theorem Team.putAcc_phc (t : Team) (a : AReg) (x : Acc) : (t.putAcc a x).phc = t.phc := rfl
@[simp] theorem Team.putAcc_placedAt (t : Team) (a : AReg) (x : Acc) : (t.putAcc a x).placedAt = t.placedAt := rfl
@[simp] theorem Team.putAcc_preq (t : Team) (a : AReg) (x : Acc) : (t.putAcc a x).preq = t.preq := rfl
@[simp] theorem Team.putAcc_pdlEnd (t : Team) (a : AReg) (x : Acc) : (t.putAcc a x).pdlEnd = t.pdlEnd := rfl
@[simp] theorem Team.putAcc_slip (t : Team) (a : AReg) (x : Acc) : (t.putAcc a x).slip = t.slip := rfl
@[simp] theorem Team.putAcc_split (t : Team) (a : AReg) (x : Acc) : (t.putAcc a x).split = t.split := rfl
@[simp] theorem Team.putAcc_part (t : Team) (a : AReg) (x : Acc) : (t.putAcc a x).part = t.part := rfl
@[simp] theorem Team.putAcc_lfsr (t : Team) (a : AReg) (x : Acc) : (t.putAcc a x).lfsr = t.lfsr := rfl
@[simp] theorem Team.putAcc_fresh (t : Team) (a : AReg) (x : Acc) : (t.putAcc a x).fresh = t.fresh := rfl
@[simp] theorem Team.putAcc_lft (t : Team) (a : AReg) (x : Acc) : (t.putAcc a x).lft = t.lft := rfl
@[simp] theorem Team.putAcc_sys (t : Team) (a : AReg) (x : Acc) : (t.putAcc a x).sys = t.sys := rfl
@[simp] theorem Team.putAcc_deque (t : Team) (a : AReg) (x : Acc) : (t.putAcc a x).deque = t.deque := rfl
@[simp] theorem Team.putAcc_wordSeq (t : Team) (a : AReg) (x : Acc) : (t.putAcc a x).wordSeq = t.wordSeq := rfl
@[simp] theorem Team.putAcc_tiq (t : Team) (a : AReg) (x : Acc) : (t.putAcc a x).tiq = t.tiq := rfl
@[simp] theorem Team.putAcc_bq (t : Team) (a : AReg) (x : Acc) : (t.putAcc a x).bq = t.bq := rfl
@[simp] theorem Team.putAcc_credits (t : Team) (a : AReg) (x : Acc) : (t.putAcc a x).credits = t.credits := rfl
@[simp] theorem Team.putAcc_copies (t : Team) (a : AReg) (x : Acc) : (t.putAcc a x).copies = t.copies := rfl
@[simp] theorem Team.putAcc_broken (t : Team) (a : AReg) (x : Acc) : (t.putAcc a x).broken = t.broken := rfl
@[simp] theorem Team.putAcc_sbuf (t : Team) (a : AReg) (x : Acc) : (t.putAcc a x).sbuf = t.sbuf := rfl
@[simp] theorem Team.putAcc_updq (t : Team) (a : AReg) (x : Acc) : (t.putAcc a x).updq = t.updq := rfl
@[simp] theorem Team.putAcc_updSeq (t : Team) (a : AReg) (x : Acc) : (t.putAcc a x).updSeq = t.updSeq := rfl
@[simp] theorem Team.putAcc_hist (t : Team) (a : AReg) (x : Acc) : (t.putAcc a x).hist = t.hist := rfl
@[simp] theorem Team.putAcc_late (t : Team) (a : AReg) (x : Acc) : (t.putAcc a x).late = t.late := rfl
@[simp] theorem Team.putAcc_heldFault (t : Team) (a : AReg) (x : Acc) : (t.putAcc a x).heldFault = t.heldFault := rfl
@[simp] theorem Team.putAcc_pairing (t : Team) (a : AReg) (x : Acc) : (t.putAcc a x).pairing = t.pairing := rfl
@[simp] theorem Team.putAcc_views (t : Team) (a : AReg) (x : Acc) : (t.putAcc a x).views = t.views := rfl
@[simp] theorem Team.putAcc_epochs (t : Team) (a : AReg) (x : Acc) : (t.putAcc a x).epochs = t.epochs := rfl
@[simp] theorem Team.putAcc_knows (t : Team) (a : AReg) (x : Acc) : (t.putAcc a x).knows = t.knows := rfl
@[simp] theorem Team.putAcc_lastPub (t : Team) (a : AReg) (x : Acc) : (t.putAcc a x).lastPub = t.lastPub := rfl
@[simp] theorem Team.putAcc_bars (t : Team) (a : AReg) (x : Acc) : (t.putAcc a x).bars = t.bars := rfl
@[simp] theorem Team.putAcc_fbars (t : Team) (a : AReg) (x : Acc) : (t.putAcc a x).fbars = t.fbars := rfl
@[simp] theorem Team.putAcc_exchs (t : Team) (a : AReg) (x : Acc) : (t.putAcc a x).exchs = t.exchs := rfl
@[simp] theorem Team.putAcc_latched (t : Team) (a : AReg) (x : Acc) : (t.putAcc a x).latched = t.latched := rfl
@[simp] theorem Team.putAcc_arrivals (t : Team) (a : AReg) (x : Acc) : (t.putAcc a x).arrivals = t.arrivals := rfl
@[simp] theorem Team.putAcc_rq (t : Team) (a : AReg) (x : Acc) : (t.putAcc a x).rq = t.rq := rfl
@[simp] theorem Team.putAcc_frq (t : Team) (a : AReg) (x : Acc) : (t.putAcc a x).frq = t.frq := rfl
@[simp] theorem Team.putAcc_seen (t : Team) (a : AReg) (x : Acc) : (t.putAcc a x).seen = t.seen := rfl
@[simp] theorem Team.putG_uid (t : Team) (k : GReg) (b : Bool) : (t.putG k b).uid = t.uid := rfl
@[simp] theorem Team.putG_gid (t : Team) (k : GReg) (b : Bool) : (t.putG k b).gid = t.gid := rfl
@[simp] theorem Team.putG_ctx (t : Team) (k : GReg) (b : Bool) : (t.putG k b).ctx = t.ctx := rfl
@[simp] theorem Team.putG_launch (t : Team) (k : GReg) (b : Bool) : (t.putG k b).launch = t.launch := rfl
@[simp] theorem Team.putG_inst (t : Team) (k : GReg) (b : Bool) : (t.putG k b).inst = t.inst := rfl
@[simp] theorem Team.putG_path (t : Team) (k : GReg) (b : Bool) : (t.putG k b).path = t.path := rfl
@[simp] theorem Team.putG_parent (t : Team) (k : GReg) (b : Bool) : (t.putG k b).parent = t.parent := rfl
@[simp] theorem Team.putG_kids (t : Team) (k : GReg) (b : Bool) : (t.putG k b).kids = t.kids := rfl
@[simp] theorem Team.putG_status (t : Team) (k : GReg) (b : Bool) : (t.putG k b).status = t.status := rfl
@[simp] theorem Team.putG_wait (t : Team) (k : GReg) (b : Bool) : (t.putG k b).wait = t.wait := rfl
@[simp] theorem Team.putG_tileWalk (t : Team) (k : GReg) (b : Bool) : (t.putG k b).tileWalk = t.tileWalk := rfl
@[simp] theorem Team.putG_pc (t : Team) (k : GReg) (b : Bool) : (t.putG k b).pc = t.pc := rfl
@[simp] theorem Team.putG_word (t : Team) (k : GReg) (b : Bool) : (t.putG k b).word = t.word := rfl
@[simp] theorem Team.putG_s (t : Team) (k : GReg) (b : Bool) : (t.putG k b).s = t.s := rfl
@[simp] theorem Team.putG_g (t : Team) (k : GReg) (b : Bool) : (t.putG k b).g = setBit t.g k.toNat b := rfl
@[simp] theorem Team.putG_tiles (t : Team) (k : GReg) (b : Bool) : (t.putG k b).tiles = t.tiles := rfl
@[simp] theorem Team.putG_acc (t : Team) (k : GReg) (b : Bool) : (t.putG k b).acc = t.acc := rfl
@[simp] theorem Team.putG_scale (t : Team) (k : GReg) (b : Bool) : (t.putG k b).scale = t.scale := rfl
@[simp] theorem Team.putG_q (t : Team) (k : GReg) (b : Bool) : (t.putG k b).q = t.q := rfl
@[simp] theorem Team.putG_resB (t : Team) (k : GReg) (b : Bool) : (t.putG k b).resB = t.resB := rfl
@[simp] theorem Team.putG_ext (t : Team) (k : GReg) (b : Bool) : (t.putG k b).ext = t.ext := rfl
@[simp] theorem Team.putG_extc (t : Team) (k : GReg) (b : Bool) : (t.putG k b).extc = t.extc := rfl
@[simp] theorem Team.putG_fsr (t : Team) (k : GReg) (b : Bool) : (t.putG k b).fsr = t.fsr := rfl
@[simp] theorem Team.putG_fpst (t : Team) (k : GReg) (b : Bool) : (t.putG k b).fpst = t.fpst := rfl
@[simp] theorem Team.putG_satf (t : Team) (k : GReg) (b : Bool) : (t.putG k b).satf = t.satf := rfl
@[simp] theorem Team.putG_updf (t : Team) (k : GReg) (b : Bool) : (t.putG k b).updf = t.updf := rfl
@[simp] theorem Team.putG_xrow (t : Team) (k : GReg) (b : Bool) : (t.putG k b).xrow = t.xrow := rfl
@[simp] theorem Team.putG_fcrd (t : Team) (k : GReg) (b : Bool) : (t.putG k b).fcrd = t.fcrd := rfl
@[simp] theorem Team.putG_phc (t : Team) (k : GReg) (b : Bool) : (t.putG k b).phc = t.phc := rfl
@[simp] theorem Team.putG_placedAt (t : Team) (k : GReg) (b : Bool) : (t.putG k b).placedAt = t.placedAt := rfl
@[simp] theorem Team.putG_preq (t : Team) (k : GReg) (b : Bool) : (t.putG k b).preq = t.preq := rfl
@[simp] theorem Team.putG_pdlEnd (t : Team) (k : GReg) (b : Bool) : (t.putG k b).pdlEnd = t.pdlEnd := rfl
@[simp] theorem Team.putG_slip (t : Team) (k : GReg) (b : Bool) : (t.putG k b).slip = t.slip := rfl
@[simp] theorem Team.putG_split (t : Team) (k : GReg) (b : Bool) : (t.putG k b).split = t.split := rfl
@[simp] theorem Team.putG_part (t : Team) (k : GReg) (b : Bool) : (t.putG k b).part = t.part := rfl
@[simp] theorem Team.putG_lfsr (t : Team) (k : GReg) (b : Bool) : (t.putG k b).lfsr = t.lfsr := rfl
@[simp] theorem Team.putG_fresh (t : Team) (k : GReg) (b : Bool) : (t.putG k b).fresh = t.fresh := rfl
@[simp] theorem Team.putG_lft (t : Team) (k : GReg) (b : Bool) : (t.putG k b).lft = t.lft := rfl
@[simp] theorem Team.putG_sys (t : Team) (k : GReg) (b : Bool) : (t.putG k b).sys = t.sys := rfl
@[simp] theorem Team.putG_deque (t : Team) (k : GReg) (b : Bool) : (t.putG k b).deque = t.deque := rfl
@[simp] theorem Team.putG_wordSeq (t : Team) (k : GReg) (b : Bool) : (t.putG k b).wordSeq = t.wordSeq := rfl
@[simp] theorem Team.putG_tiq (t : Team) (k : GReg) (b : Bool) : (t.putG k b).tiq = t.tiq := rfl
@[simp] theorem Team.putG_bq (t : Team) (k : GReg) (b : Bool) : (t.putG k b).bq = t.bq := rfl
@[simp] theorem Team.putG_credits (t : Team) (k : GReg) (b : Bool) : (t.putG k b).credits = t.credits := rfl
@[simp] theorem Team.putG_copies (t : Team) (k : GReg) (b : Bool) : (t.putG k b).copies = t.copies := rfl
@[simp] theorem Team.putG_broken (t : Team) (k : GReg) (b : Bool) : (t.putG k b).broken = t.broken := rfl
@[simp] theorem Team.putG_sbuf (t : Team) (k : GReg) (b : Bool) : (t.putG k b).sbuf = t.sbuf := rfl
@[simp] theorem Team.putG_updq (t : Team) (k : GReg) (b : Bool) : (t.putG k b).updq = t.updq := rfl
@[simp] theorem Team.putG_updSeq (t : Team) (k : GReg) (b : Bool) : (t.putG k b).updSeq = t.updSeq := rfl
@[simp] theorem Team.putG_hist (t : Team) (k : GReg) (b : Bool) : (t.putG k b).hist = t.hist := rfl
@[simp] theorem Team.putG_late (t : Team) (k : GReg) (b : Bool) : (t.putG k b).late = t.late := rfl
@[simp] theorem Team.putG_heldFault (t : Team) (k : GReg) (b : Bool) : (t.putG k b).heldFault = t.heldFault := rfl
@[simp] theorem Team.putG_pairing (t : Team) (k : GReg) (b : Bool) : (t.putG k b).pairing = t.pairing := rfl
@[simp] theorem Team.putG_views (t : Team) (k : GReg) (b : Bool) : (t.putG k b).views = t.views := rfl
@[simp] theorem Team.putG_epochs (t : Team) (k : GReg) (b : Bool) : (t.putG k b).epochs = t.epochs := rfl
@[simp] theorem Team.putG_knows (t : Team) (k : GReg) (b : Bool) : (t.putG k b).knows = t.knows := rfl
@[simp] theorem Team.putG_lastPub (t : Team) (k : GReg) (b : Bool) : (t.putG k b).lastPub = t.lastPub := rfl
@[simp] theorem Team.putG_bars (t : Team) (k : GReg) (b : Bool) : (t.putG k b).bars = t.bars := rfl
@[simp] theorem Team.putG_fbars (t : Team) (k : GReg) (b : Bool) : (t.putG k b).fbars = t.fbars := rfl
@[simp] theorem Team.putG_exchs (t : Team) (k : GReg) (b : Bool) : (t.putG k b).exchs = t.exchs := rfl
@[simp] theorem Team.putG_latched (t : Team) (k : GReg) (b : Bool) : (t.putG k b).latched = t.latched := rfl
@[simp] theorem Team.putG_arrivals (t : Team) (k : GReg) (b : Bool) : (t.putG k b).arrivals = t.arrivals := rfl
@[simp] theorem Team.putG_rq (t : Team) (k : GReg) (b : Bool) : (t.putG k b).rq = t.rq := rfl
@[simp] theorem Team.putG_frq (t : Team) (k : GReg) (b : Bool) : (t.putG k b).frq = t.frq := rfl
@[simp] theorem Team.putG_seen (t : Team) (k : GReg) (b : Bool) : (t.putG k b).seen = t.seen := rfl
@[simp] theorem Team.push_uid (t : Team) (v : Word) : (t.push v).uid = t.uid := rfl
@[simp] theorem Team.push_gid (t : Team) (v : Word) : (t.push v).gid = t.gid := rfl
@[simp] theorem Team.push_ctx (t : Team) (v : Word) : (t.push v).ctx = t.ctx := rfl
@[simp] theorem Team.push_launch (t : Team) (v : Word) : (t.push v).launch = t.launch := rfl
@[simp] theorem Team.push_inst (t : Team) (v : Word) : (t.push v).inst = t.inst := rfl
@[simp] theorem Team.push_path (t : Team) (v : Word) : (t.push v).path = t.path := rfl
@[simp] theorem Team.push_parent (t : Team) (v : Word) : (t.push v).parent = t.parent := rfl
@[simp] theorem Team.push_kids (t : Team) (v : Word) : (t.push v).kids = t.kids := rfl
@[simp] theorem Team.push_status (t : Team) (v : Word) : (t.push v).status = t.status := rfl
@[simp] theorem Team.push_wait (t : Team) (v : Word) : (t.push v).wait = t.wait := rfl
@[simp] theorem Team.push_tileWalk (t : Team) (v : Word) : (t.push v).tileWalk = t.tileWalk := rfl
@[simp] theorem Team.push_pc (t : Team) (v : Word) : (t.push v).pc = t.pc := rfl
@[simp] theorem Team.push_word (t : Team) (v : Word) : (t.push v).word = t.word := rfl
@[simp] theorem Team.push_s (t : Team) (v : Word) : (t.push v).s = t.s := rfl
@[simp] theorem Team.push_g (t : Team) (v : Word) : (t.push v).g = t.g := rfl
@[simp] theorem Team.push_tiles (t : Team) (v : Word) : (t.push v).tiles = t.tiles := rfl
@[simp] theorem Team.push_acc (t : Team) (v : Word) : (t.push v).acc = t.acc := rfl
@[simp] theorem Team.push_scale (t : Team) (v : Word) : (t.push v).scale = t.scale := rfl
@[simp] theorem Team.push_q (t : Team) (v : Word) : (t.push v).q = t.q := rfl
@[simp] theorem Team.push_resB (t : Team) (v : Word) : (t.push v).resB = t.resB := rfl
@[simp] theorem Team.push_ext (t : Team) (v : Word) : (t.push v).ext = t.ext := rfl
@[simp] theorem Team.push_extc (t : Team) (v : Word) : (t.push v).extc = t.extc := rfl
@[simp] theorem Team.push_fsr (t : Team) (v : Word) : (t.push v).fsr = t.fsr := rfl
@[simp] theorem Team.push_fpst (t : Team) (v : Word) : (t.push v).fpst = t.fpst := rfl
@[simp] theorem Team.push_satf (t : Team) (v : Word) : (t.push v).satf = t.satf := rfl
@[simp] theorem Team.push_updf (t : Team) (v : Word) : (t.push v).updf = t.updf := rfl
@[simp] theorem Team.push_xrow (t : Team) (v : Word) : (t.push v).xrow = t.xrow := rfl
@[simp] theorem Team.push_fcrd (t : Team) (v : Word) : (t.push v).fcrd = t.fcrd := rfl
@[simp] theorem Team.push_phc (t : Team) (v : Word) : (t.push v).phc = t.phc := rfl
@[simp] theorem Team.push_placedAt (t : Team) (v : Word) : (t.push v).placedAt = t.placedAt := rfl
@[simp] theorem Team.push_preq (t : Team) (v : Word) : (t.push v).preq = t.preq := rfl
@[simp] theorem Team.push_pdlEnd (t : Team) (v : Word) : (t.push v).pdlEnd = t.pdlEnd := rfl
@[simp] theorem Team.push_slip (t : Team) (v : Word) : (t.push v).slip = t.slip := rfl
@[simp] theorem Team.push_split (t : Team) (v : Word) : (t.push v).split = t.split := rfl
@[simp] theorem Team.push_part (t : Team) (v : Word) : (t.push v).part = t.part := rfl
@[simp] theorem Team.push_lfsr (t : Team) (v : Word) : (t.push v).lfsr = t.lfsr := rfl
@[simp] theorem Team.push_fresh (t : Team) (v : Word) : (t.push v).fresh = t.fresh := rfl
@[simp] theorem Team.push_lft (t : Team) (v : Word) : (t.push v).lft = t.lft := rfl
@[simp] theorem Team.push_sys (t : Team) (v : Word) : (t.push v).sys = t.sys := rfl
@[simp] theorem Team.push_deque (t : Team) (v : Word) : (t.push v).deque = t.deque := rfl
@[simp] theorem Team.push_wordSeq (t : Team) (v : Word) : (t.push v).wordSeq = t.wordSeq := rfl
@[simp] theorem Team.push_tiq (t : Team) (v : Word) : (t.push v).tiq = t.tiq := rfl
@[simp] theorem Team.push_bq (t : Team) (v : Word) : (t.push v).bq = t.bq ++ [v] := rfl
@[simp] theorem Team.push_credits (t : Team) (v : Word) : (t.push v).credits = t.credits := rfl
@[simp] theorem Team.push_copies (t : Team) (v : Word) : (t.push v).copies = t.copies := rfl
@[simp] theorem Team.push_broken (t : Team) (v : Word) : (t.push v).broken = t.broken := rfl
@[simp] theorem Team.push_sbuf (t : Team) (v : Word) : (t.push v).sbuf = t.sbuf := rfl
@[simp] theorem Team.push_updq (t : Team) (v : Word) : (t.push v).updq = t.updq := rfl
@[simp] theorem Team.push_updSeq (t : Team) (v : Word) : (t.push v).updSeq = t.updSeq := rfl
@[simp] theorem Team.push_hist (t : Team) (v : Word) : (t.push v).hist = t.hist := rfl
@[simp] theorem Team.push_late (t : Team) (v : Word) : (t.push v).late = t.late := rfl
@[simp] theorem Team.push_heldFault (t : Team) (v : Word) : (t.push v).heldFault = t.heldFault := rfl
@[simp] theorem Team.push_pairing (t : Team) (v : Word) : (t.push v).pairing = t.pairing := rfl
@[simp] theorem Team.push_views (t : Team) (v : Word) : (t.push v).views = t.views := rfl
@[simp] theorem Team.push_epochs (t : Team) (v : Word) : (t.push v).epochs = t.epochs := rfl
@[simp] theorem Team.push_knows (t : Team) (v : Word) : (t.push v).knows = t.knows := rfl
@[simp] theorem Team.push_lastPub (t : Team) (v : Word) : (t.push v).lastPub = t.lastPub := rfl
@[simp] theorem Team.push_bars (t : Team) (v : Word) : (t.push v).bars = t.bars := rfl
@[simp] theorem Team.push_fbars (t : Team) (v : Word) : (t.push v).fbars = t.fbars := rfl
@[simp] theorem Team.push_exchs (t : Team) (v : Word) : (t.push v).exchs = t.exchs := rfl
@[simp] theorem Team.push_latched (t : Team) (v : Word) : (t.push v).latched = t.latched := rfl
@[simp] theorem Team.push_arrivals (t : Team) (v : Word) : (t.push v).arrivals = t.arrivals := rfl
@[simp] theorem Team.push_rq (t : Team) (v : Word) : (t.push v).rq = t.rq := rfl
@[simp] theorem Team.push_frq (t : Team) (v : Word) : (t.push v).frq = t.frq := rfl
@[simp] theorem Team.push_seen (t : Team) (v : Word) : (t.push v).seen = t.seen := rfl
@[simp] theorem Team.setView_uid (t : Team) (p : Path) (v : List Nat) : (t.setView p v).uid = t.uid := rfl
@[simp] theorem Team.setView_gid (t : Team) (p : Path) (v : List Nat) : (t.setView p v).gid = t.gid := rfl
@[simp] theorem Team.setView_ctx (t : Team) (p : Path) (v : List Nat) : (t.setView p v).ctx = t.ctx := rfl
@[simp] theorem Team.setView_launch (t : Team) (p : Path) (v : List Nat) : (t.setView p v).launch = t.launch := rfl
@[simp] theorem Team.setView_inst (t : Team) (p : Path) (v : List Nat) : (t.setView p v).inst = t.inst := rfl
@[simp] theorem Team.setView_path (t : Team) (p : Path) (v : List Nat) : (t.setView p v).path = t.path := rfl
@[simp] theorem Team.setView_parent (t : Team) (p : Path) (v : List Nat) : (t.setView p v).parent = t.parent := rfl
@[simp] theorem Team.setView_kids (t : Team) (p : Path) (v : List Nat) : (t.setView p v).kids = t.kids := rfl
@[simp] theorem Team.setView_status (t : Team) (p : Path) (v : List Nat) : (t.setView p v).status = t.status := rfl
@[simp] theorem Team.setView_wait (t : Team) (p : Path) (v : List Nat) : (t.setView p v).wait = t.wait := rfl
@[simp] theorem Team.setView_tileWalk (t : Team) (p : Path) (v : List Nat) : (t.setView p v).tileWalk = t.tileWalk := rfl
@[simp] theorem Team.setView_pc (t : Team) (p : Path) (v : List Nat) : (t.setView p v).pc = t.pc := rfl
@[simp] theorem Team.setView_word (t : Team) (p : Path) (v : List Nat) : (t.setView p v).word = t.word := rfl
@[simp] theorem Team.setView_s (t : Team) (p : Path) (v : List Nat) : (t.setView p v).s = t.s := rfl
@[simp] theorem Team.setView_g (t : Team) (p : Path) (v : List Nat) : (t.setView p v).g = t.g := rfl
@[simp] theorem Team.setView_tiles (t : Team) (p : Path) (v : List Nat) : (t.setView p v).tiles = t.tiles := rfl
@[simp] theorem Team.setView_acc (t : Team) (p : Path) (v : List Nat) : (t.setView p v).acc = t.acc := rfl
@[simp] theorem Team.setView_scale (t : Team) (p : Path) (v : List Nat) : (t.setView p v).scale = t.scale := rfl
@[simp] theorem Team.setView_q (t : Team) (p : Path) (v : List Nat) : (t.setView p v).q = t.q := rfl
@[simp] theorem Team.setView_resB (t : Team) (p : Path) (v : List Nat) : (t.setView p v).resB = t.resB := rfl
@[simp] theorem Team.setView_ext (t : Team) (p : Path) (v : List Nat) : (t.setView p v).ext = t.ext := rfl
@[simp] theorem Team.setView_extc (t : Team) (p : Path) (v : List Nat) : (t.setView p v).extc = t.extc := rfl
@[simp] theorem Team.setView_fsr (t : Team) (p : Path) (v : List Nat) : (t.setView p v).fsr = t.fsr := rfl
@[simp] theorem Team.setView_fpst (t : Team) (p : Path) (v : List Nat) : (t.setView p v).fpst = t.fpst := rfl
@[simp] theorem Team.setView_satf (t : Team) (p : Path) (v : List Nat) : (t.setView p v).satf = t.satf := rfl
@[simp] theorem Team.setView_updf (t : Team) (p : Path) (v : List Nat) : (t.setView p v).updf = t.updf := rfl
@[simp] theorem Team.setView_xrow (t : Team) (p : Path) (v : List Nat) : (t.setView p v).xrow = t.xrow := rfl
@[simp] theorem Team.setView_fcrd (t : Team) (p : Path) (v : List Nat) : (t.setView p v).fcrd = t.fcrd := rfl
@[simp] theorem Team.setView_phc (t : Team) (p : Path) (v : List Nat) : (t.setView p v).phc = t.phc := rfl
@[simp] theorem Team.setView_placedAt (t : Team) (p : Path) (v : List Nat) : (t.setView p v).placedAt = t.placedAt := rfl
@[simp] theorem Team.setView_preq (t : Team) (p : Path) (v : List Nat) : (t.setView p v).preq = t.preq := rfl
@[simp] theorem Team.setView_pdlEnd (t : Team) (p : Path) (v : List Nat) : (t.setView p v).pdlEnd = t.pdlEnd := rfl
@[simp] theorem Team.setView_slip (t : Team) (p : Path) (v : List Nat) : (t.setView p v).slip = t.slip := rfl
@[simp] theorem Team.setView_split (t : Team) (p : Path) (v : List Nat) : (t.setView p v).split = t.split := rfl
@[simp] theorem Team.setView_part (t : Team) (p : Path) (v : List Nat) : (t.setView p v).part = t.part := rfl
@[simp] theorem Team.setView_lfsr (t : Team) (p : Path) (v : List Nat) : (t.setView p v).lfsr = t.lfsr := rfl
@[simp] theorem Team.setView_fresh (t : Team) (p : Path) (v : List Nat) : (t.setView p v).fresh = t.fresh := rfl
@[simp] theorem Team.setView_lft (t : Team) (p : Path) (v : List Nat) : (t.setView p v).lft = t.lft := rfl
@[simp] theorem Team.setView_sys (t : Team) (p : Path) (v : List Nat) : (t.setView p v).sys = t.sys := rfl
@[simp] theorem Team.setView_deque (t : Team) (p : Path) (v : List Nat) : (t.setView p v).deque = t.deque := rfl
@[simp] theorem Team.setView_wordSeq (t : Team) (p : Path) (v : List Nat) : (t.setView p v).wordSeq = t.wordSeq := rfl
@[simp] theorem Team.setView_tiq (t : Team) (p : Path) (v : List Nat) : (t.setView p v).tiq = t.tiq := rfl
@[simp] theorem Team.setView_bq (t : Team) (p : Path) (v : List Nat) : (t.setView p v).bq = t.bq := rfl
@[simp] theorem Team.setView_credits (t : Team) (p : Path) (v : List Nat) : (t.setView p v).credits = t.credits := rfl
@[simp] theorem Team.setView_copies (t : Team) (p : Path) (v : List Nat) : (t.setView p v).copies = t.copies := rfl
@[simp] theorem Team.setView_broken (t : Team) (p : Path) (v : List Nat) : (t.setView p v).broken = t.broken := rfl
@[simp] theorem Team.setView_sbuf (t : Team) (p : Path) (v : List Nat) : (t.setView p v).sbuf = t.sbuf := rfl
@[simp] theorem Team.setView_updq (t : Team) (p : Path) (v : List Nat) : (t.setView p v).updq = t.updq := rfl
@[simp] theorem Team.setView_updSeq (t : Team) (p : Path) (v : List Nat) : (t.setView p v).updSeq = t.updSeq := rfl
@[simp] theorem Team.setView_hist (t : Team) (p : Path) (v : List Nat) : (t.setView p v).hist = t.hist := rfl
@[simp] theorem Team.setView_late (t : Team) (p : Path) (v : List Nat) : (t.setView p v).late = t.late := rfl
@[simp] theorem Team.setView_heldFault (t : Team) (p : Path) (v : List Nat) : (t.setView p v).heldFault = t.heldFault := rfl
@[simp] theorem Team.setView_pairing (t : Team) (p : Path) (v : List Nat) : (t.setView p v).pairing = t.pairing := rfl
@[simp] theorem Team.setView_views (t : Team) (p : Path) (v : List Nat) : (t.setView p v).views = t.views.set p.view v := rfl
@[simp] theorem Team.setView_epochs (t : Team) (p : Path) (v : List Nat) : (t.setView p v).epochs = t.epochs := rfl
@[simp] theorem Team.setView_knows (t : Team) (p : Path) (v : List Nat) : (t.setView p v).knows = t.knows := rfl
@[simp] theorem Team.setView_lastPub (t : Team) (p : Path) (v : List Nat) : (t.setView p v).lastPub = t.lastPub := rfl
@[simp] theorem Team.setView_bars (t : Team) (p : Path) (v : List Nat) : (t.setView p v).bars = t.bars := rfl
@[simp] theorem Team.setView_fbars (t : Team) (p : Path) (v : List Nat) : (t.setView p v).fbars = t.fbars := rfl
@[simp] theorem Team.setView_exchs (t : Team) (p : Path) (v : List Nat) : (t.setView p v).exchs = t.exchs := rfl
@[simp] theorem Team.setView_latched (t : Team) (p : Path) (v : List Nat) : (t.setView p v).latched = t.latched := rfl
@[simp] theorem Team.setView_arrivals (t : Team) (p : Path) (v : List Nat) : (t.setView p v).arrivals = t.arrivals := rfl
@[simp] theorem Team.setView_rq (t : Team) (p : Path) (v : List Nat) : (t.setView p v).rq = t.rq := rfl
@[simp] theorem Team.setView_frq (t : Team) (p : Path) (v : List Nat) : (t.setView p v).frq = t.frq := rfl
@[simp] theorem Team.setView_seen (t : Team) (p : Path) (v : List Nat) : (t.setView p v).seen = t.seen := rfl

/-! ### The machine -/

@[simp] theorem State.putTeam_now (s : State) (t : Team) : (s.putTeam t).now = s.now := rfl
@[simp] theorem State.putTeam_free (s : State) (t : Team) : (s.putTeam t).free = s.free := rfl
@[simp] theorem State.putTeam_nextId (s : State) (t : Team) : (s.putTeam t).nextId = s.nextId := rfl
@[simp] theorem State.putTeam_teams (s : State) (t : Team) : (s.putTeam t).teams = s.teams.map (fun u => if u.uid == t.uid then t else u) := rfl
@[simp] theorem State.putTeam_saved (s : State) (t : Team) : (s.putTeam t).saved = s.saved := rfl
@[simp] theorem State.putTeam_cur (s : State) (t : Team) : (s.putTeam t).cur = s.cur := rfl
@[simp] theorem State.putTeam_ahead (s : State) (t : Team) : (s.putTeam t).ahead = s.ahead := rfl
@[simp] theorem State.putTeam_agenda (s : State) (t : Team) : (s.putTeam t).agenda = s.agenda := rfl
@[simp] theorem State.putTeam_launches (s : State) (t : Team) : (s.putTeam t).launches = s.launches := rfl
@[simp] theorem State.putTeam_pkgs (s : State) (t : Team) : (s.putTeam t).pkgs = s.pkgs := rfl
@[simp] theorem State.putTeam_mem (s : State) (t : Team) : (s.putTeam t).mem = s.mem := rfl
@[simp] theorem State.putTeam_writes (s : State) (t : Team) : (s.putTeam t).writes = s.writes := rfl
@[simp] theorem State.putTeam_pubs (s : State) (t : Team) : (s.putTeam t).pubs = s.pubs := rfl
@[simp] theorem State.putTeam_exchanges (s : State) (t : Team) : (s.putTeam t).exchanges = s.exchanges := rfl
@[simp] theorem State.putTeam_hostView (s : State) (t : Team) : (s.putTeam t).hostView = s.hostView := rfl
@[simp] theorem State.putTeam_bad (s : State) (t : Team) : (s.putTeam t).bad = s.bad := rfl
@[simp] theorem State.modTeam_now (s : State) (uid : Nat) (f : Team → Team) : (s.modTeam uid f).now = s.now := rfl
@[simp] theorem State.modTeam_free (s : State) (uid : Nat) (f : Team → Team) : (s.modTeam uid f).free = s.free := rfl
@[simp] theorem State.modTeam_nextId (s : State) (uid : Nat) (f : Team → Team) : (s.modTeam uid f).nextId = s.nextId := rfl
@[simp] theorem State.modTeam_teams (s : State) (uid : Nat) (f : Team → Team) : (s.modTeam uid f).teams = s.teams.map (fun u => if u.uid == uid then f u else u) := rfl
@[simp] theorem State.modTeam_saved (s : State) (uid : Nat) (f : Team → Team) : (s.modTeam uid f).saved = s.saved := rfl
@[simp] theorem State.modTeam_cur (s : State) (uid : Nat) (f : Team → Team) : (s.modTeam uid f).cur = s.cur := rfl
@[simp] theorem State.modTeam_ahead (s : State) (uid : Nat) (f : Team → Team) : (s.modTeam uid f).ahead = s.ahead := rfl
@[simp] theorem State.modTeam_agenda (s : State) (uid : Nat) (f : Team → Team) : (s.modTeam uid f).agenda = s.agenda := rfl
@[simp] theorem State.modTeam_launches (s : State) (uid : Nat) (f : Team → Team) : (s.modTeam uid f).launches = s.launches := rfl
@[simp] theorem State.modTeam_pkgs (s : State) (uid : Nat) (f : Team → Team) : (s.modTeam uid f).pkgs = s.pkgs := rfl
@[simp] theorem State.modTeam_mem (s : State) (uid : Nat) (f : Team → Team) : (s.modTeam uid f).mem = s.mem := rfl
@[simp] theorem State.modTeam_writes (s : State) (uid : Nat) (f : Team → Team) : (s.modTeam uid f).writes = s.writes := rfl
@[simp] theorem State.modTeam_pubs (s : State) (uid : Nat) (f : Team → Team) : (s.modTeam uid f).pubs = s.pubs := rfl
@[simp] theorem State.modTeam_exchanges (s : State) (uid : Nat) (f : Team → Team) : (s.modTeam uid f).exchanges = s.exchanges := rfl
@[simp] theorem State.modTeam_hostView (s : State) (uid : Nat) (f : Team → Team) : (s.modTeam uid f).hostView = s.hostView := rfl
@[simp] theorem State.modTeam_bad (s : State) (uid : Nat) (f : Team → Team) : (s.modTeam uid f).bad = s.bad := rfl
@[simp] theorem State.dropTeam_now (s : State) (uid : Nat) : (s.dropTeam uid).now = s.now := rfl
@[simp] theorem State.dropTeam_free (s : State) (uid : Nat) : (s.dropTeam uid).free = s.free := rfl
@[simp] theorem State.dropTeam_nextId (s : State) (uid : Nat) : (s.dropTeam uid).nextId = s.nextId := rfl
@[simp] theorem State.dropTeam_teams (s : State) (uid : Nat) : (s.dropTeam uid).teams = s.teams.filter (fun u => u.uid != uid) := rfl
@[simp] theorem State.dropTeam_saved (s : State) (uid : Nat) : (s.dropTeam uid).saved = s.saved := rfl
@[simp] theorem State.dropTeam_cur (s : State) (uid : Nat) : (s.dropTeam uid).cur = s.cur := rfl
@[simp] theorem State.dropTeam_ahead (s : State) (uid : Nat) : (s.dropTeam uid).ahead = s.ahead := rfl
@[simp] theorem State.dropTeam_agenda (s : State) (uid : Nat) : (s.dropTeam uid).agenda = s.agenda := rfl
@[simp] theorem State.dropTeam_launches (s : State) (uid : Nat) : (s.dropTeam uid).launches = s.launches := rfl
@[simp] theorem State.dropTeam_pkgs (s : State) (uid : Nat) : (s.dropTeam uid).pkgs = s.pkgs := rfl
@[simp] theorem State.dropTeam_mem (s : State) (uid : Nat) : (s.dropTeam uid).mem = s.mem := rfl
@[simp] theorem State.dropTeam_writes (s : State) (uid : Nat) : (s.dropTeam uid).writes = s.writes := rfl
@[simp] theorem State.dropTeam_pubs (s : State) (uid : Nat) : (s.dropTeam uid).pubs = s.pubs := rfl
@[simp] theorem State.dropTeam_exchanges (s : State) (uid : Nat) : (s.dropTeam uid).exchanges = s.exchanges := rfl
@[simp] theorem State.dropTeam_hostView (s : State) (uid : Nat) : (s.dropTeam uid).hostView = s.hostView := rfl
@[simp] theorem State.dropTeam_bad (s : State) (uid : Nat) : (s.dropTeam uid).bad = s.bad := rfl
@[simp] theorem State.advance_now (s : State) (uid n : Nat) : (s.advance uid n).now = s.now := rfl
@[simp] theorem State.advance_free (s : State) (uid n : Nat) : (s.advance uid n).free = s.free := rfl
@[simp] theorem State.advance_nextId (s : State) (uid n : Nat) : (s.advance uid n).nextId = s.nextId := rfl
@[simp] theorem State.advance_saved (s : State) (uid n : Nat) : (s.advance uid n).saved = s.saved := rfl
@[simp] theorem State.advance_cur (s : State) (uid n : Nat) : (s.advance uid n).cur = s.cur := rfl
@[simp] theorem State.advance_ahead (s : State) (uid n : Nat) : (s.advance uid n).ahead = s.ahead := rfl
@[simp] theorem State.advance_agenda (s : State) (uid n : Nat) : (s.advance uid n).agenda = s.agenda := rfl
@[simp] theorem State.advance_launches (s : State) (uid n : Nat) : (s.advance uid n).launches = s.launches := rfl
@[simp] theorem State.advance_pkgs (s : State) (uid n : Nat) : (s.advance uid n).pkgs = s.pkgs := rfl
@[simp] theorem State.advance_mem (s : State) (uid n : Nat) : (s.advance uid n).mem = s.mem := rfl
@[simp] theorem State.advance_writes (s : State) (uid n : Nat) : (s.advance uid n).writes = s.writes := rfl
@[simp] theorem State.advance_pubs (s : State) (uid n : Nat) : (s.advance uid n).pubs = s.pubs := rfl
@[simp] theorem State.advance_exchanges (s : State) (uid n : Nat) : (s.advance uid n).exchanges = s.exchanges := rfl
@[simp] theorem State.advance_hostView (s : State) (uid n : Nat) : (s.advance uid n).hostView = s.hostView := rfl
@[simp] theorem State.advance_bad (s : State) (uid n : Nat) : (s.advance uid n).bad = s.bad := rfl
@[simp] theorem State.putPkg_now (s : State) (p : PkgNo) (x : Pkg) : (s.putPkg p x).now = s.now := rfl
@[simp] theorem State.putPkg_free (s : State) (p : PkgNo) (x : Pkg) : (s.putPkg p x).free = s.free := rfl
@[simp] theorem State.putPkg_nextId (s : State) (p : PkgNo) (x : Pkg) : (s.putPkg p x).nextId = s.nextId := rfl
@[simp] theorem State.putPkg_teams (s : State) (p : PkgNo) (x : Pkg) : (s.putPkg p x).teams = s.teams := rfl
@[simp] theorem State.putPkg_saved (s : State) (p : PkgNo) (x : Pkg) : (s.putPkg p x).saved = s.saved := rfl
@[simp] theorem State.putPkg_cur (s : State) (p : PkgNo) (x : Pkg) : (s.putPkg p x).cur = s.cur := rfl
@[simp] theorem State.putPkg_ahead (s : State) (p : PkgNo) (x : Pkg) : (s.putPkg p x).ahead = s.ahead := rfl
@[simp] theorem State.putPkg_agenda (s : State) (p : PkgNo) (x : Pkg) : (s.putPkg p x).agenda = s.agenda := rfl
@[simp] theorem State.putPkg_launches (s : State) (p : PkgNo) (x : Pkg) : (s.putPkg p x).launches = s.launches := rfl
@[simp] theorem State.putPkg_pkgs (s : State) (p : PkgNo) (x : Pkg) : (s.putPkg p x).pkgs = kput s.pkgs p.toNat x := rfl
@[simp] theorem State.putPkg_mem (s : State) (p : PkgNo) (x : Pkg) : (s.putPkg p x).mem = s.mem := rfl
@[simp] theorem State.putPkg_writes (s : State) (p : PkgNo) (x : Pkg) : (s.putPkg p x).writes = s.writes := rfl
@[simp] theorem State.putPkg_pubs (s : State) (p : PkgNo) (x : Pkg) : (s.putPkg p x).pubs = s.pubs := rfl
@[simp] theorem State.putPkg_exchanges (s : State) (p : PkgNo) (x : Pkg) : (s.putPkg p x).exchanges = s.exchanges := rfl
@[simp] theorem State.putPkg_hostView (s : State) (p : PkgNo) (x : Pkg) : (s.putPkg p x).hostView = s.hostView := rfl
@[simp] theorem State.putPkg_bad (s : State) (p : PkgNo) (x : Pkg) : (s.putPkg p x).bad = s.bad := rfl
@[simp] theorem State.modPkg_now (s : State) (p : PkgNo) (f : Pkg → Pkg) : (s.modPkg p f).now = s.now := rfl
@[simp] theorem State.modPkg_free (s : State) (p : PkgNo) (f : Pkg → Pkg) : (s.modPkg p f).free = s.free := rfl
@[simp] theorem State.modPkg_nextId (s : State) (p : PkgNo) (f : Pkg → Pkg) : (s.modPkg p f).nextId = s.nextId := rfl
@[simp] theorem State.modPkg_teams (s : State) (p : PkgNo) (f : Pkg → Pkg) : (s.modPkg p f).teams = s.teams := rfl
@[simp] theorem State.modPkg_saved (s : State) (p : PkgNo) (f : Pkg → Pkg) : (s.modPkg p f).saved = s.saved := rfl
@[simp] theorem State.modPkg_cur (s : State) (p : PkgNo) (f : Pkg → Pkg) : (s.modPkg p f).cur = s.cur := rfl
@[simp] theorem State.modPkg_ahead (s : State) (p : PkgNo) (f : Pkg → Pkg) : (s.modPkg p f).ahead = s.ahead := rfl
@[simp] theorem State.modPkg_agenda (s : State) (p : PkgNo) (f : Pkg → Pkg) : (s.modPkg p f).agenda = s.agenda := rfl
@[simp] theorem State.modPkg_launches (s : State) (p : PkgNo) (f : Pkg → Pkg) : (s.modPkg p f).launches = s.launches := rfl
@[simp] theorem State.modPkg_pkgs (s : State) (p : PkgNo) (f : Pkg → Pkg) : (s.modPkg p f).pkgs = kput s.pkgs p.toNat (f (s.pkg p)) := rfl
@[simp] theorem State.modPkg_mem (s : State) (p : PkgNo) (f : Pkg → Pkg) : (s.modPkg p f).mem = s.mem := rfl
@[simp] theorem State.modPkg_writes (s : State) (p : PkgNo) (f : Pkg → Pkg) : (s.modPkg p f).writes = s.writes := rfl
@[simp] theorem State.modPkg_pubs (s : State) (p : PkgNo) (f : Pkg → Pkg) : (s.modPkg p f).pubs = s.pubs := rfl
@[simp] theorem State.modPkg_exchanges (s : State) (p : PkgNo) (f : Pkg → Pkg) : (s.modPkg p f).exchanges = s.exchanges := rfl
@[simp] theorem State.modPkg_hostView (s : State) (p : PkgNo) (f : Pkg → Pkg) : (s.modPkg p f).hostView = s.hostView := rfl
@[simp] theorem State.modPkg_bad (s : State) (p : PkgNo) (f : Pkg → Pkg) : (s.modPkg p f).bad = s.bad := rfl
@[simp] theorem State.putCtx_now (s : State) (p : PkgNo) (x : Ctx) : (s.putCtx p x).now = s.now := rfl
@[simp] theorem State.putCtx_free (s : State) (p : PkgNo) (x : Ctx) : (s.putCtx p x).free = s.free := rfl
@[simp] theorem State.putCtx_nextId (s : State) (p : PkgNo) (x : Ctx) : (s.putCtx p x).nextId = s.nextId := rfl
@[simp] theorem State.putCtx_teams (s : State) (p : PkgNo) (x : Ctx) : (s.putCtx p x).teams = s.teams := rfl
@[simp] theorem State.putCtx_saved (s : State) (p : PkgNo) (x : Ctx) : (s.putCtx p x).saved = s.saved := rfl
@[simp] theorem State.putCtx_cur (s : State) (p : PkgNo) (x : Ctx) : (s.putCtx p x).cur = s.cur := rfl
@[simp] theorem State.putCtx_ahead (s : State) (p : PkgNo) (x : Ctx) : (s.putCtx p x).ahead = s.ahead := rfl
@[simp] theorem State.putCtx_agenda (s : State) (p : PkgNo) (x : Ctx) : (s.putCtx p x).agenda = s.agenda := rfl
@[simp] theorem State.putCtx_launches (s : State) (p : PkgNo) (x : Ctx) : (s.putCtx p x).launches = s.launches := rfl
@[simp] theorem State.putCtx_mem (s : State) (p : PkgNo) (x : Ctx) : (s.putCtx p x).mem = s.mem := rfl
@[simp] theorem State.putCtx_writes (s : State) (p : PkgNo) (x : Ctx) : (s.putCtx p x).writes = s.writes := rfl
@[simp] theorem State.putCtx_pubs (s : State) (p : PkgNo) (x : Ctx) : (s.putCtx p x).pubs = s.pubs := rfl
@[simp] theorem State.putCtx_exchanges (s : State) (p : PkgNo) (x : Ctx) : (s.putCtx p x).exchanges = s.exchanges := rfl
@[simp] theorem State.putCtx_hostView (s : State) (p : PkgNo) (x : Ctx) : (s.putCtx p x).hostView = s.hostView := rfl
@[simp] theorem State.putCtx_bad (s : State) (p : PkgNo) (x : Ctx) : (s.putCtx p x).bad = s.bad := rfl
@[simp] theorem State.modCtx_now (s : State) (p : PkgNo) (c : CtxId) (f : Ctx → Ctx) : (s.modCtx p c f).now = s.now := by unfold State.modCtx; split <;> rfl
@[simp] theorem State.modCtx_free (s : State) (p : PkgNo) (c : CtxId) (f : Ctx → Ctx) : (s.modCtx p c f).free = s.free := by unfold State.modCtx; split <;> rfl
@[simp] theorem State.modCtx_nextId (s : State) (p : PkgNo) (c : CtxId) (f : Ctx → Ctx) : (s.modCtx p c f).nextId = s.nextId := by unfold State.modCtx; split <;> rfl
@[simp] theorem State.modCtx_teams (s : State) (p : PkgNo) (c : CtxId) (f : Ctx → Ctx) : (s.modCtx p c f).teams = s.teams := by unfold State.modCtx; split <;> rfl
@[simp] theorem State.modCtx_saved (s : State) (p : PkgNo) (c : CtxId) (f : Ctx → Ctx) : (s.modCtx p c f).saved = s.saved := by unfold State.modCtx; split <;> rfl
@[simp] theorem State.modCtx_cur (s : State) (p : PkgNo) (c : CtxId) (f : Ctx → Ctx) : (s.modCtx p c f).cur = s.cur := by unfold State.modCtx; split <;> rfl
@[simp] theorem State.modCtx_ahead (s : State) (p : PkgNo) (c : CtxId) (f : Ctx → Ctx) : (s.modCtx p c f).ahead = s.ahead := by unfold State.modCtx; split <;> rfl
@[simp] theorem State.modCtx_agenda (s : State) (p : PkgNo) (c : CtxId) (f : Ctx → Ctx) : (s.modCtx p c f).agenda = s.agenda := by unfold State.modCtx; split <;> rfl
@[simp] theorem State.modCtx_launches (s : State) (p : PkgNo) (c : CtxId) (f : Ctx → Ctx) : (s.modCtx p c f).launches = s.launches := by unfold State.modCtx; split <;> rfl
@[simp] theorem State.modCtx_mem (s : State) (p : PkgNo) (c : CtxId) (f : Ctx → Ctx) : (s.modCtx p c f).mem = s.mem := by unfold State.modCtx; split <;> rfl
@[simp] theorem State.modCtx_writes (s : State) (p : PkgNo) (c : CtxId) (f : Ctx → Ctx) : (s.modCtx p c f).writes = s.writes := by unfold State.modCtx; split <;> rfl
@[simp] theorem State.modCtx_pubs (s : State) (p : PkgNo) (c : CtxId) (f : Ctx → Ctx) : (s.modCtx p c f).pubs = s.pubs := by unfold State.modCtx; split <;> rfl
@[simp] theorem State.modCtx_exchanges (s : State) (p : PkgNo) (c : CtxId) (f : Ctx → Ctx) : (s.modCtx p c f).exchanges = s.exchanges := by unfold State.modCtx; split <;> rfl
@[simp] theorem State.modCtx_hostView (s : State) (p : PkgNo) (c : CtxId) (f : Ctx → Ctx) : (s.modCtx p c f).hostView = s.hostView := by unfold State.modCtx; split <;> rfl
@[simp] theorem State.modCtx_bad (s : State) (p : PkgNo) (c : CtxId) (f : Ctx → Ctx) : (s.modCtx p c f).bad = s.bad := by unfold State.modCtx; split <;> rfl
@[simp] theorem State.putLaunch_now (s : State) (l : Launch) : (s.putLaunch l).now = s.now := rfl
@[simp] theorem State.putLaunch_free (s : State) (l : Launch) : (s.putLaunch l).free = s.free := rfl
@[simp] theorem State.putLaunch_nextId (s : State) (l : Launch) : (s.putLaunch l).nextId = s.nextId := rfl
@[simp] theorem State.putLaunch_teams (s : State) (l : Launch) : (s.putLaunch l).teams = s.teams := rfl
@[simp] theorem State.putLaunch_saved (s : State) (l : Launch) : (s.putLaunch l).saved = s.saved := rfl
@[simp] theorem State.putLaunch_cur (s : State) (l : Launch) : (s.putLaunch l).cur = s.cur := rfl
@[simp] theorem State.putLaunch_ahead (s : State) (l : Launch) : (s.putLaunch l).ahead = s.ahead := rfl
@[simp] theorem State.putLaunch_agenda (s : State) (l : Launch) : (s.putLaunch l).agenda = s.agenda := rfl
@[simp] theorem State.putLaunch_launches (s : State) (l : Launch) : (s.putLaunch l).launches = s.launches.map (fun u => if u.id == l.id then l else u) := rfl
@[simp] theorem State.putLaunch_pkgs (s : State) (l : Launch) : (s.putLaunch l).pkgs = s.pkgs := rfl
@[simp] theorem State.putLaunch_mem (s : State) (l : Launch) : (s.putLaunch l).mem = s.mem := rfl
@[simp] theorem State.putLaunch_writes (s : State) (l : Launch) : (s.putLaunch l).writes = s.writes := rfl
@[simp] theorem State.putLaunch_pubs (s : State) (l : Launch) : (s.putLaunch l).pubs = s.pubs := rfl
@[simp] theorem State.putLaunch_exchanges (s : State) (l : Launch) : (s.putLaunch l).exchanges = s.exchanges := rfl
@[simp] theorem State.putLaunch_hostView (s : State) (l : Launch) : (s.putLaunch l).hostView = s.hostView := rfl
@[simp] theorem State.putLaunch_bad (s : State) (l : Launch) : (s.putLaunch l).bad = s.bad := rfl

end Sys2Proof.Machine
end

