-- ==== Sys2Proof/Laws/Inv.lean ====
section
/-!
SUPPORT. What each operation over writes and memory keeps: the canonical form and the names of writes. The relation
`Keeps` composes, so that an instruction's lemma is a chain of the operations that it is made of.
-/

namespace Sys2Proof.Machine

/-- `s'` comes after `s`, and is a good state if `s` is one. -/
def State.Keeps (s s' : State) : Prop := (s.Inv → s'.Inv) ∧ s.nextId ≤ s'.nextId

theorem State.Keeps.refl (s : State) : s.Keeps s := ⟨id, Nat.le_refl _⟩

theorem State.Keeps.trans {a b c : State} (h : a.Keeps b) (k : b.Keeps c) : a.Keeps c :=
  ⟨fun x => k.1 (h.1 x), Nat.le_trans h.2 k.2⟩

/-- An update that leaves memory, writes and the next name alone, or only raises that name. -/
theorem State.Keeps.of_eq {s s' : State} (hm : s'.mem = s.mem) (hw : s'.writes = s.writes) (hn : s.nextId ≤ s'.nextId) :
    s.Keeps s' := by
  refine ⟨?_, hn⟩
  rintro ⟨a, b⟩
  refine ⟨by rw [State.MemOk, hm]; exact a, ?_⟩
  rw [State.WritesFresh, hw]
  exact ⟨b.1, fun w h => ⟨Nat.lt_of_lt_of_le (b.2 w h).1 hn, (b.2 w h).2⟩⟩

/-- An update that only changes memory, and keeps its form. -/
theorem State.Keeps.of_mem {s s' : State} (hm : s.mem.wf = true → s'.mem.wf = true) (hw : s'.writes = s.writes)
    (hn : s.nextId ≤ s'.nextId) : s.Keeps s' := by
  refine ⟨?_, hn⟩
  rintro ⟨a, b⟩
  refine ⟨hm a, ?_⟩
  rw [State.WritesFresh, hw]
  exact ⟨b.1, fun w h => ⟨Nat.lt_of_lt_of_le (b.2 w h).1 hn, (b.2 w h).2⟩⟩

/-- A new write under the next name, ordered after writes that stand. -/
theorem State.Keeps.of_write {s s' : State} {w : Write} (hm : s.mem.wf = true → s'.mem.wf = true)
    (hw : s'.writes = s.writes ++ [w]) (hi : w.id = s.nextId) (hb : ∀ n ∈ w.before, ∃ v ∈ s.writes, v.id = n)
    (hn : s.nextId < s'.nextId) : s.Keeps s' := by
  refine ⟨?_, Nat.le_of_lt hn⟩
  rintro ⟨a, b⟩
  refine ⟨hm a, ?_, ?_⟩
  · rw [hw, List.map_append, List.nodup_append]
    refine ⟨b.1, by simp, ?_⟩
    intro n h m k
    obtain ⟨v, hv, rfl⟩ := List.mem_map.mp h
    obtain rfl : m = w.id := by simpa using k
    have := (b.2 v hv).1
    omega
  · intro v h
    rw [hw, List.mem_append, List.mem_singleton] at h
    rcases h with h | rfl
    · exact ⟨Nat.lt_trans (b.2 v h).1 hn, (b.2 v h).2⟩
    · refine ⟨by omega, fun n x => ?_⟩
      obtain ⟨u, hu, rfl⟩ := hb n x
      rw [hi]
      exact (b.2 u hu).1

theorem State.keeps_putTeam (s : State) (t : Team) : s.Keeps (s.putTeam t) := .of_eq rfl rfl (Nat.le_refl _)
theorem State.keeps_modTeam (s : State) (uid : Nat) (f : Team → Team) : s.Keeps (s.modTeam uid f) :=
  .of_eq rfl rfl (Nat.le_refl _)
theorem State.keeps_dropTeam (s : State) (uid : Nat) : s.Keeps (s.dropTeam uid) := .of_eq rfl rfl (Nat.le_refl _)
theorem State.keeps_modPkg (s : State) (p : PkgNo) (f : Pkg → Pkg) : s.Keeps (s.modPkg p f) :=
  .of_eq rfl rfl (Nat.le_refl _)
theorem State.keeps_modCtx (s : State) (p : PkgNo) (c : CtxId) (f : Ctx → Ctx) : s.Keeps (s.modCtx p c f) :=
  .of_eq (by simp) (by simp) (by simp)
theorem State.keeps_putLaunch (s : State) (l : Launch) : s.Keeps (s.putLaunch l) := .of_eq rfl rfl (Nat.le_refl _)

theorem mem_ids {ws : List Write} {p : Write → Bool} {n : Nat} (h : n ∈ (ws.filter p).map (·.id)) :
    ∃ v ∈ ws, v.id = n := by
  obtain ⟨v, hv, e⟩ := List.mem_map.mp h
  exact ⟨v, (List.mem_filter.mp hv).1, e⟩

theorem State.keeps_store (s : State) (uid : Nat) (p : Path) (cells : List Host.Cell) : s.Keeps (s.store uid p cells) := by
  unfold State.store
  split
  · exact .refl s
  · exact .of_write (fun h => h) rfl rfl (fun _ h => mem_ids h) (Nat.lt_succ_self _)

theorem State.keeps_systemStore (s : State) (ctx : CtxId) (cells : List Host.Cell) : s.Keeps (s.systemStore ctx cells) :=
  .of_write (fun h => Memory.putCells_wf cells _ h) rfl rfl (fun _ h => mem_ids h) (Nat.lt_succ_self _)

theorem State.keeps_hostStore (s : State) (cells : List Host.Cell) : s.Keeps (s.hostStore cells) :=
  .of_write (fun h => Memory.putCells_wf cells _ h) rfl rfl (fun _ h => mem_ids h) (Nat.lt_succ_self _)

theorem State.keeps_atomicWrite (s : State) (uid : Nat) (sc : ScopeCode) (cells : List Host.Cell) :
    s.Keeps (s.atomicWrite uid sc cells) := by
  unfold State.atomicWrite
  split
  · exact .refl s
  · refine .of_write (fun h => Memory.putCells_wf cells _ h) rfl rfl (fun _ h => mem_ids h) ?_
    show s.nextId < s.nextId + 2
    omega

theorem State.keeps_enter (s : State) (view : List Nat) : s.Keeps (s.enter view) := by
  refine ⟨?_, Nat.le_refl _⟩
  rintro ⟨a, b⟩
  refine ⟨?_, ?_⟩
  · exact List.foldlRecOn (motive := fun z => Memory.wf z = true) _ _ a (fun z hz w _ => Memory.putCells_wf _ z hz)
  · have ids : (s.enter view).writes.map (·.id) = s.writes.map (·.id) := by
      simp only [State.enter, List.map_map]
      refine List.map_congr_left (fun w _ => ?_)
      simp only [Function.comp]
      split <;> rfl
    refine ⟨by rw [ids]; exact b.1, ?_⟩
    intro w h
    obtain ⟨v, hv, rfl⟩ := List.mem_map.mp h
    have := b.2 v hv
    split <;> exact this

theorem State.keeps_rackWord (s : State) (p : PkgNo) (ctx : CtxId) (h idx : Nat) : s.Keeps (s.rackWord p ctx h idx) := by
  simp only [State.rackWord]
  split
  · exact .refl s
  · split
    · exact .refl s
    · split
      · exact .of_mem (fun h => Memory.putCells_wf _ _ h) (by simp) (by simp)
      · exact .refl s

theorem State.keeps_foldl {α : Type} (f : State → α → State) (hf : ∀ (s : State) (a : α), s.Keeps (f s a)) (l : List α)
    (s : State) : s.Keeps (l.foldl f s) :=
  List.foldlRecOn l f (.refl s) (fun z hz a _ => hz.trans (hf z a))

theorem State.keeps_rackLine (s : State) (l : Nat) : s.Keeps (s.rackLine l) := by
  unfold State.rackLine
  split
  · exact .refl s
  · refine State.keeps_foldl _ (fun s k => ?_) _ s
    split
    · exact State.keeps_rackWord ..
    · exact .refl s

theorem State.keeps_rackKeys (s : State) (keys : List Nat) : s.Keeps (s.rackKeys keys) :=
  State.keeps_foldl _ State.keeps_rackLine _ s

theorem State.keeps_load (s : State) (t : Team) (p : Path) (keys : List Nat) : s.Keeps (s.load t p keys).2 :=
  State.keeps_rackKeys s keys

theorem State.keeps_acquire (s : State) (uid : Nat) (sc : ScopeCode) (early : Bool) (began : Nat) (prec : List Nat) :
    s.Keeps (s.acquire uid sc early began prec) := by
  unfold State.acquire
  split
  · exact .refl s
  · exact State.keeps_putTeam ..

theorem State.keeps_performUpdates (s : State) (uid : Nat) (p : PkgNo) (sc : ScopeCode) (all : Bool) :
    s.Keeps (s.performUpdates uid p sc all) := State.keeps_modPkg ..

theorem State.keeps_publish (s : State) (uid : Nat) (sc : ScopeCode) (final paths : Bool) :
    s.Keeps (s.publish uid sc final paths).1 := by
  unfold State.publish
  split
  · exact .refl s
  · refine ((State.keeps_putTeam ..).trans ((State.keeps_enter ..).trans ((State.keeps_performUpdates ..).trans
      (State.keeps_acquire ..)))).trans (.of_eq rfl rfl (Nat.le_succ _))

theorem State.keeps_complete (s : State) (uid : Nat) (sc : ScopeCode) (pub : Nat) (prec : List Nat) :
    s.Keeps (s.complete uid sc pub prec) :=
  (State.keeps_acquire ..).trans (.of_eq rfl rfl (Nat.le_refl _))

theorem State.keeps_cfence (s : State) (uid : Nat) (src dst : Path) : s.Keeps (s.cfence uid src dst) := by
  simp only [State.cfence]
  split
  · exact .refl s
  · split <;> exact .of_eq rfl rfl (Nat.le_refl _)

end Sys2Proof.Machine
end

