-- ==== Sys2Proof/Laws/PerInstr.lean ====
section
/-!
SUPPORT. Facts about every instruction as syntax, one lemma per constructor.
-/

namespace Sys2Proof.Laws

/-! ### Words -/

/-- The manual gives a word to the program instructions and to nothing else: the steps of the hardware, the firmware and
the host have none. -/
def HasWord.Statement (i : Instr) : Prop := (encode i).isSome = !i.isEvent

theorem HasWord.nop : HasWord.Statement (.nop) := rfl
theorem HasWord.hint (fmt : HintFmt) (op : BitVec 4) (rest : BitVec 48) : HasWord.Statement (.hint fmt op rest) :=
  by cases fmt <;> rfl
theorem HasWord.add (m : AluMode) (sd : SReg) (sa : SReg) (b : Opd) : HasWord.Statement (.add m sd sa b) := rfl
theorem HasWord.sub (m : AluMode) (sd : SReg) (sa : SReg) (b : Opd) : HasWord.Statement (.sub m sd sa b) := rfl
theorem HasWord.mul (m : AluMode) (sd : SReg) (sa : SReg) (b : Opd) : HasWord.Statement (.mul m sd sa b) := rfl
theorem HasWord.mulh (m : AluMode) (sd : SReg) (sa : SReg) (b : Opd) : HasWord.Statement (.mulh m sd sa b) := rfl
theorem HasWord.div (m : AluMode) (sd : SReg) (sa : SReg) (b : Opd) : HasWord.Statement (.div m sd sa b) := rfl
theorem HasWord.rem (m : AluMode) (sd : SReg) (sa : SReg) (b : Opd) : HasWord.Statement (.rem m sd sa b) := rfl
theorem HasWord.and (m : AluMode) (sd : SReg) (sa : SReg) (b : Opd) : HasWord.Statement (.and m sd sa b) := rfl
theorem HasWord.or (m : AluMode) (sd : SReg) (sa : SReg) (b : Opd) : HasWord.Statement (.or m sd sa b) := rfl
theorem HasWord.xor (m : AluMode) (sd : SReg) (sa : SReg) (b : Opd) : HasWord.Statement (.xor m sd sa b) := rfl
theorem HasWord.shl (m : AluMode) (sd : SReg) (sa : SReg) (b : Opd) : HasWord.Statement (.shl m sd sa b) := rfl
theorem HasWord.shr (m : AluMode) (sd : SReg) (sa : SReg) (b : Opd) : HasWord.Statement (.shr m sd sa b) := rfl
theorem HasWord.sra (m : AluMode) (sd : SReg) (sa : SReg) (b : Opd) : HasWord.Statement (.sra m sd sa b) := rfl
theorem HasWord.min (m : AluMode) (sd : SReg) (sa : SReg) (b : Opd) : HasWord.Statement (.min m sd sa b) := rfl
theorem HasWord.max (m : AluMode) (sd : SReg) (sa : SReg) (b : Opd) : HasWord.Statement (.max m sd sa b) := rfl
theorem HasWord.clz (w : Bool) (sd : SReg) (sa : SReg) : HasWord.Statement (.clz w sd sa) := rfl
theorem HasWord.ctz (w : Bool) (sd : SReg) (sa : SReg) : HasWord.Statement (.ctz w sd sa) := rfl
theorem HasWord.popc (w : Bool) (sd : SReg) (sa : SReg) : HasWord.Statement (.popc w sd sa) := rfl
theorem HasWord.sel (k : GReg) (sd : SReg) (sa : SReg) (b : Opd) : HasWord.Statement (.sel k sd sa b) := rfl
theorem HasWord.cmp (cc : BitVec 3) (cb : BitVec 2) (gk : GReg) (sa : SReg) (b : Opd) : HasWord.Statement (.cmp cc cb gk sa b) :=
  rfl
theorem HasWord.gop (op : BitVec 3) (gd : GReg) (ga : GReg) (gb : GReg) : HasWord.Statement (.gop op gd ga gb) := rfl
theorem HasWord.lea (sd : SReg) (form : LeaForm) : HasWord.Statement (.lea sd form) := by cases form <;> rfl
theorem HasWord.ld (z : BitVec 2) (u : Bool) (sd : SReg) (sa : SReg) (b : Opd) : HasWord.Statement (.ld z u sd sa b) :=
  rfl
theorem HasWord.st (z : BitVec 2) (sd : SReg) (sa : SReg) (b : Opd) : HasWord.Statement (.st z sd sa b) := rfl
theorem HasWord.storePerform (gid : Gid) : HasWord.Statement (.storePerform gid) := rfl
theorem HasWord.ldff (z : BitVec 2) (u : Bool) (sd : SReg) (sa : SReg) (b : Opd) : HasWord.Statement (.ldff z u sd sa b) :=
  rfl
theorem HasWord.bqpop (sd : SReg) : HasWord.Statement (.bqpop sd) := rfl
theorem HasWord.mfs (sd : SReg) (n : BitVec 5) : HasWord.Statement (.mfs sd n) := rfl
theorem HasWord.mts (n : BitVec 5) (sa : SReg) : HasWord.Statement (.mts n sa) := rfl
theorem HasWord.li (sd : SReg) (imm : BitVec 32) : HasWord.Statement (.li sd imm) := rfl
theorem HasWord.liX (sd : SReg) (lit : Word) : HasWord.Statement (.liX sd lit) := rfl
theorem HasWord.lih (sd : SReg) (imm : BitVec 32) : HasWord.Statement (.lih sd imm) := rfl
theorem HasWord.br (off : BitVec 32) : HasWord.Statement (.br off) := rfl
theorem HasWord.jmp (sa : SReg) (imm : BitVec 32) : HasWord.Statement (.jmp sa imm) := rfl
theorem HasWord.call (sd : SReg) (tgt : CallTarget) : HasWord.Statement (.call sd tgt) := by cases tgt <;> rfl
theorem HasWord.ret (sa : SReg) : HasWord.Statement (.ret sa) := rfl
theorem HasWord.loop (sd : SReg) (off : BitVec 32) : HasWord.Statement (.loop sd off) := rfl
theorem HasWord.drain (upd : Bool) (copy : Bool) (tiq : Bool) : HasWord.Statement (.drain upd copy tiq) := rfl
theorem HasWord.yield (sd : SReg) (off : BitVec 32) : HasWord.Statement (.yield sd off) := rfl
theorem HasWord.exit (sd : SReg) : HasWord.Statement (.exit sd) := rfl
theorem HasWord.shapeSet (sd : SReg) : HasWord.Statement (.shapeSet sd) := rfl
theorem HasWord.shapeInv (sd : SReg) : HasWord.Statement (.shapeInv sd) := rfl
theorem HasWord.yieldDone (sd : SReg) : HasWord.Statement (.yieldDone sd) := rfl
theorem HasWord.regionSet (sd : SReg) : HasWord.Statement (.regionSet sd) := rfl
theorem HasWord.regionRel (sd : SReg) : HasWord.Statement (.regionRel sd) := rfl
theorem HasWord.regionStat (sd : SReg) : HasWord.Statement (.regionStat sd) := rfl
theorem HasWord.vntSet (sd : SReg) : HasWord.Statement (.vntSet sd) := rfl
theorem HasWord.vntRel (sd : SReg) : HasWord.Statement (.vntRel sd) := rfl
theorem HasWord.vntInv (sd : SReg) : HasWord.Statement (.vntInv sd) := rfl
theorem HasWord.svcUnassigned (sd : SReg) (n : BitVec 16) : HasWord.Statement (.svcUnassigned sd n) := rfl
theorem HasWord.trap (code : BitVec 16) : HasWord.Statement (.trap code) := rfl
theorem HasWord.brk (code : BitVec 16) : HasWord.Statement (.brk code) := rfl
theorem HasWord.tiqAccept (gid : Gid) : HasWord.Statement (.tiqAccept gid) := rfl
theorem HasWord.microOperationIssue (gid : Gid) : HasWord.Statement (.microOperationIssue gid) := rfl
theorem HasWord.tileInstructionCompletion (gid : Gid) : HasWord.Statement (.tileInstructionCompletion gid) := rfl
theorem HasWord.tadd (sat : Bool) (rm : Rm) (td : TReg) (ta : Src) (tb : Src) : HasWord.Statement (.tadd sat rm td ta tb) :=
  rfl
theorem HasWord.tsub (sat : Bool) (rm : Rm) (td : TReg) (ta : Src) (tb : Src) : HasWord.Statement (.tsub sat rm td ta tb) :=
  rfl
theorem HasWord.tmul (sat : Bool) (rm : Rm) (td : TReg) (ta : Src) (tb : Src) : HasWord.Statement (.tmul sat rm td ta tb) :=
  rfl
theorem HasWord.tfma (sat : Bool) (rm : Rm) (td : TReg) (ta : Src) (tb : Src) : HasWord.Statement (.tfma sat rm td ta tb) :=
  rfl
theorem HasWord.tmax (td : TReg) (ta : Src) (tb : Src) : HasWord.Statement (.tmax td ta tb) := rfl
theorem HasWord.tmin (td : TReg) (ta : Src) (tb : Src) : HasWord.Statement (.tmin td ta tb) := rfl
theorem HasWord.tcmp (cc : BitVec 3) (td : TReg) (ta : Src) (tb : Src) : HasWord.Statement (.tcmp cc td ta tb) := rfl
theorem HasWord.tsel (td : TReg) (ta : Src) (tb : Src) : HasWord.Statement (.tsel td ta tb) := rfl
theorem HasWord.tmov (td : TReg) (ta : Src) : HasWord.Statement (.tmov td ta) := rfl
theorem HasWord.tcvt (rm : Rm) (nsat : Bool) (sat : Bool) (td : TReg) (ta : Src) : HasWord.Statement (.tcvt rm nsat sat td ta) :=
  rfl
theorem HasWord.tld (td : TReg) (h : Handle) (sx : SReg) : HasWord.Statement (.tld td h sx) := rfl
theorem HasWord.tst (ta : TReg) (h : Handle) (sx : SReg) : HasWord.Statement (.tst ta h sx) := rfl
theorem HasWord.tldff (td : TReg) (h : Handle) (sx : SReg) : HasWord.Statement (.tldff td h sx) := rfl
theorem HasWord.ttrn (td : TReg) (ta : Src) : HasWord.Statement (.ttrn td ta) := rfl
theorem HasWord.tdecl (td : TReg) (h : Handle) : HasWord.Statement (.tdecl td h) := rfl
theorem HasWord.trel (td : TReg) : HasWord.Statement (.trel td) := rfl
theorem HasWord.text (ta : Src) : HasWord.Statement (.text ta) := rfl
theorem HasWord.tgth (unordered : Bool) (kind : BitVec 2) (td : TReg) (ti : Src) (h : Handle) (sx : SReg) : HasWord.Statement (.tgth unordered kind td ti h sx) :=
  rfl
theorem HasWord.tsct (kind : BitVec 2) (ta : Src) (ti : Src) (h : Handle) (sx : SReg) : HasWord.Statement (.tsct kind ta ti h sx) :=
  rfl
theorem HasWord.tcopy (tag : BitVec 4) (h : Handle) (sd : SReg) (ss : SReg) : HasWord.Statement (.tcopy tag h sd ss) :=
  rfl
theorem HasWord.tcopyStr (q : QReg) (h : Handle) (ss : SReg) : HasWord.Statement (.tcopyStr q h ss) := rfl
theorem HasWord.copyCompletion (gid : Gid) : HasWord.Statement (.copyCompletion gid) := rfl
theorem HasWord.twait (all : Bool) (tag : BitVec 4) : HasWord.Statement (.twait all tag) := rfl
theorem HasWord.qbind (q : QReg) (t : TReg) : HasWord.Statement (.qbind q t) := rfl
theorem HasWord.qrel (q : QReg) : HasWord.Statement (.qrel q) := rfl
theorem HasWord.tfill (td : TReg) (sa : SReg) : HasWord.Statement (.tfill td sa) := rfl
theorem HasWord.tiota (td : TReg) (sa : SReg) (sb : SReg) : HasWord.Statement (.tiota td sa sb) := rfl
theorem HasWord.tslide (dir : BitVec 2) (fill : Option Src) (td : TReg) (ta : Src) (n : BitVec 6) : HasWord.Statement (.tslide dir fill td ta n) :=
  by rcases fill with _ | _ <;> rfl
theorem HasWord.tpack (td : TReg) (ta : Src) : HasWord.Statement (.tpack td ta) := rfl
theorem HasWord.tunpk (td : TReg) (ta : Src) : HasWord.Statement (.tunpk td ta) := rfl
theorem HasWord.tqnt (rm : Rm) (nsat : Bool) (td : TReg) (ta : Src) : HasWord.Statement (.tqnt rm nsat td ta) := rfl
theorem HasWord.tdqt (rm : Rm) (scale : Option EReg) (td : TReg) (ta : Src) : HasWord.Statement (.tdqt rm scale td ta) :=
  by rcases scale with _ | _ <;> rfl
theorem HasWord.map (cv : Conv) (cnt : BitVec 2) (td : TReg) (ta : Src) (tb : Src) (sa : SReg) (sb : SReg) (fn : BitVec 8) : HasWord.Statement (.map cv cnt td ta tb sa sb fn) :=
  rfl
theorem HasWord.reduce (col : Bool) (two : Bool) (cv : Conv) (td : TReg) (ta : Src) (tb : Src) (sa : SReg) (sb : SReg) (fn : StepFn) : HasWord.Statement (.reduce col two cv td ta tb sa sb fn) :=
  rfl
theorem HasWord.scan (col : Bool) (two : Bool) (cv : Conv) (td : TReg) (ta : Src) (tb : Src) (sa : SReg) (sb : SReg) (fn : StepFn) : HasWord.Statement (.scan col two cv td ta tb sa sb fn) :=
  rfl
theorem HasWord.trds (two : Bool) (rm : Rm) (ta : Src) (tb : Src) (sa : SReg) (sb : SReg) (fn : StepFn) : HasWord.Statement (.trds two rm ta tb sa sb fn) :=
  rfl
theorem HasWord.ldb (dims : Option SReg) (ta : Src) (so : SReg) : HasWord.Statement (.ldb dims ta so) := rfl
theorem HasWord.ldbm (dims : Option SReg) (h : Handle) (sx : SReg) (so : SReg) : HasWord.Statement (.ldbm dims h sx so) :=
  rfl
theorem HasWord.mma (f : BitVec 2) (ad : AReg) (ta : Src) (ss : SReg) (sp : SReg) (en : Option EReg) : HasWord.Statement (.mma f ad ta ss sp en) :=
  rfl
theorem HasWord.mmam (f : BitVec 2) (ad : AReg) (h : Handle) (ss : SReg) (sx : SReg) (sp : SReg) (en : Option EReg) : HasWord.Statement (.mmam f ad h ss sx sp en) :=
  rfl
theorem HasWord.mmat (ad : AReg) (ta : Src) (ss : SReg) (sp : SReg) : HasWord.Statement (.mmat ad ta ss sp) := rfl
theorem HasWord.aclr (int : Bool) (ad : AReg) : HasWord.Statement (.aclr int ad) := rfl
theorem HasWord.ard (clr : Bool) (cv : Conv) (td : TReg) (as : AReg) (sw : SReg) (sx : SReg) (en : Option EReg) : HasWord.Statement (.ard clr cv td as sw sx en) :=
  rfl
theorem HasWord.awr (add : Bool) (ad : AReg) (ta : Src) (sw : SReg) : HasWord.Statement (.awr add ad ta sw) := rfl
theorem HasWord.amaxa (acc : Bool) (td : TReg) (as : AReg) (sw : SReg) : HasWord.Statement (.amaxa acc td as sw) :=
  rfl
theorem HasWord.tscl (tgt : BitVec 2) (gc : BitVec 2) (en : EReg) (ta : Src) : HasWord.Statement (.tscl tgt gc en ta) :=
  rfl
theorem HasWord.route (td : TReg) (tc : TReg) (ti : Src) (se : SReg) : HasWord.Statement (.route td tc ti se) := rfl
theorem HasWord.ablk (fp8 : Bool) (causal : Bool) (td : TReg) (ta : Src) (ss : SReg) (sp : SReg) (k : BitVec 8) : HasWord.Statement (.ablk fp8 causal td ta ss sp k) :=
  rfl
theorem HasWord.iwalk (td : TReg) (tc : TReg) (tm : Src) (ss : SReg) (sx : SReg) : HasWord.Statement (.iwalk td tc tm ss sx) :=
  rfl
theorem HasWord.send (k : GReg) (sr : SReg) (sp : SReg) (team : BitVec 3) (tag : BitVec 16) : HasWord.Statement (.send k sr sp team tag) :=
  rfl
theorem HasWord.sendt (k : GReg) (ta : Src) (sr : SReg) (team : BitVec 3) (tag : BitVec 16) : HasWord.Statement (.sendt k ta sr team tag) :=
  rfl
theorem HasWord.messageDelivery (gid : Gid) : HasWord.Statement (.messageDelivery gid) := rfl
theorem HasWord.recv (w : Wild) (sd : SReg) (sm : SReg) (tag : BitVec 16) : HasWord.Statement (.recv w sd sm tag) :=
  rfl
theorem HasWord.recvt (w : Wild) (td : TReg) (sm : SReg) (tag : BitVec 16) : HasWord.Statement (.recvt w td sm tag) :=
  rfl
theorem HasWord.probe (tile : Bool) (w : Wild) (k : GReg) (sm : SReg) (tag : BitVec 16) : HasWord.Statement (.probe tile w k sm tag) :=
  rfl
theorem HasWord.bar (n : BitVec 3) : HasWord.Statement (.bar n) := rfl
theorem HasWord.barrierCompletion (gid : Gid) : HasWord.Statement (.barrierCompletion gid) := rfl
theorem HasWord.claim (scope : ScopeCode) (sd : SReg) (sa : SReg) (sb : SReg) : HasWord.Statement (.claim scope sd sa sb) :=
  rfl
theorem HasWord.fork (k : GReg) (sd : SReg) (off : BitVec 32) : HasWord.Statement (.fork k sd off) := rfl
theorem HasWord.join (sp : SReg) : HasWord.Statement (.join sp) := rfl
theorem HasWord.spawn (k : GReg) (sa : SReg) (off : BitVec 32) : HasWord.Statement (.spawn k sa off) := rfl
theorem HasWord.take (k : GReg) (sd : SReg) : HasWord.Statement (.take k sd) := rfl
theorem HasWord.launch (sd : SReg) (sa : SReg) (sb : SReg) : HasWord.Statement (.launch sd sa sb) := rfl
theorem HasWord.syncTas (scope : ScopeCode) (sd : SReg) (sa : SReg) (sb : SReg) : HasWord.Statement (.syncTas scope sd sa sb) :=
  rfl
theorem HasWord.syncFadd (scope : ScopeCode) (sd : SReg) (sa : SReg) (sb : SReg) : HasWord.Statement (.syncFadd scope sd sa sb) :=
  rfl
theorem HasWord.syncWait (cc : BitVec 3) (scope : BitVec 3) (sd : SReg) (sa : SReg) (sb : SReg) : HasWord.Statement (.syncWait cc scope sd sa sb) :=
  rfl
theorem HasWord.syncLd (scope : ScopeCode) (sd : SReg) (sa : SReg) : HasWord.Statement (.syncLd scope sd sa) := rfl
theorem HasWord.syncSt (scope : ScopeCode) (sa : SReg) (sb : SReg) : HasWord.Statement (.syncSt scope sa sb) := rfl
theorem HasWord.mirror (pkg : PkgNo) : HasWord.Statement (.mirror pkg) := rfl
theorem HasWord.pref (l1 : Bool) (sa : SReg) (len : Opd) : HasWord.Statement (.pref l1 sa len) := rfl
theorem HasWord.evict (kind : BitVec 2) (sa : SReg) (len : Opd) : HasWord.Statement (.evict kind sa len) := rfl
theorem HasWord.winq (sd : SReg) (sa : SReg) (b : Opd) : HasWord.Statement (.winq sd sa b) := rfl
theorem HasWord.upd (strict : Bool) (ti : Src) (tv : Src) (rh : BitVec 10) : HasWord.Statement (.upd strict ti tv rh) :=
  rfl
theorem HasWord.upds (strict : Bool) (sv : SReg) (si : SReg) (rh : BitVec 10) : HasWord.Statement (.upds strict sv si rh) :=
  rfl
theorem HasWord.handOff (gid : Gid) : HasWord.Statement (.handOff gid) := rfl
theorem HasWord.backgroundRacking (pkg : PkgNo) (stack : BitVec 4) (ctx : CtxId) : HasWord.Statement (.backgroundRacking pkg stack ctx) :=
  rfl
theorem HasWord.rack (rh : BitVec 10) (sa : SReg) (sb : SReg) : HasWord.Statement (.rack rh sa sb) := rfl
theorem HasWord.rackr (sd : SReg) (sa : SReg) (rh : BitVec 10) : HasWord.Statement (.rackr sd sa rh) := rfl
theorem HasWord.vntq (k : GReg) (h : Handle) (sb : SReg) (st : SReg) : HasWord.Statement (.vntq k h sb st) := rfl
theorem HasWord.vntw (h : Handle) (sb : SReg) (st : SReg) : HasWord.Statement (.vntw h sb st) := rfl
theorem HasWord.vntc (c : BitVec 2) (clr : Bool) (sd : SReg) : HasWord.Statement (.vntc c clr sd) := rfl
theorem HasWord.fsend (k : GReg) (sa : SReg) (sl : SReg) (tgt : BitVec 13) (tag : BitVec 16) (route : Word) : HasWord.Statement (.fsend k sa sl tgt tag route) :=
  rfl
theorem HasWord.fabricMessageDelivery (gid : Gid) : HasWord.Statement (.fabricMessageDelivery gid) := rfl
theorem HasWord.frecv (w : Wild) (sd : SReg) (sm : SReg) (tag : BitVec 16) : HasWord.Statement (.frecv w sd sm tag) :=
  rfl
theorem HasWord.fgth (kind : BitVec 2) (td : TReg) (ti : TReg) (h : Handle) (sx : SReg) : HasWord.Statement (.fgth kind td ti h sx) :=
  rfl
theorem HasWord.allx (n : BitVec 3) (td : TReg) (ta : TReg) (sr : SReg) (sc : SReg) : HasWord.Statement (.allx n td ta sr sc) :=
  rfl
theorem HasWord.exchangeClose (gid : Gid) : HasWord.Statement (.exchangeClose gid) := rfl
theorem HasWord.fbar (n : BitVec 3) : HasWord.Statement (.fbar n) := rfl
theorem HasWord.fabricBarrierCompletion (gid : Gid) : HasWord.Statement (.fabricBarrierCompletion gid) := rfl
theorem HasWord.phase (scope : ScopeCode) : HasWord.Statement (.phase scope) := rfl
theorem HasWord.cfence (fromPath : BitVec 3) (toPath : BitVec 3) : HasWord.Statement (.cfence fromPath toPath) := rfl
theorem HasWord.amo (op : BitVec 5) (d : Bool) (scope : ScopeCode) (sd : SReg) (sa : SReg) (sb : SReg) : HasWord.Statement (.amo op d scope sd sa sb) :=
  rfl
theorem HasWord.cas (d : Bool) (scope : ScopeCode) (sd : SReg) (sa : SReg) (sb : SReg) : HasWord.Statement (.cas d scope sd sa sb) :=
  rfl
theorem HasWord.eret (sd : SReg) (sa : SReg) : HasWord.Statement (.eret sd sa) := rfl
theorem HasWord.ctxs (sd : SReg) (sa : SReg) (sb : SReg) : HasWord.Statement (.ctxs sd sa sb) := rfl
theorem HasWord.ctxl (sd : SReg) (sa : SReg) (sb : SReg) : HasWord.Statement (.ctxl sd sa sb) := rfl
theorem HasWord.fault (gid : Gid) : HasWord.Statement (.fault gid) := rfl
theorem HasWord.faultRecordPost (pkg : PkgNo) (ctx : CtxId) : HasWord.Statement (.faultRecordPost pkg ctx) := rfl
theorem HasWord.faultCompletion (pkg : PkgNo) (ctx : CtxId) (seq : BitVec 32) : HasWord.Statement (.faultCompletion pkg ctx seq) :=
  rfl
theorem HasWord.walkTimeout (gid : Gid) : HasWord.Statement (.walkTimeout gid) := rfl
theorem HasWord.preemptionRequest (gid : Gid) : HasWord.Statement (.preemptionRequest gid) := rfl
theorem HasWord.preemptionWithdrawal (gid : Gid) : HasWord.Statement (.preemptionWithdrawal gid) := rfl
theorem HasWord.forcedSave (gid : Gid) : HasWord.Statement (.forcedSave gid) := rfl
theorem HasWord.resumption (uid : Nat) (newGid : Gid) : HasWord.Statement (.resumption uid newGid) := rfl
theorem HasWord.queuePop (pkg : PkgNo) (q : BitVec 6) : HasWord.Statement (.queuePop pkg q) := rfl
theorem HasWord.groupPlacement (launch : Nat) (inst : Nat) (cores : List Gid) : HasWord.Statement (.groupPlacement launch inst cores) :=
  rfl
theorem HasWord.instancePlacement (launch : Nat) (die : Bool) : HasWord.Statement (.instancePlacement launch die) :=
  rfl
theorem HasWord.steal (launch : Nat) (die : Bool) : HasWord.Statement (.steal launch die) := rfl
theorem HasWord.launchCompletion (launch : Nat) : HasWord.Statement (.launchCompletion launch) := rfl
theorem HasWord.gangSliceStart (launch : Nat) : HasWord.Statement (.gangSliceStart launch) := rfl
theorem HasWord.ready (launch : Nat) (pkg : PkgNo) (cores : List Gid) : HasWord.Statement (.ready launch pkg cores) :=
  rfl
theorem HasWord.start (launch : Nat) (pkg : PkgNo) : HasWord.Statement (.start launch pkg) := rfl
theorem HasWord.abort (launch : Nat) (pkg : PkgNo) : HasWord.Statement (.abort launch pkg) := rfl
theorem HasWord.ctxCreate (pkg : PkgNo) : HasWord.Statement (.ctxCreate pkg) := rfl
theorem HasWord.ctxEnd (pkg : PkgNo) : HasWord.Statement (.ctxEnd pkg) := rfl
theorem HasWord.queueOpen (pkg : PkgNo) : HasWord.Statement (.queueOpen pkg) := rfl
theorem HasWord.queueReset (pkg : PkgNo) : HasWord.Statement (.queueReset pkg) := rfl
theorem HasWord.cancel (pkg : PkgNo) : HasWord.Statement (.cancel pkg) := rfl
theorem HasWord.cancelClr (pkg : PkgNo) : HasWord.Statement (.cancelClr pkg) := rfl
theorem HasWord.tlbInv (pkg : PkgNo) : HasWord.Statement (.tlbInv pkg) := rfl
theorem HasWord.winSet (pkg : PkgNo) : HasWord.Statement (.winSet pkg) := rfl
theorem HasWord.fwStage (pkg : PkgNo) : HasWord.Statement (.fwStage pkg) := rfl
theorem HasWord.fwActivate (pkg : PkgNo) : HasWord.Statement (.fwActivate pkg) := rfl
theorem HasWord.hostSvc (pkg : PkgNo) : HasWord.Statement (.hostSvc pkg) := rfl
theorem HasWord.rsvW2Write (pkg : PkgNo) (die : Bool) (n : BitVec 4) (v : Word) : HasWord.Statement (.rsvW2Write pkg die n v) :=
  rfl
theorem HasWord.commit (pkg : PkgNo) : HasWord.Statement (.commit pkg) := rfl
theorem HasWord.registerWrite (pkg : PkgNo) (off : BitVec 16) (v : Word) : HasWord.Statement (.registerWrite pkg off v) :=
  rfl
theorem HasWord.hostRead (tgt : HostTarget) (n : Nat) : HasWord.Statement (.hostRead tgt n) := rfl
theorem HasWord.hostWrite (tgt : HostTarget) (bytes : List Byte) : HasWord.Statement (.hostWrite tgt bytes) := rfl
theorem HasWord.boot (pkg : PkgNo) : HasWord.Statement (.boot pkg) := rfl
theorem HasWord.trialTimeout (pkg : PkgNo) : HasWord.Statement (.trialTimeout pkg) := rfl
theorem HasWord.watchdog (pkg : PkgNo) : HasWord.Statement (.watchdog pkg) := rfl
theorem HasWord.getMeasurements (pkg : PkgNo) : HasWord.Statement (.getMeasurements pkg) := rfl
theorem HasWord.negotiateAlgorithms (pkg : PkgNo) (falcon1024 : Bool) (shake256 : Bool) : HasWord.Statement (.negotiateAlgorithms pkg falcon1024 shake256) :=
  rfl
theorem HasWord.retirement (pkg : PkgNo) (pos : Position) : HasWord.Statement (.retirement pkg pos) := rfl
theorem HasWord.routeFixupPass (pkg : PkgNo) (fixups : List RouteFixup) :
    HasWord.Statement (.routeFixupPass pkg fixups) :=
  rfl
theorem HasWord.portDown (pkg : PkgNo) (port : BitVec 4) : HasWord.Statement (.portDown pkg port) := rfl
theorem HasWord.portRetire (pkg : PkgNo) (port : BitVec 4) : HasWord.Statement (.portRetire pkg port) := rfl
theorem HasWord.portTraining (pkg : PkgNo) (port : BitVec 4) (peer : PkgNo) (peerPort : BitVec 4) (up : Bool) (comp : Bool) : HasWord.Statement (.portTraining pkg port peer peerPort up comp) :=
  rfl
theorem HasWord.flitReplay (pkg : PkgNo) (port : Option (BitVec 4)) : HasWord.Statement (.flitReplay pkg port) := rfl
theorem HasWord.d2dLinkFailure (pkg : PkgNo) : HasWord.Statement (.d2dLinkFailure pkg) := rfl
theorem HasWord.softError (pkg : PkgNo) (unit : Nat) : HasWord.Statement (.softError pkg unit) := rfl
theorem HasWord.uncorrectableError (pkg : PkgNo) (site : ErrorSite) : HasWord.Statement (.uncorrectableError pkg site) :=
  rfl
theorem HasWord.unitFailure (pkg : PkgNo) (unit : HwUnit) : HasWord.Statement (.unitFailure pkg unit) := rfl
theorem HasWord.supplySag (pkg : PkgNo) (die : Bool) : HasWord.Statement (.supplySag pkg die) := rfl
theorem HasWord.clockReturn (pkg : PkgNo) (die : Bool) : HasWord.Statement (.clockReturn pkg die) := rfl
theorem HasWord.junction105 (pkg : PkgNo) : HasWord.Statement (.junction105 pkg) := rfl
theorem HasWord.junction115 (pkg : PkgNo) : HasWord.Statement (.junction115 pkg) := rfl
theorem HasWord.standby (pkg : PkgNo) : HasWord.Statement (.standby pkg) := rfl
theorem HasWord.wake (pkg : PkgNo) : HasWord.Statement (.wake pkg) := rfl
theorem HasWord.copyRow (gid : Gid) : HasWord.Statement (.copyRow gid) := rfl
theorem HasWord.junctionBelow100 (pkg : PkgNo) : HasWord.Statement (.junctionBelow100 pkg) := rfl
theorem HasWord.hostAttachmentFailure (pkg : PkgNo) : HasWord.Statement (.hostAttachmentFailure pkg) := rfl
theorem HasWord.d2dLinkTraining (pkg : PkgNo) : HasWord.Statement (.d2dLinkTraining pkg) := rfl
theorem HasWord.unknownCommandCode (pkg : PkgNo) : HasWord.Statement (.unknownCommandCode pkg) := rfl

end Sys2Proof.Laws
end

