-- ==== Sys2Proof/Laws/Team.lean ====
section
/-!
SUPPORT. Teams in a state: finding one, replacing one, and states that hold one team under a name.
-/

namespace Sys2Proof.Machine

/-- The state with `w` in place of every team named `uid`. -/
def State.fill (s : State) (uid : Nat) (w : Team) : State :=
  { s with teams := s.teams.map (fun u => if u.uid == uid then w else u) }

/-- `u` is the team of that name, and no other stands under it. -/
def State.Only (s : State) (uid : Nat) (u : Team) : Prop :=
  s.team? uid = some u ∧ ∀ v ∈ s.teams, v.uid = uid → v = u

theorem State.putTeam_eq_fill (s : State) (w : Team) : s.putTeam w = s.fill w.uid w := rfl

theorem State.team?_uid {s : State} {uid : Nat} {u : Team} (h : s.team? uid = some u) : u.uid = uid := by
  have := List.find?_some h
  simpa using this

/-- A replacement under the same name does not change where that name stands. -/
theorem fill_keeps_name (uid : Nat) (w v : Team) (hw : w.uid = uid) :
    ((if v.uid == uid then w else v).uid == uid) = (v.uid == uid) := by
  cases hv : v.uid == uid <;> simp_all

theorem State.team?_fill {s : State} {uid : Nat} {u : Team} (w : Team) (hw : w.uid = uid)
    (h : s.team? uid = some u) : (s.fill uid w).team? uid = some w := by
  have hu := State.team?_uid h
  rw [State.team?] at h ⊢
  have same : ((fun t : Team => t.uid == uid) ∘ fun v => if v.uid == uid then w else v) = fun t => t.uid == uid :=
    funext (fun v => fill_keeps_name uid w v hw)
  rw [State.fill, List.find?_map, same, h, Option.map_some, if_pos (by simp [hu])]

theorem State.only_fill {s : State} {uid : Nat} {u : Team} (w : Team) (hw : w.uid = uid)
    (h : s.team? uid = some u) : (s.fill uid w).Only uid w := by
  refine ⟨State.team?_fill w hw h, ?_⟩
  intro v hv hu
  simp only [State.fill, List.mem_map] at hv
  obtain ⟨a, _, rfl⟩ := hv
  by_cases ha : a.uid == uid
  · simp [ha]
  · simp only [ha] at hu
    simp_all

theorem State.fill_fill (s : State) (uid : Nat) (a b : Team) (ha : a.uid = uid) :
    (s.fill uid a).fill uid b = s.fill uid b := by
  simp only [State.fill, List.map_map]
  congr 1
  apply List.map_congr_left
  intro v _
  by_cases hv : v.uid == uid <;> simp_all

theorem State.fill_self {s : State} {uid : Nat} {u : Team} (h : s.Only uid u) : s.fill uid u = s := by
  rw [State.fill, List.map_congr_left (g := id) (fun v hv => ?_), List.map_id]
  cases hu : v.uid == uid
  · rfl
  · exact (h.2 v hv (eq_of_beq hu)).symm

theorem State.modTeam_of_only {s : State} {uid : Nat} {u : Team} (h : s.Only uid u) (f : Team → Team) :
    s.modTeam uid f = s.fill uid (f u) := by
  simp only [State.modTeam, State.fill]
  congr 1
  apply List.map_congr_left
  intro v hv
  by_cases hu : v.uid = uid
  · simp [h.2 v hv hu]
  · simp [hu]

theorem State.putTeam_putTeam (s : State) (a b : Team) (h : a.uid = b.uid) :
    (s.putTeam a).putTeam b = s.putTeam b := by
  simp only [State.putTeam_eq_fill, h]
  exact State.fill_fill s b.uid a b h

theorem State.team?_putTeam {s : State} {u : Team} (w : Team) (h : s.team? w.uid = some u) :
    (s.putTeam w).team? w.uid = some w := State.team?_fill w rfl h

theorem State.issuing_team {s : State} {t : Team} (h : s.issuing? = some t) :
    s.team? s.cur = some t ∧ t.status = .running ∧ t.uid = s.cur := by
  simp only [State.issuing?, State.curTeam?] at h
  split at h
  · next u hu =>
    split at h
    · cases h; exact ⟨hu, ‹_›, State.team?_uid hu⟩
    · cases h
  · cases h

end Sys2Proof.Machine
end

