-- ==== Sys2Proof/Laws/TileSide.lean ====
section
/-!
SUPPORT. What the front and the block sequencer do with one instruction, said once: a front instruction that nothing
holds back runs its own work; a tile-side instruction that the sequencer takes at once runs its own work and leaves.
-/

namespace Sys2Proof.Machine

/-! ### The front -/

theorem State.front_issues {s : State} {t : Team} {i : Instr} (f : Team → Run) (h : s.Issues t i) :
    s.front i f = match f t with
      | .done s' => .next s'
      | .part s' _ => .next s'
      | .fail s' info => .next (s'.frontFault t.uid info none)
      | .walk => .next (s.putTeam (t.startWalk s.now))
      | .stall s' => .next s' := by
  simp only [State.front, h.1, h.2]
  rfl

theorem State.front_done {s s' : State} {t : Team} {i : Instr} {f : Team → Run} (h : s.Issues t i)
    (hf : f t = .done s') : s.front i f = .next s' := by
  rw [State.front_issues f h, hf]

theorem State.frontTeam_issues {s : State} {t : Team} {i : Instr} (f : Team → Team) (h : s.Issues t i) :
    s.frontTeam i f = .next (s.putTeam ((f t).advance i.longBytes)) := State.front_done h rfl

/-! ### Stores and commitment of a quiet team -/

theorem State.performStores_none {s : State} {uid : Nat} {u : Team} (n : Nat) (h : s.Only uid u) (hb : u.sbuf = []) :
    s.performStores uid n = s := by
  have hu := State.team?_uid h.1
  simp only [State.performStores, h.1, hb, List.filter_nil, performHeld]
  have : ({ u with sbuf := [] } : Team) = u := by cases u; simp_all
  rw [this, State.putTeam_eq_fill, hu, State.fill_self h]

theorem Team.commit_quiet {u : Team} (h : u.hist = []) (hl : u.late = []) : u.commit = u := by
  cases u; simp_all [Team.commit]

theorem State.settle_quiet {s : State} {uid : Nat} {u : Team} (h : s.Only uid u) (hb : u.sbuf = [])
    (hh : u.hist = []) (hl : u.late = []) : s.settle uid = s := by
  simp only [State.settle, h.1]
  rw [State.performStores_none _ h hb, State.modTeam_of_only h, Team.commit_quiet hh hl, State.fill_self h]

/-! ### The sequencer -/

/-- Nothing is left in the TIQ that instructions have run past. -/
theorem Team.leave_nil (t : Team) : t.leave [] =
    { t with tiq := [], copies := [], q := t.q.map (fun x => x.map (fun st => { st with taken := [] })) } := by
  simp [Team.leave, Team.keepYounger]

theorem Team.forTile_of {u : Team} (h : u.tileWalk = none) (hw : u.wait = .none) : u.forTile = u := by
  cases u; simp_all [Team.forTile]

theorem Team.place_tiq {t : Team} (i : Instr) (h : t.tiq = []) : (t.place i).tiq = [t.entryFor i] := by
  simp [Team.place, h]

/-- The slots that an entry needs do not depend on its lane function. -/
theorem Team.roomFor_code (t : Team) (e : TileEntry) (c : Option (Bool × List (BitVec 32))) :
    t.roomFor { e with code := c } = t.roomFor e := by
  have h : ∀ n acc, t.slotStep n acc { e with code := c } = t.slotStep n acc e := fun _ _ => rfl
  simp only [Team.roomFor, Team.slotsUsed, Team.slotsNamed, List.foldl_append, List.foldl_cons, List.foldl_nil, h,
    TileEntry.slotNames]

/-- What acceptance makes of the entry that the front has placed (R147). -/
theorem State.acceptEntry_takes {s : State} {t : Team} {i : Instr} (h : s.Takes t i) :
    (s.putTeam (t.place i)).acceptEntry (t.place i) (t.entryFor i) = .ok (s.entryAt t i, (s.codeAt t i).2) := by
  have hf : (t.place i).forTile = t.place i := Team.forTile_of h.quiet.walk rfl
  have hi : (⟨s.putTeam (t.place i), t.place i, t.capture, (s.putTeam (t.place i)).recsAt (t.place i) (t.entryFor i),
      (t.place i).xrow.toNat, none, none, false, false⟩ : TIn) = s.atAccept t i := rfl
  have hr := fun c => (Team.roomFor_code (t.place i) (s.entryAt t i) c).trans h.slots
  have hacc := h.accepted
  have hcode := h.code
  simp only [State.acceptEntry, hf, State.putTeam_putTeam s (t.place i) (t.place i) rfl,
    show (t.entryFor i).cap = t.capture from rfl, show (t.entryFor i).instr = i from rfl, hi, hacc,
    bind, Except.bind]
  cases hc : tileCode i (s.atAccept t i) with
  | none =>
    simp only [State.entryAt, State.codeAt, hc] at hr ⊢
    exact if_pos (hr none)
  | some x =>
    cases x with
    | error e => exact absurd hc (hcode e)
    | ok cs =>
      simp only [State.entryAt, State.codeAt, hc] at hr ⊢
      exact if_pos (hr none)

/-- With no store held, acceptance reads what stands. -/
theorem State.acceptSeeing_quiet {s : State} {t : Team} {e : TileEntry} (hb : t.sbuf = []) :
    s.acceptSeeing t e = s.acceptEntry t e := by
  simp [State.acceptSeeing, hb]

theorem State.acceptHead_takes {s : State} {t : Team} {i : Instr} (h : s.Takes t i) :
    (s.putTeam (t.place i)).acceptHead t.uid = (s.codeAt t i).2.putTeam (t.entered (s.entryAt t i)) := by
  obtain ⟨hs, hr, hu⟩ := State.issuing_team h.issues
  have h0 : s.team? (t.place i).uid = some t := by rw [show (t.place i).uid = t.uid from rfl, hu]; exact hs
  have h1 : (s.putTeam (t.place i)).team? t.uid = some (t.place i) := State.team?_putTeam (t.place i) h0
  have hq := Team.place_tiq i h.quiet.tiq
  have hb : (t.place i).sbuf = [] := h.quiet.sbuf
  simp only [State.acceptHead, h1, hq, show (t.entryFor i).accepted = false from rfl, Bool.false_eq_true, if_false,
    State.acceptSeeing_quiet hb, State.acceptEntry_takes h]
  congr 1
  simp only [Team.modHead, hq, Team.entered, show (t.entryFor i).instr = i from rfl,
    show (t.entryFor i).cap = t.capture from rfl, show (s.entryAt t i).instr = i from rfl]
  have := h.quiet.walk
  cases t
  simp_all [Team.place, Team.entryFor, Team.advance, Team.capture]

/-- A tile-side instruction that the sequencer takes, that is no copy and whose run completes, leaves the TIQ with what it
has done. -/
theorem State.tileExec_takes {s s' : State} {t u : Team} {i : Instr} (h : s.Takes t i) (hc : isCopy i = false)
    (hrun : tileRun i t.wordSeq (s.atRun t i) = .done s') (ho : s'.Only t.uid u)
    (hin : ((s.codeAt t i).2.putTeam (t.entered (s.entryAt t i))).Only t.uid (t.entered (s.entryAt t i)))
    (ht : u.tiq = [s.entryAt t i]) (hsb : u.sbuf = []) (hh : u.hist = []) (hp : u.heldFault = none)
    (hcp : u.copies = []) (hlt : u.late = []) : s.tileExec i = .next (s'.past t.uid) := by
  have hpw : t.placeWaits = false := by
    simp [Team.placeWaits, h.quiet.held, Team.extPending, h.quiet.tiq]
    have := h.room
    omega
  have hcr : (i.pushes && decide (16 ≤ t.credits)) = false := by
    by_cases hpu : i.pushes = true
    · have := h.credit hpu
      simp [hpu]; omega
    · simp [hpu]
  have he : (s.ahead || !t.tiq.isEmpty) = false := by simp [h.now, h.quiet.tiq]
  simp only [State.tileExec, h.issues, hpw, hcr, he, Bool.false_eq_true, if_false]
  congr 1
  simp only [State.runHead, State.runHeadBy, State.acceptHead_takes h]
  have hseq : (s.entryAt t i).seq = t.wordSeq := by simp [State.entryAt, Team.entryFor, Team.seqHere, h.quiet.pair]
  generalize hE : s.entryAt t i = E at *
  have hEi : E.instr = i := by rw [← hE]; rfl
  have hEa : E.accepted = true := by rw [← hE]; rfl
  have hEn : E.issued = false := by rw [← hE]; rfl
  have hEp : E.past = none := by rw [← hE]; rfl
  generalize hR : t.entered E = R at *
  have hRw : R.forTile = R := by rw [← hR]; exact Team.forTile_of h.quiet.walk rfl
  have hRt : R.tiq = [E] := by rw [← hR]; rfl
  have hRb : R.sbuf = [] := by rw [← hR]; exact h.quiet.sbuf
  have hRwt : R.wait = .none := by rw [← hR]; rfl
  generalize hB : (s.codeAt t i).2 = B at *
  have hrun' : tileRun E.instr E.seq (E.tin (B.putTeam R) R false) = .done s' := by
    rw [hEi, hseq, ← hrun]; simp only [State.atRun, hE, hB, hR]
  have hpt : (B.putTeam R).putTeam R = B.putTeam R := State.putTeam_putTeam B R R rfl
  have hissue : (B.putTeam R).issueHead t.uid false =
      (s'.modTeam t.uid (fun t => t.modHead (fun e => { e with issued := true }))).backToFront t.uid .none := by
    have hRa : R.asOf E = R := by simp [Team.asOf, hEp]
    have hnb : ∀ u : Team, u.inOrder E R = u := fun u => by simp [Team.inOrder, hEp]
    simp only [State.issueHead, hRa, hnb, hin.1, hRt, hEa, hEn, hRw, hpt, hRwt, Bool.not_true, Bool.or_false, Bool.false_eq_true,
      if_false, State.performStores_none _ hin hRb, ite_self, hEi, hc]
    rw [hEi] at hrun'
    simp only [hrun']
  rw [hissue]
  have hou := State.team?_uid ho.1
  simp only [State.modTeam_of_only ho]
  set u1 : Team := u.modHead (fun e => { e with issued := true }) with hu1
  have hu1t : u1.tiq = [{ E with issued := true }] := by simp [hu1, Team.modHead, ht]
  have hu1u : u1.uid = t.uid := by simp only [hu1, Team.modHead, ht]; exact hou
  have o1 : (s'.fill t.uid u1).Only t.uid u1 := State.only_fill u1 hu1u ho.1
  simp only [State.backToFront, State.modTeam_of_only o1]
  rw [State.fill_fill _ _ _ _ hu1u]
  set u2 : Team := { u1 with wait := .none, tileWalk := none } with hu2
  have hu2u : u2.uid = t.uid := hu1u
  have o2 : (s'.fill t.uid u2).Only t.uid u2 := State.only_fill u2 hu2u ho.1
  have hu1c : u1.copies = [] := by simp only [hu1, Team.modHead, ht]; exact hcp
  have hl : (s'.fill t.uid u2).copyLeft t.uid = 0 := by
    simp only [State.copyLeft, o2.1]
    rw [show u2.copies = [] from hu1c]
  simp only [hl, stepCopies, State.completeHead, State.leaveHead, State.modTeam_of_only o2]
  rw [State.fill_fill _ _ _ _ hu2u]
  have hd : u2.copyDone = true := by simp [Team.copyDone, show u2.copies = [] from hu1c]
  have hq2 : u2.tiq = [{ E with issued := true }] := hu1t
  simp only [hq2, hd, Bool.and_true, if_true]
  have hh2 : (u2.leave []).hist = [] := by rw [Team.leave_nil]; simp only [hu2, hu1, Team.modHead, ht]; exact hh
  have hl2 : (u2.leave []).late = [] := by rw [Team.leave_nil]; simp only [hu2, hu1, Team.modHead, ht]; exact hlt
  have hb3 : (u2.leave []).sbuf = [] := by rw [Team.leave_nil]; simp only [hu2, hu1, Team.modHead, ht]; exact hsb
  have hp3 : (u2.leave []).heldFault = none := by rw [Team.leave_nil]; simp only [hu2, hu1, Team.modHead, ht]; exact hp
  rw [Team.commit_quiet hh2 hl2]
  have hu3u : (u2.leave []).uid = t.uid := by rw [Team.leave_nil]; exact hu1u
  have o3 : (s'.fill t.uid (u2.leave [])).Only t.uid (u2.leave []) := State.only_fill _ hu3u ho.1
  rw [State.settle_quiet o3 hb3 hh2 hl2]
  simp only [State.takeHeld, o3.1, hp3]
  simp only [State.past, State.modTeam_of_only ho]
  congr 1
  simp only [Team.leave_nil]
  simp [hu2, hu1, Team.modHead, ht]

end Sys2Proof.Machine
end

