-- ==== Sys2Proof/Tests/World.lean ====
section
/-!
SUPPORT. A small machine for the tests and the witnesses: one context on package 0 whose window shows page 0, a few records
in a core's own scratchpad, one region, one vintage table, and one team whose tiles are small.
-/

set_option Elab.async false

namespace Sys2Proof.Tests

open Sys2Proof.Machine

/-- A record of two dimensions in the core's own scratchpad with every right. -/
def shp (etype layout base rows cols stride nnz : Nat) : Shape :=
  ⟨BitVec.ofNat 64 (2 * 2 ^ 61 + etype * 2 ^ 56 + layout * 2 ^ 54 + base),
   BitVec.ofNat 64 (2 ^ 63 + 0x1F * 2 ^ 52 + base + 0x1000), BitVec.ofNat 64 (base + 0x800),
   BitVec.ofNat 64 (cols - 1 + (rows - 1) * 65536), BitVec.ofNat 64 (nnz * 2 ^ 48), BitVec.ofNat 64 stride, 0, 0⟩

/-- A record in the window's first page. -/
def wshp (etype ndim base rows cols stride : Nat) : Shape :=
  ⟨BitVec.ofNat 64 (ndim * 2 ^ 61 + etype * 2 ^ 56 + 2 * 2 ^ 52 + winBase + base),
   BitVec.ofNat 64 (2 ^ 63 + 0x1F * 2 ^ 52 + winBase + base + 0x1000), 0,
   BitVec.ofNat 64 (cols - 1 + (rows - 1) * 65536), 0, BitVec.ofNat 64 stride, 0, 0⟩

/-- Its records: 1 INT32, 2 FP32, 3 MX E4M3, 4 packed INT32, 5 INT8, 6 BF16; in the window 7 FP32,
8 a list of four INT32. -/
def recs0 : KMap Shape :=
  [(1, shp 3 0 0x1000 2 2 8 0), (2, shp 16 0 0x2000 2 2 8 0), (3, shp 12 2 0x3000 2 32 32 0), (4, shp 3 3 0x4000 2 2 8 4),
   (5, shp 0x01 0 0x5000 2 2 8 0), (6, shp 15 0 0x6000 2 2 8 0), (7, wshp 16 2 0x30000 2 2 8), (8, wshp 3 1 0x31000 1 4 0)]

/-- A region of sixteen words of add.i64 at an offset of the window's first page. -/
def region0 : Region := ⟨winBase + 0x10000, 16, 2, 1, 0, false, false, 0, [], [], []⟩

/-- A vintage table of two blocks. -/
def table0 : VTable := ⟨0, 4, 2, 4, 16, winBase + 0x20000, []⟩

/-- Memory before the context started: a lane-function table at 0x8000 whose functions 0 and 1, the second packed, return
their first scalar operand; all four bits of record 4's bitmap set. -/
def start0 : Memory :=
  Memory.putCells [] (cellsAt (devKey 0 0x8000)
    (natToBytes 8 (2 ^ 63 + winBase + 0x8100) ++ natToBytes 8 (2 ^ 63 + 2 ^ 56 + winBase + 0x8104)) ++
   cellsAt (devKey 0 0x8100) (natToBytes 4 (0x29 * 2 ^ 26 + 28 * 2 ^ 16) ++ natToBytes 4 (0x29 * 2 ^ 26 + 28 * 2 ^ 16 + 3 * 64)) ++
   cellsAt (scrKey 0 0x4000) [3, 3])

/-- The context. -/
def cx : Ctx := { Ctx.forFetch start0 with obj := recs0, regions := [(1, region0)], tables := [(1, table0)] }

/-- The package. -/
def pk : Pkg := { Pkg.init with booted := true, ctxs := [(1, cx)] }

/-- A tile of a record's type. -/
def tile0 (h : Handle) (etype : BitVec 5) (layout : BitVec 2) (cols nnz : Nat) : Tile :=
  Tile.blank h ⟨etype, layout, BitVec.ofNat 16 nnz, 2, cols⟩

/-- The team: tiles 1 to 3 INT32, 4 and 5 FP32, 6 MX E4M3, 7 packed INT32, 8 and 9 INT8, 10 BF16, 11 FP32 of 32 columns, 13
dense E4M3. -/
def tm : Team :=
  { Team.init with
    uid := 1, ctx := 1, launch := 2, status := .running, pc := BitVec.ofNat 64 winBase, split := 1, slip := 4, ext := 2,
    extc := 2, lfsr := 1, lft := BitVec.ofNat 52 (winBase + 0x8000),
    tiles := Vector.ofFn (fun n => match n.val with
      | 1 | 2 | 3 => some (tile0 1 3 0 2 0)
      | 4 | 5 => some (tile0 2 16 0 2 0)
      | 6 => some (tile0 3 12 2 32 0)
      | 7 => some (tile0 4 3 3 2 4)
      | 8 | 9 => some (tile0 5 1 0 2 0)
      | 10 => some (tile0 6 15 0 2 0)
      | 11 => some (tile0 2 16 0 32 0)
      | 13 => some (tile0 3 12 0 2 0)
      | _ => none) }

/-- The team with some registers set. -/
def regs (t : Team) (l : List (Nat × Nat)) : Team :=
  { t with s := l.foldl (fun v x => v.set! x.1 (BitVec.ofNat 64 x.2)) t.s }

/-- The machine with that team, whose turn it is. -/
def st (t : Team) : State :=
  { State.reset with
    nextId := 10, teams := [t], cur := t.uid, launches := [Launch.forFetch 2], pkgs := [(0, pk)] }

theorem issuing_in {s : State} {t : Team} (h : s.team? s.cur = some t) (hr : t.status = .running) :
    s.issuing? = some t := by
  simp [State.issuing?, State.curTeam?, h, hr]

theorem issues_in {s : State} {t : Team} {i : Instr} (h : s.team? s.cur = some t) (hr : t.status = .running)
    (hm : t.mustWait i = false) : s.Issues t i := ⟨issuing_in h hr, hm⟩

theorem issuing_st {t : Team} (h : t.status = .running) : (st t).issuing? = some t := by
  simp [State.issuing?, State.curTeam?, st, State.team?, h]

theorem issues_st {t : Team} {i : Instr} (h : t.status = .running) (hm : t.mustWait i = false) : (st t).Issues t i :=
  ⟨issuing_st h, hm⟩

/-- What makes the sequencer take a tile-side instruction at once. -/
def takesIn (s : State) (t : Team) (i : Instr) : Bool :=
  t.tiq.isEmpty && t.copies.isEmpty && t.hist.isEmpty && t.sbuf.isEmpty && t.heldFault.isNone &&
  t.pairing.isNone && t.tileWalk.isNone && t.late.isEmpty && !s.ahead && decide (0 < t.slip.toNat) &&
  decide (t.credits < 16) && (t.place i).roomFor (s.entryAt t i) &&
  (match tileAccept i (s.atAccept t i), tileCode i (s.atAccept t i) with
   | .ok (), none => true
   | .ok (), some (.ok _) => true
   | _, _ => false)

theorem takes_in {s : State} {t : Team} {i : Instr} (hs : s.team? s.cur = some t) (hr : t.status = .running)
    (h : takesIn s t i = true) : s.Takes t i := by
  simp only [takesIn, Bool.and_eq_true, List.isEmpty_iff, Option.isNone_iff_eq_none, decide_eq_true_eq,
    Bool.not_eq_true'] at h
  obtain ⟨⟨⟨⟨⟨⟨⟨⟨⟨⟨⟨⟨h1, h2⟩, h3⟩, h4⟩, h5⟩, h6⟩, h7⟩, hb⟩, h0⟩, h8⟩, h9⟩, hs'⟩, ha⟩ := h
  refine ⟨issuing_in hs hr, ⟨h1, h2, h3, h4, h5, h6, h7, hb⟩, h0, h8, fun _ => h9, ?_, hs', ?_⟩
  · split at ha <;> simp_all
  · split at ha <;> simp_all

/-- The same on this machine. -/
def takesB (t : Team) (i : Instr) : Bool := (t.status == .running) && takesIn (st t) t i

theorem takes_st {t : Team} {i : Instr} (h : takesB t i = true) : (st t).Takes t i := by
  simp only [takesB, Bool.and_eq_true, beq_iff_eq] at h
  exact takes_in (by simp [st, State.team?]) h.1 h.2

/-- The hypotheses of a statement about a tile-side instruction on this machine: it is taken, its extent is not empty, its
streams have delivered. -/
def liveB (t : Team) (i : Instr) (srcs : List TReg) : Bool :=
  takesB t i && ((st t).atRun t i).c.live && ((st t).atRun t i).t.streamsReady ((st t).atRun t i).c.er srcs

/-- The same as a statement. -/
def Live (t : Team) (i : Instr) (srcs : List TReg) : Prop :=
  (st t).Takes t i ∧ ((st t).atRun t i).c.live = true ∧
    ((st t).atRun t i).t.streamsReady ((st t).atRun t i).c.er srcs = true

theorem live_st {t : Team} {i : Instr} {srcs : List TReg} (h : liveB t i srcs = true) : Live t i srcs := by
  simp only [liveB, Bool.and_eq_true] at h
  exact ⟨takes_st h.1.1, h.1.2, h.2⟩

/-- Each of some instructions is taken so. -/
theorem takes_each {t : Team} {is : List Instr} (h : is.all (takesB t) = true) : ∀ i ∈ is, (st t).Takes t i :=
  fun i hi => takes_st (List.all_eq_true.mp h i hi)

/-- Each of some instructions, with its sources, is taken so over an extent. -/
theorem live_each {t : Team} {l : List (Instr × List TReg)} (h : l.all (fun x => liveB t x.1 x.2) = true) :
    ∀ x ∈ l, Live t x.1 x.2 := fun x hx => live_st (List.all_eq_true.mp h x hx)

/-- Whether a check answers a value that `p` holds of. -/
def yields {ε α : Type} (x : Except ε α) (p : α → Bool := fun _ => true) : Bool := x.toOption.any p

end Sys2Proof.Tests
end

