-- ==== Sys2Proof/Tests/Slice0.lean ====
section
/-!
SUPPORT. Decoding of words written out from the manual's encoding tables, the reserved encodings that decoding refuses, one
ill-formed term for each check of `Instr.wellFormed`, and results of the manual's worked examples. The words of this file
come from the tables by an assembler written apart from the decoder, or stand in the manual itself.
-/

set_option Elab.async false

namespace Sys2Proof.Tests

open Sys2Proof.Machine

/-! ### Words of every program instruction -/

/-- Words of Table 2.8, Table 4.5, Table 4.6, R55. -/
theorem test_decode_scalarAlu :
    decodeTableWord 64 0x4000000000000000 = some (.nop) ∧
    decodeTableWord 64 0x43f3088300000004 = some (.hint .s 3 0x088300000004) ∧
    decodeTableWord 64 0x4001224300000011 = some (.add ⟨false, true, true⟩ 4 9 (.reg 17)) ∧
    decodeTableWord 64 0x40022a4300000011 = some (.sub ⟨false, true, true⟩ 5 9 (.reg 17)) ∧
    decodeTableWord 64 0x4003324300000011 = some (.mul ⟨false, true, true⟩ 6 9 (.reg 17)) ∧
    decodeTableWord 64 0x40045a25fffffff0 = some (.mulh ⟨true, false, true⟩ 11 8 (.imm 0xfffffff0)) ∧
    decodeTableWord 64 0x40056225fffffff1 = some (.div ⟨true, false, true⟩ 12 8 (.imm 0xfffffff1)) ∧
    decodeTableWord 64 0x40066a25fffffff2 = some (.rem ⟨true, false, true⟩ 13 8 (.imm 0xfffffff2)) ∧
    decodeTableWord 64 0x400d7225fffffff3 = some (.min ⟨true, false, true⟩ 14 8 (.imm 0xfffffff3)) ∧
    decodeTableWord 64 0x400e7a25fffffff4 = some (.max ⟨true, false, true⟩ 15 8 (.imm 0xfffffff4)) ∧
    decodeTableWord 64 0x40071d000000001f = some (.and ⟨false, false, false⟩ 3 20 (.reg 31)) ∧
    decodeTableWord 64 0x40081d400000001f = some (.or ⟨false, false, false⟩ 3 21 (.reg 31)) ∧
    decodeTableWord 64 0x40091d800000001f = some (.xor ⟨false, false, false⟩ 3 22 (.reg 31)) ∧
    decodeTableWord 64 0x400a1d2400000004 = some (.shl ⟨true, false, false⟩ 3 20 (.imm 4)) ∧
    decodeTableWord 64 0x400b1d6400000004 = some (.shr ⟨true, false, false⟩ 3 21 (.imm 4)) ∧
    decodeTableWord 64 0x400c1da400000004 = some (.sra ⟨true, false, false⟩ 3 22 (.imm 4)) ∧
    decodeTableWord 64 0x400f2f8400000000 = some (.clz true 5 30) ∧
    decodeTableWord 64 0x4010378400000000 = some (.ctz true 6 30) ∧
    decodeTableWord 64 0x40113f8400000000 = some (.popc true 7 30) := by decide

/-- Words of Table 4.5. -/
theorem test_decode_scalarMoves :
    decodeTableWord 64 0x401231c300000008 = some (.sel 3 6 7 (.reg 8)) ∧
    decodeTableWord 64 0x401329f6fffffffe = some (.cmp 6 2 5 7 (.imm 0xFFFFFFFE)) ∧
    decodeTableWord 64 0x4014194500000000 = some (.gop 5 3 5 0) ∧
    decodeTableWord 64 0x401549030000000c = some (.lea 9 (.index 4 12 3)) ∧
    decodeTableWord 64 0x4015492000000080 = some (.lea 9 (.base 4 0x80)) ∧
    decodeTableWord 64 0x40154821fffffff8 = some (.lea 9 (.label 0xFFFFFFF8)) ∧
    decodeTableWord 64 0x4016492600000040 = some (.ld 2 true 9 4 (.imm 0x40)) ∧
    decodeTableWord 64 0x4017490100000003 = some (.st 1 9 4 (.reg 3)) ∧
    decodeTableWord 64 0x401820e300000000 = some (.ldff 3 false 4 3 (.imm 0)) ∧
    decodeTableWord 64 0x4019b00000000000 = some (.bqpop 22) ∧
    decodeTableWord 64 0x401a402000000013 = some (.mfs 8 19) ∧
    decodeTableWord 64 0x401b022000000006 = some (.mts 6 8) ∧
    decodeTableWord 64 0x4080382000000028 = some (.li 7 40) ∧
    decodeTableWord 128 0x123456789abcdefc080382000000000 = some (.liX 7 0x0123456789ABCDEF) ∧
    decodeTableWord 64 0x40813820deadbeef = some (.lih 7 0xDEADBEEF) := by decide

/-- Words of Table 4.5, Tables 4.8, 13.2 and 14.1; the LOOP word is that of R133. -/
theorem test_decode_scalarControl :
    decodeTableWord 64 0x40820020fffffffb = some (.br 0xFFFFFFFB) ∧
    decodeTableWord 64 0x408307e000000018 = some (.jmp 31 24) ∧
    decodeTableWord 64 0x4084f02000000064 = some (.call 30 (.label 100)) ∧
    decodeTableWord 64 0x4084f74000000000 = some (.call 30 (.reg 29)) ∧
    decodeTableWord 64 0x4085078000000000 = some (.ret 30) ∧
    decodeTableWord 64 0x40862020fffffffd = some (.loop 4 0xFFFFFFFD) ∧
    decodeTableWord 64 0x4087000500000000 = some (.drain true false true) ∧
    decodeTableWord 64 0x4088f02000000006 = some (.yield 30 6) ∧
    decodeTableWord 64 0x4089282000000000 = some (.exit 5) ∧
    decodeTableWord 64 0x4089302000000001 = some (.shapeSet 6) ∧
    decodeTableWord 64 0x4089382000000002 = some (.shapeInv 7) ∧
    decodeTableWord 64 0x4089402000000003 = some (.yieldDone 8) ∧
    decodeTableWord 64 0x4089a82000000010 = some (.regionSet 21) ∧
    decodeTableWord 64 0x4089b02000000011 = some (.regionRel 22) ∧
    decodeTableWord 64 0x4089b82000000012 = some (.regionStat 23) ∧
    decodeTableWord 64 0x4089282000000020 = some (.vntSet 5) ∧
    decodeTableWord 64 0x4089302000000021 = some (.vntRel 6) ∧
    decodeTableWord 64 0x4089382000000022 = some (.vntInv 7) ∧
    decodeTableWord 64 0x4089302000000013 = some (.svcUnassigned 6 0x13) ∧
    decodeTableWord 64 0x408a00200000beef = some (.trap 0xBEEF) ∧
    decodeTableWord 64 0x408b002000001234 = some (.brk 0x1234) := by decide

/-- Words of Table 5.5; the last is the pair word of R69. -/
theorem test_decode_tileSlots :
    decodeTableWord 64 0x8101143120000008 = some (.tadd true 0 5 ⟨3, true⟩ ⟨4, false⟩) ∧
    decodeTableWord 64 0x8102183120000009 = some (.tsub true 1 6 ⟨3, true⟩ ⟨4, false⟩) ∧
    decodeTableWord 64 0x81031c312000000a = some (.tmul true 2 7 ⟨3, true⟩ ⟨4, false⟩) ∧
    decodeTableWord 64 0x810420312000000b = some (.tfma true 3 8 ⟨3, true⟩ ⟨4, false⟩) ∧
    decodeTableWord 64 0x8105f03120000006 = some (.tmax 60 ⟨3, true⟩ ⟨4, false⟩) ∧
    decodeTableWord 64 0x8106f43120000006 = some (.tmin 61 ⟨3, true⟩ ⟨4, false⟩) ∧
    decodeTableWord 64 0x8107f83120000066 = some (.tcmp 3 62 ⟨3, true⟩ ⟨4, false⟩) ∧
    decodeTableWord 64 0x8108fc3120000006 = some (.tsel 63 ⟨3, true⟩ ⟨4, false⟩) ∧
    decodeTableWord 64 0x8109289000000006 = some (.tmov 10 ⟨9, false⟩) ∧
    decodeTableWord 64 0x810a28902000000a = some (.tcvt 2 true false 10 ⟨9, true⟩) ∧
    decodeTableWord 64 0x810b100003008123 = some (.tld 4 0x8123 6) ∧
    decodeTableWord 64 0x810c100003008123 = some (.tst 4 0x8123 6) ∧
    decodeTableWord 64 0x810d100003008123 = some (.tldff 4 0x8123 6) ∧
    decodeTableWord 64 0x810e862000000006 = some (.ttrn 33 ⟨34, false⟩) ∧
    decodeTableWord 64 0x2286246 = some (.tadd false 6 5 ⟨3, true⟩ ⟨4, false⟩) := by decide

/-- Words of Table 5.5; the TGTH word is that of R154. -/
theorem test_decode_tileMoves :
    decodeTableWord 64 0x8180440000000203 = some (.tdecl 17 0x0203) ∧
    decodeTableWord 64 0x8181440000000000 = some (.trel 17) ∧
    decodeTableWord 64 0x8182011020000000 = some (.text ⟨17, true⟩) ∧
    decodeTableWord 64 0x81831c2042810040 = some (.tgth true 1 7 ⟨2, false⟩ 0x40 5) ∧
    decodeTableWord 64 0x81840020d2820041 = some (.tsct 2 ⟨2, false⟩ ⟨3, true⟩ 0x41 5) ∧
    decodeTableWord 64 0x8185240002980077 = some (.tcopy 9 0x77 5 6) ∧
    decodeTableWord 64 0x81850c0000190077 = some (.tcopyStr 3 0x77 6) ∧
    decodeTableWord 64 0x8186240000000000 = some (.twait false 9) ∧
    decodeTableWord 64 0x8186000000010000 = some (.twait true 0) ∧
    decodeTableWord 64 0x8187049000000000 = some (.qbind 1 9) ∧
    decodeTableWord 64 0x8188140000000000 = some (.qrel 5) ∧
    decodeTableWord 64 0x8189200005800000 = some (.tfill 8 11) ∧
    decodeTableWord 64 0x818a200005b00000 = some (.tiota 8 11 12) ∧
    decodeTableWord 64 0x818b209290030065 = some (.tslide 3 (some ⟨10, true⟩) 8 ⟨9, false⟩ 37) ∧
    decodeTableWord 64 0x818b209020010001 = some (.tslide 1 none 8 ⟨9, true⟩ 1) ∧
    decodeTableWord 64 0x818c30d000000000 = some (.tpack 12 ⟨13, false⟩) ∧
    decodeTableWord 64 0x818d30d020000000 = some (.tunpk 12 ⟨13, true⟩) ∧
    decodeTableWord 64 0x818e30d000000009 = some (.tqnt 1 true 12 ⟨13, false⟩) ∧
    decodeTableWord 64 0x818f30d000000005 = some (.tdqt 5 none 12 ⟨13, false⟩) ∧
    decodeTableWord 64 0x818f30d1c0010006 = some (.tdqt 6 (some 7) 12 ⟨13, false⟩) := by decide

/-- Words of Table 5.5. -/
theorem test_decode_lanes :
    decodeTableWord 64 0x81900420e21613fe = some (.map ⟨3, false, true⟩ 2 1 ⟨2, true⟩ ⟨3, false⟩ 4 5 0xFE) ∧
    decodeTableWord 64 0x8191042022158a01 = some (.reduce true false ⟨2, true, false⟩ 1 ⟨2, true⟩ ⟨0, false⟩ 4 5 (.builtin 1)) ∧
    decodeTableWord 64 0x81920420d2160633 = some (.scan false true ⟨6, false, false⟩ 1 ⟨2, false⟩ ⟨3, true⟩ 4 5 (.fn 0x33)) ∧
    decodeTableWord 64 0x81930020c2160409 = some (.trds true 4 ⟨2, false⟩ ⟨3, false⟩ 4 5 (.fn 9)) := by decide

/-- Words of Table 6.4. -/
theorem test_decode_matrix :
    decodeTableWord 64 0x8200007021910000 = some (.ldb (some 4) ⟨7, true⟩ 3) ∧
    decodeTableWord 64 0x8200007001800000 = some (.ldb none ⟨7, false⟩ 3) ∧
    decodeTableWord 64 0x8201009001910055 = some (.ldbm (some 9) 0x55 3 4) ∧
    decodeTableWord 64 0x82020860252c0000 = some (.mma 0 2 ⟨6, true⟩ 10 11 none) ∧
    decodeTableWord 64 0x82023c67052f0000 = some (.mma 3 15 ⟨6, false⟩ 10 11 (some 12)) ∧
    decodeTableWord 64 0x82033c97052d0021 = some (.mmam 1 15 0x21 10 11 9 (some 12)) ∧
    decodeTableWord 64 0x8204042001900000 = some (.mmat 1 ⟨2, false⟩ 3 4) ∧
    decodeTableWord 64 0x8205380000010000 = some (.aclr true 14) ∧
    decodeTableWord 64 0x82065054c31d0012 = some (.ard true ⟨2, false, true⟩ 20 5 6 7 (some 3)) ∧
    decodeTableWord 64 0x8207155003010000 = some (.awr true 5 ⟨21, false⟩ 6) ∧
    decodeTableWord 64 0x8208585003010000 = some (.amaxa true 22 5 6) ∧
    decodeTableWord 64 0x82092d7020030002 = some (.tscl 2 3 11 ⟨23, true⟩) ∧
    decodeTableWord 64 0x820a619683800000 = some (.route 24 26 ⟨25, false⟩ 7) ∧
    decodeTableWord 64 0x820b6dc004250180 = some (.ablk true true 27 ⟨28, false⟩ 8 9 128) ∧
    decodeTableWord 64 0x820c75e7c52c0000 = some (.iwalk 29 31 ⟨30, false⟩ 10 11) := by decide

/-- Words of Tables 9.4 and 9.5, R249 to R256. -/
theorem test_decode_cluster :
    decodeTableWord 64 0x428029e200040042 = some (.send 2 7 5 4 0x42) ∧
    decodeTableWord 64 0x8281047004000051 = some (.sendt 1 ⟨7, false⟩ 8 0 0x51) ∧
    decodeTableWord 64 0x4282402000010061 = some (.recv ⟨true, false⟩ 8 0 0x61) ∧
    decodeTableWord 64 0x8283240005020000 = some (.recvt ⟨false, true⟩ 9 10 0) ∧
    decodeTableWord 64 0x4284002500050007 = some (.probe true ⟨true, false⟩ 5 0 7) ∧
    decodeTableWord 64 0x4285002000000001 = some (.bar 1) ∧
    decodeTableWord 64 0x428628c000000264 = some (.claim 2 5 3 4) ∧
    decodeTableWord 64 0x4287402300000014 = some (.fork 3 8 20) ∧
    decodeTableWord 64 0x4288020000000000 = some (.join 8) ∧
    decodeTableWord 64 0x42890224fffffff0 = some (.spawn 4 8 0xFFFFFFF0) ∧
    decodeTableWord 64 0x428a400600000000 = some (.take 6 8) ∧
    decodeTableWord 64 0x428b42400000000a = some (.launch 8 9 10) := by decide

/-- Words of Tables 11.7 and 11.8. -/
theorem test_decode_die :
    decodeTableWord 64 0x42a0214000000203 = some (.syncTas 2 4 5 3) ∧
    decodeTableWord 64 0x42a028c100000404 = some (.syncFadd 4 5 3 4) ∧
    decodeTableWord 64 0x42a030c200000447 = some (.syncWait 2 4 6 3 7) ∧
    decodeTableWord 64 0x42a0214300000100 = some (.syncLd 1 4 5) ∧
    decodeTableWord 64 0x42a0014400000306 = some (.syncSt 3 5 6) ∧
    decodeTableWord 64 0x42a1012000010000 = some (.pref false 4 (.imm 0x10000)) ∧
    decodeTableWord 64 0x42a1010100000009 = some (.pref true 4 (.reg 9)) ∧
    decodeTableWord 64 0x42a2012200000040 = some (.evict 2 4 (.imm 0x40)) ∧
    decodeTableWord 64 0x42a3214000000006 = some (.winq 4 5 (.reg 6)) := by decide

/-- Words of Tables 13.5, 13.6 and 14.3, R342. -/
theorem test_decode_pressVintage :
    decodeTableWord 64 0x82c00020c0000001 = some (.upd false ⟨2, false⟩ ⟨3, false⟩ 1) ∧
    decodeTableWord 64 0x82c00020e00103ff = some (.upd true ⟨2, true⟩ ⟨3, false⟩ 1023) ∧
    decodeTableWord 64 0x42c1290000020000 = some (.upds false 5 4 2) ∧
    decodeTableWord 64 0x42c2010000010006 = some (.rack 1 4 6) ∧
    decodeTableWord 64 0x42c3390000030000 = some (.rackr 7 4 3) ∧
    decodeTableWord 64 0x82c4040002980011 = some (.vntq 1 0x11 5 6) ∧
    decodeTableWord 64 0x82c5000002980012 = some (.vntw 0x12 5 6) ∧
    decodeTableWord 64 0x42c6382000000006 = some (.vntc 2 true 7) := by decide

/-- Words of Table 16.2, R367, R369, R372. -/
theorem test_decode_fabric :
    decodeTableWord 128 0x200000000000093c2e039a200100061 = some (.fsend 2 6 7 0x10 0x61 0x0200000000000093) ∧
    decodeTableWord 64 0x42e1402000010061 = some (.frecv ⟨true, false⟩ 8 0 0x61) ∧
    decodeTableWord 64 0x82e224800a540000 = some (.allx 0 9 8 20 21) ∧
    decodeTableWord 64 0x82e324800a020031 = some (.fgth 2 9 8 0x31 20) ∧
    decodeTableWord 64 0x42e4002000000001 = some (.fbar 1) := by decide

/-- Words of R213, R215, Tables 7.3 and 7.8. -/
theorem test_decode_system :
    decodeTableWord 64 0x4300000100000000 = some (.phase 1) ∧
    decodeTableWord 64 0x4301002000000008 = some (.cfence 0 1) ∧
    decodeTableWord 64 0x430228c100000164 = some (.amo 1 true 1 5 3 4) ∧
    decodeTableWord 64 0x430228cb00000544 = some (.amo 11 false 5 5 3 4) ∧
    decodeTableWord 64 0x430328c000000264 = some (.cas true 2 5 3 4) ∧
    decodeTableWord 64 0x430428c000000000 = some (.eret 5 3) ∧
    decodeTableWord 64 0x430528c000000004 = some (.ctxs 5 3 4) ∧
    decodeTableWord 64 0x430628c000000004 = some (.ctxl 5 3 4) := by decide

/-! ### Pairs and guards -/

/-- The pair of R69: under g2, ADD s3, s3, 1 beside TLD t4, handle 0x123, s6. -/
theorem test_decode_pair : decodeWord 0x0808C6181620C483 0 =
    .ok ⟨⟨false, 2⟩, .pair (.add ⟨false, false, false⟩ 3 3 (.imm 1)) (.tld 4 0x123 6)⟩ := by decide

/-- The LD of R121 in a slot, and a slot immediate that is negative (R42). -/
theorem test_decode_slot : decodeTableWord 64 0x00B1448B00000000 = some (.ld 3 false 5 2 (.imm 8)) ∧
    decodeTableWord 64 0x9cd0800000000 = some (.add ⟨false, false, false⟩ 7 6 (.imm 0xFFFFFFF0)) := by decide

/-- An inverted guard index 5 on RACKR (R39). -/
theorem test_decode_guard : decodeWord 0x76C3600000020000 0 = .ok ⟨⟨true, 5⟩, .long (.rackr 12 0 2)⟩ := by decide

/-- The literal of an X word reaches the instruction (R46). -/
theorem test_decode_literal : decodeWord 0xC2E039A200100061 0x0200000000000093 =
    .ok ⟨Guard.always, .long (.fsend 2 6 7 0x10 0x61 0x0200000000000093)⟩ := by decide

/-! ### Encodings that are not instructions -/

/-- an op of Table 2.8 without an entry; the reserved space; beyond IWALK; an unassigned SOP; TADD in an S word; SEND in a T word; FSEND in an S word; a TOP without a slot class; RET with an immediate; a register form with bit 5 of IMM32; TREL with a handle; an accumulator field above 15; g0 inverted; a scalar NOP slot with a destination; a tile NOP slot with a destination; rounding code 0b111; SYNC sub-function 5; CMP into g0 (Table 2.12). -/
theorem test_reserved :
    decodeWord 0x401c000000000000 0 = .error .unassignedOp ∧
    decodeWord 0x4380000000000000 0 = .error .unassignedOp ∧
    decodeWord 0x820d000000000000 0 = .error .unassignedOp ∧
    decodeWord 0xe0000000000000 0 = .error .unassignedOp ∧
    decodeWord 0x4101000000000000 0 = .error .wrongFormat ∧
    decodeWord 0x8280000000000000 0 = .error .wrongFormat ∧
    decodeWord 0x42e039a200000000 0 = .error .wrongFormat ∧
    decodeWord 0x1e000000 0 = .error .noSlotClass ∧
    decodeWord 0x4085078000000001 0 = .error .reservedBits ∧
    decodeWord 0x4001084000000020 0 = .error .reservedBits ∧
    decodeWord 0x8181440000000001 0 = .error .reservedBits ∧
    decodeWord 0x8205400000000000 0 = .error .reservedBits ∧
    decodeWord 0x2000000000000000 0 = .error .guardInverted ∧
    decodeWord 0x400000000000 0 = .error .nopSlot ∧
    decodeWord 0x80000 0 = .error .nopSlot ∧
    decodeWord 0x8101143100000007 0 = .error .reservedCode ∧
    decodeWord 0x42a0214500000003 0 = .error .reservedCode ∧
    decodeWord 0x401301e000000001 0 = .error .reservedCode := by decide

/-- The all-zero word is a pair of NOPs (R44), and a hint of any other fields is a NOP of its own (R55). -/
theorem test_nops : decodeWord 0 0 = .ok ⟨Guard.always, .pair .nop .nop⟩ ∧
    decodeWord 0x83ffffffffffffff 0 = .ok ⟨Guard.always, .long (.hint .t 15 0xFFFFFFFFFFFF)⟩ := by decide

/-! ### Ill-formed terms -/

/-- Terms that no word encodes (Table 4.6, R126, R127, Table 4.5, R136, R135). -/
theorem test_ill_formed_scalar :
    Instr.wellFormed (.add ⟨false, false, true⟩ 1 2 (.imm 3)) = false ∧
    Instr.wellFormed (.sub ⟨false, false, true⟩ 1 2 (.imm 3)) = false ∧
    Instr.wellFormed (.mul ⟨true, false, true⟩ 1 2 (.imm 3)) = false ∧
    Instr.wellFormed (.mulh ⟨false, true, false⟩ 1 2 (.imm 3)) = false ∧
    Instr.wellFormed (.div ⟨false, true, false⟩ 1 2 (.imm 3)) = false ∧
    Instr.wellFormed (.rem ⟨false, true, false⟩ 1 2 (.imm 3)) = false ∧
    Instr.wellFormed (.min ⟨false, true, false⟩ 1 2 (.imm 3)) = false ∧
    Instr.wellFormed (.max ⟨false, true, true⟩ 1 2 (.imm 3)) = false ∧
    Instr.wellFormed (.shl ⟨false, false, true⟩ 1 2 (.imm 3)) = false ∧
    Instr.wellFormed (.shr ⟨false, true, false⟩ 1 2 (.imm 3)) = false ∧
    Instr.wellFormed (.sra ⟨true, true, false⟩ 1 2 (.imm 3)) = false ∧
    Instr.wellFormed (.and ⟨true, false, false⟩ 1 2 (.imm 3)) = false ∧
    Instr.wellFormed (.or ⟨false, true, false⟩ 1 2 (.imm 3)) = false ∧
    Instr.wellFormed (.xor ⟨false, false, true⟩ 1 2 (.imm 3)) = false ∧
    Instr.wellFormed (.cmp 0 0 0 1 (.imm 0)) = false ∧
    Instr.wellFormed (.gop 0 0 1 2) = false ∧
    Instr.wellFormed (.ld 3 true 1 2 (.imm 0)) = false ∧
    Instr.wellFormed (.ldff 3 true 1 2 (.imm 0)) = false ∧
    Instr.wellFormed (.mfs 1 20) = false ∧
    Instr.wellFormed (.mts 7 1) = false ∧
    Instr.wellFormed (.drain false false false) = false ∧
    Instr.wellFormed (.svcUnassigned 1 0x11) = false := by decide

/-- Terms that no word encodes (R21, R154, R179, R185). -/
theorem test_ill_formed_tile :
    Instr.wellFormed (.tadd false 7 1 ⟨2, false⟩ ⟨3, false⟩) = false ∧
    Instr.wellFormed (.tsub false 7 1 ⟨2, false⟩ ⟨3, false⟩) = false ∧
    Instr.wellFormed (.tmul false 7 1 ⟨2, false⟩ ⟨3, false⟩) = false ∧
    Instr.wellFormed (.tfma false 7 1 ⟨2, false⟩ ⟨3, false⟩) = false ∧
    Instr.wellFormed (.tcvt 7 false false 1 ⟨2, false⟩) = false ∧
    Instr.wellFormed (.tgth false 3 1 ⟨2, false⟩ 1 0) = false ∧
    Instr.wellFormed (.tsct 3 ⟨1, false⟩ ⟨2, false⟩ 1 0) = false ∧
    Instr.wellFormed (.twait true 1) = false ∧
    Instr.wellFormed (.tqnt 7 false 1 ⟨2, false⟩) = false ∧
    Instr.wellFormed (.tdqt 7 none 1 ⟨2, false⟩) = false ∧
    Instr.wellFormed (.map ⟨7, false, false⟩ 1 1 ⟨2, false⟩ ⟨0, false⟩ 0 0 0) = false ∧
    Instr.wellFormed (.map ⟨0, false, false⟩ 0 1 ⟨2, false⟩ ⟨0, false⟩ 0 0 0) = false ∧
    Instr.wellFormed (.map ⟨0, false, false⟩ 1 1 ⟨2, false⟩ ⟨3, false⟩ 0 0 0) = false ∧
    Instr.wellFormed (.reduce false false ⟨7, false, false⟩ 1 ⟨2, false⟩ ⟨0, false⟩ 0 0 (.fn 0)) = false ∧
    Instr.wellFormed (.reduce false false ⟨0, false, false⟩ 1 ⟨2, false⟩ ⟨3, false⟩ 0 0 (.fn 0)) = false ∧
    Instr.wellFormed (.scan false true ⟨0, false, false⟩ 1 ⟨2, false⟩ ⟨3, false⟩ 0 0 (.builtin 0)) = false ∧
    Instr.wellFormed (.scan false false ⟨0, false, false⟩ 1 ⟨2, false⟩ ⟨0, false⟩ 0 0 (.builtin 3)) = false ∧
    Instr.wellFormed (.trds false 7 ⟨2, false⟩ ⟨0, false⟩ 0 0 (.fn 0)) = false ∧
    Instr.wellFormed (.trds false 0 ⟨2, false⟩ ⟨0, true⟩ 0 0 (.fn 0)) = false ∧
    Instr.wellFormed (.ard false ⟨7, false, false⟩ 1 2 0 0 none) = false ∧
    Instr.wellFormed (.tscl 3 0 1 ⟨2, false⟩) = false ∧
    Instr.wellFormed (.ablk false false 1 ⟨2, false⟩ 0 0 0) = false ∧
    Instr.wellFormed (.ablk false false 1 ⟨2, false⟩ 0 0 129) = false := by decide

/-- Terms that no word encodes (R243, R250 to R254, Table 11.8, R279, R334, R342, R363, R367, R213, R215, Table 7.4). -/
theorem test_ill_formed_outward :
    Instr.wellFormed (.send 0 1 2 0 0) = false ∧
    Instr.wellFormed (.sendt 0 ⟨1, false⟩ 2 0 0) = false ∧
    Instr.wellFormed (.recv ⟨true, false⟩ 0 0 0) = false ∧
    Instr.wellFormed (.recv ⟨false, true⟩ 31 1 0) = false ∧
    Instr.wellFormed (.recv ⟨true, false⟩ 1 2 0) = false ∧
    Instr.wellFormed (.recv ⟨false, true⟩ 1 2 3) = false ∧
    Instr.wellFormed (.recvt ⟨true, false⟩ 1 2 0) = false ∧
    Instr.wellFormed (.probe false ⟨false, false⟩ 0 1 0) = false ∧
    Instr.wellFormed (.probe true ⟨false, true⟩ 1 1 5) = false ∧
    Instr.wellFormed (.claim 6 1 2 3) = false ∧
    Instr.wellFormed (.fork 0 1 2) = false ∧
    Instr.wellFormed (.spawn 0 1 2) = false ∧
    Instr.wellFormed (.take 0 1) = false ∧
    Instr.wellFormed (.syncTas 5 1 2 3) = false ∧
    Instr.wellFormed (.syncFadd 5 1 2 3) = false ∧
    Instr.wellFormed (.syncLd 6 1 2) = false ∧
    Instr.wellFormed (.syncSt 7 1 2) = false ∧
    Instr.wellFormed (.syncWait 6 0 1 2 3) = false ∧
    Instr.wellFormed (.syncWait 0 5 1 2 3) = false ∧
    Instr.wellFormed (.evict 3 1 (.imm 0)) = false ∧
    Instr.wellFormed (.vntq 0 1 2 3) = false ∧
    Instr.wellFormed (.vntc 3 false 1) = false ∧
    Instr.wellFormed (.fsend 0 1 2 3 4 5) = false ∧
    Instr.wellFormed (.frecv ⟨true, false⟩ 1 2 0) = false ∧
    Instr.wellFormed (.fgth 3 1 2 3 0) = false ∧
    Instr.wellFormed (.phase 6) = false ∧
    Instr.wellFormed (.cfence 5 0) = false ∧
    Instr.wellFormed (.cfence 0 7) = false ∧
    Instr.wellFormed (.cfence 2 2) = false ∧
    Instr.wellFormed (.amo 12 false 0 1 2 3) = false ∧
    Instr.wellFormed (.amo 9 true 0 1 2 3) = false ∧
    Instr.wellFormed (.amo 0 false 7 1 2 3) = false ∧
    Instr.wellFormed (.cas true 6 1 2 3) = false := by decide

/-! ### Results of the manual's worked examples -/

/-- ADD.s, ADD.s.w and SHR.w of R123, and its division corners. -/
theorem test_alu :
    alu .add ⟨false, true, false⟩ 0x7FFFFFFFFFFFFFFF 1 = (0x7FFFFFFFFFFFFFFF, true) ∧
    alu .add ⟨true, true, false⟩ 0x7FFFFFFF 1 = (0x7FFFFFFF, true) ∧
    alu .shr ⟨true, false, false⟩ 0x80000000 4 = (0x08000000, false) ∧
    alu .div ⟨false, false, false⟩ 0x8000000000000000 0xFFFFFFFFFFFFFFFF = (0x8000000000000000, false) ∧
    alu .rem ⟨false, false, false⟩ 0x8000000000000000 0xFFFFFFFFFFFFFFFF = (0, false) ∧
    alu .div ⟨true, false, false⟩ 5 0 = (0xFFFFFFFFFFFFFFFF, false) := by decide

/-- GOP.and with g0 copies and GOP.nand with itself negates (R127). -/
theorem test_gop : gopVal 0 true true = true ∧ gopVal 0 false true = false ∧ gopVal 5 true true = false ∧
    gopVal 5 false false = true := by decide

/-- The draw of R25's example, and the conversion it decides. -/
theorem test_draw : lfsrSeed 1 0 = 1 ∧ lfsrDraw 1 = (0xDB6D, 0xB6F6B6C3) ∧
    (roundV bf16 false rmSR 0xDB6D (fp32.dec 0x3F808000) false).1 = 0x3F81 ∧
    (roundV bf16 false rmRNE 0 (fp32.dec 0x3F808000) false).1 = 0x3F80 := by decide

/-- The E8M0 code 0 becomes the FP32 subnormal 0x00400000 (R30). -/
theorem test_e8m0 : (roundV fp32 false rmRNE 0 (e8m0Val 0) false).1 = 0x00400000 := by decide

/-- INT16 35,000 with and without .S (R32's example). -/
theorem test_saturate : narrowInt 16 true true 35000 = (32767, flSAT) ∧ narrowInt 16 true false 35000 = (65536 - 30536, 0) := by
  decide

/-- The minimum and maximum of R33's examples. -/
theorem test_minmax : (fminmax fp32 true 0x80000000 0).1 = 0 ∧ (fminmax fp32 false 0 0x80000000).1 = 0x80000000 ∧
    fminmax fp32 true 0x7FC00000 0x40400000 = (0x40400000, 0) ∧ fminmax fp32 true 0x7F800001 0x40400000 = (0x40400000, flNV) ∧
    (fminmax fp32 true 0x80000000 0x80000000).1 = 0x80000000 := by decide

/-- The group of the example after R36: 32,812 units of 2^−15, exact in the accumulator. -/
theorem test_group :
    (accGroup bf16 bf16 16 0 (([0x3F80, 0x39C0, 0x3A81] ++ List.replicate 29 0).map bf16.dec)
      ((List.replicate 32 0x3F80).map bf16.dec) 0x7F 0x7F).1 = 32767 * 2 ^ 63 + 44 * 2 ^ 48 := by decide +kernel

/-- VDOT2.i16x2 of R101's example, saturating and not. -/
theorem test_dot2 :
    (laneDot2 ⟨0x1E, 1, 2, 3, 0, 1⟩ 0xFFFE7530 0x00057530 2147000000 ⟨1, 0⟩).1 = 2147483647 ∧
    (laneDot2 ⟨0x1E, 1, 2, 3, 0, 0⟩ 0xFFFE7530 0x00057530 2147000000 ⟨1, 0⟩).1 = BitVec.ofInt 32 (-1247967306) := by decide

/-- The lane word of R92: m1? VFMA.f32.rne v5, v1, v2. -/
theorem test_lane_word : lword 0x10A11280 = ⟨4, 5, 1, 2, 1, 0x80⟩ := by decide

/-- VRSHR.i32 by 1 maps 5 to 3 and −5 to −2 (R101). -/
theorem test_rshr : laneRshr 0 32 5 1 = 3 ∧ laneRshr 0 32 (2 ^ 32 - 5) 1 = 2 ^ 32 - 2 := by decide

/-- Ports 3 then 9 as a route literal (R366), and the three granules of R293 on their stacks. -/
theorem test_route_and_stack : routeWord [3, 9] = 0x0200000000000093 ∧ stackOf 0x240000000 = 0 ∧ stackOf 0x240001000 = 1 ∧
    stackOf 0x240008000 = 1 := by decide

/-- The mesh of R236's example: logical cores 16 to 21 and 22 on beside the retired position of row 1. -/
theorem test_logical_cores :
    let m := kset (α := Mark) .working (kset .working [] 16 .retired) 23 .retired
    (workingCores m)[16]? = some (1, 0) ∧ (workingCores m)[21]? = some (1, 5) ∧ (workingCores m)[22]? = some (1, 7) ∧
    (workingCores m)[23]? = some (1, 8) := by decide +kernel

end Sys2Proof.Tests
end

