-- ==== Sys2Proof/Tests/WitnessA.lean ====
section
/-!
SUPPORT. Witnesses, first part: states and operands that meet the hypotheses of the statements about words, registers and
the scalar instructions, clause by clause.
-/

set_option Elab.async false

namespace Sys2Proof.Tests

open Sys2Proof.Machine

/-! ### Words and steps -/

theorem wit_decodeAfterEncode : ∃ e, (Instr.add ⟨false, false, false⟩ 7 2 (.imm 100000)).wellFormed = true ∧
    encode (.add ⟨false, false, false⟩ 7 2 (.imm 100000)) = some e ∧
    ¬((⟨true, 3⟩ : Guard).inv = true ∧ (⟨true, 3⟩ : Guard).idx = 0) := ⟨_, by decide, rfl, by decide⟩

/-- The machine with a word at the PC of its one team, which has the system attribute or not. -/
def at_ (ahead : Bool) (w : Nat) (sys : Bool := true) : State :=
  let s := State.reset.withFetchWord 64 w
  { s with teams := s.teams.map (fun t => { t with sys }), agenda := [if ahead then .ahead 1 else .team 1] }

/-- The state at the start of the turn, its team, and what the fetch then answers. -/
def turned (ahead : Bool) (w : Nat) (sys : Bool) (uid : Nat) : State :=
  State.settle { (at_ ahead w sys).tick with agenda := [], cur := uid, ahead } uid

def fetched (ahead : Bool) (w : Nat) (sys : Bool := true) : Option (Word × Word × State × Team) := do
  let t1 ← (turned ahead w sys 1).team? 1
  let f ← ((turned ahead w sys 1).fetchWord t1).toOption
  let s' := f.2.2.modTeam 1 (fun u => { u with word := f.1 })
  return (f.1, f.2.1, s', ← s'.team? 1)

theorem toOption_some {ε α : Type} {e : Except ε α} {a : α} (h : e.toOption = some a) : e = .ok a := by
  cases e <;> simp_all [Except.toOption]

theorem fetches_of (ahead : Bool) (w : Nat) (sys : Bool) (x l : Word) (s' : State) (t : Team)
    (h : fetched ahead w sys = some (x, l, s', t)) : (at_ ahead w sys).Fetches x l s' t := by
  have hturn : (at_ ahead w sys).tick.turn = (some (if ahead then .ahead 1 else .team 1),
      { (at_ ahead w sys).tick with agenda := [] }) := by cases ahead <;> rfl
  have hplaced : (turned ahead w sys 1).team? 1 = some ((at_ ahead w sys).teams.headD Team.init) := by cases ahead <;> rfl
  obtain ⟨t1, h1, ⟨_, _, s1⟩, hf, u, hu, ⟨⟩⟩ := by simpa only [fetched, bind, pure, Option.bind_eq_some_iff] using h
  have huid : t.uid = 1 := by simpa using List.find?_some hu
  have hheld : t1.heldFault = none := by
    cases hplaced.symm.trans h1; cases ahead <;> rfl
  rw [← huid] at hturn h1 hf
  exact ⟨ahead, _, s1, (at_ ahead w sys).teams.headD Team.init, t1, hturn, by rw [huid]; rfl, rfl, .inr rfl, h1, hheld,
    toOption_some hf, by rw [huid], by rw [huid]; exact hu⟩

theorem fetches_and {ahead : Bool} {w : Nat} {sys : Bool} {p : Word → Word → State → Team → Bool}
    (h : (match fetched ahead w sys with
      | some (x, l, s', t) => p x l s' t
      | none => false) = true) :
    ∃ x l s' t, (at_ ahead w sys).Fetches x l s' t ∧ p x l s' t = true := by
  split at h
  · next x l s' t hf => exact ⟨x, l, s', t, fetches_of ahead w sys x l s' t hf, h⟩
  · cases h

theorem wit_stepRunsDecoded : ∃ x l s' t, (at_ false 0x400138A0000186A0).Fetches x l s' t ∧
    (decide (decodeWord x l = .ok ⟨.always, .long (.add ⟨false, false, false⟩ 7 2 (.imm 100000))⟩) &&
      !isSystem (.long (.add ⟨false, false, false⟩ 7 2 (.imm 100000))) && !t.pending 0 && t.rg 0 == !Guard.always.inv) = true :=
  fetches_and (by decide +kernel)

theorem wit_stepRunsDecoded_system : ∃ x l s' t, (at_ false 0x430428C000000000).Fetches x l s' t ∧
    (decide (decodeWord x l = .ok ⟨.always, .long (.eret 5 3)⟩) && t.sys && !t.pending 0 &&
      t.rg 0 == !Guard.always.inv) = true := fetches_and (by decide +kernel)

theorem wit_falseGuard : ∃ x l s' t, (at_ false 0x440138A0000186A0).Fetches x l s' t ∧
    (decide (decodeWord x l = .ok ⟨⟨false, 1⟩, .long (.add ⟨false, false, false⟩ 7 2 (.imm 100000))⟩) &&
      !t.pending 1 && t.rg 1 == false) = true := fetches_and (by decide +kernel)

theorem wit_falseGuard_system : ∃ x l s' t, (at_ false 0x470428C000000000 false).Fetches x l s' t ∧
    (decide (decodeWord x l = .ok ⟨⟨false, 1⟩, .long (.eret 5 3)⟩) && isSystem (.long (.eret 5 3)) && !t.sys &&
      t.rg 1 == false) = true := fetches_and (by decide +kernel)

theorem wit_illegalWord : ((0x2000000000000000 : Word).getLsbD 61 = true ∧
      (0x2000000000000000 : Word).extractLsb' 58 3 = 0) ∧
    ∃ x l s' t, (at_ false 0x2000000000000000).Fetches x l s' t ∧ decide (decodeWord x l = .error .guardInverted) = true :=
  ⟨by decide, fetches_and (by decide +kernel)⟩

/-- A pair of NOP and TOP 0x0F, which has no slot class (R42). -/
theorem wit_illegalWord_slot : ∃ x l s' t, (at_ false 0x000000001E000000).Fetches x l s' t ∧
    decide (decodeWord x l = .error .noSlotClass) && decide (x.extractLsb' 62 2 = 0) &&
      decide (scalarSlot (x.extractLsb' 32 26) = .ok .nop) = true := fetches_and (by decide +kernel)

theorem wit_pairReadsBefore : ∃ x l s' t, (at_ true 0x0008C61802286246).Fetches x l s' t ∧
    (decide (decodeWord x l = .ok ⟨.always, .pair (aluInstr .add ⟨false, false, false⟩ 3 3 (.imm 1))
        (.tadd false 6 5 ⟨3, true⟩ ⟨4, false⟩)⟩) && !t.pending 0 && t.rg 0 == !Guard.always.inv && s'.cur == t.uid &&
      s'.ahead && t.status == .running && t.pairing.isNone && t.heldFault.isNone && !t.extPending &&
      decide (t.histEntries < 64) && decide (t.tiq.length < t.slip.toNat)) = true := fetches_and (by decide +kernel)

/-! ### Registers, history, faults -/

/-- The team in a pair word, with a branch-queue entry. -/
def tp : Team := { tm with pairing := some (3, tm.capture), wordSeq := 3, bq := [7], credits := 1 }

/-- A team whose guard 1 a SENDT in the TIQ will write. -/
def tpend : Team := { tm with tiq := [{ tm.entryFor (.sendt 1 ⟨1, false⟩ 2 0 0) with seq := 0 }], wordSeq := 1 }

/-- A team whose TIQ holds an ALLX alone, which has joined its exchange. -/
def tjoin : Team :=
  { tm with tiq := [{ tm.entryFor (.allx 0 1 2 4 5) with seq := 0, accepted := true, begun := true }], wordSeq := 1 }

theorem wit_registerWrites : ((5 : SReg) ≠ 0 ∧ (6 : SReg) ≠ 5 ∧ (2 : GReg) ≠ 0 ∧ (3 : GReg) ≠ 2) ∧ tp.pairing.isSome = true ∧
    (tpend.pairing = none ∧ tpend.clear = false) ∧ (tm.pairing = none ∧ tm.clear = true ∧ tm.behindOpen tm.seqHere = false) ∧
    (tjoin.pairing = none ∧ tjoin.clear = true ∧ tjoin.behindOpen tjoin.seqHere = true) := by decide +kernel

theorem wit_undoRestores : tp.logs = true ∧ (∀ u ∈ tp.hist ++ tp.late, u.seq < tp.seqHere) ∧ (6 : BitVec 5).toNat ≤ 6 ∧
    tp.bq = [7] ∧ 0 < tp.credits := by decide +kernel

theorem wit_faultTaken : (st tm).team? tm.uid = some tm ∧ tm.Quiet ∧ (st tm).teamCtx? tm = some cx ∧
    (st tm).launch? tm.launch = some (Launch.forFetch 2) := 
  ⟨rfl, { tiq := rfl, copies := rfl, hist := rfl, sbuf := rfl, held := rfl, pair := rfl, walk := rfl, late := rfl }, rfl, rfl⟩

/-! ### Arithmetic, logic, guards, constants -/

theorem wit_alu : (aluInstr .add ⟨true, true, true⟩ 3 4 (.imm 0xFFFFFFFF)).wellFormed = true ∧
    (st tm).Issues tm (aluInstr .add ⟨true, true, true⟩ 3 4 (.imm 0xFFFFFFFF)) :=
  ⟨by decide, issues_st rfl (by decide +kernel)⟩

theorem wit_count : (st tm).issuing? = some tm ∧ tm.mustWait (.clz true 3 4) = false ∧
    tm.mustWait (.ctz false 3 4) = false ∧ tm.mustWait (.popc false 3 4) = false :=
  ⟨issuing_st rfl, by decide +kernel⟩

/-- The team with guards set as `g` says. -/
def gd (g : BitVec 8) : Team := { tm with g }

theorem wit_sel : ((st (gd 3)).Issues (gd 3) (.sel 1 3 4 (.imm 5)) ∧ (gd 3).rg 1 = true) ∧
    ((st (gd 1)).Issues (gd 1) (.sel 1 3 4 (.imm 5)) ∧ (gd 1).rg 1 = false) ∧
    (st (gd 1)).Issues (gd 1) (.sel 0 3 4 (.imm 5)) ∧
    ((st tpend).issuing? = some tpend ∧ tpend.pending 1 = true) :=
  ⟨⟨issues_st rfl (by decide +kernel), by decide⟩, ⟨issues_st rfl (by decide +kernel), by decide⟩,
    issues_st rfl (by decide +kernel), issuing_st rfl, by decide +kernel⟩

theorem wit_guard : (st tm).Issues tm (.cmp 7 3 1 4 (.imm 0xFFFFFFFF)) ∧ (st tm).Issues tm (.gop 7 1 2 3) :=
  ⟨issues_st rfl (by decide +kernel), issues_st rfl (by decide +kernel)⟩

theorem wit_constant : (st tm).issuing? = some tm ∧ tm.mustWait (.li 3 0x80000000) = false ∧
    tm.mustWait (.liX 3 0x8000000000000000) = false ∧ tm.mustWait (.lih 3 0xFFFFFFFF) = false :=
  ⟨issuing_st rfl, by decide +kernel⟩

theorem wit_address : (st tm).issuing? = some tm ∧ tm.mustWait (.lea 3 (.index 4 5 7)) = false ∧
    tm.mustWait (.lea 3 (.base 4 0x80000000)) = false ∧ tm.mustWait (.lea 3 (.label 0xFFFFFFF8)) = false ∧
    tm.mustWait .nop = false ∧ tm.mustWait (.hint .x 15 0) = false ∧ tm.mustWait (.pref true 4 (.imm 64)) = false ∧
    tm.mustWait (.evict 2 4 (.imm 64)) = false ∧ tm.mustWait (.winq 3 4 (.imm 0)) = false ∧
    (st tm).teamCtx? tm = some cx := ⟨issuing_st rfl, by decide +kernel⟩

theorem wit_registerOnlyFrame : (st tm).Issues tm (.li 3 7) ∧ (Instr.li 3 7).registerOnly = true ∧
    (Instr.li 3 7).wellFormed = true ∧ ∃ s', exec (.li 3 7) (st tm) = .next s' :=
  ⟨issues_st rfl (by decide +kernel), rfl, rfl, _, rfl⟩

theorem wit_specialRegisters : (st tm).issuing? = some tm ∧ tm.mustWait (.mfs 3 19) = false ∧
    (tm.mustWait (.mts 6 4) = false ∧ sprFits 6 (tm.rs 4) = true) ∧
    (let t := regs tm [(4, 0x10000)]
     (st t).issuing? = some t ∧ t.mustWait (.mts 6 4) = false ∧ sprFits 6 (t.rs 4) = false) ∧
    (let t := { tm with bq := [7], credits := 1 }
     (st t).Issues t (.bqpop 3) ∧ t.bq = [7] ∧ t.credits ≠ 0) ∧
    ((st tm).Issues tm (.bqpop 3) ∧ tm.credits = 0) ∧
    (let t := { tm with credits := 1 }
     (st t).Issues t (.bqpop 3) ∧ t.bq = [] ∧ t.credits ≠ 0) :=
  ⟨issuing_st rfl, by decide +kernel, by decide +kernel, ⟨issuing_st rfl, by decide +kernel, by decide +kernel⟩,
    ⟨issues_st rfl (by decide +kernel), rfl, by decide⟩, ⟨issues_st rfl (by decide +kernel), rfl⟩,
    issues_st rfl (by decide +kernel), rfl, by decide⟩

/-! ### Transfers, waits, traps -/

theorem wit_loop :
    (let t := regs tm [(4, 1)]
     (st t).Issues t (.loop 4 0xFFFFFFFD) ∧ t.pc.toNat % 8 = 0 ∧ t.rs 4 - 1 = 0) ∧
    ((st tm).Issues tm (.loop 4 0xFFFFFFFD) ∧ tm.rs 4 - 1 ≠ 0) ∧ (st tm).Issues tm (.loop 0 0xFFFFFFFD) :=
  ⟨⟨issues_st rfl (by decide +kernel), by decide +kernel, by decide +kernel⟩,
    ⟨issues_st rfl (by decide +kernel), by decide +kernel⟩, issues_st rfl (by decide +kernel)⟩

theorem wit_transfers : (st tm).issuing? = some tm ∧
    (let t := regs tm [(4, 0x1001)]
     (st t).issuing? = some t ∧ t.pc.toNat % 8 = 0 ∧ t.mustWait (.call 3 (.reg 4)) = false ∧
       t.mustWait (.ret 4) = false ∧ (t.rs 4).toNat % 8 ≠ 0) ∧
    tm.pc.toNat % 8 = 0 ∧ tm.mustWait (.br 0xFFFFFFFF) = false ∧
    (tm.mustWait (.jmp 4 8) = false ∧ (tm.rs 4 + (8 : BitVec 32).signExtend 64).toNat % 8 = 0) ∧
    (tm.mustWait (.jmp 4 7) = false ∧ (tm.rs 4 + (7 : BitVec 32).signExtend 64).toNat % 8 ≠ 0) ∧
    tm.mustWait (.call 3 (.label 1)) = false ∧ (tm.mustWait (.call 3 (.reg 4)) = false ∧ (tm.rs 4).toNat % 8 = 0) ∧
    (tm.mustWait (.ret 4) = false ∧ (tm.rs 4).toNat % 8 = 0) :=
  ⟨issuing_st rfl, ⟨issuing_st rfl, by decide +kernel⟩, by decide +kernel⟩

theorem wit_drainYield : (st tm).issuing? = some tm ∧ (st tm).Clears tm.uid ∧
    (let t := { tm with preq := true }
     (st t).issuing? = some t ∧ (st t).Clears t.uid ∧ t.mustWait (.yield 3 4) = false ∧ t.preq = true) ∧
    tm.mustWait (.drain false true true) = false ∧ tm.mustWait (.drain true false false) = false ∧
    tm.mustWait (.yield 3 4) = false ∧ tm.preq = false :=
  ⟨issuing_st rfl, by rw [State.Clears]; decide +kernel,
    ⟨issuing_st rfl, by rw [State.Clears]; decide +kernel, by decide +kernel⟩, by decide +kernel⟩

theorem wit_trapBreak : (st tm).issuing? = some tm ∧ tm.pairing = none ∧ tm.mustWait (.trap 0xFFFF) = false ∧
    tm.mustWait (.brk 0xFFFF) = false ∧ ((st tpend).issuing? = some tpend ∧ tpend.pairing = none ∧ tpend.clear = false) ∧
    ((st tjoin).issuing? = some tjoin ∧ tjoin.pairing = none ∧ tjoin.tiq.length = 1 ∧ tjoin.heldFault = none ∧ tjoin.clear = true ∧
      tjoin.mustWait (.trap 0xFFFF) = false ∧ tjoin.mustWait (.brk 0xFFFF) = false) :=
  ⟨issuing_st rfl, rfl, by decide +kernel, by decide +kernel, ⟨issuing_st rfl, rfl, by decide +kernel⟩, issuing_st rfl, rfl,
    by decide +kernel⟩

/-! ### Scalar memory -/

/-- The team with s4 at an address of the window's page. -/
def ta (off : Nat) : Team := regs tm [(4, winBase + off)]

theorem wit_load : (∃ ks, (st (ta 0x100)).Issues (ta 0x100) (.ld 3 false 3 4 (.imm 8)) ∧
      (st (ta 0x100)).loadKeys (ta 0x100) ((ta 0x100).rs 4 + (ta 0x100).opd (.imm 8)) 8 = .ok ks) ∧
    ((st (ta 0x101)).Issues (ta 0x101) (.ld 1 true 3 4 (.imm 0)) ∧
      ((ta 0x101).rs 4 + (ta 0x101).opd (.imm 0)).toNat % 2 ^ (1 : BitVec 2).toNat ≠ 0) :=
  ⟨⟨keysFrom (devKey 0 0x108) 8, issues_st rfl (by decide +kernel), by decide +kernel⟩,
    issues_st rfl (by decide +kernel), by decide +kernel⟩

theorem wit_firstFaultLoad :
    (let t := { ta 0x100 with ext := 0 }
     (st t).Issues t (.ldff 0 true 3 4 (.imm 0)) ∧ t.ext = 0) ∧
    (let t := ta 0x100
     (st t).Issues t (.ldff 0 true 3 4 (.imm 0)) ∧ t.ext ≠ 0 ∧
       (st t).loadKeys t (t.rs 4 + t.opd (.imm 0)) 1 = .ok [devKey 0 0x100] ∧
       (st t).xlateScalar t .read (t.rs 4 + t.opd (.imm 0) + 1) = .ok (devKey 0 0x101)) ∧
    (let t := ta (2 ^ 25 - 1)
     (st t).Issues t (.ldff 0 true 3 4 (.imm 0)) ∧ t.ext.toNat = 2 ∧
       (st t).loadKeys t (t.rs 4 + t.opd (.imm 0)) 1 = .ok [devKey 0 (2 ^ 25 - 1)] ∧
       ∃ p q, (st t).xlateScalar t .read (t.rs 4 + t.opd (.imm 0) + 1) = .fault 0x07 p q) :=
  ⟨⟨issues_st rfl (by decide +kernel), rfl⟩,
    ⟨issues_st rfl (by decide +kernel), by decide, by decide +kernel, by decide +kernel⟩,
    issues_st rfl (by decide +kernel), by decide, by decide +kernel, _, _, rfl⟩

/-- A team with older tile-side work and a held store. -/
def tst : Team :=
  { ta 0x100 with
    tiq := [{ tm.entryFor (.trel 1) with seq := 5, accepted := true, issued := true }], wordSeq := 6,
    sbuf := [⟨4, [(devKey 0 0x200, 1)]⟩, ⟨5, [(devKey 0 0x201, 2)]⟩] }

/-- The team with a store behind an ALLX that has joined its exchange; in the scalar slot of a pair over an empty TIQ. -/
def tstj : Team := { ta 0x100 with tiq := tjoin.tiq, wordSeq := 1 }
def tstp : Team := { ta 0x100 with pairing := some (3, tm.capture), wordSeq := 3 }

theorem wit_store_clear :
    (∀ t ∈ [tstj, tstp], ∃ ks, (st t).scalarKeys t .write .team (t.rs 4 + t.opd (.imm 0)) 8 = .ok ks) ∧
    ((st tstj).Issues tstj (.st 3 3 4 (.imm 0)) ∧ tstj.clear = true ∧ tstj.pairing = none ∧ tstj.tiq ≠ []) ∧
    ((st tstp).Issues tstp (.st 3 3 4 (.imm 0)) ∧ tstp.clear = true ∧ tstp.pairing.isSome = true) :=
  ⟨by intro t h; exact ⟨keysFrom (devKey 0 0x100) 8, by revert h; revert t; decide +kernel⟩,
    ⟨issues_st rfl (by decide +kernel), by decide +kernel⟩, issues_st rfl (by decide +kernel), by decide +kernel⟩

theorem wit_store :
    ((st (ta 0x100)).Issues (ta 0x100) (.st 3 3 4 (.imm 0)) ∧ (ta 0x100).tiq = [] ∧ (ta 0x100).pairing = none ∧
      ∃ ks, (st (ta 0x100)).scalarKeys (ta 0x100) .write .team ((ta 0x100).rs 4 + (ta 0x100).opd (.imm 0)) 8 = .ok ks) ∧
    ((st tst).Issues tst (.st 3 3 4 (.imm 0)) ∧ tst.clear = false ∧
      ∃ ks, (st tst).scalarKeys tst .write .team (tst.rs 4 + tst.opd (.imm 0)) 8 = .ok ks) ∧
    ((st (ta 0x101)).Issues (ta 0x101) (.st 1 3 4 (.imm 0)) ∧
      ((ta 0x101).rs 4 + (ta 0x101).opd (.imm 0)).toNat % 2 ^ (1 : BitVec 2).toNat ≠ 0) ∧
    ((st tst).At tst.gid tst ∧ 4 < tst.safeSeq ∧ ∃ h hs, tst.sbuf = h :: hs ∧ h.seq = 4 ∧ ∀ x ∈ hs, h.seq < x.seq) :=
  ⟨⟨issues_st rfl (by decide +kernel), rfl, rfl, keysFrom (devKey 0 0x100) 8, by decide +kernel⟩,
    ⟨issues_st rfl (by decide +kernel), by decide +kernel, keysFrom (devKey 0 0x100) 8, by decide +kernel⟩,
    ⟨issues_st rfl (by decide +kernel), by decide +kernel⟩,
    ⟨rfl, rfl⟩, by decide +kernel, _, _, rfl, rfl, by decide⟩

theorem wit_storeFrame : (st tm).team? tm.uid = some tm ∧ (st tm).WritesFresh ∧
    (∀ w ∈ (st tm).writes, w.uid = tm.uid → w.path ≠ .team → kfind w.cells 5 = none) ∧
    kfind [((5 : Nat), (1 : Byte))] 5 = some 1 ∧ kfind [((5 : Nat), (1 : Byte))] 6 = none :=
  ⟨rfl, ⟨List.nodup_nil, fun w h => (by cases h)⟩, fun w h => (by cases h), rfl, rfl⟩

end Sys2Proof.Tests
end

