-- ==== Sys2Proof/Tests/WitnessB.lean ====
section
/-!
SUPPORT. Witnesses, second part: states and operands that meet the hypotheses of the statements about services and tiles,
clause by clause.
-/

set_option Elab.async false

namespace Sys2Proof.Tests

open Sys2Proof.Machine

/-! ### Services -/

theorem clears_st {t : Team} (h : ((st t).handOffAll t.uid).updEmpty t.uid = true) : (st t).Clears t.uid := h

theorem wit_exit : ((st tm).Issues tm (.exit 3) ∧ tm.parent = none ∧ tm.kids = [] ∧ (st tm).Clears tm.uid) ∧
    (let t := { tm with parent := some 9 }
     (st t).Issues t (.exit 3) ∧ t.parent.isSome = true) ∧
    (let t := { tm with kids := [9] }
     (st t).Issues t (.exit 3) ∧ t.kids ≠ []) :=
  ⟨⟨issues_st rfl (by decide +kernel), rfl, rfl, clears_st (by decide +kernel)⟩,
    ⟨issues_st rfl (by decide +kernel), rfl⟩, issues_st rfl (by decide +kernel), by decide⟩

/-- The team at a service: s1 to s7 as listed. -/
def tv (l : List Nat) : Team := regs tm ((l.zipIdx).map (fun x => (x.2 + 1, x.1)))

theorem wit_shapeServices : (st tm).issuing? = some tm ∧ (tm.mustWait (.shapeSet 3) = false ∧ tm.rs 1 = 0) ∧
    (let t := tv [0x1FFFF]
     (st t).issuing? = some t ∧ t.mustWait (.shapeSet 3) = false ∧ (t.rs 1).extractLsb' 16 48 ≠ 0) ∧
    (let t := tv [0xFFFF, winBase + 0x100]
     (st t).issuing? = some t ∧ t.mustWait (.shapeSet 3) = false ∧ t.rs 1 ≠ 0 ∧ (t.rs 1).extractLsb' 16 48 = 0 ∧
       (st t).svcKeys t .read (t.rs 2) 64 = .ok (some (keysFrom (devKey 0 0x100) 64))) ∧
    (let t := tv [0xFFFF]
     (st t).issuing? = some t ∧ t.mustWait (.shapeInv 3) = false ∧ t.rs 1 ≠ 0 ∧ (t.rs 1).extractLsb' 16 48 = 0 ∧
       (st t).teamCtx? t = some cx) ∧
    (tm.mustWait (.yieldDone 3) = false ∧ tm.preq = false) ∧
    (let t := { tm with preq := true, pdlEnd := 1 }
     (st t).issuing? = some t ∧ t.mustWait (.yieldDone 3) = false ∧ t.preq = true ∧ (st t).now < t.pdlEnd) ∧
    (let t := { tm with preq := true }
     (st t).issuing? = some t ∧ t.mustWait (.yieldDone 3) = false ∧ t.preq = true ∧ t.pdlEnd ≤ (st t).now) ∧
    tm.mustWait (.svcUnassigned 3 0xFFFF) = false :=
  ⟨issuing_st rfl, by decide +kernel, ⟨issuing_st rfl, by decide +kernel⟩, ⟨issuing_st rfl, by decide +kernel⟩,
    ⟨issuing_st rfl, by decide +kernel⟩, by decide +kernel, ⟨issuing_st rfl, by decide +kernel⟩, ⟨issuing_st rfl, by decide +kernel⟩,
    by decide +kernel⟩

theorem wit_regionServices :
    (let t := tv [1023, winBase + 0x40000, 16, 0x42, 0]
     (st t).issuing? = some t ∧ (st t).teamCtx? t = some cx ∧ t.mustWait (.regionSet 3) = false ∧
       regionStatus cx t.pkg (t.rs 1) (t.rs 2) (t.rs 3) (t.rs 4) (t.rs 5) = 0) ∧
    (let t := tv [1024, winBase + 0x40000, 16, 0x42, 0]
     (st t).issuing? = some t ∧ (st t).teamCtx? t = some cx ∧ t.mustWait (.regionSet 3) = false ∧
       regionStatus cx t.pkg (t.rs 1) (t.rs 2) (t.rs 3) (t.rs 4) (t.rs 5) ≠ 0) ∧
    (let t := tv [1, winBase + 0x100, 0]
     (st t).issuing? = some t ∧ (st t).teamCtx? t = some cx ∧ t.mustWait (.regionRel 3) = false ∧ 1 ≤ (t.rs 1).toNat ∧
       (t.rs 1).toNat ≤ 1023 ∧ kfind cx.regions (t.rs 1).toNat = some region0 ∧
       (st t).pendingFor t.pkg t.ctx (t.rs 1).toNat = false ∧
       (let mine := fun (k : PressKey) => k.ctx == t.ctx && k.handle == (t.rs 1).toNat
        let z := (st t).rackKeysOf t.pkg mine
        (z.pkg t.pkg).keys.any mine = false ∧ z.teamCtx? t = some cx) ∧
       t.mustWait (.regionStat 3) = false ∧ (t.rs 3).extractLsb' 1 63 = 0 ∧
       (st t).svcKeys t .write (t.rs 2) 40 = .ok (some (keysFrom (devKey 0 0x100) 40))) :=
  ⟨⟨issuing_st rfl, by decide +kernel⟩, ⟨issuing_st rfl, by decide +kernel⟩, issuing_st rfl, by decide +kernel⟩

theorem wit_vintageServices :
    (let t := tv [63, 0, 4, 1, 16 + 16 * 2 ^ 32, winBase + 0x40000]
     (st t).issuing? = some t ∧ (st t).teamCtx? t = some cx ∧ t.mustWait (.vntSet 3) = false ∧
       vntStatus cx t.pkg (t.rs 1) (t.rs 2) (t.rs 3) (t.rs 4) (t.rs 5) (t.rs 6) = 0) ∧
    (let t := tv [1, 1, 1]
     (st t).issuing? = some t ∧ (st t).teamCtx? t = some cx ∧ t.mustWait (.vntRel 3) = false ∧
       t.mustWait (.vntInv 3) = false ∧ t.mustWait (.vntc 2 true 3) = false ∧ 1 ≤ (t.rs 1).toNat ∧
       (t.rs 1).toNat ≤ 63 ∧ kfind cx.tables (t.rs 1).toNat = some table0 ∧
       (∀ u ∈ (st t).teams, ∀ e ∈ u.tiq, e.usesTable (t.rs 1).toNat = false) ∧ (t.rs 2).toNat < table0.nblk ∧
       (t.rs 2).toNat + (t.rs 3).toNat ≤ table0.nblk) :=
  ⟨⟨issuing_st rfl, by decide +kernel⟩, issuing_st rfl, by decide +kernel⟩

end Sys2Proof.Tests
end

