-- ==== Sys2Proof/Tests/WitnessC.lean ====
section
/-!
SUPPORT. Witnesses, third part: states and operands that meet the hypotheses of the statements about tiles and memory,
clause by clause.
-/

set_option Elab.async false

namespace Sys2Proof.Tests

open Sys2Proof.Machine

/-- A plain source. -/
def p (n : TReg) : Src := ⟨n, false⟩

/-- The team with an empty extent. -/
def t0 : Team := { tm with ext := 0 }

/-- The team with its extent one row of 32 columns. -/
def t32 : Team := { tm with ext := 1, extc := 32 }

/-- The tile `n` of the team, as the statements take it. -/
def tl (n : TReg) (q : Tile → Bool) : Bool := (tm.tile n).any (fun a => a.strm.isNone && q a)

theorem wit_elementWise :
    (∀ x ∈ [(Instr.tadd false 6 1 (p 2) (p 3), ([2, 3] : List TReg)), (.tsub true 6 1 (p 2) (p 3), [2, 3]),
      (.tmul false 6 4 (p 4) (p 5), [4, 5]), (.tfma false 6 4 (p 4) (p 4), [4, 4]), (.tmax 1 (p 2) (p 3), [2, 3]),
      (.tmin 1 (p 2) (p 3), [2, 3]), (.tcmp 7 1 (p 2) (p 3), [2, 3]), (.tsel 1 (p 2) (p 3), [2, 3])], Live tm x.1 x.2) ∧
    ((st t0).Takes t0 (.tadd false 6 1 (p 2) (p 3)) ∧ ((st t0).atRun t0 (.tadd false 6 1 (p 2) (p 3))).c.live = false) :=
  ⟨live_each (by decide +kernel), takes_st (by decide +kernel), rfl⟩

theorem wit_elementWiseIntegers :
    (tl 2 (fun _ => true) && tl 3 (fun _ => true) && tl 1 (fun d => eclass d.geo.etype == some (.int 32 true)) &&
      tm.capture.live) = true ∧
    ∀ i ∈ [Instr.tadd false 6 1 (p 2) (p 3), .tsub false 6 1 (p 2) (p 3), .tmul false 6 1 (p 2) (p 3),
      .tfma false 6 1 (p 2) (p 3), .tmax 1 (p 2) (p 3), .tmin 1 (p 2) (p 3), .tsel 1 (p 2) (p 3)], (st tm).Takes tm i :=
  ⟨by decide +kernel, takes_each (by decide +kernel)⟩

/-- Dense moves, an MX move and a packed move. -/
theorem wit_movesAndFills :
    (tl 1 (fun d => d.geo.layout == 0) && tl 2 (fun _ => true) && tl 3 (fun _ => true) && tm.capture.live) = true ∧
    (∀ i ∈ [Instr.tmov 1 (p 2), .ttrn 1 (p 2), .tfill 1 4, .tiota 1 4 5, .tslide 0 none 1 (p 2) 1,
      .tslide 0 (some (p 3)) 1 (p 2) 2, .tslide 1 none 1 (p 2) 63, .tslide 1 (some (p 3)) 1 (p 2) 2,
      .tslide 2 none 1 (p 2) 0, .tslide 2 (some (p 3)) 1 (p 2) 1, .tslide 3 none 1 (p 2) 2,
      .tslide 3 (some (p 3)) 1 (p 2) 1], (st tm).Takes tm i) ∧
    ((tl 6 (fun d => d.geo.layout == 2) && t32.capture.live) = true ∧ (st t32).Takes t32 (.tmov 6 (p 6))) ∧
    (tl 7 (fun d => d.geo.layout == 3) = true ∧ (st tm).Takes tm (.tmov 7 (p 7))) :=
  ⟨by decide +kernel, takes_each (by decide +kernel), ⟨by decide +kernel, takes_st (by decide +kernel)⟩,
    by decide +kernel, takes_st (by decide +kernel)⟩

theorem wit_packAndUnpack : (∀ x ∈ [(Instr.tpack 7 (p 2), ([2] : List TReg)), (.tunpk 1 (p 7), [7])], Live tm x.1 x.2) ∧
    (let x := (st tm).atRun tm (.tpack 7 (p 2))
     (((x.ext.map (fun rc => (rc.1, rc.2, (x.rd 2).el rc.1 rc.2))).filter
       (fun e => nonZero (x.rd 2).geo.etype e.2.2)).length ≤ (x.rd 7).geo.nnz.toNat)) :=
  ⟨live_each (by decide +kernel), by decide +kernel⟩

theorem wit_convert :
    (∀ x ∈ [(Instr.tcvt 6 false true 1 (p 4), ([4] : List TReg)), (.tdqt 6 none 4 (p 6), [6]), (.tdqt 6 (some 15) 4 (p 13), [13]),
      (.tqnt 6 true 6 (p 11), [11])], Live tm x.1 x.2) ∧
    (let x := (st tm).atRun tm (.tdqt 6 none 4 (p 6))
     cls (x.rd 4).geo.etype = .flt fp32 ∧ cls (x.rd 6).geo.etype = .flt e4m3) ∧
    (let x := (st tm).atRun tm (.tdqt 6 (some 15) 4 (p 13))
     cls (x.rd 4).geo.etype = .flt fp32 ∧ cls (x.rd 13).geo.etype = .flt e4m3) ∧
    (let x := (st tm).atRun tm (.tqnt 6 true 6 (p 11))
     cls (x.rd 6).geo.etype = .flt e4m3 ∧ cls (x.rd 11).geo.etype = .flt fp32) :=
  ⟨live_each (by decide +kernel), by decide +kernel⟩

theorem wit_scaleOfSegment : (1 : Nat) ≠ 0 := by decide

/-- A team with a stream bound to t2. -/
def tq : Team :=
  { tm.putTile 2 (some { tile0 1 3 0 2 0 with strm := some 0 }) with q := tm.q.set 0 (some ⟨2, [], 0, []⟩) }

theorem wit_bindings :
    (∀ i ∈ [Instr.tdecl 12 1, .trel 1, .text (p 1), .qbind 7 1, .twait true 0, .twait false 15], (st tm).Takes tm i) ∧
    (let x := (st tm).atRun tm (.tdecl 12 1)
     ((x.s.recFor x.t x.recs 1).geo? 1 x.t.part).isSome = true) ∧
    (((st tm).atRun tm (.text (p 1))).t.tile 1).isSome = true ∧ (((st tm).atRun tm (.qbind 7 1)).t.tile 1).isSome = true ∧
    ((∀ i ∈ [Instr.qrel 0, .trel 2, .tdecl 2 1, .text (p 2)], (st tq).Takes tq i) ∧
      ((st tq).atRun tq (.qrel 0)).t.q.get 0 = some ⟨2, [], 0, []⟩) :=
  ⟨takes_each (by decide +kernel), by decide +kernel, by decide +kernel, by decide +kernel, takes_each (by decide +kernel),
    by decide +kernel⟩

/-! ### Tiles and memory -/

/-- Whether the bitmap of a sparse record and the values that it has set bits for can be read, as many as the record says. -/
def sparseReads (x : TIn) (h : Handle) : Bool :=
  let d := x.rcd h
  let nb := d.sparseRows * d.mapRow
  d.sparse && yields (allChk ((List.range nb).map (x.sparseByte d .read .team))) (fun mk =>
    let set := setBits d.sparseRows (d.sz 0) d.mapRow (readBytes .team x.t.uid mk.flatten x.s).1
    set.length == d.nnz.toNat && set.length == 4 && yields (allChk ((List.range ((set.length * ebits d.etype + 7) / 8)).map
      (fun b => x.sparseByte d .read .team (nb + b)))))

theorem wit_tileLoads :
    (∀ x ∈ [(Instr.tld 1 1 0, ([] : List TReg)), (.tgth true 1 1 (p 2) 1 0, [2]), (.tgth false 0 1 (p 2) 1 0, [2]),
      (.tldff 1 1 0, [])], Live tm x.1 x.2) ∧
    (let x := (st tm).atRun tm (.tld 1 1 0)
     (!(x.rcd 1).sparse && yields (allChk ((loadChks x 1 1 0).map (withEcc x .team 1 (some 1))))) = true) ∧
    (let x := (st tm).atRun tm (.tgth true 1 1 (p 2) 1 0)
     yields (allChk ((gatherChks x true 1 1 (p 2) 1 0 .gath).map (withEcc x .gath 1 (some 1)))) = true) ∧
    (let x := (st tm).atRun tm (.tldff 1 1 0)
     (!(x.rcd 1).sparse && yields (allChk (loadChks x 1 1 0)) (fun es => yields (eccEls x .team 1 (some 1) es))) = true) ∧
    (∀ i ∈ [Instr.tld 1 4 0, .tld 7 4 0, .tldff 1 4 0, .tldff 7 4 0], (st tm).Takes tm i) ∧
    (∀ i ∈ [Instr.tld 1 1 0, .tldff 1 1 0, .tld 1 4 0, .tld 7 4 0, .tldff 1 4 0, .tldff 7 4 0], (st t0).Takes t0 i) ∧
    ([Instr.tld 1 1 0, .tldff 1 1 0].all (fun i => !(((st t0).atRun t0 i).rcd 1).sparse && !((st t0).atRun t0 i).c.live) &&
      [Instr.tld 1 4 0, .tld 7 4 0, .tldff 1 4 0, .tldff 7 4 0].all (fun i => !((st t0).atRun t0 i).c.live &&
        sparseReads ((st t0).atRun t0 i) 4)) = true ∧
    (∀ i ∈ [Instr.tld 1 4 0, .tld 7 4 0, .tldff 1 4 0, .tldff 7 4 0], sparseReads ((st tm).atRun tm i) 4 = true) :=
  ⟨live_each (by decide +kernel), by decide +kernel, by decide +kernel, by decide +kernel, takes_each (by decide +kernel),
    takes_each (by decide +kernel), by decide +kernel, by decide +kernel⟩

/-- Whether the first `n` of some checks pass, free of uncorrectable errors, and the next is a fault that truncates. -/
def cutAt (x : TIn) (h : Handle) (td : TReg) (n : Nat) (l : List (Chk ElSite)) : Bool :=
  yields (allChk (l.take n)) (fun es => yields (eccEls x .team h (some td) es)) &&
  (match l[n]? with
   | some (.error (.fault f)) => truncates f
   | _ => false)

/-- The bounds fault at the second row; the window fault at the second element. -/
theorem wit_firstFaultTileLoad :
    (let t := regs tm [(4, 1)]
     Live t (.tldff 1 1 4) [] ∧ (let x := (st t).atRun t (.tldff 1 1 4)
       (!(x.rcd 1).sparse && cutAt x 1 1 2 (loadChks x 1 1 4)) = true)) ∧
    (let t := regs tm [(4, 2 ^ 32)]
     Live t (.tldff 1 1 4) [] ∧ (let x := (st t).atRun t (.tldff 1 1 4)
       (!(x.rcd 1).sparse && cutAt x 1 1 1 (loadChks x 1 1 4)) = true)) ∧
    ((st t0).Takes t0 (.tldff 1 1 0) ∧ (let x := (st t0).atRun t0 (.tldff 1 1 0)
      (!(x.rcd 1).sparse && !x.c.live) = true)) :=
  ⟨⟨live_st (by decide +kernel), by decide +kernel⟩, ⟨live_st (by decide +kernel), by decide +kernel⟩,
    takes_st (by decide +kernel), by decide +kernel⟩

/-- The team whose packed tile t7 holds the four values that record 4 says. -/
def tpk : Team := tm.putTile 7 (some ((tile0 4 3 3 2 4).writePacked [(0, 0, 1), (0, 1, 2), (1, 0, 3), (1, 1, 4)]))

/-- Dense, MX and packed stores, and a scatter. -/
theorem wit_tileStores :
    (Live tm (.tst 1 1 0) [1] ∧ (let x := (st tm).atRun tm (.tst 1 1 0)
      (x.rd 1).geo.layout = 0 ∧ yields (allChk (tstChks x 1 1 0)) = true)) ∧
    (Live t32 (.tst 6 3 0) [6] ∧ (let x := (st t32).atRun t32 (.tst 6 3 0)
      (x.rd 6).geo.layout = 2 ∧ yields (allChk (tstChks x 6 3 0)) = true)) ∧
    (Live tpk (.tst 7 4 0) [7] ∧ (let x := (st tpk).atRun tpk (.tst 7 4 0)
      (x.rd 7).geo.layout = 3 ∧ (x.rd 7).count = (x.rcd 4).nnz.toNat ∧
        yields (allChk ((List.range (x.rd 7).fixed.packedBytes.length).map (x.sparseByte (x.rcd 4) .write .team))) = true)) ∧
    (Live tm (.tsct 2 (p 1) (p 2) 1 0) [1, 2] ∧ (let x := (st tm).atRun tm (.tsct 2 (p 1) (p 2) 1 0)
      yields (allChk (gatherChks x false 2 1 (p 2) 1 0 .team)) = true)) :=
  ⟨⟨live_st (by decide +kernel), by decide +kernel⟩, ⟨live_st (by decide +kernel), by decide +kernel⟩,
    ⟨live_st (by decide +kernel), by decide +kernel⟩, live_st (by decide +kernel), by decide +kernel⟩

end Sys2Proof.Tests
end

