-- ==== Sys2Proof/Tests/WitnessD.lean ====
section
/-!
SUPPORT. Witnesses, fourth part: the block sequencer, lane functions, the matrix and the core engines, clause by clause.
-/

set_option Elab.async false

namespace Sys2Proof.Tests

open Sys2Proof.Machine

/-! ### The sequencer -/

/-- A copy of record `h`, tag mode, and the team with its words: onto itself, from the last row. -/
def cpi (h : Handle) : Instr := .tcopy 15 h 4 5
def tc (h : Nat) : Team := regs tm [(4, h), (5, 1)]

/-- A copy of record 1 into stream 0, and its team. -/
def cqi : Instr := .tcopyStr 0 1 5
def tcq : Team := regs tq [(5, 1)]

/-- The copies that begin there. -/
def cp (h : Handle) : Chk Copy :=
  copyStart ((st (tc h.toNat)).atRun (tc h.toNat) (cpi h)) (tc h.toNat).wordSeq 15 none h ((tc h.toNat).rs 4) ((tc h.toNat).rs 5)
def cpq : Chk Copy := copyStart ((st tcq).atRun tcq cqi) tcq.wordSeq 0 (some 0) 1 0 (tcq.rs 5)

/-- Whether the copy row that is next has its sites, in a layout. -/
def rowSites (x : TIn) (mx : Bool) (c : Copy) : Bool :=
  c.src.layout != 3 && (c.src.layout == 2) == mx && decide (c.row < c.rows) &&
    yields (allChk (copySites x c ((copyCount c.src c.srcWord).getD 0)))

/-- The team with the copy of record 1 under way. -/
def tcp : Team := match cp 1 with
  | .ok c => (tc 1).copying ((st (tc 1)).entryAt (tc 1) (cpi 1)) c
  | .error _ => tc 1

/-- The team whose stream 0 holds `n` lines. -/
def tlines (n : Nat) : Team := { tq with q := tq.q.set 0 (some ⟨2, List.replicate n [], 0, []⟩) }

/-- The team with an instruction in its TIQ: accepted or not, issued or not, and, with `full`, another that fills the share. -/
def thead (i : Instr) (accepted issued full : Bool) : Team :=
  { tm.putTile 20 (some (Tile.blank 1 ⟨3, 0, 0, 1024, 128⟩)) with
    tiq := { tm.entryFor i with accepted, issued, region := some region0 } ::
      (if full then [{ tm.entryFor (.tfill 20 0) with seq := 1, accepted := true, holds := true }] else []),
    wordSeq := 2 }

/-- Whether the head passes its checks at acceptance; whether its slots are free; whether it reads a lane function. -/
def headTaken (t : Team) (free code : Bool) : Bool :=
  match t.tiq with
  | e :: _ =>
    let acc : TIn := ⟨(st t).putTeam t.forTile, t.forTile, e.cap, (st t).recsAt t e, t.xrow.toNat, none, none, false, false⟩
    let taken : TileEntry := { e with accepted := true, recs := (st t).recsAt t e, holds := tileHolds e.instr acc }
    let before := t.tiq.filter (fun y => y.accepted)
    !e.accepted && t.sbuf.isEmpty && yields (tileAccept e.instr acc) &&
      decide ((taken.slotNames.1 = [] ∨ t.slotsUsed (before ++ [taken]) ≤ slotShare t.part) ∧
        (isCopy e.instr = true → (before.filter (fun y => isCopy y.instr)).length < 16)) == free &&
      (match tileCode e.instr acc with
       | none => !code
       | some r => code && yields r)
  | [] => false

/-- Whether the head, accepted and not issued, runs to its end, or to a row boundary. -/
def headRuns (t : Team) (whole : Bool) : Bool :=
  match t.tiq with
  | e :: _ => e.accepted && !e.issued && !isCopy e.instr &&
      (match tileRun e.instr e.seq (e.tin ((st t).putTeam t.forTile) t.forTile true) with
       | .done _ => whole
       | .part _ _ => !whole
       | _ => false)
  | [] => false

theorem wit_sequencer_copies :
    ((st (tc 1)).Takes (tc 1) (cpi 1) ∧ yields (cp 1) (fun c => c.q.isNone &&
      rowSites ((st (tc 1)).atRun (tc 1) (cpi 1)) false c) = true) ∧
    ((st (tc 3)).Takes (tc 3) (cpi 3) ∧ yields (cp 3) (fun c => c.q.isNone &&
      rowSites ((st (tc 3)).atRun (tc 3) (cpi 3)) true c) = true) ∧
    ((st tcq).Takes tcq cqi ∧ yields cpq (fun c => c.q == some 0 && rowSites ((st tcq).atRun tcq cqi) false c) = true ∧
      (tcq.q.get 0).any (fun z => decide (z.lines.length < ((st tcq).atRun tcq cqi).t.streamLines z)) = true) ∧
    ((tlines 64).q.get 0).any (fun z => decide ((tlines 64).streamLines z ≤ z.lines.length)) = true ∧
    ((tlines 0).tile 2).any (fun d => decide (8 * ((d.geo.cols * ebits d.geo.etype + 7) / 8) ≤ 4096)) = true ∧
    ((st tcp).At tcp.gid tcp ∧ (match tcp.tiq, tcp.copies with
      | e :: _, c :: _ => decide (c.row < c.rows) && yields (copyRow (e.tin ((st tcp).putTeam tcp.forTile) tcp.forTile false) c)
      | _, _ => false) = true) ∧
    (let t := { tcp with copies := tcp.copies.map (fun c => { c with row := c.rows }) }
     (st t).At t.gid t ∧ (t.tiq.map (·.issued) == [true]) = true ∧ (t.copies.all (fun c => decide (c.rows ≤ c.row))) = true ∧
       t.copies.length = 1 ∧ t.sbuf = [] ∧ t.hist = [] ∧ t.late = [] ∧ t.heldFault = none) :=
  ⟨⟨takes_st (by decide +kernel), by decide +kernel⟩, ⟨takes_st (by decide +kernel), by decide +kernel⟩,
    ⟨takes_st (by decide +kernel), by decide +kernel⟩, by decide +kernel, by decide +kernel, ⟨⟨rfl, rfl⟩, by decide +kernel⟩, ⟨rfl, rfl⟩,
    by decide +kernel⟩

/-- A tile instruction with a lane function, and one that stops between its rows. -/
def mapi : Instr := .map ⟨6, false, false⟩ 1 1 (p 2) (p 0) 4 5 0
def updi : Instr := .upd true (p 2) (p 3) 1

/-- The same with a written name that holds the whole share. -/
def tholds : Team :=
  (thead (.tfill 1 0) false false false).putTile 20 (some { Tile.blank 1 ⟨3, 0, 0, 1024, 128⟩ with written := true })

theorem wit_sequencer_head :
    (∀ t ∈ [thead (.tfill 1 0) false false false, thead mapi false false false, thead (.tfill 1 0) false false true, tholds,
      thead (.tfill 1 0) true false false, thead updi true false false, thead (.tfill 1 0) true true false],
      (st t).teamOf t.gid = some t ∧ (st t).team? t.uid = some t ∧ t.sbuf = []) ∧
    (headTaken (thead (.tfill 1 0) false false false) true false && headTaken (thead mapi false false false) true true &&
      headTaken (thead (.tfill 1 0) false false true) false false && headTaken tholds false false && headRuns (thead (.tfill 1 0) true false false) true &&
      headRuns (thead updi true false false) false && (thead (.tfill 1 0) true true false).copyDone) = true :=
  ⟨by decide +kernel, by decide +kernel⟩

/-! ### Lane functions -/

/-- A MAP of packed 16-bit lanes. -/
def mapk : Instr := .map ⟨6, false, false⟩ 0 10 (p 0) (p 0) 4 5 1

theorem wit_lanes :
    (∀ x ∈ [(mapi, ([2] : List TReg)), (mapk, []), (.reduce true false ⟨6, false, false⟩ 1 (p 2) (p 0) 4 5 (.builtin 2), [2]),
      (.reduce false true ⟨6, false, false⟩ 1 (p 2) (p 3) 4 5 (.builtin 0), [2, 3]),
      (.scan false false ⟨6, false, false⟩ 1 (p 2) (p 0) 4 5 (.builtin 0), [2]),
      (.trds false 6 (p 2) (p 0) 4 5 (.builtin 0), [2])], Live tm x.1 x.2) ∧
    ((st t0).Takes t0 (.trds false 6 (p 2) (p 0) 4 5 (.builtin 0)) ∧
      ((st t0).atRun t0 (.trds false 6 (p 2) (p 0) 4 5 (.builtin 0))).c.live = false) ∧
    (let y := (st tm).atAccept tm mapi
     let z := (st tm).atAccept tm mapk
     (yields (laneFetch y 0 1 false ((y.rd 1).geo.etype :: y.types (mapSrcs 1 1 (p 2) (p 0)))) (fun r => !r.1.1) &&
       yields (laneFetch z 1 0 false ((z.rd 10).geo.etype :: z.types (mapSrcs 0 10 (p 0) (p 0)))) (fun r => r.1.1) &&
       (tileCode mapi y).any yields && (tileCode mapk z).any yields) = true) :=
  ⟨live_each (by decide +kernel), ⟨takes_st (by decide +kernel), rfl⟩, by decide +kernel⟩

/-! ### The matrix -/

/-- A team with resident B of a type, accumulator 0 in a mode, s4 a product of two rows, columns and depth, s6 one of none,
s7 dimensions of two by two, s8 of 32 by 2, s9 an origin in the second row. -/
def tmx (e : BitVec 5) (mx : Bool) (kb : Nat) (int : Bool) : Team :=
  { regs tm [(4, 2 + 2 * 2 ^ 16 + 2 * 2 ^ 32), (5, 0), (6, 0), (7, 2 + 2 * 2 ^ 16), (8, 32 + 2 * 2 ^ 16), (9, 1)] with
    resB := ⟨true, e, mx, kb, 2, [], []⟩, acc := tm.acc.set 0 ⟨int, []⟩ }

/-- Whether the extent of an instruction as it runs is `b`. -/
def liveIs (t : Team) (i : Instr) (b : Bool) : Bool := ((st t).atRun t i).c.live == b

/-- Whether the elements of a load of B from record `h` pass, in a layout. -/
def ldbmReads (t : Team) (i : Instr) (h : Handle) (mx : Bool) : Bool :=
  let x := (st t).atRun t i
  x.c.live && ((x.rcd h).layout == 2) == mx && yields (allChk (ldbmChks x h 5))

/-- Whether the rows of an MMAM of record 5 from the origin in `sx` on run, or fault. -/
def mmamEnds (t : Team) (sx : SReg) (faults : Bool) : Bool :=
  let x := (st t).atRun t (.mmam 3 0 5 4 sx 5 none)
  let d := mdims (t.rs 4) (t.rs 5)
  match mmamRows x 3 0 5 sx d none (d.m - x.xrow) x.xrow x.s with
  | .done _ => !faults
  | .fail _ _ => faults
  | _ => false

theorem wit_matrix_int :
    let t := tmx 1 false 2 true
    (∀ i ∈ [Instr.ldb none (p 8) 5, .ldbm none 5 5 5, .mma 3 0 (p 8) 4 5 none, .mma 3 0 (p 8) 6 5 none,
      .mmam 3 0 5 4 5 5 none, .mmam 3 0 5 4 9 5 none, .mmam 3 0 5 6 5 5 none, .aclr true 0, .tscl 2 3 15 (p 4)],
      (st t).Takes t i) ∧
    (liveIs t (.ldb none (p 8) 5) true && ldbmReads t (.ldbm none 5 5 5) 5 false && (mdims (t.rs 4) (t.rs 5)).live &&
      !(mdims (t.rs 6) (t.rs 5)).live && mmamEnds t 5 false && mmamEnds t 9 true &&
      ((st t).atRun t (.tscl 2 3 15 (p 4))).c.er != 0) = true :=
  ⟨takes_each (by decide +kernel), by decide +kernel⟩

theorem wit_matrix_others :
    (let t := { tmx 1 false 2 true with ext := 0 }
     (∀ i ∈ [Instr.ldb (some 7) (p 8) 5, .ldbm (some 7) 5 5 5], (st t).Takes t i) ∧
       (liveIs t (.ldb (some 7) (p 8) 5) false && liveIs t (.ldbm (some 7) 5 5 5) false) = true) ∧
    (let t := tmx 12 true 32 false
     (st t).Takes t (.ldbm none 3 5 5) ∧ ldbmReads t (.ldbm none 3 5 5) 3 true = true) ∧
    (let t := tmx 10 false 2 true
     (∀ i ∈ [Instr.mmat 0 (p 8) 4 5, .mmat 0 (p 8) 6 5], (st t).Takes t i) ∧
       ((mdims (t.rs 4) (t.rs 5)).live && !(mdims (t.rs 6) (t.rs 5)).live) = true) :=
  ⟨⟨takes_each (by decide +kernel), by decide +kernel⟩, ⟨takes_st (by decide +kernel), by decide +kernel⟩,
    takes_each (by decide +kernel), by decide +kernel⟩

theorem wit_integerProduct :
    let t := tmx 1 false 2 true
    (st t).Takes t (.mma 3 0 (p 8) 4 5 none) ∧ (t.tile 8).isSome = true ∧ t.xrow = 0 ∧
      (mdims (t.rs 4) (t.rs 5)).live = true ∧ ∀ r c, |intOf 80 true ((t.accOf 0).el r c)| < 2 ^ 78 := by
  refine ⟨takes_st (by decide +kernel), by decide +kernel, rfl, by decide +kernel, ?_⟩
  intro r c
  show |intOf 80 true 0| < 2 ^ 78
  decide +kernel

theorem wit_accumulators :
    let t := tmx 1 false 2 false
    ∀ x ∈ [(Instr.ard true ⟨6, false, false⟩ 4 0 5 5 none, ([] : List TReg)),
      (.ard false ⟨6, false, false⟩ 1 0 5 5 (some 15), []), (.awr true 0 (p 4) 5, []), (.awr false 0 (p 4) 5, []),
      (.amaxa true 4 0 5, []), (.amaxa false 4 0 5, [])], Live t x.1 x.2 := live_each (by decide +kernel)

/-- A team for the core engines: two experts in s8. -/
def teng (ext : BitVec 16) : Team :=
  { tmx 15 false 2 false with s := (regs (tmx 15 false 2 false) [(8, 2)]).s, ext }

theorem wit_engines :
    (∀ e ∈ [(2 : BitVec 16), 0], ∀ i ∈ [Instr.route 1 2 (p 3) 8, .iwalk 1 2 (p 3) 5 5], (st (teng e)).Takes (teng e) i ∧
      liveIs (teng e) i (e != 0) = true) ∧
    (∀ i ∈ [Instr.ablk false true 9 (p 10) 4 5 1, .ablk false true 9 (p 10) 6 5 1], (st (teng 2)).Takes (teng 2) i) ∧
    ((mdims ((teng 2).rs 4) ((teng 2).rs 5)).live && !(mdims ((teng 2).rs 6) ((teng 2).rs 5)).live) = true := by
  refine ⟨?_, takes_each (by decide +kernel), by decide +kernel⟩
  have h : ([(2 : BitVec 16), 0].all (fun e => [Instr.route 1 2 (p 3) 8, .iwalk 1 2 (p 3) 5 5].all (fun i =>
      takesB (teng e) i && liveIs (teng e) i (e != 0)))) = true := by decide +kernel
  intro e he i hi
  have hx := List.all_eq_true.mp (List.all_eq_true.mp h e he) i hi
  rw [Bool.and_eq_true] at hx
  exact ⟨takes_st hx.1, hx.2⟩

end Sys2Proof.Tests
end

