-- ==== Sys2Proof/Tests/WitnessE.lean ====
section
/-!
SUPPORT. Witnesses, fifth part: messages, updates, replay, the fabric, barriers, atomics, tasks, the Press, clause by clause.
-/

set_option Elab.async false

namespace Sys2Proof.Tests

open Sys2Proof.Machine

theorem cur_st (t : Team) : (st t).team? (st t).cur = some t := by simp [st, State.team?]

/-- A launch of two levels: one die of `n` cores, and a core. -/
def lch (n : Nat) : Launch :=
  { Launch.forFetch 2 with
    record := [BitVec.ofNat 64 winBase, 0, 0, 0, 0, 0, 0, 0, 0x2601,
      BitVec.ofNat 64 (3 * 2 ^ 29 + 3 * 2 ^ 26 + 1 + (1 * 2 ^ 29 + 1 * 2 ^ 26 + n) * 2 ^ 32)],
    insts := [⟨0, false, [0], n⟩] }

/-- The machine with that launch. -/
def stl (n : Nat) (t : Team) : State := { st t with launches := [lch n] }

/-! ### The tile side's queues -/

/-- A tile message that has been delivered. -/
def tmsg : Msg := { tileMsg 0x18 0x42 (tile0 1 3 0 2 0) 2 2 with order := 5, delivered := true }

/-- A team in an exchange. -/
def ta_ : Team := { regs tm [(4, 7 + 7 * 2 ^ 16 + 8 * 2 ^ 32), (5, 0)] with path := [0] }

/-- What it brought. -/
def me : Join := ⟨1, 0, [0], 0, [], [], [], [], false⟩

/-- The machine with that exchange, which every member has joined. -/
def sx : State := { stl 1 ta_ with exchanges := [⟨2, 0, [], 0, 0, [me], false⟩] }

theorem wit_tileSideQueues :
    (Live tm (.sendt 1 (p 2) 4 0 0x42) [2] ∧ (let x := (st tm).atRun tm (.sendt 1 (p 2) 4 0 0x42)
      yields (x.s.sendTarget x.t (tm.rs 4) 0) (fun u => u.1.uid == 1) && (x.s.handOffAll 1).updEmpty 1) = true) ∧
    (let t := regs { tm with rq := [tmsg] } [(4, 0x18)]
     (st t).Takes t (.recvt ⟨false, false⟩ 1 4 0x42) ∧ (let x := (st t).atRun t (.recvt ⟨false, false⟩ 1 4 0x42)
       (match rqTake x.t.rq true ⟨false, false⟩ ((t.rs 4).truncate 25) 0x42 with
        | some (m, q) => m.geo.etype == (x.rd 1).geo.etype && m.geo.layout == (x.rd 1).geo.layout &&
            (x.rd 1).geo.holds m.geo.rows m.geo.cols &&
            ((x.s.modTeam 1 (fun v => { v with rq := q })).handOffAll 1).updEmpty 1
        | none => false) = true)) ∧
    (Live tm (.upd true (p 2) (p 3) 1) [2, 3] ∧ (let x := (st tm).atRun tm (.upd true (p 2) (p 3) 1)
      x.s.teamCtx? x.t = some cx ∧ x.region = some region0 ∧ yields (allChk (updChks x cx region0 true (p 2))) (fun es =>
        let ps := (es.filter (fun e => !e.2.2)).map (fun e =>
          ((x.rd 2).el e.1 e.2.1, updValue (x.rd 3).geo.etype ((x.rd 3).el e.1 e.2.1)))
        (x.s.handOffAll 1).updEmpty 1 && (es.any (fun e => !e.2.2)) &&
          ((x.s.putTeam (({ x.t with updf := x.t.updf } : Team).emit 1 ps)).handOffAll 1).updEmpty 1) = true)) ∧
    ((st t0).Takes t0 (.upd true (p 2) (p 3) 1) ∧ ((st t0).atRun t0 (.upd true (p 2) (p 3) 1)).c.live = false) ∧
    (let t := regs tm [(4, 7 + 1 * 2 ^ 16 + 1 * 2 ^ 32), (5, 9)]
     ((st t).Takes t (.vntq 1 7 4 5) ∧ (let x := (st t).atRun t (.vntq 1 7 4 5)
       x.s.vntTable? x.t (t.rs 4) = some table0 ∧ yields (allChk (vntSites x (x.rcd 7) 7 .read)) = true ∧
       yields (allChk (vntSites x (x.rcd (vntHout (t.rs 4))) (vntHout (t.rs 4)) .write)) = true)) ∧
     ((st t).Takes t (.vntw 7 4 5) ∧ (let x := (st t).atRun t (.vntw 7 4 5)
       x.s.vntTable? x.t (t.rs 4) = some table0 ∧ yields (allChk (vntSites x (x.rcd 7) 7 .read)) = true ∧
       yields (allChk (vntSites x (x.rcd (vntHout (t.rs 4))) (vntHout (t.rs 4)) .read)) = true))) ∧
    (Live tm (.fgth 0 4 2 7 5) [2] ∧ (let x := (st tm).atRun tm (.fgth 0 4 2 7 5)
      yields (allChk (fgthChks x 0 4 2 7 5)) = true ∧ ((x.s.cfence tm.uid .team .send).team? tm.uid).isSome = true)) ∧
    (sx.Takes ta_ (.allx 0 1 2 4 5) ∧ (let x := sx.atRun ta_ (.allx 0 1 2 4 5)
      (match x.s.exchanges.find? (fun e => e.isFor x.t (0 : BitVec 3).toNat (x.t.exchs.get (0 : BitVec 3).toFin) &&
          e.joins.any (fun j => j.uid == ta_.uid)) with
       | some e => x.s.closes e (recTeams (x.s.recordOf x.t) 0) && e.joins.find? (fun j => j.uid == ta_.uid) == some me
       | none => false) = true)) :=
  ⟨⟨live_st (by decide +kernel), by decide +kernel⟩, ⟨takes_st (by decide +kernel), by decide +kernel⟩,
    ⟨live_st (by decide +kernel), by decide +kernel⟩, ⟨takes_st (by decide +kernel), rfl⟩,
    ⟨⟨takes_st (by decide +kernel), by decide +kernel⟩, takes_st (by decide +kernel), by decide +kernel⟩,
    ⟨live_st (by decide +kernel), by decide +kernel⟩, takes_in rfl rfl (by decide +kernel), by decide +kernel⟩

/-! ### Messages -/

/-- A scalar message and a fabric message, delivered. -/
def smsg : Msg := { scalarMsg 0x18 0x42 7 with order := 5, delivered := true }
def fmsg : Msg := { scalarMsg 0x18 0x61 0 with order := 6, delivered := true, bytes := [1, 2, 3] }

theorem wit_messages :
    ((st tm).Issues tm (.send 2 7 5 0 0x42) ∧ yields ((st tm).sendTarget tm (tm.rs 7) 0) = true ∧ (st tm).Clears tm.uid) ∧
    (let t := regs { tm with rq := [smsg] } [(4, 0x18)]
     (st t).Issues t (.recv ⟨false, true⟩ 3 4 0) ∧ (t.rs 4).extractLsb' 11 53 = 0 ∧
       (rqTake t.rq false ⟨false, true⟩ ((t.rs 4).truncate 25) 0).isSome = true ∧ (st t).Clears t.uid) ∧
    ((st tm).Issues tm (.probe true ⟨true, false⟩ 1 0 0x42) ∧ (tm.rs 0).extractLsb' 11 53 = 0) ∧
    (st tm).At tm.gid tm ∧
    (let m := { smsg with delivered := false, due := 1 }
     let t := { tm with rq := [m], frq := [m] }
     m ∈ [m, { m with order := 6 }] ∧ t ∈ (st t).teams ∧ m ∈ t.rq ∧ m ∈ t.frq ∧ m.delivered = false ∧ m.due ≤ (st t).tick.now) ∧
    (rqTake [fmsg, smsg] false ⟨true, false⟩ ((tm.rs 4).truncate 25) 0x42 = some (smsg, [fmsg])) ∧
    (let t := regs tm [(4, winBase + 0x100), (5, 4096)]
     (st t).Issues t (.fsend 2 4 6 0 0x61 0) ∧ (t.rs 6).toNat ≤ 4096 ∧ routeOk 0 = true ∧
       yields ((st t).sendKeys t .read (t.rs 4) (t.rs 6).toNat) = true ∧
       (st t).fabFollow 0 (routeHops 0) 0 t.pkg = some (0, []) ∧ yields ((st t).fabTarget t 0 0) = true) ∧
    (let t := regs tm [(5, 4097)]
     (st t).Issues t (.fsend 2 4 5 0 0x61 0) ∧ 4096 < (t.rs 5).toNat) ∧
    (let t := regs { tm with frq := [fmsg] } [(3, winBase + 0x100)]
     (st t).Issues t (.frecv ⟨true, false⟩ 3 0 0x61) ∧ (t.rs 0).extractLsb' 25 39 = 0 ∧
       (match rqTake t.frq false ⟨true, false⟩ ((t.rs 0).truncate 25) 0x61 with
        | some (m, _) => yields ((st t).sendKeys t .write (t.rs 3) m.bytes.length)
        | none => false) = true) :=
  ⟨⟨issues_st rfl (by decide +kernel), by decide +kernel, by rw [State.Clears]; decide +kernel⟩,
    ⟨issues_st rfl (by decide +kernel), by decide +kernel, by decide +kernel, by rw [State.Clears]; decide +kernel⟩,
    ⟨issues_st rfl (by decide +kernel), by decide +kernel⟩, ⟨rfl, rfl⟩,
    ⟨.head _, .head _, .head _, .head _, rfl, by simp only [State.tick, st, State.reset]; omega⟩, by decide +kernel,
    ⟨issues_st rfl (by decide +kernel), by decide +kernel⟩, ⟨issues_st rfl (by decide +kernel), by decide +kernel⟩,
    issues_st rfl (by decide +kernel), by decide +kernel⟩

/-! ### Barriers -/

/-- A team that has arrived. -/
def tarr (fabric : Bool) (n : Nat) : Team :=
  { tm with path := [0], wait := .arrived fabric n 5, arrivals := [(fabric, n, 1, 5)],
            bars := if fabric then tm.bars else tm.bars.set! n 1, fbars := if fabric then tm.fbars.set! n 1 else tm.fbars }

theorem wit_barriers :
    (let t := tarr false 1
     (stl 1 t).Issues t (.bar 1) ∧ (stl 1 t).barLevel t 1 = true ∧ t.wait = .arrived false 1 5 ∧
       (stl 1 t).barReady t false 1 (t.barCount false 1) = some [5] ∧ (stl 1 t).At t.gid t ∧ t.runs = true) ∧
    (let t := tarr true 0
     (stl 1 t).Issues t (.fbar 0) ∧ (stl 1 t).wideLevel t 0 = true ∧ t.wait = .arrived true 0 5 ∧
       (stl 1 t).barReady t true 0 (t.barCount true 0) = some [5] ∧ (stl 1 t).At t.gid t ∧ t.runs = true) ∧
    (let t := { tm with path := [0] }
     (stl 2 t).Issues t (.bar 1) ∧ (stl 2 t).barLevel t 1 = true ∧ (stl 2 t).Issues t (.fbar 0) ∧
       (stl 2 t).wideLevel t 0 = true ∧ t.wait = .none ∧
       (match (stl 2 t).barArrive t true 0 with
        | some s1 => (match s1.team? t.uid with
          | some v => s1.barReady v true 0 (v.barCount true 0) == none
          | none => false)
        | none => false) = true) ∧
    (let t := { tm with path := [0] }
     let z : State := { stl 1 t with launches := [{ lch 1 with record := (lch 1).record.set 9 0x2400_0002_2400_0002 }] }
     z.Issues t (.bar 0) ∧ z.barLevel t 0 = true ∧ (match z.barArrive t false 0 with
       | some s1 => (match s1.team? t.uid with
         | some v => s1.barReady v false 0 (v.barCount false 0) == none
         | none => false)
       | none => false) = true) ∧
    (let t := { tarr false 1 with latched := some [5] }
     (stl 2 t).Issues t (.bar 1) ∧ (stl 2 t).barLevel t 1 = true ∧ t.wait = .arrived false 1 5 ∧
       (t.latched <|> (stl 2 t).barReady t false 1 (t.barCount false 1)) = some [5] ∧ (stl 2 t).At t.gid t ∧ t.runs = true) ∧
    ((st tm).Issues tm (.bar 7) ∧ (st tm).barLevel tm 7 = false) ∧ sx.At ta_.gid ta_ :=
  ⟨⟨issues_in rfl rfl (by decide +kernel), by decide +kernel, rfl, by decide +kernel, ⟨rfl, rfl⟩, by decide +kernel⟩,
    ⟨issues_in rfl rfl (by decide +kernel), by decide +kernel, rfl, by decide +kernel, ⟨rfl, rfl⟩, by decide +kernel⟩,
    ⟨issues_in rfl rfl (by decide +kernel), by decide +kernel, issues_in rfl rfl (by decide +kernel), by decide +kernel, rfl,
      by decide +kernel⟩, ⟨issues_in rfl rfl (by decide +kernel), by decide +kernel, by decide +kernel⟩,
    ⟨issues_in rfl rfl (by decide +kernel), by decide +kernel, rfl, by decide +kernel, ⟨rfl, rfl⟩, by decide +kernel⟩,
    ⟨issues_st rfl (by decide +kernel), by decide +kernel⟩, rfl, rfl⟩

/-! ### Atomics and sync registers -/

/-- A publication at .core by a team of the same core and context. -/
def pub1 : Pub := { id := 3, uid := 2, gid := 1, pkg := 0, ctx := 1, scope := 1, view := [7], prec := [], began := 0, doneAt := some 0 }

theorem wit_acquires :
    let t := { tm with knows := [3] }
    let s : State := { st t with pubs := [pub1] }
    s.team? t.uid = some t ∧ pub1 ∈ s.pubs ∧ pub1.ctx = t.ctx ∧ pub1.uid ≠ t.uid ∧
      partyOf pub1.scope pub1.uid pub1.gid t.uid t.gid = true ∧ partyOf 2 t.uid t.gid pub1.uid pub1.gid = true ∧
      pub1.id ∈ t.knows ∧ 7 ∈ pub1.view := ⟨rfl, by decide +kernel⟩

theorem wit_atomics :
    ((st tm).Issues tm (.phase 5) ∧ (st tm).Clears tm.uid) ∧ (st tm).Issues tm (.cfence 6 0) ∧
    (let t := regs tm [(4, winBase + 0x100), (6, 65535), (7, 65536)]
     ((st t).Issues t (.amo 11 false 5 3 4 5) ∧ yields ((st t).atomicKeys t (t.rs 4) 4) = true) ∧
     ((st t).Issues t (.cas true 0 3 4 5) ∧ yields ((st t).atomicKeys t (t.rs 4) 8) = true) ∧
     ((st t).Issues t (.claim 5 3 4 6) ∧ (t.rs 6).toNat ≤ 65535 ∧ yields ((st t).atomicKeys t (t.rs 4) 8) = true) ∧
     ((st t).Issues t (.claim 5 3 4 7) ∧ 65535 < (t.rs 7).toNat)) :=
  ⟨⟨issues_st rfl (by decide +kernel), by rw [State.Clears]; decide +kernel⟩, issues_st rfl (by decide +kernel),
    ⟨issues_st rfl (by decide +kernel), by decide +kernel⟩, ⟨issues_st rfl (by decide +kernel), by decide +kernel⟩,
    ⟨issues_st rfl (by decide +kernel), by decide +kernel⟩, issues_st rfl (by decide +kernel), by decide +kernel⟩

theorem wit_sync :
    (let t := regs tm [(4, 63)]
     (st t).issuing? = some t ∧ (st t).syncReg t (t.rs 4) = .ok 63 ∧ (st t).Clears t.uid ∧
       t.mustWait (.syncTas 4 3 4 5) = false ∧ t.mustWait (.syncFadd 0 3 4 5) = false ∧ t.mustWait (.syncLd 4 3 4) = false ∧
       t.mustWait (.syncSt 4 4 5) = false ∧ t.mustWait (.syncWait 0 4 3 4 5) = false ∧ t.wait = .none ∧
       (let m := (((st t).handOffAll t.uid).mirrorDue t.pkg).publish t.uid 4 false false
        syncCond 0 (m.1.syncLocal t.pkg (gidDie t.gid) 63).val (t.rs 5) = true)) ∧
    (let t := regs tm [(4, 63), (5, 1)]
     (st t).issuing? = some t ∧ (st t).syncReg t (t.rs 4) = .ok 63 ∧ (st t).Clears t.uid ∧
       t.mustWait (.syncWait 0 4 3 4 5) = false ∧ t.wait = .none ∧
       (let m := (((st t).handOffAll t.uid).mirrorDue t.pkg).publish t.uid 4 false false
        syncCond 0 (m.1.syncLocal t.pkg (gidDie t.gid) 63).val (t.rs 5) = false)) ∧
    (let s : State := { st tm with pkgs := [(0, { pk with mirrorQ := [(62, 5, ⟨1, []⟩), (63, 5, ⟨1, []⟩), (62, 6, ⟨2, []⟩)] })] }
     (s.pkg 0).mirrorQ ≠ []) :=
  ⟨⟨issuing_st rfl, by decide +kernel, by rw [State.Clears]; decide +kernel, by decide +kernel⟩,
    ⟨issuing_st rfl, by decide +kernel, by rw [State.Clears]; decide +kernel, by decide +kernel⟩, by decide +kernel⟩

/-! ### Teams and tasks -/

/-- A record that checks: one core, a completion doubleword and a fault-completion queue in the window. -/
def rec1 : List Word :=
  [BitVec.ofNat 64 winBase, 0, 0, BitVec.ofNat 64 (winBase + 0x50000), BitVec.ofNat 64 (winBase + 0x60000), 0, 0x1_0000_0000, 0,
   0x601, 0x2800_0001, 0, 0, 0, 0, 0, 0]

/-- The machine whose memory holds that record at 0x100 and whose queue 5 is open, `n` records appended to it. -/
def sl (t : Team) (n : Nat) : State :=
  { st t with pkgs := [(0, { pk with
      queues := pk.queues.set 5 ⟨true, 1, 0, 0x70000, 4, 0x70000, 0x70008, 0, List.replicate n ([], [], 0), []⟩,
      ctxs := [(1, { cx with start := Memory.putCells [] (cellsAt (devKey 0 0x100) (rec1.flatMap (fun w => natToBytes 8 w.toNat))) })] })] }

/-- A parent and its child, which has joined. -/
def tkid (status : TeamStatus) : Team := { tm with uid := 2, gid := 1, parent := some 1, status }
def tpar : Team := { regs tm [(4, 1)] with kids := [2], part := 1 }

/-- Seven more teams on the core, so that no team number is free. -/
def tfull : List Team := (List.range 7).map (fun n => { tm with uid := 20 + n, gid := BitVec.ofNat 25 (n + 1) })

theorem wit_fork :
    ((st { tm with part := 3 }).Issues { tm with part := 3 } (.fork 1 3 4) ∧ ({ tm with part := 3 } : Team).deque = false) ∧
    ((st tm).Issues tm (.fork 1 3 4) ∧ tm.deque = false ∧ tm.part ≠ 3 ∧ tm.preq = false ∧
      (st tm).freeTeamNo tm = some 1 ∧ tm.tiq = [] ∧ (st tm).Clears tm.uid ∧ tm.heldSlots ≤ slotShare (tm.part + 1)) ∧
    (let t : Team := { tjoin with part := 3 }
     (st t).Issues t (.fork 1 3 4) ∧ t.deque = false ∧ t.part = 3 ∧ t.tiq.length = 1) ∧
    (let s : State := { st tm with teams := tm :: tfull }
     s.Issues tm (.fork 1 3 4) ∧ tm.deque = false ∧ s.freeTeamNo tm = none) ∧
    (let s : State := { st tpar with teams := [tpar, tkid .joined] }
     s.Issues tpar (.join 4) ∧ tpar.kids = [2] ∧ s.gidOf 2 = some (tkid .joined).gid ∧
       tpar.rs 4 = (tkid .joined).gid.zeroExtend 64 ∧ s.team? 2 = some (tkid .joined) ∧ tpar.tiq = []) ∧
    (let c := regs (tkid .running) [(4, 0)]
     let s : State := { st c with teams := [tpar, c] }
     s.Issues c (.join 4) ∧ c.kids = [] ∧ c.parent = some 1 ∧ s.gidOf 1 = some 0 ∧ c.rs 4 = (0 : Gid).zeroExtend 64 ∧
       c.tiq = [] ∧ s.Clears c.uid) :=
  ⟨⟨issues_st rfl (by decide +kernel), rfl⟩,
    ⟨issues_st rfl (by decide +kernel), rfl, by decide, rfl, by decide +kernel, rfl, by rw [State.Clears]; decide +kernel,
      by decide +kernel⟩,
    ⟨issues_in rfl rfl (by decide +kernel), rfl, by decide +kernel⟩,
    ⟨issues_in rfl rfl (by decide +kernel), rfl, by decide +kernel⟩,
    ⟨issues_in rfl rfl (by decide +kernel), rfl, by decide +kernel⟩,
    ⟨issues_in rfl rfl (by decide +kernel), rfl, rfl, by decide +kernel, by decide +kernel, rfl,
      by rw [State.Clears]; decide +kernel⟩⟩

/-- A team that may use the deques, and its machine with the deques `d` and a team on core 1. -/
def tdq : Team := { tm with deque := true }
def sdq (d : KMap (List (Word × Word × List Nat))) : State :=
  { st tdq with teams := [tdq, { tm with uid := 2, gid := mkGid 0 0 0 1 0 }], pkgs := [(0, { pk with deques := d })] }

theorem wit_tasks :
    ((st tdq).Issues tdq (.spawn 1 4 5) ∧ tdq.deque = true) ∧ ((st tdq).Issues tdq (.take 1 3) ∧ (st tdq).findTask tdq = none) ∧
    ((sdq [(0, [(5, 6, [])])]).Issues tdq (.take 1 3) ∧ (sdq [(0, [(5, 6, [])])]).dequeOf tdq.gid = [(5, 6, [])]) ∧
    (let s := sdq [(1, [(5, 6, []), (7, 8, [])])]
     s.Issues tdq (.take 1 3) ∧ s.dequeOf tdq.gid = [] ∧ ((takeOrder (gidCore tdq.gid).toNat).map (withCore tdq.gid)).find?
       (fun g => s.teams.any (fun u => u.launch == tdq.launch && gidCoreKey u.gid == gidCoreKey g) && !(s.dequeOf g).isEmpty) =
         some (mkGid 0 0 0 1 0) ∧ (s.dequeOf (mkGid 0 0 0 1 0)).getLast? = some (7, 8, [])) :=
  ⟨⟨issues_st rfl (by decide +kernel), rfl⟩, ⟨issues_st rfl (by decide +kernel), by decide +kernel⟩,
    ⟨issues_in rfl rfl (by decide +kernel), by decide +kernel⟩, issues_in rfl rfl (by decide +kernel), by decide +kernel⟩

/-- What LAUNCH finds in the record whose address is in s4: none that it may read, or one that checks or not, the queue full
or not. -/
def launchFinds (t : Team) (n : Nat) (readable ok full : Bool) : Bool :=
  let q := ((sl t n).pkg t.pkg).queues.get ((t.rs 5).truncate 6 : BitVec 6).toFin
  decide ((t.rs 5).toNat ≤ 63) && !((sl t n).pkg t.pkg).resetting.contains ((t.rs 5).truncate 6) && q.open_ && q.ctx == t.ctx && yields ((sl t n).recordKeys t (t.rs 4)) (fun r => match r with
    | none => !readable
    | some ks =>
      let l := (sl t n).loadBytes t ks
      let z := l.2.rackKeys (q.tailKeys t.pkg)
      readable && recordOk (recordOfBytes l.1) == ok && decide (2 ^ q.k ≤ z.ringCount t.pkg q + q.appended.length) == full)

/-- The team that launches from an address of the window's page, to a queue. -/
def tln (off q : Nat) : Team := regs tm [(4, winBase + off), (5, q)]

theorem wit_launch :
    ((st (tln 0 64)).Issues (tln 0 64) (.launch 3 4 5) ∧ 63 < ((tln 0 64).rs 5).toNat) ∧
    ((sl (tln 0x140 5) 0).Issues (tln 0x140 5) (.launch 3 4 5) ∧ launchFinds (tln 0x140 5) 0 false false false = true) ∧
    ((sl (tln 0x200 5) 0).Issues (tln 0x200 5) (.launch 3 4 5) ∧ launchFinds (tln 0x200 5) 0 true false false = true) ∧
    ((sl (tln 0x100 5) 16).Issues (tln 0x100 5) (.launch 3 4 5) ∧ launchFinds (tln 0x100 5) 16 true true true = true) ∧
    ((sl (tln 0x100 5) 15).Issues (tln 0x100 5) (.launch 3 4 5) ∧ launchFinds (tln 0x100 5) 15 true true false = true) :=
  ⟨⟨issues_st rfl (by decide +kernel), by decide +kernel⟩, ⟨issues_in rfl rfl (by decide +kernel), by decide +kernel⟩,
    ⟨issues_in rfl rfl (by decide +kernel), by decide +kernel⟩, ⟨issues_in rfl rfl (by decide +kernel), by decide +kernel⟩,
    issues_in rfl rfl (by decide +kernel), by decide +kernel⟩

/-! ### The Press -/

/-- Eight pending keys of one cask, that of a word of the region. -/
def fullCask (a : Nat) : List PressKey :=
  (List.range 8).map (fun i => ⟨1, 1, i, stackOf a, caskOf a, some (9, 0, 0), [], none, i⟩)

/-- A cask full of pending keys, with no run held or to be had, takes no pair (R322). -/
theorem caskRoom_full {s : State} {p : PkgNo} {c : Ctx} {a : Nat} (hk : (s.pkg p).keys = fullCask a) (hl : c.leesRuns = 0) :
    s.caskRoom p c (stackOf a) (caskOf a) = none := by
  have hr : ∀ x n, (s.pkg p).runsOf x n = [] := fun x n => by simp [Pkg.runsOf, hk, fullCask, List.range, List.range.loop]
  have hc : ((s.pkg p).caskKeys (stackOf a) (caskOf a)).length = 8 := by
    simp [Pkg.caskKeys, hk, fullCask, List.range, List.range.loop]
  have hn : ∀ f, s.rackKeysOf p f = s := fun f => by
    simp [State.rackKeysOf, hk, fullCask, List.range, List.range.loop]
  simp [State.caskRoom, hc, hr, sortNats, State.freeRuns, hl, hn]

/-- A context whose casks spill nothing. -/
def cxf : Ctx := { cx with leesRuns := 0 }

/-- The machine in which a team has emitted a pair for the last word of the region, whose cask is full. -/
def sfull : State :=
  { st (((regs tm [(4, 15)]).emit 1 [(15, 0)]).advance 8) with
    pkgs := [(0, { pk with keys := fullCask (cxf.wordAddr region0 15), ctxs := [(1, cxf)] })] }

/-- The pair finds no room. -/
theorem full_stalls : ¬sfull.Clears 1 := by
  have h : sfull.pressTake 0 1 1 ⟨1, 15, 0, 0, 0, 0⟩ = none := by
    have hs : sfull.ctx? 0 1 = some cxf := rfl
    have hr : kfind cxf.regions 1 = some region0 := rfl
    have hk : ({ sfull with nextId := sfull.nextId + 1 } : State).caskRoom 0 cxf (stackOf (cxf.wordAddr region0 15))
        (caskOf (cxf.wordAddr region0 15)) = none := caskRoom_full rfl rfl
    have hn : (({ sfull with nextId := sfull.nextId + 1 } : State).pkg 0).keys.any (fun (e : PressKey) =>
        e.ctx == 1 && e.handle == 1 && e.idx == 15 && e.owner == some (1, (0 : Gid), (0 : Word))) = false := by
      rw [show (({ sfull with nextId := sfull.nextId + 1 } : State).pkg 0).keys = fullCask (cxf.wordAddr region0 15) from rfl]
      simp [fullCask, List.range, List.range.loop]
    simp only [State.pressTake, hs, hr, hn, hk, Bool.false_eq_true, if_false]
  have ht : sfull.team? 1 = some (((regs tm [(4, 15)]).emit 1 [(15, 0)]).advance 8) := rfl
  have hq : (((regs tm [(4, 15)]).emit 1 [(15, 0)]).advance 8).updq = [⟨1, 15, 0, 0, 0, 0⟩] := rfl
  have hp : sfull.pressTake (((regs tm [(4, 15)]).emit 1 [(15, 0)]).advance 8).pkg
      (((regs tm [(4, 15)]).emit 1 [(15, 0)]).advance 8).ctx 1 ⟨1, 15, 0, 0, 0, 0⟩ = none := h
  simp only [State.Clears, State.handOffAll, ht, hq, List.length_singleton, State.handOffN, hp, State.updEmpty,
    List.isEmpty_cons, Bool.false_eq_true, not_false_eq_true]

theorem wit_press :
    (st tm).region? tm 1 = some region0 ∧ (st tm).teamCtx? tm = some cx ∧
    (let t := regs tm [(4, 15)]
     (st t).Issues t (.upds true 5 4 1) ∧ (st t).unperformed t < 2 ^ 20 ∧ updChk cx region0 true (t.rs 4).toNat = .ok false ∧
       ((st t).putTeam ((t.emit 1 [((t.rs 4).toNat, updsValue region0.op.toNat (t.rs 5))]).advance 8)).Clears t.uid) ∧
    (let t := regs tm [(4, 15)]
     let s := sfull.putTeam t
     s.Issues t (.upds true 5 4 1) ∧ s.region? t 1 = some region0 ∧ s.teamCtx? t = some cxf ∧ s.unperformed t < 2 ^ 20 ∧
       updChk cxf region0 true (t.rs 4).toNat = .ok false ∧
       ¬(s.putTeam ((t.emit 1 [((t.rs 4).toNat, updsValue region0.op.toNat (t.rs 5))]).advance 8)).Clears t.uid) ∧
    (let t := regs tm [(4, 16)]
     ((st t).Issues t (.upds false 5 4 1) ∧ updChk cx region0 false (t.rs 4).toNat = .ok true) ∧
     ((st t).Issues t (.rackr 3 4 1) ∧ region0.len ≤ (t.rs 4).toNat)) ∧
    (st tm).Issues tm (.rack 1 4 5) ∧
    (let t := regs tm [(4, 15)]
     (st t).Issues t (.rackr 3 4 1) ∧ (t.rs 4).toNat < region0.len ∧
       ∃ key, cx.winXlate .update (region0.base + (t.rs 4).toNat * opWidth region0.op.toNat) = .ok key) ∧
    (st tm).At tm.gid tm :=
  ⟨rfl, rfl, ⟨issues_st rfl (by decide +kernel), by decide +kernel, by decide +kernel, by rw [State.Clears]; decide +kernel⟩,
    ⟨issues_in rfl rfl (by decide +kernel), rfl, rfl, by decide +kernel, by decide +kernel, full_stalls⟩,
    ⟨⟨issues_st rfl (by decide +kernel), by decide +kernel⟩, issues_st rfl (by decide +kernel), by decide +kernel⟩,
    issues_st rfl (by decide +kernel), ⟨issues_st rfl (by decide +kernel), by decide +kernel, _, rfl⟩, rfl, rfl⟩

end Sys2Proof.Tests
end

