-- ==== Sys2Proof/Tests/WitnessF.lean ====
section
/-!
SUPPORT. Witnesses, sixth part: system instructions, faults and pre-emption, the scheduler, the host, clause by clause.
-/

set_option Elab.async false

namespace Sys2Proof.Tests

open Sys2Proof.Machine

/-! ### System instructions -/

/-- Some team with the system attribute, and the stopped team that it names in s4; s5 holds the address of a save area. -/
def tsys (a : Nat) : Team := { regs tm [(4, a), (5, winBase + 0x40000)] with sys := true }
def tstop : Team := { tm with uid := 2, gid := 1, status := .stopped 8 7 }

/-- The machine with both, in a context of which nothing has been written and which has neither region nor table. -/
def ss (a : Nat) : State :=
  { st (tsys a) with teams := [tsys a, tstop], pkgs := [(0, { Pkg.init with booted := true, ctxs := [(1, Ctx.forFetch [])] })] }

/-- Checks that pass one by one pass together. -/
theorem allChk_map {α β : Type} (f : α → Chk β) (g : α → β) (l : List α) (h : ∀ x ∈ l, f x = .ok (g x)) :
    allChk (l.map f) = .ok (l.map g) := by
  induction l <;> simp_all [allChk, bind, Except.bind]

/-- A package of that machine has that context or none. -/
theorem pkg_ss (p : PkgNo) : ((ss 1).pkg p).ctxs = [(1, Ctx.forFetch [])] ∨ ((ss 1).pkg p).ctxs = [] := by
  have e : ∀ n : Nat, (kget Pkg.init (ss 1).pkgs n).ctxs = [(1, Ctx.forFetch [])] ∨ (kget Pkg.init (ss 1).pkgs n).ctxs = []
    | 0 => .inl rfl
    | _ + 1 => .inr rfl
  exact e p.toNat

theorem region_ss (k : Nat) : (ss 1).regionAt k = none := by
  unfold State.regionAt
  split
  · rfl
  · rcases pkg_ss (keyPkg k) with h | h <;> simp [h, Ctx.forFetch]

theorem plane_ss (k : Nat) : (ss 1).plane k = false := by
  unfold State.plane
  rcases pkg_ss (keyPkg k) with h | h <;> simp [h, Ctx.forFetch]

/-- The address of a byte of the window's first page. -/
theorem addr_ss (off : Nat) (h : off < 2 ^ 25) :
    (BitVec.ofNat 64 (winBase + off)).toNat = winBase + off ∧
    ((BitVec.ofNat 64 (winBase + off)).extractLsb' 0 52).toNat = winBase + off ∧
    (BitVec.ofNat 64 (winBase + off)).extractLsb' 52 12 = 0 := by
  have hn : (BitVec.ofNat 64 (winBase + off)).toNat = winBase + off := by
    simp only [BitVec.toNat_ofNat, winBase]; omega
  refine ⟨hn, ?_, ?_⟩
  · rw [BitVec.extractLsb'_toNat, hn]
    simp only [Nat.shiftRight_zero, winBase]; omega
  · apply BitVec.eq_of_toNat_eq
    rw [BitVec.extractLsb'_toNat, hn]
    simp only [Nat.shiftRight_eq_div_pow, winBase]
    simp; omega

theorem win_page (c : Ctx) (acc : Access) (va : Nat) (e : Word) (he : c.winEntry ((va - winBase) / winPage) = e)
    (hs : winState acc (e.extractLsb' 0 3).toNat = none) :
    c.winXlate acc va = .ok (devKey (e.extractLsb' 52 12) (winFrame e + va % winPage)) := by
  subst he
  unfold Ctx.winXlate
  simp only [hs]

theorem win_ss (off : Nat) (acc : Access) (h : off < 2 ^ 25) : (Ctx.forFetch []).winXlate acc (winBase + off) = .ok off := by
  have hw : off < winPage := by unfold winPage; exact h
  have e : ((winBase + off) - winBase) / winPage = 0 := by
    rw [Nat.add_sub_cancel_left]; exact Nat.div_eq_of_lt hw
  have e' : (winBase + off) % winPage = off := by
    rw [Nat.add_mod, show winBase % winPage = 0 by decide, Nat.zero_add, Nat.mod_mod]; exact Nat.mod_eq_of_lt hw
  have e0 : devKey ((1 : Word).extractLsb' 52 12) (winFrame 1 + off) = off := by
    rw [show winFrame 1 = 0 by decide, show ((1 : Word).extractLsb' 52 12) = 0 by decide]
    simp [devKey]
  rw [win_page _ acc (winBase + off) 1 (by rw [e]; rfl) (by cases acc <;> rfl), e', e0]

theorem xl_ss (off : Nat) (acc : Access) (h : off < 2 ^ 25) :
    (ss 1).xlateScalar (tsys 1) acc (BitVec.ofNat 64 (winBase + off)) = .ok off := by
  obtain ⟨-, hv, h0⟩ := addr_ss off h
  have e2 : (ss 1).teamCtx? (tsys 1) = some (Ctx.forFetch []) := by decide +kernel
  have e3 : isDevKey off = true := by
    unfold isDevKey; exact decide_eq_true (Nat.lt_trans h (by decide))
  have e4 : keyPkg off = 0 := by
    unfold keyPkg; rw [Nat.div_eq_of_lt (Nat.lt_trans h (by decide))]; rfl
  have e5 : inWin (winBase + off) = true := by
    unfold inWin
    rw [decide_eq_true (Nat.le_add_right ..), decide_eq_true (Nat.lt_of_lt_of_le (Nat.add_lt_add_left h winBase) (by decide))]
    rfl
  have e6 : ¬ (2 ^ 52 ≤ winBase + off) :=
    Nat.not_le.mpr (Nat.lt_of_lt_of_le (Nat.add_lt_add_left h winBase) (by decide))
  have e7 : (ss 1).routed (tsys 1).pkg 0 = true := by decide +kernel
  have hb : (ss 1).barred acc off = false := by simp [State.barred, plane_ss, region_ss]
  unfold State.xlateScalar
  rw [hv, h0, if_pos rfl]
  unfold State.xlateTeamVa
  rw [e2]
  simp only [if_neg e6]
  unfold State.xlateVa
  rw [e5, if_pos rfl, win_ss off acc h]
  simp only [e3, e4, e7, hb, Bool.not_true, Bool.and_false, Bool.false_eq_true, if_false, Bool.or_false]

/-- An aligned doubleword of the save area. -/
theorem keys_ss (off : Nat) (acc : Access) (h8 : off % 8 = 0) (h : off < 2 ^ 25) :
    (ss 1).scalarKeys (tsys 1) acc .team (BitVec.ofNat 64 (winBase + off)) 8 = .ok (keysFrom off 8) := by
  obtain ⟨hn, hv, -⟩ := addr_ss off h
  have ea : ¬ ((winBase + off) % 8 ≠ 0) := by
    rw [Nat.add_mod, show winBase % 8 = 0 by decide, h8]; decide
  unfold State.scalarKeys
  rw [hn, if_neg ea, xl_ss off acc h]
  rfl

/-- The whole save area can be had. -/
theorem area_ss (acc : Access) :
    ∃ ks, (ss 1).areaKeys (tsys 1) acc ((tsys 1).rs 5) 0 = .ok (some ks) ∧ 4096 ≤ ks.length := by
  have e5 : (tsys 1).rs 5 = BitVec.ofNat 64 (winBase + 0x40000) := by decide +kernel
  have ec : ∀ i, BitVec.ofNat 64 (winBase + 0x40000) + BitVec.ofNat 64 (8 * i) =
      BitVec.ofNat 64 (winBase + (0x40000 + 8 * i)) := by
    intro i; rw [← BitVec.ofNat_add, Nat.add_assoc]
  have e8 : ¬ ((tsys 1).rs 5).toNat % 4096 ≠ 0 := by decide +kernel
  unfold State.areaKeys
  rw [if_neg e8, e5]
  have hs : areaBytes 0 / 8 < 2 ^ 20 ∧ 512 ≤ areaBytes 0 / 8 := by decide
  generalize areaBytes 0 / 8 = n at hs
  rw [allChk_map _ (fun i => keysFrom (0x40000 + 8 * i) 8) _ (fun i hi => by
    rw [ec]; exact keys_ss _ acc (by omega) (by have := List.mem_range.mp hi; omega))]
  have hd : ((List.range n).map (fun i => keysFrom (0x40000 + 8 * i) 8)).flatten.all isDevKey = true := by
    simp only [List.all_flatten, List.all_map, List.all_eq_true, Function.comp, keysFrom, isDevKey, List.mem_range,
      decide_eq_true_eq]
    intros; omega
  have hb : ∀ ks, (ss 1).badKey? ks = none := fun ks => by simp [State.badKey?, ss, st, State.reset]
  refine ⟨((List.range n).map (fun i => keysFrom (0x40000 + 8 * i) 8)).flatten, ?_, ?_⟩
  · have he : ∀ va ks, (ss 1).eccChk .team va ks = .ok () := fun va ks => by rw [State.eccChk, hb]
    dsimp only
    generalize ((List.range n).map (fun i => keysFrom (0x40000 + 8 * i) 8)).flatten = ks at hd
    rw [hd, he]
    cases acc <;> rfl
  · simp [List.length_flatten, Function.comp_def, keysFrom]; omega

/-- No line of that machine's memory holds a word of a region. -/
theorem rack_ss (ks : List Nat) : (ss 1).rackKeys ks = ss 1 := by
  have hl : ∀ l, (ss 1).rackLine l = ss 1 := fun l => by
    unfold State.rackLine State.hasRegion
    rcases pkg_ss (keyPkg l) with h | h <;> simp [h, Ctx.forFetch]
  exact List.foldlRecOn (motive := fun z => z = ss 1) _ _ rfl (fun z hz l _ => by rw [hz]; exact hl l)

/-- What a load of a team of that machine reads: zeros. -/
theorem load_ss (ks : List Nat) : (ss 1).loadBytes (tsys 1) ks = (List.replicate ks.length 0, ss 1) := by
  have hc : (ss 1).teamCtx? (tsys 1) = some (Ctx.forFetch []) := by decide +kernel
  have hv : (ss 1).viewBytes (tsys 1) .team ks = List.replicate ks.length 0 := by
    rw [← List.map_const', State.viewBytes, hc]
    exact List.map_congr_left (fun k _ => rfl)
  have hz : ∀ l : List Nat, (l.zip (List.replicate l.length (0 : Byte))).map Prod.snd = List.replicate l.length 0 :=
    fun l => by rw [List.map_snd_zip]; simp
  have eb : (tsys 1).sbuf = [] := rfl
  unfold State.loadBytes State.load
  simp only [rack_ss, hv, region_ss, Team.overlay, eb, Option.isSome_none, Bool.false_eq_true, if_false, List.foldl_nil]
  rw [show (fun kb : Nat × Byte => kb.2) = Prod.snd from rfl, hz, hz]

/-- A header of zeros. -/
theorem header_words (i : Nat) : (wordsOf (List.replicate 4096 0)).getD i 0 = 0 := by
  have hb : ∀ n, bytesToNat (List.replicate n 0) = 0 := by
    intro n
    induction n with
    | zero => rfl
    | succ n ih => rw [List.replicate_succ, bytesToNat, ih]; rfl
  unfold wordsOf
  rw [List.getD_eq_getElem?_getD, List.getElem?_map]
  simp only [List.drop_replicate, List.take_replicate, hb]
  cases (List.range _)[i]? <;> rfl

theorem header_ss : headerClean (wordsOf (List.replicate 4096 0)) = true ∧
    ((wordsOf (List.replicate 4096 0)).getD 48 0).extractLsb' 0 2 = tstop.part ∧
    (ss 1).geosMatch tstop (wordsOf (List.replicate 4096 0)) = true := by
  have hz := header_words
  generalize wordsOf (List.replicate 4096 0) = h at hz
  unfold headerClean State.geosMatch
  simp only [hz]
  exact ⟨by decide +kernel, by decide +kernel, by decide +kernel⟩

theorem wit_systemInstructions :
    ((st tm).issuing? = some tm ∧ tm.sys = false ∧ tm.mustWait (.eret 1 4) = false ∧ tm.mustWait (.ctxs 1 4 5) = false ∧
      tm.mustWait (.ctxl 1 4 5) = false) ∧
    ((ss (2 ^ 25)).issuing? = some (tsys (2 ^ 25)) ∧ (tsys (2 ^ 25)).sys = true ∧
      (tsys (2 ^ 25)).mustWait (.eret 1 4) = false ∧ ((tsys (2 ^ 25)).rs 4).extractLsb' 25 39 ≠ 0) ∧
    ((ss 5).issuing? = some (tsys 5) ∧ ((tsys 5).rs 4).extractLsb' 25 39 = 0 ∧
      (ss 5).teamAt? (tsys 5).ctx (((tsys 5).rs 4).extractLsb' 0 25) = none) ∧
    ((ss 0).issuing? = some (tsys 0) ∧ (ss 0).teamAt? (tsys 0).ctx (((tsys 0).rs 4).extractLsb' 0 25) = some (tsys 0) ∧
      (tsys 0).status = .running) ∧
    ((ss 1).issuing? = some (tsys 1) ∧ (tsys 1).mustWait (.ctxs 1 4 5) = false ∧ (tsys 1).mustWait (.ctxl 1 4 5) = false ∧
      (ss 1).ctxTarget (tsys 1) ((tsys 1).rs 4) = .ok (tstop, 8, 7)) ∧
    (∃ ks, (ss 1).areaKeys (tsys 1) .write ((tsys 1).rs 5) tstop.part = .ok (some ks)) ∧
    ∃ ks, (ss 1).areaKeys (tsys 1) .read ((tsys 1).rs 5) tstop.part = .ok (some ks) ∧
      let l := (ss 1).loadBytes (tsys 1) ks
      let h := wordsOf (l.1.take 4096)
      headerClean h = true ∧ (h.getD 48 0).extractLsb' 0 2 = tstop.part ∧ l.2.geosMatch tstop h = true := by
  refine ⟨by decide +kernel, by decide +kernel, by decide +kernel, by decide +kernel, by decide +kernel, ?_, ?_⟩
  · obtain ⟨ks, h, -⟩ := area_ss .write
    exact ⟨ks, h⟩
  · obtain ⟨ks, h, hl⟩ := area_ss .read
    refine ⟨ks, h, ?_⟩
    rw [load_ss]
    dsimp only
    rw [List.take_replicate, Nat.min_eq_left hl]
    exact header_ss

end Sys2Proof.Tests
end

