-- ==== Sys2Proof/Tests/WitnessG.lean ====
section
/-!
SUPPORT. Witnesses, last part: faults and pre-emption, the scheduler, the host, failures, good states.
-/

set_option Elab.async false

namespace Sys2Proof.Tests

open Sys2Proof.Machine

/-- The machine with another package 0. -/
def withPk (s : State) (k : Pkg) : State := { s with pkgs := [(0, k)] }

/-! ### Faults and pre-emption -/

/-- A fault that is held, and a record that waits. -/
def hf : HeldFault := ⟨FaultInfo.plain 1 .team, 0, 0, 0, false, 0⟩
def post1 : FaultPost := ⟨1, 2, List.replicate 8 0⟩

/-- A team that is saved. -/
def tsav (status : TeamStatus) : SavedTeam := ⟨{ tm with uid := 3, gid := 8, status }, .stopped, 0⟩

/-- A package that takes placements. -/
def pkup : Pkg := { pk with linkUp := true }

theorem wit_faults :
    (let t := { tm with heldFault := some hf }
     (st t).At t.gid t ∧ t.heldFault = some hf ∧ t.clear = true) ∧
    (let c := { cx with posts := [post1] }
     let s := withPk (st tm) { pk with ctxs := [(1, c)] }
     s.ctx? 0 1 = some c ∧ c.posts = [post1] ∧ s.faultRoom 0 c post1.bytes = true) ∧
    (let x := tsav (.stopped 0 7)
     let s := { st tm with saved := [x] }
     s.ctx? 0 1 = some cx ∧ s.saved.find? (fun y => y.stoppedAt 1 7 && y.team.pkg == 0) = some x) ∧
    (let t := { tm with wait := .walk 5 }
     (st t).At t.gid t ∧ t.tileWalk = none ∧ t.wait = .walk 5) ∧
    (let t := { tm with tileWalk := some 5 }
     (st t).At t.gid t ∧ t.tileWalk = some 5) ∧
    ((st tm).At tm.gid tm ∧ tm.preq = false) ∧
    (let t := { tm with preq := true }
     (st t).At t.gid t ∧ t.preq = true ∧ t.pdlEnd ≤ (st t).now) ∧
    (let x := tsav .running
     let s := { withPk (st tm) pkup with saved := [x] }
     s.saved.find? (fun y => y.team.uid == x.team.uid) = some x ∧ s.mayResume x 8 = true ∧
       ∀ l, s.launch? x.team.launch = some l → l.isGang = false) := by
  unfold State.At
  rw [← and_assoc, ← and_assoc, ← and_assoc, ← and_assoc, ← and_assoc, ← and_assoc]
  refine ⟨by decide +kernel, by decide +kernel, by decide +kernel, ?_⟩
  intro l hl
  have e : ({ withPk (st tm) pkup with saved := [tsav .running] } : State).launch? (tsav .running).team.launch =
      some (Launch.forFetch 2) := by decide +kernel
  rw [e, Option.some.injEq] at hl
  rw [← hl]
  decide +kernel

/-! ### The scheduler -/

/-- A queue to which `r` was appended, of the package with tokens. -/
def sq (r : List Word) (tokens : List (BitVec 16 × Nat)) : State :=
  { withPk (st tm) { pk with
      queues := pk.queues.set 5 ⟨true, 1, 0, 0x70000, 4, 0x70000, 0x70008, 0, [(r, [], 0)], []⟩,
      ctxs := [(1, { cx with tokens })] } with now := 5000 }

/-- That record in graph 9. -/
def rec9 : List Word := rec1.set 5 0x9_0000

/-- A launch of `rec1` of which nothing is placed, or one core of two. -/
def lnew (lo hi : Nat) (insts : List Inst) : Launch :=
  { Launch.forFetch 2 with record := rec1.set 9 0x2800_0002, lo0 := lo, hi0 := hi, insts }

/-- A launch bound to the fabric, of two cores. -/
def lfab (insts : List Inst) (gang : GangPhase) (ready : List PkgNo) : Launch :=
  { Launch.forFetch 2 with record := rec1.set 9 0xB400_0002, insts, gang, ready }

/-- The machine with a launch and no team, on a package that takes placements. -/
def sn (l : Launch) (teams : List Team) (saved : List SavedTeam) : State :=
  { withPk (st tm) pkup with launches := [l], teams, saved }

theorem wit_scheduler_pop :
    (∀ r tokens, r = rec1.set 3 8 ∧ tokens = [] ∨ r = rec1 ∧ tokens = [] ∨ r = rec9 ∧ tokens = [(9, 0)] →
      let s := (sq r tokens).watchTails 0
      (s.pkg 0).power = .on ∧ (s.pkg 0).booted = true ∧ s.nextQueue 0 = some 5 ∧
        s.ctx? 0 (s.queue 0 5).ctx = some { cx with tokens } ∧ (s.popEntry 0 5).1 = r) ∧
    recordOk (rec1.set 3 8) = false ∧
    (recordOk rec9 = true ∧ ((sq rec9 [(9, 0)]).watchTails 0).dropsEntry { cx with tokens := [(9, 0)] } (recGraph rec9) = true) ∧
    (recordOk rec1 = true ∧ ((sq rec1 []).watchTails 0).dropsEntry { cx with tokens := [] } (recGraph rec1) = false) := by
  refine ⟨?_, by decide +kernel⟩
  rintro r tokens (⟨rfl, rfl⟩ | ⟨rfl, rfl⟩ | ⟨rfl, rfl⟩) <;> decide +kernel

theorem wit_scheduler_placement :
    (let l := lnew 0 1 []
     let s := sn l [] []
     s.launch? l.id = some l ∧ (l.range false).1 < (l.range false).2 ∧ s.imageHeld l.pkg l.ctx = false ∧
       l.insts.any (fun i => i.die == false && decide (i.cores.length < i.total)) = false ∧ s.orderOk l = true ∧
       s.dieHolds l false = true ∧ s.dropsRange l = false) ∧
    (let l := lnew 0 3 []
     let s := sn l [] []
     s.launch? l.id = some l ∧ l.stolen = false ∧ (l.range true).2 ≤ (l.range true).1 ∧ s.dieHolds l true = true ∧
       2 ≤ (l.range (!true)).2 - (l.range (!true)).1) ∧
    (let l := lnew 1 1 [⟨0, false, [0], 2⟩]
     let s := sn l [] []
     s.launch? l.id = some l ∧ l.insts.find? (fun j => j.idx == 0) = some ⟨0, false, [0], 2⟩ ∧
       s.coresOk l ⟨0, false, [0], 2⟩ [8] = true) ∧
    (let l := lnew 1 1 [⟨0, false, [0, 1], 2⟩]
     let s := sn l [] []
     s.launch? l.id = some l ∧ s.teams = [] ∧ s.saved = [] ∧ l.allPlaced = true ∧ l.cut.contains l.pkg = false) ∧
    (let l := { lnew 1 1 [⟨0, false, [0, 1], 2⟩] with cut := [0] }
     let s := sn l [] []
     s.launch? l.id = some l ∧ s.teams = [] ∧ s.saved = [] ∧ l.cut.contains l.pkg = true) ∧
    ((withPk (st tm) { pk with resetting := [5] }).pkg 0).resetting.contains 5 = true ∧
    (let s := withPk (st tm) { pk with awaiting := [0] }
     (s.pkg 0).awaiting.contains (s.queue 0 5).ctx = true) ∧
    (inWin winBase = true ∧ cx.winEntry ((winBase - winBase) / winPage) ≠ 0) := by decide +kernel

/-- A launch in a graph whose token has been raised. -/
theorem wit_scheduler_drop :
    let l : Launch := { lnew 0 2 [] with record := (rec9.set 6 0x2_0000_0000) }
    let s := withPk (sn l [] []) { pkup with ctxs := [(1, { cx with tokens := [(9, 0)] })] }
    s.launch? l.id = some l ∧ 1 < recRange l.record ∧ (l.range false).1 < (l.range false).2 ∧ s.imageHeld l.pkg l.ctx = false ∧
      s.orderOk l = true ∧ s.dieHolds l false = true ∧
      s.dropsRange l = true := by decide +kernel

theorem wit_scheduler_ready :
    (let l := lfab [⟨0, false, [0], 2⟩] .idle []
     let s := sn l [] []
     s.launch? l.id = some l ∧ l.fabric = true ∧ l.rests = true ∧ l.cut.contains 0 = false ∧ s.imageHeld 0 l.ctx = false ∧ (s.pkg 0).takes = true ∧
       l.ready.contains 0 = false ∧ s.placedOn l 0 = false ∧ s.orderOk l = true ∧ s.savedOn l 0 = [] ∧ l.insts.find? (fun j => j.idx == 0) = some ⟨0, false, [0], 2⟩ ∧
       s.coreFree l.ctx 8 = true ∧ gidPkg 8 = 0 ∧ [(8 : Gid)].Nodup ∧ 1 + [(8 : Gid)].length ≤ 2) ∧
    (let l := lfab [⟨0, false, [0, 1], 2⟩] .idle []
     let x := tsav .running
     let s := sn l [] [x]
     s.launch? l.id = some l ∧ l.fabric = true ∧ l.rests = true ∧ l.cut.contains 0 = false ∧ s.imageHeld 0 l.ctx = false ∧ l.ready.contains 0 = false ∧ s.placedOn l 0 = false ∧
       s.orderOk l = true ∧ s.savedOn l 0 = [x] ∧ ∀ y ∈ s.savedOn l 0, s.mayResume y y.team.gid = true) := by decide +kernel

theorem wit_scheduler_release :
    (let l := lfab [⟨0, false, [0, 1], 2⟩] .starting [0]
     let s := sn l [] []
     s.launch? l.id = some l ∧ l.gang = .starting ∧ l.ready.contains 0 = true ∧ s.routed l.pkg 0 = true) ∧
    (let l := lfab [⟨0, false, [0, 1], 2⟩] .aborting [0]
     let s := fun (fresh : Bool) => sn l [{ tm with status := .held, fresh }] []
     (s true).launch? l.id = some l ∧ (s false).launch? l.id = some l ∧ l.gang = .aborting ∧ l.cut.contains 0 = false ∧
       (s true).routed l.pkg 0 = true ∧ (s false).routed l.pkg 0 = true ∧ l.ready.contains 0 = true ∧
       ((s true).teams.filter (fun t => t.launch == l.id && t.pkg == 0)).map (·.fresh) = [true] ∧
       ((s false).teams.filter (fun t => t.launch == l.id && t.pkg == 0)).map (·.fresh) = [false]) ∧
    (let l := lfab [⟨0, false, [0, 1], 2⟩] .aborting []
     let t := { tm with launch := 9, preq := true }
     let s := sn l [t] []
     s.launch? l.id = some l ∧ l.gang = .aborting ∧ l.cut.contains 0 = false ∧ s.routed l.pkg 0 = true ∧ l.ready.contains 0 = false ∧
       s.holdsGang l t = true ∧ t.launch ≠ l.id ∧ ∃ j ∈ l.insts, gidCoreKey t.gid ∈ j.cores) := by
  decide +kernel

theorem wit_completion : recCpl rec1 ≠ 0 ∧ recCpl rec1 % 8 = 0 ∧ (st tm).ctx? 0 cx.id = some cx ∧
    (st tm).xlateHost 0 cx (recCpl rec1) = .ok (devKey 0 0x60000) := by decide +kernel

/-! ### The host -/

/-- A mailbox that holds a command and its arguments. -/
def mail (k : Pkg) (code : Nat) (args : List Nat) : Pkg :=
  { k with mailbox := Vector.ofFn (fun i => BitVec.ofNat 64 (((2 ^ 63 + code) :: args).getD i.val 0)) }

/-- The machine with that command. -/
def sm (k : Pkg) (code : Nat) (args : List Nat) : State := withPk (st tm) (mail k code args)

/-- A package whose queue 5 is open, and one without a context. -/
def pkq : Pkg := { pk with queues := pk.queues.set 5 ⟨true, 1, 0, 0x70000, 4, 0x70000, 0x70008, 0, [], []⟩ }
def pk0 : Pkg := { Pkg.init with booted := true }

/-- Whether an outcome is a next state. -/
def isNext (x : Host.Outcome State Fault Refusal) : Bool :=
  match x with
  | .next _ => true
  | _ => false

/-- The machine in which host memory at 0 holds a window entry. -/
def swin (e : Nat) : State :=
  { sm pk 0x08 [1, 5, 1, 2 ^ 63] with mem := Memory.putCells [] (cellsAt (hostKey 0) (natToBytes 8 e)) }

theorem wit_commands :
    (let s := sm pk0 0x01 [2, 0x4000, 64 * 2 ^ 32, 4, 1, 0x100000, 0]
     s.pendingCode 0 = some 0x01 ∧ ctxArg ((s.pkg 0).mail 1) = some 2 ∧ s.ctx? 0 2 = none ∧ (s.pkg 0).createOk = true) ∧
    (let s := sm pk 0x02 [1]
     s.pendingCode 0 = some 0x02 ∧ s.ctxOf 0 ((s.pkg 0).mail 1) = some cx) ∧
    (let s := sm pk 0x02 [2]
     s.pendingCode 0 = some 0x02 ∧ s.ctxOf 0 ((s.pkg 0).mail 1) = none) ∧
    (let s := sm pk 0x03 [63, 1, 7, 0x70000, 16, 0x80000, 0x80040]
     let m := fun (i : Nat) => (s.pkg 0).mail i
     s.pendingCode 0 = some 0x03 ∧ s.ctxOf 0 (m 2) = some cx ∧ (m 1).toNat ≤ 63 ∧ (m 3).toNat ≤ 7 ∧ 4 ≤ (m 5).toNat ∧
       (m 5).toNat ≤ 16 ∧ rangeOk (m 4) 128 (2 ^ (m 5).toNat * 128) = true ∧ rangeOk (m 6) 8 8 = true ∧
       rangeOk (m 7) 8 8 = true ∧
       (m 6).toNat / 64 ≠ (m 7).toNat / 64 ∧ ((s.pkg 0).queues.get (Fin.ofNat 64 (m 1).toNat)).open_ = false ∧
       (s.pkg 0).resetting.contains ((m 1).extractLsb' 0 6) = false) ∧
    (let s := fun (b : Bool) => sm { pkq with resetting := if b then [5] else [] } 0x04 [5]
     (s false).pendingCode 0 = some 0x04 ∧ (((s false).pkg 0).mail 1).toNat ≤ 63 ∧
       ((s false).pkg 0).resetting.contains ((((s false).pkg 0).mail 1).extractLsb' 0 6) = false ∧
       ((s false).queue 0 ((((s false).pkg 0).mail 1).extractLsb' 0 6)).open_ = true ∧
       (s true).pendingCode 0 = some 0x04 ∧ (((s true).pkg 0).mail 1).toNat ≤ 63 ∧
       ((s true).pkg 0).resetting.contains ((((s true).pkg 0).mail 1).extractLsb' 0 6) = true) ∧
    (let s := sm pk 0x05 [1, 9]
     s.pendingCode 0 = some 0x05 ∧ s.ctxOf 0 ((s.pkg 0).mail 1) = some cx ∧ graphArg ((s.pkg 0).mail 2) = some 9) ∧
    (let s := sm pk 0x06 [1, 0]
     s.pendingCode 0 = some 0x06 ∧ s.ctxOf 0 ((s.pkg 0).mail 1) = some cx ∧ graphArg ((s.pkg 0).mail 2) = some 0) ∧
    (let s := sm pk 0x07 [1, 0, 2 ^ 40]
     s.pendingCode 0 = some 0x07 ∧ s.ctxOf 0 ((s.pkg 0).mail 1) = some cx ∧
       ((s.pkg 0).mail 2).toNat + ((s.pkg 0).mail 3).toNat ≤ 2 ^ 40) ∧
    (∀ e, e = 1 ∨ e = 5 → let s := swin e
      s.pendingCode 0 = some 0x08 ∧ s.ctxOf 0 ((s.pkg 0).mail 1) = some cx ∧
        ((s.pkg 0).mail 2).toNat + ((s.pkg 0).mail 3).toNat ≤ 131072 ∧ rangeOk ((s.pkg 0).mail 4) 8 (8 * ((s.pkg 0).mail 3).toNat) = true ∧
        s.winBusy 0 cx ((s.pkg 0).mail 2).toNat ((s.pkg 0).mail 3).toNat = false ∧
        ((List.range ((s.pkg 0).mail 3).toNat).map (fun i =>
          (s.rackKeys (keysFrom (cmdKey 0 ((s.pkg 0).mail 4).toNat) (8 * ((s.pkg 0).mail 3).toNat))).hostDword
            (cmdKey 0 ((s.pkg 0).mail 4).toNat + 8 * i))).all winEntryOk = (e == 1)) ∧
    (let s : State := { sm pk 0x08 [1, 0, 1, 2 ^ 63] with teams := [{ tm with sbuf := [⟨0, [(devKey 0 0x100, 1)]⟩] }] }
     s.pendingCode 0 = some 0x08 ∧ s.winBusy 0 cx ((s.pkg 0).mail 2).toNat ((s.pkg 0).mail 3).toNat = true) ∧
    ((sm pk 0x09 [0, 16]).pendingCode 0 = some 0x09 ∧
      (((sm pk 0x09 [0, 16]).pkg 0).mail 1).toNat + (((sm pk 0x09 [0, 16]).pkg 0).mail 2).toNat ≤ 2 ^ 52) ∧
    (let s := sm pk 0x09 [2 ^ 52 - 8, 16]
     s.pendingCode 0 = some 0x09 ∧ ¬((s.pkg 0).mail 1).toNat + ((s.pkg 0).mail 2).toNat ≤ 2 ^ 52) ∧
    (let s := sm pk 0x0A []
     s.pendingCode 0 = some 0x0A ∧ (s.pkg 0).ctxs ≠ []) ∧
    (let s := sm pk0 0x0A []
     s.pendingCode 0 = some 0x0A ∧ (s.pkg 0).ctxs = []) ∧
    (let s := sm pk 0x0B [1, 0x12, 1]
     s.pendingCode 0 = some 0x0B ∧ s.ctxOf 0 ((s.pkg 0).mail 1) = some cx ∧ hostSvcOk ((s.pkg 0).mail 2).toNat = true ∧
       (∀ u ∈ s.teams, u.uid ≠ 0) ∧
       isNext (runService ((s.pkg 0).mail 2).toNat
         { s with teams := s.teams ++ [s.hostCaller (s.pkg 0) 0 cx], cur := 0 }) = true) ∧
    ((sm pk 0x0C []).pendingCode 0 = some 0x0C ∧ ¬(1 ≤ 0x0C ∧ 0x0C ≤ 0x0B)) ∧ (sm pk 0 []).pendingCode 0 = some 0 := by
  rw [← and_assoc, ← and_assoc, ← and_assoc, ← and_assoc, ← and_assoc, ← and_assoc, ← and_assoc]
  refine ⟨by decide +kernel, ?_, by decide +kernel⟩
  rintro e (rfl | rfl) <;> decide +kernel

/-- Two reservations of a die: 1 holds ways 8 to 15 of the mask and EN. -/
def dres : Die := { Die.init with rsv := Die.init.rsv.set 1 { Die.init.rsv.get 1 with w2 := 0x1FF00 } }

/-- The check of an image is free, so that no image can be shown to pass or to fail it: one of the two holds of each. -/
theorem wit_hostPath :
    (((State.reset.pkg 0).power = .on ∧ (State.reset.pkg 0).booted = false) ∧
     (let s := { withPk (st tm) { pk with trial := true } with now := nsCycles 2000000000 }
      (s.pkg 0).trial = true ∧ (s.pkg 0).trialAt + nsCycles 2000000000 ≤ s.now) ∧
     (let s := withPk (st tm) { pk with trial := true }
      (s.pkg 0).trial = true ∧ s.now < (s.pkg 0).trialAt + nsCycles 2000000000)) ∧
    ((dres.rsvAt 1).w2.getLsbD 16 = true ∧ (dres.rsvAt 1).w2.extractLsb' 0 16 &&& (0x18000 : Word).extractLsb' 0 16 ≠ 0 ∧
      (0x18000 : Word).getLsbD 16 = true ∧ ((dres.rsvAt 2).next1.toNat ≤ (dres.rsvAt 2).next0.toNat) ∧
      (0x10000 : Word).extractLsb' 0 16 = (0 : BitVec 16) ∧ 12 < ways (0x1FFF : BitVec 16) ∧ (0x8000 : Word).getLsbD 16 = false) ∧
    (∀ x, imageOk x = true ∨ imageOk x = false) :=
  ⟨by decide +kernel, by decide +kernel, fun x => Bool.eq_false_or_eq_true (imageOk x)⟩

theorem wit_failures :
    (State.reset.teams.any (fun t => t.pkg == 0 && gidDie t.gid == false && gidClu t.gid == false) = false) ∧
    (∀ t ∈ (st tm).teams, t.pkg = 0 → t.ctx ∉ ([7] : List CtxId)) ∧
    (let s := withPk (st tm) { pk with ports := (pk.ports.set 3 ⟨.up, 1, 2, true⟩).set 4 ⟨.down, 1, 2, false⟩ }
     ((s.pkg 0).port 3).mark = .up ∧ ((s.pkg 0).port 4).mark = .down ∧ (1 : PkgNo) ≠ 0) ∧
    (((st tm).errorOwner 0 (.vintage 1 1)).isSome = true ∧ ((st tm).errorOwner 0 (.cached)).isSome = false) ∧
    ((withPk (st tm) { pk with power := .off }).pkg 0).power = .off := by
  decide +kernel

/-! ### Good states -/

theorem wit_stepKeepsInv : (st tm).Inv ∧ isNext (step (st tm)) = true :=
  ⟨⟨rfl, List.nodup_nil, fun w h => (by cases h)⟩, by decide +kernel⟩

end Sys2Proof.Tests
end

/-!
Host accesses, residency registers, boot and identity: one lemma for what a write of each register leaves, and for when the
write of a W2 is refused.
-/

section
namespace Sys2Proof.Machine

/-! ### Residency registers (R268) -/

/-- What register `j` holds after register `n` has been replaced. -/
theorem Die.rsvAt_set (d : Die) (n j : BitVec 4) (r : Rsv) :
    ({ d with rsv := d.rsv.set n.toFin r } : Die).rsvAt j = if j = n then r else d.rsvAt j := by
  simp only [Die.rsvAt, Vector.get_eq_getElem, Vector.getElem_set, BitVec.val_toFin, BitVec.toNat_inj, eq_comm]

/-- The enabled registers of a die, but for `n`. -/
def Die.othersEnabled (d : Die) (n : BitVec 4) : List (BitVec 4) :=
  ((List.range 16).map (BitVec.ofNat 4)).filter (fun j => j != n && (d.rsvAt j).en)

/-- The model gathers the masks of the other enabled registers by their numbers. -/
theorem Die.othersEnabled_wmasks (d : Die) (n : BitVec 4) :
    ((List.range 16).filter (fun i => i != n.toNat)).filterMap (fun i =>
      if (d.rsvAt (BitVec.ofNat 4 i)).en then some (d.rsvAt (BitVec.ofNat 4 i)).wmask else none) =
    (d.othersEnabled n).map (fun j => (d.rsvAt j).wmask) := by
  rw [Die.othersEnabled, List.filter_map, List.map_map, ← List.filterMap_eq_map, List.filterMap_filter, List.filterMap_filter]
  refine List.filterMap_congr fun i hi => ?_
  have hn : BitVec.ofNat 4 i = n ↔ i = n.toNat := by
    have := List.mem_range.mp hi
    rw [← BitVec.toNat_inj, BitVec.toNat_ofNat, Nat.mod_eq_of_lt this]
  by_cases h : i = n.toNat <;> simp [h, hn, bne]

theorem Die.mem_othersEnabled {d : Die} {n j : BitVec 4} :
    j ∈ d.othersEnabled n ↔ j ≠ n ∧ (d.rsvAt j).en = true := by
  have hj : j ∈ (List.range 16).map (BitVec.ofNat 4) :=
    List.mem_map.mpr ⟨j.toNat, List.mem_range.mpr j.isLt, BitVec.eq_of_toNat_eq (by simp)⟩
  simp [Die.othersEnabled, List.mem_filter, hj, -List.mem_map]

/-- R268: a write that enables a register is refused when its ways are none, in use or too many, or its range is empty. -/
theorem Die.rsvRefuses_iff (d : Die) (n : BitVec 4) (v : Word) :
    d.rsvRefuses n v = true ↔ v.getLsbD 16 = true ∧ (v.extractLsb' 0 16 = 0 ∨
      (∃ j, j ≠ n ∧ (d.rsvAt j).en = true ∧ (d.rsvAt j).wmask &&& v.extractLsb' 0 16 ≠ 0) ∨
      12 < ways (v.extractLsb' 0 16) + ((d.othersEnabled n).map (fun j => ways (d.rsvAt j).wmask)).sum ∨
      (d.rsvAt n).next1.toNat ≤ (d.rsvAt n).next0.toNat) := by
  simp only [Die.rsvRefuses, Die.othersEnabled_wmasks, List.any_map, List.map_map, Bool.and_eq_true, Bool.or_eq_true,
    beq_iff_eq, List.any_eq_true, Function.comp_def, bne_iff_ne, decide_eq_true_eq, BitVec.ule_eq_decide, or_assoc,
    Die.mem_othersEnabled, and_assoc]

theorem Die.rsvAt_writeW2_ne (d : Die) {n j : BitVec 4} (v : Word) (h : j ≠ n) : (d.writeW2 n v).rsvAt j = d.rsvAt j :=
  (d.rsvAt_set n j _).trans (if_neg h)

theorem Die.rsvAt_writeW2_refused {d : Die} {n : BitVec 4} {v : Word} (h : d.rsvRefuses n v = true) :
    (d.writeW2 n v).rsvAt n = { d.rsvAt n with w2 := ((d.rsvAt n).w2 &&& ~~~ (0x10000 : Word)) ||| 0x20000 } :=
  (d.rsvAt_set n n _).trans ((if_pos rfl).trans (if_pos h))

theorem Die.rsvAt_writeW2_taken {d : Die} {n : BitVec 4} {v : Word} (h : ¬d.rsvRefuses n v = true) :
    (d.writeW2 n v).rsvAt n =
      { d.rsvAt n with w0 := (d.rsvAt n).next0, w1 := (d.rsvAt n).next1, w2 := v &&& rsvFields } :=
  (d.rsvAt_set n n _).trans ((if_pos rfl).trans (if_neg h))

/-- ERR is no field that the host writes (Table 11.1). -/
theorem and_rsvFields_err (v : Word) : (v &&& rsvFields).getLsbD 17 = false := by
  rw [BitVec.getLsbD_and, show rsvFields.getLsbD 17 = false by decide, Bool.and_false]

/-! ### Firmware control and the mailbox (R387, R390) -/

theorem Pkg.commitTrial_eq (k : Pkg) (now : Nat) : k.commitTrial now =
    if k.trial = true ∧ now < k.trialAt + nsCycles 2000000000 then { k with active := !k.active, trial := false } else k :=
  if_congr (by rw [Bool.and_eq_true, decide_eq_true_iff, trialLimit]) rfl rfl

/-- R387: the mailbox stands at offset 0x1000 of BAR0, a doubleword each 8 bytes. -/
theorem Pkg.regWrite_mailbox (k : Pkg) (now : Nat) (v : Word) {off : Nat}
    (h : 0x1000 ≤ off ∧ off < 0x1040 ∧ off % 8 = 0) :
    k.regWrite now off v = { k with mailbox := k.mailbox.set (Fin.ofNat 8 ((off - 0x1000) / 8)) v } := by
  rw [Pkg.regWrite, if_neg (by omega), if_pos h]

theorem Pkg.mail_regWrite (k : Pkg) (now : Nat) (v : Word) {i : Nat} (h : i < 8) :
    (k.regWrite now (0x1000 + 8 * i) v).mail i = v := by
  generalize hoff : 0x1000 + 8 * i = off
  have hi : (off - 0x1000) / 8 = i := by omega
  rw [Pkg.regWrite_mailbox k now v (by omega)]
  simp only [hi, Pkg.mail, Vector.get_eq_getElem, Vector.getElem_set_self]

theorem Pkg.boot_previous {k : Pkg} (hf : imageOk k.activeSlot = false) (hp : imageOk k.alternate = true) :
    k.boot = { k with booted := true, active := !k.active, revert := true } := by
  rw [Pkg.boot, if_neg (by simp [hf]), if_pos hp]

theorem execBoot_of_unbooted {s : State} {p : PkgNo} (hon : (s.pkg p).power = .on) (hb : (s.pkg p).booted = false) :
    execBoot p s = .next (s.modPkg p Pkg.boot) := by
  simp only [execBoot, hon, hb]
  rfl

theorem execTrialTimeout_of_expired {s : State} {p : PkgNo} (ht : (s.pkg p).trial = true)
    (h : (s.pkg p).trialAt + nsCycles 2000000000 ≤ s.now) :
    execTrialTimeout p s = .next ((s.endAll p .trial).modPkg p Pkg.revertTrial) :=
  if_pos (by simp only [ht, trialLimit, h, decide_true, Bool.and_self])

/-- Settles O57, clause by clause: an access or a register write is its arm's own update; for W2, R268's refusal (by
`Die.rsvRefuses_iff`) decides between the two registers that `Die.writeW2` can leave. -/
theorem hostPathResults : Obligations.HostPathResults := by
  unfold Obligations.HostPathResults
  intro s p off v die n tgt bs cnt a b
  refine ⟨rfl, rfl, ⟨_, rfl, rfl⟩, fun d => ?w2, ?commit, rfl, fun k i hi => k.mail_regWrite s.now v hi, rfl, rfl,
    execBoot_of_unbooted, fun k => Pkg.boot_previous, execTrialTimeout_of_expired⟩
  case w2 =>
    refine ⟨fun h => ?refused, fun h => ?taken, fun j hj => d.rsvAt_writeW2_ne v hj⟩
    case refused =>
      rw [Die.rsvAt_writeW2_refused ((d.rsvRefuses_iff n v).mpr h)]
      simp
    case taken =>
      rw [Die.rsvAt_writeW2_taken (mt (d.rsvRefuses_iff n v).mp h)]
      exact ⟨rfl, and_rsvFields_err v, rfl, rfl⟩
  case commit =>
    simp only [← Pkg.commitTrial_eq]
    rfl

end Sys2Proof.Machine
end

/-!
Instruction words: slices of concatenated fields, the fields of a packed word, one lemma for what each area of the opcode map
decodes, and the round trip from an instruction through its word.
-/

section
namespace Sys2Proof

/-! ### Slices of concatenated fields

The width of the whole is left out of the match (`no_index`), so that a width written as a numeral does not hide the
parts. -/

@[simp] theorem slice_append_low {v w s n : Nat} (a : BitVec v) (b : BitVec w) (h : s + n ≤ w) :
    (@HAppend.hAppend (BitVec v) (BitVec w) (no_index (BitVec (v + w))) _ a b).extractLsb' s n = b.extractLsb' s n :=
  BitVec.extractLsb'_append_eq_of_add_le h

@[simp] theorem slice_append_high {v w s n : Nat} (a : BitVec v) (b : BitVec w) (h : w ≤ s) :
    (@HAppend.hAppend (BitVec v) (BitVec w) (no_index (BitVec (v + w))) _ a b).extractLsb' s n =
      a.extractLsb' (s - w) n :=
  BitVec.extractLsb'_append_eq_of_le h

@[simp high] theorem bit_append_low {v w i : Nat} (a : BitVec v) (b : BitVec w) (h : i < w) :
    (@HAppend.hAppend (BitVec v) (BitVec w) (no_index (BitVec (v + w))) _ a b).getLsbD i = b.getLsbD i := by
  rw [BitVec.getLsbD_append, if_pos h]

@[simp high] theorem bit_append_high {v w i : Nat} (a : BitVec v) (b : BitVec w) (h : w ≤ i) :
    (@HAppend.hAppend (BitVec v) (BitVec w) (no_index (BitVec (v + w))) _ a b).getLsbD i = a.getLsbD (i - w) := by
  rw [BitVec.getLsbD_append, if_neg (Nat.not_lt.mpr h)]

@[simp] theorem slice_setWidth_low {v w s n : Nat} (a : BitVec v) (h : s + n ≤ w) :
    (a.setWidth w).extractLsb' s n = a.extractLsb' s n := BitVec.extractLsb'_setWidth_of_le h

@[simp] theorem slice_beyond {v s n : Nat} (a : BitVec v) (h : v ≤ s) : a.extractLsb' s n = 0#n := by
  ext i hi
  have hbit : a.getLsbD (s + i) = false := a.getLsbD_of_ge _ (by omega)
  simp [hbit]

theorem ofBool_bit {w : Nat} (a : BitVec w) (i : Nat) : BitVec.ofBool (a.getLsbD i) = a.extractLsb' i 1 := by
  ext j hj
  simp [Nat.lt_one_iff.mp hj]

/-- Slices that meet join. -/
theorem slice_join {w m n s r : Nat} (x : BitVec w) (h : r = s + n) :
    @HAppend.hAppend (BitVec m) (BitVec n) (no_index (BitVec (m + n))) _ (x.extractLsb' r m) (x.extractLsb' s n) =
      x.extractLsb' s (m + n) :=
  BitVec.extractLsb'_append_extractLsb'_eq_extractLsb' h

/-! ### The fields of a packed word (Tables 2.4 and 2.5) -/

@[simp] theorem wordS_packS (fmt : BitVec 2) (g : Guard) (x : SFields) : wordS (packS fmt g x) = x := by
  simp [wordS, packS]

@[simp] theorem wordT_packT (g : Guard) (x : TFields) : wordT (packT g x) = x := by
  simp [wordT, packT]

@[simp] theorem wordGuard_packS (fmt : BitVec 2) (g : Guard) (x : SFields) : wordGuard (packS fmt g x) = g := by
  simp [wordGuard, packS]

@[simp] theorem wordGuard_packT (g : Guard) (x : TFields) : wordGuard (packT g x) = g := by
  simp [wordGuard, packT]

theorem format_packS (fmt : BitVec 2) (g : Guard) (x : SFields) : (packS fmt g x).extractLsb' 62 2 = fmt := by
  simp [packS]

theorem format_packT (g : Guard) (x : TFields) : (packT g x).extractLsb' 62 2 = 2#2 := by
  simp [packT]

@[simp] theorem SFields.rest_slices (op : BitVec 10) (r : BitVec 48) :
    SFields.rest ⟨op, r.extractLsb' 43 5, r.extractLsb' 38 5, r.extractLsb' 32 6, r.extractLsb' 0 32⟩ = r := by
  simp [SFields.rest, slice_join]

@[simp] theorem TFields.rest_slices (op : BitVec 10) (r : BitVec 48) :
    TFields.rest ⟨op, r.extractLsb' 42 6, r.extractLsb' 36 6, r.extractLsb' 30 6, r.getLsbD 29, r.getLsbD 28,
      r.extractLsb' 23 5, r.extractLsb' 18 5, r.extractLsb' 16 2, r.extractLsb' 0 16⟩ = r := by
  simp only [TFields.rest, ofBool_bit, slice_join, Nat.reduceAdd, BitVec.extractLsb'_eq_self]

/-! ### The decoder, guard and format apart -/

/-- R41: a word with a guard other than g0 inverted decodes as its body. -/
theorem decodeWord_of_guard {w lit : Word} (h : ¬((wordGuard w).inv = true ∧ (wordGuard w).idx = 0)) :
    decodeWord w lit = (decodeBody w lit).map (⟨wordGuard w, ·⟩) := by
  refine if_neg (mt ?_ h)
  simp [wordGuard]

/-- The word of a long form decodes as the long form does. -/
theorem decodeWord_words {g : Guard} (hg : ¬(g.inv = true ∧ g.idx = 0)) (e : Enc) :
    decodeWord (e.words g).1 (e.words g).2 = (decodeEnc e).map (fun i => ⟨g, .long i⟩) := by
  cases e with
  | s y =>
    rw [decodeWord_of_guard (by simpa [Enc.words] using hg)]
    simp only [Enc.words, decodeBody, format_packS, wordS_packS, wordGuard_packS, decodeEnc]
    cases decodeS y <;> rfl
  | t y =>
    rw [decodeWord_of_guard (by simpa [Enc.words] using hg)]
    simp only [Enc.words, decodeBody, format_packT, wordT_packT, wordGuard_packT, decodeEnc]
    cases decodeT y <;> rfl
  | x y lit =>
    rw [decodeWord_of_guard (by simpa [Enc.words] using hg)]
    simp only [Enc.words, decodeBody, format_packS, wordS_packS, wordGuard_packS, decodeEnc]
    cases decodeX y lit <;> rfl

end Sys2Proof
end

/-!
The instruction set's round trip: what each area of the opcode map makes of the fields that the encoder writes (R39, Tables
2.8 to 2.10, R52, R54).
-/

section
namespace Sys2Proof

/-! ### From an area of the opcode map to the word -/

theorem misplaced_ok (op : BitVec 10) (i : Instr) : misplaced op (.ok i) = .ok i := rfl

theorem restricted_ok {i : Instr} (h : i.wellFormed = true) : restricted (.ok i) = .ok i := if_pos h

section
variable {op : BitVec 10} {sd sa : SReg} {f : BitVec 6} {imm : BitVec 32} {lit : Word} {i : Instr}
  (hw : i.wellFormed = true)
include hw

theorem decodeS_of_scalarSlot (ha : opHint op = false ∧ op.extractLsb' 7 3 = 0)
    (h : decScalarSlot ⟨op, sd, sa, f, imm⟩ = .ok i) : decodeS ⟨op, sd, sa, f, imm⟩ = .ok i := by
  simp [decodeS, ha, h, misplaced_ok, restricted_ok hw]

theorem decodeS_of_scalarLong (ha : opHint op = false ∧ op.extractLsb' 7 3 = 1)
    (h : decScalarLong ⟨op, sd, sa, f, imm⟩ = .ok i) : decodeS ⟨op, sd, sa, f, imm⟩ = .ok i := by
  simp [decodeS, ha, h, misplaced_ok, restricted_ok hw]

theorem decodeS_of_areaS (ha : opHint op = false ∧ op.extractLsb' 7 3 = 5)
    (h : decAreaS ⟨op, sd, sa, f, imm⟩ = .ok i) : decodeS ⟨op, sd, sa, f, imm⟩ = .ok i := by
  simp [decodeS, ha, h, misplaced_ok, restricted_ok hw]

theorem decodeS_of_system (ha : opHint op = false ∧ op.extractLsb' 7 3 = 6)
    (h : decSystem ⟨op, sd, sa, f, imm⟩ = .ok i) : decodeS ⟨op, sd, sa, f, imm⟩ = .ok i := by
  simp [decodeS, ha, h, misplaced_ok, restricted_ok hw]

end

section
variable {op : BitVec 10} {td ta tb : BitVec 6} {ca cb : Bool} {s1 s2 : SReg} {mode : BitVec 2} {imm : BitVec 16}
  {i : Instr} (hw : i.wellFormed = true)
include hw

theorem decodeT_of_tileSlot (ha : opHint op = false ∧ op.extractLsb' 7 3 = 2)
    (h : decTileSlot ⟨op, td, ta, tb, ca, cb, s1, s2, mode, imm⟩ = .ok i) :
    decodeT ⟨op, td, ta, tb, ca, cb, s1, s2, mode, imm⟩ = .ok i := by
  simp [decodeT, ha, h, misplaced_ok, restricted_ok hw]

theorem decodeT_of_tileLong (ha : opHint op = false ∧ op.extractLsb' 7 3 = 3)
    (h : decTileLong ⟨op, td, ta, tb, ca, cb, s1, s2, mode, imm⟩ = .ok i) :
    decodeT ⟨op, td, ta, tb, ca, cb, s1, s2, mode, imm⟩ = .ok i := by
  simp [decodeT, ha, h, misplaced_ok, restricted_ok hw]

theorem decodeT_of_matrix (ha : opHint op = false ∧ op.extractLsb' 7 3 = 4)
    (h : decMatrix ⟨op, td, ta, tb, ca, cb, s1, s2, mode, imm⟩ = .ok i) :
    decodeT ⟨op, td, ta, tb, ca, cb, s1, s2, mode, imm⟩ = .ok i := by
  simp [decodeT, ha, h, misplaced_ok, restricted_ok hw]

theorem decodeT_of_areaT (ha : opHint op = false ∧ op.extractLsb' 7 3 = 5)
    (h : decAreaT ⟨op, td, ta, tb, ca, cb, s1, s2, mode, imm⟩ = .ok i) :
    decodeT ⟨op, td, ta, tb, ca, cb, s1, s2, mode, imm⟩ = .ok i := by
  simp [decodeT, ha, h, misplaced_ok, restricted_ok hw]

end

/-- R55: a hint keeps its op's low bits and the 48 bits below. -/
theorem opHint_append (op : BitVec 4) : opHint (0x3F#6 ++ op) = true := by
  simp [opHint]

theorem decodeEnc_hint (fmt : HintFmt) (op : BitVec 4) (rest : BitVec 48) (e : Enc)
    (he : encode (.hint fmt op rest) = some e) : decodeEnc e = .ok (.hint fmt op rest) := by
  cases fmt <;> cases he <;> simp [decodeEnc, decodeS, decodeT, decodeX, opHint_append, -BitVec.getLsbD_eq_getElem]

/-! ### Shared parts of S words -/

@[simp] theorem keep_true (i : Instr) : keep true i = .ok i := rfl

section
variable (op : BitVec 10) (sd sa : SReg) (i : BitVec 1) (c : BitVec 2) (k : BitVec 3) (imm : BitVec 32)

/-- FUNCT as the I bit over the five bits that Table 2.4 leaves to the op. -/
theorem functOf_eq : functOf i c k = i ++ (c ++ k : BitVec 5) := by
  revert i c k
  decide

@[simp] theorem functOf_slice_low {s n : Nat} (h : s + n ≤ 3) : (functOf i c k).extractLsb' s n = k.extractLsb' s n :=
  slice_append_low (i ++ c) k h

@[simp high] theorem functOf_bit_low {n : Nat} (h : n < 3) : (functOf i c k).getLsbD n = k.getLsbD n :=
  bit_append_low (i ++ c) k h

@[simp] theorem functOf_slice_five : (functOf i c k).extractLsb' 0 5 = c ++ k := by
  simp [functOf_eq]

@[simp] theorem functOf_slice_high : (functOf i c k).extractLsb' 3 3 = i ++ c := by
  simp [functOf]

@[simp] theorem SFields.i_functOf : (⟨op, sd, sa, functOf i c k, imm⟩ : SFields).i = i.getLsbD 0 := by
  simp [SFields.i, functOf_eq]

@[simp] theorem SFields.comb_functOf : (⟨op, sd, sa, functOf i c k, imm⟩ : SFields).comb = c := by
  simp [SFields.comb, functOf_eq]

@[simp] theorem SFields.sub_functOf : (⟨op, sd, sa, functOf i c k, imm⟩ : SFields).sub = k := by
  simp [SFields.sub, functOf_eq]

@[simp] theorem SFields.alu_functOf (m : AluMode) : (⟨op, sd, sa, functOf i c m.bits, imm⟩ : SFields).alu = m := by
  simp [SFields.alu, functOf_eq, AluMode.bits]

/-- The I bit and IMM32 of operand b give operand b back (R120). -/
@[simp] theorem withOpd_opd (r : BitVec 5) (b : Opd) (z : Bool) (kont : Opd → Instr) :
    withOpd ⟨op, sd, sa, b.iBit ++ r, b.immBits⟩ z kont = keep z (kont b) := by
  cases b <;> simp [withOpd, SFields.i, SFields.sb, Opd.iBit, Opd.immBits]

@[simp] theorem withOpd_functOf (b : Opd) (z : Bool) (kont : Opd → Instr) :
    withOpd ⟨op, sd, sa, functOf b.iBit c k, b.immBits⟩ z kont = keep z (kont b) := by
  rw [functOf_eq, withOpd_opd]

end

/-- SVC of a number that no service has (R138). -/
theorem decSvc_unassigned (sd : SReg) {n : BitVec 16} (h : svcAssigned n = false) :
    decSvc ⟨0x089, sd, 0, 0x20, n.zeroExtend 32⟩ = .ok (.svcUnassigned sd n) := by
  have hn : (n.zeroExtend 32).extractLsb' 0 16 = n := by simp
  simp only [decSvc, hn]
  split
  case h_11 => simp
  all_goals exact absurd h (by decide)

/-- EVICT's kinds (Table 11.7). -/
theorem evictKind_le {kind : BitVec 2} (h : kind ≠ 3) : (0#3 ++ kind).ule 2#5 = true := by
  revert kind
  decide

/-! ### Shared parts of T words -/

section
variable (hi : BitVec 2) (s : Bool) (rm : Rm)

@[simp] theorem ttImm_rm : (ttImm hi rm).extractLsb' 0 3 = rm := by simp [ttImm]
@[simp high] theorem ttImm_low : (ttImm hi rm).getLsbD 3 = hi.getLsbD 0 := by simp [ttImm]
@[simp high] theorem ttImm_high : (ttImm hi rm).getLsbD 4 = hi.getLsbD 1 := by simp [ttImm]
@[simp] theorem ttImm_above : (ttImm hi rm).extractLsb' 5 11 = 0 := by simp [ttImm]

/-- One suffix bit leaves bit 4 clear, too. -/
@[simp] theorem ttImm_above_one : (ttImm (0#1 ++ BitVec.ofBool s) rm).extractLsb' 4 12 = 0 := by
  revert s rm
  decide

end

/-! ### Round trip -/

/-- The S word of a well-formed instruction decodes to it. -/
theorem decodeS_encode {i : Instr} {x : SFields} (hw : i.wellFormed = true) (he : encode i = some (.s x)) :
    decodeS x = .ok i := by
  cases i with
  | hint fmt op rest => exact decodeEnc_hint fmt op rest _ he
  -- Table 2.8: ops that a slot can name
  | nop | bqpop sd | mfs sd n | mts n sa | sel k sd sa b | cmp cc cb gk sa b | gop op gd ga gb
  | clz w sd sa | ctz w sd sa | popc w sd sa
  | add m sd sa b | sub m sd sa b | mul m sd sa b | mulh m sd sa b | div m sd sa b | rem m sd sa b | and m sd sa b
  | or m sd sa b | xor m sd sa b | shl m sd sa b | shr m sd sa b | sra m sd sa b | min m sd sa b | max m sd sa b
  | ld z u sd sa b | st z sd sa b | ldff z u sd sa b =>
    cases he
    exact decodeS_of_scalarSlot hw (by decide) (by simp [decScalarSlot, decAlu, decCount, decLoad, SFields.sb])
  | lea sd form =>
    cases form <;> cases he <;> exact decodeS_of_scalarSlot hw (by decide) (by simp [decScalarSlot, decLea, SFields.sb])
  -- Table 2.8: ops of long words alone
  | li sd imm | lih sd imm | br off | jmp sa imm | ret sa | loop sd off | drain u c t | yield sd off
  | exit sd | shapeSet sd | shapeInv sd | yieldDone sd | regionSet sd | regionRel sd | regionStat sd
  | vntSet sd | vntRel sd | vntInv sd | trap code | brk code =>
    cases he
    exact decodeS_of_scalarLong hw (by decide) (by simp [decScalarLong, decSvc])
  | call sd tgt =>
    cases tgt <;> cases he <;> exact decodeS_of_scalarLong hw (by decide) (by simp [decScalarLong, decCall])
  | svcUnassigned sd n =>
    cases he
    exact decodeS_of_scalarLong hw (by decide) (decSvc_unassigned sd ((Bool.not_eq_true' _).mp hw))
  -- Table 2.10: S words
  | send k sr sp team tag | recv w sd sm tag | probe tile w k sm tag | bar n | claim sc sd sa sb | fork k sd off | join sp
  | spawn k sa off | take k sd | launch sd sa sb | syncTas sc sd sa sb | syncFadd sc sd sa sb | syncWait cc sc sd sa sb
  | syncLd sc sd sa | syncSt sc sa sb | winq sd sa b | upds strict sv si rh | rack rh sa sb | rackr sd sa rh | vntc c clr sd
  | frecv w sd sm tag | fbar n =>
    cases he
    exact decodeS_of_areaS hw (by decide) (by simp [decAreaS, decSync, guardImm, atomicZeroes, atomicImm, recvImm,
      SFields.sb, SFields.scope, SFields.wild, SFields.sub5])
  | pref l1 sa len =>
    cases he
    exact decodeS_of_areaS hw (by decide) (by cases l1 <;> simp [decAreaS, decPref, decLines, SFields.sub5])
  | evict kind sa len =>
    cases he
    have hk : kind ≠ 3 := bne_iff_ne.mp hw
    exact decodeS_of_areaS hw (by decide) (by simp [decAreaS, decEvict, decLines, SFields.sub5, evictKind_le hk])
  -- R54
  | phase sc | cfence f t | amo op d sc sd sa sb | cas d sc sd sa sb | eret sd sa | ctxs sd sa sb | ctxl sd sa sb =>
    cases he
    exact decodeS_of_system hw (by decide) (by simp [decSystem, atomicZeroes, atomicImm, SFields.i, SFields.sub,
      SFields.sub5, SFields.sb, SFields.scope])
  -- T words, X words and steps that no word names
  | tslide dir fill td ta n => cases fill <;> cases he
  | tdqt rm scale td ta => cases scale <;> cases he
  | _ => cases he

/-- The T word of a well-formed instruction decodes to it. -/
theorem decodeT_encode {i : Instr} {x : TFields} (hw : i.wellFormed = true) (he : encode i = some (.t x)) :
    decodeT x = .ok i := by
  cases i with
  | hint fmt op rest => exact decodeEnc_hint fmt op rest _ he
  -- Table 2.9: ops that a slot can name
  | tadd s rm td ta tb | tsub s rm td ta tb | tmul s rm td ta tb | tfma s rm td ta tb | tmax td ta tb | tmin td ta tb
  | tcmp cc td ta tb | tsel td ta tb | tmov td ta | tcvt rm nsat s td ta | tld td h sx | tst ta h sx | tldff td h sx
  | ttrn td ta =>
    cases he
    exact decodeT_of_tileSlot hw (by decide) (by simp [decTileSlot, decTArith, decHandle, TFields.srcA, TFields.srcB,
      TFields.noA, TFields.noB, TFields.noS, TFields.rm, TFields.ttOk, TFields.noRm, Src.none])
  -- Table 2.9: ops of T words alone
  | tdecl td h | trel td | text ta | tgth u kind td ti h sx | tsct kind ta ti h sx | tcopy tag h sd ss | tcopyStr q h ss
  | twait all tag | qbind q t | qrel q | tfill td sa | tiota td sa sb | tpack td ta | tunpk td ta | tqnt rm nsat td ta
  | map cv cnt td ta tb sa sb fn =>
    cases he
    exact decodeT_of_tileLong hw (by decide) (by simp [decTileLong, decTcopy, TFields.srcA, TFields.srcB, TFields.noA,
      TFields.noB, TFields.noS, TFields.noChain, TFields.rm, TFields.td4, TFields.td4Ok, TFields.conv, Src.none, mode1,
      convImm])
  | tslide dir fill td ta n =>
    cases fill <;> cases he <;> exact decodeT_of_tileLong hw (by decide)
      (by simp [decTileLong, TFields.srcA, TFields.srcB, TFields.noB, TFields.noS])
  | tdqt rm scale td ta =>
    cases scale <;> cases he <;> exact decodeT_of_tileLong hw (by decide)
      (by simp [decTileLong, decTdqt, TFields.srcA, TFields.noS, TFields.rm])
  | reduce col two cv td ta tb sa sb fn | scan col two cv td ta tb sa sb fn | trds two rm ta tb sa sb fn =>
    cases he
    exact decodeT_of_tileLong hw (by decide) (by cases fn <;> simp [decTileLong, decReduce, TFields.srcA, TFields.srcB,
      TFields.conv, TFields.step, lineMode, convImm, StepFn.isBuiltin, StepFn.code])
  -- R52, Table 6.4
  | mmat ad ta ss sp | aclr int ad | awr a ad ta sw | amaxa a td as sw | tscl tgt gc en ta | route td tc ti se
  | ablk fp8 causal td ta ss sp k | iwalk td tc tm ss sx =>
    cases he
    exact decodeT_of_matrix hw (by decide) (by simp [decMatrix, TFields.srcA, TFields.noA, TFields.noB, TFields.noS,
      TFields.noChain, TFields.td4, TFields.td4Ok, mode1])
  | ldb d ta so | ldbm d h sx so =>
    cases he
    exact decodeT_of_matrix hw (by decide) (by cases d <;> simp [decMatrix, decInit, TFields.srcA, TFields.noB, mode1,
      dimsBits])
  | mma f ad ta ss sp en | mmam f ad h ss sx sp en | ard clr cv td as sw sx en =>
    cases he
    exact decodeT_of_matrix hw (by decide) (by cases en <;> simp [decMatrix, decScale, TFields.srcA, TFields.noChain,
      TFields.td4, TFields.td4Ok, TFields.rm, mode1, scaleBits])
  -- Table 2.10: T words
  | sendt k ta sr team tag | recvt w td sm tag | upd strict ti tv rh | vntq k h sb st | vntw h sb st
  | allx n td ta sr sc | fgth kind td ti h sx =>
    cases he
    exact decodeT_of_areaT hw (by decide) (by simp [decAreaT, TFields.srcA, TFields.srcB, TFields.noA, TFields.noB,
      TFields.noS, TFields.noChain, mode1])
  -- S words, X words and steps that no word names
  | lea sd form => cases form <;> cases he
  | call sd tgt => cases tgt <;> cases he
  | _ => cases he

/-- R46: the X word of a well-formed instruction decodes, with its literal, to it. -/
theorem decodeX_encode {i : Instr} {x : SFields} {lit : Word} (hw : i.wellFormed = true)
    (he : encode i = some (.x x lit)) : decodeX x lit = .ok i := by
  cases i with
  | hint fmt op rest => exact decodeEnc_hint fmt op rest _ he
  | liX sd lit | fsend k sa sl tgt tag route =>
    cases he
    simp [decodeX, opHint, guardImm, misplaced_ok, restricted_ok hw]
  -- S words, T words and steps that no word names
  | lea sd form => cases form <;> cases he
  | call sd tgt => cases tgt <;> cases he
  | tslide dir fill td ta n => cases fill <;> cases he
  | tdqt rm scale td ta => cases scale <;> cases he
  | _ => cases he

/-- Decoding the long form of a well-formed instruction gives it back. -/
theorem decodeEnc_encode {i : Instr} {e : Enc} (hw : i.wellFormed = true) (he : encode i = some e) :
    decodeEnc e = .ok i := by
  cases e with
  | s x => exact decodeS_encode hw he
  | t x => exact decodeT_encode hw he
  | x x lit => exact decodeX_encode hw he

/-- Settles O1: the word decodes as the long form does (`decodeWord_words`), and the long form decodes to its instruction
(`decodeEnc_encode`). -/
theorem decodeAfterEncode : Obligations.DecodeAfterEncode := by
  unfold Obligations.DecodeAfterEncode
  intro i e g hw he hg
  rw [decodeWord_words hg e, decodeEnc_encode hw he]
  rfl

end Sys2Proof
end

/-!
A turn of the front that fetches a word: what the step does once the word is decoded, or is no instruction.
-/

section
namespace Sys2Proof.Machine

/-! ### The fetched word -/

theorem and_not_of_imp {a b : Bool} (h : a = true → b = true) : (a && !b) = false := by
  cases a <;> simp_all

section
variable {s s' : State} {t : Team} {w l : Word} (hf : s.Fetches w l s' t)
include hf

theorem State.Fetches.team : s'.team? t.uid = some t := by
  obtain ⟨_, _, _, _, _, _, _, _, _, _, _, _, _, h⟩ := hf
  exact h

/-- The turn reaches the front, which has fetched the word and kept it. -/
theorem State.Fetches.step_eq_runWord : ∃ (z : State) (t1 : Team) (s1 : State),
    step s = z.runWord t1 ∧ t1.uid = t.uid ∧ t1.heldFault = none ∧ z.fetchWord t1 = .ok (w, l, s1) ∧
    s' = s1.modTeam t.uid (fun u => { u with word := w }) := by
  obtain ⟨ahead, s0, s1, t0, t1, hturn, ht0, hrun, hfront, ht1, hheld, hfetch, hs', -⟩ := hf
  refine ⟨_, t1, s1, ?_, State.team?_uid ht1, hheld, hfetch, hs'⟩
  have hside : (!ahead && !t0.tiq.isEmpty) = false := by
    rcases hfront with rfl | htiq
    · rfl
    · simp [htiq]
  have hteam : s0.runTeam t.uid ahead = (({ s0 with cur := t.uid, ahead } : State).settle t.uid).runWord t1 := by
    simp [State.runTeam, ht0, hrun, hside, ht1]
  cases ahead <;> simpa [step, hturn] using hteam

/-- A word that decodes runs, guard and all, in the state that the fetch leaves. -/
theorem State.Fetches.step_ok {b : Bundle} (hd : decodeWord w l = .ok b) : step s = s'.runBundle t.uid b := by
  obtain ⟨z, t1, s1, hstep, huid, hheld, hfetch, rfl⟩ := hf.step_eq_runWord
  simp [hstep, State.runWord, hheld, hfetch, hd, huid]

/-- A word that does not decode faults at its own place (R58). -/
theorem State.Fetches.step_error {e : DecodeError} (hd : decodeWord w l = .error e) :
    step s = .next (s'.slotFault t.uid (FaultInfo.plain kIllInstr .team) none (badTileSlot w)) := by
  obtain ⟨z, t1, s1, hstep, huid, hheld, hfetch, rfl⟩ := hf.step_eq_runWord
  simp [hstep, State.runWord, hheld, hfetch, hd, huid]

/-- R41, R112: a word with a true guard that is not pending runs its long instruction. -/
theorem State.Fetches.step_long {g : Guard} {i : Instr} (hd : decodeWord w l = .ok ⟨g, .long i⟩)
    (hsys : isSystem (.long i) = true → t.sys = true) (hp : t.pending g.idx = false) (hg : t.rg g.idx = !g.inv) :
    step s = exec i s' := by
  simp [hf.step_ok hd, State.runBundle, hf.team, and_not_of_imp hsys, hp, hg]

/-- R41, R112: a word with a true guard that is not pending runs its pair. -/
theorem State.Fetches.step_pair {g : Guard} {a i : Instr} (hd : decodeWord w l = .ok ⟨g, .pair a i⟩)
    (hp : t.pending g.idx = false) (hg : t.rg g.idx = !g.inv) : step s = s'.runPair t.uid a i := by
  simp [hf.step_ok hd, State.runBundle, hf.team, isSystem, hp, hg]

end

/-- Settles O3. -/
theorem stepRunsDecoded : Obligations.StepRunsDecoded := by
  unfold Obligations.StepRunsDecoded
  intro s s' t w l g i hf hd hsys hp hg
  exact hf.step_long hd hsys hp hg

/-- Settles O4: the two branches of `State.runBundle` that stop before the body. -/
theorem falseGuardNoEffect : Obligations.FalseGuardNoEffect := by
  unfold Obligations.FalseGuardNoEffect
  intro s s' t w l b hf hd
  rw [hf.step_ok hd]
  simp only [State.runBundle, hf.team]
  refine ⟨fun hsys hp hg => ?falseGuard, fun hsys ht => ?notSystem⟩
  case falseGuard =>
    simp only [and_not_of_imp hsys, hp, hg, beq_self_eq_true, if_true, Bool.false_eq_true, if_false]
    rfl
  case notSystem =>
    simp only [hsys, ht]
    rfl

/-- R43: a word that does not decode is at fault in its tile slot alone exactly when it is a pair with a good guard and a good
scalar slot. -/
theorem badTileSlot_iff {w l : Word} {e : DecodeError} (hd : decodeWord w l = .error e) :
    badTileSlot w = true ↔ w.extractLsb' 62 2 = 0 ∧ ¬(w.getLsbD 61 = true ∧ w.extractLsb' 58 3 = 0) ∧
      ∃ a, scalarSlot (w.extractLsb' 32 26) = .ok a := by
  constructor
  · intro h
    simp only [badTileSlot, Bool.and_eq_true, Bool.not_eq_true', beq_iff_eq] at h
    obtain ⟨⟨⟨hfmt, hg⟩, hscalar⟩, -⟩ := h
    refine ⟨hfmt, by simpa using hg, ?_⟩
    cases hs : scalarSlot (w.extractLsb' 32 26) with
    | ok a => exact ⟨a, rfl⟩
    | error _ => simp [hs, Except.isOk, Except.toBool] at hscalar
  · rintro ⟨hfmt, hg, a, hs⟩
    rw [decodeWord_of_guard (by simpa [wordGuard] using hg)] at hd
    cases ht : tileSlot (w.extractLsb' 0 32) with
    | ok b => simp [decodeBody, hfmt, hs, ht, Except.map] at hd
    | error _ =>
      have hg' : (w.getLsbD 61 && w.extractLsb' 58 3 == 0) = false := by simpa using hg
      simp only [badTileSlot, hfmt, hs, ht, hg']
      rfl

/-- Settles O5: the guard is looked at first, and `badTileSlot_iff` says which slot the record names. -/
theorem illegalWordFaults : Obligations.IllegalWordFaults := by
  unfold Obligations.IllegalWordFaults
  refine ⟨fun w lit hinv hidx => ?guard, fun s s' t w l e hf hd => ⟨fun hslot => ?tileSlot, fun hslot => ?word⟩⟩
  case guard => exact if_pos (by simp [hinv, hidx])
  case tileSlot =>
    rw [hf.step_error hd, (badTileSlot_iff hd).mpr hslot]
    rfl
  case word =>
    rw [hf.step_error hd, Bool.eq_false_iff.mpr (mt (badTileSlot_iff hd).mp hslot)]
    rfl

end Sys2Proof.Machine
end

/-!
A pair word (R43): the scalar slot's write, then the tile slot's entry, with what settling leaves of both.
-/

section
namespace Sys2Proof.Machine

/-! ### Reading a register after a write -/

theorem Team.wrS_s (t : Team) {r : SReg} (h : r ≠ 0) (v : Word) : (t.wrS r v).s = t.s.set r.toFin v := by
  simp only [Team.wrS, if_neg h, Team.log_s]

theorem Team.rs_wrS_self (t : Team) {r : SReg} (h : r ≠ 0) (v : Word) : (t.wrS r v).rs r = v := by
  rw [Team.rs, if_neg h, Team.wrS_s t h]
  exact Vector.getElem_set_self _

theorem Team.rs_wrS_of_ne (t : Team) {r r' : SReg} (h : r' ≠ r) (v : Word) : (t.wrS r v).rs r' = t.rs r' := by
  by_cases hr : r = 0
  · rw [Team.wrS, if_pos hr]
  · simp only [Team.rs, Team.wrS_s t hr]
    refine ite_congr rfl (fun _ => rfl) (fun _ => Vector.getElem_set_ne _ _ (fun e => ?_))
    exact h (BitVec.eq_of_toNat_eq e.symm)

theorem Team.rs_congr {t u : Team} (h : u.s = t.s) (r : SReg) : u.rs r = t.rs r := by
  simp only [Team.rs, h]

/-! ### What settling leaves of the front -/

/-- Two stages of a team whose front stands at the same place with the same registers and the same TIQ. -/
structure Team.SameFront (t u : Team) : Prop where
  uid : u.uid = t.uid
  pc : u.pc = t.pc
  s : u.s = t.s
  tiq : u.tiq = t.tiq

theorem Team.SameFront.refl (t : Team) : t.SameFront t := ⟨rfl, rfl, rfl, rfl⟩

theorem Team.SameFront.trans {t u v : Team} (h : t.SameFront u) (k : u.SameFront v) : t.SameFront v :=
  ⟨k.uid.trans h.uid, k.pc.trans h.pc, k.s.trans h.s, k.tiq.trans h.tiq⟩

theorem Team.sameFront_free1 (t : Team) (u : Undo) : t.SameFront (t.free1 u) := by
  unfold Team.free1
  split <;> exact ⟨rfl, rfl, rfl, rfl⟩

theorem Team.sameFront_commit (t : Team) : t.SameFront t.commit := by
  have hfold : ∀ us : List Undo, t.SameFront (us.foldr (fun u t => t.free1 u) t) := by
    intro us
    induction us with
    | nil => exact .refl t
    | cons u us ih => exact ih.trans (Team.sameFront_free1 _ u)
  obtain ⟨huid, hpc, hs, htiq⟩ := hfold (t.hist.filter _)
  exact ⟨huid, hpc, hs, htiq⟩

/-- A change that keeps names finds the team changed. -/
theorem State.team?_modTeam {s : State} {uid : Nat} {t : Team} (f : Team → Team) (hf : ∀ v, (f v).uid = v.uid)
    (h : s.team? uid = some t) : (s.modTeam uid f).team? uid = some (f t) := by
  have hu := State.team?_uid h
  rw [State.team?] at h ⊢
  have same : ((fun v : Team => v.uid == uid) ∘ fun v => if v.uid == uid then f v else v) = fun v => v.uid == uid := by
    funext v
    by_cases hv : v.uid = uid <;> simp [hv, hf]
  rw [State.modTeam, List.find?_map, same, h, Option.map_some, if_pos (by simp [hu])]

theorem State.sameFront_modTeam {s : State} {uid : Nat} {t : Team} (f : Team → Team) (hf : ∀ v : Team, v.SameFront (f v))
    (h : s.team? uid = some t) : ∃ u, (s.modTeam uid f).team? uid = some u ∧ t.SameFront u :=
  ⟨f t, State.team?_modTeam f (fun v => (hf v).uid) h, hf t⟩

theorem State.sameFront_storeAt {s : State} {uid : Nat} {t : Team} (n : Nat) (cells : List Host.Cell)
    (h : s.team? uid = some t) : ∃ u, (s.storeAt uid n cells).team? uid = some u ∧ t.SameFront u := by
  have hstore : ∃ u, (s.store uid .team cells).team? uid = some u ∧ t.SameFront u := by
    simp only [State.store, h]
    exact State.sameFront_modTeam _ (fun v => ⟨v.setView_uid _ _, v.setView_pc _ _, v.setView_s _ _, v.setView_tiq _ _⟩) h
  obtain ⟨u, hu, htu⟩ := hstore
  obtain ⟨v, hv, huv⟩ := State.sameFront_modTeam (fun t => t.keepLate n (.write s.nextId))
    (fun v => ⟨v.keepLate_uid _ _, v.keepLate_pc _ _, v.keepLate_s _ _, v.keepLate_tiq _ _⟩) hu
  exact ⟨v, hv, htu.trans huv⟩

theorem sameFront_performHeld {uid : Nat} (hs : List HeldStore) : ∀ {s : State} {t : Team}, s.team? uid = some t →
    ∃ u, (performHeld uid hs s).team? uid = some u ∧ t.SameFront u := by
  induction hs with
  | nil => exact fun h => ⟨_, h, .refl _⟩
  | cons x xs ih =>
    intro s t h
    obtain ⟨u, hu, htu⟩ := State.sameFront_storeAt x.seq x.cells h
    obtain ⟨v, hv, huv⟩ := ih hu
    exact ⟨v, hv, htu.trans huv⟩

/-- R115, R118: what settling performs and frees leaves PC, the scalar registers and the TIQ. -/
theorem State.sameFront_settle {s : State} {uid : Nat} {t : Team} (h : s.team? uid = some t) :
    ∃ u, (s.settle uid).team? uid = some u ∧ t.SameFront u := by
  obtain rfl := State.team?_uid h
  obtain ⟨u, hu, htu⟩ := sameFront_performHeld (t.sbuf.filter (fun x => decide (x.seq < t.safeSeq)))
    (State.team?_putTeam { t with sbuf := t.sbuf.filter (fun x => decide (t.safeSeq ≤ x.seq)) } h)
  obtain ⟨v, hv, huv⟩ := State.sameFront_modTeam (fun t => t.commit) Team.sameFront_commit hu
  refine ⟨v, ?_, Team.SameFront.trans ⟨htu.uid, htu.pc, htu.s, htu.tiq⟩ huv⟩
  simp only [State.settle, h, State.performStores]
  exact hv

/-! ### The scalar slot -/

theorem exec_aluInstr (op : AluOp) (m : AluMode) (sd sa : SReg) (b : Opd) (s : State) :
    exec (aluInstr op m sd sa b) s = s.frontTeam (aluInstr op m sd sa b) (fun t => t.aluWrite op m sd sa b) := by
  cases op <;> rfl

theorem longBytes_aluInstr (op : AluOp) (m : AluMode) (sd sa : SReg) (b : Opd) :
    (aluInstr op m sd sa b).longBytes = 8 := by
  cases op <;> rfl

/-- R115: an ALU operation waits for nothing but room in the history buffer, and for a held fault to be taken. -/
theorem Team.mustWait_aluInstr {t : Team} (hheld : t.heldFault = none) (hroom : t.histEntries < 64) (op : AluOp) (m : AluMode)
    (sd sa : SReg) (b : Opd) : t.mustWait (aluInstr op m sd sa b) = false := by
  have hfull : decide (64 ≤ t.histEntries) = false := decide_eq_false (Nat.not_le.mpr hroom)
  cases op <;> simp [Team.mustWait, aluInstr, hheld, hfull, Instr.isOutward, guardOperands]

section
variable (t : Team) (op : AluOp) (m : AluMode) (sd sa : SReg) (b : Opd)

/-- A saturating operation sets SATF apart from its result. -/
theorem Team.aluWrite_cases (P : Team → Prop) (hres : P (t.wrS sd (alu op m (t.rs sa) (t.opd b)).1))
    (hsat : P (t.wrS sd (alu op m (t.rs sa) (t.opd b)).1).setSat) : P (t.aluWrite op m sd sa b) := by
  simp only [Team.aluWrite]
  split
  · exact hsat
  · exact hres

theorem Team.aluWrite_s : (t.aluWrite op m sd sa b).s = (t.wrS sd (alu op m (t.rs sa) (t.opd b)).1).s :=
  t.aluWrite_cases op m sd sa b (fun u => u.s = _) rfl (by simp)

/-- What placing a tile-side instruction looks at stays, as do the team's name and its place. -/
theorem Team.aluWrite_keeps : (t.aluWrite op m sd sa b).uid = t.uid ∧ (t.aluWrite op m sd sa b).status = t.status ∧
    (t.aluWrite op m sd sa b).pc = t.pc ∧ (t.aluWrite op m sd sa b).pairing = t.pairing ∧
    (t.aluWrite op m sd sa b).heldFault = t.heldFault ∧ (t.aluWrite op m sd sa b).tiq = t.tiq ∧
    (t.aluWrite op m sd sa b).slip = t.slip :=
  t.aluWrite_cases op m sd sa b (fun u => u.uid = t.uid ∧ u.status = t.status ∧ u.pc = t.pc ∧ u.pairing = t.pairing ∧
    u.heldFault = t.heldFault ∧ u.tiq = t.tiq ∧ u.slip = t.slip) (by simp) (by simp)

end

/-! ### The tile slot -/

theorem exec_tileSide {i : Instr} (h : i.isTileSide = true) (s : State) : exec i s = s.tileExec i := by
  cases i <;> cases h <;> rfl

theorem longBytes_tileSide {i : Instr} (h : i.isTileSide = true) : i.longBytes = 8 := by
  cases i <;> cases h <;> rfl

/-- R110: in a turn of the front alone, what needs no credit is placed and nothing more. -/
theorem State.tileExec_ahead {s : State} {t : Team} {i : Instr} (hi : s.issuing? = some t) (ha : s.ahead = true)
    (hw : t.placeWaits = false) (hp : i.pushes = false) : s.tileExec i = .next (s.putTeam (t.place i)) := by
  simp [State.tileExec, hi, ha, hw, hp]

theorem Team.placeWaits_congr {t u : Team} (hheld : u.heldFault = t.heldFault) (htiq : u.tiq = t.tiq)
    (hslip : u.slip = t.slip) : u.placeWaits = t.placeWaits := by
  simp only [Team.placeWaits, Team.extPending, hheld, htiq, hslip]

theorem State.team?_putTeam_of {s : State} {uid : Nat} {u w : Team} (h : s.team? uid = some u) (hw : w.uid = uid) :
    (s.putTeam w).team? uid = some w := by
  subst hw
  exact State.team?_putTeam w h

theorem State.issuing?_putTeam {s : State} {u w : Team} (h : s.team? s.cur = some u) (hw : w.uid = s.cur)
    (hr : w.status = .running) : (s.putTeam w).issuing? = some w := by
  simp [State.issuing?, State.curTeam?, State.team?_putTeam_of h hw, hr]

/-! ### The pair -/

/-- The team while a pair word of it runs: both slots read what stands now. -/
def Team.inPair (t : Team) : Team := { t with pairing := some (t.wordSeq, t.capture) }

/-- The end of a pair leaves the front where the slots have put it. -/
theorem State.sameFront_endPair {s : State} {uid : Nat} {t : Team} (h : s.team? uid = some t) :
    ∃ u, (s.endPair uid).team? uid = some u ∧ t.SameFront u := by
  obtain ⟨v, hv, htv⟩ := State.sameFront_modTeam (fun t : Team => { t with pairing := none })
    (fun _ => ⟨rfl, rfl, rfl, rfl⟩) h
  obtain ⟨u, hu, hvu⟩ := State.sameFront_settle hv
  exact ⟨u, hu, htv.trans hvu⟩

/-- R43: once the scalar slot has completed, leaving the team `v`, the tile slot is placed at the word's own PC. -/
theorem State.runPair_places {s s1 : State} {t v : Team} {a i : Instr} (ht : s.team? t.uid = some t)
    (hroom : t.placeWaits = false) (htile : i.isTileSide = true) (hpush : i.pushes = false)
    (ha : exec a (s.putTeam t.inPair) = .next s1) (h1 : s1.team? t.uid = some v) (hcur : s1.cur = t.uid)
    (hahead : s1.ahead = true) (hrun : v.status = .running) (hpc : v.pc ≠ t.pc) (hheld : v.heldFault = t.heldFault)
    (htiq : v.tiq = t.tiq) (hslip : v.slip = t.slip) :
    ∃ s2 u, s.runPair t.uid a i = .next s2 ∧ s2.team? t.uid = some u ∧
      (({ v with pc := t.pc } : Team).place i).SameFront u := by
  have hvuid : v.uid = t.uid := State.team?_uid h1
  have hgo : pairStops t.pc v = false := by
    have hnone : v.heldFault = none := by
      simp only [Team.placeWaits, Bool.or_eq_false_iff, Option.isSome_eq_false_iff, Option.isNone_iff_eq_none] at hroom
      exact hheld.trans hroom.1.1
    simp [pairStops, hrun, hnone, hpc]
  have htile' : exec i (s1.putTeam { v with pc := t.pc }) =
      .next ((s1.putTeam { v with pc := t.pc }).putTeam (({ v with pc := t.pc } : Team).place i)) := by
    rw [exec_tileSide htile]
    exact State.tileExec_ahead (State.issuing?_putTeam (hcur ▸ h1) (hvuid.trans hcur.symm) hrun) hahead
      ((Team.placeWaits_congr hheld htiq hslip).trans hroom) hpush
  obtain ⟨u, hu, hsame⟩ := State.sameFront_endPair
    (State.team?_putTeam_of (w := ({ v with pc := t.pc } : Team).place i)
      (State.team?_putTeam_of (w := { v with pc := t.pc }) h1 hvuid) hvuid)
  refine ⟨_, u, ?_, hu, hsame⟩
  simp only [State.runPair, ht, hroom, Bool.and_false, Bool.false_eq_true, if_false]
  rw [Team.inPair] at ha
  simp only [ha, h1, hgo, htile', Bool.false_eq_true, if_false]

/-- R43: between the slots of a pair, what a tile instruction captures stands in the mark of the pair. -/
theorem Team.capture_of_pairing {t : Team} {n : Nat} {c : Capture} (h : t.pairing = some (n, c)) : t.capture = c := by
  simp [Team.capture, h]

theorem Team.capture_of_unpaired {t : Team} (h : t.pairing = none) : t.capture = ⟨t.ext, t.extc, t.drm, t.s⟩ := by
  simp [Team.capture, h]

/-- Settles O6: the scalar slot completes (`exec_aluInstr`), the tile slot is placed from the team that stood before the word
(`State.runPair_places`), and settling leaves both. -/
theorem pairReadsBefore : Obligations.PairReadsBefore := by
  unfold Obligations.PairReadsBefore
  intro s s' t w l g op m sd sa b i hf hd hp hg htile hpush hcur hahead hrun hpair hheld hext hhist hslip
  obtain ⟨huid, hstatus, hpc, hpairing, hheld', htiq, hslip'⟩ := t.inPair.aluWrite_keeps op m sd sa b
  have hroom : t.placeWaits = false := by
    simp [Team.placeWaits, hheld, hext, hslip]
  have hissue : (s'.putTeam t.inPair).Issues t.inPair (aluInstr op m sd sa b) :=
    ⟨State.issuing?_putTeam (hcur ▸ hf.team) hcur.symm hrun, Team.mustWait_aluInstr hheld hhist op m sd sa b⟩
  have hscalar := (exec_aluInstr op m sd sa b _).trans (State.frontTeam_issues _ hissue)
  rw [longBytes_aluInstr] at hscalar
  have hmoved : ((t.inPair.aluWrite op m sd sa b).advance 8).pc ≠ t.pc := by
    rw [Team.advance_pc, hpc]
    simp [Team.inPair]
  obtain ⟨s2, u, hstep, hu, hsame⟩ := State.runPair_places hf.team hroom htile hpush hscalar
    (State.team?_putTeam_of (State.team?_putTeam_of hf.team rfl) huid) hcur hahead (hstatus.trans hrun)
    hmoved hheld' htiq hslip'
  have hread : ∀ r, u.rs r = (t.inPair.wrS sd (alu op m (t.rs sa) (t.opd b)).1).rs r :=
    Team.rs_congr (hsame.s.trans (t.inPair.aluWrite_s op m sd sa b))
  refine ⟨s2, u, (hf.step_pair hd hp hg).trans hstep, hu, ?pc, fun h => ?dest, fun r h => ?other,
    Team.entryFor { (t.inPair.aluWrite op m sd sa b).advance 8 with pc := t.pc } i, hsame.tiq.trans ?tiq, rfl, rfl, ?slot,
    ?capture⟩
  case pc => simp [hsame.pc, Team.place, longBytes_tileSide htile]
  case dest => rw [hread, Team.rs_wrS_self _ h]
  case other => exact (hread r).trans (Team.rs_wrS_of_ne _ h _)
  case tiq => exact congrArg (· ++ [_]) htiq
  case slot => exact congrArg Option.isSome hpairing
  case capture => exact (Team.capture_of_pairing hpairing).trans (Team.capture_of_unpaired hpair)

end Sys2Proof.Machine
end

/-!
O2 and O53: words written out from the encoding tables, and the system instructions.
-/

section
namespace Sys2Proof

/-- Settles O2, by evaluating the decoder on each word. -/
theorem specWordsDecode : Obligations.SpecWordsDecode := by
  unfold Obligations.SpecWordsDecode
  decide

end Sys2Proof
end

section
namespace Sys2Proof.Machine

variable {s s' : State} {t : Team} {i : Instr} {f : Team → Run} {a : Word}

/-! ### The name of a team (R224) -/

theorem State.ctxTarget_noTeam (h : a.extractLsb' 25 39 ≠ 0 ∨ s.teamAt? t.ctx (a.extractLsb' 0 25) = none) :
    s.ctxTarget t a = .error 2 := by
  by_cases hz : a.extractLsb' 25 39 = 0
  · simp [State.ctxTarget, hz, h.resolve_left (fun hn => hn hz)]
  · exact if_pos (bne_iff_ne.mpr hz)

theorem State.ctxTarget_notStopped {u : Team} (hz : a.extractLsb' 25 39 = 0)
    (hu : s.teamAt? t.ctx (a.extractLsb' 0 25) = some u) (hns : ∀ p q, u.status ≠ .stopped p q) :
    s.ctxTarget t a = .error 1 := by
  simp only [State.ctxTarget, hz, bne_self_eq_false, Bool.false_eq_true, if_false, hu]

/-! ### The front of a system instruction (R54) -/

theorem State.systemFront_notSystem (h : s.Issues t i) (hsys : t.sys = false) :
    s.systemFront i f = .next (s.frontFault t.uid (FaultInfo.plain 0x01 .team) none) := by
  simp [State.systemFront, State.front_issues _ h, hsys, kIllInstr]

theorem State.systemFront_done (h : s.Issues t i) (hsys : t.sys = true) (hf : f t = .done s') :
    s.systemFront i f = .next s' :=
  State.front_done h ((if_pos hsys).trans hf)

/-! ### ERET, CTXS and CTXL of a system team -/

section
variable {sd sa sb : SReg} {u : Team} {pc : Word} {seq : BitVec 32} {ks : List Nat}

theorem exec_eret_error {st : Word} (h : s.Issues t (.eret sd sa)) (hsys : t.sys = true)
    (ht : s.ctxTarget t (t.rs sa) = .error st) :
    exec (.eret sd sa) s = .next (s.modTeam t.uid (fun v => (v.wrS sd st).advance 8)) :=
  State.systemFront_done h hsys (by rw [ht]; rfl)

theorem exec_eret_resumes (h : s.Issues t (.eret sd sa)) (hsys : t.sys = true)
    (ht : s.ctxTarget t (t.rs sa) = .ok (u, pc, seq)) :
    exec (.eret sd sa) s = .next ((s.modTeam u.uid (fun v => { v with status := .running, pc })).modTeam t.uid (fun v =>
      (v.wrS sd 0).advance 8)) :=
  State.systemFront_done h hsys (by rw [ht]; rfl)

theorem exec_ctxs_saves (h : s.Issues t (.ctxs sd sa sb)) (hsys : t.sys = true)
    (ht : s.ctxTarget t (t.rs sa) = .ok (u, pc, seq)) (hk : s.areaKeys t .write (t.rs sb) u.part = .ok (some ks)) :
    exec (.ctxs sd sa sb) s = .next ((storeDwords t.uid (s.saveImage u) ks s).modTeam t.uid (fun v =>
      (v.wrS sd 0).advance 8)) :=
  State.systemFront_done h hsys (by simp only [ht, hk]; rfl)

theorem exec_ctxl_loads (h : s.Issues t (.ctxl sd sa sb)) (hsys : t.sys = true)
    (ht : s.ctxTarget t (t.rs sa) = .ok (u, pc, seq)) (hk : s.areaKeys t .read (t.rs sb) u.part = .ok (some ks))
    (hclean : headerClean (wordsOf ((s.loadBytes t ks).1.take 4096)) = true)
    (hpart : ((wordsOf ((s.loadBytes t ks).1.take 4096)).getD 48 0).extractLsb' 0 2 = u.part)
    (hgeos : (s.loadBytes t ks).2.geosMatch u (wordsOf ((s.loadBytes t ks).1.take 4096)) = true) :
    exec (.ctxl sd sa sb) s = .next (((s.loadBytes t ks).2.putTeam ((s.loadBytes t ks).2.fromImage u
      (wordsOf ((s.loadBytes t ks).1.take 4096)) ((s.loadBytes t ks).1.drop 4096) seq)).modTeam t.uid (fun v =>
        (v.wrS sd 0).advance 8)) :=
  State.systemFront_done h hsys (by
    simp only [ht, hk, chkRun, hclean, hpart, hgeos, bne_self_eq_false, Bool.not_true, Bool.or_self, Bool.false_eq_true,
      if_false]
    rfl)

end

/-- Settles O53: a system instruction faults in a team that is no system team (`State.systemFront_notSystem`), and in one that
is, it does what its name and its area allow. -/
theorem systemInstructions : Obligations.SystemInstructions := by
  unfold Obligations.SystemInstructions
  intro s t u sd sa sb pc seq ks hs
  refine ⟨fun hsys => ⟨fun hm => ?_, fun hm => ?_, fun hm => ?_⟩, fun hsys hm => ⟨fun hno => ?_, fun hz hu hns => ?_,
    fun ht => ?_⟩, fun hsys hm ht hk => ?_, fun hsys hm ht hk => ?_⟩
  · exact State.systemFront_notSystem ⟨hs, hm⟩ hsys
  · exact State.systemFront_notSystem ⟨hs, hm⟩ hsys
  · exact State.systemFront_notSystem ⟨hs, hm⟩ hsys
  · exact exec_eret_error ⟨hs, hm⟩ hsys (State.ctxTarget_noTeam hno)
  · exact exec_eret_error ⟨hs, hm⟩ hsys (State.ctxTarget_notStopped hz hu hns)
  · exact exec_eret_resumes ⟨hs, hm⟩ hsys ht
  · exact exec_ctxs_saves ⟨hs, hm⟩ hsys ht hk
  · exact fun hclean hpart hgeos => exec_ctxl_loads ⟨hs, hm⟩ hsys ht hk hclean hpart hgeos

end Sys2Proof.Machine
end

/-!
Tile-side instructions that the sequencer takes at once: what their effects leave of the sequencer's side of the team, what a
lane function's reads leave of the teams, and from both one rule for `State.TileDone` and one for `State.TileOne`.
-/

section
namespace Sys2Proof.Machine

/-! ### What the sequencer sees of a team -/

/-- Two stages of a team whose tile-side work, uncommitted writes and held fault are the same. -/
structure Team.SameTileSide (t u : Team) : Prop where
  uid : u.uid = t.uid
  tiq : u.tiq = t.tiq
  copies : u.copies = t.copies
  hist : u.hist = t.hist
  sbuf : u.sbuf = t.sbuf
  late : u.late = t.late
  held : u.heldFault = t.heldFault

theorem Team.SameTileSide.refl (t : Team) : t.SameTileSide t := ⟨rfl, rfl, rfl, rfl, rfl, rfl, rfl⟩

theorem Team.SameTileSide.trans {t u v : Team} (h : t.SameTileSide u) (k : u.SameTileSide v) : t.SameTileSide v :=
  ⟨k.uid.trans h.uid, k.tiq.trans h.tiq, k.copies.trans h.copies, k.hist.trans h.hist, k.sbuf.trans h.sbuf,
    k.late.trans h.late, k.held.trans h.held⟩

theorem Team.sameTileSide_putTile (t : Team) (n : TReg) (x : Option Tile) : t.SameTileSide (t.putTile n x) :=
  ⟨rfl, rfl, rfl, rfl, rfl, rfl, rfl⟩

theorem Team.sameTileSide_applyEnv (t : Team) (e : Env) : t.SameTileSide (t.applyEnv e) :=
  ⟨rfl, rfl, rfl, rfl, rfl, rfl, rfl⟩

theorem Team.sameTileSide_push (t : Team) (v : Word) : t.SameTileSide (t.push v) :=
  ⟨rfl, rfl, rfl, rfl, rfl, rfl, rfl⟩

/-- Consuming the slabs of streams changes stream registers only (R164). -/
theorem Team.sameTileSide_consume (t : Team) (ext : Nat) (ns : List TReg) : t.SameTileSide (t.consume ext ns) := by
  refine List.foldlRecOn (motive := t.SameTileSide) _ _ (.refl t) (fun u hu q _ => hu.trans ?_)
  split
  · exact ⟨rfl, rfl, rfl, rfl, rfl, rfl, rfl⟩
  · exact .refl u

/-- In `s'` one team stands under the name of the team that `x` works on, and the sequencer's side of it is as it was. -/
def TIn.Leaves (x : TIn) (s' : State) : Prop := ∃ u, s'.Only x.t.uid u ∧ x.t.SameTileSide u

theorem TIn.Leaves.putTeam {x : TIn} {s' : State} {u : Team} (h : x.Leaves s') (hu : x.t.SameTileSide u) :
    x.Leaves (s'.putTeam u) := by
  obtain ⟨v, hv, -⟩ := h
  refine ⟨u, ?_, hu⟩
  rw [State.putTeam_eq_fill, hu.uid]
  exact State.only_fill u hu.uid hv.1

theorem TIn.Leaves.modTeam {x : TIn} {s' : State} {f : Team → Team} (h : x.Leaves s')
    (hf : ∀ v : Team, v.SameTileSide (f v)) : x.Leaves (s'.modTeam x.t.uid f) := by
  obtain ⟨v, hv, hxv⟩ := h
  refine ⟨f v, ?_, hxv.trans (hf v)⟩
  rw [State.modTeam_of_only hv]
  exact State.only_fill (f v) ((hf v).uid.trans hxv.uid) hv.1

theorem TIn.Leaves.consume {x : TIn} {s' : State} (h : x.Leaves s') (ext : Nat) (ns : List TReg) :
    x.Leaves (s'.modTeam x.t.uid (fun u => u.consume ext ns)) :=
  h.modTeam (fun v => v.sameTileSide_consume ext ns)

theorem TIn.Leaves.put {x : TIn} (h : x.Leaves x.s) (td : TReg) (d : Tile) (e : Env) : x.Leaves (x.put td d e) :=
  h.putTeam ((x.t.sameTileSide_putTile td _).trans (Team.sameTileSide_applyEnv _ e))

/-! ### What reading a lane function leaves of the teams (R81) -/

theorem State.rackWord_teams (s : State) (p : PkgNo) (ctx : CtxId) (h idx : Nat) :
    (s.rackWord p ctx h idx).teams = s.teams := by
  simp only [State.rackWord]
  split
  · rfl
  · split
    · rfl
    · split
      · simp
      · rfl

theorem State.rackLine_teams (s : State) (l : Nat) : (s.rackLine l).teams = s.teams := by
  unfold State.rackLine
  split
  · rfl
  · refine List.foldlRecOn (motive := fun z : State => z.teams = s.teams) _ _ rfl (fun z hz k _ => ?_)
    split
    · exact (State.rackWord_teams ..).trans hz
    · exact hz

theorem State.load_teams (s : State) (t : Team) (p : Path) (keys : List Nat) : (s.load t p keys).2.teams = s.teams :=
  List.foldlRecOn (motive := fun z : State => z.teams = s.teams) _ _ rfl
    (fun z hz l _ => (State.rackLine_teams z l).trans hz)

theorem exists_of_bind_eq_ok {ε α β : Type} {x : Except ε α} {f : α → Except ε β} {b : β} (h : x >>= f = .ok b) :
    ∃ a, x = .ok a ∧ f a = .ok b := by
  cases x with
  | error e => exact nomatch h
  | ok a => exact ⟨a, rfl, h⟩

theorem eq_ok_of_mapFault {α : Type} {f : FaultInfo → FaultInfo} {x : Chk α} {a : α} (h : mapFault f x = .ok a) :
    x = .ok a := by
  unfold mapFault at h
  split at h
  · exact nomatch h
  · exact h

theorem laneRead_teams {s s' : State} {t : Team} {fn : BitVec 8} {a n : Nat} {bs : List Byte}
    (h : laneRead s t fn a n = .ok (bs, s')) : s'.teams = s.teams := by
  obtain ⟨ks, -, h⟩ := exists_of_bind_eq_ok (eq_ok_of_mapFault h)
  obtain ⟨_, -, h⟩ := exists_of_bind_eq_ok h
  have hload : s.load t .team ks = (bs, s') := Except.ok.inj h
  exact (congrArg (·.2.teams) hload).symm.trans (State.load_teams s t .team ks)

theorem laneFetch_teams {x : TIn} {s' : State} {fn : BitVec 8} {n : Nat} {red : Bool} {types : List (BitVec 5)}
    {c : Bool × List (BitVec 32)} (h : laneFetch x fn n red types = .ok (c, s')) : s'.teams = x.s.teams := by
  obtain ⟨⟨eb, s1⟩, hentry, h⟩ := exists_of_bind_eq_ok h
  simp only at h
  split at h
  · exact nomatch h
  · split at h
    · exact nomatch h
    · obtain ⟨⟨wb, s2⟩, hwords, h⟩ := exists_of_bind_eq_ok h
      simp only at h
      split at h
      · exact nomatch h
      · cases h
        exact (laneRead_teams hwords).trans (laneRead_teams hentry)

/-- What an instruction reads at acceptance beside its records is a lane function. -/
theorem exists_laneFetch_of_tileCode {i : Instr} {x : TIn} {c : Chk ((Bool × List (BitVec 32)) × State)}
    (h : tileCode i x = some c) : ∃ fn n red types, c = laneFetch x fn n red types := by
  unfold tileCode at h
  split at h
  · exact nomatch h
  · simp only at h
    split at h <;> cases h <;> exact ⟨_, _, _, _, rfl⟩

theorem State.team?_congr {s s' : State} (h : s'.teams = s.teams) (uid : Nat) : s'.team? uid = s.team? uid := by
  simp only [State.team?, h]

/-! ### A tile-side instruction as it runs -/

theorem State.Takes.team {s : State} {t : Team} {i : Instr} (h : s.Takes t i) : s.team? t.uid = some t := by
  obtain ⟨hs, -, hu⟩ := State.issuing_team h.issues
  exact hu ▸ hs

/-- The state that acceptance leaves holds the team as it was placed. -/
theorem State.Takes.team?_codeAt {s : State} {t : Team} {i : Instr} (h : s.Takes t i) :
    (s.codeAt t i).2.team? t.uid = some (t.place i) := by
  have hplaced : (s.putTeam (t.place i)).team? t.uid = some (t.place i) := State.team?_putTeam_of h.team rfl
  unfold State.codeAt
  split
  case h_1 c s' hc =>
    obtain ⟨_, _, _, _, hfetch⟩ := exists_laneFetch_of_tileCode hc
    have hs' : s'.team? t.uid = some (t.place i) :=
      (State.team?_congr (laneFetch_teams hfetch.symm) t.uid).trans hplaced
    exact State.team?_putTeam_of hs' rfl
  case h_2 => exact hplaced

theorem State.Takes.only_atRun {s : State} {t : Team} {i : Instr} (h : s.Takes t i) :
    (s.atRun t i).s.Only t.uid (s.atRun t i).t := State.only_fill _ rfl h.team?_codeAt

theorem State.Takes.leaves_atRun {s : State} {t : Team} {i : Instr} (h : s.Takes t i) :
    (s.atRun t i).Leaves (s.atRun t i).s := ⟨_, h.only_atRun, .refl _⟩

/-- A taken instruction whose run completes leaves the TIQ, whatever the run has done to registers, tiles and memory. -/
theorem State.exec_takes {s s' : State} {t : Team} {i : Instr} (h : s.Takes t i) (hi : i.isTileSide = true)
    (hc : isCopy i = false) (hrun : tileRun i t.wordSeq (s.atRun t i) = .done s') (hl : (s.atRun t i).Leaves s') :
    exec i s = .next (s'.past t.uid) := by
  obtain ⟨u, hu, hsame⟩ := hl
  obtain ⟨-, hcopies, hhist, hsbuf, hheld, -, -, hlate⟩ := h.quiet
  exact (exec_tileSide hi s).trans (State.tileExec_takes h hc hrun hu h.only_atRun hsame.tiq (hsame.sbuf.trans hsbuf)
    (hsame.hist.trans hhist) (hsame.held.trans hheld) (hsame.copies.trans hcopies) (hsame.late.trans hlate))

theorem State.Takes.atRun_rs {s : State} {t : Team} {i : Instr} (h : s.Takes t i) (r : SReg) :
    (s.atRun t i).c.rs r = t.rs r := by
  rw [show (s.atRun t i).c = t.capture from rfl, Team.capture_of_unpaired h.quiet.pair]
  rfl

/-- R81: what runs is the lane function as acceptance read it. -/
theorem State.atRun_lfn {s s1 : State} {t : Team} {i : Instr} {pk : Bool} {ws : List (BitVec 32)}
    (h : tileCode i (s.atAccept t i) = some (.ok ((pk, ws), s1))) : (s.atRun t i).lfn = ⟨pk, ws.map lword⟩ := by
  simp only [TIn.lfn, State.atRun, TileEntry.tin, State.entryAt, State.codeAt, h]

/-! ### Runs over the extent (R146, R164) -/

section
variable {x : TIn} {srcs : List TReg} {f : TIn → Run}

theorem TIn.live_empty (h : x.c.live = false) : x.live srcs f = .done x.s := by
  simp [TIn.live, h]

theorem TIn.live_done {s' : State} (h : x.c.live = true) (hr : x.t.streamsReady x.c.er srcs = true) (hf : f x = .done s') :
    x.live srcs f = .done (s'.modTeam x.t.uid (fun u => u.consume x.c.er srcs)) := by
  simp [TIn.live, h, hr, hf]

end

section
variable {s : State} {t : Team} {i : Instr} {P : TIn → Prop} {E : TIn → State}

theorem State.tileOne_of_run (hi : i.isTileSide = true) (hc : isCopy i = false)
    (hrun : P (s.atRun t i) → tileRun i t.wordSeq (s.atRun t i) = .done (E (s.atRun t i)))
    (hl : (s.atRun t i).Leaves (s.atRun t i).s → (s.atRun t i).Leaves (E (s.atRun t i))) : s.TileOne t i P E :=
  fun h hP => State.exec_takes h hi hc (hrun hP) (hl h.leaves_atRun)

/-- An instruction that runs over its extent has the effect `E` where its run over a non-empty one has. -/
theorem State.tileDone_of_live {srcs : List TReg} {f : TIn → Run} (hi : i.isTileSide = true) (hc : isCopy i = false)
    (hrun : ∀ x, tileRun i t.wordSeq x = x.live srcs f)
    (hf : s.Takes t i → (s.atRun t i).c.live = true → P (s.atRun t i) → f (s.atRun t i) = .done (E (s.atRun t i)))
    (hl : (s.atRun t i).Leaves (s.atRun t i).s → (s.atRun t i).Leaves (E (s.atRun t i))) : s.TileDone t i srcs P E := by
  intro h
  refine ⟨fun hempty => ?_, fun hlive hready hP => ?_⟩
  · exact State.exec_takes h hi hc ((hrun _).trans (TIn.live_empty hempty)) h.leaves_atRun
  · exact State.exec_takes h hi hc ((hrun _).trans (TIn.live_done hlive hready (hf h hlive hP)))
      ((hl h.leaves_atRun).consume _ _)

end

end Sys2Proof.Machine
end

/-!
O41: MAP, REDUCE, SCAN and TRDS.
-/

section
namespace Sys2Proof.Machine

section
variable {s s1 : State} {t : Team} {cv : Conv} {cnt : BitVec 2} {td : TReg} {ta tb : Src} {sa sb : SReg} {fn : BitVec 8}
  {pk : Bool} {ws : List (BitVec 32)}

theorem tileCode_map {x : TIn} {c : Chk ((Bool × List (BitVec 32)) × State)} (h : x.c.live = true)
    (hc : codeMap x cnt td ta tb fn = c) : tileCode (.map cv cnt td ta tb sa sb fn) x = some c := by
  simp [tileCode, h, hc]

/-- R81, R178: over a non-empty extent MAP runs the words that it read at acceptance, with the scalars that stood there. -/
theorem State.tileDone_map {f : TIn → Run} {E : TIn → State}
    (hrun : ∀ x, runMap x cv cnt td ta tb sa sb fn = x.live (mapSrcs cnt td ta tb) f)
    (hf : ∀ x : TIn, x.lfn = ⟨pk, ws.map lword⟩ → (∀ r, x.c.rs r = t.rs r) → f x = .done (E x))
    (hl : ∀ x : TIn, x.Leaves x.s → x.Leaves (E x)) :
    s.TileDone t (.map cv cnt td ta tb sa sb fn) (mapSrcs cnt td ta tb)
      (fun _ => codeMap (s.atAccept t (.map cv cnt td ta tb sa sb fn)) cnt td ta tb fn = .ok ((pk, ws), s1)) E := by
  refine State.tileDone_of_live rfl rfl hrun (fun h hlive hreads => ?_) (hl _)
  exact hf _ (State.atRun_lfn (tileCode_map hlive hreads)) h.atRun_rs

end

/-- Settles O41: MAP by `State.tileDone_map`, in both forms of its function; REDUCE, SCAN and TRDS are what their runs compute
over the extent, and TRDS pushes 0 over an empty one. -/
theorem laneResults : Obligations.LaneResults := by
  unfold Obligations.LaneResults
  refine ⟨fun s s1 t cv cnt td ta tb sa sb fn ws => ⟨?map, ?mapPacked⟩, fun s s1 t i pk ws => State.atRun_lfn,
    fun s t col two cv rm td ta tb sa sb fn => ⟨?reduce, ?scan, ?trdsEmpty, ?trds⟩⟩
  case map =>
    refine State.tileDone_map (fun x => by rw [runMap]) (fun x hlfn hrs => ?_) (fun x hx => hx.put td _ _)
    simp only [hlfn, hrs]
    rfl
  case mapPacked =>
    refine State.tileDone_map (fun x => by rw [runMap]) (fun x hlfn hrs => ?_) (fun x hx => hx.put td _ _)
    simp only [hlfn, hrs]
    rfl
  case reduce =>
    refine State.tileDone_of_live rfl rfl (fun x => by rw [tileRun, runReduce]) (fun _ _ _ => ?_) (fun hx => hx.put td _ _)
    rfl
  case scan =>
    refine State.tileDone_of_live rfl rfl (fun x => by rw [tileRun, runScan]) (fun _ _ _ => ?_) (fun hx => hx.put td _ _)
    rfl
  case trdsEmpty =>
    refine State.tileOne_of_run rfl rfl (fun hempty => ?_) (fun hx => hx.putTeam (Team.sameTileSide_push _ 0))
    simp [tileRun, runTrds, hempty]
  case trds =>
    refine State.tileOne_of_run rfl rfl (fun ⟨hlive, hready⟩ => ?_) (fun hx => ?_)
    · rw [tileRun, runTrds, hlive]
      refine (if_neg Bool.false_ne_true).trans (TIn.live_done hlive hready ?_)
      rfl
    · exact (hx.putTeam ((Team.sameTileSide_applyEnv _ _).trans (Team.sameTileSide_push _ _))).consume _ _

end Sys2Proof.Machine
end

/-!
The scalar front: an instruction that nothing holds back does its own work, one that must wait changes nothing.
-/

section
namespace Sys2Proof.Machine

/-! ### The front of an instruction -/

theorem State.front_waits {s : State} {t : Team} {i : Instr} (f : Team → Run) (hi : s.issuing? = some t)
    (hw : t.mustWait i = true) : s.front i f = .next s := by
  simp only [State.front, hi, hw, if_true]

theorem State.frontTeam_waits {s : State} {t : Team} {i : Instr} (f : Team → Team) (hi : s.issuing? = some t)
    (hw : t.mustWait i = true) : s.frontTeam i f = .next s := State.front_waits _ hi hw

theorem State.front_fail {s s' : State} {t : Team} {i : Instr} {f : Team → Run} {info : FaultInfo} (h : s.Issues t i)
    (hf : f t = .fail s' info) : s.front i f = .next (s'.frontFault t.uid info none) := by
  rw [State.front_issues f h, hf]

theorem State.front_stall {s s' : State} {t : Team} {i : Instr} {f : Team → Run} (h : s.Issues t i)
    (hf : f t = .stall s') : s.front i f = .next s' := by
  rw [State.front_issues f h, hf]

theorem Team.mustWait_of_outward {t : Team} {i : Instr} (ho : i.isOutward = true) (h : t.outwardWaits i = true) :
    t.mustWait i = true := by
  simp [Team.mustWait, ho, h]

/-- R112: an instruction waits for the guards that it names. -/
theorem Team.mustWait_of_pending {t : Team} {i : Instr} {k : GReg} (hk : k ∈ guardOperands i) (h : t.pending k = true) :
    t.mustWait i = true := by
  have hany : (guardOperands i).any t.pending = true := List.any_eq_true.mpr ⟨k, hk, h⟩
  simp [Team.mustWait, hany]

theorem Team.rg_zero (t : Team) : t.rg 0 = true := if_pos rfl

/-! ### Undoing a word's writes (R116) -/

section
variable {t : Team}

/-- R115: an uncommitted write heads the history buffer. -/
theorem Team.log_logged (h : t.logs = true) (w : UndoWhat) :
    (t.log w).hist = ⟨t.seqHere, w⟩ :: t.hist ∧ (t.log w).late = t.late := by
  simp only [Team.log, if_pos h, and_self]

theorem Team.wrS_logged (h : t.logs = true) {r : SReg} (hr : r ≠ 0) (v : Word) :
    (t.wrS r v).hist = ⟨t.seqHere, .sreg r (t.rs r)⟩ :: t.hist ∧ (t.wrS r v).late = t.late := by
  simp only [Team.wrS, if_neg hr, Team.log_logged h, and_self]

theorem Team.wrG_logged (h : t.logs = true) {k : GReg} (hk : k ≠ 0) (b : Bool) :
    (t.wrG k b).hist = ⟨t.seqHere, .greg k (t.rg k)⟩ :: t.hist ∧ (t.wrG k b).late = t.late := by
  simp only [Team.wrG, if_neg hk, Team.log_logged h, and_self]

theorem Team.wrSpr_logged (h : t.logs = true) (n : BitVec 5) (v : Word) :
    (t.wrSpr n v).hist = ⟨t.seqHere, .spr n (t.getSpr n)⟩ :: t.hist ∧ (t.wrSpr n v).late = t.late := by
  simp only [Team.wrSpr, Team.setSpr_hist, Team.setSpr_late, Team.log_logged h, and_self]

theorem Team.wrG_g (t : Team) {k : GReg} (h : k ≠ 0) (b : Bool) : (t.wrG k b).g = setBit t.g k.toNat b := by
  simp only [Team.wrG, if_neg h, Team.log_g]

/-- Entries that all stand before the place `n` are all kept, and none of them is undone. -/
theorem filter_olderThan {l : List Undo} {n : Nat} (h : ∀ x ∈ l, x.seq < n) :
    l.filter (fun x => decide (x.seq < n)) = l ∧ l.filter (fun x => decide (n ≤ x.seq)) = [] :=
  ⟨List.filter_eq_self.mpr (fun x hx => decide_eq_true (h x hx)),
    List.filter_eq_nil_iff.mpr (fun x hx => by simpa using h x hx)⟩

/-- R116: with nothing logged at the place `n` or later, nothing is undone. -/
theorem Team.undoFrom_older {n : Nat} (hold : ∀ x ∈ t.hist ++ t.late, x.seq < n) : t.undoFrom n = t := by
  obtain ⟨hh, hl⟩ := List.forall_mem_append.mp hold
  rw [Team.undoFrom, (filter_olderThan hold).2, (filter_olderThan hh).1, (filter_olderThan hl).1]
  rfl

/-- R116: of a team whose older entries all stand before the place `n`, one entry at `n` is all that is undone. -/
theorem Team.undoFrom_one {u : Team} {n : Nat} {w : UndoWhat} (hu : u.hist = ⟨n, w⟩ :: t.hist) (hlate : u.late = t.late)
    (hold : ∀ x ∈ t.hist ++ t.late, x.seq < n) :
    u.undoFrom n = { u.undoOne w with hist := t.hist, late := t.late } := by
  obtain ⟨hh, hl⟩ := List.forall_mem_append.mp hold
  have hgone : (u.hist ++ u.late).filter (fun x => decide (n ≤ x.seq)) = [⟨n, w⟩] := by
    rw [hu, hlate, List.cons_append, List.filter_cons_of_pos (by simp), (filter_olderThan hold).2]
  have hkept : u.hist.filter (fun x => decide (x.seq < n)) = t.hist := by
    rw [hu, List.filter_cons_of_neg (by simp), (filter_olderThan hh).1]
  rw [Team.undoFrom, hgone, hkept, hlate, (filter_olderThan hl).1]
  rfl

/-- Setting a bit and then giving it its old value back leaves a vector as it was. -/
theorem setBit_setBit_getLsbD {w : Nat} (x : BitVec w) {k : Nat} (b : Bool) :
    setBit (setBit x k b) k (x.getLsbD k) = x := by
  apply BitVec.eq_of_getLsbD_eq
  intro i hi
  by_cases hik : k = i
  · subst hik
    cases b <;> cases hx : x.getLsbD k <;> simp [setBit, hi]
  · cases b <;> cases x.getLsbD k <;> simp [setBit, Ne.symm hik, hi]

/-- The writable special registers (Table 4.3). -/
theorem le_six_cases {n : BitVec 5} (h : n.toNat ≤ 6) : n.toNat = 0 ∨ n.toNat = 1 ∨ n.toNat = 2 ∨ n.toNat = 3 ∨
    n.toNat = 4 ∨ n.toNat = 5 ∨ n.toNat = 6 := by
  omega

/-- A writable special register that is set to what it held reads as it did. -/
theorem Team.getSpr_setSpr_getSpr {n : BitVec 5} (hn : n.toNat ≤ 6) (u : Team) :
    (u.setSpr n (t.getSpr n)).getSpr n = t.getSpr n := by
  rcases le_six_cases hn with h | h | h | h | h | h | h <;> simp [Team.getSpr, Team.setSpr, h]

end

/-- Settles O8: the write's own entry is the only one that is undone (`Team.undoFrom_one`), and what it holds is the old
value. -/
theorem undoRestores : Obligations.UndoRestores := by
  unfold Obligations.UndoRestores
  intro t r v k b n x xs hlogs hold
  refine ⟨?sreg, ?greg, fun hn => ?spr, fun hbq hcr => ?pop⟩
  case sreg =>
    by_cases hr : r = 0
    · rw [Team.wrS, if_pos hr, Team.undoFrom_older hold]
    · obtain ⟨hhist, hlate⟩ := Team.wrS_logged hlogs hr v
      rw [Team.undoFrom_one hhist hlate hold, Team.rs, if_neg hr]
      simp [Team.undoOne, Team.wrS_s t hr, Vector.get]
  case greg =>
    by_cases hk : k = 0
    · rw [Team.wrG, if_pos hk, Team.undoFrom_older hold]
    · obtain ⟨hhist, hlate⟩ := Team.wrG_logged hlogs hk b
      rw [Team.undoFrom_one hhist hlate hold, Team.rg, if_neg hk]
      exact (congrArg (setBit · _ _) (Team.wrG_g t hk b)).trans (setBit_setBit_getLsbD t.g b)
  case spr =>
    obtain ⟨hhist, hlate⟩ := Team.wrSpr_logged hlogs n v
    rw [Team.undoFrom_one hhist hlate hold]
    exact Team.getSpr_setSpr_getSpr hn _
  case pop =>
    obtain ⟨hhist, hlate⟩ := Team.log_logged hlogs (.pop x)
    rw [Team.undoFrom_one (u := { t.log (.pop x) with bq := xs, credits := t.credits - 1 }) hhist hlate hold]
    exact ⟨hbq.symm, Nat.sub_add_cancel hcr⟩

end Sys2Proof.Machine
end

/-!
Guards, constants and addresses (R112, R124 to R129, R141, R280, R281).
-/

section
namespace Sys2Proof.Machine

/-! ### Guards (R125 to R127) -/

theorem exec_sel {s : State} {t : Team} {k : GReg} {sd sa : SReg} {b : Opd} (h : s.Issues t (.sel k sd sa b)) :
    exec (.sel k sd sa b) s = .next (s.putTeam ((t.wrS sd (if t.rg k then t.rs sa else t.opd b)).advance 8)) :=
  State.frontTeam_issues _ h

/-- Settles O12: by the guard's value, and by `State.frontTeam_waits` while it is pending. -/
theorem selResult : Obligations.SelResult := by
  unfold Obligations.SelResult
  intro k sd sa b s t
  refine ⟨fun h => ⟨fun hk => ?one, fun hk => ?zero, fun hk => ?g0⟩, fun hi hp => ?pending⟩
  case one => rw [exec_sel h, if_pos hk]
  case zero => rw [exec_sel h, if_neg (by simp [hk])]
  case g0 => rw [exec_sel h, if_pos (hk ▸ t.rg_zero)]
  case pending => exact State.frontTeam_waits _ hi (Team.mustWait_of_pending (i := .sel k sd sa b) (List.mem_singleton_self k) hp)

/-- Table 4.7: the conditions as the model computes them. -/
theorem cmpCond_iff (cc : BitVec 3) (a b : Word) : cmpCond cc a b = true ↔ cmpRule cc a b := by
  unfold cmpRule
  split
  case h_8 h0 h1 h2 h3 h4 h5 h6 =>
    have hcc : cc = 7#3 := by
      revert h0 h1 h2 h3 h4 h5 h6
      revert cc
      decide
    simp [hcc, cmpCond, BitVec.ule]
  all_goals simp [cmpCond, BitVec.slt, BitVec.sle, BitVec.ult]

/-- Settles O13: CMP by `cmpCond_iff`; the combines and the functions of guards are the model's own tables. -/
theorem guardResults : Obligations.GuardResults := by
  unfold Obligations.GuardResults
  intro cc cb gk sa b op gd ga gb s t
  refine ⟨fun h => ⟨_, cmpCond_iff cc _ _, (State.frontTeam_issues _ h).trans (congrArg
      (fun g => Host.Outcome.next (s.putTeam ((t.wrG gk g).advance 8))) ?cmp)⟩,
    fun h => (State.frontTeam_issues _ h).trans (congrArg
      (fun g => Host.Outcome.next (s.putTeam ((t.wrG gd g).advance 8))) ?gop)⟩
  case cmp =>
    clear h
    generalize t.rg gk = old
    generalize cmpCond cc (t.rs sa) (t.opd b) = c
    revert cb old c
    decide
  case gop =>
    clear h
    generalize t.rg ga = x
    generalize t.rg gb = y
    revert op x y
    decide

/-! ### Constants and addresses (R128, R129) -/

/-- Settles O14: each writes its own value; the halves of LIH's are the immediate and the old lower half. -/
theorem constantResults : Obligations.ConstantResults := by
  unfold Obligations.ConstantResults
  intro sd imm lit s t hi
  refine ⟨fun hw => State.frontTeam_issues _ ⟨hi, hw⟩, fun hw => State.frontTeam_issues _ ⟨hi, hw⟩, fun hw =>
    ⟨imm ++ (t.rs sd).extractLsb' 0 32, ?upper, ?lower, State.frontTeam_issues _ ⟨hi, hw⟩⟩⟩
  case upper => exact BitVec.extractLsb'_append_eq_left
  case lower => exact BitVec.extractLsb'_append_eq_right

/-- R281: WINQ's answer, with the bounds of the window and the size of its pages written out. -/
theorem State.winQuery_eq {s : State} {t : Team} {c : Ctx} (hc : s.teamCtx? t = some c) (a : Word) :
    s.winQuery t a = if 0x0008000000000000 ≤ a.toNat ∧ a.toNat < 0x0008040000000000
      then kget 0 c.win ((a.toNat - 0x0008000000000000) / 2 ^ 25) else 0xFFFFFFFFFFFFFFFF := by
  simp only [State.winQuery, hc, inWin, Bool.and_eq_true, decide_eq_true_eq]
  rfl

/-- Settles O15: each leaves what its own work writes, past its word; a hint of the X format has two. -/
theorem addressAndNoEffect : Obligations.AddressAndNoEffect := by
  unfold Obligations.AddressAndNoEffect
  intro sd sa sb n imm fmt op rest l1 kind len b c s t hi
  refine ⟨fun hw => State.frontTeam_issues _ ⟨hi, hw⟩, fun hw => State.frontTeam_issues _ ⟨hi, hw⟩,
    fun hw => State.frontTeam_issues _ ⟨hi, hw⟩, fun hw => State.frontTeam_issues _ ⟨hi, hw⟩, fun hw => ?hint,
    fun hw => State.frontTeam_issues _ ⟨hi, hw⟩, fun hw => State.frontTeam_issues _ ⟨hi, hw⟩, fun hw hc => ?winq⟩
  case hint =>
    refine (State.frontTeam_issues _ ⟨hi, hw⟩).trans ?_
    cases fmt <;> rfl
  case winq =>
    rw [← State.winQuery_eq hc]
    exact State.frontTeam_issues _ ⟨hi, hw⟩

end Sys2Proof.Machine
end

/-!
Special registers and the branch queue (R134, R136), control transfers, waits and traps (R132, R133, R135, R137, R140).
-/

section
namespace Sys2Proof.Machine

/-! ### Special registers (R136) -/

/-- A value without bits outside a mask is the masked value. -/
theorem and_eq_of_fits {w : Nat} {v m : BitVec w} (h : v &&& ~~~m = 0) : v &&& m = v := by
  apply BitVec.eq_of_getLsbD_eq
  intro i hi
  have hi' : (v.getLsbD i && !m.getLsbD i) = false := by simpa [hi] using congrArg (·.getLsbD i) h
  rw [BitVec.getLsbD_and]
  revert hi'
  cases v.getLsbD i <;> cases m.getLsbD i <;> decide

/-- A value that fits 16 bits is the one that 16 bits keep. -/
theorem setWidth_setWidth_of_fits {v : Word} (h : v &&& ~~~0xFFFF = 0) : (v.truncate 16).zeroExtend 64 = v := by
  have hmod : v.toNat % 2 ^ 16 = v.toNat := by
    rw [← Nat.and_two_pow_sub_one_eq_mod]
    exact congrArg BitVec.toNat (and_eq_of_fits h)
  apply BitVec.eq_of_toNat_eq
  rw [BitVec.toNat_setWidth, BitVec.toNat_setWidth, hmod, Nat.mod_eq_of_lt v.isLt]

section
variable {n : BitVec 5}

theorem State.sprRead_eq_getSpr (s : State) (t : Team) (hn : n.toNat ≤ 6) : s.sprRead t n = t.getSpr n := by
  rcases le_six_cases hn with h | h | h | h | h | h | h <;> simp only [State.sprRead, Team.getSpr, h]

/-- A writable special register reads what it is set to, if that fits its fields. -/
theorem Team.getSpr_setSpr (t : Team) {v : Word} (hn : n.toNat ≤ 6) (hf : v &&& ~~~sprMask n = 0) :
    (t.setSpr n v).getSpr n = v := by
  rcases le_six_cases hn with h | h | h | h | h | h | h <;> simp only [sprMask, h] at hf <;>
    simp only [Team.getSpr, Team.setSpr, h]
  all_goals exact setWidth_setWidth_of_fits hf

theorem fits_of_sprFits {v : Word} (h : sprFits n v = true) : v &&& ~~~sprMask n = 0 := by
  simp only [sprFits, Bool.and_eq_true, beq_iff_eq] at h
  exact h.1

end

/-- Settles O17: what a register reads after a write that fits is `Team.getSpr_setSpr`. -/
theorem specialRegisters : Obligations.SpecialRegisters := by
  unfold Obligations.SpecialRegisters
  refine ⟨fun sd sa n s t hi => ⟨fun hw => State.frontTeam_issues _ ⟨hi, hw⟩,
    fun hw hf => State.front_done ⟨hi, hw⟩ (if_pos hf),
    fun hw hf => State.front_fail ⟨hi, hw⟩ (if_neg (by simp [hf])), fun hn hf => ?read⟩,
    fun sd s t h => ⟨fun v vs hbq hcr => State.front_done h ?pop, fun hcr => State.front_fail h (if_pos hcr),
      fun hbq hcr => State.front_stall h ?stall⟩⟩
  case read =>
    rw [State.sprRead_eq_getSpr s _ hn]
    exact Team.getSpr_setSpr _ hn (fits_of_sprFits hf)
  case pop => rw [if_neg hcr, hbq]
  case stall => rw [if_neg hcr, hbq]

/-! ### Control transfers (R40, R132, R133) -/

section
variable {s : State} {t : Team}

/-- The label of a word at a word address is a word address. -/
theorem Team.label_aligned (h : t.pc.toNat % 8 = 0) (off : BitVec 32) : (t.label off).toNat % 8 = 0 := by
  have h8 : (8 : Word).toNat = 8 := rfl
  rw [Team.label, BitVec.toNat_add, BitVec.toNat_mul, h8]
  omega

theorem State.transfer_aligned {w : Word} (h : w.toNat % 8 = 0) : s.transfer t w = .done (s.putTeam (t.jumpTo w)) :=
  if_pos h

theorem State.transfer_unaligned {w : Word} (h : w.toNat % 8 ≠ 0) :
    s.transfer t w = .fail s (FaultInfo.plain 0x01 .team) :=
  if_neg h

end

/-- Settles O18: by whether the count has come to 0; the label of a word is a word address. -/
theorem loopResult : Obligations.LoopResult := by
  unfold Obligations.LoopResult
  intro sd off s t h hpc
  have hjump : ∀ u : Team, s.transfer u (t.label off) = .done (s.putTeam (u.jumpTo (t.label off))) := fun u =>
    State.transfer_aligned (t.label_aligned hpc off)
  refine ⟨fun hz => State.front_done h ?last, fun hz => State.front_done h ((if_neg hz).trans (hjump _)), fun h0 => ?s0⟩
  case last =>
    rw [hz]
    exact if_pos rfl
  case s0 =>
    subst h0
    exact State.front_done h ((if_neg (by simp [Team.rs])).trans (hjump t))

/-- Settles O19: by whether the target is a word address; a label of a word always is. -/
theorem transferResults : Obligations.TransferResults := by
  unfold Obligations.TransferResults
  intro sd sa off s t hi hpc
  have hlabel := t.label_aligned hpc off
  exact ⟨fun hw => State.front_done ⟨hi, hw⟩ (State.transfer_aligned hlabel),
    fun hw ha => State.front_done ⟨hi, hw⟩ (State.transfer_aligned ha),
    fun hw ha => State.front_fail ⟨hi, hw⟩ (State.transfer_unaligned ha),
    fun hw => State.front_done ⟨hi, hw⟩ (State.transfer_aligned hlabel),
    fun hw ha => State.front_done ⟨hi, hw⟩ (State.transfer_aligned ha),
    fun hw ha => State.front_fail ⟨hi, hw⟩ (State.transfer_unaligned ha),
    fun hw ha => State.front_done ⟨hi, hw⟩ (State.transfer_aligned ha),
    fun hw ha => State.front_fail ⟨hi, hw⟩ (State.transfer_unaligned ha)⟩

/-! ### DRAIN and YIELD (R135, R137) -/

/-- Settles O20: what the Press takes at once need not wait. -/
theorem drainAndYield : Obligations.DrainAndYield := by
  unfold Obligations.DrainAndYield
  intro upd copy tiq sd off s t hi
  exact ⟨fun hw hu => State.front_done ⟨hi, hw⟩ (if_neg (by simp [hu])),
    fun hw hu hc => State.front_done ⟨hi, hw⟩ ((if_pos hu).trans (if_pos hc)),
    fun hw hp => State.front_done ⟨hi, hw⟩ (if_neg (by simp [hp])),
    fun hw hp hc => State.front_done ⟨hi, hw⟩ ((if_pos hp).trans (if_pos hc))⟩

/-! ### TRAP and BRK (R140) -/

section
variable {s : State} {t : Team} {i : Instr}

/-- R116: a fault of the front of a team with nothing uncertain before it is taken at once. -/
theorem State.frontFault_clear (ht : s.team? t.uid = some t) (hc : t.clear = true) (f : FaultInfo) (resume : Option Word) :
    s.frontFault t.uid f resume =
      s.takeFault t.uid ⟨f, t.seqHere, t.pc, t.word, false, resume.getD t.pc⟩ := by
  simp only [State.frontFault, State.slotFault, ht, hc, if_true]

theorem exec_trap (code : BitVec 16) (s : State) : exec (.trap code) s = execTrap code s := rfl

theorem exec_brk (code : BitVec 16) (s : State) : exec (.brk code) s = execBrk code s := rfl

theorem Team.seqHere_unpaired (h : t.pairing = none) : t.seqHere = t.wordSeq := by
  simp only [Team.seqHere, h]

theorem Team.clear_of_mustWait (hw : t.mustWait i = false) (ho : i.isOutward = true) (hwait : t.outwardWaits i = !t.clear) :
    t.clear = true := by
  by_contra hc
  rw [Team.mustWait_of_outward ho (by simp [hwait, hc])] at hw
  exact Bool.noConfusion hw

end

/-- Settles O21: an instruction that waits for nothing finds every older fault point passed, so its fault is taken at once. -/
theorem trapAndBreak : Obligations.TrapAndBreak := by
  unfold Obligations.TrapAndBreak
  intro code s t hi hp
  have ht : s.team? t.uid = some t := by
    obtain ⟨hs, _, hu⟩ := State.issuing_team hi
    rwa [hu]
  have hfault : ∀ (i : Instr) (f : FaultInfo), t.mustWait i = false → i.isOutward = true → t.outwardWaits i = !t.clear →
      s.frontFault t.uid f (some (t.pc + 8)) = s.takeFault t.uid ⟨f, t.wordSeq, t.pc, t.word, false, t.pc + 8⟩ := by
    intro i f hw ho hwait
    rw [State.frontFault_clear ht (Team.clear_of_mustWait hw ho hwait), Team.seqHere_unpaired hp]
    rfl
  rw [exec_trap, exec_brk]
  refine ⟨fun hw => (State.front_done ⟨hi, hw⟩ rfl).trans (congrArg Host.Outcome.next ?trapFault),
    fun hw => (State.front_done ⟨hi, hw⟩ rfl).trans (congrArg Host.Outcome.next ?brkFault),
    fun hc => ⟨State.front_waits _ hi ?trapWaits, State.front_waits _ hi ?brkWaits⟩, fun hh hc => ?go⟩
  case trapFault => exact hfault _ (trapInfo 0x0E code) hw rfl rfl
  case brkFault => exact hfault _ (trapInfo 0x0F code) hw rfl rfl
  case trapWaits => exact Team.mustWait_of_outward rfl (by simp [Team.outwardWaits, hc])
  case brkWaits => exact Team.mustWait_of_outward rfl (by simp [Team.outwardWaits, hc])
  case go => simp [Team.mustWait, hh, hc, frontWrites, Instr.isOutward, Team.outwardWaits, guardOperands]

end Sys2Proof.Machine
end

/-!
O10: the scalar arithmetic of R123. The model computes on integers, the manual's formulas on vectors of `n` bits.
-/

section
namespace Sys2Proof.Machine

/-! ### Integers and vectors -/

/-- An operand of R123 as the integer that the mode reads. -/
def aluOperand {n : Nat} (u : Bool) (x : BitVec n) : Int := if u then x.toNat else x.toInt

section
variable {n : Nat} (u : Bool)

theorem ofInt_aluOperand (x : BitVec n) : BitVec.ofInt n (aluOperand u x) = x := by
  cases u
  · exact BitVec.ofInt_toInt
  · exact (BitVec.ofInt_natCast n x.toNat).trans (by simp)

theorem aluOperand_eq_zero {x : BitVec n} : aluOperand u x = 0 ↔ x = 0 := by
  refine ⟨fun h => ?_, fun h => ?_⟩
  · rw [← ofInt_aluOperand u x, h]; simp
  · subst h; cases u <;> simp [aluOperand]

/-- The model's reading of the low `n` bits of a number. -/
theorem intOf_eq_aluOperand (hn : 0 < n) (k : Nat) : intOf n (!u) k = aluOperand u (BitVec.ofNat n k) := by
  have hpow : 2 ^ n = 2 * 2 ^ (n - 1) := by rw [← Nat.pow_succ', Nat.succ_eq_add_one, Nat.sub_add_cancel hn]
  cases u
  · have hsign : 2 * (k % 2 ^ n) < 2 ^ n ↔ ¬2 ^ (n - 1) ≤ k % 2 ^ n := by omega
    simp only [intOf, aluOperand, BitVec.toInt, BitVec.toNat_ofNat, Bool.not_false, Bool.true_and, decide_eq_true_eq,
      Bool.false_eq_true, if_false, hsign, ite_not]
  · simp [intOf, aluOperand]

theorem intOf_word (hn : 0 < n) (a : Word) : intOf n (!u) a.toNat = aluOperand u (a.truncate n : BitVec n) := by
  rw [intOf_eq_aluOperand u hn, BitVec.ofNat_toNat]

theorem aluExt_eq_ofInt (x : BitVec n) : aluExt u x = BitVec.ofInt 64 (aluOperand u x) := by
  cases u
  · rfl
  · exact ((BitVec.ofInt_natCast 64 x.toNat).trans (BitVec.ofNat_toNat 64 x)).symm

/-- R123: a result is cut to `n` bits and extended. -/
theorem extBits_intCode (hn : 0 < n) (x : Int) : extBits n u (intCode n x) = aluExt u (BitVec.ofInt n x) := by
  have hcode : BitVec.ofNat n (intCode n x) = BitVec.ofInt n x := by
    apply BitVec.eq_of_toNat_eq
    rw [BitVec.toNat_ofInt, BitVec.toNat_ofNat, intCode]
    exact Nat.mod_eq_of_lt (by have := Int.emod_lt_of_pos x (b := (2 ^ n : Nat)) (by positivity); omega)
  rw [extBits, intOf_eq_aluOperand u hn, hcode, aluExt_eq_ofInt]

end

/-! ### The operations one by one -/

section
variable {n : Nat} (u : Bool) (a b : BitVec n)

theorem emod_sq_ediv_emod (z : Int) {p : Int} (hp : p ≠ 0) : z % (p * p) / p % p = z / p % p := by
  have hsplit : z % (p * p) = z + p * (p * -(z / (p * p))) := by rw [Int.emod_def]; ring
  rw [hsplit, Int.add_mul_ediv_left _ _ hp, Int.add_mul_emod_self_left]

theorem ofInt_natCast_of_lt {k : Nat} (h : k < 2 ^ n) : BitVec.ofInt n k = BitVec.ofNatLT k h := by
  rw [BitVec.ofInt_natCast, BitVec.ofNatLT_eq_ofNat]

/-- The upper half of a number of `2 n` bits. -/
theorem extractLsb'_upper_ofInt (z : Int) : (BitVec.ofInt (2 * n) z).extractLsb' n n = BitVec.ofInt n (z / (2 ^ n : Nat)) := by
  have hsq : ((2 ^ (2 * n) : Nat) : Int) = (2 ^ n : Nat) * (2 ^ n : Nat) := by rw [Nat.two_mul, Nat.pow_add, Int.natCast_mul]
  have hnn : 0 ≤ z % ((2 ^ (2 * n) : Nat) : Int) := Int.emod_nonneg _ (by positivity)
  apply BitVec.eq_of_toNat_eq
  apply Int.ofNat_inj.mp
  rw [BitVec.extractLsb'_toNat, BitVec.toNat_ofInt, BitVec.toNat_ofInt, Nat.shiftRight_eq_div_pow, Int.natCast_emod,
    Int.natCast_ediv, Int.toNat_of_nonneg hnn, Int.toNat_of_nonneg (Int.emod_nonneg _ (by positivity)), hsq]
  exact emod_sq_ediv_emod z (by positivity)

theorem widen_eq_ofInt : (if u then a.zeroExtend (2 * n) else a.signExtend (2 * n)) = BitVec.ofInt (2 * n) (aluOperand u a) := by
  cases u
  · rfl
  · exact ((BitVec.ofInt_natCast _ a.toNat).trans (BitVec.ofNat_toNat _ a)).symm

theorem ofInt_mulh : BitVec.ofInt n (aluOperand u a * aluOperand u b / (2 ^ n : Nat)) = aluBv .mulh u a b := by
  rw [← extractLsb'_upper_ofInt, BitVec.ofInt_mul, ← widen_eq_ofInt, ← widen_eq_ofInt]
  cases u <;> rfl

theorem ofInt_div : BitVec.ofInt n (if aluOperand u b = 0 then -1 else Int.tdiv (aluOperand u a) (aluOperand u b)) =
    aluBv .div u a b := by
  simp only [aluOperand_eq_zero, aluBv]
  split
  · rw [BitVec.ofInt_neg, ← BitVec.neg_one_eq_allOnes]; rfl
  · cases u
    · exact BitVec.eq_of_toInt_eq ((BitVec.toInt_ofInt _).trans (BitVec.toInt_sdiv a b).symm)
    · exact (ofInt_natCast_of_lt (Nat.lt_of_le_of_lt (Nat.div_le_self _ _) a.isLt)).trans rfl

theorem ofInt_rem : BitVec.ofInt n (if aluOperand u b = 0 then aluOperand u a
    else aluOperand u a - aluOperand u b * Int.tdiv (aluOperand u a) (aluOperand u b)) = aluBv .rem u a b := by
  simp only [aluOperand_eq_zero, aluBv, ← Int.tmod_def]
  split
  · exact ofInt_aluOperand u a
  · cases u
    · refine BitVec.eq_of_toInt_eq ((BitVec.toInt_ofInt _).trans ?_)
      exact (congrArg (Int.bmod · _) (BitVec.toInt_srem a b).symm).trans (BitVec.toInt_bmod_cancel _)
    · exact (ofInt_natCast_of_lt (Nat.lt_of_le_of_lt (Nat.mod_le _ _) a.isLt)).trans rfl

theorem ofInt_min : BitVec.ofInt n (if aluOperand u a ≤ aluOperand u b then aluOperand u a else aluOperand u b) =
    aluBv .min u a b := by
  have hle : (if u then a.ule b else a.sle b) = decide (aluOperand u a ≤ aluOperand u b) := by
    cases u
    · rfl
    · simp [aluOperand, BitVec.ule]
  rw [aluBv, hle, apply_ite (BitVec.ofInt n), ofInt_aluOperand, ofInt_aluOperand]
  simp

theorem ofInt_max : BitVec.ofInt n (if aluOperand u a ≥ aluOperand u b then aluOperand u a else aluOperand u b) =
    aluBv .max u a b := by
  have hle : (if u then b.ule a else b.sle a) = decide (aluOperand u b ≤ aluOperand u a) := by
    cases u
    · rfl
    · simp [aluOperand, BitVec.ule]
  rw [aluBv, hle, apply_ite (BitVec.ofInt n), ofInt_aluOperand, ofInt_aluOperand]
  simp

theorem ofInt_shl (k : Nat) : BitVec.ofInt n (a.toNat * 2 ^ k : Nat) = a <<< k := by
  apply BitVec.eq_of_toNat_eq
  rw [BitVec.ofInt_natCast, BitVec.toNat_ofNat, BitVec.toNat_shiftLeft, Nat.shiftLeft_eq]

theorem ofInt_shr (k : Nat) : BitVec.ofInt n (a.toNat / 2 ^ k : Nat) = a >>> k := by
  rw [ofInt_natCast_of_lt (Nat.lt_of_le_of_lt (Nat.div_le_self _ _) a.isLt)]
  exact BitVec.eq_of_toNat_eq (Nat.shiftRight_eq_div_pow _ _).symm

theorem ofInt_sra (k : Nat) : BitVec.ofInt n (a.toInt / (2 ^ k : Nat)) = a.sshiftRight k := by
  rw [BitVec.sshiftRight_eq, Int.shiftRight_eq_div_pow]

end

/-! ### The model and the manual's formulas -/

section
variable {n : Nat} (a b : Word)

theorem toNat_mod_eq_toNat_truncate : a.toNat % 2 ^ n = (a.truncate n : BitVec n).toNat :=
  (BitVec.toNat_setWidth n a).symm

/-- The low `n` bits of the model's integer are the manual's vector. -/
theorem ofInt_aluInt (op : AluOp) (u : Bool) (hn : 0 < n) (hdvd : n ∣ 2 ^ n) :
    BitVec.ofInt n (aluInt op n (!u) a b) = aluBv op u (a.truncate n) (b.truncate n) := by
  have hcount : b.toNat % n = (b.truncate n : BitVec n).toNat % n := by
    rw [← toNat_mod_eq_toNat_truncate, Nat.mod_mod_of_dvd _ hdvd]
  cases op <;> simp only [aluInt, intOf_word u hn, toNat_mod_eq_toNat_truncate, hcount]
  case add => rw [BitVec.ofInt_add, ofInt_aluOperand, ofInt_aluOperand]; rfl
  case sub =>
    rw [Int.sub_eq_add_neg, BitVec.ofInt_add, BitVec.ofInt_neg, ofInt_aluOperand, ofInt_aluOperand]
    exact (BitVec.sub_eq_add_neg _ _).symm
  case mul => rw [BitVec.ofInt_mul, ofInt_aluOperand, ofInt_aluOperand]; rfl
  case mulh => exact ofInt_mulh u _ _
  case div => exact ofInt_div u _ _
  case rem => exact ofInt_rem u _ _
  case and => rw [← BitVec.toNat_and]; exact ofInt_aluOperand true _
  case or => rw [← BitVec.toNat_or]; exact ofInt_aluOperand true _
  case xor => rw [← BitVec.toNat_xor]; exact ofInt_aluOperand true _
  case shl => exact ofInt_shl _ _
  case shr => exact ofInt_shr _ _
  case sra => exact (congrArg (fun x : Int => BitVec.ofInt n (x / _)) (intOf_word false hn a)).trans (ofInt_sra _ _)
  case min => exact ofInt_min u _ _
  case max => exact ofInt_max u _ _

/-- Table 4.6: the operations that can saturate. -/
def AluOp.saturable : AluOp → Bool
  | .add | .sub | .mul => true
  | _ => false

theorem saturable_of_wellFormed {op : AluOp} {m : AluMode} {sd sa : SReg} {b : Opd}
    (h : (aluInstr op m sd sa b).wellFormed = true) (hs : m.s = true) : op.saturable = true := by
  cases op <;> simp_all [aluInstr, Instr.wellFormed, aluMulhOk, aluShiftOk, aluLogicOk, AluOp.saturable]

theorem aluInt_eq_aluExact {op : AluOp} (hop : op.saturable = true) (u : Bool) (hn : 0 < n) :
    aluInt op n (!u) a b = aluExact op u (a.truncate n : BitVec n) (b.truncate n) := by
  cases op <;> cases hop <;> simp only [aluInt, intOf_word u hn] <;> rfl

theorem intMin_eq (u : Bool) : intMin n (!u) = if u then 0 else -2 ^ (n - 1) := by
  cases u <;> simp [intMin]

theorem intMax_eq (u : Bool) : intMax n (!u) = if u then 2 ^ n - 1 else 2 ^ (n - 1) - 1 := by
  cases u <;> simp [intMax]

/-- What `alu` computes on `n` bits. -/
def aluAt (n : Nat) (op : AluOp) (m : AluMode) (a b : Word) : Word × Bool :=
  let x := aluInt op n (!m.u) a b
  let p := if m.s then clampInt (intMin n (!m.u)) (intMax n (!m.u)) x else (x, false)
  (extBits n m.u (intCode n p.1), p.2)

theorem alu_eq_aluAt (op : AluOp) (m : AluMode) : alu op m a b = aluAt (if m.w then 32 else 64) op m a b := rfl

theorem aluAt_eq_aluBits {op : AluOp} {m : AluMode} (hop : m.s = true → op.saturable = true) (hn : 0 < n) (hdvd : n ∣ 2 ^ n) :
    aluAt n op m a b = (aluExt m.u (aluBits op m.s m.u (a.truncate n : BitVec n) (b.truncate n)).1,
      (aluBits op m.s m.u (a.truncate n : BitVec n) (b.truncate n)).2) := by
  have hres := ofInt_aluInt a b op m.u hn hdvd
  simp only [aluAt, extBits_intCode m.u hn]
  cases hs : m.s
  · simp [aluBits, hres]
  · rw [aluInt_eq_aluExact a b (hop hs) m.u hn] at hres ⊢
    simp only [aluBits, clampInt, intMin_eq, intMax_eq, true_and, if_true, ← hres]
    generalize (if m.u then 0 else -2 ^ (n - 1) : Int) = lo
    generalize (if m.u then 2 ^ n - 1 else 2 ^ (n - 1) - 1 : Int) = hi
    split_ifs <;> rfl

/-- R123: the model computes the manual's results. -/
theorem alu_eq_aluRule {op : AluOp} {m : AluMode} (hop : m.s = true → op.saturable = true) :
    alu op m a b = aluRule op m a b := by
  rw [alu_eq_aluAt, aluRule]
  cases m.w
  · exact (aluAt_eq_aluBits a b hop (by decide) (by decide)).trans (by simp)
  · exact aluAt_eq_aluBits a b hop (by decide) (by decide)

end

/-- Settles O10: an ALU operation writes what `alu` computes, which is the manual's result (`alu_eq_aluRule`). -/
theorem aluResults : Obligations.AluResults := by
  unfold Obligations.AluResults
  intro op m sd sa b s t hwf h
  rw [exec_aluInstr, State.frontTeam_issues _ h, longBytes_aluInstr]
  simp only [Team.aluWrite, alu_eq_aluRule _ _ (saturable_of_wellFormed hwf)]

end Sys2Proof.Machine
end

/-!
O11: counts of bits (R124).
-/

section
namespace Sys2Proof.Machine

theorem clzBits_le (n a : Nat) : clzBits n a ≤ n := by
  fun_induction clzBits n a <;> omega

theorem testBit_above_clzBits {n a i : Nat} (h : i < clzBits n a) : a.testBit (n - 1 - i) = false := by
  induction n generalizing i with
  | zero => exact absurd h (Nat.not_lt_zero i)
  | succ n ih =>
    rw [clzBits] at h
    split at h
    · exact absurd h (Nat.not_lt_zero i)
    · next hbit =>
      cases i with
      | zero => simpa [Nat.testBit_eq_decide_div_mod_eq] using hbit
      | succ i =>
        rw [show n + 1 - 1 - (i + 1) = n - 1 - i by omega]
        exact ih (by omega)

theorem testBit_clzBits {n a : Nat} (h : clzBits n a < n) : a.testBit (n - 1 - clzBits n a) = true := by
  induction n with
  | zero => exact absurd h (Nat.not_lt_zero _)
  | succ n ih =>
    rw [clzBits] at h ⊢
    split
    · next hbit => simpa [Nat.testBit_eq_decide_div_mod_eq] using hbit
    · next hbit =>
      rw [if_neg hbit] at h
      rw [show n + 1 - 1 - (1 + clzBits n a) = n - 1 - clzBits n a by omega]
      exact ih (by omega)

theorem ctzNat_le (n a : Nat) : ctzNat n a ≤ n := by
  fun_induction ctzNat n a <;> omega

theorem testBit_below_ctzNat {n a i : Nat} (h : i < ctzNat n a) : a.testBit i = false := by
  induction n generalizing a i with
  | zero => exact absurd h (Nat.not_lt_zero i)
  | succ n ih =>
    rw [ctzNat] at h
    split at h
    · exact absurd h (Nat.not_lt_zero i)
    · next hbit =>
      cases i with
      | zero => simpa [Nat.testBit_zero] using hbit
      | succ i =>
        rw [Nat.testBit_succ]
        exact ih (by omega)

theorem testBit_ctzNat {n a : Nat} (h : ctzNat n a < n) : a.testBit (ctzNat n a) = true := by
  induction n generalizing a with
  | zero => exact absurd h (Nat.not_lt_zero _)
  | succ n ih =>
    rw [ctzNat] at h ⊢
    split
    · next hbit => simpa [Nat.testBit_zero] using hbit
    · next hbit =>
      rw [if_neg hbit] at h
      rw [Nat.add_comm, Nat.testBit_succ]
      exact ih (by omega)

/-- R124: the model counts the set bits from bit 0 on. -/
theorem popBits_eq (n a : Nat) : popBits n a = (List.range n).countP (fun i => a.testBit i) := by
  induction n generalizing a with
  | zero => rfl
  | succ n ih =>
    rw [popBits, ih, List.range_succ_eq_map, List.countP_cons, List.countP_map, Nat.add_comm]
    congr 1
    · exact List.countP_congr (fun i _ => by simp [Nat.testBit_succ])
    · rcases Nat.mod_two_eq_zero_or_one a with h | h <;> simp [Nat.testBit_zero, h]

theorem isLeadingZeros_clzBits (n : Nat) (a : Word) : IsLeadingZeros n a (clzBits n a.toNat) :=
  ⟨clzBits_le n _, fun _ h => testBit_above_clzBits h, fun h => testBit_clzBits h⟩

theorem isTrailingZeros_ctzNat (n : Nat) (a : Word) : IsTrailingZeros n a (ctzNat n a.toNat) :=
  ⟨ctzNat_le n _, fun _ h => testBit_below_ctzNat h, fun h => testBit_ctzNat h⟩

theorem popBits_eq_setBitsOf (n : Nat) (a : Word) : popBits n a.toNat = setBitsOf n a := by
  rw [popBits_eq, setBitsOf, List.countP_eq_length_filter]
  rfl

/-- Settles O11: the model's three counts are the manual's (`isLeadingZeros_clzBits`, `isTrailingZeros_ctzNat`,
`popBits_eq_setBitsOf`). -/
theorem countResults : Obligations.CountResults := by
  unfold Obligations.CountResults
  intro w sd sa s t hi
  refine ⟨fun hw => ⟨_, isLeadingZeros_clzBits _ _, State.frontTeam_issues _ ⟨hi, hw⟩⟩,
    fun hw => ⟨_, isTrailingZeros_ctzNat _ _, State.frontTeam_issues _ ⟨hi, hw⟩⟩, fun hw => ?_⟩
  rw [← popBits_eq_setBitsOf]
  exact State.frontTeam_issues _ ⟨hi, hw⟩

end Sys2Proof.Machine
end

/-!
Scalar memory accesses (R118, R130, R131).
-/

section
namespace Sys2Proof.Machine

section
variable {s : State} {t : Team}

/-! ### Loads (R130) -/

/-- R130: the model extends a loaded value as the manual says. -/
theorem extendLoad_eq_loadRule (z : BitVec 2) (u : Bool) (bs : List Byte) :
    extendLoad z u (bytesToNat bs) = loadRule z u bs := by
  cases u
  · exact congrArg (BitVec.ofInt 64) (intOf_eq_aluOperand false (by positivity) (bytesToNat bs))
  · exact (congrArg (BitVec.ofNat 64) (BitVec.toNat_ofNat _ _).symm).trans (BitVec.ofNat_toNat 64 _)

theorem State.loadValue_eq (ks : List Nat) (z : BitVec 2) (u : Bool) :
    s.loadValue t ks z u = loadRule z u (s.loadBytes t ks).1 :=
  extendLoad_eq_loadRule z u _

/-- An unaligned scalar access has no keys: it is an alignment fault at its address, before anything else (log 115). -/
theorem State.scalarKeys_unaligned {acc : Access} {path : Path} {a : Word} {n : Nat} (h : a.toNat % n ≠ 0) :
    s.scalarKeys t acc path a n = failAt 0x03 path a :=
  if_pos h

theorem State.loadKeys_unaligned {a : Word} {n : Nat} (h : a.toNat % n ≠ 0) : s.loadKeys t a n = failAt 0x03 .team a := by
  rw [State.loadKeys, State.scalarKeys_unaligned h]
  rfl

theorem exec_ld (z : BitVec 2) (u : Bool) (sd sa : SReg) (b : Opd) (s : State) :
    exec (.ld z u sd sa b) s = execLd z u sd sa b s := rfl

end

/-- Settles O22: by whether the access has keys. -/
theorem loadResult : Obligations.LoadResult := by
  unfold Obligations.LoadResult
  intro z u sd sa b s t h
  rw [exec_ld]
  refine ⟨fun ks hk => State.front_done h ?_, fun ha => State.front_fail h ?_⟩
  · rw [hk, ← State.loadValue_eq]
    rfl
  · rw [State.loadKeys_unaligned ha]
    rfl

/-! ### First-fault loads (R131) -/

section
variable {s : State} {t : Team} {a : Word} {size : Nat}

/-- R131: no element of a run has an address that faults. -/
theorem State.probe_clean (n : Nat) : ∀ {i : Nat},
    (∀ j, i ≤ j → j < i + n → ∃ k, s.xlateScalar t .read (a + BitVec.ofNat 64 (j * size)) = .ok k) →
    s.probe t a size n i = .ok none := by
  induction n with
  | zero => exact fun _ => rfl
  | succ n ih =>
    intro i h
    obtain ⟨k, hk⟩ := h i (Nat.le_refl i) (by omega)
    rw [State.probe, hk]
    exact ih (fun j hj hj' => h j (by omega) (by omega))

/-- R131: the first element of a run whose address faults is what the probe finds. -/
theorem State.probe_stops {m p : Nat} {kind : BitVec 8} {q : BitVec 3}
    (hm : s.xlateScalar t .read (a + BitVec.ofNat 64 (m * size)) = .fault kind p q) (n : Nat) : ∀ {i : Nat},
    i ≤ m → m < i + n → (∀ j, i ≤ j → j < m → ∃ k, s.xlateScalar t .read (a + BitVec.ofNat 64 (j * size)) = .ok k) →
    s.probe t a size n i = .ok (some (m, kind)) := by
  induction n with
  | zero => intro i hi hlt; omega
  | succ n ih =>
    intro i hi hlt h
    rw [State.probe]
    by_cases him : i = m
    · rw [him, hm]
    · obtain ⟨k, hk⟩ := h i (Nat.le_refl i) (by omega)
      rw [hk]
      exact ih (by omega) (by omega) (fun j hj hj' => h j (by omega) hj')

theorem exec_ldff (z : BitVec 2) (u : Bool) (sd sa : SReg) (b : Opd) (s : State) :
    exec (.ldff z u sd sa b) s = execLdff z u sd sa b s := rfl

/-- R131: with rows, LDFF loads its first element and leaves EXT and FSR as the probe of the others tells. -/
theorem exec_ldff_loads {z : BitVec 2} {u : Bool} {sd sa : SReg} {b : Opd} {ks : List Nat} {stop : Option (Nat × BitVec 8)}
    (h : s.Issues t (.ldff z u sd sa b)) (hext : t.ext ≠ 0)
    (hk : s.loadKeys t (t.rs sa + t.opd b) (2 ^ z.toNat) = .ok ks)
    (hp : s.probe t (t.rs sa + t.opd b) (2 ^ z.toNat) (t.ext.toNat - 1) 1 = .ok stop) :
    exec (.ldff z u sd sa b) s = .next ((s.rackKeys ks).modTeam t.uid (fun v =>
      ((v.wrS sd (loadRule z u (s.loadBytes t ks).1)).ldffEnd stop).advance 8)) := by
  rw [exec_ldff, ← State.loadValue_eq]
  refine State.front_done h ((if_neg hext).trans ?_)
  rw [hk]
  simp only [chkRun]
  rw [hp]

end

/-- Settles O23: what the probe finds is `State.probe_clean` and `State.probe_stops`. -/
theorem firstFaultLoad : Obligations.FirstFaultLoad := by
  unfold Obligations.FirstFaultLoad
  intro z u sd sa b s t h
  refine ⟨fun hext => ?empty, fun ks hext hk hall => ?clean, fun ks n kind p q hext hk hn hlt hall hf => ?stops⟩
  case empty =>
    rw [exec_ldff]
    exact State.front_done h (if_pos hext)
  case clean => exact exec_ldff_loads h hext hk (State.probe_clean _ (fun j hj hj' => hall j hj (by omega)))
  case stops => exact exec_ldff_loads h hext hk (State.probe_stops hf _ hn (by omega) hall)

/-! ### Stores (R118, R130) -/

/-- The bytes of a number are its slices. -/
theorem natToBytes_eq_map (n x : Nat) : natToBytes n x = (List.range n).map (fun i => BitVec.ofNat 8 (x >>> (8 * i))) := by
  induction n generalizing x with
  | zero => rfl
  | succ n ih =>
    rw [natToBytes, ih, List.range_succ_eq_map, List.map_cons, List.map_map]
    refine congrArg₂ List.cons rfl (List.map_congr_left (fun i _ => ?_))
    have hshift : (x / 256) >>> (8 * i) = x >>> (8 * (i + 1)) := by
      rw [Nat.mul_add, Nat.add_comm, Nat.shiftRight_add, Nat.shiftRight_eq_div_pow x]
    exact congrArg (BitVec.ofNat 8) hshift

section
variable {s : State} {t : Team}

theorem Team.keepLate_empty (h : t.tiq = []) (n : Nat) (w : UndoWhat) : t.keepLate n w = t := by
  simp [Team.keepLate, Team.behindOpen, h]

theorem exec_st (z : BitVec 2) (sd sa : SReg) (b : Opd) (s : State) : exec (.st z sd sa b) s = execSt z sd sa b s := rfl

/-- R130: a store whose access has keys puts the low bytes of its register there, at once or in the store buffer. -/
theorem exec_st_puts {z : BitVec 2} {sd sa : SReg} {b : Opd} {ks : List Nat} (h : s.Issues t (.st z sd sa b))
    (hk : s.scalarKeys t .write .team (t.rs sa + t.opd b) (2 ^ z.toNat) = .ok ks) :
    exec (.st z sd sa b) s = .next ((s.putStore t
      (ks.zip ((List.range (2 ^ z.toNat)).map (fun i => (t.rs sd).extractLsb' (8 * i) 8)))).advance t.uid 8) := by
  rw [exec_st]
  refine State.front_done h ?_
  rw [hk]
  simp only [chkRun, natToBytes_eq_map]
  rfl

theorem State.putStore_now {cells : List Host.Cell} (hc : t.clear = true) (hp : t.pairing = none) :
    s.putStore t cells = (s.store t.uid .team cells).modTeam t.uid (fun u => u.keepLate t.wordSeq (.write s.nextId)) := by
  simp only [State.putStore, hc, hp, Option.isNone_none, Bool.and_self, if_true, State.storeAt, Team.seqHere_unpaired hp]

theorem State.putStore_held {cells : List Host.Cell} (h : t.clear = false ∨ t.pairing.isSome = true) :
    s.putStore t cells = s.modTeam t.uid (fun u => { u with sbuf := u.sbuf ++ [⟨t.seqHere, cells⟩] }) := by
  refine if_neg (fun hc => ?_)
  rcases h with h | h <;> simp_all

theorem exec_storePerform (gid : Gid) (s : State) : exec (.storePerform gid) s = execStorePerform gid s := rfl

/-- A step of the team that stands at a global id. -/
theorem State.atTeam_at {gid : Gid} (h : s.At gid t) (f : Team → State) : s.atTeam gid f = .next (f t) := by
  rw [State.atTeam, h.1]

/-- R118: of held stores in program order, the oldest alone stands before its successor's place. -/
theorem filter_oldest {h : HeldStore} {hs : List HeldStore} (hord : ∀ x ∈ hs, h.seq < x.seq) :
    (h :: hs).filter (fun x => decide (x.seq < h.seq + 1)) = [h] ∧
    (h :: hs).filter (fun x => decide (h.seq + 1 ≤ x.seq)) = hs := by
  constructor
  · rw [List.filter_cons_of_pos (by simp), List.filter_eq_nil_iff.mpr (fun x hx => by simpa using hord x hx)]
  · rw [List.filter_cons_of_neg (by simp), List.filter_eq_self]
    exact fun x hx => decide_eq_true (hord x hx)

theorem State.performStores_oldest {h : HeldStore} {hs : List HeldStore} (ht : s.team? t.uid = some t)
    (hsb : t.sbuf = h :: hs) (hord : ∀ x ∈ hs, h.seq < x.seq) :
    s.performStores t.uid (h.seq + 1) = (s.putTeam { t with sbuf := hs }).storeAt t.uid h.seq h.cells := by
  obtain ⟨hgo, hstay⟩ := filter_oldest hord
  simp only [State.performStores, ht, hsb, hgo, hstay, performHeld]

end

/-- Settles O24: by where the store goes, and `State.performStores_oldest` for one that was held. -/
theorem storeResult : Obligations.StoreResult := by
  unfold Obligations.StoreResult
  intro z sd sa b s t
  refine ⟨fun h => ⟨fun ks hk => ?keys, fun ha => ?unaligned⟩, fun h hs hat hsb hlt hord => ?perform⟩
  case keys =>
    rw [exec_st_puts h hk]
    exact ⟨fun hc hp => by rw [State.putStore_now hc hp], fun hq n w => Team.keepLate_empty hq n w,
      fun hwait => by rw [State.putStore_held hwait]⟩
  case unaligned =>
    rw [exec_st]
    refine State.front_fail h ?_
    rw [State.scalarKeys_unaligned ha]
    rfl
  case perform =>
    rw [exec_storePerform, execStorePerform, State.atTeam_at hat, hsb]
    simp only [if_pos hlt]
    rw [State.performStores_oldest hat.2 hsb hord]
    rfl

end Sys2Proof.Machine
end

/-!
Services (R62, R138, R139, R252): EXIT, SHAPE.SET and SHAPE.INV, YIELD.DONE, unassigned numbers.
-/

section
namespace Sys2Proof.Machine

/-! ### Teams that leave -/

theorem State.team?_dropTeam (s : State) (uid : Nat) : (s.dropTeam uid).team? uid = none := by
  simp [State.team?, State.dropTeam]

/-- R138: a team that leaves is no longer placed. -/
theorem State.team?_leave (s : State) (t : Team) (pub : Nat) : (s.leave t pub).team? t.uid = none := by
  simp only [State.leave]
  split <;> split <;> exact State.team?_dropTeam s t.uid

theorem exec_exit (sd : SReg) (s : State) : exec (.exit sd) s = execExit sd s := rfl

/-- Settles O26: a team without a family leaves at its last boundary; any other is refused before it. -/
theorem exitLeaves : Obligations.ExitLeaves := by
  unfold Obligations.ExitLeaves
  intro sd s t h
  rw [exec_exit]
  refine ⟨fun hpar hkids hclears => ?alone, fun hfam => State.front_fail h ?family, fun s0 b => State.team?_leave s0 t b⟩
  case alone =>
    refine State.front_done h ((if_neg (by simp [hpar, hkids])).trans (if_neg ?_))
    rw [State.Clears] at hclears
    simp [hclears]
  case family =>
    refine if_pos ?_
    rcases hfam with hp | hk
    · simp [hp]
    · simp [hk]

/-! ### Services that return a status -/

section
variable {s : State} {t : Team} {sd : SReg}

theorem exec_shapeSet (sd : SReg) (s : State) : exec (.shapeSet sd) s = execShapeSet sd s := rfl
theorem exec_shapeInv (sd : SReg) (s : State) : exec (.shapeInv sd) s = execShapeInv sd s := rfl
theorem exec_yieldDone (sd : SReg) (s : State) : exec (.yieldDone sd) s = execYieldDone sd s := rfl
theorem exec_svcUnassigned (sd : SReg) (n : BitVec 16) (s : State) :
    exec (.svcUnassigned sd n) s = execSvcUnassigned sd n s := rfl

/-- R139: handles are 1 to 65,535. -/
theorem badHandle_iff {h : Word} : (decide (h = 0) || h.extractLsb' 16 48 != 0) = true ↔ h = 0 ∨ h.extractLsb' 16 48 ≠ 0 := by
  simp

theorem not_badHandle {h : Word} (hz : h ≠ 0) (hh : h.extractLsb' 16 48 = 0) :
    ¬(decide (h = 0) || h.extractLsb' 16 48 != 0) = true := mt badHandle_iff.mp (not_or.mpr ⟨hz, not_not.mpr hh⟩)

/-- R62: an accepted image enters the object table; a refused one leaves it alone, and its status is returned. -/
theorem exec_shapeSet_image {ks : List Nat} (h : s.Issues t (.shapeSet sd)) (hz : t.rs 1 ≠ 0)
    (hh : (t.rs 1).extractLsb' 16 48 = 0) (hk : s.svcKeys t .read (t.rs 2) 64 = .ok (some ks)) :
    exec (.shapeSet sd) s = .next
      ((if shapeStatus (shapeOf (s.loadBytes t ks).1) t.split = 0
        then (s.loadBytes t ks).2.putShape t.pkg t.ctx t.uid t.gid ((t.rs 1).truncate 16) (shapeOf (s.loadBytes t ks).1)
        else (s.loadBytes t ks).2).modTeam t.uid (fun u =>
          (u.wrS sd (shapeStatus (shapeOf (s.loadBytes t ks).1) t.split)).advance 8)) := by
  rw [exec_shapeSet]
  refine State.front_done h ((if_neg (not_badHandle hz hh)).trans ?_)
  rw [hk]
  by_cases hst : shapeStatus (shapeOf (s.loadBytes t ks).1) t.split = 0
  · simp only [chkRun, hst, if_true]
    rfl
  · simp only [chkRun, hst, if_false]
    rfl

/-- A record with V cleared keeps every other bit. -/
theorem Shape.clearV_keeps (d : Shape) : d.clearV.valid = false ∧ d.clearV = { d with d1 := d.clearV.d1 } ∧
    ∀ b, b < 63 → d.clearV.d1.getLsbD b = d.d1.getLsbD b := by
  refine ⟨?_, rfl, fun b hb => ?_⟩
  · simp [Shape.valid, Shape.clearV]
  · simp [Shape.clearV, Nat.ne_of_lt hb, Nat.lt_succ_of_lt hb]

end

/-- Settles O27: SHAPE.SET by `exec_shapeSet_image`, SHAPE.INV by `Shape.clearV_keeps`, the others by their own tests. -/
theorem shapeServices : Obligations.ShapeServices := by
  unfold Obligations.ShapeServices
  intro sd n s t c hi
  refine ⟨fun hw hbad => ?badHandle, fun ks hw hz hh hk => exec_shapeSet_image ⟨hi, hw⟩ hz hh hk,
    fun hw hz hh hc => ?inv, fun hw hp => ?noRequest, fun hw hp hlt => ?yields, fun hw hp hle => ?expired, fun hw => ?unassigned⟩
  case badHandle =>
    rw [exec_shapeSet]
    exact State.front_done ⟨hi, hw⟩ (if_pos (badHandle_iff.mpr hbad))
  case inv =>
    obtain ⟨hvalid, hrest, hbits⟩ := Shape.clearV_keeps (kget Shape.zero c.obj (t.rs 1).toNat)
    refine ⟨_, hvalid, hrest, hbits, ?_⟩
    rw [exec_shapeInv]
    refine State.front_done ⟨hi, hw⟩ ((if_neg (not_badHandle hz hh)).trans ?_)
    rw [hc]
    rfl
  case noRequest =>
    rw [exec_yieldDone]
    exact State.front_done ⟨hi, hw⟩ ((if_neg (by simp [hp])).trans (if_neg (by simp [hp])))
  case yields =>
    rw [exec_yieldDone]
    exact State.front_done ⟨hi, hw⟩ ((if_neg (by simp [hp, Nat.not_le.mpr hlt])).trans (if_pos hp))
  case expired =>
    rw [exec_yieldDone]
    exact State.front_stall ⟨hi, hw⟩ (if_pos (by simp [hp, hle]))
  case unassigned =>
    rw [exec_svcUnassigned]
    exact State.front_done ⟨hi, hw⟩ rfl

end Sys2Proof.Machine
end

/-!
O54: held faults, fault records and resolutions, walks and pre-emption (R116, R226 to R228, R273, R389).
-/

section
namespace Sys2Proof.Machine

section
variable {s : State} {t : Team} {pkg : PkgNo} {ctx : CtxId} {c : Ctx}

theorem State.team?_suspend (s : State) (uid : Nat) (kind : SaveKind) : (s.suspend uid kind).team? uid = none := by
  cases h : s.team? uid with
  | none => simp only [State.suspend, h]
  | some t =>
    simp only [State.suspend, h]
    exact State.team?_dropTeam s uid

/-- R227: a forced save takes the team off its core. -/
theorem State.team?_forceSave (s : State) (uid : Nat) : (s.forceSave uid).team? uid = none := by
  cases h : (s.finishDue uid).team? uid with
  | none => simp only [State.forceSave, h]
  | some t =>
    simp only [State.forceSave, h]
    exact State.team?_suspend _ uid _

/-- R116: the held fault of a team with nothing uncertain before it is taken. -/
theorem State.takeHeld_clear {h : HeldFault} (ht : s.team? t.uid = some t) (hh : t.heldFault = some h) (hc : t.clear = true) :
    s.takeHeld t.uid = s.takeFault t.uid h := by
  simp only [State.takeHeld, ht, hh, hc]

theorem exec_fault (gid : Gid) (s : State) : exec (.fault gid) s = execFault gid s := rfl
theorem exec_faultRecordPost (pkg : PkgNo) (ctx : CtxId) (s : State) :
    exec (.faultRecordPost pkg ctx) s = execFaultRecordPost pkg ctx s := rfl
theorem exec_faultCompletion (pkg : PkgNo) (ctx : CtxId) (seq : BitVec 32) (s : State) :
    exec (.faultCompletion pkg ctx seq) s = execFaultCompletion pkg ctx seq s := rfl
theorem exec_walkTimeout (gid : Gid) (s : State) : exec (.walkTimeout gid) s = execWalkTimeout gid s := rfl
theorem exec_preemptionRequest (gid : Gid) (s : State) :
    exec (.preemptionRequest gid) s = execPreemptionRequest gid s := rfl
theorem exec_preemptionWithdrawal (gid : Gid) (s : State) :
    exec (.preemptionWithdrawal gid) s = execPreemptionWithdrawal gid s := rfl
theorem exec_forcedSave (gid : Gid) (s : State) : exec (.forcedSave gid) s = execForcedSave gid s := rfl
theorem exec_resumption (uid : Nat) (g : Gid) (s : State) : exec (.resumption uid g) s = execResumption uid g s := rfl

/-- R239, R374: a saved team that may come back does, unless its launch is a gang, which returns in its slices. -/
theorem exec_resumption_resumes {x : SavedTeam} {g : Gid}
    (hx : s.saved.find? (fun y => y.team.uid == x.team.uid) = some x) (hmay : s.mayResume x g = true)
    (hgang : ∀ l, s.launch? x.team.launch = some l → l.isGang = false) :
    exec (.resumption x.team.uid g) s = .next (s.resume x g) := by
  rw [exec_resumption, execResumption, hx]
  cases hl : s.launch? x.team.launch with
  | none => simp only [hl, hmay, Bool.not_false, Bool.and_self, if_true]
  | some l => simp only [hl, hgang l hl, hmay, Bool.not_false, Bool.and_self, if_true]

end

/-- Settles O54, clause by clause. -/
theorem faultsAndPreemption : Obligations.FaultsAndPreemption := by
  unfold Obligations.FaultsAndPreemption
  intro s t h pkg ctx seq c f rest x st g
  refine ⟨fun hat hh hc => ?held, fun hc hf => ?post, fun hc hx => ?completion, fun hat htw hw => ?frontWalk,
    fun hat htw => ?tileWalk, fun hat hp => ?request, fun hat => ?withdrawal,
    fun hat hp hle => ⟨?save, State.team?_forceSave s t.uid⟩, exec_resumption_resumes⟩
  case held => rw [exec_fault, execFault, State.atTeam_at hat, State.takeHeld_clear hat.2 hh hc]
  case post =>
    intro y hroom
    rw [exec_faultRecordPost, execFaultRecordPost, hc]
    simp only [hf]
    exact if_neg (by simp [y, hroom])
  case completion => simp only [exec_faultCompletion, execFaultCompletion, hc, hx]
  case frontWalk =>
    rw [exec_walkTimeout, execWalkTimeout, State.atTeam_at hat, Team.walkStart, htw, hw]
    rfl
  case tileWalk =>
    rw [exec_walkTimeout, execWalkTimeout, State.atTeam_at hat, Team.walkStart, htw]
    rfl
  case request =>
    rw [exec_preemptionRequest, execPreemptionRequest, State.atTeam_at hat, if_neg (by simp [hp])]
  case withdrawal => rw [exec_preemptionWithdrawal, execPreemptionWithdrawal, State.atTeam_at hat]
  case save =>
    rw [exec_forcedSave, execForcedSave, State.atTeam_at hat, if_pos (by simp [hp, hle])]

end Sys2Proof.Machine
end

/-!
O60: what reset and a placement leave (R106, Table 4.1).
-/

section
namespace Sys2Proof.Machine

theorem State.reset_inv : State.reset.Inv := ⟨rfl, List.nodup_nil, fun _ h => nomatch h⟩

section
variable (s : State) (l : Launch) (inst uid : Nat) (gid : Gid) (path : List Nat) (ordinal : Nat)

/-- R106: s1 names the argument block, every other scalar register is 0. -/
theorem State.rs_newTeam (r : SReg) : (s.newTeam l inst uid gid path ordinal).rs r =
    if r = 1 then BitVec.ofNat 64 (recArgs l.record + inst * recStride l.record) else 0 := by
  have hs : (s.newTeam l inst uid gid path ordinal).s =
      (Vector.replicate 32 0).set 1 (BitVec.ofNat 64 (recArgs l.record + inst * recStride l.record)) := rfl
  by_cases h1 : r = 1
  · rw [if_pos h1, h1, Team.rs, if_neg (by decide), hs]
    exact Vector.getElem_set_self _
  · rw [if_neg h1, Team.rs, hs]
    refine (ite_congr rfl (fun _ => rfl) (fun _ => ?_)).trans (ite_self 0)
    have hne : 1 ≠ r.toFin.val := fun e => h1 (BitVec.eq_of_toNat_eq e.symm)
    exact (Vector.getElem_set_ne _ _ hne).trans (Vector.getElem_replicate _)

theorem State.rg_newTeam {k : GReg} (h : k ≠ 0) : (s.newTeam l inst uid gid path ordinal).rg k = false := by
  have hg : (s.newTeam l inst uid gid path ordinal).g = 1 := rfl
  rw [Team.rg, if_neg h, hg]
  revert h
  revert k
  decide

theorem State.sprRead_newTeam {n : BitVec 5} (h : n.toNat ≤ 10) :
    s.sprRead (s.newTeam l inst uid gid path ordinal) n = 0 := by
  have hcyc : s.cyc (s.newTeam l inst uid gid path ordinal) = 0 := BitVec.sub_self _
  interval_cases hn : n.toNat <;> simp only [State.sprRead, hn, hcyc] <;> rfl

end

/-- Settles O60: reset's state is listed in full, and so is a new team's. -/
theorem resetState : Obligations.ResetState := by
  unfold Obligations.ResetState
  refine ⟨⟨State.reset_inv, rfl, rfl, rfl, rfl, rfl, rfl, rfl⟩, fun s l inst uid gid path ordinal => ?_⟩
  refine ⟨rfl, ?s1, fun r hr => ?s, rfl, fun k hk => State.rg_newTeam s l inst uid gid path ordinal hk,
    fun n hn => State.sprRead_newTeam s l inst uid gid path ordinal hn, fun x => ?tiles, fun i => ?streams, fun x => ?acc,
    fun i r => ?scale, rfl, rfl, rfl, rfl, rfl⟩
  case s1 => rw [State.rs_newTeam, if_pos rfl]
  case s => rw [State.rs_newTeam, if_neg hr]
  case tiles => exact Vector.getElem_replicate _
  case streams => exact Vector.getElem_replicate _
  case acc =>
    have hinit : (s.newTeam l inst uid gid path ordinal).accOf x = Acc.init := Vector.getElem_replicate _
    rw [hinit]
    exact ⟨rfl, fun _ _ => rfl⟩
  case scale =>
    have hinit : (s.newTeam l inst uid gid path ordinal).scale.get i = ScaleReg.init := Vector.getElem_replicate _
    rw [hinit]
    exact ⟨rfl, rfl⟩

end Sys2Proof.Machine
end

/-!
O16: the frame of the scalar instructions that touch only registers.
-/

section
namespace Sys2Proof.Machine

/-! ### Two stages of a team that differ in the front's registers alone -/

/-- `u` is `t` but for the front's place, its scalar registers, guards, SATF and their history. -/
def Team.SameButRegs (t u : Team) : Prop :=
  u = { t with pc := u.pc, wordSeq := u.wordSeq, wait := u.wait, hist := u.hist, late := u.late, s := u.s, g := u.g,
               satf := u.satf }

section
variable {t u v : Team}

theorem Team.SameButRegs.trans (h : t.SameButRegs u) (k : u.SameButRegs v) : t.SameButRegs v := by
  rw [Team.SameButRegs] at h k ⊢
  rw [k, h]

theorem Team.SameButRegs.uid (h : t.SameButRegs u) : u.uid = t.uid := by
  rw [Team.SameButRegs] at h
  exact (congrArg Team.uid h :)

theorem Team.sameButRegs_keepLate (t : Team) (n : Nat) (w : UndoWhat) : t.SameButRegs (t.keepLate n w) := by
  unfold Team.keepLate
  split <;> rfl

theorem Team.sameButRegs_log (t : Team) (w : UndoWhat) : t.SameButRegs (t.log w) := by
  unfold Team.log
  split
  · rfl
  · exact t.sameButRegs_keepLate _ w

theorem Team.sameButRegs_wrS (t : Team) (r : SReg) (x : Word) : t.SameButRegs (t.wrS r x) := by
  unfold Team.wrS
  split
  · rfl
  · exact (t.sameButRegs_log _).trans rfl

theorem Team.sameButRegs_wrG (t : Team) (k : GReg) (b : Bool) : t.SameButRegs (t.wrG k b) := by
  unfold Team.wrG
  split
  · rfl
  · exact (t.sameButRegs_log _).trans rfl

theorem Team.sameButRegs_setSat (t : Team) : t.SameButRegs t.setSat := by
  unfold Team.setSat
  split
  · rfl
  · exact (t.sameButRegs_keepLate _ _).trans rfl

theorem Team.sameButRegs_advance (t : Team) (n : Nat) : t.SameButRegs (t.advance n) := rfl

end

/-! ### What such an instruction writes -/

/-- `u` is the team `t` with what the instruction `i` may write: nothing, its scalar destination and, where it saturates, SATF,
or its guard. -/
inductive Team.Wrote (t : Team) (i : Instr) : Team → Prop where
  | nothing : t.Wrote i t
  | sreg {r : SReg} (x : Word) (h : i.destS = some r) : t.Wrote i (t.wrS r x)
  | sat {r : SReg} (x : Word) (h : i.destS = some r) (hs : i.saturates = true) : t.Wrote i (t.wrS r x).setSat
  | greg {k : GReg} (b : Bool) (h : i.destG = some k) : t.Wrote i (t.wrG k b)

section
variable {t u : Team} {i : Instr}

theorem Team.Wrote.sameButRegs (h : t.Wrote i u) : t.SameButRegs u := by
  cases h with
  | nothing => rfl
  | sreg x _ => exact t.sameButRegs_wrS _ x
  | sat x _ _ => exact (t.sameButRegs_wrS _ x).trans (Team.sameButRegs_setSat _)
  | greg b _ => exact t.sameButRegs_wrG _ b

theorem Team.Wrote.rs (h : t.Wrote i u) {r : SReg} (hr : i.destS ≠ some r) : u.rs r = t.rs r := by
  cases h with
  | nothing => rfl
  | sreg x hd => exact Team.rs_wrS_of_ne t (fun e => hr (hd.trans (congrArg some e.symm))) x
  | sat x hd _ => exact (Team.rs_congr (Team.setSat_s _) r).trans (Team.rs_wrS_of_ne t (fun e => hr (hd.trans (congrArg some e.symm))) x)
  | greg b _ => exact Team.rs_congr (t.wrG_s _ b) r

theorem Team.rg_congr (h : u.g = t.g) (k : GReg) : u.rg k = t.rg k := by
  simp only [Team.rg, h]

theorem getLsbD_setBit_of_ne {w : Nat} (x : BitVec w) {j k : Nat} (h : j ≠ k) (b : Bool) :
    (setBit x k b).getLsbD j = x.getLsbD j := by
  by_cases hj : j < w
  · cases b <;> simp [setBit, hj, h]
  · rw [BitVec.getLsbD_of_ge _ _ (Nat.le_of_not_lt hj), BitVec.getLsbD_of_ge _ _ (Nat.le_of_not_lt hj)]

theorem Team.rg_wrG_of_ne (t : Team) {k j : GReg} (h : j ≠ k) (b : Bool) : (t.wrG k b).rg j = t.rg j := by
  by_cases hk : k = 0
  · rw [Team.wrG, if_pos hk]
  · simp only [Team.rg, Team.wrG_g t hk]
    exact ite_congr rfl (fun _ => rfl) (fun _ => getLsbD_setBit_of_ne t.g (fun e => h (BitVec.eq_of_toNat_eq e)) b)

theorem Team.Wrote.rg (h : t.Wrote i u) {k : GReg} (hk : i.destG ≠ some k) : u.rg k = t.rg k := by
  cases h with
  | nothing => rfl
  | sreg x _ => exact Team.rg_congr (t.wrS_g _ x) k
  | sat x _ _ => exact Team.rg_congr ((Team.setSat_g _).trans (t.wrS_g _ x)) k
  | greg b hd => exact Team.rg_wrG_of_ne t (fun e => hk (hd.trans (congrArg some e.symm))) b

theorem Team.Wrote.satf (h : t.Wrote i u) (hs : i.saturates = false) : u.satf = t.satf := by
  cases h with
  | nothing => rfl
  | sreg x _ => exact t.wrS_satf _ x
  | sat x _ hs' => exact absurd (hs.symm.trans hs') Bool.false_ne_true
  | greg b _ => exact t.wrG_satf _ b

end

/-! ### The instructions -/

section
variable {s : State} {t : Team}

/-- R123: only a mode that saturates sets SATF. -/
theorem saturates_of_alu {op : AluOp} {m : AluMode} {sd sa : SReg} {b : Opd} {x y : Word}
    (hwf : (aluInstr op m sd sa b).wellFormed = true) (h : (alu op m x y).2 = true) :
    (aluInstr op m sd sa b).saturates = true := by
  have hs : m.s = true := by
    by_contra hn
    simp [alu, hn] at h
  have hop := saturable_of_wellFormed hwf hs
  cases op <;> cases hop <;> exact hs

theorem destS_aluInstr (op : AluOp) (m : AluMode) (sd sa : SReg) (b : Opd) : (aluInstr op m sd sa b).destS = some sd := by
  cases op <;> rfl

theorem Team.wrote_aluWrite {op : AluOp} {m : AluMode} {sd sa : SReg} {b : Opd}
    (hwf : (aluInstr op m sd sa b).wellFormed = true) : t.Wrote (aluInstr op m sd sa b) (t.aluWrite op m sd sa b) := by
  simp only [Team.aluWrite]
  split
  · next hsat => exact .sat _ (destS_aluInstr op m sd sa b) (saturates_of_alu hwf hsat)
  · exact .sreg _ (destS_aluInstr op m sd sa b)

/-- A front instruction that changes the team alone leaves what its work has written, past the word. -/
theorem State.frontTeam_wrote {i : Instr} {f : Team → Team} (h : s.Issues t i) (hf : t.Wrote i (f t)) :
    ∃ u n, s.frontTeam i f = .next (s.putTeam (u.advance n)) ∧ t.Wrote i u :=
  ⟨f t, i.longBytes, State.frontTeam_issues f h, hf⟩

theorem exec_aluInstr_wrote (op : AluOp) {m : AluMode} {sd sa : SReg} {b : Opd} (h : s.Issues t (aluInstr op m sd sa b))
    (hwf : (aluInstr op m sd sa b).wellFormed = true) :
    ∃ u n, exec (aluInstr op m sd sa b) s = .next (s.putTeam (u.advance n)) ∧ t.Wrote (aluInstr op m sd sa b) u := by
  rw [exec_aluInstr]
  exact State.frontTeam_wrote h (Team.wrote_aluWrite hwf)

/-- R120 to R129, R136, R280, R281: what an instruction that touches only registers can do. -/
theorem exec_registerOnly {i : Instr} (h : s.Issues t i) (hi : i.registerOnly = true) (hwf : i.wellFormed = true) :
    ∃ u n, exec i s = .next (s.putTeam (u.advance n)) ∧ t.Wrote i u := by
  cases i with
  | add => exact exec_aluInstr_wrote .add h hwf
  | sub => exact exec_aluInstr_wrote .sub h hwf
  | mul => exact exec_aluInstr_wrote .mul h hwf
  | mulh => exact exec_aluInstr_wrote .mulh h hwf
  | div => exact exec_aluInstr_wrote .div h hwf
  | rem => exact exec_aluInstr_wrote .rem h hwf
  | and => exact exec_aluInstr_wrote .and h hwf
  | or => exact exec_aluInstr_wrote .or h hwf
  | xor => exact exec_aluInstr_wrote .xor h hwf
  | shl => exact exec_aluInstr_wrote .shl h hwf
  | shr => exact exec_aluInstr_wrote .shr h hwf
  | sra => exact exec_aluInstr_wrote .sra h hwf
  | min => exact exec_aluInstr_wrote .min h hwf
  | max => exact exec_aluInstr_wrote .max h hwf
  | clz | ctz | popc | sel | lea | li | liX | lih | mfs | winq => exact State.frontTeam_wrote h (.sreg _ rfl)
  | cmp | gop => exact State.frontTeam_wrote h (.greg _ rfl)
  | nop | hint | pref | evict => exact State.frontTeam_wrote h .nothing
  | _ => cases hi

/-! ### The rest of the state -/

theorem State.team?_putTeam_of_ne (s : State) {w : Team} {v : Nat} (h : v ≠ w.uid) : (s.putTeam w).team? v = s.team? v := by
  have hother : ∀ u : Team, u.uid = v → (if u.uid == w.uid then w else u) = u := fun u hu =>
    if_neg (by simp [hu, h])
  have hname : ((fun u : Team => u.uid == v) ∘ fun u => if u.uid == w.uid then w else u) = fun u => u.uid == v := by
    funext u
    by_cases hu : u.uid = w.uid
    · simp [hu]
    · simp [hu]
  rw [State.team?, State.team?, State.putTeam, List.find?_map, hname]
  cases hfind : s.teams.find? (fun u => u.uid == v) with
  | none => rfl
  | some u => exact congrArg some (hother u (by simpa using List.find?_some hfind))

end

/-- Settles O16: what the instruction writes is `exec_registerOnly`; the rest is the team's own frame, and the state's. -/
theorem registerOnlyFrame : Obligations.RegisterOnlyFrame := by
  unfold Obligations.RegisterOnlyFrame
  intro s s' t i h hi hwf hexec
  obtain ⟨u, n, hnext, hw⟩ := exec_registerOnly h hi hwf
  obtain rfl : s.putTeam (u.advance n) = s' := Host.Outcome.next.inj (hnext.symm.trans hexec)
  refine ⟨u.advance n, rfl, hw.sameButRegs.trans (u.sameButRegs_advance n), fun r hr => hw.rs hr, fun k hk => hw.rg hk,
    fun hs => hw.satf hs, fun v hv => State.team?_putTeam_of_ne s ?_, fun _ _ _ => rfl, fun _ => rfl⟩
  rwa [Team.advance_uid, hw.sameButRegs.uid]

end Sys2Proof.Machine
end

/-!
Tile-side instructions as they run, continued: one rule for those that consume no stream, what reading a record leaves of the
teams, what acceptance has found, and what a run of rows that faults comes to.
-/

section
namespace Sys2Proof.Machine

/-! ### Stages of a team that differ in accumulators and resident B -/

theorem Team.accOf_putAcc (t : Team) (a : AReg) (x : Acc) : (t.putAcc a x).accOf a = x :=
  Vector.getElem_set_self a.toFin.isLt

theorem Team.sameTileSide_putAcc (t : Team) (a : AReg) (x : Acc) : t.SameTileSide (t.putAcc a x) :=
  ⟨rfl, rfl, rfl, rfl, rfl, rfl, rfl⟩

theorem Team.sameTileSide_resB (t : Team) (b : ResidentB) : t.SameTileSide { t with resB := b } :=
  ⟨rfl, rfl, rfl, rfl, rfl, rfl, rfl⟩

theorem Team.sameTileSide_loadB (t : Team) (b : ResidentB) (e : Env) :
    t.SameTileSide ({ t with resB := b }.applyEnv e) :=
  (t.sameTileSide_resB b).trans (Team.sameTileSide_applyEnv _ e)

/-- Pushing after two tiles are written leaves the sequencer's side alone. -/
theorem Team.sameTileSide_pushTiles (t : Team) (td tc : TReg) (d c : Option Tile) (v : Word) :
    t.SameTileSide (((t.putTile td d).putTile tc c).push v) :=
  ((t.sameTileSide_putTile td d).trans (Team.sameTileSide_putTile _ tc c)).trans (Team.sameTileSide_push _ v)

theorem TIn.Leaves.of_teams {x : TIn} {s s' : State} (h : x.Leaves s) (ht : s'.teams = s.teams) : x.Leaves s' := by
  obtain ⟨u, ⟨hu, honly⟩, hsame⟩ := h
  exact ⟨u, ⟨(State.team?_congr ht _).trans hu, ht ▸ honly⟩, hsame⟩

theorem TIn.Leaves.only_putTeam {x : TIn} {s' : State} {u : Team} (h : x.Leaves s') (hu : x.t.SameTileSide u) :
    (s'.putTeam u).Only x.t.uid u := by
  obtain ⟨v, hv, -⟩ := h
  rw [State.putTeam_eq_fill, hu.uid]
  exact State.only_fill u hu.uid hv.1

/-! ### Runs that consume no stream -/

theorem State.modTeam_consume_nil (s : State) (uid ext : Nat) : s.modTeam uid (fun u => u.consume ext []) = s := by
  have hid : (fun u : Team => if u.uid == uid then u.consume ext [] else u) = id := by
    funext u
    split <;> rfl
  rw [State.modTeam, hid, List.map_id]

/-- An instruction without streams has the effect `E` where its run over a non-empty extent has, and does nothing over an
empty one. -/
theorem State.tileDone_of_run {s : State} {t : Team} {i : Instr} {P : TIn → Prop} {E : TIn → State}
    (hi : i.isTileSide = true) (hc : isCopy i = false)
    (hempty : ∀ x : TIn, x.c.live = false → tileRun i t.wordSeq x = .done x.s)
    (hrun : ∀ x : TIn, x.c.live = true → (∀ r, x.c.rs r = t.rs r) → x.t.uid = t.uid →
      tileRun i t.wordSeq x = .done (E x))
    (hl : ∀ x : TIn, x.t.uid = t.uid → x.Leaves x.s → x.Leaves (E x)) : s.TileDone t i [] P E := by
  intro h
  refine ⟨fun hlive => State.exec_takes h hi hc (hempty _ hlive) h.leaves_atRun, fun hlive _ _ => ?_⟩
  rw [State.modTeam_consume_nil]
  exact State.exec_takes h hi hc (hrun _ hlive h.atRun_rs rfl) (hl _ rfl h.leaves_atRun)

/-- An instruction whose run computes `E` has that effect, once taken. -/
theorem State.tileOne_of_run_eq {s : State} {t : Team} {i : Instr} {P : TIn → Prop} {E : TIn → State}
    (hi : i.isTileSide = true) (hc : isCopy i = false)
    (hrun : ∀ x : TIn, P x → (∀ r, x.c.rs r = t.rs r) → x.t.uid = t.uid → x.step = false →
      tileRun i t.wordSeq x = .done (E x))
    (hl : ∀ x : TIn, P x → x.t.uid = t.uid → x.Leaves x.s → x.Leaves (E x)) : s.TileOne t i P E :=
  fun h hP => State.exec_takes h hi hc (hrun _ hP h.atRun_rs rfl rfl) (hl _ hP rfl h.leaves_atRun)

/-- Once a taken instruction has left, its team's accumulators are as its run left them. -/
theorem State.Only.acc_past {s : State} {uid : Nat} {u : Team} (h : s.Only uid u) :
    ∃ v, (s.past uid).team? uid = some v ∧ v.acc = u.acc := by
  refine ⟨{ u.leave [] with wait := .none, tileWalk := none }, ?_, by rw [Team.leave_nil]⟩
  have huid : ({ u.leave [] with wait := .none, tileWalk := none } : Team).uid = uid := by
    rw [Team.leave_nil]
    exact State.team?_uid (u := u) h.1
  rw [State.past, State.modTeam_of_only h]
  exact State.team?_fill _ huid h.1

/-! ### What an instruction reads -/

theorem State.Takes.atAccept_rs {s : State} {t : Team} {i : Instr} (h : s.Takes t i) (r : SReg) :
    (s.atAccept t i).c.rs r = t.rs r := h.atRun_rs r

/-- A source that is no stream is read as it stands. -/
theorem State.atRun_rd {s : State} {t : Team} {i : Instr} {n : TReg} {a : Tile} (h : t.tile n = some a)
    (hs : a.strm = none) : (s.atRun t i).rd n = a := by
  have htile : (s.atRun t i).t.tile n = some a := h
  simp only [TIn.rd, htile, Team.view_, hs]

theorem readEls_teams (path : Path) (uid : Nat) (es : List ElSite) (s : State) :
    (readEls path uid es s).2.teams = s.teams := by
  induction es generalizing s with
  | nil => rfl
  | cons e es ih =>
    rw [readEls]
    split
    · rfl
    next t _ => exact (ih _).trans (State.load_teams s t path _)

theorem readSegs_teams (path : Path) (uid : Nat) (gs : List (List ElSite)) (s : State) :
    (readSegs path uid gs s).2.2.teams = s.teams := by
  induction gs generalizing s with
  | nil => rfl
  | cons g gs ih =>
    rw [readSegs]
    split
    · rfl
    next t _ => exact (ih _).trans (State.load_teams s t path _)

/-! ### What acceptance has found -/

theorem eq_true_of_must {b : Bool} (h : must b = .ok ()) : b = true := by
  cases b
  · exact nomatch h
  · rfl

theorem Team.tile_of_dst {t : Team} {n : TReg} {a : Tile} (h : t.dst n = .ok a) : t.tile n = some a ∧ a.strm = none := by
  unfold Team.dst at h
  split at h
  next x hx =>
    split at h
    · exact nomatch h
    next hs => cases h; exact ⟨hx, by simpa using hs⟩
  · exact nomatch h

/-! ### A taken instruction whose run faults (R189) -/

theorem State.exec_takes_issued {s : State} {t : Team} {i : Instr} (h : s.Takes t i) (hi : i.isTileSide = true) :
    exec i s = .next (((stepCopies t.uid (((s.atRun t i).s.issueHead t.uid false).copyLeft t.uid)
      ((s.atRun t i).s.issueHead t.uid false))).completeHead t.uid) := by
  have hwaits : t.placeWaits = false := by
    have hroom := h.room
    simp only [Team.placeWaits, Team.extPending, h.quiet.held, h.quiet.tiq, List.length_nil, List.any_nil, Option.isSome_none,
      Bool.false_or, Bool.or_false, decide_eq_false_iff_not]
    omega
  have hcredit : (i.pushes && decide (16 ≤ t.credits)) = false := by
    cases hpush : i.pushes
    · rfl
    · simpa using h.credit hpush
  rw [exec_tileSide hi, State.tileExec, h.issues]
  simp only [hwaits, hcredit, h.now, h.quiet.tiq, State.runHead, State.runHeadBy, State.acceptHead_takes h]
  rfl

theorem State.Takes.seq_entryAt {s : State} {t : Team} {i : Instr} (h : s.Takes t i) : (s.entryAt t i).seq = t.wordSeq := by
  simp [State.entryAt, Team.entryFor, Team.seqHere, h.quiet.pair]

/-- R189: a run of rows that faults keeps what it has done, and the fault is the entry's. -/
theorem State.Takes.issueHead_fault {s s1 : State} {t : Team} {i : Instr} {g : FaultInfo} (h : s.Takes t i)
    (hc : isCopy i = false) (hp : leavesPart i = true) (hrun : tileRun i t.wordSeq (s.atRun t i) = .fail s1 g) :
    (s.atRun t i).s.issueHead t.uid false = (s1.backToFront t.uid .none).takeFault t.uid ((s.entryAt t i).held g) := by
  have hstage : (s.atRun t i).t.forTile.asOf (s.entryAt t i) = (s.atRun t i).t := Team.forTile_of h.quiet.walk rfl
  have hput : (s.atRun t i).s.putTeam (s.atRun t i).t = (s.atRun t i).s := State.putTeam_putTeam _ _ _ rfl
  have htiq : (s.atRun t i).t.tiq = [s.entryAt t i] := rfl
  have hfresh : (!(s.entryAt t i).accepted || (s.entryAt t i).issued) = false := rfl
  have hinstr : (s.entryAt t i).instr = i := rfl
  have htin : (s.entryAt t i).tin (s.atRun t i).s (s.atRun t i).t false = s.atRun t i := rfl
  have hwait : (s.atRun t i).t.wait = .none := rfl
  simp only [State.issueHead, h.only_atRun.1, htiq, hfresh, hstage, hput, hinstr, hp, hc, htin, h.seq_entryAt, hrun, hwait,
    Bool.false_eq_true, if_true, if_false]

end Sys2Proof.Machine
end

/-!
Sums of products that stay within 80 bits (R194): signed readings of codes, and an element of an integer product over all its
groups.
-/

section
namespace Sys2Proof.Machine

/-! ### Signed readings (R11) -/

theorem intOf_eq_toInt {n : Nat} (hn : 0 < n) (x : Nat) : intOf n true x = (BitVec.ofNat n x).toInt :=
  intOf_eq_aluOperand false hn x

theorem intOf_mod (n x : Nat) : intOf n true (x % 2 ^ n) = intOf n true x := by
  simp only [intOf, Nat.mod_mod]

/-- A value within the range of its width is what its code reads as. -/
theorem intOf_intCode {n : Nat} (hn : 0 < n) {v : Int} (h : |v| < 2 ^ (n - 1)) : intOf n true (intCode n v) = v := by
  obtain ⟨hlo, hhi⟩ := abs_lt.mp h
  have hcode : BitVec.ofNat n (intCode n v) = BitVec.ofInt n v :=
    BitVec.eq_of_toNat_eq (by
      rw [BitVec.toNat_ofNat, BitVec.toNat_ofInt, intCode, Nat.mod_eq_of_lt]
      have := Int.emod_lt_of_pos v (b := ((2 ^ n : Nat) : Int)) (by positivity)
      have := Int.emod_nonneg v (b := ((2 ^ n : Nat) : Int)) (by positivity)
      omega)
  rw [intOf_eq_toInt hn, hcode, BitVec.toInt_ofInt_eq_self hn hlo.le hhi]

theorem abs_intOf_int8 (x : Nat) : |intOf 8 true x| ≤ 2 ^ 7 := by
  rw [intOf_eq_toInt (by decide)]
  have hhi := BitVec.toInt_lt (x := BitVec.ofNat 8 x)
  have hlo := BitVec.le_toInt (BitVec.ofNat 8 x)
  rw [abs_le]
  omega

theorem abs_int8_mul_le (x y : Nat) : |intOf 8 true x * intOf 8 true y| ≤ 2 ^ 14 := by
  rw [abs_mul]
  calc |intOf 8 true x| * |intOf 8 true y|
      ≤ 2 ^ 7 * 2 ^ 7 := mul_le_mul (abs_intOf_int8 x) (abs_intOf_int8 y) (abs_nonneg _) (by positivity)
    _ = 2 ^ 14 := by norm_num

/-! ### Products of two runs of elements -/

/-- The products of two runs of elements. -/
def products (xs ys : List Int) : List Int := (xs.zip ys).map (fun p => p.1 * p.2)

theorem products_eq_zipWith (xs ys : List Int) : products xs ys = List.zipWith (· * ·) xs ys :=
  List.map_zip_eq_zipWith

theorem products_take (xs ys : List Int) (n : Nat) : products (xs.take n) (ys.take n) = (products xs ys).take n := by
  simp only [products_eq_zipWith, List.take_zipWith]

theorem products_drop (xs ys : List Int) (n : Nat) : products (xs.drop n) (ys.drop n) = (products xs ys).drop n := by
  simp only [products_eq_zipWith, List.drop_zipWith]

theorem products_length {xs ys : List Int} (h : xs.length = ys.length) : (products xs ys).length = xs.length := by
  simp [products, h]

theorem products_map {α : Type} (f g : α → Int) (l : List α) :
    products (l.map f) (l.map g) = l.map (fun a => f a * g a) := by
  rw [products, List.zip_map', List.map_map]
  rfl

theorem abs_sum_le_mul_length {b : Int} (l : List Int) (h : ∀ x ∈ l, |x| ≤ b) : |l.sum| ≤ b * l.length := by
  induction l with
  | nil => simp
  | cons x xs ih =>
    have hx := h x List.mem_cons_self
    have hxs := ih (fun y hy => h y (List.mem_cons_of_mem _ hy))
    calc |(x :: xs).sum| ≤ |x| + |xs.sum| := by rw [List.sum_cons]; exact abs_add_le _ _
      _ ≤ b * (x :: xs).length := by push_cast [List.length_cons]; linarith

theorem abs_products_sum_le {b : Int} {xs ys : List Int} (hlen : xs.length = ys.length) (hb : ∀ p ∈ products xs ys, |p| ≤ b) :
    |(products xs ys).sum| ≤ b * xs.length := by
  rw [← products_length hlen]
  exact abs_sum_le_mul_length _ hb

/-! ### The groups of an integer element (R194) -/

/-- An addition that stays within 80 bits does not saturate. -/
theorem clampInt_acc {x : Int} (h : |x| < 2 ^ 79) : clampInt (intMin 80 true) (intMax 80 true) x = (x, false) := by
  obtain ⟨hlo, hhi⟩ := abs_lt.mp h
  have hmin : intMin 80 true = -2 ^ 79 := by decide
  have hmax : intMax 80 true = 2 ^ 79 - 1 := by decide
  rw [clampInt, hmin, hmax, if_neg (by omega), if_neg (by omega)]

theorem chunks32_of_ne_nil {α : Type} (n : Nat) {l : List α} (h : l ≠ []) :
    chunks32 (n + 1) l = l.take 32 :: chunks32 n (l.drop 32) := by
  simp [chunks32, h]

/-- R194: an integer element grows by the sum of all products, exactly, where no group can take it out of 80 bits. -/
theorem intElement_fst {b : Int} (n : Nat) (acc : Int) (xs ys : List Int) (fl : Flags) (hlen : xs.length = ys.length)
    (hn : xs.length ≤ n) (hb : ∀ p ∈ products xs ys, |p| ≤ b) (hroom : |acc| + b * xs.length < 2 ^ 79) :
    (intElement acc (chunks32 n xs) (chunks32 n ys) fl).1 = acc + (products xs ys).sum := by
  induction n generalizing acc xs ys fl with
  | zero =>
    obtain rfl : xs = [] := List.length_eq_zero_iff.mp (by omega)
    simp [chunks32, intElement, products]
  | succ n ih =>
    by_cases hxs : xs = []
    · subst hxs
      simp [chunks32, intElement, products]
    · have hpos := List.length_pos_iff.mpr hxs
      have hys : ys ≠ [] := List.length_pos_iff.mp (hlen ▸ hpos)
      have hsplit : ((xs.take 32).length : Int) + (xs.drop 32).length = xs.length := by
        rw [← Nat.cast_add, ← List.length_append, List.take_append_drop]
      have hgroup := abs_products_sum_le (xs := xs.take 32) (ys := ys.take 32) (b := b) (by simp [hlen])
        (fun p hp => hb p (List.mem_of_mem_take (products_take xs ys 32 ▸ hp)))
      have hb0 : 0 ≤ b := by
        obtain ⟨p, hp⟩ := List.exists_mem_of_length_pos (l := products xs ys) (by rwa [products_length hlen])
        exact (abs_nonneg p).trans (hb p hp)
      have hadd := abs_add_le acc (products (xs.take 32) (ys.take 32)).sum
      have hrest : |acc + (products (xs.take 32) (ys.take 32)).sum| + b * (xs.drop 32).length < 2 ^ 79 := by
        rw [← hsplit, mul_add] at hroom
        linarith
      have hclamp := clampInt_acc (x := acc + (products (xs.take 32) (ys.take 32)).sum) (by
        have : 0 ≤ b * (xs.drop 32).length := by positivity
        linarith)
      rw [chunks32_of_ne_nil n hxs, chunks32_of_ne_nil n hys, intElement, ← products, hclamp]
      refine (ih _ _ _ _ (by simp [hlen]) (by rw [List.length_drop]; omega) (fun p hp => ?_) hrest).trans ?_
      · exact hb p (List.mem_of_mem_drop (products_drop xs ys 32 ▸ hp))
      · rw [add_assoc, products_take, products_drop, List.sum_take_add_sum_drop]

end Sys2Proof.Machine
end

/-!
Products of a tile with resident B (R189, R194): the rows that a product does, and what each of an integer product's rows adds
to the elements of the accumulator.
-/

section
namespace Sys2Proof.Machine

/-! ### Rows from the restart row on (R189) -/

theorem map_add_range (k m : Nat) : (List.range (m - k)).map (k + ·) = (List.range m).drop k := by
  rw [← List.range'_eq_map_range, List.range_eq_range', List.drop_range']
  simp

/-- The team once the product has done some rows of the tile `ta`. -/
def TIn.productRows (x : TIn) (isInt : Bool) (w : Nat) (ad : AReg) (ta : Src) (d : MDims) (en : Option EReg)
    (rows : List Nat) : Team :=
  rows.foldl (fun u r => productRow u isInt w (x.rd ta.t).geo.etype d ad en r ((List.range d.k).map ((x.rd ta.t).el r))
    ((x.rd ta.t).rowScales d.k r)) x.t

theorem Team.sameTileSide_productRow (t : Team) (isInt : Bool) (w : Nat) (ea : BitVec 5) (d : MDims) (ad : AReg)
    (en : Option EReg) (i : Nat) (codes : List Nat) (mx : List Byte) :
    t.SameTileSide (productRow t isInt w ea d ad en i codes mx) :=
  (t.sameTileSide_putAcc ad _).trans (Team.sameTileSide_applyEnv _ _)

theorem TIn.sameTileSide_productRows (x : TIn) (isInt : Bool) (w : Nat) (ad : AReg) (ta : Src) (d : MDims)
    (en : Option EReg) (rows : List Nat) : x.t.SameTileSide (x.productRows isInt w ad ta d en rows) :=
  List.foldlRecOn (motive := x.t.SameTileSide) _ _ (.refl _)
    (fun _ hu _ _ => hu.trans (Team.sameTileSide_productRow _ ..))

/-- Without a stop at a row boundary a product does all rows from the restart row on (R189). -/
theorem tileProduct_done {x : TIn} {d : MDims} (isInt : Bool) (w : Nat) (ad : AReg) (ta : Src) (en : Option EReg)
    (hstep : x.step = false) (hlive : d.live = true) : tileProduct x isInt w ad ta d en =
      .done (x.s.putTeam (x.productRows isInt w ad ta d en ((List.range d.m).drop x.xrow))) := by
  rw [tileProduct, TIn.groupRows, hstep, hlive, ← map_add_range]
  rfl

theorem tileProduct_empty {x : TIn} {d : MDims} (isInt : Bool) (w : Nat) (ad : AReg) (ta : Src) (en : Option EReg)
    (hempty : d.live = false) : tileProduct x isInt w ad ta d en = .done x.s := by
  simp [tileProduct, hempty]

/-- MMA over a non-empty region does the rows from the restart row on. -/
theorem State.tileOne_mma {s : State} {t : Team} (f : BitVec 2) (ad : AReg) (ta : Src) (ss sp : SReg) (en : Option EReg) :
    s.TileOne t (.mma f ad ta ss sp en) (fun _ => (mdims (t.rs ss) (t.rs sp)).live = true) (fun x => x.s.putTeam
      (x.productRows (f == 3) (fmtW f) ad ta (mdims (t.rs ss) (t.rs sp)) en
        ((List.range (mdims (t.rs ss) (t.rs sp)).m).drop x.xrow))) := by
  intro h hlive
  refine State.exec_takes h rfl rfl ?_ (h.leaves_atRun.putTeam (TIn.sameTileSide_productRows _ ..))
  rw [tileRun, runMma, h.atRun_rs, h.atRun_rs]
  exact tileProduct_done _ _ ad ta en rfl hlive

/-! ### Elements of an accumulator -/

/-- The integer that an accumulator element holds. -/
def Acc.intVal (x : Acc) (r c : Nat) : Int := intOf 80 true (x.el r c)

theorem Acc.el_put (x : Acc) {r c r' c' : Nat} (v : Nat) (hc : c < 128) (hc' : c' < 128) :
    (x.put r' c' v).el r c = if r = r' ∧ c = c' then v % 2 ^ 80 else x.el r c := by
  have hkey : r * 128 + c = r' * 128 + c' ↔ r = r' ∧ c = c' := by omega
  simp only [Acc.el, Acc.put, kget_kset, hkey]
  split <;> simp

theorem Acc.intVal_put (x : Acc) {r c r' c' : Nat} {v : Int} (hc : c < 128) (hc' : c' < 128) (hv : |v| < 2 ^ 79) :
    (x.put r' c' (intCode 80 v)).intVal r c = if r = r' ∧ c = c' then v else x.intVal r c := by
  rw [Acc.intVal, Acc.el_put x _ hc hc', apply_ite (intOf 80 true), intOf_mod, intOf_intCode (by decide) hv, ← Acc.intVal]

/-! ### The elements of an integer row -/

theorem zipIdx_map_range {α : Type} (f : Nat → α) (n : Nat) :
    ((List.range n).map f).zipIdx = (List.range n).map (fun j => (f j, j)) :=
  List.ext_getElem (by simp) (by simp)

/-- One element of an integer row: its place, and what it has become. -/
def intStep (d : MDims) (i : Nat) (a : List (List Int)) (p : Acc × Flags) (cj : List (List Int) × Nat) : Acc × Flags :=
  let v := intElement (p.1.intVal (d.ar + i) (d.ac + cj.2)) a cj.1 p.2
  (p.1.put (d.ar + i) (d.ac + cj.2) (intCode 80 v.1), v.2)

theorem intRow_eq_foldl (d : MDims) (ea : BitVec 5) (i : Nat) (codes : List Nat) (cols : List (List (List Int))) (x : Acc)
    (fl : Flags) : intRow d ea i codes cols x fl =
      cols.zipIdx.foldl (intStep d i (chunks32 d.k (codes.map (intEl ea)))) (x, fl) := rfl

/-- What keeps the sums of a row with some columns exact: as many elements on both sides, and products of bytes. -/
def ExactRow (k : Nat) (xs : List Int) (ys : Nat → List Int) : Prop :=
  k ≤ 1024 ∧ xs.length = k ∧ ∀ j, (ys j).length = k ∧ ∀ p ∈ products xs (ys j), |p| ≤ 2 ^ 14

section
variable {d : MDims} {xs : List Int} {ys : Nat → List Int} (h : ExactRow d.k xs ys)
include h

theorem intElement_exact {acc : Int} (hacc : |acc| < 2 ^ 78) (j : Nat) (fl : Flags) :
    (intElement acc (chunks32 d.k xs) (chunks32 d.k (ys j)) fl).1 = acc + (products xs (ys j)).sum ∧
      |acc + (products xs (ys j)).sum| < 2 ^ 79 := by
  obtain ⟨hk, hxs, hys⟩ := h
  obtain ⟨hlen, hb⟩ := hys j
  have hterm : (2 ^ 14 : Int) * xs.length ≤ 2 ^ 24 := by rw [hxs]; omega
  have hsum := abs_products_sum_le (hxs.trans hlen.symm) hb
  refine ⟨intElement_fst d.k acc xs (ys j) fl (hxs.trans hlen.symm) hxs.le hb (by linarith), ?_⟩
  linarith [abs_add_le acc (products xs (ys j)).sum]

theorem intStep_intVal (i j : Nat) {r c : Nat} (p : Acc × Flags) (hj : d.ac + j < 128) (hc : c < 128)
    (hp : |p.1.intVal (d.ar + i) (d.ac + j)| < 2 ^ 78) :
    (intStep d i (chunks32 d.k xs) p (chunks32 d.k (ys j), j)).1.intVal r c =
      p.1.intVal r c + if r = d.ar + i ∧ c = d.ac + j then (products xs (ys j)).sum else 0 := by
  obtain ⟨hval, hroom⟩ := intElement_exact h hp j p.2
  rw [intStep]
  simp only [hval, Acc.intVal_put p.1 hc hj hroom]
  split
  case isTrue hrc => rw [hrc.1, hrc.2]
  case isFalse => rw [add_zero]

/-- R194: a row of an integer product grows each element of its accumulator row, and no other row. -/
theorem intRow_intVal (i n : Nat) (x : Acc) (fl : Flags) {r j : Nat} (hn : d.ac + n ≤ 128) (hj : d.ac + j < 128)
    (hx : ∀ j < n, |x.intVal (d.ar + i) (d.ac + j)| < 2 ^ 78) :
    (((List.range n).map (fun j => chunks32 d.k (ys j))).zipIdx.foldl (intStep d i (chunks32 d.k xs)) (x, fl)).1.intVal
      r (d.ac + j) = x.intVal r (d.ac + j) + if r = d.ar + i ∧ j < n then (products xs (ys j)).sum else 0 := by
  rw [zipIdx_map_range, List.foldl_map]
  induction n generalizing r j with
  | zero => simp
  | succ n ih =>
    have ih' := fun {r j : Nat} (hj : d.ac + j < 128) => ih (r := r) (j := j) (by omega) hj (fun j hj => hx j (by omega))
    rw [List.range_succ, List.foldl_append, List.foldl_cons, List.foldl_nil,
      intStep_intVal h i n _ (by omega) hj (by rw [ih' (by omega)]; simpa using hx n (by omega)), ih' hj]
    by_cases hr : r = d.ar + i
    · rcases lt_trichotomy j n with hlt | rfl | hgt
      · simp [hr, hlt, hlt.ne, Nat.lt_succ_of_lt hlt]
      · simp [hr]
      · simp [hr, hgt.ne', not_lt.mpr hgt.le, not_lt.mpr (Nat.succ_le_of_lt hgt)]
    · simp [hr]

end

/-! ### The rows of an integer product -/

/-- R194, R187: the rows of an integer product one after another, each with its own elements `xs`, grow each element of the
block by its row's products with its column. -/
theorem intRows_intVal {d : MDims} {xs : Nat → List Int} {ys : Nat → List Int} (h : ∀ i, ExactRow d.k (xs i) ys) (x : Acc)
    (hac : d.ac + d.n ≤ 128) (hx : ∀ r c, |x.intVal r c| < 2 ^ 78) (m i : Nat) {j : Nat} (hj : j < d.n) :
    ((List.range m).foldl (fun x i => (((List.range d.n).map (fun j => chunks32 d.k (ys j))).zipIdx.foldl
      (intStep d i (chunks32 d.k (xs i))) (x, 0)).1) x).intVal (d.ar + i) (d.ac + j) =
        x.intVal (d.ar + i) (d.ac + j) + if i < m then (products (xs i) (ys j)).sum else 0 := by
  induction m generalizing i j with
  | zero => simp
  | succ m ih =>
    rw [List.range_succ, List.foldl_append, List.foldl_cons, List.foldl_nil,
      intRow_intVal (h m) m d.n _ 0 hac (by omega), ih i hj]
    · rcases lt_trichotomy i m with hlt | rfl | hgt
      · simp [hlt, hlt.ne, Nat.lt_succ_of_lt hlt]
      · simp [hj]
      · simp [hgt.ne', not_lt.mpr hgt.le, not_lt.mpr (Nat.succ_le_of_lt hgt)]
    · intro j hj
      rw [ih m hj]
      simpa using hx _ _

/-- What an integer row of a product makes of the accumulator; resident B stays. -/
theorem productRow_int (t : Team) (w : Nat) (ea : BitVec 5) (d : MDims) (ad : AReg) (en : Option EReg) (i : Nat)
    (codes : List Nat) (mx : List Byte) :
    (productRow t true w ea d ad en i codes mx).accOf ad = (intRow d ea i codes (t.resB.ints d) (t.accOf ad) 0).1 ∧
      (productRow t true w ea d ad en i codes mx).resB = t.resB :=
  ⟨t.accOf_putAcc ad _, rfl⟩

theorem TIn.productRows_int (x : TIn) (w : Nat) (ad : AReg) (ta : Src) (d : MDims) (en : Option EReg) (rows : List Nat) :
    (x.productRows true w ad ta d en rows).accOf ad = rows.foldl (fun z r => (intRow d (x.rd ta.t).geo.etype r
      ((List.range d.k).map ((x.rd ta.t).el r)) (x.t.resB.ints d) z 0).1) (x.t.accOf ad) ∧
      (x.productRows true w ad ta d en rows).resB = x.t.resB := by
  induction rows using List.reverseRecOn with
  | nil => exact ⟨rfl, rfl⟩
  | append_singleton rows r ih =>
    obtain ⟨hacc, hres⟩ := ih
    rw [productRows, List.foldl_append, List.foldl_append, List.foldl_cons, List.foldl_nil, List.foldl_cons, List.foldl_nil,
      ← productRows]
    obtain ⟨hrow, hkeep⟩ := productRow_int (x.productRows true w ad ta d en rows) w (x.rd ta.t).geo.etype d ad en r
      ((List.range d.k).map ((x.rd ta.t).el r)) ((x.rd ta.t).rowScales d.k r)
    exact ⟨by rw [hrow, hacc, hres], hkeep.trans hres⟩

/-! ### Rows and columns of bytes -/

/-- Column `j` of the block of resident B, as integers. -/
def ResidentB.intCol (b : ResidentB) (d : MDims) (j : Nat) : List Int := (b.col d j).map (intEl b.btype)

theorem ResidentB.ints_eq (b : ResidentB) (d : MDims) :
    b.ints d = (List.range d.n).map (fun j => chunks32 d.k (b.intCol d j)) := rfl

/-- The products of row `i` of a tile of bytes with column `j` of a resident block of bytes. -/
theorem products_int8 {a : Tile} {b : ResidentB} (ha : a.geo.etype = 1) (hb : b.btype = 1) (d : MDims) (i j : Nat) :
    products (((List.range d.k).map (a.el i)).map (intEl a.geo.etype)) (b.intCol d j) =
      (List.range d.k).map (fun k => intOf 8 true (a.el i k) *
        intOf 8 true (kget 0 b.cells ((d.kb0 + k) * 128 + d.nb0 + j)).toNat) := by
  rw [ResidentB.intCol, ResidentB.col, ha, hb, List.map_map, List.map_map, products_map]
  rfl

theorem exactRow_int8 {a : Tile} {b : ResidentB} (ha : a.geo.etype = 1) (hb : b.btype = 1) {d : MDims} (hk : d.k ≤ 1024)
    (i : Nat) : ExactRow d.k (((List.range d.k).map (a.el i)).map (intEl a.geo.etype)) (b.intCol d) := by
  refine ⟨hk, by simp, fun j => ⟨by simp [ResidentB.intCol, ResidentB.col], fun p hp => ?_⟩⟩
  rw [products_int8 ha hb, List.mem_map] at hp
  obtain ⟨k, -, rfl⟩ := hp
  exact abs_int8_mul_le _ _

/-- R194: every element of the block after a product of bytes over all rows. -/
theorem TIn.productRows_intVal {x : TIn} {a : Tile} {ta : Src} {d : MDims} (hrd : x.rd ta.t = a) (ha : a.geo.etype = 1)
    (hb : x.t.resB.btype = 1) (hk : d.k ≤ 1024) (hac : d.ac + d.n ≤ 128) (w : Nat) (ad : AReg) (en : Option EReg)
    (hx : ∀ r c, |(x.t.accOf ad).intVal r c| < 2 ^ 78) {i j : Nat} (hi : i < d.m) (hj : j < d.n) :
    ((x.productRows true w ad ta d en (List.range d.m)).accOf ad).intVal (d.ar + i) (d.ac + j) =
      (x.t.accOf ad).intVal (d.ar + i) (d.ac + j) + ((List.range d.k).map (fun k => intOf 8 true (a.el i k) *
        intOf 8 true (kget 0 x.t.resB.cells ((d.kb0 + k) * 128 + d.nb0 + j)).toNat)).sum := by
  have hrows := intRows_intVal (exactRow_int8 ha hb hk) (x.t.accOf ad) hac hx d.m i hj
  rw [if_pos hi, products_int8 ha hb] at hrows
  rw [(x.productRows_int w ad ta d en _).1, hrd]
  simp only [intRow_eq_foldl, ResidentB.ints_eq]
  exact hrows

end Sys2Proof.Machine
end

/-!
O43: the integer product.
-/

section
namespace Sys2Proof.Machine

/-- What the checks of MMA have found: A is bound and no stream, shape and placement fit, and A and resident B have types of
the format. -/
structure MmaOk (x : TIn) (f : BitVec 2) (ta : Src) (ss sp : SReg) (a : Tile) : Prop where
  tile : x.t.tile ta.t = some a
  noStream : a.strm = none
  fits : (mdims (x.c.rs ss) (x.c.rs sp)).fits (x.c.rs ss) x.t.resB = true
  inAcc : (mdims (x.c.rs ss) (x.c.rs sp)).inAcc = true
  atype : fmtType f a.geo.etype = true
  btype : fmtType f x.t.resB.btype = true

theorem exists_mmaOk {x : TIn} {f : BitVec 2} {ad : AReg} {ta : Src} {ss sp : SReg} {en : Option EReg}
    (h : acceptMma x f ad ta ss sp en = .ok ()) : ∃ a, MmaOk x f ta ss sp a := by
  obtain ⟨a, ha, h⟩ := exists_of_bind_eq_ok h
  obtain ⟨_, -, h⟩ := exists_of_bind_eq_ok h
  obtain ⟨_, hdims, h⟩ := exists_of_bind_eq_ok h
  obtain ⟨_, htypes, -⟩ := exists_of_bind_eq_ok h
  have hdims := eq_true_of_must hdims
  have htypes := eq_true_of_must htypes
  simp only [Bool.and_eq_true, ResidentB.ok] at hdims htypes
  obtain ⟨hfits, hin⟩ := hdims
  obtain ⟨⟨⟨⟨⟨hatype, -⟩, ⟨-, hbtype⟩, -⟩, -⟩, -⟩, -⟩ := htypes
  obtain ⟨htile, hstrm⟩ := Team.tile_of_dst ha
  exact ⟨a, htile, hstrm, hfits, hin, hatype, hbtype⟩

/-- Settles O43: acceptance has found bytes on both sides and at most 1024 of them in a row, so that no addition saturates
(`intElement_fst`), and each row of the block grows in its own turn (`intRows_intVal`). -/
theorem integerProduct : Obligations.IntegerProduct := by
  unfold Obligations.IntegerProduct
  intro s t ad ta ss sp a d htakes htile hxrow hlive hacc
  have haccept : acceptMma (s.atAccept t (.mma 3 ad ta ss sp none)) 3 ad ta ss sp none = .ok () := htakes.accepted
  obtain ⟨a', hok⟩ := exists_mmaOk haccept
  obtain ⟨htile', hstrm, hfits, hin, hatype, hbtype⟩ := hok
  obtain rfl : a' = a := Option.some.inj (htile'.symm.trans htile)
  rw [htakes.atAccept_rs, htakes.atAccept_rs] at hfits hin
  simp only [MDims.fits, MDims.inAcc, Bool.and_eq_true, decide_eq_true_eq] at hfits hin
  obtain ⟨⟨⟨-, hk⟩, -⟩, -⟩ := hfits
  have hall : (List.range d.m).drop (s.atRun t (.mma 3 ad ta ss sp none)).xrow = List.range d.m := by
    rw [show (s.atRun t (.mma 3 ad ta ss sp none)).xrow = t.xrow.toNat from rfl, hxrow]
    rfl
  have hexec := State.tileOne_mma 3 ad ta ss sp none htakes hlive
  beta_reduce at hexec
  rw [hall] at hexec
  have hsame := (s.atRun t (.mma 3 ad ta ss sp none)).sameTileSide_productRows true (fmtW 3) ad ta d none (List.range d.m)
  obtain ⟨u, hu, hleft⟩ := (htakes.leaves_atRun.only_putTeam hsame).acc_past
  refine ⟨_, u, hexec, hu, fun i j hi hj => ?_⟩
  rw [Team.accOf, hleft]
  exact TIn.productRows_intVal (State.atRun_rd htile hstrm) (eq_of_beq hatype) (eq_of_beq hbtype) hk hin.2 (fmtW 3) ad none
    hacc hi hj

end Sys2Proof.Machine
end

/-!
O42: loads of B, products, ACLR and TSCL.
-/

section
namespace Sys2Proof.Machine

/-- The elements and scales of a record in its layout, and the state after the reads (R216). -/
def TIn.readRec (x : TIn) (h : Handle) (es : List ElSite) (s : State) :
    List (Nat × Nat × Nat) × List (Nat × Nat × Byte) × State :=
  if (x.rcd h).layout = 2 then readSegs .mload x.t.uid (segments es) s
  else ((readEls .mload x.t.uid es s).1, [], (readEls .mload x.t.uid es s).2)

theorem TIn.readRec_teams (x : TIn) (h : Handle) (es : List ElSite) (s : State) :
    (x.readRec h es s).2.2.teams = s.teams := by
  rw [TIn.readRec]
  split
  · exact readSegs_teams ..
  · exact readEls_teams ..

/-- LDBM over a non-empty extent reads the elements that its checks have found, as the record's layout has it (R193). -/
theorem runLdbm_reads {x : TIn} {dims : Option SReg} {h : Handle} {sx so : SReg} {es : List ElSite} (hlive : x.c.live = true)
    (hok : allChk (ldbmChks x h sx) = .ok es) : runLdbm x dims h sx so =
      (let p := x.readRec h es x.s
       let y := (ldbTarget x dims (x.rcd h).etype ((x.rcd h).layout == 2)).load (x.c.rs so) p.1 p.2.1
       .done (p.2.2.modTeam x.t.uid (fun u => { u with resB := y.1 }.applyEnv ⟨u.lfsr, y.2⟩))) := by
  simp only [runLdbm, hlive, hok, if_true]
  rfl

/-- Rows that go on without a stop at a row boundary (R189). -/
theorem runMmam_eq {x : TIn} {f : BitVec 2} {ad : AReg} {h : Handle} {ss sx sp : SReg} {en : Option EReg}
    (hstep : x.step = false) (hlive : (mdims (x.c.rs ss) (x.c.rs sp)).live = true) :
    runMmam x f ad h ss sx sp en = mmamRows x f ad h sx (mdims (x.c.rs ss) (x.c.rs sp)) en
      ((mdims (x.c.rs ss) (x.c.rs sp)).m - x.xrow) x.xrow x.s := by
  simp only [runMmam, TIn.groupRows, hstep, hlive, Bool.false_and, Bool.false_eq_true, Bool.not_true, if_false]
  cases mmamRows x f ad h sx (mdims (x.c.rs ss) (x.c.rs sp)) en ((mdims (x.c.rs ss) (x.c.rs sp)).m - x.xrow) x.xrow x.s <;>
    rfl

/-- Rows of MMAM that complete change accumulator and flags of the team alone, beside what its reads do. -/
theorem mmamRows_leaves {x : TIn} {f : BitVec 2} {ad : AReg} {h : Handle} {sx : SReg} {d : MDims} {en : Option EReg}
    {s' : State} (n row : Nat) (s : State) (hs : x.Leaves s) (hrun : mmamRows x f ad h sx d en n row s = .done s') :
    x.Leaves s' := by
  induction n generalizing row s with
  | zero => cases hrun; exact hs
  | succ n ih =>
    rw [mmamRows] at hrun
    split at hrun
    · cases hrun; exact hs
    · split at hrun
      · exact nomatch hrun
      · exact nomatch hrun
      · exact nomatch hrun
      next es _ =>
        refine ih _ _ ?_ hrun
        exact (hs.of_teams (x.readRec_teams h es s)).modTeam (fun v => v.sameTileSide_productRow _ ..)

/-- Settles O42: loads and products by their runs (`tileProduct_done`, `runMmam_eq`); a fault in a row by
`State.Takes.issueHead_fault`. -/
theorem matrixResults : Obligations.MatrixResults := by
  unfold Obligations.MatrixResults
  intro s s1 t dims h ta so sx ss sp f ad en int tgt gc e
  refine ⟨?ldb, ?ldbEmpty, ?ldbm, ?ldbmMx, ?ldbmEmpty, ?mma, ?mmaEmpty, ?mmat, ?mmatEmpty, ?mmam, ?mmamEmpty, ?mmamFault,
    ?aclr, ?tscl⟩
  case ldb =>
    refine State.tileOne_of_run_eq rfl rfl (fun x hlive hrs _ _ => ?_)
      (fun x _ _ hx => hx.putTeam (x.t.sameTileSide_loadB _ _))
    simp only [tileRun, runLdb, hlive, hrs, if_true]
  case ldbEmpty =>
    refine State.tileOne_of_run_eq rfl rfl (fun x hempty _ _ _ => ?_) (fun x _ _ hx => hx.putTeam (x.t.sameTileSide_resB _))
    simp [tileRun, runLdb, hempty]
  case ldbm =>
    intro es els
    refine State.tileOne_of_run_eq rfl rfl (fun x ⟨hlive, hlayout, hok, hread⟩ hrs hu _ => ?_)
      (fun x ⟨_, _, _, hread⟩ hu hx => ?_)
    · rw [tileRun, runLdbm_reads hlive hok, TIn.readRec, if_neg hlayout, hu, hread, hrs, beq_eq_false_iff_ne.mpr hlayout]
    · have hteams := readEls_teams .mload t.uid es x.s
      rw [hread] at hteams
      rw [← hu]
      exact (hx.of_teams hteams).modTeam (fun v => v.sameTileSide_loadB _ _)
  case ldbmMx =>
    intro es els scs
    refine State.tileOne_of_run_eq rfl rfl (fun x ⟨hlive, hlayout, hok, hread⟩ hrs hu _ => ?_)
      (fun x ⟨_, _, _, hread⟩ hu hx => ?_)
    · rw [tileRun, runLdbm_reads hlive hok, TIn.readRec, if_pos hlayout, hu, hread, hrs, hlayout]
      rfl
    · have hteams := readSegs_teams .mload t.uid (segments es) x.s
      rw [hread] at hteams
      rw [← hu]
      exact (hx.of_teams hteams).modTeam (fun v => v.sameTileSide_loadB _ _)
  case ldbmEmpty =>
    refine State.tileOne_of_run_eq rfl rfl (fun x hempty _ _ _ => ?_) (fun x _ _ hx => hx.putTeam (x.t.sameTileSide_resB _))
    simp [tileRun, runLdbm, hempty]
  case mma => exact State.tileOne_mma f ad ta ss sp en
  case mmaEmpty =>
    refine State.tileOne_of_run_eq rfl rfl (fun x hempty hrs _ _ => ?_) (fun x _ _ hx => hx)
    rw [tileRun, runMma, hrs, hrs]
    exact tileProduct_empty _ _ ad ta en hempty
  case mmat =>
    refine State.tileOne_of_run_eq rfl rfl (fun x hlive hrs _ hstep => ?_)
      (fun x _ _ hx => hx.putTeam (x.sameTileSide_productRows true 8 ad ta _ none _))
    rw [tileRun, runMmat, hrs, hrs]
    exact tileProduct_done _ _ ad ta none hstep hlive
  case mmatEmpty =>
    refine State.tileOne_of_run_eq rfl rfl (fun x hempty hrs _ _ => ?_) (fun x _ _ hx => hx)
    rw [tileRun, runMmat, hrs, hrs]
    exact tileProduct_empty _ _ ad ta none hempty
  case mmam =>
    refine State.tileOne_of_run_eq rfl rfl (fun x ⟨hlive, hrows⟩ hrs _ hstep => ?_)
      (fun x ⟨_, hrows⟩ _ hx => mmamRows_leaves _ _ _ hx hrows)
    rw [tileRun, runMmam_eq hstep (by rwa [hrs, hrs]), hrs, hrs]
    exact hrows
  case mmamEmpty =>
    refine State.tileOne_of_run_eq rfl rfl (fun x hempty hrs _ _ => ?_) (fun x _ _ hx => hx)
    simp [tileRun, runMmam, hrs, hempty]
  case mmamFault =>
    intro g i x htakes hlive hrows z
    have hrun : tileRun i t.wordSeq x = .fail s1 g := by
      have hss := htakes.atRun_rs ss
      have hsp := htakes.atRun_rs sp
      rw [tileRun, runMmam_eq rfl (by rwa [hss, hsp]), hss, hsp]
      exact hrows
    rw [State.exec_takes_issued htakes rfl, htakes.issueHead_fault rfl rfl hrun]
  case aclr =>
    exact State.tileOne_of_run_eq rfl rfl (fun x _ _ _ _ => rfl) (fun x _ _ hx => hx.putTeam (x.t.sameTileSide_putAcc ad _))
  case tscl =>
    refine State.tileOne_of_run_eq rfl rfl (fun x hrows _ _ _ => ?_)
      (fun x _ _ hx => hx.putTeam ⟨rfl, rfl, rfl, rfl, rfl, rfl, rfl⟩)
    rw [tileRun, runTscl, if_neg hrows]

end Sys2Proof.Machine
end

/-!
O44: ARD, AWR and AMAXA.
-/

section
namespace Sys2Proof.Machine

/-- Settles O44: over a non-empty extent each run computes just what the statement says, and leaves the sequencer's side of the
team alone. -/
theorem accumulatorAccess : Obligations.AccumulatorAccess := by
  unfold Obligations.AccumulatorAccess
  intro s t clr add acc cv td ta ac sw sx en
  refine ⟨?ard, ?awr, ?amaxa⟩
  case ard =>
    refine State.tileDone_of_run rfl rfl (fun x hx => by simp [tileRun, runArd, hx]) (fun x hx hrs hu => ?_) (fun x hu hx => ?_)
    · rw [tileRun, runArd, hx, ← hu]
      simp only [hrs]
      rfl
    · rw [← hu]
      cases clr
      · exact hx.put td _ _
      · exact (hx.put td _ _).modTeam (fun v => v.sameTileSide_putAcc ac _)
  case awr =>
    refine State.tileDone_of_run rfl rfl (fun x hx => by simp [tileRun, runAwr, hx]) (fun x hx hrs _ => ?_) (fun x _ hx => ?_)
    · rw [tileRun, runAwr, hx]
      simp only [hrs]
      rfl
    · exact hx.putTeam ((x.t.sameTileSide_putAcc ac _).trans (Team.sameTileSide_applyEnv _ _))
  case amaxa =>
    refine State.tileDone_of_run rfl rfl (fun x hx => by simp [tileRun, runAmaxa, hx]) (fun x hx hrs _ => ?_)
      (fun x _ hx => hx.put td _ _)
    rw [tileRun, runAmaxa, hx]
    simp only [hrs]
    cases acc <;> rfl

end Sys2Proof.Machine
end

/-!
O45: ROUTE, ABLK and IWALK.
-/

section
namespace Sys2Proof.Machine

/-- Settles O45: each run computes just what the statement says; ABLK numbers its rows as it computes them. -/
theorem engineResults : Obligations.EngineResults := by
  unfold Obligations.EngineResults
  intro s t td tc ti se ss sp sx fp8 causal k
  refine ⟨?route, ?routeEmpty, ⟨?ablk, ?ablkEmpty⟩, ?iwalk, ?iwalkEmpty⟩
  case route =>
    refine State.tileOne_of_run_eq rfl rfl (fun x hlive hrs _ _ => ?_)
      (fun x _ _ hx => hx.putTeam (x.t.sameTileSide_pushTiles td tc _ _ _))
    rw [tileRun, runRoute, hlive]
    simp only [hrs]
    rfl
  case routeEmpty =>
    refine State.tileOne_of_run_eq rfl rfl (fun x hempty _ _ _ => ?_) (fun x _ _ hx => hx.putTeam (x.t.sameTileSide_push 0))
    rw [tileRun, runRoute, hempty]
    rfl
  case ablk =>
    refine State.tileOne_of_run_eq rfl rfl (fun x hlive hrs _ _ => ?_) (fun x _ _ hx => hx.put td _ _)
    rw [tileRun, runAblk]
    simp only [hrs, hlive, zipIdx_map_range, List.flatMap_map, List.foldl_map]
    rfl
  case ablkEmpty =>
    refine State.tileOne_of_run_eq rfl rfl (fun x hempty hrs _ _ => ?_) (fun x _ _ hx => hx)
    rw [tileRun, runAblk]
    simp only [hrs, hempty]
    rfl
  case iwalk =>
    refine State.tileOne_of_run_eq rfl rfl (fun x hlive hrs _ _ => ?_)
      (fun x _ _ hx => hx.putTeam (x.t.sameTileSide_pushTiles td tc _ _ _))
    rw [tileRun, runIwalk, hlive]
    simp only [hrs]
    rfl
  case iwalkEmpty =>
    refine State.tileOne_of_run_eq rfl rfl (fun x hempty _ _ _ => ?_) (fun x _ _ hx => hx.putTeam (x.t.sameTileSide_push 0))
    rw [tileRun, runIwalk, hempty]
    rfl

end Sys2Proof.Machine
end

/-!
O25: what a store leaves of reads (R208, R209, R216).
-/

section
namespace Sys2Proof.Machine

/-! ### A stage of the storing team that no state holds -/

/-- A write to `cells` by another team, of the name `uid`, in no atomic order yet. -/
def foreignWrite (id uid : Nat) (cells : List Host.Cell) : Write :=
  ⟨id, uid, .team, cells, [], false, 1, Vector.replicate 5 0⟩

/-- The team that stores: its team-path view holds the wider of the two writes of `crossedState`. -/
def storer : Team := { Team.init with uid := 1 }.setView .team [1]

/-- The same name with both writes and the store's in its view, its paths in another epoch. -/
def staleStorer : Team :=
  { Team.init with uid := 1, epochs := Vector.replicate 5 1 }.setView .team [1, 2, 3]

/-- Two writes, neither ordered before the other: the first holds bytes 0 to 3, the second bytes 0 and 1. -/
def crossedState : State :=
  { State.reset with
    nextId := 3, teams := [storer],
    writes := [foreignWrite 1 7 [(0, 5), (1, 5), (2, 5), (3, 5)], foreignWrite 2 8 [(0, 6), (1, 6)]] }

theorem crossedState_inv : crossedState.Inv := ⟨rfl, by decide, by decide⟩

/-- Byte 0 is read from the first write, which covers more around it (R216). -/
theorem crossedState_before : crossedState.viewBytes staleStorer .team [0] = [5] := by decide

/-- Once the store holds byte 1, ordered after the first write alone, the second one covers more around byte 0. -/
theorem crossedState_after : (crossedState.store 1 .team [(1, 9)]).viewBytes staleStorer .team [0] = [6] := by decide

/-- Refutes O25: the fifth clause speaks of every value `u : Team`, also of one under the storing team's name, in another
epoch, whose view holds the store before it is made. For that reader the store counts at byte 1 (`Write.covers`), so byte 0,
which it does not write, reads as another of the two unordered writes. -/
theorem not_storeFrame : ¬ Obligations.StoreFrame := by
  unfold Obligations.StoreFrame
  intro h
  obtain ⟨_, _, _, _, _, others, _⟩ := h crossedState storer .team [(1, 9)] rfl
  have same := others staleStorer .team 0 rfl
  rw [show storer.uid = 1 from rfl, crossedState_before, crossedState_after] at same
  exact absurd same (by decide)

end Sys2Proof.Machine
end

/-!
O9: a fault taken by a team without tile-side work (R116, R220, Table 7.5).
-/

section
namespace Sys2Proof.Machine

/-! ### Contexts and launches after an update -/

section
variable {s : State}

theorem State.pkg_putPkg (s : State) (p : PkgNo) (x : Pkg) : (s.putPkg p x).pkg p = x := by
  simp only [State.pkg, State.putPkg, kget_kput, if_true]

theorem State.ctx?_modCtx {p : PkgNo} {c : CtxId} {x : Ctx} (h : s.ctx? p c = some x) (f : Ctx → Ctx) :
    (s.modCtx p c f).ctx? p c = some (f x) := by
  simp only [State.modCtx, h]
  simp only [State.ctx?, State.modPkg, State.pkg_putPkg, kfind_kput, if_true]

theorem State.launch?_id {id : Nat} {l : Launch} (h : s.launch? id = some l) : l.id = id := by
  simpa using List.find?_some h

theorem State.launch?_putLaunch {id : Nat} {l k : Launch} (hid : l.id = id) (h : s.launch? id = some k) :
    (s.putLaunch l).launch? id = some l := by
  subst hid
  have hk := State.launch?_id h
  rw [State.launch?] at h ⊢
  have same : ((fun u : Launch => u.id == l.id) ∘ fun u => if u.id == l.id then l else u) = fun u => u.id == l.id := by
    funext u
    by_cases hu : u.id = l.id <;> simp [hu]
  rw [State.putLaunch, List.find?_map, same, h, Option.map_some, if_pos (by simp [hk])]

end

/-! ### The team that takes a fault -/

/-- R116, R220: the team at the faulting word, with the registers that a fault loads; nothing of its tile side goes back. -/
def Team.faulted (t : Team) (h : HeldFault) : Team :=
  { t with pc := h.pc, wordSeq := h.seq, wait := .none, tileWalk := none, broken := none, fcrd := fcrdOf h.info,
           xrow := h.info.xrow.getD t.xrow, heldFault := none }

section
variable {t : Team} {h : HeldFault}

theorem Team.Quiet.rollBack_eq (hq : t.Quiet) (h : HeldFault) : t.rollBack h = t.faulted h := by
  obtain ⟨htiq, hcopies, hhist, hsbuf, hheld, hpair, hwalk, hlate⟩ := hq
  cases t
  simp_all [Team.rollBack, Team.faulted, Team.undoFrom, Team.dropClaims, Team.pastAt]

/-- Nothing of a quiet team's is left to settle once it has rolled back. -/
theorem State.settle_rollBack {s : State} (ht : s.team? t.uid = some t) (hq : t.Quiet) :
    (s.putTeam (t.rollBack h)).settle t.uid = s.putTeam (t.faulted h) := by
  rw [hq.rollBack_eq]
  exact State.settle_quiet (State.only_fill (t.faulted h) rfl ht) hq.sbuf hq.hist hq.late

end

/-! ### The record (Table 7.5) -/

/-- The fields of a fault record that say where and when: the rest tell the address, the element and the lane. -/
theorem faultWords_fields (t : Team) (h : HeldFault) (xrow : BitVec 16) (pages : List Word) (seq : BitVec 32) (cyc : Word)
    (tile : Bool) (free : Nat) :
    let words := faultWords t h xrow pages.length seq cyc tile free ++ pages
    (words.getD 0 0).extractLsb' 48 16 = t.ctx ∧ (words.getD 0 0).extractLsb' 40 8 = h.info.kind ∧
    (words.getD 0 0).extractLsb' 37 3 = h.info.path.code ∧ (words.getD 0 0).getLsbD 36 = h.slot ∧
    (words.getD 0 0).getLsbD 35 = decide (8 < words.length) ∧
    (words.getD 0 0).extractLsb' 25 10 = 0 ∧ (words.getD 0 0).extractLsb' 0 25 = t.gid ∧
    words.getD 1 0 = h.pc ∧ words.getD 2 0 = h.word ∧
    (words.getD 6 0).extractLsb' 0 32 = seq ∧ words.getD 7 0 = cyc := by
  have hlen : decide (8 < (faultWords t h xrow pages.length seq cyc tile free ++ pages).length) = (pages.length != 0) := by
    have h8 : (faultWords t h xrow pages.length seq cyc tile free).length = 8 := rfl
    rw [List.length_append, h8]
    cases pages <;> simp
  simp only [hlen]
  refine ⟨?_, ?_, ?_, ?_, ?_, ?_, ?_, rfl, rfl, ?_, rfl⟩
  all_goals simp [faultWords]

/-! ### The state after the fault -/

/-- The team once it has taken the fault. -/
def Team.stoppedBy (t : Team) (h : HeldFault) (seq : BitVec 32) : Team :=
  { t.faulted h with status := .stopped h.resume seq }

/-- The context with one more record on its way to the fault queue. -/
def Ctx.posting (c : Ctx) (t : Team) (words : List Word) : Ctx :=
  { c with faultSeq := c.faultSeq + 1, posts := c.posts ++ [⟨t.uid, t.launch, words⟩] }

/-- The record that a quiet team's fault posts. -/
def State.quietRecord (s : State) (t : Team) (h : HeldFault) (seq : BitVec 32) : List Word :=
  let pages := (s.putTeam (t.faulted h)).runAhead t.uid h.info
  faultWords (t.faulted h) h (t.faulted h).xrow pages.length seq (s.cyc t) false s.free ++ pages.map PageRec.entry

section
variable {s : State} {t : Team} {c : Ctx} {l : Launch}

/-- R220: the team stops, its context posts the record under its next number, its launch counts the fault. -/
theorem State.takeFault_quiet (ht : s.team? t.uid = some t) (hq : t.Quiet) (hc : s.teamCtx? t = some c)
    (hl : s.launch? t.launch = some l) (h : HeldFault) :
    s.takeFault t.uid h = ((s.putTeam (t.stoppedBy h c.faultSeq)).modCtx t.pkg t.ctx (fun c' =>
        c'.posting t (s.quietRecord t h c.faultSeq))).putLaunch { l with faults := l.faults + 1 } := by
  have hfaulted : (s.putTeam (t.faulted h)).team? t.uid = some (t.faulted h) := State.team?_putTeam_of ht rfl
  have hseq : (s.putTeam (t.faulted h)).teamCtx? (t.faulted h) = some c := hc
  have hlaunch : ∀ f, ((s.putTeam (t.stoppedBy h c.faultSeq)).modCtx (t.faulted h).pkg (t.faulted h).ctx f).launch?
      (t.faulted h).launch = some l := fun f => by
    simp only [State.launch?, State.modCtx_launches, State.putTeam_launches]
    exact hl
  have htile : t.tiq.any (fun e => e.seq == h.seq) = false := by rw [hq.tiq, List.any_nil]
  have hput := State.putTeam_putTeam s (t.faulted h) (t.stoppedBy h c.faultSeq) rfl
  rw [Team.stoppedBy] at hput hlaunch
  simp only [State.takeFault, ht, State.settle_rollBack ht hq, hfaulted, hseq, htile, hput, hlaunch]
  rfl

end

/-- Settles O9: the fields of the record are `faultWords_fields`, the rest stands in `State.takeFault_quiet`. -/
theorem faultTaken : Obligations.FaultTaken := by
  unfold Obligations.FaultTaken
  intro s t h c l ht hq hc hl
  rw [State.takeFault_quiet ht hq hc hl]
  refine ⟨_, _, s.quietRecord t h c.faultSeq, ?team, rfl, ?ctx, rfl, ?launch, ?record⟩
  case team =>
    simp only [State.team?, State.putLaunch_teams, State.modCtx_teams]
    exact State.team?_putTeam_of (w := t.stoppedBy h c.faultSeq) ht rfl
  case ctx =>
    exact State.ctx?_modCtx (s := s.putTeam (t.stoppedBy h c.faultSeq)) hc
      (fun c' => c'.posting t (s.quietRecord t h c.faultSeq))
  case launch =>
    refine State.launch?_putLaunch (k := l) (State.launch?_id (l := l) hl) ?_
    simp only [State.launch?, State.modCtx_launches, State.putTeam_launches]
    exact hl
  case record =>
    have hpages := List.length_map (f := PageRec.entry) (as := (s.putTeam (t.faulted h)).runAhead t.uid h.info)
    simp only [State.quietRecord, ← hpages]
    exact faultWords_fields (t.faulted h) h _ _ _ _ _ _

end Sys2Proof.Machine
end

/-!
O49: boundaries, CFENCE and the atomics (R206, R211 to R213, R215, R217 to R219, R250).
-/

section
namespace Sys2Proof.Machine

/-! ### Names that gather -/

theorem mem_union {a b : List Nat} {x : Nat} : x ∈ union a b ↔ x ∈ a ∨ x ∈ b := by
  by_cases h : x ∈ a <;> simp [union, h]

/-- What gathering names from a list of things holds: the names at the start, and those of each thing. -/
theorem mem_foldl_union {α : Type} (f : α → List Nat) (l : List α) {a : List Nat} {x : Nat} :
    x ∈ l.foldl (fun k b => union k (f b)) a ↔ x ∈ a ∨ ∃ b ∈ l, x ∈ f b := by
  induction l generalizing a with
  | nil => simp
  | cons b bs ih => simp [ih, mem_union, or_assoc]

/-! ### What a boundary acquires (R211, R212) -/

/-- Publication `b` is of the team's context, and each of the two teams is a party of the other's scope (R206). -/
def Pub.PartyOf (b : Pub) (t : Team) (sc : ScopeCode) : Prop :=
  b.ctx = t.ctx ∧ b.uid ≠ t.uid ∧ partyOf b.scope b.uid b.gid t.uid t.gid = true ∧ partyOf sc t.uid t.gid b.uid b.gid = true

section
variable {s : State} {t : Team} {sc : ScopeCode} {early : Bool} {began : Nat} {b : Pub}

theorem State.acquires_party {knows : List Nat} (h : s.acquires t sc early began knows b = true) : b.PartyOf t sc := by
  simp only [State.acquires, Bool.and_eq_true, beq_iff_eq, bne_iff_ne] at h
  obtain ⟨⟨⟨⟨hctx, huid⟩, hto⟩, hfrom⟩, -⟩ := h
  exact ⟨hctx, huid, hto, hfrom⟩

theorem State.acquires_known {knows : List Nat} (hp : b.PartyOf t sc) (hk : b.id ∈ knows) :
    s.acquires t sc early began knows b = true := by
  obtain ⟨hctx, huid, hto, hfrom⟩ := hp
  simp [State.acquires, hctx, huid, hto, hfrom, hk]

/-- The team that has acquired: what its team-path view holds, whatever has been taken early. -/
theorem State.team?_acquire (ht : s.team? t.uid = some t) (prec : List Nat) :
    ∃ u, (s.acquire t.uid sc early began prec).team? t.uid = some u ∧ (∀ w ∈ t.view .team, w ∈ u.view .team) ∧
      (∀ b ∈ s.pubs, b.PartyOf t sc → b.id ∈ t.knows ∨ b.id ∈ prec → ∀ w ∈ b.view, w ∈ u.view .team) ∧
      (∀ w ∈ u.view .team, w ∈ t.view .team ∨ ∃ b ∈ s.pubs, b.PartyOf t sc ∧ w ∈ b.view) := by
  have hview : ∀ (v k : List Nat), ({ t.setView .team v with knows := k } : Team).view .team = v := fun v k =>
    Vector.getElem_set_self _
  simp only [State.acquire, ht]
  refine ⟨_, State.team?_putTeam_of ht rfl, ?_⟩
  simp only [hview, mem_foldl_union, List.mem_filter]
  refine ⟨fun w hw => .inl hw, fun b hb hp hk w hw => .inr ⟨b, ⟨hb, State.acquires_known hp ?_⟩, hw⟩, ?_⟩
  · exact mem_foldl_union _ _ |>.mpr (.inl (mem_union.mpr hk))
  · rintro w (hw | ⟨b, ⟨hb, ha⟩, hw⟩)
    · exact .inl hw
    · exact .inr ⟨b, hb, State.acquires_party ha, hw⟩

/-- What completes a boundary after its acquisition leaves the team's views (R207). -/
theorem State.team?_complete (ht : s.team? t.uid = some t) (pub : Nat) (prec : List Nat) :
    ∃ early began u v, (s.acquire t.uid sc early began prec).team? t.uid = some u ∧
      (s.complete t.uid sc pub prec).team? t.uid = some v ∧ v.views = u.views := by
  obtain ⟨u, hu, -⟩ := State.team?_acquire (sc := sc) (early := !s.pubTaken t.uid pub)
    (began := match s.pubs.find? (fun b => b.id == pub) with
      | some b => b.began
      | none => s.now) ht prec
  exact ⟨_, _, u, _, hu, State.team?_modTeam _ (fun _ => rfl) hu, rfl⟩

end

/-! ### The instructions -/

section
variable {s : State} {t : Team}

theorem chkRun_of_ok {α : Type} {x : Chk α} {a : α} (h : x = .ok a) (k : α → Run) : chkRun s x k = k a := by
  rw [h, chkRun]

theorem exec_phase (sc : ScopeCode) (s : State) : exec (.phase sc) s = execPhase sc s := rfl
theorem exec_cfence (fp tp : BitVec 3) (s : State) : exec (.cfence fp tp) s = execCfence fp tp s := rfl
theorem exec_amo (op : BitVec 5) (d : Bool) (sc : ScopeCode) (sd sa sb : SReg) (s : State) :
    exec (.amo op d sc sd sa sb) s = execAmo op d sc sd sa sb s := rfl
theorem exec_cas (d : Bool) (sc : ScopeCode) (sd sa sb : SReg) (s : State) :
    exec (.cas d sc sd sa sb) s = execCas d sc sd sa sb s := rfl
theorem exec_claim (sc : ScopeCode) (sd sa sb : SReg) (s : State) :
    exec (.claim sc sd sa sb) s = execClaim sc sd sa sb s := rfl

/-- R207: a boundary whose pairs the Press takes need not wait. -/
theorem State.bound_passes {uid : Nat} (h : s.Clears uid) (sc : ScopeCode) (prec : List Nat) (k : State → Run) :
    s.bound uid sc prec k = k (s.passes uid sc prec) := by
  rw [State.Clears] at h
  simp only [State.bound, State.boundaryAfter, h, if_true]
  rfl

end

/-- Settles O49: the instructions by their own work on the word's keys, the boundary by `State.team?_acquire`. -/
theorem atomicResults : Obligations.AtomicResults := by
  unfold Obligations.AtomicResults
  intro s t sc fp tp op d sd sa sb ks
  refine ⟨fun h hc => ?phase, fun h => ?cfence, fun h hk => ?amo, fun h hk => ?cas, fun h hle hk => ?claim,
    fun h hlt => ?tooMany, fun pub prec ht => ?boundary⟩
  case phase =>
    rw [exec_phase]
    exact State.front_done h (State.bound_passes hc sc [] _)
  case cfence =>
    rw [exec_cfence]
    exact State.front_done h rfl
  case amo =>
    rw [exec_amo]
    exact State.front_done h (chkRun_of_ok hk _)
  case cas =>
    rw [exec_cas]
    exact State.front_done h (chkRun_of_ok hk _)
  case claim =>
    rw [exec_claim]
    exact State.front_done h ((if_neg (Nat.not_lt.mpr hle)).trans (chkRun_of_ok hk _))
  case tooMany =>
    rw [exec_claim]
    exact State.front_fail h (if_pos hlt)
  case boundary =>
    obtain ⟨early, began, u, v, hu, hv, hviews⟩ := State.team?_complete (sc := sc) ht pub prec
    obtain ⟨u', hu', hown, hprec, honly⟩ := State.team?_acquire (sc := sc) (early := early) (began := began) ht prec
    obtain rfl : u' = u := Option.some.inj (hu'.symm.trans hu)
    have hsame : v.view .team = u'.view .team := congrArg (fun x : Vector (List Nat) 5 => x.get _) hviews
    exact ⟨v, hv, hsame ▸ hown, hsame ▸ hprec, hsame ▸ honly⟩

end Sys2Proof.Machine
end

/-!
O58: errors, retirement, failures of units and links, ports, clock and power (R4, R222, R234, R290, R291, R305, R356, R357,
R392, R393).
-/

section
namespace Sys2Proof.Machine

/-! ### Guards of the events -/

section
variable {s : State} {p : PkgNo}

/-- R222, R304: each context ends, and is reported, in its turn. -/
theorem State.failCtxs_cons (s : State) (unit : Nat) (kind : EventKind) (c : CtxId) (cs : List CtxId) :
    s.failCtxs p unit kind (c :: cs) = ((s.endCtx c).report p ⟨some c, unit, kind⟩).failCtxs p unit kind cs := by
  simp only [State.failCtxs, List.foldl_cons]

/-- R234: a retirement is made while no team stands on the cluster. -/
theorem execRetirement_of_empty {pos : Position}
    (h : s.teams.any (fun t => t.pkg == p && gidDie t.gid == pos.die && gidClu t.gid == pos.clu) = false) :
    execRetirement p pos s =
      .next ((s.modPkg p (fun k => (k.retire pos).awaitPass)).report p ⟨none, positionUnit pos, .retirement⟩) :=
  if_neg (by simp [h])

/-- R79: a pass is made while no context of its image is placed on the package. -/
theorem execRouteFixupPass_of_unplaced {fx : List RouteFixup} (h : ∀ t ∈ s.teams, t.pkg = p → ∀ f ∈ fx, t.ctx ∉ f.ctxs) :
    execRouteFixupPass p fx s =
      .next (((fx.foldl (fun s f => s.patchWords f 0 (s.fixupWords p f)) s).modPkg p (fun k =>
        k.passDone (fx.flatMap (·.ctxs)).eraseDups)).showPass p (fx.flatMap (·.ctxs)).eraseDups s.nextId) :=
  if_neg (by simpa using h)

/-- Firmware holds what a pass has not shown yet. -/
theorem Pkg.mem_passDone (k : Pkg) (cs : List CtxId) (x : CtxId) :
    (x ∈ (k.passDone cs).routed ↔ x ∈ k.routed ∨ x ∈ cs) ∧
    (x ∈ (k.passDone cs).awaiting ↔ x ∈ k.awaiting ∧ x ∉ cs) := by
  refine ⟨?_, by simp [Pkg.passDone]⟩
  by_cases hx : x ∈ k.routed <;> simp [Pkg.passDone, hx]

/-- R356: a port trains with another package, unless it is retired. -/
theorem execPortTraining_of_peer {q : PkgNo} {port pp : BitVec 4} {up comp : Bool} (hq : q ≠ p)
    (hm : ((s.pkg p).port port).mark ≠ .retired) :
    execPortTraining p port q pp up comp s = .next ((if up then s else s.dropLink p port).modPkg p (fun k =>
      k.putPort port ⟨if up then .up else .down, q, pp, up && comp⟩)) :=
  if_neg (not_or.mpr ⟨hq, hm⟩)

/-- R222: an error in what has been read, or in what a context owns, is its owner's. -/
theorem execUncorrectableError_of_read {site : ErrorSite} (h : ∀ key, site ≠ .unread key) :
    execUncorrectableError p site s = match s.errorOwner p site with
      | some c => .next (s.failCtxs p 0 .ecc [c])
      | none => .next s := by
  cases site with
  | unread key => exact absurd rfl (h key)
  | _ => rfl

/-- R393: a die's clock returns after 1,000 cycles without sag. -/
theorem Die.calm_eq (d : Die) (now : Nat) : d.calm now = { d with sagAt := match d.sagAt with
    | some st => if st + 1000 ≤ now then none else some st
    | none => none } := by
  cases h : d.sagAt with
  | none => cases d; simp_all [Die.calm]
  | some st =>
    cases d
    simp only [Die.calm] at h ⊢
    subst h
    by_cases hst : st + 1000 ≤ now <;> simp [hst]

end

/-- Settles O58: an event with a guard by its own lemma above, any other is its arm's own update. -/
theorem failuresAndPower : Obligations.FailuresAndPower := by
  unfold Obligations.FailuresAndPower
  intro s p q pos fx port pp up comp die unit key site o d c y x n
  refine ⟨fun kind => ⟨rfl, fun a as => s.failCtxs_cons unit kind a as⟩, rfl, fun h => execRetirement_of_empty h,
    fun h => execRouteFixupPass_of_unplaced h, fun k cs x => k.mem_passDone cs x, fun h => ?portDown, fun h => ?portRetire,
    fun hq hm => execPortTraining_of_peer hq hm, rfl, rfl, rfl, rfl, rfl, fun h => ⟨fun ctx ho => ?owned, fun ho => ?free⟩, rfl, rfl,
    ⟨_, rfl, rfl⟩, rfl, rfl, rfl, ⟨fun d => d.calm s.now, rfl, fun d => d.calm_eq s.now⟩, rfl, rfl, rfl, rfl, fun h => ?wake⟩
  case portDown => exact congrArg _ (if_pos h)
  case portRetire => exact if_pos h
  case owned =>
    refine (execUncorrectableError_of_read h).trans ?_
    rw [ho]
    rfl
  case free =>
    refine (execUncorrectableError_of_read h).trans ?_
    rw [ho]
  case wake => exact if_pos (by simp [h])

end Sys2Proof.Machine
end

/-!
O59: what a run of the tile side hands on keeps the invariant. The moves and the lane instructions.
-/

section
namespace Sys2Proof.Machine

/-- Every state that a run hands on keeps what `s` holds. -/
def Run.Keeps (s : State) : Run → Prop
  | .done s' => s.Keeps s'
  | .fail s' _ => s.Keeps s'
  | .walk => True
  | .stall s' => s.Keeps s'
  | .part s' _ => s.Keeps s'

/-- A check that ends in a value with a state `g` keeps what `s` holds. -/
def State.ChkKeeps {α : Type} (s : State) (g : α → State) (x : Chk α) : Prop := ∀ a, x = .ok a → s.Keeps (g a)

theorem State.ChkKeeps.ok {α : Type} {s : State} {g : α → State} {a : α} (h : s.Keeps (g a)) : s.ChkKeeps g (.ok a) := by
  rintro b ⟨⟩
  exact h

theorem State.ChkKeeps.error {α : Type} {s : State} {g : α → State} {e : Stop} : s.ChkKeeps g (.error e) := by
  rintro b ⟨⟩

/-- A check goes on from the value of another. -/
theorem State.ChkKeeps.bind {α β : Type} {s : State} {g : β → State} {x : Chk α} {f : α → Chk β}
    (h : ∀ a, x = .ok a → s.ChkKeeps g (f a)) : s.ChkKeeps g (x >>= f) := by
  cases hx : x with
  | error e => exact .error
  | ok a => exact h a hx

theorem State.ChkKeeps.map {α β : Type} {s : State} {g : β → State} {x : Chk α} {f : α → β}
    (h : s.ChkKeeps (fun a => g (f a)) x) : s.ChkKeeps g (x.map f) := by
  cases hx : x with
  | error e => exact .error
  | ok a => exact .ok (h a hx)

theorem State.ChkKeeps.mapFault {α : Type} {s : State} {g : α → State} {f : FaultInfo → FaultInfo} {x : Chk α}
    (h : s.ChkKeeps g x) : s.ChkKeeps g (Machine.mapFault f x) := by
  intro a ha
  unfold Machine.mapFault at ha
  split at ha
  · cases ha
  · exact h a ha

theorem runChk_keeps {s : State} {x : Chk State} (h : s.ChkKeeps id x) : (runChk s x).Keeps s := by
  unfold runChk
  split
  · next s' => exact h s' rfl
  · exact .refl s
  · trivial
  · exact .refl s

theorem Run.Keeps.trans {a b : State} {r : Run} (h : a.Keeps b) (k : r.Keeps b) : r.Keeps a := by
  cases r with
  | walk => trivial
  | done s => exact State.Keeps.trans h k
  | fail s f => exact State.Keeps.trans h k
  | stall s => exact State.Keeps.trans h k
  | part s n => exact State.Keeps.trans h k

theorem State.Keeps.ite {s a b : State} {c : Prop} [Decidable c] (ha : s.Keeps a) (hb : s.Keeps b) :
    s.Keeps (if c then a else b) := by
  split
  · exact ha
  · exact hb

theorem Run.Keeps.ite {s : State} {a b : Run} {c : Prop} [Decidable c] (ha : a.Keeps s) (hb : b.Keeps s) :
    (if c then a else b).Keeps s := by
  split
  · exact ha
  · exact hb

theorem Run.Keeps.upTo {s : State} {r : Run} (h : r.Keeps s) (more : Bool) (row : Nat) : (r.upTo more row).Keeps s := by
  cases r with
  | done s' => cases more <;> exact h
  | fail s' f => exact h
  | walk => trivial
  | stall s' => exact h
  | part s' n => exact h

theorem TIn.keeps_put (i : TIn) (td : TReg) (x : Tile) (e : Env) : i.s.Keeps (i.put td x e) := State.keeps_putTeam ..

theorem TIn.keeps_putMoved (i : TIn) (td : TReg) (et : BitVec 5) (els : List (Nat × Nat × Nat))
    (scs : List (Nat × Nat × Byte)) : i.s.Keeps (i.putMoved td et els scs) := State.keeps_putTeam ..

theorem TIn.keeps_live (i : TIn) (srcs : List TReg) {f : TIn → Run} (h : (f i).Keeps i.s) : (i.live srcs f).Keeps i.s := by
  unfold TIn.live
  split
  · exact .refl _
  · split
    · exact .refl _
    · split
      · next s' hr => rw [hr] at h; exact State.Keeps.trans h (State.keeps_modTeam ..)
      · exact h

theorem ewRun_keeps (i : TIn) (td : TReg) (ta tb : Src) (f : EClass → Nat → Nat → Nat → Env → Nat × Env) :
    (ewRun i td ta tb f).Keeps i.s :=
  i.keeps_live _ (i.keeps_put ..)

theorem runTmov_keeps (i : TIn) (td : TReg) (ta : Src) : (runTmov i td ta).Keeps i.s := by
  simp only [runTmov]
  split
  · exact i.keeps_put ..
  · exact i.keeps_live _ (i.keeps_putMoved ..)

theorem runTtrn_keeps (i : TIn) (td : TReg) (ta : Src) : (runTtrn i td ta).Keeps i.s := i.keeps_live _ (i.keeps_putMoved ..)
theorem runTfill_keeps (i : TIn) (td : TReg) (sa : SReg) : (runTfill i td sa).Keeps i.s := i.keeps_live _ (i.keeps_put ..)
theorem runTiota_keeps (i : TIn) (td : TReg) (sa sb : SReg) : (runTiota i td sa sb).Keeps i.s := i.keeps_live _ (i.keeps_put ..)
theorem runTslide_keeps (i : TIn) (dir : BitVec 2) (fill : Option Src) (td : TReg) (ta : Src) (n : BitVec 6) :
    (runTslide i dir fill td ta n).Keeps i.s := i.keeps_live _ (i.keeps_putMoved ..)

theorem runTpack_keeps (i : TIn) (td : TReg) (ta : Src) : (runTpack i td ta).Keeps i.s := by
  refine i.keeps_live _ ?_
  simp only
  split
  · exact .refl i.s
  · exact i.keeps_put ..

theorem runTunpk_keeps (i : TIn) (td : TReg) (ta : Src) : (runTunpk i td ta).Keeps i.s := i.keeps_live _ (i.keeps_putMoved ..)
theorem runTcvt_keeps (i : TIn) (rm : Rm) (nsat s : Bool) (td : TReg) (ta : Src) : (runTcvt i rm nsat s td ta).Keeps i.s :=
  i.keeps_live _ (i.keeps_put ..)

theorem runTqnt_keeps (i : TIn) (rm : Rm) (nsat : Bool) (td : TReg) (ta : Src) : (runTqnt i rm nsat td ta).Keeps i.s := by
  refine i.keeps_live _ ?_
  simp only
  split
  · exact i.keeps_put ..
  · exact .refl i.s

theorem runTdqt_keeps (i : TIn) (rm : Rm) (scale : Option EReg) (td : TReg) (ta : Src) :
    (runTdqt i rm scale td ta).Keeps i.s := by
  refine i.keeps_live _ ?_
  simp only
  split
  · exact i.keeps_put ..
  · exact .refl i.s

theorem runTdecl_keeps (i : TIn) (td : TReg) (h : Handle) : (runTdecl i td h).Keeps i.s := by
  unfold runTdecl
  split
  · exact State.keeps_putTeam ..
  · exact .refl i.s

theorem runQbind_keeps (i : TIn) (q : QReg) (n : TReg) : (runQbind i q n).Keeps i.s := by
  unfold runQbind
  split
  · exact State.keeps_putTeam ..
  · exact .refl i.s

theorem runQrel_keeps (i : TIn) (q : QReg) : (runQrel i q).Keeps i.s := by
  unfold runQrel
  split
  · exact State.keeps_putTeam ..
  · exact .refl i.s

theorem runMap_keeps (i : TIn) (cv : Conv) (cnt : BitVec 2) (td : TReg) (ta tb : Src) (sa sb : SReg) (fn : BitVec 8) :
    (runMap i cv cnt td ta tb sa sb fn).Keeps i.s := by
  simp only [runMap]
  exact i.keeps_live _ (i.keeps_put ..)

theorem runReduce_keeps (i : TIn) (col two : Bool) (cv : Conv) (td : TReg) (ta tb : Src) (sa sb : SReg) (fn : StepFn) :
    (runReduce i col two cv td ta tb sa sb fn).Keeps i.s := i.keeps_live _ (i.keeps_put ..)

theorem runScan_keeps (i : TIn) (col two : Bool) (cv : Conv) (td : TReg) (ta tb : Src) (sa sb : SReg) (fn : StepFn) :
    (runScan i col two cv td ta tb sa sb fn).Keeps i.s := i.keeps_live _ (i.keeps_put ..)

theorem runTrds_keeps (i : TIn) (two : Bool) (rm : Rm) (ta tb : Src) (sa sb : SReg) (fn : StepFn) :
    (runTrds i two rm ta tb sa sb fn).Keeps i.s := by
  unfold runTrds
  split
  · exact State.keeps_putTeam ..
  · exact i.keeps_live _ (State.keeps_putTeam ..)

end Sys2Proof.Machine
end

/-!
O59: the tile side's accesses to memory, its copies, its products and accumulators keep the invariant.
-/

section
namespace Sys2Proof.Machine

/-! ### Reads and writes of elements -/

theorem State.keeps_readSite (s : State) (t : Team) (p : Path) (x : Site) : s.Keeps (s.readSite t p x).2 :=
  s.keeps_load t p x.keys

theorem State.keeps_writeSite (s : State) (uid : Nat) (p : Path) (x : Site) (v : Nat) : s.Keeps (s.writeSite uid p x v) := by
  unfold State.writeSite
  split
  · exact .refl s
  · exact s.keeps_store ..

theorem State.keeps_readEls (p : Path) (uid : Nat) (es : List ElSite) (s : State) : s.Keeps (readEls p uid es s).2 := by
  induction es generalizing s with
  | nil => exact .refl s
  | cons e es ih =>
    unfold readEls
    split
    · exact .refl s
    · exact (s.keeps_readSite ..).trans (ih _)

theorem State.keeps_readSegs (p : Path) (uid : Nat) (gs : List (List ElSite)) (s : State) :
    s.Keeps (readSegs p uid gs s).2.2 := by
  induction gs generalizing s with
  | nil => exact .refl s
  | cons g gs ih =>
    unfold readSegs
    split
    · exact .refl s
    · exact (s.keeps_load ..).trans (ih _)

theorem State.keeps_writeEls (p : Path) (uid : Nat) (es : List (Site × Nat)) (s : State) : s.Keeps (writeEls p uid es s) := by
  induction es generalizing s with
  | nil => exact .refl s
  | cons e es ih => exact (s.keeps_writeSite ..).trans (ih _)

theorem State.keeps_writeSegs (p : Path) (uid : Nat) (gs : List (List (Site × Nat) × List Host.Cell)) (s : State) :
    s.Keeps (writeSegs p uid gs s) := by
  induction gs generalizing s with
  | nil => exact .refl s
  | cons g gs ih =>
    unfold writeSegs
    split
    · exact .refl s
    · exact (s.keeps_store ..).trans (ih _)

theorem State.keeps_readBytes (p : Path) (uid : Nat) (ks : List Nat) (s : State) : s.Keeps (readBytes p uid ks s).2 := by
  induction ks generalizing s with
  | nil => exact .refl s
  | cons k ks ih =>
    unfold readBytes
    split
    · exact .refl s
    · exact (s.keeps_load ..).trans (ih _)

theorem State.keeps_copyRead (uid : Nat) (gs : List (List CopySite)) (s : State) : s.Keeps (copyRead uid gs s).2 := by
  induction gs generalizing s with
  | nil => exact .refl s
  | cons g gs ih =>
    unfold copyRead
    split
    · exact .refl s
    · exact (s.keeps_load ..).trans (ih _)

/-- Bytes stored one by one. -/
theorem State.keeps_storeCells (uid : Nat) (p : Path) (cells : List Host.Cell) (s : State) :
    s.Keeps (cells.foldl (fun s c => s.store uid p [c]) s) :=
  State.keeps_foldl _ (fun s _ => s.keeps_store ..) _ s

theorem State.keeps_tritRead (s : State) (uid : Nat) (et : BitVec 5) (xs : List Nat) : s.Keeps (s.tritRead uid et xs) := by
  unfold State.tritRead
  split
  · exact s.keeps_modTeam ..
  · exact .refl s

theorem TIn.keeps_loadEls (i : TIn) (p : Path) (td : TReg) (es : List ElSite) : i.s.Keeps (loadEls i p td es) := by
  simp only [loadEls]
  split
  · exact (State.keeps_readSegs ..).trans (State.keeps_putTeam ..)
  · exact (State.keeps_readEls ..).trans (State.keeps_putTeam ..)

theorem TIn.keeps_readSparse (i : TIn) (d : Shape) (h : Handle) (tn : TReg) (ff : Bool) :
    i.s.ChkKeeps (fun r => r.2.2) (readSparse i d h tn ff) := by
  refine .bind (fun mk _ => ?_)
  simp only
  have rest : ∀ (a b : List Nat), i.s.Keeps (readBytes .team i.t.uid b (readBytes .team i.t.uid a i.s).2).2 :=
    fun _ _ => (State.keeps_readBytes ..).trans (State.keeps_readBytes ..)
  split <;> refine .bind (fun _ _ => ?_) <;> split <;> exact .bind (fun _ _ => .bind (fun _ _ => .ok (rest _ _)))

theorem TIn.keeps_runSparse (i : TIn) (td : TReg) (h : Handle) (ff : Bool) : i.s.ChkKeeps (·.1) (runSparse i td h ff) :=
  .bind (fun r hr => .ok ((i.keeps_readSparse _ h td ff r hr).trans (State.keeps_putTeam ..)))

/-! ### Loads, stores, gathers and scatters -/

theorem runTld_keeps (i : TIn) (td : TReg) (h : Handle) (sx : SReg) : (runTld i td h sx).Keeps i.s := by
  unfold runTld
  split
  · exact runChk_keeps (.map (i.keeps_runSparse _ _ _))
  · exact i.keeps_live _ (runChk_keeps (.bind (fun _ _ => .ok (i.keeps_loadEls ..))))

theorem runTldff_keeps (i : TIn) (td : TReg) (h : Handle) (sx : SReg) : (runTldff i td h sx).Keeps i.s := by
  unfold runTldff
  split
  · exact runChk_keeps (.bind (fun r hr => .ok ((i.keeps_runSparse _ _ _ r hr).trans (State.keeps_modTeam ..))))
  · refine i.keeps_live _ ?_
    simp only
    split
    · exact runChk_keeps (.bind (fun _ _ => .ok ((i.keeps_loadEls ..).trans (State.keeps_modTeam ..))))
    · trivial
    · exact .refl i.s
    · split
      · exact runChk_keeps (.bind (fun _ _ => .error))
      · exact runChk_keeps (.bind (fun _ _ => .ok ((i.keeps_loadEls ..).trans (State.keeps_modTeam ..))))

theorem runTstPacked_keeps (i : TIn) (ta : TReg) (h : Handle) : (runTstPacked i ta h).Keeps i.s := by
  refine i.keeps_live _ ?_
  simp only
  split
  · exact runChk_keeps (fun a ha => by simp [atEl, failK, mapFault] at ha)
  · exact runChk_keeps (.bind (fun _ _ => .ok ((State.keeps_storeCells ..).trans (State.keeps_tritRead ..))))

theorem runTst_keeps (i : TIn) (ta : TReg) (h : Handle) (sx : SReg) : (runTst i ta h sx).Keeps i.s := by
  unfold runTst
  split
  · exact runTstPacked_keeps ..
  · refine i.keeps_live _ (runChk_keeps (.bind (fun _ _ => ?_)))
    split
    · exact .ok (State.keeps_writeSegs ..)
    · exact .ok ((State.keeps_writeEls ..).trans (State.keeps_tritRead ..))

theorem runTgth_keeps (i : TIn) (u : Bool) (kind : BitVec 2) (td : TReg) (ti : Src) (h : Handle) (sx : SReg) :
    (runTgth i u kind td ti h sx).Keeps i.s :=
  i.keeps_live _ (runChk_keeps (.bind (fun _ _ => .ok (i.keeps_loadEls ..))))

theorem runTsct_keeps (i : TIn) (kind : BitVec 2) (ta ti : Src) (h : Handle) (sx : SReg) :
    (runTsct i kind ta ti h sx).Keeps i.s :=
  i.keeps_live _ (runChk_keeps (.bind (fun _ _ => .ok ((State.keeps_writeEls ..).trans (State.keeps_tritRead ..)))))

/-! ### Copies -/

theorem TIn.keeps_copySparse (i : TIn) (c : Copy) (n : Nat) : i.s.ChkKeeps id (copySparse i c n) := by
  refine .bind (fun _ _ => .bind (fun _ _ => .bind (fun _ _ => ?_)))
  exact .ok ((State.keeps_readBytes ..).trans (State.keeps_storeCells ..))

theorem TIn.keeps_copyRow (i : TIn) (c : Copy) : i.s.ChkKeeps id (copyRow i c) := by
  simp only [copyRow]
  split
  · exact .error
  · split
    · exact i.keeps_copySparse _ _
    · refine .bind (fun _ _ => ?_)
      have read : ∀ gs et xs, i.s.Keeps ((copyRead i.t.uid gs i.s).2.tritRead i.t.uid et xs) :=
        fun _ _ _ => (State.keeps_copyRead ..).trans (State.keeps_tritRead ..)
      split
      · exact .ok ((read _ _ _).trans (State.keeps_modTeam ..))
      · split
        · exact .ok ((read _ _ _).trans (State.keeps_writeSegs ..))
        · exact .ok ((read _ _ _).trans (State.keeps_writeEls ..))

theorem runTwait_keeps (i : TIn) : (runTwait i).Keeps i.s :=
  (State.keeps_cfence ..).trans ((State.keeps_cfence ..).trans (State.keeps_cfence ..))

/-! ### Products, resident B and accumulators -/

theorem tileProduct_keeps (i : TIn) (isInt : Bool) (w : Nat) (ad : AReg) (ta : Src) (d : MDims) (en : Option EReg) :
    (tileProduct i isInt w ad ta d en).Keeps i.s := by
  simp only [tileProduct]
  split
  · exact .refl i.s
  · exact Run.Keeps.upTo (r := .done _) (State.keeps_putTeam ..) _ _

theorem mmamRows_keeps (i : TIn) (f : BitVec 2) (ad : AReg) (h : Handle) (sx : SReg) (d : MDims) (en : Option EReg)
    (n row : Nat) (s : State) : (mmamRows i f ad h sx d en n row s).Keeps s := by
  induction n generalizing row s with
  | zero => exact .refl s
  | succ n ih =>
    unfold mmamRows
    split
    · exact .refl s
    · split
      · exact .refl s
      · trivial
      · exact .refl s
      · simp only
        split
        · exact .trans (.trans (State.keeps_readSegs ..) (State.keeps_modTeam ..)) (ih _ _)
        · exact .trans (.trans (State.keeps_readEls ..) (State.keeps_modTeam ..)) (ih _ _)

theorem runMmam_keeps (i : TIn) (f : BitVec 2) (ad : AReg) (h : Handle) (ss sx sp : SReg) (en : Option EReg) :
    (runMmam i f ad h ss sx sp en).Keeps i.s := by
  simp only [runMmam]
  split
  · exact .refl i.s
  · exact (mmamRows_keeps ..).upTo ..

theorem runLdb_keeps (i : TIn) (dims : Option SReg) (ta : Src) (so : SReg) : (runLdb i dims ta so).Keeps i.s := by
  simp only [runLdb]
  split
  · exact State.keeps_putTeam ..
  · exact State.keeps_putTeam ..

theorem runLdbm_keeps (i : TIn) (dims : Option SReg) (h : Handle) (sx so : SReg) : (runLdbm i dims h sx so).Keeps i.s := by
  simp only [runLdbm]
  split
  · refine runChk_keeps (.bind (fun _ _ => ?_))
    split
    · exact .ok ((State.keeps_readSegs ..).trans (State.keeps_modTeam ..))
    · exact .ok ((State.keeps_readEls ..).trans (State.keeps_modTeam ..))
  · exact State.keeps_putTeam ..

theorem runArd_keeps (i : TIn) (clr : Bool) (cv : Conv) (td : TReg) (as : AReg) (sw sx : SReg) (en : Option EReg) :
    (runArd i clr cv td as sw sx en).Keeps i.s := by
  simp only [runArd]
  split
  · exact .refl i.s
  · split
    · exact (TIn.keeps_put ..).trans (State.keeps_modTeam ..)
    · exact TIn.keeps_put ..

theorem runAwr_keeps (i : TIn) (add : Bool) (ad : AReg) (ta : Src) (sw : SReg) : (runAwr i add ad ta sw).Keeps i.s := by
  simp only [runAwr]
  split
  · exact .refl i.s
  · exact State.keeps_putTeam ..

theorem runAmaxa_keeps (i : TIn) (acc : Bool) (td : TReg) (as : AReg) (sw : SReg) : (runAmaxa i acc td as sw).Keeps i.s := by
  simp only [runAmaxa]
  split
  · exact .refl i.s
  · exact TIn.keeps_put ..

theorem runTscl_keeps (i : TIn) (tgt gc : BitVec 2) (en : EReg) (ta : Src) : (runTscl i tgt gc en ta).Keeps i.s := by
  simp only [runTscl]
  split
  · exact .refl i.s
  · exact State.keeps_putTeam ..

theorem runRoute_keeps (i : TIn) (td tc : TReg) (ti : Src) (se : SReg) : (runRoute i td tc ti se).Keeps i.s := by
  simp only [runRoute]
  split <;> exact State.keeps_putTeam ..

theorem runAblk_keeps (i : TIn) (fp8 causal : Bool) (td : TReg) (ta : Src) (ss sp : SReg) (k : BitVec 8) :
    (runAblk i fp8 causal td ta ss sp k).Keeps i.s := by
  simp only [runAblk]
  split
  · exact .refl i.s
  · exact TIn.keeps_put ..

theorem runIwalk_keeps (i : TIn) (td tc : TReg) (tm : Src) (ss sx : SReg) : (runIwalk i td tc tm ss sx).Keeps i.s := by
  simp only [runIwalk]
  split <;> exact State.keeps_putTeam ..

end Sys2Proof.Machine
end

/-!
O59: updates, messages, fabric exchanges and tables, and so every run of the tile side, keep the invariant.
-/

section
namespace Sys2Proof.Machine

/-! ### The Press, update queues and boundaries -/

theorem State.keeps_raiseName (s : State) (n : Nat) : s.Keeps { s with nextId := s.nextId + n } :=
  .of_eq rfl rfl (Nat.le_add_right ..)

theorem State.keeps_rackKeysOf (s : State) (pk : PkgNo) (p : PressKey → Bool) : s.Keeps (s.rackKeysOf pk p) :=
  State.keeps_foldl _ (fun s _ => s.keeps_rackWord ..) _ s

theorem State.keeps_freeRuns (pk : PkgNo) (ctx : CtxId) (stack lim : Nat) (ns : List Nat) (s : State) :
    s.Keeps (State.freeRuns pk ctx stack lim ns s) := by
  induction ns generalizing s with
  | nil => exact .refl s
  | cons n ns ih =>
    unfold State.freeRuns
    split
    · exact .refl s
    · exact (s.keeps_rackKeysOf ..).trans (ih _)

theorem State.keeps_spill (s : State) (pk : PkgNo) (stack cask : Nat) : s.Keeps (s.spill pk stack cask) := s.keeps_modPkg ..

theorem State.keeps_caskRoom {s s' : State} {pk : PkgNo} {c : Ctx} {stack cask : Nat}
    (h : s.caskRoom pk c stack cask = some s') : s.Keeps s' := by
  simp only [State.caskRoom] at h
  have freed := State.keeps_freeRuns pk c.id stack c.leesRuns (sortNats ((s.pkg pk).runsOf c.id stack)) s
  split at h
  · cases h
    exact .refl s
  · split at h
    · cases h
      exact freed.trans (State.keeps_spill ..)
    · split at h
      · cases h
        exact freed.trans (State.keeps_rackKeysOf ..)
      · cases h

theorem State.keeps_pressTake {s s' : State} {pk : PkgNo} {ctx : CtxId} {uid : Nat} {u : Pair}
    (h : s.pressTake pk ctx uid u = some s') : s.Keeps s' := by
  simp only [State.pressTake] at h
  split at h
  · cases h
    exact .refl s
  · split at h
    · cases h
      exact .refl s
    · split at h
      · cases h
        exact (s.keeps_raiseName 1).trans (State.keeps_modPkg ..)
      · split at h
        · cases h
        · next hroom =>
          cases h
          exact (s.keeps_raiseName 1).trans ((State.keeps_caskRoom hroom).trans (State.keeps_modPkg ..))

theorem State.keeps_handOffN (uid n : Nat) (s : State) : s.Keeps (State.handOffN uid n s) := by
  induction n generalizing s with
  | zero => exact .refl s
  | succ n ih =>
    unfold State.handOffN
    split
    · exact .refl s
    · split
      · exact .refl s
      · split
        · exact .refl s
        · next htake => exact (State.keeps_pressTake htake).trans ((State.keeps_modTeam ..).trans (ih _))

theorem State.keeps_handOffAll (s : State) (uid : Nat) : s.Keeps (s.handOffAll uid) := by
  unfold State.handOffAll
  split
  · exact State.keeps_handOffN ..
  · exact .refl s

theorem State.keeps_boundary (s : State) (uid : Nat) (sc : ScopeCode) : s.Keeps (s.boundary uid sc) :=
  (s.keeps_publish ..).trans (State.keeps_complete ..)

theorem State.keeps_boundaryAfter {s s' : State} {uid : Nat} {sc : ScopeCode} {prec : List Nat}
    (h : s.boundaryAfter uid sc prec = some s') : s.Keeps s' := by
  simp only [State.boundaryAfter] at h
  split at h
  · cases h
    exact (s.keeps_handOffAll uid).trans ((State.keeps_publish ..).trans (State.keeps_complete ..))
  · cases h

theorem State.keeps_noteHost (s : State) (t : Team) (table : Bool) (h : Nat) : s.Keeps (s.noteHost t table h) := by
  unfold State.noteHost
  split
  · exact (s.keeps_raiseName 1).trans (State.keeps_modCtx ..)
  · exact .refl s

/-! ### UPD -/

theorem TIn.keeps_placedRows (i : TIn) (ti tv : Src) (rh : BitVec 10) (es : List (Nat × Nat × Bool)) (one : Bool) :
    i.s.Keeps (placedRows i ti tv rh es one) := State.keeps_putTeam ..

theorem placeRows_keeps (i : TIn) (ti tv : Src) (rh : BitVec 10) (es : List (Nat × Nat × Bool)) :
    (placeRows i ti tv rh es).Keeps i.s := by
  simp only [placeRows]
  split
  · exact State.keeps_handOffAll ..
  · split
    · exact i.keeps_placedRows ..
    · split
      · exact i.keeps_placedRows ..
      · exact (i.keeps_placedRows ..).trans (State.keeps_handOffAll ..)

theorem runUpd_keeps (i : TIn) (strict : Bool) (ti tv : Src) (rh : BitVec 10) : (runUpd i strict ti tv rh).Keeps i.s := by
  unfold runUpd
  split
  · exact .refl i.s
  · split
    · split
      · exact placeRows_keeps ..
      · split
        · exact placeRows_keeps ..
        · exact .refl i.s
        · trivial
        · exact .refl i.s
    · exact .refl i.s

/-! ### Messages in the cluster -/

theorem State.keeps_sendMsg {s s' : State} {t u : Team} {saved ok : Bool} {m : Msg}
    (h : s.sendMsg t u saved m = some (s', ok)) : s.Keeps s' := by
  simp only [State.sendMsg] at h
  split at h
  · cases h
  · next hb =>
    split at h
    · cases h
      exact (State.keeps_boundaryAfter hb).trans ((State.keeps_raiseName _ 1).trans (State.keeps_modTeam ..))
    · cases h
      exact State.keeps_boundaryAfter hb

theorem runSendt_keeps (i : TIn) (k : GReg) (ta : Src) (sr : SReg) (team : BitVec 3) (tag : BitVec 16) :
    (runSendt i k ta sr team tag).Keeps i.s := by
  simp only [runSendt]
  split
  · exact .refl i.s
  · split
    · exact .refl i.s
    · trivial
    · exact .refl i.s
    · split
      · exact State.keeps_handOffAll ..
      · next hsend =>
        exact (State.keeps_sendMsg hsend).trans ((State.keeps_modTeam ..).trans (State.keeps_tritRead ..))

theorem runRecvt_keeps (i : TIn) (w : Wild) (td : TReg) (sm : SReg) (tag : BitVec 16) : (runRecvt i w td sm tag).Keeps i.s := by
  simp only [runRecvt]
  split
  · exact .refl i.s
  · split
    · exact runChk_keeps .error
    · split
      · exact State.keeps_handOffAll ..
      · next hb => exact (State.keeps_modTeam ..).trans ((State.keeps_boundaryAfter hb).trans (State.keeps_modTeam ..))

/-! ### The fabric -/

theorem runFgth_keeps (i : TIn) (kind : BitVec 2) (td ti : TReg) (h : Handle) (sx : SReg) :
    (runFgth i kind td ti h sx).Keeps i.s := by
  refine i.keeps_live _ (runChk_keeps (.bind (fun _ _ => ?_)))
  simp only
  split
  · exact .ok (State.keeps_cfence ..)
  · exact .ok ((State.keeps_cfence ..).trans (TIn.keeps_loadEls ⟨_, _, _, _, _, _, _, _, _⟩ ..))

theorem TIn.keeps_allxJoin (i : TIn) (n : Nat) (ta : TReg) (sr sc : SReg) : i.s.ChkKeeps (·.2) (allxJoin i n ta sr sc) := by
  refine .bind (fun sk _ => .bind (fun _ _ => .bind (fun _ _ => .ok ?_)))
  refine (State.keeps_cfence i.s i.t.uid .team .send).trans ?_
  exact List.foldlRecOn (motive := fun (acc : List (List Byte) × State) => State.Keeps _ acc.2) sk _ (.refl _)
    (fun _ hz _ _ => hz.trans (State.keeps_readBytes ..))

theorem State.keeps_putExchange (s : State) (e : Exchange) : s.Keeps (s.putExchange e) := .of_eq rfl rfl (Nat.le_refl _)

theorem State.keeps_endJoin (s : State) (e : Exchange) (uid : Nat) : s.Keeps (s.endJoin e uid) :=
  .of_eq rfl rfl (Nat.le_refl _)

theorem State.keeps_writeRow (uid ebytes n : Nat) (cs : List Host.Cell) (s : State) : s.Keeps (writeRow uid ebytes n cs s) := by
  induction n generalizing cs s with
  | zero => exact .refl s
  | succ n ih =>
    unfold writeRow
    split
    · exact .refl s
    · exact (s.keeps_store ..).trans (ih _ _)

theorem TIn.keeps_allxFinish (i : TIn) (n : BitVec 3) (td : TReg) (sr : SReg) (js : List Join) (me : Join) :
    i.s.Keeps (allxFinish i n td sr js me) := by
  refine .trans ?_ (State.keeps_modTeam ..)
  refine .trans ?_ (State.keeps_cfence ..)
  refine .trans ?_ (State.keeps_foldl _ (fun s _ => s.keeps_store ..) _ _)
  exact (State.keeps_tritRead ..).trans (State.keeps_foldl _ (fun s _ => State.keeps_writeRow _ _ _ _ s) _ _)

theorem runAllx_keeps (i : TIn) (n : BitVec 3) (td ta : TReg) (sr sc : SReg) : (runAllx i n td ta sr sc).Keeps i.s := by
  simp only [runAllx]
  split
  · split
    · exact .refl i.s
    · trivial
    · exact .refl i.s
    · next j s hjoin =>
      have joined := i.keeps_allxJoin _ _ _ _ _ hjoin
      split
      · exact joined.trans (State.keeps_putExchange ..)
      · exact joined.trans (.of_eq rfl rfl (Nat.le_refl _))
  · split
    · exact .refl i.s
    · split
      · exact ((State.keeps_putExchange ..).trans (State.keeps_endJoin ..)).trans
          (TIn.keeps_allxFinish ⟨_, _, _, _, _, _, _, _, _⟩ ..)
      · exact .refl i.s

/-! ### VNTQ and VNTW -/

theorem State.keeps_readSites (uid : Nat) (xs : List Site) (s : State) : s.Keeps (readSites uid xs s).2 := by
  induction xs generalizing s with
  | nil => exact .refl s
  | cons x xs ih =>
    unfold readSites
    split
    · exact .refl s
    · exact (s.keeps_readSite ..).trans (ih _)

theorem State.keeps_writeOut (uid : Nat) (xs : List Site) (bs : List Byte) (s : State) : s.Keeps (writeOut uid xs bs s) := by
  induction xs generalizing bs s with
  | nil => exact .refl s
  | cons x xs ih => exact (s.keeps_store ..).trans (ih _ _)

theorem State.keeps_putTable (s : State) (t : Team) (n : Nat) (tb : VTable) : s.Keeps (s.putTable t n tb) := s.keeps_modCtx ..

theorem runVntq_keeps (i : TIn) (k : GReg) (h : Handle) (sb st : SReg) : (runVntq i k h sb st).Keeps i.s := by
  simp only [runVntq]
  split
  · exact .refl i.s
  · refine runChk_keeps (.bind (fun _ _ => .bind (fun _ _ => .ok ?_)))
    refine .trans ?_ (State.keeps_modTeam ..)
    split
    · exact ((State.keeps_readSites ..).trans (State.keeps_modCtx ..)).trans (State.keeps_writeOut ..)
    · exact (State.keeps_readSites ..).trans (State.keeps_modCtx ..)

theorem runVntw_keeps (i : TIn) (h : Handle) (sb st : SReg) : (runVntw i h sb st).Keeps i.s := by
  simp only [runVntw]
  split
  · exact .refl i.s
  · refine runChk_keeps (.bind (fun _ _ => .bind (fun _ _ => .ok ?_)))
    exact (State.keeps_readSites ..).trans ((State.keeps_readSites ..).trans (State.keeps_putTable ..))

/-! ### Every tile-side run -/

/-- What any run of the tile side hands on keeps what stood before it. -/
theorem tileRun_keeps (ins : Instr) (seq : Nat) (i : TIn) : (tileRun ins seq i).Keeps i.s := by
  unfold tileRun
  split
  case h_1 | h_2 | h_3 | h_4 | h_5 | h_6 | h_7 | h_8 => exact ewRun_keeps ..
  case h_9 => exact runTmov_keeps ..
  case h_10 => exact runTcvt_keeps ..
  case h_11 => exact runTld_keeps ..
  case h_12 => exact runTst_keeps ..
  case h_13 => exact runTldff_keeps ..
  case h_14 => exact runTtrn_keeps ..
  case h_15 => exact runTdecl_keeps ..
  case h_16 | h_17 => exact State.keeps_putTeam ..
  case h_18 => exact runTgth_keeps ..
  case h_19 => exact runTsct_keeps ..
  case h_20 => exact runTwait_keeps ..
  case h_21 => exact runQbind_keeps ..
  case h_22 => exact runQrel_keeps ..
  case h_23 => exact runTfill_keeps ..
  case h_24 => exact runTiota_keeps ..
  case h_25 => exact runTslide_keeps ..
  case h_26 => exact runTpack_keeps ..
  case h_27 => exact runTunpk_keeps ..
  case h_28 => exact runTqnt_keeps ..
  case h_29 => exact runTdqt_keeps ..
  case h_30 => exact runMap_keeps ..
  case h_31 => exact runReduce_keeps ..
  case h_32 => exact runScan_keeps ..
  case h_33 => exact runTrds_keeps ..
  case h_34 => exact runLdb_keeps ..
  case h_35 => exact runLdbm_keeps ..
  case h_36 => exact tileProduct_keeps ..
  case h_37 => exact runMmam_keeps ..
  case h_38 => exact tileProduct_keeps ..
  case h_39 => exact State.keeps_putTeam ..
  case h_40 => exact runArd_keeps ..
  case h_41 => exact runAwr_keeps ..
  case h_42 => exact runAmaxa_keeps ..
  case h_43 => exact runTscl_keeps ..
  case h_44 => exact runRoute_keeps ..
  case h_45 => exact runAblk_keeps ..
  case h_46 => exact runIwalk_keeps ..
  case h_47 => exact runSendt_keeps ..
  case h_48 => exact runRecvt_keeps ..
  case h_49 => exact runUpd_keeps ..
  case h_50 => exact runVntq_keeps ..
  case h_51 => exact runVntw_keeps ..
  case h_52 => exact runAllx_keeps ..
  case h_53 => exact runFgth_keeps ..
  case h_54 => exact .refl i.s

theorem Run.Keeps.of_tileRun {ins : Instr} {seq : Nat} {i : TIn} {r : Run} (h : tileRun ins seq i = r) : r.Keeps i.s :=
  h ▸ tileRun_keeps ins seq i

/-! ### Lane functions and the scalar front's accesses -/

theorem State.keeps_laneRead (s : State) (t : Team) (fn : BitVec 8) (a n : Nat) : s.ChkKeeps (·.2) (laneRead s t fn a n) := by
  exact .mapFault (.bind (fun ks _ => .bind (fun _ _ => .ok (s.keeps_load t .team ks))))

theorem TIn.keeps_laneFetch (i : TIn) (fn : BitVec 8) (nops : Nat) (red : Bool) (types : List (BitVec 5)) :
    i.s.ChkKeeps (·.2) (laneFetch i fn nops red types) := by
  refine .bind (fun ⟨eb, s⟩ heb => ?_)
  have read := i.s.keeps_laneRead _ _ _ _ _ heb
  simp only
  split
  · exact .error
  · split
    · exact .error
    · refine .bind (fun ⟨wb, s'⟩ hwb => ?_)
      simp only
      split
      · exact .error
      · exact .ok (read.trans (State.keeps_laneRead _ _ _ _ _ _ hwb))

theorem TIn.keeps_tileCode (i : TIn) (ins : Instr) {x : Chk ((Bool × List (BitVec 32)) × State)}
    (h : tileCode ins i = some x) : i.s.ChkKeeps (·.2) x := by
  simp only [tileCode] at h
  split at h
  · cases h
  · split at h <;> cases h <;> exact i.keeps_laneFetch _ _ _ _

theorem State.keeps_fetch8 (s : State) (t : Team) (pc : Word) : s.ChkKeeps (·.2) (s.fetch8 t pc) :=
  .bind (fun ks _ => .bind (fun _ _ => .ok (s.keeps_load t .fetch ks)))

theorem State.keeps_fetchWord (s : State) (t : Team) : s.ChkKeeps (·.2.2) (s.fetchWord t) := by
  refine .bind (fun w hw => ?_)
  have read := s.keeps_fetch8 _ _ w hw
  simp only
  split
  · exact .bind (fun l hl => .ok (read.trans (State.keeps_fetch8 _ _ _ l hl)))
  · exact .ok read

theorem State.keeps_loadBytes (s : State) (t : Team) (keys : List Nat) : s.Keeps (s.loadBytes t keys).2 :=
  s.keeps_load t .team keys

end Sys2Proof.Machine
end

/-!
O59: commitment, faults, the scalar front and the block sequencer keep the invariant.
-/

section
namespace Sys2Proof.Machine

/-! ### Held stores, commitment and faults -/

theorem State.keeps_storeAt (s : State) (uid n : Nat) (cells : List Host.Cell) : s.Keeps (s.storeAt uid n cells) :=
  (s.keeps_store ..).trans (State.keeps_modTeam ..)

theorem State.keeps_performHeld (uid : Nat) (hs : List HeldStore) (s : State) : s.Keeps (performHeld uid hs s) := by
  induction hs generalizing s with
  | nil => exact .refl s
  | cons h hs ih => exact (s.keeps_storeAt ..).trans (ih _)

theorem State.keeps_performStores (s : State) (uid n : Nat) : s.Keeps (s.performStores uid n) := by
  unfold State.performStores
  split
  · exact .refl s
  · exact (s.keeps_putTeam ..).trans (State.keeps_performHeld ..)

theorem State.keeps_settle (s : State) (uid : Nat) : s.Keeps (s.settle uid) := by
  unfold State.settle
  split
  · exact .refl s
  · exact (s.keeps_performStores ..).trans (State.keeps_modTeam ..)

theorem State.keeps_takeFault (s : State) (uid : Nat) (h : HeldFault) : s.Keeps (s.takeFault uid h) := by
  simp only [State.takeFault]
  split
  · exact .refl s
  · have rolled := fun t => (s.keeps_putTeam t).trans (State.keeps_settle _ uid)
    split
    · exact rolled _
    · have posted : ∀ (z : State) (t : Team) (p : PkgNo) (c : CtxId) (f : Ctx → Ctx), z.Keeps ((z.putTeam t).modCtx p c f) :=
        fun z t _ _ _ => (z.keeps_putTeam t).trans (State.keeps_modCtx ..)
      split
      · exact ((rolled _).trans (posted ..)).trans (State.keeps_putLaunch ..)
      · exact (rolled _).trans (posted ..)

theorem State.keeps_slotFault (s : State) (uid : Nat) (f : FaultInfo) (resume : Option Word) (slot : Bool) :
    s.Keeps (s.slotFault uid f resume slot) := by
  simp only [State.slotFault]
  split
  · exact .refl s
  · split
    · exact s.keeps_takeFault ..
    · exact s.keeps_putTeam ..

theorem State.keeps_frontFault (s : State) (uid : Nat) (f : FaultInfo) (resume : Option Word) :
    s.Keeps (s.frontFault uid f resume) := s.keeps_slotFault ..

theorem State.keeps_takeHeld (s : State) (uid : Nat) : s.Keeps (s.takeHeld uid) := by
  unfold State.takeHeld
  split
  · split
    · exact s.keeps_takeFault ..
    · exact .refl s
  · exact .refl s

/-! ### The scalar front -/

/-- The state that a step goes on to, if it goes on, keeps what `s` holds. -/
def State.StepKeeps (s : State) (o : Host.Outcome State Fault Refusal) : Prop := ∀ s', o = .next s' → s.Keeps s'

theorem State.StepKeeps.next {s s' : State} (h : s.Keeps s') : s.StepKeeps (.next s') := by
  rintro _ ⟨⟩
  exact h

theorem State.StepKeeps.fault {s : State} {f : Fault} : s.StepKeeps (.fault f) := by
  rintro _ ⟨⟩

theorem State.StepKeeps.refused {s : State} {r : Refusal} : s.StepKeeps (.refused r) := by
  rintro _ ⟨⟩

theorem State.StepKeeps.trans {a b : State} {o : Host.Outcome State Fault Refusal} (h : a.Keeps b) (k : b.StepKeeps o) :
    a.StepKeeps o := fun s' hs => h.trans (k s' hs)

theorem State.StepKeeps.ite {s : State} {a b : Host.Outcome State Fault Refusal} {c : Prop} [Decidable c]
    (ha : s.StepKeeps a) (hb : s.StepKeeps b) : s.StepKeeps (if c then a else b) := by
  split
  · exact ha
  · exact hb

/-- A front instruction keeps what its work on the team keeps. -/
theorem State.front_keeps (s : State) (i : Instr) {f : Team → Run} (h : ∀ t, (f t).Keeps s) : s.StepKeeps (s.front i f) := by
  unfold State.front
  split
  · exact .fault
  · next t ht =>
    have hf := h t
    split
    · exact .next (.refl s)
    · split
      · next hr => rw [hr] at hf; exact .next hf
      · next hr => rw [hr] at hf; exact .next hf
      · next hr => rw [hr] at hf; exact .next (State.Keeps.trans hf (State.keeps_frontFault ..))
      · exact .next (s.keeps_putTeam ..)
      · next hr => rw [hr] at hf; exact .next hf

theorem State.frontTeam_keeps (s : State) (i : Instr) (f : Team → Team) : s.StepKeeps (s.frontTeam i f) :=
  s.front_keeps i (fun _ => s.keeps_putTeam _)

theorem State.keeps_advance (s : State) (uid n : Nat) : s.Keeps (s.advance uid n) := s.keeps_modTeam ..

theorem State.bound_keeps (s : State) (uid : Nat) (sc : ScopeCode) (prec : List Nat) {k : State → Run}
    (h : ∀ z, s.Keeps z → (k z).Keeps s) : (s.bound uid sc prec k).Keeps s := by
  unfold State.bound
  split
  · exact s.keeps_handOffAll uid
  · next hb => exact h _ (State.keeps_boundaryAfter hb)

theorem chkRun_keeps (s : State) {α : Type} {x : Chk α} {k : α → Run} (h : ∀ a, x = .ok a → (k a).Keeps s) :
    (chkRun s x k).Keeps s := by
  unfold chkRun
  split
  · exact h _ rfl
  · exact .refl s
  · trivial
  · exact .refl s

/-! ### The block sequencer -/

theorem State.keeps_startTileWalk (s : State) (uid : Nat) : s.Keeps (s.startTileWalk uid) := s.keeps_modTeam ..

theorem State.keeps_backToFront (s : State) (uid : Nat) (w : Wait) : s.Keeps (s.backToFront uid w) := s.keeps_modTeam ..

theorem State.Keeps.entryBackToFront {a b : State} (h : a.Keeps b) {uid : Nat} {f : Team → Team} {w : Wait} :
    a.Keeps ((b.modTeam uid f).backToFront uid w) :=
  h.trans (.trans (State.keeps_modTeam ..) (State.keeps_backToFront ..))

/-- Taking writes out leaves the others their names. -/
theorem State.keeps_filterWrites (s : State) (p : Write → Bool) (bad : List Nat) :
    s.Keeps { s with writes := s.writes.filter p, bad } := by
  refine ⟨?_, Nat.le_refl _⟩
  rintro ⟨hm, hn, hw⟩
  refine ⟨hm, ?_, fun w h => hw w (List.mem_filter.mp h).1⟩
  exact List.Nodup.sublist (List.filter_sublist.map _) hn

theorem State.keeps_unforesee (z s : State) (t : Team) : z.Keeps (z.unforesee s t) :=
  (z.keeps_filterWrites ..).trans (State.keeps_modTeam ..)

theorem State.keeps_acceptEntry (s : State) (t : Team) (e : TileEntry) : s.ChkKeeps (·.2) (s.acceptEntry t e) := by
  refine .bind (fun _ _ => ?_)
  simp only
  split
  · refine .bind (fun _ _ => ?_)
    split
    · exact .ok (.refl s)
    · next hcode =>
      exact .ok ((s.keeps_putTeam _).trans ((TIn.keeps_tileCode _ _ hcode _ rfl).trans (State.keeps_putTeam ..)))
    · exact .error
  · exact .bind (fun _ h => nomatch h)

theorem State.keeps_acceptSeeing (s : State) (t : Team) (e : TileEntry) : s.ChkKeeps (·.2) (s.acceptSeeing t e) := by
  simp only [State.acceptSeeing]
  split
  · exact s.keeps_acceptEntry _ _
  · split
    · exact .error
    · exact .bind (fun r hr => .ok (((s.keeps_performStores ..).trans (State.keeps_acceptEntry _ _ _ r hr)).trans
        (State.keeps_unforesee ..)))

theorem State.keeps_acceptHead (s : State) (uid : Nat) : s.Keeps (s.acceptHead uid) := by
  unfold State.acceptHead
  split
  · exact .refl s
  · split
    · exact .refl s
    · split
      · exact .refl s
      · split
        · exact s.keeps_takeFault ..
        · exact s.keeps_startTileWalk ..
        · exact .refl s
        · next hr => exact (s.keeps_acceptSeeing _ _ _ hr).trans (State.keeps_putTeam ..)

/-- The state in which the accepted head of the TIQ runs. -/
theorem State.keeps_toIssue (s : State) (t : Team) (uid n : Nat) (b : Bool) :
    s.Keeps (if b then s.putTeam t else (s.putTeam t).performStores uid n) := by
  split
  · exact s.keeps_putTeam ..
  · exact (s.keeps_putTeam ..).trans (State.keeps_performStores ..)

theorem State.keeps_issueHead (s : State) (uid : Nat) (step : Bool) : s.Keeps (s.issueHead uid step) := by
  simp only [State.issueHead]
  split
  · exact .refl s
  · split
    · exact .refl s
    · next e _ _ =>
      split
      · exact .refl s
      · split
        · exact .refl s
        · next t1 ht1 =>
          split
          · split
            · exact s.keeps_putTeam ..
            · exact s.keeps_takeFault ..
            · exact s.keeps_startTileWalk ..
            · exact .refl s
          · have ready := s.keeps_toIssue
            split
            · next hr =>
              exact ((ready ..).trans (Run.Keeps.of_tileRun hr)).entryBackToFront
            · next hr =>
              split
              · exact (ready ..).trans (.trans (Run.Keeps.of_tileRun hr)
                  (.trans (State.keeps_backToFront ..) (State.keeps_takeFault ..)))
              · exact s.keeps_takeFault ..
            · exact s.keeps_startTileWalk ..
            · next hr =>
              exact ((ready ..).trans (Run.Keeps.of_tileRun hr)).entryBackToFront
            · next hr =>
              exact ((ready ..).trans (Run.Keeps.of_tileRun hr)).entryBackToFront

theorem State.keeps_stepCopy (s : State) (uid : Nat) : s.Keeps (s.stepCopy uid) := by
  simp only [State.stepCopy]
  split
  · exact .refl s
  · split
    · split
      · exact .refl s
      · split
        · next hr =>
          exact (s.keeps_putTeam _).trans ((TIn.keeps_copyRow _ _ _ hr).trans
            ((State.keeps_modTeam ..).trans (State.keeps_backToFront ..)))
        · exact s.keeps_takeFault ..
        · exact s.keeps_startTileWalk ..
        · exact .refl s
    · exact .refl s

theorem State.keeps_completeHead (s : State) (uid : Nat) : s.Keeps (s.completeHead uid) :=
  (s.keeps_modTeam ..).trans ((State.keeps_settle ..).trans (State.keeps_takeHeld ..))

theorem State.keeps_stepCopies (uid n : Nat) (s : State) : s.Keeps (stepCopies uid n s) := by
  induction n generalizing s with
  | zero => exact .refl s
  | succ n ih => exact (s.keeps_stepCopy uid).trans (ih _)

theorem State.keeps_acceptPast (z : State) (v : Team) (front : List TileEntry) (e : TileEntry) :
    z.ChkKeeps (·.2) (z.acceptPast v front e) := by
  unfold State.acceptPast
  split
  · exact .ok (.refl z)
  · exact .bind (fun r hr => .ok ((z.keeps_acceptEntry _ _ r hr).trans (State.keeps_modTeam ..)))

theorem State.keeps_foreseeEntry (z : State) (v : Team) (front : List TileEntry) (e : TileEntry) :
    z.Keeps (z.foreseeEntry v front e).1 := by
  simp only [State.foreseeEntry]
  split
  · split
    · exact .refl z
    · split
      · next hr => exact (z.keeps_putTeam _).trans (.trans (Run.Keeps.of_tileRun hr) (State.keeps_modTeam ..))
      · exact .refl z
  · split
    · exact .refl z
    · split
      · next hr => exact (z.keeps_putTeam _).trans (.trans (Run.Keeps.of_tileRun hr) (State.keeps_modTeam ..))
      · exact .refl z
  all_goals exact .refl z

theorem State.keeps_nonePast {s z : State} (h : s.Keeps z) (t : Team) (front es : List TileEntry) :
    s.Keeps (s.nonePast z t front es) := by
  unfold State.nonePast
  split
  · exact .refl s
  · exact h.trans ((z.keeps_unforesee ..).trans (State.keeps_putTeam ..))

theorem State.keeps_tryPast {z z' : State} {v : Team} {front : List TileEntry} {e : TileEntry} {mem : Bool}
    (h : z.tryPast v front e mem = .ran z') : z.Keeps z' := by
  simp only [State.tryPast] at h
  split at h
  · cases h
  · split at h
    · split at h
      · cases h
      · split at h
        · next hr =>
          split at h
          · cases h
          · cases h
            exact (z.keeps_putTeam _).trans (Run.Keeps.of_tileRun hr)
        · cases h
        · cases h
    · split at h <;> cases h

theorem State.keeps_runPast (s : State) (uid : Nat) (front es : List TileEntry) (z : State) (mem : Bool) (h : s.Keeps z) :
    s.Keeps (s.runPast uid front es z mem) := by
  induction es generalizing front z mem with
  | nil =>
    unfold State.runPast
    split
    · exact State.keeps_nonePast h ..
    · exact .refl s
  | cons e es ih =>
    have foreseen := h.trans (z.keeps_performStores uid (e.seq + 1))
    simp only [State.runPast]
    split
    · split
      · exact State.keeps_nonePast foreseen ..
      · split
        · exact State.keeps_nonePast foreseen ..
        · next hr =>
          have accepted := foreseen.trans (State.keeps_acceptPast _ _ _ _ _ hr)
          split
          · next hp => exact (accepted.trans (State.keeps_tryPast hp)).trans ((State.keeps_unforesee ..).trans (State.keeps_modTeam ..))
          · exact State.keeps_nonePast accepted ..
          · exact ih _ _ _ (accepted.trans (State.keeps_foreseeEntry ..))
    · exact .refl s

theorem State.keeps_runYounger (s : State) (uid : Nat) : s.Keeps (s.runYounger uid) := by
  unfold State.runYounger
  split
  · exact .refl s
  · split
    · split
      · exact s.keeps_runPast _ _ _ _ _ (.refl s)
      · exact .refl s
    · exact .refl s

theorem State.keeps_runHeadBy (s : State) (uid : Nat) (step : Bool) : s.Keeps (s.runHeadBy uid step) :=
  (s.keeps_acceptHead uid).trans ((State.keeps_issueHead ..).trans
    ((State.keeps_stepCopies ..).trans (State.keeps_completeHead ..)))

theorem State.tileExec_keeps (s : State) (i : Instr) : s.StepKeeps (s.tileExec i) := by
  simp only [State.tileExec]
  split
  · exact .fault
  · split
    · exact .next (.refl s)
    · split
      · exact .next (s.keeps_slotFault ..)
      · split
        · exact .next (s.keeps_putTeam ..)
        · exact .next ((s.keeps_putTeam ..).trans (State.keeps_runHeadBy ..))

theorem State.keeps_tileProgress (s : State) (uid : Nat) : s.Keeps (s.tileProgress uid) :=
  (s.keeps_runHeadBy uid true).trans (State.keeps_runYounger ..)

end Sys2Proof.Machine
end

/-!
O59: services, cores that change hands, the Press, boundaries and atomics keep the invariant.
-/

section
namespace Sys2Proof.Machine

/-! ### Service calls and shape records -/

theorem State.keeps_putPkg (s : State) (p : PkgNo) (k : Pkg) : s.Keeps (s.putPkg p k) := .of_eq rfl rfl (Nat.le_refl _)

theorem State.keeps_putCtx (s : State) (p : PkgNo) (c : Ctx) : s.Keeps (s.putCtx p c) :=
  .of_eq (by simp) (by simp) (by simp)

theorem State.keeps_putShape (s : State) (p : PkgNo) (ctx : CtxId) (by_ : Nat) (gid : Gid) (h : Handle) (d : Shape) :
    s.Keeps (s.putShape p ctx by_ gid h d) := by
  unfold State.putShape
  split
  · exact .refl s
  · exact (s.keeps_raiseName 1).trans (State.keeps_putCtx ..)

theorem State.svcDone_keeps (s : State) (uid : Nat) (sd : SReg) (status : Word) : (s.svcDone uid sd status).Keeps s :=
  s.keeps_modTeam ..

theorem State.keeps_leave (s : State) (t : Team) (pub : Nat) : s.Keeps (s.leave t pub) := by
  simp only [State.leave]
  have gone := s.keeps_dropTeam t.uid
  split <;> split
  · exact (gone.trans (State.keeps_putLaunch ..)).trans (State.keeps_modPkg ..)
  · exact gone.trans (State.keeps_putLaunch ..)
  · exact gone.trans (State.keeps_modPkg ..)
  · exact gone

theorem execExit_keeps (sd : SReg) (s : State) : s.StepKeeps (execExit sd s) := by
  refine s.front_keeps _ (fun t => ?_)
  simp only
  split
  · exact .refl s
  · split
    · exact s.keeps_handOffAll ..
    · exact (s.keeps_handOffAll _).trans ((State.keeps_publish ..).trans
        ((State.keeps_complete ..).trans (State.keeps_leave ..)))

theorem execShapeSet_keeps (sd : SReg) (s : State) : s.StepKeeps (execShapeSet sd s) := by
  refine s.front_keeps _ (fun t => ?_)
  simp only
  split
  · exact s.svcDone_keeps ..
  · refine chkRun_keeps s (fun ks _ => ?_)
    split
    · exact s.svcDone_keeps ..
    · have read := fun ks => s.keeps_loadBytes t ks
      exact .ite ((read _).trans ((State.keeps_putShape ..).trans (State.keeps_modTeam ..)))
        ((read _).trans (State.keeps_modTeam ..))

theorem execShapeInv_keeps (sd : SReg) (s : State) : s.StepKeeps (execShapeInv sd s) := by
  refine s.front_keeps _ (fun t => ?_)
  simp only
  split
  · exact s.svcDone_keeps ..
  · split
    · exact s.svcDone_keeps ..
    · exact (s.keeps_putShape ..).trans (State.keeps_modTeam ..)

theorem State.keeps_suspend (s : State) (uid : Nat) (kind : SaveKind) : s.Keeps (s.suspend uid kind) := by
  unfold State.suspend
  split
  · exact .refl s
  · exact .of_eq rfl rfl (Nat.le_refl _)

theorem execYieldDone_keeps (sd : SReg) (s : State) : s.StepKeeps (execYieldDone sd s) := by
  refine s.front_keeps _ (fun t => ?_)
  split
  · exact .refl s
  · split
    · exact (s.keeps_modTeam ..).trans (State.keeps_suspend ..)
    · exact s.svcDone_keeps ..

theorem execSvcUnassigned_keeps (sd : SReg) (n : BitVec 16) (s : State) : s.StepKeeps (execSvcUnassigned sd n s) :=
  s.front_keeps _ (fun _ => s.svcDone_keeps ..)

/-! ### Cores that pass between contexts -/

/-- Moving bytes leaves every write its name and its place in the order. -/
theorem State.keeps_remap (s : State) (f : Nat → Option Nat) : s.Keeps (s.remap f) := by
  refine ⟨?_, Nat.le_refl _⟩
  rintro ⟨_, hn, hw⟩
  refine ⟨remapMem_wf f s.mem, ?_, ?_⟩
  · have ids : (s.remap f).writes.map (·.id) = s.writes.map (·.id) := by simp [State.remap]
    rw [ids]
    exact hn
  · intro w h
    obtain ⟨v, hv, rfl⟩ := List.mem_map.mp h
    exact hw v hv

theorem State.keeps_clearCore (s : State) (g : Gid) : s.Keeps (s.clearCore g) := s.keeps_remap _

theorem State.keeps_parkCore (s : State) (ctx : CtxId) (g : Gid) : s.Keeps (s.parkCore ctx g) :=
  (s.keeps_remap _).trans (State.keeps_modPkg ..)

theorem State.keeps_unparkCore (s : State) (ctx : CtxId) (old : Nat) (g : Gid) : s.Keeps (s.unparkCore ctx old g) := by
  simp only [State.unparkCore]
  split
  · exact (s.keeps_remap _).trans (State.keeps_modPkg ..)
  · exact .refl s

theorem State.keeps_parkDeque (s : State) (launch inst : Nat) (g : Gid) : s.Keeps (s.parkDeque launch inst g) :=
  s.keeps_modPkg ..

theorem State.keeps_vacate (s : State) (o : CtxId × Nat × Nat) (ctx : CtxId) (g : Gid) : s.Keeps (s.vacate o ctx g) := by
  simp only [State.vacate]
  have parked := s.keeps_parkDeque o.2.1 o.2.2 g
  split
  · exact parked
  · split
    · exact (parked.trans (State.keeps_parkCore ..)).trans (State.keeps_clearCore ..)
    · exact parked.trans (State.keeps_clearCore ..)

theorem State.keeps_putRoutes (s : State) (g : Gid) : s.Keeps (s.putRoutes g) := s.keeps_modPkg ..

theorem State.keeps_takeCore (s : State) (ctx : CtxId) (launch inst : Nat) (g : Gid) :
    s.Keeps (s.takeCore ctx launch inst g) := by
  simp only [State.takeCore]
  refine .trans ?_ (State.keeps_putRoutes ..)
  refine .trans ?_ (State.keeps_modPkg ..)
  refine .trans ?_ (State.keeps_unparkCore ..)
  split
  · split
    · exact .refl s
    · exact s.keeps_vacate ..
  · exact s.keeps_clearCore g

theorem State.keeps_loadWindow (s : State) (p : PkgNo) (die : Bool) (ctx : CtxId) : s.Keeps (s.loadWindow p die ctx) := by
  unfold State.loadWindow
  split
  · exact s.keeps_modPkg ..
  · exact .refl s

/-! ### The Press -/

theorem State.keeps_spoil (s : State) (ctx : CtxId) (keys : List Nat) : s.Keeps (s.spoil ctx keys) := s.keeps_systemStore ..

theorem State.keeps_ownContents (s : State) (t : Team) (keys : List Nat) : s.Keeps (s.ownContents t keys) :=
  .of_mem (fun h => List.foldlRecOn (motive := fun z => Memory.wf z = true) _ _ h (fun z hz _ _ => Memory.putCells_wf _ z hz))
    rfl (Nat.le_refl _)

theorem execRegionSet_keeps (sd : SReg) (s : State) : s.StepKeeps (execRegionSet sd s) := by
  refine s.front_keeps _ (fun t => ?_)
  split
  · exact s.svcDone_keeps ..
  · simp only
    split
    · exact (s.keeps_ownContents ..).trans ((State.keeps_modCtx ..).trans
        ((State.keeps_noteHost ..).trans (State.keeps_modTeam ..)))
    · exact s.svcDone_keeps ..

theorem execRegionRel_keeps (sd : SReg) (s : State) : s.StepKeeps (execRegionRel sd s) := by
  refine s.front_keeps _ (fun t => ?_)
  simp only
  split
  · exact s.svcDone_keeps ..
  · split
    · exact s.svcDone_keeps ..
    · split
      · exact s.svcDone_keeps ..
      · have racked := fun p => s.keeps_rackKeysOf t.pkg p
        split
        · exact (racked _).trans (State.keeps_modTeam ..)
        · split
          · exact (racked _).trans (State.keeps_modTeam ..)
          · split
            · exact (racked _).trans (State.keeps_modTeam ..)
            · refine .trans ?_ (State.keeps_modTeam ..)
              split
              · exact (racked _).trans ((State.keeps_modCtx ..).trans (State.keeps_systemStore ..))
              · exact (racked _).trans ((State.keeps_modCtx ..).trans
                  ((State.keeps_systemStore ..).trans (State.keeps_spoil ..)))

theorem State.keeps_rebaseKeys (s : State) (ks : List Nat) : s.Keeps (s.rebaseKeys ks) := by
  refine State.keeps_foldl _ (fun s k => ?_) ks s
  split
  · exact s.keeps_modCtx ..
  · exact .refl s

theorem State.keeps_hostPut (s : State) (cells : List Host.Cell) : s.Keeps (s.hostPut cells) :=
  (s.keeps_rackKeys _).trans ((State.keeps_hostStore ..).trans (State.keeps_rebaseKeys ..))

theorem State.keeps_svcStore (s : State) (uid : Nat) (cells : List Host.Cell) : s.Keeps (s.svcStore uid cells) := by
  unfold State.svcStore
  split
  · exact s.keeps_hostPut ..
  · exact s.keeps_store ..

theorem State.keeps_storeDwords (uid : Nat) (ws : List Word) (ks : List Nat) (s : State) :
    s.Keeps (storeDwords uid ws ks s) := by
  induction ws generalizing ks s with
  | nil => exact .refl s
  | cons w ws ih => exact (s.keeps_svcStore ..).trans (ih _ _)

theorem execRegionStat_keeps (sd : SReg) (s : State) : s.StepKeeps (execRegionStat sd s) := by
  refine s.front_keeps _ (fun t => ?_)
  simp only
  split
  · exact s.svcDone_keeps ..
  · split
    · exact s.svcDone_keeps ..
    · split
      · exact s.svcDone_keeps ..
      · refine chkRun_keeps s (fun ks _ => ?_)
        split
        · exact s.svcDone_keeps ..
        · refine .trans ?_ (State.keeps_modTeam ..)
          split
          · exact (State.keeps_storeDwords ..).trans (State.keeps_modCtx ..)
          · exact State.keeps_storeDwords ..

theorem execUpds_keeps (strict : Bool) (sv si : SReg) (rh : BitVec 10) (s : State) :
    s.StepKeeps (execUpds strict sv si rh s) := by
  refine s.front_keeps _ (fun t => ?_)
  split
  · split
    · exact .refl s
    · refine chkRun_keeps s (fun drop _ => ?_)
      exact .ite (s.keeps_putTeam _) (s.keeps_handOffAll _)
  · exact .refl s

theorem execRack_keeps (rh : BitVec 10) (sa sb : SReg) (s : State) : s.StepKeeps (execRack rh sa sb s) := by
  refine s.front_keeps _ (fun t => ?_)
  split
  · exact .refl s
  · exact (s.keeps_rackKeysOf ..).trans (State.keeps_advance ..)

theorem State.keeps_putMem (s : State) (cells : List Host.Cell) : s.Keeps { s with mem := Memory.putCells s.mem cells } :=
  .of_mem (fun h => Memory.putCells_wf _ _ h) rfl (Nat.le_refl _)

theorem execRackr_keeps (sd sa : SReg) (rh : BitVec 10) (s : State) : s.StepKeeps (execRackr sd sa rh s) := by
  refine s.front_keeps _ (fun t => ?_)
  split
  · simp only
    split
    · exact .refl s
    · refine chkRun_keeps s (fun k _ => ?_)
      exact ((s.keeps_rackWord ..).trans (State.keeps_modCtx ..)).trans
        ((State.keeps_putMem ..).trans (State.keeps_modTeam ..))
  · exact .refl s

theorem execHandOff_keeps (gid : Gid) (s : State) : s.StepKeeps (execHandOff gid s) := by
  unfold execHandOff
  split
  · exact .next (s.keeps_handOffN ..)
  · exact .next (.refl s)

/-! ### Boundaries and atomics -/

theorem execPhase_keeps (scope : ScopeCode) (s : State) : s.StepKeeps (execPhase scope s) :=
  s.front_keeps _ (fun t => s.bound_keeps t.uid scope [] (fun z hz => hz.trans (z.keeps_advance ..)))

theorem execCfence_keeps (a b : BitVec 3) (s : State) : s.StepKeeps (execCfence a b s) :=
  s.front_keeps _ (fun _ => (s.keeps_cfence ..).trans (State.keeps_advance ..))

theorem execAmo_keeps (op : BitVec 5) (d : Bool) (scope : ScopeCode) (sd sa sb : SReg) (s : State) :
    s.StepKeeps (execAmo op d scope sd sa sb s) :=
  s.front_keeps _ (fun _ => chkRun_keeps s (fun _ _ => (s.keeps_atomicWrite ..).trans (State.keeps_modTeam ..)))

theorem execCas_keeps (d : Bool) (scope : ScopeCode) (sd sa sb : SReg) (s : State) :
    s.StepKeeps (execCas d scope sd sa sb s) := by
  refine s.front_keeps _ (fun t => chkRun_keeps s (fun ks _ => ?_))
  simp only
  split
  · exact (s.keeps_atomicWrite ..).trans (State.keeps_modTeam ..)
  · exact s.keeps_modTeam ..

end Sys2Proof.Machine
end

/-!
O59: messages, barriers, team control and control transfers keep the invariant.
-/

section
namespace Sys2Proof.Machine

/-! ### Messages and barriers of the cluster -/

theorem execSend_keeps (k : GReg) (sr sp : SReg) (team : BitVec 3) (tag : BitVec 16) (s : State) :
    s.StepKeeps (execSend k sr sp team tag s) := by
  refine s.front_keeps _ (fun t => chkRun_keeps s (fun u _ => ?_))
  split
  · exact s.keeps_handOffAll ..
  · next hs => exact (State.keeps_sendMsg hs).trans (State.keeps_modTeam ..)

theorem execMessageDelivery_keeps (gid : Gid) (s : State) : s.StepKeeps (execMessageDelivery gid s) := by
  unfold execMessageDelivery
  split
  · exact .next (s.keeps_putTeam _)
  · exact .next (.refl s)

theorem execRecv_keeps (w : Wild) (sd sm : SReg) (tag : BitVec 16) (s : State) : s.StepKeeps (execRecv w sd sm tag s) := by
  refine s.front_keeps _ (fun t => ?_)
  split
  · exact .refl s
  · split
    · exact .refl s
    · exact s.bound_keeps _ _ _ (fun z hz => hz.trans (z.keeps_modTeam ..))

theorem execProbe_keeps (tile : Bool) (w : Wild) (k : GReg) (sm : SReg) (tag : BitVec 16) (s : State) :
    s.StepKeeps (execProbe tile w k sm tag s) :=
  s.front_keeps _ (fun _ => .ite (.refl s) (s.keeps_putTeam _))

theorem State.keeps_barArrive {s s' : State} {t : Team} {fabric : Bool} {n : BitVec 3}
    (h : s.barArrive t fabric n = some s') : s.Keeps s' := by
  simp only [State.barArrive] at h
  split at h
  · cases h
    exact (s.keeps_handOffAll _).trans ((State.keeps_publish ..).trans (State.keeps_modTeam ..))
  · cases h

theorem State.keeps_latchBars (s : State) : s.Keeps s.latchBars := .of_eq rfl rfl (Nat.le_refl _)

theorem State.keeps_barFinish {s s' : State} {uid : Nat} {fabric : Bool} (h : s.barFinish uid fabric = some s') :
    s.Keeps s' := by
  unfold State.barFinish at h
  split at h
  · cases h
  · split at h
    · split at h
      · split at h
        · cases h
          exact (s.keeps_complete ..).trans ((State.keeps_modTeam ..).trans (State.keeps_advance ..))
        · cases h
      · cases h
    · cases h

theorem State.barRun_keeps (s : State) (t : Team) (fabric : Bool) (n : BitVec 3) : (s.barRun t fabric n).Keeps s := by
  unfold State.barRun
  split
  · split
    · next h => exact State.keeps_barFinish h
    · exact .refl s
  · split
    · exact s.keeps_handOffAll ..
    · next ha =>
      split
      · next hf => exact (State.keeps_barArrive ha).trans (State.keeps_barFinish hf)
      · exact State.keeps_barArrive ha

theorem execBar_keeps (n : BitVec 3) (s : State) : s.StepKeeps (execBar n s) :=
  s.front_keeps _ (fun t => .ite (s.barRun_keeps t false n) (.refl s))

theorem execBarrierCompletion_keeps (gid : Gid) (s : State) : s.StepKeeps (execBarrierCompletion gid s) := by
  unfold execBarrierCompletion
  split
  · split
    · split
      · next h => exact .next (State.keeps_barFinish h)
      · exact .next (.refl s)
    · exact .next (.refl s)
  · exact .next (.refl s)

/-! ### CLAIM, FORK and JOIN -/

theorem execClaim_keeps (scope : ScopeCode) (sd sa sb : SReg) (s : State) : s.StepKeeps (execClaim scope sd sa sb s) := by
  refine s.front_keeps _ (fun t => .ite (.refl s) (chkRun_keeps s (fun ks _ => ?_)))
  exact .trans (.ite (s.keeps_atomicWrite ..) (.refl s)) (State.keeps_modTeam ..)

theorem State.keeps_fresh (s : State) : s.Keeps s.fresh.2 := .of_eq rfl rfl (Nat.le_succ _)

theorem State.keeps_addKin (s : State) (launch uid : Nat) (c : Team) : s.Keeps (s.addKin launch uid c) :=
  .of_eq rfl rfl (Nat.le_refl _)

theorem execFork_keeps (k : GReg) (sd : SReg) (off : BitVec 32) (s : State) : s.StepKeeps (execFork k sd off s) := by
  refine s.front_keeps _ (fun t => .ite (.refl s) ?_)
  split
  · exact s.keeps_putTeam _
  · have handed := s.keeps_handOffAll t.uid
    refine .ite handed (.ite handed ?_)
    exact handed.trans ((State.keeps_fresh _).trans ((State.keeps_modTeam ..).trans (State.keeps_addKin ..)))

theorem State.joinChild_keeps (s : State) (t : Team) (kid : Nat) : (s.joinChild t kid).Keeps s := by
  unfold State.joinChild
  split
  · exact .ite ((s.keeps_dropTeam kid).trans (State.keeps_putTeam ..)) (.refl s)
  · exact .refl s

theorem State.joinParent_keeps (s : State) (t : Team) : (s.joinParent t).Keeps s := by
  have handed := s.keeps_handOffAll t.uid
  refine .ite handed (handed.trans ?_)
  exact (State.keeps_publish ..).trans ((State.keeps_complete ..).trans (State.keeps_modTeam ..))

theorem execJoin_keeps (sp : SReg) (s : State) : s.StepKeeps (execJoin sp s) := by
  refine s.front_keeps _ (fun t => ?_)
  simp only
  split
  · exact .ite (s.joinChild_keeps ..) (.refl s)
  · exact .ite (s.joinParent_keeps t) (.refl s)
  · exact .refl s

/-! ### The deque and LAUNCH -/

theorem State.keeps_putDeque (s : State) (g : Gid) (d : List (Word × Word × List Nat)) : s.Keeps (s.putDeque g d) :=
  s.keeps_modPkg ..

theorem execSpawn_keeps (k : GReg) (sa : SReg) (off : BitVec 32) (s : State) : s.StepKeeps (execSpawn k sa off s) :=
  s.front_keeps _ (fun _ => .ite (.refl s) (.ite (s.keeps_putTeam _) ((s.keeps_putDeque ..).trans (State.keeps_putTeam ..))))

theorem State.keeps_findTask {s s' : State} {t : Team} {e : Word × Word × List Nat} (h : s.findTask t = some (e, s')) :
    s.Keeps s' := by
  simp only [State.findTask] at h
  split at h
  · cases h
    exact s.keeps_putDeque ..
  · split at h
    · obtain ⟨_, _, hs⟩ := Option.map_eq_some_iff.mp h
      cases hs
      exact s.keeps_putDeque ..
    · cases h

theorem execTake_keeps (k : GReg) (sd : SReg) (s : State) : s.StepKeeps (execTake k sd s) := by
  refine s.front_keeps _ (fun t => .ite (.refl s) ?_)
  split
  · next h => exact (State.keeps_findTask h).trans (State.keeps_putTeam ..)
  · exact s.keeps_putTeam _

theorem State.keeps_fwDword (s : State) (k : Nat) (v : Word) : s.Keeps (s.fwDword k v) := s.keeps_hostPut ..

theorem State.keeps_appendRecord (s : State) (p : PkgNo) (q : BitVec 6) (r : List Word) (prec : List Nat) :
    s.Keeps (s.appendRecord p q r prec) := s.keeps_modPkg ..

theorem State.launchDone_keeps (s : State) (uid : Nat) (sd : SReg) (st : Word) : (s.launchDone uid sd st).Keeps s :=
  s.keeps_modTeam ..

theorem execLaunch_keeps (sd sa sb : SReg) (s : State) : s.StepKeeps (execLaunch sd sa sb s) := by
  refine s.front_keeps _ (fun t => .ite (s.launchDone_keeps ..) (chkRun_keeps s (fun ks _ => ?_)))
  split
  · exact s.launchDone_keeps ..
  · simp only
    have read := fun ks qs => (s.keeps_loadBytes t ks).trans (State.keeps_rackKeys _ qs)
    split
    · exact (read _ _).trans (State.keeps_modTeam ..)
    · split
      · exact (read _ _).trans (State.keeps_modTeam ..)
      · exact (read _ _).trans ((State.keeps_appendRecord ..).trans (State.keeps_modTeam ..))

/-! ### Control transfers -/

theorem State.transfer_keeps (s : State) (t : Team) (target : Word) : (s.transfer t target).Keeps s :=
  .ite (s.keeps_putTeam _) (.refl s)

theorem execLoop_keeps (sd : SReg) (off : BitVec 32) (s : State) : s.StepKeeps (execLoop sd off s) :=
  s.front_keeps _ (fun _ => .ite (s.keeps_putTeam _) (s.transfer_keeps ..))

theorem execDrain_keeps (upd copy tiq : Bool) (s : State) : s.StepKeeps (execDrain upd copy tiq s) :=
  s.front_keeps _ (fun t => .ite
    (.ite ((s.keeps_handOffAll t.uid).trans (State.keeps_advance ..)) (s.keeps_handOffAll t.uid)) (s.keeps_advance ..))

theorem execYield_keeps (sd : SReg) (off : BitVec 32) (s : State) : s.StepKeeps (execYield sd off s) :=
  s.front_keeps _ (fun t => .ite
    (.ite ((s.keeps_handOffAll t.uid).trans (State.keeps_modTeam ..)) (s.keeps_handOffAll t.uid)) (s.keeps_advance ..))

end Sys2Proof.Machine
end

/-!
O59: steps beside a team's front, system instructions and pre-emption keep the invariant.
-/

section
namespace Sys2Proof.Machine

/-! ### Steps beside a team's front -/

theorem State.atTeam_keeps (s : State) (gid : Gid) {f : Team → State} (h : ∀ t, s.Keeps (f t)) : s.StepKeeps (s.atTeam gid f) := by
  unfold State.atTeam
  split
  · exact .next (h _)
  · exact .next (.refl s)

theorem execStorePerform_keeps (gid : Gid) (s : State) : s.StepKeeps (execStorePerform gid s) := by
  refine s.atTeam_keeps gid (fun t => ?_)
  split
  · exact .ite (s.keeps_performStores ..) (.refl s)
  · exact .refl s

theorem State.keeps_leaveHead (s : State) (uid : Nat) : s.Keeps (s.leaveHead uid) := s.keeps_modTeam ..

theorem execCopyCompletion_keeps (gid : Gid) (s : State) : s.StepKeeps (execCopyCompletion gid s) :=
  s.atTeam_keeps gid (fun _ => .ite (.refl s) ((State.keeps_stepCopies ..).trans (State.keeps_completeHead ..)))

theorem State.keeps_runHead (s : State) (uid : Nat) : s.Keeps (s.runHead uid) := s.keeps_runHeadBy uid false

theorem State.keeps_setNow (s : State) (n : Nat) : s.Keeps { s with now := n } := .of_eq rfl rfl (Nat.le_refl _)

theorem State.keeps_setAgenda (s : State) (l : List Turn) : s.Keeps { s with agenda := l } := .of_eq rfl rfl (Nat.le_refl _)

theorem execWalkTimeout_keeps (gid : Gid) (s : State) : s.StepKeeps (execWalkTimeout gid s) := by
  refine s.atTeam_keeps gid (fun t => ?_)
  split
  · exact .refl s
  · exact .ite ((s.keeps_setNow _).trans (State.keeps_runHead ..)) ((s.keeps_setNow _).trans (State.keeps_setAgenda ..))

theorem State.keeps_ringWords (p : PkgNo) (base at_ : Nat) (ws : List Word) (s : State) :
    s.Keeps (s.ringWords p base at_ ws) := by
  induction ws generalizing at_ s with
  | nil => exact .refl s
  | cons w ws ih => exact (s.keeps_fwDword ..).trans (ih _ _)

theorem State.keeps_postToken (s : State) (p : PkgNo) (ctx : CtxId) (f : FaultPost) : s.Keeps (s.postToken p ctx f) := by
  simp only [State.postToken]
  split
  · exact .ite (s.keeps_modCtx ..) (.refl s)
  · exact .refl s

theorem execFaultRecordPost_keeps (pkg : PkgNo) (ctx : CtxId) (s : State) : s.StepKeeps (execFaultRecordPost pkg ctx s) := by
  simp only [execFaultRecordPost]
  split
  · exact .next (.refl s)
  · split
    · exact .next (.refl s)
    · split
      · exact .next (s.keeps_rackKeys _)
      · refine .next (.trans ?_ (State.keeps_postToken ..))
        refine .trans ?_ (State.keeps_modCtx ..)
        refine .trans ?_ (State.keeps_fwDword ..)
        exact (s.keeps_rackKeys _).trans (State.keeps_ringWords ..)

theorem State.keeps_fwVa (p : PkgNo) (ctx : CtxId) (va : Nat) (ws : List Word) (s : State) : s.Keeps (s.fwVa p ctx va ws) := by
  induction ws generalizing va s with
  | nil => exact .refl s
  | cons w ws ih =>
    unfold State.fwVa
    split
    · exact .refl s
    · split
      · exact (s.keeps_fwDword ..).trans (ih _ _)
      · exact ih _ _

theorem execFaultCompletion_keeps (pkg : PkgNo) (ctx : CtxId) (seq : BitVec 32) (s : State) :
    s.StepKeeps (execFaultCompletion pkg ctx seq s) := by
  simp only [execFaultCompletion]
  split
  · exact .next ((s.keeps_fwVa ..).trans (State.keeps_modCtx ..))
  · exact .next (.refl s)

/-! ### ERET, CTXS and CTXL -/

theorem State.systemFront_keeps (s : State) (i : Instr) {f : Team → Run} (h : ∀ t, (f t).Keeps s) :
    s.StepKeeps (s.systemFront i f) := s.front_keeps _ (fun t => .ite (h t) (.refl s))

theorem execEret_keeps (sd sa : SReg) (s : State) : s.StepKeeps (execEret sd sa s) := by
  refine s.systemFront_keeps _ (fun t => ?_)
  split
  · exact s.svcDone_keeps ..
  · exact (s.keeps_modTeam ..).trans (State.keeps_modTeam ..)

theorem execCtxs_keeps (sd sa sb : SReg) (s : State) : s.StepKeeps (execCtxs sd sa sb s) := by
  refine s.systemFront_keeps _ (fun t => ?_)
  split
  · exact s.svcDone_keeps ..
  · refine chkRun_keeps s (fun ks _ => ?_)
    split
    · exact s.svcDone_keeps ..
    · exact (State.keeps_storeDwords ..).trans (State.keeps_modTeam ..)

theorem execCtxl_keeps (sd sa sb : SReg) (s : State) : s.StepKeeps (execCtxl sd sa sb s) := by
  refine s.systemFront_keeps _ (fun t => ?_)
  split
  · exact s.svcDone_keeps ..
  · refine chkRun_keeps s (fun ks _ => ?_)
    split
    · exact s.svcDone_keeps ..
    · simp only
      have read := fun ks => s.keeps_loadBytes t ks
      split
      · exact (read _).trans (State.keeps_modTeam ..)
      · exact (read _).trans ((State.keeps_putTeam ..).trans (State.keeps_modTeam ..))

/-! ### Pre-emption -/

theorem State.keeps_withdrawJoins (s : State) (uid : Nat) : s.Keeps (s.withdrawJoins uid) := .of_eq rfl rfl (Nat.le_refl _)

theorem State.keeps_barFinish_getD (s : State) (uid : Nat) (fabric : Bool) : s.Keeps ((s.barFinish uid fabric).getD s) := by
  cases h : s.barFinish uid fabric with
  | none => exact .refl s
  | some s' => exact State.keeps_barFinish h

theorem State.keeps_finishDue (s : State) (uid : Nat) : s.Keeps (s.finishDue uid) := by
  have left := (s.keeps_modTeam uid Team.updPlaced).trans ((State.keeps_leaveHead _ uid).trans (State.keeps_settle _ uid))
  have barred : ∀ z, s.Keeps z → s.Keeps (match z.barFinish uid false with
      | some s' => s'
      | none => (z.barFinish uid true).getD z) := by
    intro z hz
    split
    · next h => exact hz.trans (State.keeps_barFinish h)
    · exact hz.trans (State.keeps_barFinish_getD ..)
  refine .trans (barred _ ?_) (State.keeps_takeHeld ..)
  split
  · exact .ite (left.trans (State.keeps_runHead ..)) left
  · exact left

theorem State.keeps_unstore (s : State) (t : Team) (n : Nat) : s.Keeps (s.unstore t n) :=
  (s.keeps_filterWrites _ s.bad).trans (State.keeps_modTeam ..)

theorem State.keeps_forceSave (s : State) (uid : Nat) : s.Keeps (s.forceSave uid) := by
  simp only [State.forceSave]
  have finished := s.keeps_finishDue uid
  split
  · exact finished
  · have withdrawn := fun t => (finished.trans (State.keeps_putTeam _ t)).trans (State.keeps_withdrawJoins _ uid)
    refine .trans ?_ (State.keeps_suspend ..)
    split
    · exact (withdrawn _).trans ((State.keeps_unstore ..).trans ((State.keeps_modTeam ..).trans (State.keeps_settle ..)))
    · exact withdrawn _

theorem State.keeps_moveMates (s : State) (t : Team) (gid : Gid) : s.Keeps (s.moveMates t gid) := .of_eq rfl rfl (Nat.le_refl _)

theorem State.keeps_bringShare (s : State) (t : Team) (gid : Gid) : s.Keeps (s.bringShare t gid) := by
  simp only [State.bringShare]
  split
  · exact s.keeps_takeCore ..
  · refine .trans ?_ (State.keeps_modPkg ..)
    refine .trans ?_ (State.keeps_unparkCore ..)
    refine .trans ?_ (State.keeps_clearCore ..)
    refine .trans ?_ (State.keeps_takeCore ..)
    have parked : s.Keeps (if (s.pkg t.pkg).shares.contains (t.ctx, gidCoreKey t.gid) then s else s.parkCore t.ctx t.gid) :=
      .ite (.refl s) (s.keeps_parkCore ..)
    exact .ite (parked.trans (State.keeps_parkDeque ..)) parked

theorem State.keeps_dropSaved (s : State) (p : SavedTeam → Bool) : s.Keeps { s with saved := s.saved.filter p } :=
  .of_eq rfl rfl (Nat.le_refl _)

theorem State.keeps_addTeams (s : State) (ts : List Team) : s.Keeps { s with teams := s.teams ++ ts } :=
  .of_eq rfl rfl (Nat.le_refl _)

theorem State.keeps_resume (s : State) (x : SavedTeam) (gid : Gid) : s.Keeps (s.resume x gid) := by
  simp only [State.resume]
  refine .trans ?_ (State.keeps_addTeams ..)
  have brought := (s.keeps_bringShare x.team gid).trans (State.keeps_loadWindow _ x.team.pkg (gidDie gid) x.team.ctx)
  have moved := fun p => State.Keeps.ite (c := gidCoreKey gid = gidCoreKey x.team.gid) (brought.trans (State.keeps_dropSaved _ p))
    ((brought.trans (State.keeps_dropSaved _ p)).trans (State.keeps_moveMates _ x.team gid))
  split
  · exact (moved _).trans (State.keeps_modCtx ..)
  · exact moved _

theorem execResumption_keeps (uid : Nat) (newGid : Gid) (s : State) : s.StepKeeps (execResumption uid newGid s) := by
  simp only [execResumption]
  split
  · exact .next (.refl s)
  · exact .ite (.next (s.keeps_resume ..)) (.next (.refl s))

end Sys2Proof.Machine
end

/-!
O59: queues, launches, the fabric, the host path and sync registers keep the invariant.
-/

section
namespace Sys2Proof.Machine

/-! ### Queues and launches -/

theorem State.keeps_postCompletion (s : State) (p : PkgNo) (ctx : CtxId) (r : List Word) (status : Nat) (q : BitVec 6)
    (faults : Nat) : s.Keeps (s.postCompletion p ctx r status q faults) := .ite (.refl s) (s.keeps_fwVa ..)

theorem State.keeps_modQueue (s : State) (p : PkgNo) (q : BitVec 6) (f : Queue → Queue) : s.Keeps (s.modQueue p q f) :=
  s.keeps_modPkg ..

theorem State.keeps_popRing (s : State) (p : PkgNo) (q : BitVec 6) : s.Keeps (s.popRing p q).2 :=
  (s.keeps_rackKeys _).trans ((State.keeps_modQueue ..).trans (State.keeps_fwDword ..))

theorem State.keeps_popEntry (s : State) (p : PkgNo) (q : BitVec 6) : s.Keeps (s.popEntry p q).2.2 := by
  simp only [State.popEntry]
  split
  · split
    · exact s.keeps_modQueue ..
    · exact s.keeps_popRing ..
  · exact s.keeps_popRing ..

theorem State.keeps_addLaunch (s : State) (ls : List Launch) :
    s.Keeps { s with nextId := s.nextId + 1, launches := s.launches ++ ls } := .of_eq rfl rfl (Nat.le_succ _)

theorem execQueuePop_keeps (pkg : PkgNo) (q : BitVec 6) (s : State) : s.StepKeeps (execQueuePop pkg q s) := by
  simp only [execQueuePop]
  have watched : s.Keeps (s.watchTails pkg) := s.keeps_rackKeys _
  split
  · exact .next watched
  · split
    · exact .next watched
    · have popped := fun f => (watched.trans (State.keeps_popEntry _ pkg q)).trans (State.keeps_modPkg _ pkg f)
      split
      · exact .next ((popped _).trans (State.keeps_postCompletion ..))
      · split
        · exact .next ((popped _).trans (State.keeps_postCompletion ..))
        · exact .next ((popped _).trans (State.keeps_addLaunch ..))

theorem execInstancePlacement_keeps (launch : Nat) (die : Bool) (s : State) :
    s.StepKeeps (execInstancePlacement launch die s) := by
  simp only [execInstancePlacement]
  split
  · exact .next (.refl s)
  · split
    · exact .next (.refl s)
    · split
      · exact .next (s.keeps_putLaunch _)
      · exact .next (s.keeps_putLaunch _)

theorem execSteal_keeps (launch : Nat) (die : Bool) (s : State) : s.StepKeeps (execSteal launch die s) := by
  simp only [execSteal]
  split
  · exact .next (.refl s)
  · split
    · exact .next (.refl s)
    · split
      · exact .next (s.keeps_putLaunch _)
      · exact .next (s.keeps_putLaunch _)

theorem State.keeps_placeCore (s : State) (l : Launch) (inst pos core : Nat) (all : List Gid) (st : TeamStatus) :
    s.Keeps (s.placeCore l inst pos core all st) :=
  (s.keeps_takeCore ..).trans ((State.keeps_loadWindow ..).trans (.of_eq rfl rfl (Nat.le_add_right ..)))

theorem State.keeps_placeCores (l : Launch) (inst : Nat) (all : List Gid) (st : TeamStatus) (pos : Nat) (cs : List Nat)
    (s : State) : s.Keeps (s.placeCores l inst all st pos cs) := by
  induction cs generalizing pos s with
  | nil => exact .refl s
  | cons c cs ih => exact (s.keeps_placeCore ..).trans (ih _ _)

theorem execGroupPlacement_keeps (launch inst : Nat) (cores : List Gid) (s : State) :
    s.StepKeeps (execGroupPlacement launch inst cores s) := by
  unfold execGroupPlacement
  split
  · exact .next (.refl s)
  · split
    · exact .next (.refl s)
    · exact .ite (.next ((s.keeps_placeCores ..).trans (State.keeps_putLaunch ..))) (.next (.refl s))

theorem State.keeps_dropLaunches (s : State) (p : Launch → Bool) : s.Keeps { s with launches := s.launches.filter p } :=
  .of_eq rfl rfl (Nat.le_refl _)

theorem execLaunchCompletion_keeps (launch : Nat) (s : State) : s.StepKeeps (execLaunchCompletion launch s) := by
  simp only [execLaunchCompletion]
  split
  · exact .next (.refl s)
  · split
    · exact .next (.refl s)
    · split
      · exact .next (s.keeps_dropLaunches _)
      · exact .next ((s.keeps_postCompletion ..).trans ((State.keeps_modQueue ..).trans (State.keeps_dropLaunches ..)))

/-! ### Gang slices -/

theorem State.keeps_holdSaved (s : State) (x : SavedTeam) : s.Keeps (s.holdSaved x) :=
  (s.keeps_resume ..).trans (State.keeps_modTeam ..)

theorem execReady_keeps (launch : Nat) (pkg : PkgNo) (cores : List Gid) (s : State) :
    s.StepKeeps (execReady launch pkg cores s) := by
  simp only [execReady]
  split
  · exact .next (.refl s)
  · split
    · exact .next (.refl s)
    · split
      · split
        · exact .next ((State.keeps_foldl _ State.keeps_holdSaved _ s).trans (State.keeps_putLaunch ..))
        · exact .next (.refl s)
      · split
        · exact .next (.refl s)
        · split
          · exact .next ((s.keeps_placeCores ..).trans (State.keeps_putLaunch ..))
          · exact .next (.refl s)

theorem execGangSliceStart_keeps (launch : Nat) (s : State) : s.StepKeeps (execGangSliceStart launch s) := by
  unfold execGangSliceStart
  split
  · exact .next (.refl s)
  · exact .ite (.next (.refl s)) (.ite (.next (s.keeps_putLaunch _)) (.next (s.keeps_putLaunch _)))

theorem State.keeps_releaseOn (s : State) (l : Launch) (p : PkgNo) : s.Keeps (s.releaseOn l p) := .of_eq rfl rfl (Nat.le_refl _)

theorem execStart_keeps (launch : Nat) (pkg : PkgNo) (s : State) : s.StepKeeps (execStart launch pkg s) := by
  unfold execStart
  split
  · exact .next (.refl s)
  · exact .ite (.next (.refl s)) (.next ((s.keeps_releaseOn ..).trans (State.keeps_putLaunch ..)))

theorem State.keeps_unplace (s : State) (t : Team) : s.Keeps (s.unplace t) :=
  .ite (s.keeps_dropTeam _) ((s.keeps_modTeam ..).trans (State.keeps_suspend ..))

theorem execAbort_keeps (launch : Nat) (pkg : PkgNo) (s : State) : s.StepKeeps (execAbort launch pkg s) := by
  simp only [execAbort]
  have unplaced := fun ts => State.keeps_foldl _ State.keeps_unplace ts s
  have forced := fun ts => State.keeps_foldl _ (fun s (t : Team) => s.keeps_forceSave t.uid) ts s
  split
  · exact .next (.refl s)
  · split
    · exact .next (.refl s)
    · split
      · exact .next ((unplaced _).trans (State.keeps_putLaunch ..))
      · exact .next ((forced _).trans (State.keeps_putLaunch ..))

/-! ### The fabric -/

theorem execFsend_keeps (k : GReg) (sa sl : SReg) (tgt : BitVec 13) (tag : BitVec 16) (route : Word) (s : State) :
    s.StepKeeps (execFsend k sa sl tgt tag route s) := by
  refine s.front_keeps _ (fun t => ?_)
  simp only
  split
  · exact .refl s
  · split
    · exact .refl s
    · refine chkRun_keeps s (fun ks _ => ?_)
      have read := (s.keeps_cfence t.uid .team .send).trans (State.keeps_readBytes .send t.uid ks _)
      split
      · exact .refl s
      · refine chkRun_keeps s (fun us _ => .trans ?_ (State.keeps_modTeam ..))
        split
        · exact read.trans ((State.keeps_raiseName _ 1).trans (State.keeps_modTeam ..))
        · exact read

theorem State.keeps_storeSend (uid : Nat) (cs : List Host.Cell) (s : State) : s.Keeps (storeSend uid cs s) := by
  induction cs generalizing s with
  | nil => exact .refl s
  | cons c cs ih => exact (s.keeps_store ..).trans (ih _)

theorem execFrecv_keeps (w : Wild) (sd sm : SReg) (tag : BitVec 16) (s : State) : s.StepKeeps (execFrecv w sd sm tag s) := by
  refine s.front_keeps _ (fun t => .ite (.refl s) ?_)
  split
  · exact .refl s
  · refine chkRun_keeps s (fun ks _ => ?_)
    exact (State.keeps_storeSend ..).trans ((State.keeps_modTeam ..).trans
      ((State.keeps_cfence ..).trans (State.keeps_modTeam ..)))

theorem execFbar_keeps (n : BitVec 3) (s : State) : s.StepKeeps (execFbar n s) :=
  s.front_keeps _ (fun t => .ite (s.barRun_keeps t true n) (.refl s))

theorem execFabricBarrierCompletion_keeps (gid : Gid) (s : State) : s.StepKeeps (execFabricBarrierCompletion gid s) :=
  s.atTeam_keeps gid (fun _ => .ite (s.keeps_barFinish_getD ..) (.refl s))

theorem execExchangeClose_keeps (gid : Gid) (s : State) : s.StepKeeps (execExchangeClose gid s) :=
  s.atTeam_keeps gid (fun _ => .of_eq rfl rfl (Nat.le_refl _))

/-! ### The host path -/

theorem execHostWrite_keeps (tgt : HostTarget) (bytes : List Byte) (s : State) : s.StepKeeps (execHostWrite tgt bytes s) :=
  .next (s.keeps_hostPut ..)

theorem execHostRead_keeps (tgt : HostTarget) (n : Nat) (s : State) : s.StepKeeps (execHostRead tgt n s) :=
  .next (s.keeps_rackKeys _)

/-! ### Sync registers -/

theorem State.keeps_showSync (s : State) (p : PkgNo) (die : Bool) (phys : Nat) (r : SyncReg) :
    s.Keeps (s.showSync p die phys r) := .of_eq rfl rfl (Nat.le_refl _)

theorem State.keeps_syncWrite (s : State) (p : PkgNo) (phys : Nat) (r : SyncReg) : s.Keeps (s.syncWrite p phys r) :=
  (s.keeps_modPkg ..).trans (State.keeps_showSync ..)

theorem State.keeps_applyMirror (s : State) (p : PkgNo) (phys : Nat) (r : SyncReg) : s.Keeps (s.applyMirror p phys r) :=
  (s.keeps_modPkg ..).trans (State.keeps_showSync ..)

theorem State.keeps_mirrorDue (s : State) (p : PkgNo) : s.Keeps (s.mirrorDue p) :=
  (State.keeps_foldl _ (fun s _ => s.keeps_applyMirror ..) _ s).trans (State.keeps_modPkg ..)

theorem execMirror_keeps (pkg : PkgNo) (s : State) : s.StepKeeps (execMirror pkg s) := by
  simp only [execMirror]
  split
  · exact .next (.refl s)
  · split
    · exact .next (.refl s)
    · exact .next ((s.keeps_modPkg ..).trans (State.keeps_applyMirror ..))

theorem State.syncOp_keeps (s : State) (t : Team) (scope : ScopeCode) (sa : SReg) (f : Word → Option Word)
    (k : Team → Word → Team) : (s.syncOp t scope sa f k).Keeps s := by
  refine chkRun_keeps s (fun phys _ => ?_)
  have handed := s.keeps_handOffAll t.uid
  simp only
  split
  · exact handed
  · refine State.Keeps.trans ?_ (State.keeps_modTeam ..)
    split
    · exact handed.trans ((State.keeps_publish ..).trans ((State.keeps_complete ..).trans (State.keeps_syncWrite ..)))
    · exact handed.trans ((State.keeps_publish ..).trans (State.keeps_complete ..))

theorem State.waitOn_keeps (s : State) (uid : Nat) (scope : ScopeCode) (sd : SReg) : (s.waitOn uid scope sd).Keeps s := by
  unfold State.waitOn
  split
  · split
    · exact (s.keeps_complete ..).trans (State.keeps_modTeam ..)
    · exact .refl s
  · exact .refl s

theorem execSyncWait_keeps (cc scope : BitVec 3) (sd sa sb : SReg) (s : State) :
    s.StepKeeps (execSyncWait cc scope sd sa sb s) := by
  refine s.front_keeps _ (fun t => ?_)
  split
  · exact .trans (s.keeps_mirrorDue _) (State.waitOn_keeps ..)
  · refine chkRun_keeps s (fun phys _ => ?_)
    have handed := s.keeps_handOffAll t.uid
    refine .ite handed (.trans ?_ (State.waitOn_keeps ..))
    exact handed.trans ((State.keeps_mirrorDue ..).trans ((State.keeps_publish ..).trans (State.keeps_modTeam ..)))

end Sys2Proof.Machine
end

/-!
O59: ends, host commands, firmware, failures and routes keep the invariant.
-/

section
namespace Sys2Proof.Machine

/-! ### Work that ends -/

theorem State.keeps_stopTeam (s : State) (t : Team) : s.Keeps (s.stopTeam t) :=
  .trans (.ite (s.keeps_runHead _) (.refl s)) ((State.keeps_withdrawJoins ..).trans (State.keeps_dropTeam ..))

theorem State.keeps_deliverAllOf (s : State) (ctx : CtxId) : s.Keeps (s.deliverAllOf ctx) := .of_eq rfl rfl (Nat.le_refl _)

theorem State.keeps_dropShares (s : State) (p : PkgNo) : s.Keeps (s.dropShares p) :=
  State.keeps_foldl _ (fun s _ => (s.keeps_remap _).trans (State.keeps_modPkg ..)) _ s

theorem State.keeps_flushMirror (s : State) (p : PkgNo) (ctx : CtxId) : s.Keeps (s.flushMirror p ctx) := by
  unfold State.flushMirror
  split
  · exact .refl s
  · exact (State.keeps_foldl _ (fun s _ => s.keeps_applyMirror ..) _ s).trans (State.keeps_modPkg ..)

theorem State.keeps_setLaunches (s : State) (ls : List Launch) : s.Keeps { s with launches := ls } :=
  .of_eq rfl rfl (Nat.le_refl _)

theorem State.keeps_endWork (s : State) (p : PkgNo) (ctx : CtxId) (ids : List Nat) : s.Keeps (s.endWork p ctx ids) := by
  simp only [State.endWork]
  refine .trans ?_ (State.keeps_setLaunches ..)
  refine .trans ?_ (State.keeps_dropShares ..)
  refine .trans ?_ (State.keeps_flushMirror ..)
  refine .trans ?_ (State.keeps_modCtx ..)
  refine .trans ?_ (State.keeps_modPkg ..)
  refine .trans ?_ (State.keeps_enter ..)
  refine .trans ?_ (State.keeps_deliverAllOf ..)
  refine .trans ?_ (State.keeps_dropSaved ..)
  exact s.keeps_latchBars.trans (State.keeps_foldl _ State.keeps_stopTeam ..)

theorem State.keeps_resetQueue (s : State) (p : PkgNo) (q : BitVec 6) : s.Keeps (s.resetQueue p q) := by
  simp only [State.resetQueue]
  refine .trans ?_ (State.keeps_endWork ..)
  exact (s.keeps_rackKeys _).trans ((State.keeps_modQueue ..).trans (State.keeps_fwDword ..))

theorem State.keeps_report (s : State) (p : PkgNo) (e : EventRec) : s.Keeps (s.report p e) := by
  unfold State.report
  refine .trans ?_ (State.keeps_modPkg ..)
  refine .trans ?_ (State.keeps_fwDword ..)
  exact s.keeps_hostPut ..

theorem State.keeps_endOn (s : State) (p : PkgNo) (ctx : CtxId) : s.Keeps (s.endOn p ctx) := by
  simp only [State.endOn]
  split
  · exact .refl s
  · refine .trans ?_ (State.keeps_modPkg ..)
    refine .trans ?_ (State.keeps_spoil ..)
    exact (State.keeps_foldl _ (fun s q => s.keeps_resetQueue p q) _ s).trans (State.keeps_endWork ..)

theorem State.keeps_endCtx (s : State) (ctx : CtxId) : s.Keeps (s.endCtx ctx) :=
  State.keeps_foldl _ (fun s _ => s.keeps_endOn ..) _ s

theorem State.keeps_failCtxs (s : State) (p : PkgNo) (unit : Nat) (kind : EventKind) (cs : List CtxId) :
    s.Keeps (s.failCtxs p unit kind cs) :=
  State.keeps_foldl _ (fun s c => (s.keeps_endCtx c).trans (State.keeps_report ..)) _ s

/-! ### The vintage services -/

theorem execVntSet_keeps (sd : SReg) (s : State) : s.StepKeeps (execVntSet sd s) := by
  refine s.front_keeps _ (fun t => ?_)
  split
  · exact s.svcDone_keeps ..
  · simp only
    split
    · exact (s.keeps_putTable ..).trans ((State.keeps_noteHost ..).trans (State.keeps_modTeam ..))
    · exact s.svcDone_keeps ..

theorem execVntRel_keeps (sd : SReg) (s : State) : s.StepKeeps (execVntRel sd s) := by
  refine s.front_keeps _ (fun t => ?_)
  simp only
  split
  · exact s.svcDone_keeps ..
  · split
    · exact s.svcDone_keeps ..
    · split
      · exact s.keeps_modTeam ..
      · exact (s.keeps_modCtx ..).trans ((State.keeps_spoil ..).trans (State.keeps_modTeam ..))

theorem execVntInv_keeps (sd : SReg) (s : State) : s.StepKeeps (execVntInv sd s) := by
  refine s.front_keeps _ (fun t => ?_)
  simp only
  split
  · exact s.svcDone_keeps ..
  · split
    · exact s.svcDone_keeps ..
    · split
      · exact s.svcDone_keeps ..
      · exact (s.keeps_putTable ..).trans (State.keeps_modTeam ..)

theorem execVntc_keeps (k : BitVec 2) (clr : Bool) (sd : SReg) (s : State) : s.StepKeeps (execVntc k clr sd s) := by
  refine s.front_keeps _ (fun t => ?_)
  simp only
  split
  · exact (s.keeps_modCtx ..).trans (State.keeps_modTeam ..)
  · exact s.keeps_modTeam ..

/-! ### Host commands -/

theorem State.keeps_endCommand (s : State) (p : PkgNo) (status : Word) : s.Keeps (s.endCommand p status) := s.keeps_modPkg ..

theorem State.command_keeps (s : State) (p : PkgNo) (code : Nat) {f : Pkg → Except Word State}
    (h : ∀ k z, f k = .ok z → s.Keeps z) : s.StepKeeps (s.command p code f) := by
  unfold State.command
  split
  · split
    · next hf => exact .next ((h _ _ hf).trans (State.keeps_endCommand ..))
    · exact .next (s.keeps_endCommand ..)
  · exact .next (.refl s)

theorem execCtxCreate_keeps (pkg : PkgNo) (s : State) : s.StepKeeps (execCtxCreate pkg s) := by
  refine s.command_keeps pkg _ (fun k z h => ?_)
  split at h
  · cases h
  · split at h
    · cases h
    · split at h
      · cases h
      · cases h
        exact (s.keeps_rackKeysOf ..).trans ((State.keeps_modPkg ..).trans (State.keeps_putCtx ..))

theorem execCtxEnd_keeps (pkg : PkgNo) (s : State) : s.StepKeeps (execCtxEnd pkg s) := by
  refine s.command_keeps pkg _ (fun k z h => ?_)
  split at h
  · cases h
  · rw [← Except.ok.inj h]
    exact s.keeps_failCtxs ..

theorem execQueueOpen_keeps (pkg : PkgNo) (s : State) : s.StepKeeps (execQueueOpen pkg s) := by
  refine s.command_keeps pkg _ (fun k z h => ?_)
  simp only at h
  split at h
  · cases h
  · split at h
    · cases h
    · split at h
      · cases h
      · cases h
        exact (s.keeps_rackKeys _).trans (State.keeps_modQueue ..)

theorem execQueueReset_keeps (pkg : PkgNo) (s : State) : s.StepKeeps (execQueueReset pkg s) := by
  simp only [execQueueReset]
  split
  · split
    · exact .next (s.keeps_endCommand ..)
    · split
      · exact .next ((s.keeps_modPkg ..).trans (State.keeps_endCommand ..))
      · split
        · exact .next (s.keeps_endCommand ..)
        · exact .next ((s.keeps_resetQueue ..).trans (State.keeps_modPkg ..))
  · exact .next (.refl s)

theorem execCancel_keeps (pkg : PkgNo) (s : State) : s.StepKeeps (execCancel pkg s) := by
  refine s.command_keeps pkg _ (fun k z h => ?_)
  split at h
  · split at h
    · cases h
    · cases h
      exact s.keeps_putCtx ..
  · cases h

theorem execCancelClr_keeps (pkg : PkgNo) (s : State) : s.StepKeeps (execCancelClr pkg s) := by
  refine s.command_keeps pkg _ (fun k z h => ?_)
  split at h
  · cases h
    exact s.keeps_putCtx ..
  · cases h

theorem execTlbInv_keeps (pkg : PkgNo) (s : State) : s.StepKeeps (execTlbInv pkg s) := by
  refine s.command_keeps pkg _ (fun k z h => ?_)
  simp only at h
  split at h
  · cases h
  · split at h
    · cases h
    · cases h
      exact (s.keeps_rackKeysOf ..).trans (State.keeps_modCtx ..)

theorem execWinSet_keeps (pkg : PkgNo) (s : State) : s.StepKeeps (execWinSet pkg s) := by
  simp only [execWinSet]
  split
  · split
    · exact .next (s.keeps_endCommand ..)
    · split
      · exact .next (.refl s)
      · split
        · refine .next (.trans ?_ (State.keeps_endCommand ..))
          exact (s.keeps_rackKeys _).trans ((State.keeps_rackKeysOf ..).trans (State.keeps_modCtx ..))
        · exact .next ((s.keeps_rackKeys _).trans (State.keeps_endCommand ..))
  · exact .next (.refl s)

theorem execFwStage_keeps (pkg : PkgNo) (s : State) : s.StepKeeps (execFwStage pkg s) := by
  refine s.command_keeps pkg _ (fun k z h => ?_)
  simp only at h
  split at h
  · cases h
  · split at h
    · cases h
      exact s.keeps_modPkg ..
    · cases h

theorem execFwActivate_keeps (pkg : PkgNo) (s : State) : s.StepKeeps (execFwActivate pkg s) := by
  refine s.command_keeps pkg _ (fun k z h => ?_)
  split at h
  · cases h
  · split at h <;> cases h <;> exact s.keeps_modPkg ..

/-! ### HOST.SVC -/

theorem runService_keeps (n : Nat) (s : State) : s.StepKeeps (runService n s) := by
  unfold runService
  split
  · exact execShapeSet_keeps _ _
  · exact execShapeInv_keeps _ _
  · exact execRegionSet_keeps _ _
  · exact execRegionRel_keeps _ _
  · exact execRegionStat_keeps _ _
  · exact execVntSet_keeps _ _
  · exact execVntRel_keeps _ _
  · exact execVntInv_keeps _ _

theorem State.keeps_setCur (s : State) (n : Nat) : s.Keeps { s with cur := n } := .of_eq rfl rfl (Nat.le_refl _)

theorem State.keeps_serviceEnd (s : State) (p : PkgNo) (cur : Nat) : s.Keeps (s.serviceEnd p cur) := by
  simp only [State.serviceEnd]
  split
  · exact .refl s
  · next t _ =>
    have left := ((s.keeps_enter (t.view .team)).trans (State.keeps_dropTeam _ 0)).trans (State.keeps_setCur _ cur)
    split
    · exact left.trans (State.keeps_modPkg ..)
    · exact left.trans ((State.keeps_endCommand ..).trans (State.keeps_modPkg ..))

theorem execHostSvc_keeps (pkg : PkgNo) (s : State) : s.StepKeeps (execHostSvc pkg s) := by
  simp only [execHostSvc]
  split
  · split
    · exact .next (s.keeps_endCommand ..)
    · split
      · exact .next (s.keeps_endCommand ..)
      · split
        · next hrun =>
          refine .next (.trans ?_ (State.keeps_serviceEnd ..))
          exact ((s.keeps_addTeams _).trans (State.keeps_setCur _ 0)).trans (runService_keeps _ _ _ hrun)
        · next hrun => exact fun s' h => absurd h (hrun s')
  · exact .next (.refl s)

theorem execUnknownCommandCode_keeps (pkg : PkgNo) (s : State) : s.StepKeeps (execUnknownCommandCode pkg s) := by
  unfold execUnknownCommandCode
  split
  · exact .ite (.next (.refl s)) (.next (s.keeps_endCommand ..))
  · exact .next (.refl s)

/-! ### Firmware, failures and power -/

theorem execBoot_keeps (pkg : PkgNo) (s : State) : s.StepKeeps (execBoot pkg s) :=
  .ite (.next (s.keeps_modPkg ..)) (.next (.refl s))

theorem State.keeps_endAll (s : State) (p : PkgNo) (kind : EventKind) : s.Keeps (s.endAll p kind) := s.keeps_failCtxs ..

theorem execTrialTimeout_keeps (pkg : PkgNo) (s : State) : s.StepKeeps (execTrialTimeout pkg s) :=
  .ite (.next ((s.keeps_endAll ..).trans (State.keeps_modPkg ..))) (.next (.refl s))

theorem execUncorrectableError_keeps (pkg : PkgNo) (site : ErrorSite) (s : State) :
    s.StepKeeps (execUncorrectableError pkg site s) := by
  unfold execUncorrectableError
  split
  · exact .next (.of_eq rfl rfl (Nat.le_refl _))
  · split
    · exact .next (s.keeps_failCtxs ..)
    · exact .next (.refl s)

theorem execRetirement_keeps (pkg : PkgNo) (pos : Position) (s : State) : s.StepKeeps (execRetirement pkg pos s) :=
  .ite (.next (.refl s)) (.next ((s.keeps_modPkg ..).trans (State.keeps_report ..)))

theorem execUnitFailure_keeps (pkg : PkgNo) (unit : HwUnit) (s : State) : s.StepKeeps (execUnitFailure pkg unit s) := by
  cases unit with
  | core d c y x => exact .next ((s.keeps_failCtxs ..).trans ((State.keeps_modPkg ..).trans (State.keeps_report ..)))
  | leaf d c => exact .next (s.keeps_failCtxs ..)
  | stack n => exact .next ((s.keeps_failCtxs ..).trans (State.keeps_modPkg ..))
  | peer p => exact .next ((s.keeps_failCtxs ..).trans (State.keeps_modPkg ..))

theorem State.keeps_powerOff (s : State) (p : PkgNo) : s.Keeps (s.powerOff p) := (s.keeps_remap _).trans (State.keeps_modPkg ..)

theorem execWake_keeps (pkg : PkgNo) (s : State) : s.StepKeeps (execWake pkg s) :=
  .ite (.next (s.keeps_modPkg ..)) (.next (.refl s))

/-! ### Ports and routes -/

theorem State.keeps_dropLink (s : State) (pkg : PkgNo) (port : BitVec 4) : s.Keeps (s.dropLink pkg port) := by
  simp only [State.dropLink]
  split
  · exact (s.keeps_modPkg ..).trans ((State.keeps_modPkg ..).trans (State.keeps_failCtxs ..))
  · exact .refl s

theorem State.keeps_setPkgs (s : State) (ks : KMap Pkg) : s.Keeps { s with pkgs := ks } := .of_eq rfl rfl (Nat.le_refl _)

theorem execPortRetire_keeps (pkg : PkgNo) (port : BitVec 4) (s : State) : s.StepKeeps (execPortRetire pkg port s) := by
  simp only [execPortRetire]
  split
  · refine .next (.trans ?_ (State.keeps_report ..))
    exact (s.keeps_modPkg ..).trans (State.keeps_setPkgs ..)
  · exact .next (.refl s)

theorem execPortTraining_keeps (pkg : PkgNo) (port : BitVec 4) (peer : PkgNo) (peerPort : BitVec 4) (up comp : Bool) (s : State) :
    s.StepKeeps (execPortTraining pkg port peer peerPort up comp s) :=
  .ite (.next (.refl s)) (.next (.trans (.ite (.refl s) (s.keeps_dropLink ..)) (State.keeps_modPkg ..)))

theorem State.keeps_patchWords (f : RouteFixup) (n : Nat) (ws : List Word) (s : State) : s.Keeps (s.patchWords f n ws) := by
  induction ws generalizing n s with
  | nil => exact .refl s
  | cons w ws ih =>
    refine .trans ?_ (ih _ _)
    split
    · exact s.keeps_hostPut ..
    · exact .refl s

theorem State.keeps_showPass (s : State) (p : PkgNo) (cs : List CtxId) (first : Nat) : s.Keeps (s.showPass p cs first) :=
  .of_eq rfl rfl (Nat.le_refl _)

theorem execRouteFixupPass_keeps (pkg : PkgNo) (fixups : List RouteFixup) (s : State) :
    s.StepKeeps (execRouteFixupPass pkg fixups s) := by
  simp only [execRouteFixupPass]
  have patched := State.keeps_foldl (fun s f => s.patchWords f 0 (s.fixupWords pkg f)) (fun s f => s.keeps_patchWords f 0 _) fixups s
  split
  · exact .next (.refl s)
  · exact .next (patched.trans ((State.keeps_modPkg ..).trans (State.keeps_showPass ..)))

end Sys2Proof.Machine
end

/-!
O59: every instruction and every event keeps the invariant.
-/

section
namespace Sys2Proof.Machine

/-! ### Scalar instructions -/

theorem execLd_keeps (z : BitVec 2) (u : Bool) (sd sa : SReg) (b : Opd) (s : State) : s.StepKeeps (execLd z u sd sa b s) :=
  s.front_keeps _ (fun _ => chkRun_keeps s (fun _ _ => (s.keeps_rackKeys _).trans (State.keeps_modTeam ..)))

theorem State.keeps_putStore (s : State) (t : Team) (cells : List Host.Cell) : s.Keeps (s.putStore t cells) :=
  .ite (s.keeps_storeAt ..) (s.keeps_modTeam ..)

theorem execSt_keeps (z : BitVec 2) (sd sa : SReg) (b : Opd) (s : State) : s.StepKeeps (execSt z sd sa b s) :=
  s.front_keeps _ (fun _ => chkRun_keeps s (fun _ _ => (s.keeps_putStore ..).trans (State.keeps_advance ..)))

theorem execLdff_keeps (z : BitVec 2) (u : Bool) (sd sa : SReg) (b : Opd) (s : State) :
    s.StepKeeps (execLdff z u sd sa b s) :=
  s.front_keeps _ (fun _ => .ite (s.keeps_putTeam _) (chkRun_keeps s (fun _ _ => chkRun_keeps s (fun _ _ =>
    (s.keeps_rackKeys _).trans (State.keeps_modTeam ..)))))

theorem execBqpop_keeps (sd : SReg) (s : State) : s.StepKeeps (execBqpop sd s) := by
  refine s.front_keeps _ (fun t => .ite (.refl s) ?_)
  split
  · exact .refl s
  · exact s.keeps_putTeam _

theorem execMts_keeps (n : BitVec 5) (sa : SReg) (s : State) : s.StepKeeps (execMts n sa s) :=
  s.front_keeps _ (fun _ => .ite (s.keeps_putTeam _) (.refl s))

theorem execTrap_keeps (code : BitVec 16) (s : State) : s.StepKeeps (execTrap code s) := by
  refine s.front_keeps _ (fun t => ?_)
  exact s.keeps_frontFault ..

theorem execBrk_keeps (code : BitVec 16) (s : State) : s.StepKeeps (execBrk code s) := by
  refine s.front_keeps _ (fun t => ?_)
  exact s.keeps_frontFault ..

/-! ### Every instruction -/

theorem exec_keeps (i : Instr) (s : State) : s.StepKeeps (exec i s) :=
  match i with
  | .nop | .hint .. | .add .. | .sub .. | .mul .. | .mulh .. | .div .. | .rem .. | .and .. | .or .. | .xor ..
  | .shl .. | .shr .. | .sra .. | .min .. | .max .. | .clz .. | .ctz .. | .popc .. | .sel .. | .cmp .. | .gop ..
  | .lea .. | .mfs .. | .li .. | .liX .. | .lih .. | .pref .. | .evict .. | .winq .. => s.frontTeam_keeps _ _
  | .br .. | .jmp .. | .call .. | .ret .. => s.front_keeps _ (fun _ => s.transfer_keeps ..)
  | .tadd .. | .tsub .. | .tmul .. | .tfma .. | .tmax .. | .tmin .. | .tcmp .. | .tsel .. | .tmov .. | .tcvt ..
  | .tld .. | .tst .. | .tldff .. | .ttrn .. | .tdecl .. | .trel .. | .text .. | .tgth .. | .tsct .. | .tcopy ..
  | .tcopyStr .. | .twait .. | .qbind .. | .qrel .. | .tfill .. | .tiota .. | .tslide .. | .tpack .. | .tunpk ..
  | .tqnt .. | .tdqt .. | .map .. | .reduce .. | .scan .. | .trds .. | .ldb .. | .ldbm .. | .mma .. | .mmam ..
  | .mmat .. | .aclr .. | .ard .. | .awr .. | .amaxa .. | .tscl .. | .route .. | .ablk .. | .iwalk .. | .sendt ..
  | .recvt .. | .upd .. | .vntq .. | .vntw .. | .fgth .. | .allx .. => s.tileExec_keeps _
  | .syncTas .. | .syncFadd .. | .syncLd .. | .syncSt .. => s.front_keeps _ (fun _ => s.syncOp_keeps ..)
  | .fabricMessageDelivery .. | .preemptionWithdrawal .. => s.atTeam_keeps _ (fun _ => s.keeps_putTeam _)
  | .rsvW2Write .. | .commit .. | .registerWrite .. | .getMeasurements .. | .negotiateAlgorithms .. | .softError ..
  | .supplySag .. | .clockReturn .. | .junction105 .. | .junctionBelow100 .. | .hostAttachmentFailure ..
  | .d2dLinkTraining .. => .next (s.keeps_modPkg ..)
  | .junction115 .. | .standby .. => .next ((s.keeps_endAll ..).trans (State.keeps_powerOff ..))
  | .ld .. => execLd_keeps _ _ _ _ _ _
  | .st .. => execSt_keeps _ _ _ _ _
  | .storePerform .. => execStorePerform_keeps _ _
  | .ldff .. => execLdff_keeps _ _ _ _ _ _
  | .bqpop .. => execBqpop_keeps _ _
  | .mts .. => execMts_keeps _ _ _
  | .loop .. => execLoop_keeps _ _ _
  | .drain .. => execDrain_keeps _ _ _ _
  | .yield .. => execYield_keeps _ _ _
  | .exit .. => execExit_keeps _ _
  | .shapeSet .. => execShapeSet_keeps _ _
  | .shapeInv .. => execShapeInv_keeps _ _
  | .yieldDone .. => execYieldDone_keeps _ _
  | .regionSet .. => execRegionSet_keeps _ _
  | .regionRel .. => execRegionRel_keeps _ _
  | .regionStat .. => execRegionStat_keeps _ _
  | .vntSet .. => execVntSet_keeps _ _
  | .vntRel .. => execVntRel_keeps _ _
  | .vntInv .. => execVntInv_keeps _ _
  | .svcUnassigned .. => execSvcUnassigned_keeps _ _ _
  | .trap .. => execTrap_keeps _ _
  | .brk .. => execBrk_keeps _ _
  | .tiqAccept .. => s.atTeam_keeps _ (fun _ => s.keeps_acceptHead _)
  | .microOperationIssue .. => s.atTeam_keeps _ (fun _ => s.keeps_issueHead _ _)
  | .tileInstructionCompletion .. => s.atTeam_keeps _ (fun _ => s.keeps_leaveHead _)
  | .copyCompletion .. => execCopyCompletion_keeps _ _
  | .send .. => execSend_keeps _ _ _ _ _ _
  | .messageDelivery .. => execMessageDelivery_keeps _ _
  | .recv .. => execRecv_keeps _ _ _ _ _
  | .probe .. => execProbe_keeps _ _ _ _ _ _
  | .bar .. => execBar_keeps _ _
  | .barrierCompletion .. => execBarrierCompletion_keeps _ _
  | .claim .. => execClaim_keeps _ _ _ _ _
  | .fork .. => execFork_keeps _ _ _ _
  | .join .. => execJoin_keeps _ _
  | .spawn .. => execSpawn_keeps _ _ _ _
  | .take .. => execTake_keeps _ _ _
  | .launch .. => execLaunch_keeps _ _ _ _
  | .syncWait .. => execSyncWait_keeps _ _ _ _ _ _
  | .mirror .. => execMirror_keeps _ _
  | .upds .. => execUpds_keeps _ _ _ _ _
  | .handOff .. => execHandOff_keeps _ _
  | .backgroundRacking .. => .next (s.keeps_rackKeysOf ..)
  | .rack .. => execRack_keeps _ _ _ _
  | .rackr .. => execRackr_keeps _ _ _ _
  | .vntc .. => execVntc_keeps _ _ _ _
  | .fsend .. => execFsend_keeps _ _ _ _ _ _ _
  | .frecv .. => execFrecv_keeps _ _ _ _ _
  | .exchangeClose .. => execExchangeClose_keeps _ _
  | .fbar .. => execFbar_keeps _ _
  | .fabricBarrierCompletion .. => execFabricBarrierCompletion_keeps _ _
  | .phase .. => execPhase_keeps _ _
  | .cfence .. => execCfence_keeps _ _ _
  | .amo .. => execAmo_keeps _ _ _ _ _ _ _
  | .cas .. => execCas_keeps _ _ _ _ _ _
  | .eret .. => execEret_keeps _ _ _
  | .ctxs .. => execCtxs_keeps _ _ _ _
  | .ctxl .. => execCtxl_keeps _ _ _ _
  | .fault .. => s.atTeam_keeps _ (fun _ => s.keeps_takeHeld _)
  | .faultRecordPost .. => execFaultRecordPost_keeps _ _ _
  | .faultCompletion .. => execFaultCompletion_keeps _ _ _ _
  | .walkTimeout .. => execWalkTimeout_keeps _ _
  | .preemptionRequest .. => s.atTeam_keeps _ (fun _ => .ite (.refl s) (s.keeps_putTeam _))
  | .forcedSave .. => s.atTeam_keeps _ (fun _ => .ite (s.keeps_forceSave _) (.refl s))
  | .resumption .. => execResumption_keeps _ _ _
  | .queuePop .. => execQueuePop_keeps _ _ _
  | .groupPlacement .. => execGroupPlacement_keeps _ _ _ _
  | .instancePlacement .. => execInstancePlacement_keeps _ _ _
  | .steal .. => execSteal_keeps _ _ _
  | .launchCompletion .. => execLaunchCompletion_keeps _ _
  | .gangSliceStart .. => execGangSliceStart_keeps _ _
  | .ready .. => execReady_keeps _ _ _ _
  | .start .. => execStart_keeps _ _ _
  | .abort .. => execAbort_keeps _ _ _
  | .ctxCreate .. => execCtxCreate_keeps _ _
  | .ctxEnd .. => execCtxEnd_keeps _ _
  | .queueOpen .. => execQueueOpen_keeps _ _
  | .queueReset .. => execQueueReset_keeps _ _
  | .cancel .. => execCancel_keeps _ _
  | .cancelClr .. => execCancelClr_keeps _ _
  | .tlbInv .. => execTlbInv_keeps _ _
  | .winSet .. => execWinSet_keeps _ _
  | .fwStage .. => execFwStage_keeps _ _
  | .fwActivate .. => execFwActivate_keeps _ _
  | .hostSvc .. => execHostSvc_keeps _ _
  | .hostRead .. => execHostRead_keeps _ _ _
  | .hostWrite .. => execHostWrite_keeps _ _ _
  | .boot .. => execBoot_keeps _ _
  | .trialTimeout .. => execTrialTimeout_keeps _ _
  | .watchdog .. => .next (s.keeps_endAll ..)
  | .retirement .. => execRetirement_keeps _ _ _
  | .routeFixupPass .. => execRouteFixupPass_keeps _ _ _
  | .portDown .. => .next (s.keeps_dropLink ..)
  | .portRetire .. => execPortRetire_keeps _ _ _
  | .portTraining .. => execPortTraining_keeps _ _ _ _ _ _ _
  | .flitReplay .. => .next (.refl s)
  | .d2dLinkFailure .. => .next ((s.keeps_failCtxs ..).trans (State.keeps_modPkg ..))
  | .uncorrectableError .. => execUncorrectableError_keeps _ _ _
  | .unitFailure .. => execUnitFailure_keeps _ _ _
  | .wake .. => execWake_keeps _ _
  | .copyRow .. => s.atTeam_keeps _ (fun _ => s.keeps_stepCopy _)
  | .unknownCommandCode .. => execUnknownCommandCode_keeps _ _

end Sys2Proof.Machine
end

/-!
O59: a turn, a word and so a step keep the invariant (R208, R209; log 10).
-/

section
namespace Sys2Proof.Machine

/-! ### A turn -/

theorem State.keeps_tick (s : State) : s.Keeps s.tick := .of_eq rfl rfl (Nat.le_refl _)

/-- The turn of a team changes nothing but the agenda. -/
theorem State.keeps_turn (s : State) : s.Keeps s.turn.2 := by
  unfold State.turn
  split
  · exact s.keeps_setAgenda _
  · split
    · exact .refl s
    · exact .refl s

theorem State.keeps_beginTurn (s : State) (uid : Nat) (ahead : Bool) :
    s.Keeps (({ s with cur := uid, ahead } : State).settle uid) :=
  State.Keeps.trans (b := { s with cur := uid, ahead }) (.of_eq rfl rfl (Nat.le_refl _)) (State.keeps_settle ..)

theorem State.keeps_setAhead (s : State) (b : Bool) : s.Keeps { s with ahead := b } := .of_eq rfl rfl (Nat.le_refl _)

theorem State.keeps_endPair (s : State) (uid : Nat) : s.Keeps (s.endPair uid) :=
  (s.keeps_modTeam ..).trans (State.keeps_settle ..)

/-- A pair word is two instructions with the team's record changed between them. -/
theorem State.runPair_keeps (s : State) (uid : Nat) (a i : Instr) : s.StepKeeps (s.runPair uid a i) := by
  unfold State.runPair
  split
  · exact .next (.refl s)
  · next t _ =>
    split
    · exact .next (.refl s)
    · split
      · next s₁ hs₁ =>
        have scalar : s.Keeps s₁ := (s.keeps_putTeam _).trans (exec_keeps a _ s₁ hs₁)
        split
        · exact .next scalar
        · split
          · exact .next (scalar.trans (State.keeps_putTeam ..))
          · split
            · next s₂ hs₂ =>
              have tile : s₁.Keeps s₂ := (State.keeps_putTeam ..).trans (exec_keeps i _ s₂ hs₂)
              exact .next (scalar.trans (tile.trans (State.keeps_endPair ..)))
            · next hx => exact fun s' hs' => (hx s' hs').elim
      · next hx => exact fun s' hs' => (hx s' hs').elim

theorem State.runBundle_keeps (s : State) (uid : Nat) (b : Bundle) : s.StepKeeps (s.runBundle uid b) := by
  unfold State.runBundle
  split
  · exact .next (.refl s)
  · refine .ite (.next (s.keeps_frontFault ..)) (.ite (.next (.refl s)) (.ite (.next (s.keeps_advance ..)) ?_))
    split
    · exact exec_keeps _ s
    · exact s.runPair_keeps uid _ _

theorem State.runWord_keeps (s : State) (t : Team) : s.StepKeeps (s.runWord t) := by
  unfold State.runWord
  refine .ite (.next (s.keeps_takeHeld _)) ?_
  split
  · exact .next ((s.keeps_putTeam _).trans (State.keeps_frontFault ..))
  · exact .next (s.keeps_putTeam _)
  · exact .next (.refl s)
  · next w l s₁ hf =>
    have fetched : s.Keeps s₁ := s.keeps_fetchWord t _ hf
    have latched := fetched.trans (s₁.keeps_modTeam t.uid (fun t => { t with word := w }))
    refine .trans latched ?_
    simp only
    split
    · exact .next (State.keeps_slotFault ..)
    · exact State.runBundle_keeps _ t.uid _

theorem State.runTeam_keeps (s : State) (uid : Nat) (ahead : Bool) : s.StepKeeps (s.runTeam uid ahead) := by
  unfold State.runTeam
  split
  · exact .next (.refl s)
  · refine .ite (.next (.refl s)) (.trans (s.keeps_beginTurn uid ahead) ?_)
    refine .ite (.trans (State.keeps_tileProgress _ uid) ?_) ?_
    · generalize State.tileProgress _ uid = s₁
      simp only
      split
      · exact .ite (.trans (s₁.keeps_setAhead true) (State.runWord_keeps _ _)) (.next (.refl s₁))
      · exact .next (.refl _)
    · split
      · exact State.runWord_keeps _ _
      · exact .next (.refl _)

/-! ### A step -/

theorem step_keeps (s : State) : s.StepKeeps (step s) := by
  have turn : s.Keeps s.tick.turn.2 := s.keeps_tick.trans (State.keeps_turn _)
  unfold step
  split
  · next uid s₁ heq =>
    rw [heq] at turn
    exact .trans turn (s₁.runTeam_keeps uid false)
  · next uid s₁ heq =>
    rw [heq] at turn
    exact .trans turn (s₁.runTeam_keeps uid true)
  · next i s₁ heq =>
    rw [heq] at turn
    exact .trans turn (.ite (exec_keeps i s₁) (.next (.refl s₁)))
  · next s₁ heq =>
    rw [heq] at turn
    exact .next turn

/-- Settles O59: a step is a chain of operations of the state, each of which keeps the invariant and raises no name that a
write already has. -/
theorem stepKeepsInv : Obligations.StepKeepsInv := by
  unfold Obligations.StepKeepsInv
  intro s s' hinv hstep
  have ⟨keeps, _⟩ := step_keeps s s' hstep
  exact keeps hinv

end Sys2Proof.Machine
end

/-!
O48: barriers and the close of exchanges (R249, R359, R371, R372).
-/

section
namespace Sys2Proof.Machine

section
variable {s s1 : State} {t v : Team} {fabric : Bool} {n : BitVec 3} {k pub : Nat} {prec : List Nat}

/-- The publications that complete the `n`-th level's barrier for a team, latched or of the members as they stand (R249). -/
def State.barDone (s : State) (t : Team) (fabric : Bool) (n : Nat) : Option (List Nat) :=
  t.latched <|> s.barReady t fabric n (t.barCount fabric (Fin.ofNat 8 n))

/-- R249, R372: what becomes of the team `t` when the barrier that it waits in completes. -/
def State.pastBar (s : State) (t : Team) (n pub : Nat) (prec : List Nat) : State :=
  ((s.complete t.uid (levScope (recLevel (s.recordOf t) n)) pub prec).modTeam t.uid (fun u =>
    { u with latched := none })).advance t.uid 8

theorem State.barFinish_eq (ht : s.team? t.uid = some t) (hw : t.wait = .arrived fabric k pub) :
    s.barFinish t.uid fabric = (s.barDone t fabric k).map (s.pastBar t k pub) := by
  simp only [State.barFinish, ht, hw, beq_self_eq_true, if_true, State.barDone]
  split <;> next h => rw [h]; rfl

/-- A team that waits in a barrier goes on once it is complete. -/
theorem State.barRun_arrived (ht : s.team? t.uid = some t) (hw : t.wait = .arrived fabric n.toNat pub)
    (hd : s.barDone t fabric n.toNat = some prec) : s.barRun t fabric n = .done (s.pastBar t n.toNat pub prec) := by
  simp only [State.barRun, hw, State.barFinish_eq ht hw, hd, Option.map_some]

/-- A team that arrives waits at that level. -/
theorem State.wait_of_barArrive (h : s.barArrive t fabric n = some s1) (hv : s1.team? t.uid = some v) :
    ∃ pub, v.wait = .arrived fabric n.toNat pub := by
  simp only [State.barArrive] at h
  split at h
  · cases h
    have hin := List.mem_of_find?_eq_some hv
    obtain ⟨u, -, rfl⟩ := List.mem_map.mp hin
    have hu := State.team?_uid hv
    split at hu
    next hname => exact ⟨_, by rw [if_pos hname]⟩
    next hname => exact absurd (beq_iff_eq.mpr hu) hname
  · exact nomatch h

/-- A team that arrives before the last member stays in the barrier. -/
theorem State.barRun_arrives (hw : t.wait = .none) (ha : s.barArrive t fabric n = some s1) (hv : s1.team? t.uid = some v)
    (hd : s1.barDone v fabric n.toNat = none) : s.barRun t fabric n = .stall s1 := by
  obtain ⟨pub, hvw⟩ := State.wait_of_barArrive ha hv
  have hname : v.uid = t.uid := State.team?_uid hv
  have hfin : s1.barFinish t.uid fabric = none := by
    rw [← hname, State.barFinish_eq (hname ▸ hv) hvw, hd]
    rfl
  simp only [State.barRun, hw, ha, hfin]

theorem State.Issues.team {i : Instr} (h : s.Issues t i) : s.team? t.uid = some t := by
  obtain ⟨hcur, -, hu⟩ := State.issuing_team h.1
  exact hu ▸ hcur

theorem exec_bar (n : BitVec 3) (s : State) : exec (.bar n) s = execBar n s := rfl
theorem exec_fbar (n : BitVec 3) (s : State) : exec (.fbar n) s = execFbar n s := rfl
theorem exec_barrierCompletion (gid : Gid) (s : State) : exec (.barrierCompletion gid) s = execBarrierCompletion gid s := rfl
theorem exec_fabricBarrierCompletion (gid : Gid) (s : State) :
    exec (.fabricBarrierCompletion gid) s = execFabricBarrierCompletion gid s := rfl
theorem exec_exchangeClose (gid : Gid) (s : State) : exec (.exchangeClose gid) s = execExchangeClose gid s := rfl

theorem State.atTeam_of (ht : s.teamOf t.gid = some t) (f : Team → State) : s.atTeam t.gid f = .next (f t) := by
  simp only [State.atTeam, ht]

/-- R359, R371: an exchange closes once every member has joined, on packages that routes join. -/
theorem State.closes_iff (e : Exchange) (m : Nat) : s.closes e m = true ↔ e.closed = true ∨ (m ≤ e.joins.length ∧
    ∀ p ∈ e.pkgs, ∀ q ∈ e.pkgs, s.routed p q = true) := by
  simp only [State.closes, State.allRouted, Bool.or_eq_true, Bool.and_eq_true, decide_eq_true_eq, List.all_eq_true]

end

/-- Settles O48: a barrier that is complete by `State.barRun_arrived`, one that is not by `State.barRun_arrives`. -/
theorem barrierResults : Obligations.BarrierResults := by
  unfold Obligations.BarrierResults
  intro s t n pub prec
  refine ⟨fun h hlev hw hd => ?bar, fun h hlev hw hd => ?fbar, fun h hr hw hd => ?completion,
    fun h hr hw hd => ?fabricCompletion, fun s1 v h hlev hw ha hv hd => ?barArrives,
    fun s1 v h hlev hw ha hv hd => ?fbarArrives, fun h hlev => ?refused, fun h => ?close, fun e m => State.closes_iff e m⟩
  case bar =>
    rw [exec_bar]
    exact State.front_done h ((if_pos hlev).trans (State.barRun_arrived h.team hw hd))
  case fbar =>
    rw [exec_fbar]
    exact State.front_done h ((if_pos hlev).trans (State.barRun_arrived h.team hw hd))
  case completion =>
    obtain ⟨hat, hteam⟩ := h
    have hfin := (State.barFinish_eq hteam hw).trans (congrArg _ (show s.barDone t false n.toNat = some prec from hd))
    rw [exec_barrierCompletion]
    simp only [execBarrierCompletion, hat, hr, if_true, hfin, Option.map_some]
    rfl
  case fabricCompletion =>
    obtain ⟨hat, hteam⟩ := h
    have hfin := (State.barFinish_eq hteam hw).trans (congrArg _ (show s.barDone t true n.toNat = some prec from hd))
    rw [exec_fabricBarrierCompletion, execFabricBarrierCompletion, State.atTeam_of hat, hfin, if_pos hr]
    rfl
  case barArrives =>
    rw [exec_bar]
    exact State.front_stall h ((if_pos hlev).trans (State.barRun_arrives hw ha hv hd))
  case fbarArrives =>
    rw [exec_fbar]
    exact State.front_stall h ((if_pos hlev).trans (State.barRun_arrives hw ha hv hd))
  case refused =>
    rw [exec_bar]
    exact State.front_fail h (if_neg (by simp [hlev]))
  case close =>
    obtain ⟨hat, -⟩ := h
    rw [exec_exchangeClose]
    exact State.atTeam_of hat _

end Sys2Proof.Machine
end

/-!
O51: FORK, JOIN, SPAWN, TAKE and LAUNCH (R251 to R254, R256).
-/

section
namespace Sys2Proof.Machine

section
variable {s : State} {t : Team} {k : GReg} {sd sa sb : SReg}

theorem exec_fork (k : GReg) (sd : SReg) (off : BitVec 32) (s : State) : exec (.fork k sd off) s = execFork k sd off s := rfl
theorem exec_join (sp : SReg) (s : State) : exec (.join sp) s = execJoin sp s := rfl
theorem exec_spawn (k : GReg) (sa : SReg) (off : BitVec 32) (s : State) : exec (.spawn k sa off) s = execSpawn k sa off s := rfl
theorem exec_take (k : GReg) (sd : SReg) (s : State) : exec (.take k sd) s = execTake k sd s := rfl
theorem exec_launch (sd sa sb : SReg) (s : State) : exec (.launch sd sa sb) s = execLaunch sd sa sb s := rfl

/-! ### FORK and JOIN (R251, R252) -/

/-- The team number that FORK would give the child, if it may make one (R251, log 102). -/
def State.forkNo (s : State) (t : Team) : Option (BitVec 3) := if t.part = 3 || t.preq then none else s.freeTeamNo t

theorem State.forkNo_none (h : t.part = 3 ∨ t.preq = true ∨ s.freeTeamNo t = none) : s.forkNo t = none := by
  rw [State.forkNo]
  rcases h with h | h | h <;> simp [h]

theorem State.forkNo_eq (hpart : t.part ≠ 3) (hpreq : t.preq = false) : s.forkNo t = s.freeTeamNo t :=
  if_neg (by simpa [hpreq] using hpart)

/-! ### TAKE (R254) -/

/-- A team's own deque goes before those of its neighbours. -/
theorem State.findTask_own {e : Word × Word × List Nat} {d : List (Word × Word × List Nat)} (h : s.dequeOf t.gid = e :: d) :
    s.findTask t = some (e, s.putDeque t.gid d) := by
  simp only [State.findTask, h]

/-- With nothing in its own deque a team takes the oldest task of the first neighbour of its launch that has one. -/
theorem State.findTask_near {g : Gid} {e : Word × Word × List Nat} (hown : s.dequeOf t.gid = [])
    (hfirst : ((takeOrder (gidCore t.gid).toNat).map (withCore t.gid)).find? (fun g =>
      s.teams.any (fun u => u.launch == t.launch && gidCoreKey u.gid == gidCoreKey g) && !(s.dequeOf g).isEmpty) = some g)
    (hlast : (s.dequeOf g).getLast? = some e) : s.findTask t = some (e, s.putDeque g (s.dequeOf g).dropLast) := by
  simp only [State.findTask, hown, List.find?_filter, Bool.decide_and, Bool.decide_eq_true, hfirst, hlast, Option.map_some]

theorem exec_take_found {s' : State} {e : Word × Word × List Nat} (h : s.Issues t (.take k sd)) (hd : t.deque = true)
    (hf : s.findTask t = some (e, s')) : exec (.take k sd) s = .next (s'.putTeam
      ((({ t with knows := union t.knows e.2.2 }.wrS sd e.2.1).wrG k true).jumpTo e.1)) := by
  rw [exec_take]
  refine State.front_done h ((if_neg (by simp [hd])).trans ?_)
  rw [hf]

/-! ### LAUNCH (R256) -/

/-- The queue that LAUNCH names. -/
def State.queueOf (s : State) (t : Team) (w : Word) : Queue := (s.pkg t.pkg).queues.get (w.truncate 6 : BitVec 6).toFin

/-- The queue that LAUNCH names takes no record: it is no queue of the team's context, or its reset is in progress (R302). -/
def State.noQueue (s : State) (t : Team) (w : Word) : Bool :=
  (63#64).ult w || !(s.queueOf t w).open_ || (s.queueOf t w).ctx != t.ctx || (s.pkg t.pkg).resetting.contains (w.truncate 6)

theorem State.noQueue_iff {w : Word} : s.noQueue t w = true ↔ 63 < w.toNat ∨ (s.queueOf t w).open_ = false ∨
    (s.queueOf t w).ctx ≠ t.ctx ∨ (s.pkg t.pkg).resetting.contains (w.truncate 6) = true := by
  simp only [State.noQueue, Bool.or_eq_true, Bool.not_eq_true', bne_iff_ne, BitVec.ult, decide_eq_true_eq, or_assoc]
  rfl

theorem State.not_noQueue {w : Word} (hle : w.toNat ≤ 63) (hopen : (s.queueOf t w).open_ = true)
    (hctx : (s.queueOf t w).ctx = t.ctx) (hreset : (s.pkg t.pkg).resetting.contains (w.truncate 6) = false) :
    ¬s.noQueue t w = true := by
  rw [State.noQueue_iff, hopen, hctx, hreset]
  simpa using hle

/-- What LAUNCH does with the record that stands at `ks`, on a queue that takes records. -/
def State.launchWith (s : State) (t : Team) (sd sb : SReg) (ks : Option (List Nat)) : Run :=
  match ks with
  | none => s.launchDone t.uid sd 3
  | some ks =>
    let q := s.queueOf t (t.rs sb)
    let z := (s.loadBytes t ks).2.rackKeys (q.tailKeys t.pkg)
    let r := recordOfBytes (s.loadBytes t ks).1
    if !recordOk r then z.launchDone t.uid sd 4
    else if 2 ^ q.k ≤ z.ringCount t.pkg q + q.appended.length then z.launchDone t.uid sd 1
    else (z.appendRecord t.pkg ((t.rs sb).truncate 6) r t.lastPub).launchDone t.uid sd 0

/-- LAUNCH to a queue that takes records finds the record's keys first. -/
theorem exec_launch_keys {x : Option (List Nat)} {z : State} (h : s.Issues t (.launch sd sa sb))
    (hq : ¬s.noQueue t (t.rs sb) = true) (hk : s.recordKeys t (t.rs sa) = .ok x) (hz : s.launchWith t sd sb x = .done z) :
    exec (.launch sd sa sb) s = .next z := by
  rw [exec_launch]
  exact State.front_done h ((if_neg hq).trans ((chkRun_of_ok hk _).trans hz))

end

/-- Settles O51: each by its own tests in their order; TAKE by what `State.findTask` finds, LAUNCH by `exec_launch_keys`. -/
theorem teamsAndTasks : Obligations.TeamsAndTasks := by
  unfold Obligations.TeamsAndTasks
  intro s t k sd sa sb sp off n c kid ks
  refine ⟨fun h hd hn => ?forkRefused, fun h hd hpart hpreq hno htiq hc hslots => ?fork,
    fun h hk hg hw hc hj htiq => ?joinChild, fun p g h hkids hpar hg hw htiq hc => ?joinParent,
    fun h hd => ?spawn, fun h hd => ⟨fun hn => ?takeNone, fun pc v prec d hown => ?takeOwn,
      fun g pc v prec hown hfirst hlast => ?takeNear⟩, fun h => ⟨fun hq => ?noQueue, fun hle hopen hctx hreset =>
      ⟨fun hk => ?unread, fun hk => ⟨fun hok => ?badRecord, fun hok hfull => ?full, fun hok hroom => ?appended⟩⟩⟩⟩
  case forkRefused =>
    have hno := State.forkNo_none hn
    rw [State.forkNo] at hno
    rw [exec_fork]
    refine State.front_done h ((if_neg (by simp [hd])).trans ?_)
    rw [hno]
  case fork =>
    have hfno := (State.forkNo_eq hpart hpreq).trans hno
    rw [State.forkNo] at hfno
    rw [exec_fork]
    refine State.front_done h ((if_neg (by simp [hd])).trans ?_)
    rw [hfno]
    rw [State.Clears] at hc
    simp only [htiq, hc, List.isEmpty_nil, Bool.not_true, Bool.or_false, Bool.false_eq_true, Nat.not_lt.mpr hslots, if_false]
    rfl
  case joinChild =>
    obtain ⟨rest, hk⟩ := hk
    rw [exec_join]
    refine State.front_done h ?_
    simp only [hk, hg, hw, beq_self_eq_true, if_true, State.joinChild, hc, hj, htiq, and_self]
  case joinParent =>
    rw [State.Clears] at hc
    rw [exec_join]
    refine State.front_done h ?_
    simp only [hkids, hpar, hg, hw, beq_self_eq_true, if_true, State.joinParent, hc, htiq]
    rfl
  case spawn =>
    rw [exec_spawn]
    refine State.front_done h ((if_neg (by simp [hd])).trans ?_)
    split <;> rfl
  case takeNone =>
    rw [exec_take]
    refine State.front_done h ((if_neg (by simp [hd])).trans ?_)
    rw [hn]
  case takeOwn => exact exec_take_found (e := (pc, v, prec)) h hd (State.findTask_own hown)
  case takeNear => exact exec_take_found (e := (pc, v, prec)) h hd (State.findTask_near hown hfirst hlast)
  case noQueue =>
    rw [exec_launch]
    exact State.front_done h (if_pos (State.noQueue_iff.mpr hq))
  case unread => exact exec_launch_keys h (State.not_noQueue hle hopen hctx hreset) hk rfl
  case badRecord => exact exec_launch_keys h (State.not_noQueue hle hopen hctx hreset) hk (if_pos (by simp [hok]))
  case full =>
    exact exec_launch_keys h (State.not_noQueue hle hopen hctx hreset) hk ((if_neg (by simp [hok])).trans (if_pos hfull))
  case appended =>
    exact exec_launch_keys h (State.not_noQueue hle hopen hctx hreset) hk
      ((if_neg (by simp [hok])).trans (if_neg (Nat.not_le.mpr hroom)))

end Sys2Proof.Machine
end

/-!
O47: scalar and fabric messages and their deliveries (R244 to R247, R364 to R366, Table 16.3).
-/

section
namespace Sys2Proof.Machine

/-! ### Receive queues (R244 to R246) -/

/-- The message may be delivered next: it is on its way, and none of its sender's on its way is older (R245). -/
def Msg.isFirst (ms : List Msg) (m : Msg) : Bool :=
  !m.delivered && !ms.any (fun k => !k.delivered && k.src == m.src && decide (k.order < m.order))

theorem Msg.isFirst_iff {ms : List Msg} {m : Msg} : m.isFirst ms = true ↔ m.delivered = false ∧
    ∀ k ∈ ms, k.delivered = false → k.src = m.src → m.order ≤ k.order := by
  simp [Msg.isFirst]

/-- While a message is on its way, one may be delivered: the oldest. -/
theorem exists_isFirst {ms : List Msg} (h : ∃ m ∈ ms, m.delivered = false) : ∃ m ∈ ms, m.isFirst ms = true := by
  obtain ⟨m, ⟨hm, hd⟩, hmin⟩ := (measure Msg.order).wf.has_min {m | m ∈ ms ∧ m.delivered = false} h
  exact ⟨m, hm, Msg.isFirst_iff.mpr ⟨hd, fun k hk hkd _ => Nat.le_of_not_lt (hmin k ⟨hk, hkd⟩)⟩⟩

/-- R245: what a delivery does, whatever is chosen. -/
theorem exists_deliverOne {ms : List Msg} (n : Nat) (h : ∃ m ∈ ms, m.delivered = false) :
    ∃ m ∈ ms, m.isFirst ms = true ∧
      deliverOne n ms = ms.filter (fun k => k.order != m.order) ++ [{ m with delivered := true }] := by
  obtain ⟨a, ha, hfirst⟩ := exists_isFirst h
  have hpos : 0 < (ms.filter (·.isFirst ms)).length := List.length_pos_of_mem (List.mem_filter.mpr ⟨ha, hfirst⟩)
  have hget := List.getElem?_eq_getElem (Nat.mod_lt n hpos)
  obtain ⟨hm, hmfirst⟩ := List.mem_filter.mp (List.getElem_mem (Nat.mod_lt n hpos))
  refine ⟨_, hm, hmfirst, ?_⟩
  simp only [Msg.isFirst] at hget
  simp only [deliverOne, hget]
  rfl

/-- R244, R364: once its bound has come a message is delivered. -/
theorem mem_deliverDue {now : Nat} {ms : List Msg} {m : Msg} (hm : m ∈ ms) (hd : m.delivered = false) (hdue : m.due ≤ now) :
    { m with delivered := true } ∈ deliverDue now ms := by
  refine List.mem_append_right _ (List.mem_map.mpr ⟨m, List.mem_filter.mpr ⟨hm, ?_⟩, rfl⟩)
  have hself : ms.any (fun k =>
      !k.delivered && k.src == m.src && decide (m.order ≤ k.order) && decide (k.due ≤ now)) = true :=
    List.any_eq_true.mpr ⟨m, hm, by simp [hd, hdue]⟩
  simp only [hd, hself, Bool.not_false, Bool.and_self]

/-- R246: a receive takes the oldest delivered message that matches. -/
theorem rqTake_spec {ms ns : List Msg} {tile : Bool} {w : Wild} {src : Gid} {tag : BitVec 16} {m : Msg}
    (h : rqTake ms tile w src tag = some (m, ns)) :
    m.delivered = true ∧ m ∈ ms ∧ ns = ms.filter (fun k => k.order != m.order) ∧
      ∃ older later, ms = older ++ m :: later ∧ ∀ k ∈ older, k.matches tile w src tag = false := by
  obtain ⟨a, hfind, heq⟩ := Option.map_eq_some_iff.mp h
  cases heq
  obtain ⟨hmatch, older, later, hms, holder⟩ := List.find?_eq_some_iff_append.mp hfind
  simp only [Msg.matches, Bool.and_eq_true] at hmatch
  obtain ⟨⟨⟨hdel, -⟩, -⟩, -⟩ := hmatch
  exact ⟨hdel, List.mem_of_find?_eq_some hfind, rfl, older, later, hms, fun k hk => by simpa using holder k hk⟩

/-! ### Sends (R244) -/

section
variable {s : State} {t u : Team}

/-- R207: a boundary whose pairs the Press takes need not wait. -/
theorem State.boundaryAfter_passes {uid : Nat} (h : s.Clears uid) (sc : ScopeCode) (prec : List Nat) :
    s.boundaryAfter uid sc prec = some (s.passes uid sc prec) := by
  rw [State.Clears] at h
  simp only [State.boundaryAfter, h, if_true]
  rfl

/-- R244: a send whose boundary need not wait: the message goes on its way if its target takes it. -/
theorem State.sendMsg_passes (h : s.Clears t.uid) (saved : Bool) (m : Msg) : s.sendMsg t u saved m =
    (let ok := !saved && !u.preq && rqFree u.rq u.part m.tile
     let p := s.passes t.uid 2 []
     let m := { m with order := p.nextId, prec := p.lastOf t.uid, due := p.now + nsCycles 400, delivered := false }
     some (if ok then { p with nextId := p.nextId + 1 }.modTeam u.uid (fun v => { v with rq := v.rq ++ [m] }) else p, ok)) := by
  simp only [State.sendMsg, State.boundaryAfter_passes h]
  cases !saved && !u.preq && rqFree u.rq u.part m.tile <;> rfl

/-- R246, Table 9.3: the source operand of a receive in the cluster. -/
theorem not_refusedSrc {v : Word} (h : v.extractLsb' 11 53 = 0) : ¬(!srcOperandOk v) = true := by
  simp [srcOperandOk, h]

theorem exec_send (k : GReg) (sr sp : SReg) (team : BitVec 3) (tag : BitVec 16) (s : State) :
    exec (.send k sr sp team tag) s = execSend k sr sp team tag s := rfl
theorem exec_recv (w : Wild) (sd sm : SReg) (tag : BitVec 16) (s : State) :
    exec (.recv w sd sm tag) s = execRecv w sd sm tag s := rfl
theorem exec_probe (tile : Bool) (w : Wild) (k : GReg) (sm : SReg) (tag : BitVec 16) (s : State) :
    exec (.probe tile w k sm tag) s = execProbe tile w k sm tag s := rfl
theorem exec_fsend (k : GReg) (sa sl : SReg) (tgt : BitVec 13) (tag : BitVec 16) (route : Word) (s : State) :
    exec (.fsend k sa sl tgt tag route) s = execFsend k sa sl tgt tag route s := rfl
theorem exec_frecv (w : Wild) (sd sm : SReg) (tag : BitVec 16) (s : State) :
    exec (.frecv w sd sm tag) s = execFrecv w sd sm tag s := rfl
theorem exec_messageDelivery (gid : Gid) (s : State) : exec (.messageDelivery gid) s = execMessageDelivery gid s := rfl
theorem exec_fabricMessageDelivery (gid : Gid) (s : State) :
    exec (.fabricMessageDelivery gid) s = execFabricMessageDelivery gid s := rfl

end

/-- Settles O47: the queues by `exists_deliverOne`, `mem_deliverDue` and `rqTake_spec`, SEND by `State.sendMsg_passes`. -/
theorem messages : Obligations.Messages := by
  unfold Obligations.Messages
  intro s s1 t u k sr sp sa sl sd sm team tag w saved tile m q tgt route ks bs p hops
  refine ⟨fun h ht hc => ?send, fun h hsrc hq hc => ?recv, fun h hsrc => ?probe, fun h => ?deliveries,
    fun n ms h => ?deliverOne, fun v hv => ?tick, fun ms ns h => rqTake_spec h,
    fun h hlen hroute hk hread hf ht => ?fsend, fun h hlen => ?tooLong, fun h hsrc hq hk => ?frecv⟩
  case send =>
    rw [exec_send]
    refine State.front_done h ((chkRun_of_ok ht _).trans ?_)
    rw [State.sendMsg_passes hc]
    rfl
  case recv =>
    rw [exec_recv]
    refine State.front_done h ((if_neg (not_refusedSrc hsrc)).trans ?_)
    rw [hq]
    exact State.bound_passes hc 2 m.prec _
  case probe =>
    rw [exec_probe]
    exact State.front_done h (if_neg (not_refusedSrc hsrc))
  case deliveries =>
    obtain ⟨hat, -⟩ := h
    refine ⟨s.pick t.uid (2 ^ 16), ?_, ?_⟩
    · rw [exec_messageDelivery, execMessageDelivery, hat]
    · rw [exec_fabricMessageDelivery]
      exact State.atTeam_of hat _
  case deliverOne =>
    obtain ⟨m, hm, hfirst, hone⟩ := exists_deliverOne n h
    obtain ⟨hd, hold⟩ := Msg.isFirst_iff.mp hfirst
    exact ⟨m, hm, hd, hold, hone⟩
  case tick =>
    exact ⟨v.deliver s.tick.now, List.mem_map.mpr ⟨v, hv, rfl⟩, rfl, fun m => mem_deliverDue, fun m => mem_deliverDue⟩
  case fsend =>
    rw [exec_fsend]
    refine State.front_done h ((if_neg (Nat.not_lt.mpr hlen)).trans ((if_neg (by simp [hroute])).trans
      ((chkRun_of_ok hk _).trans ?_)))
    simp only [hread, hf, ht, chkRun]
  case tooLong =>
    rw [exec_fsend]
    exact State.front_fail h (if_pos hlen)
  case frecv =>
    rw [exec_frecv]
    refine State.front_done h ((if_neg (by simp [hsrc])).trans ?_)
    simp only [hq, hk, chkRun]
    rfl

end Sys2Proof.Machine
end

/-!
Tile-side instructions that publish, send, store or hand pairs to the Press: what each of these operations leaves of the
sequencer's side of the team that runs one.
-/

section
namespace Sys2Proof.Machine

/-! ### What leaves the teams alone -/

theorem State.foldl_teams {α : Type} (f : State → α → State) (hf : ∀ (s : State) (a : α), (f s a).teams = s.teams)
    (l : List α) (s : State) : (l.foldl f s).teams = s.teams :=
  List.foldlRecOn (motive := fun z : State => z.teams = s.teams) l f rfl (fun z hz a _ => (hf z a).trans hz)

theorem State.rackKeysOf_teams (s : State) (p : PkgNo) (f : PressKey → Bool) : (s.rackKeysOf p f).teams = s.teams :=
  State.foldl_teams _ (fun s _ => s.rackWord_teams ..) _ s

theorem State.freeRuns_teams (p : PkgNo) (ctx : CtxId) (stack lim : Nat) (ns : List Nat) (s : State) :
    (State.freeRuns p ctx stack lim ns s).teams = s.teams := by
  induction ns generalizing s with
  | nil => rfl
  | cons n ns ih =>
    unfold State.freeRuns
    split
    · rfl
    · exact (ih _).trans (s.rackKeysOf_teams ..)

theorem State.caskRoom_teams {s s' : State} {p : PkgNo} {c : Ctx} {stack cask : Nat}
    (h : s.caskRoom p c stack cask = some s') : s'.teams = s.teams := by
  simp only [State.caskRoom] at h
  have freed := State.freeRuns_teams p c.id stack c.leesRuns (sortNats ((s.pkg p).runsOf c.id stack)) s
  split at h
  · cases h
    rfl
  · split at h
    · cases h
      exact freed
    · split at h
      · cases h
        exact (State.rackKeysOf_teams ..).trans freed
      · cases h

/-- R320: a pair that reaches the Press leaves the teams alone. -/
theorem State.pressTake_teams {s s' : State} {p : PkgNo} {ctx : CtxId} {uid : Nat} {u : Pair}
    (h : s.pressTake p ctx uid u = some s') : s'.teams = s.teams := by
  simp only [State.pressTake] at h
  split at h
  · cases h
    rfl
  · split at h
    · cases h
      rfl
    · split at h
      · cases h
        rfl
      · split at h
        · cases h
        · next hroom =>
          cases h
          have hteams := State.caskRoom_teams hroom
          exact hteams

theorem readSites_teams (uid : Nat) (xs : List Site) (s : State) : (readSites uid xs s).2.teams = s.teams := by
  induction xs generalizing s with
  | nil => rfl
  | cons x xs ih =>
    rw [readSites]
    split
    · rfl
    next t _ => exact (ih _).trans (State.load_teams s t .team _)

/-! ### What leaves the sequencer's side of the team alone -/

section
variable {x : TIn} {s : State}

theorem TIn.Leaves.same {u : Team} (h : x.Leaves s) (hu : s.team? x.t.uid = some u) : x.t.SameTileSide u := by
  obtain ⟨v, ⟨hv, -⟩, hsame⟩ := h
  exact Option.some.inj (hv.symm.trans hu) ▸ hsame

/-- A change of another team. -/
theorem State.Only.modTeam_ne {uid n : Nat} {u : Team} {f : Team → Team} (h : s.Only uid u) (hn : n ≠ uid)
    (hf : ∀ v : Team, (f v).uid = v.uid) : (s.modTeam n f).Only uid u := by
  obtain ⟨hu, honly⟩ := h
  have hname : ∀ v : Team, (if v.uid == n then f v else v).uid = v.uid := fun v => by split <;> simp [hf]
  have hkeep : ∀ v : Team, v.uid = uid → (if v.uid == n then f v else v) = v := fun v hv =>
    if_neg (by simpa [hv] using Ne.symm hn)
  refine ⟨?_, fun v hv hvu => ?_⟩
  · have hsame : ((fun v : Team => v.uid == uid) ∘ fun v => if v.uid == n then f v else v) = fun v => v.uid == uid :=
      funext (fun v => congrArg (· == uid) (hname v))
    rw [State.team?, State.modTeam, List.find?_map, hsame, ← State.team?, hu, Option.map_some, hkeep u (State.team?_uid hu)]
  · obtain ⟨w, hw, rfl⟩ := List.mem_map.mp hv
    have hwu : w.uid = uid := (hname w).symm.trans hvu
    rw [hkeep w hwu]
    exact honly w hw hwu

/-- A change of any team that the sequencer does not see. -/
theorem TIn.Leaves.modAny (h : x.Leaves s) (uid : Nat) {f : Team → Team} (hf : ∀ v : Team, v.SameTileSide (f v)) :
    x.Leaves (s.modTeam uid f) := by
  by_cases hname : uid = x.t.uid
  · rw [hname]
    exact h.modTeam hf
  · obtain ⟨u, hu, hsame⟩ := h
    exact ⟨u, hu.modTeam_ne hname (fun v => (hf v).uid), hsame⟩

theorem Team.sameTileSide_setView (t : Team) (p : Path) (v : List Nat) : t.SameTileSide (t.setView p v) :=
  ⟨rfl, rfl, rfl, rfl, rfl, rfl, rfl⟩

theorem TIn.Leaves.store (h : x.Leaves s) (p : Path) (cells : List Host.Cell) : x.Leaves (s.store x.t.uid p cells) := by
  unfold State.store
  split
  · exact h
  · exact (h.of_teams rfl).modTeam (fun v => v.sameTileSide_setView ..)

theorem TIn.Leaves.acquire (h : x.Leaves s) (sc : ScopeCode) (early : Bool) (began : Nat) (prec : List Nat) :
    x.Leaves (s.acquire x.t.uid sc early began prec) := by
  unfold State.acquire
  split
  · exact h
  next t ht => exact h.putTeam ((h.same ht).trans ⟨rfl, rfl, rfl, rfl, rfl, rfl, rfl⟩)

theorem TIn.Leaves.publish (h : x.Leaves s) (sc : ScopeCode) (final paths : Bool) :
    x.Leaves (s.publish x.t.uid sc final paths).1 := by
  simp only [State.publish]
  split
  · exact h
  next t ht =>
    refine TIn.Leaves.of_teams (s := (((s.putTeam _).enter _).performUpdates x.t.uid t.pkg sc final).acquire x.t.uid sc true _ [])
      (.acquire ?_ ..) rfl
    exact (h.putTeam ((h.same ht).trans (t.sameTileSide_setView ..))).of_teams rfl

theorem TIn.Leaves.complete (h : x.Leaves s) (sc : ScopeCode) (pub : Nat) (prec : List Nat) :
    x.Leaves (s.complete x.t.uid sc pub prec) :=
  ((h.acquire sc _ _ prec).of_teams rfl).modTeam (fun _ => ⟨rfl, rfl, rfl, rfl, rfl, rfl, rfl⟩)

theorem TIn.Leaves.handOffN (n : Nat) {s : State} (h : x.Leaves s) : x.Leaves (State.handOffN x.t.uid n s) := by
  induction n generalizing s with
  | zero => exact h
  | succ n ih =>
    unfold State.handOffN
    split
    · exact h
    · split
      · exact h
      · split
        · exact h
        · next htake =>
          exact ih ((h.of_teams (State.pressTake_teams htake)).modTeam (fun _ => ⟨rfl, rfl, rfl, rfl, rfl, rfl, rfl⟩))

theorem TIn.Leaves.handOffAll (h : x.Leaves s) : x.Leaves (s.handOffAll x.t.uid) := by
  unfold State.handOffAll
  split
  · exact h.handOffN _
  · exact h

/-- R207: a boundary leaves the sequencer's side of its team alone. -/
theorem TIn.Leaves.passes (h : x.Leaves s) (sc : ScopeCode) (prec : List Nat) : x.Leaves (s.passes x.t.uid sc prec) :=
  (h.handOffAll.publish sc false false).complete sc _ prec

theorem TIn.Leaves.cfence (h : x.Leaves s) (src dst : Path) : x.Leaves (s.cfence x.t.uid src dst) := by
  simp only [State.cfence]
  split
  · exact h
  next t ht =>
    split
    · exact h.of_teams rfl
    · exact (h.of_teams rfl).putTeam ((h.same ht).trans ⟨rfl, rfl, rfl, rfl, rfl, rfl, rfl⟩)

theorem TIn.Leaves.tritRead (h : x.Leaves s) (et : BitVec 5) (xs : List Nat) : x.Leaves (s.tritRead x.t.uid et xs) := by
  unfold State.tritRead
  split
  · exact h.modTeam (fun v => v.sameTileSide_applyEnv _)
  · exact h

theorem TIn.Leaves.foldl {α : Type} {f : State → α → State} (hf : ∀ (s : State) (a : α), x.Leaves s → x.Leaves (f s a))
    (l : List α) (h : x.Leaves s) : x.Leaves (l.foldl f s) :=
  List.foldlRecOn (motive := x.Leaves) l f h (fun z hz a _ => hf z a hz)

theorem TIn.Leaves.writeOut (xs : List Site) (bs : List Byte) {s : State} (h : x.Leaves s) :
    x.Leaves (writeOut x.t.uid xs bs s) := by
  induction xs generalizing bs s with
  | nil => exact h
  | cons y ys ih => exact ih _ (h.store ..)

theorem TIn.Leaves.writeRow (ebytes n : Nat) (cs : List Host.Cell) {s : State} (h : x.Leaves s) :
    x.Leaves (writeRow x.t.uid ebytes n cs s) := by
  induction n generalizing cs s with
  | zero => exact h
  | succ n ih =>
    unfold Machine.writeRow
    split
    · exact h
    · exact ih _ (h.store ..)

end

end Sys2Proof.Machine
end

/-!
O46: SENDT, RECVT, UPD, VNTQ, VNTW, FGTH and ALLX (R244, R246, R316, R338, R339, R367, R370).
-/

section
namespace Sys2Proof.Machine

/-! ### What a tile-side instruction finds of its team -/

/-- `x` is what a tile-side instruction of the team `t` works on when its run begins: the team's name and place, and the
scalars that stood there. -/
structure TIn.Of (x : TIn) (t : Team) : Prop where
  uid : x.t.uid = t.uid
  gid : x.t.gid = t.gid
  ctx : x.t.ctx = t.ctx
  rs : ∀ r, x.c.rs r = t.rs r
  begun : x.begun = false
  step : x.step = false

section
variable {s : State} {t : Team} {i : Instr} {P : TIn → Prop} {E : TIn → State}

theorem State.Takes.of_atRun (h : s.Takes t i) : (s.atRun t i).Of t := ⟨rfl, rfl, rfl, h.atRun_rs, rfl, rfl⟩

/-- An instruction whose run computes `E` has that effect, once taken. -/
theorem State.tileOne_of (hi : i.isTileSide = true) (hc : isCopy i = false)
    (hrun : ∀ x : TIn, x.Of t → P x → tileRun i t.wordSeq x = .done (E x))
    (hl : ∀ x : TIn, x.Of t → P x → x.Leaves x.s → x.Leaves (E x)) : s.TileOne t i P E :=
  fun h hP => State.exec_takes h hi hc (hrun _ h.of_atRun hP) (hl _ h.of_atRun hP h.leaves_atRun)

/-- An instruction that runs over its extent has the effect `E` where its run over a non-empty one computes `E`. -/
theorem State.tileDone_of {srcs : List TReg} {f : TIn → Run} (hi : i.isTileSide = true) (hc : isCopy i = false)
    (hrun : ∀ x, tileRun i t.wordSeq x = x.live srcs f) (hf : ∀ x : TIn, x.Of t → P x → f x = .done (E x))
    (hl : ∀ x : TIn, x.Of t → P x → x.Leaves x.s → x.Leaves (E x)) : s.TileDone t i srcs P E := by
  refine fun h => ⟨fun hempty => ?_, fun hlive hready hP => ?_⟩
  · exact State.exec_takes h hi hc ((hrun _).trans (TIn.live_empty hempty)) h.leaves_atRun
  · exact State.exec_takes h hi hc ((hrun _).trans (TIn.live_done hlive hready (hf _ h.of_atRun hP)))
      ((hl _ h.of_atRun hP h.leaves_atRun).consume _ _)

end

section
variable {x : TIn} {s : State}

theorem Team.sameTileSide_putG (t : Team) (k : GReg) (b : Bool) : t.SameTileSide (t.putG k b) :=
  ⟨rfl, rfl, rfl, rfl, rfl, rfl, rfl⟩

theorem Team.sameTileSide_rq (t : Team) (q : List Msg) : t.SameTileSide { t with rq := q } :=
  ⟨rfl, rfl, rfl, rfl, rfl, rfl, rfl⟩

/-- R316: pairs that a team emits are the Press's business. -/
theorem Team.sameTileSide_emit (t : Team) (updf : Word) (rh : BitVec 10) (ps : List (Nat × Word)) :
    t.SameTileSide (({ t with updf := updf } : Team).emit rh ps) := ⟨rfl, rfl, rfl, rfl, rfl, rfl, rfl⟩

/-- R367: a load on a path changes, beside what its reads do, the tile and the flags. -/
theorem TIn.Leaves.loadEls {u : Team} (h : x.Leaves s) (hu : s.team? x.t.uid = some u) (path : Path) (td : TReg)
    (es : List ElSite) : x.Leaves (loadEls { x with s, t := u } path td es) := by
  have hsame := h.same hu
  simp only [Machine.loadEls]
  have hput := fun y e => hsame.trans ((u.sameTileSide_putTile td y).trans (Team.sameTileSide_applyEnv _ e))
  split
  · exact (h.of_teams (readSegs_teams ..)).putTeam (hput _ _)
  · exact (h.of_teams (readEls_teams ..)).putTeam (hput _ _)

theorem TIn.Leaves.readSites {uid : Nat} {ys : List Site} {cs : List Nat} {s' : State} (h : x.Leaves s)
    (hread : readSites uid ys s = (cs, s')) : x.Leaves s' := by
  have hteams := readSites_teams uid ys s
  rw [hread] at hteams
  exact h.of_teams hteams

/-- R370: what a member of an exchange writes at its end. -/
theorem TIn.Leaves.allxFinish (h : x.Leaves s) (n : BitVec 3) (td : TReg) (sr : SReg) (js : List Join) (me : Join) :
    x.Leaves (allxFinish { x with s } n td sr js me) := by
  refine TIn.Leaves.modTeam ?_ (fun _ => ⟨rfl, rfl, rfl, rfl, rfl, rfl, rfl⟩)
  refine TIn.Leaves.cfence (TIn.Leaves.foldl (fun _ _ hz => hz.store ..) _ ?_) ..
  exact TIn.Leaves.foldl (fun _ _ hz => hz.writeRow ..) _ (h.tritRead ..)

/-! ### The runs -/

/-- R244: SENDT, its target found and its boundary free to complete. -/
theorem runSendt_done {k : GReg} {ta : Src} {sr : SReg} {team : BitVec 3} {tag : BitVec 16} {u : Team} {saved : Bool}
    (hready : x.c.live = true → x.t.streamsReady x.c.er [ta.t] = true)
    (ht : x.s.sendTarget x.t (x.c.rs sr) team = .ok (u, saved)) (hc : x.s.Clears x.t.uid) :
    runSendt x k ta sr team tag = .done (
      let ok := !saved && !u.preq && rqFree u.rq u.part true
      let p := x.s.passes x.t.uid 2 []
      let m := { tileMsg (srcOf x.t.gid) tag (x.rd ta.t).fixed x.c.er x.c.ec with
        order := p.nextId, prec := p.lastOf x.t.uid, due := p.now + nsCycles 400, delivered := false }
      ((if ok then { p with nextId := p.nextId + 1 }.modTeam u.uid (fun v => { v with rq := v.rq ++ [m] }) else p).modTeam
        x.t.uid (fun v => (if x.c.live then v.consume x.c.er [ta.t] else v).putG k ok)).tritRead x.t.uid (x.rd ta.t).geo.etype
          ((coords x.c.er x.c.ec).map (fun rc => (x.rd ta.t).el rc.1 rc.2))) := by
  have hgo : (x.c.live && !x.t.streamsReady x.c.er [ta.t]) = false := by
    cases hlive : x.c.live
    · rfl
    · simp [hready hlive]
  simp only [runSendt, hgo, ht, State.sendMsg_passes hc, Bool.false_eq_true, if_false]
  rfl

/-- R246: RECVT of a message that fits the destination. -/
theorem runRecvt_done {w : Wild} {td : TReg} {sm : SReg} {tag : BitVec 16} {m : Msg} {q : List Msg}
    (ht : rqTake x.t.rq true w ((x.c.rs sm).truncate 25) tag = some (m, q)) (hty : m.geo.etype = (x.rd td).geo.etype)
    (hlay : m.geo.layout = (x.rd td).geo.layout) (hfit : (x.rd td).geo.holds m.geo.rows m.geo.cols = true)
    (hc : (x.s.modTeam x.t.uid (fun v => { v with rq := q })).Clears x.t.uid) :
    runRecvt x w td sm tag = .done (((x.s.modTeam x.t.uid (fun v => { v with rq := q })).passes x.t.uid 2 m.prec).modTeam x.t.uid
      (fun v => (v.putTile td (some (m.into (x.rd td)))).push
        (BitVec.ofNat 64 (m.geo.rows * 2 ^ 48 + m.geo.cols * 2 ^ 32 + m.src.toNat * 2 ^ 16 + m.tag.toNat)))) := by
  simp only [runRecvt, ht, hty, hlay, hfit, bne_self_eq_false, Bool.not_true, Bool.or_false, Bool.false_eq_true, if_false,
    State.boundaryAfter_passes hc]

/-- R316, R319: UPD places all its rows at once while the Press takes what it emits. -/
theorem runUpd_done {strict : Bool} {ti tv : Src} {rh : BitVec 10} {c : Ctx} {r : Region} {es : List (Nat × Nat × Bool)}
    (hb : x.begun = false) (hst : x.step = false) (hlive : x.c.live = true) (hc : x.s.teamCtx? x.t = some c)
    (hr : x.region = some r) (hok : allChk (updChks x c r strict ti) = .ok es) (hbefore : x.s.Clears x.t.uid)
    (hafter : (placedRows x ti tv rh es false).Clears x.t.uid) :
    runUpd x strict ti tv rh = .done (placedRows x ti tv rh es false) := by
  rw [State.Clears] at hbefore hafter
  simp only [runUpd, placeRows, State.pressTakes, hlive, hc, hr, hb, hok, hbefore, hafter, hst, Bool.not_true, Bool.or_self,
    Bool.and_false, Bool.false_eq_true, if_false, if_true]

end

/-- Settles O46: the runs by their own lemmas above, and what they leave of the sequencer's side of the team by those of
`TIn.Leaves`. -/
theorem tileSideQueues : Obligations.TileSideQueues := by
  unfold Obligations.TileSideQueues
  intro s s1 s2 t u k ta ti tv sr sm sb st sx sc team tag w td ts rh strict saved h kind n c r tb emitted
  refine ⟨fun ok => ?sendt, fun m q => ?recvt, fun es => ?upd, ?updEmpty, fun xs ys cs => ?vntq, fun xs ys cs os => ?vntw,
    fun es => ?fgth, fun e me => ?allx⟩
  case sendt =>
    refine State.tileOne_of rfl rfl (fun x ho ⟨hready, ht, hc, hok⟩ => ?_) (fun x ho _ hx => ?_)
    · rw [tileRun, runSendt_done hready (by rwa [ho.rs]) (by rwa [ho.uid]), ho.uid, ho.gid, hok]
    · rw [← ho.uid]
      refine TIn.Leaves.tritRead (TIn.Leaves.modTeam ?_ (fun v => ?_)) ..
      · cases ok
        · exact hx.passes 2 []
        · exact ((hx.passes 2 []).of_teams rfl).modAny _ (fun v => v.sameTileSide_rq _)
      · cases x.c.live
        · exact v.sameTileSide_putG ..
        · exact (v.sameTileSide_consume ..).trans (Team.sameTileSide_putG ..)
  case recvt =>
    refine State.tileOne_of rfl rfl (fun x ho ⟨ht, hty, hlay, hfit, hc⟩ => ?_) (fun x ho _ hx => ?_)
    · rw [tileRun, runRecvt_done (by rwa [ho.rs]) hty hlay hfit (by rwa [ho.uid]), ho.uid]
    · rw [← ho.uid]
      refine TIn.Leaves.modTeam (TIn.Leaves.passes ?_ ..)
        (fun v => (v.sameTileSide_putTile td _).trans (Team.sameTileSide_push ..))
      exact hx.modTeam (fun v => v.sameTileSide_rq q)
  case upd =>
    refine State.tileOne_of rfl rfl (fun x ho ⟨hlive, hc, hr, hok, hbefore, hafter⟩ => ?_)
      (fun x ho _ hx => hx.putTeam (x.t.sameTileSide_emit ..))
    rw [← ho.uid] at hbefore hafter
    exact runUpd_done ho.begun ho.step hlive hc hr hok hbefore hafter
  case updEmpty =>
    refine State.tileOne_of rfl rfl (fun x _ hempty => ?_) (fun x _ _ hx => hx)
    simp only [tileRun, runUpd, hempty, Bool.not_false, if_true]
  case vntq =>
    refine State.tileOne_of rfl rfl (fun x ho ⟨htb, hxs, hys, hread⟩ => ?_) (fun x ho ⟨_, _, _, hread⟩ hx => ?_)
    · rw [← ho.uid] at hread
      simp only [tileRun, runVntq, ho.rs, htb, hxs, hys, hread, bind, Except.bind, runChk]
      rw [Team.pkg, Team.pkg, ho.gid, ho.ctx, ho.uid]
    · have hs1 := hx.readSites hread
      rw [← ho.uid]
      refine TIn.Leaves.modTeam ?_ (fun v => v.sameTileSide_putG ..)
      split
      · exact (hs1.of_teams (State.modCtx_teams ..)).writeOut ..
      · exact hs1.of_teams (State.modCtx_teams ..)
  case vntw =>
    refine State.tileOne_of rfl rfl (fun x ho ⟨htb, hxs, hys, hread, hout⟩ => ?_)
      (fun x ho ⟨_, _, _, hread, hout⟩ hx => ?_)
    · rw [← ho.uid] at hread hout
      simp only [tileRun, runVntw, ho.rs, htb, hxs, hys, hread, hout, bind, Except.bind, runChk]
      rw [State.putTable, State.putTable, Team.pkg, Team.pkg, ho.gid, ho.ctx]
    · exact ((hx.readSites hread).readSites hout).of_teams (State.modCtx_teams ..)
  case fgth =>
    refine State.tileDone_of rfl rfl (fun x => by rw [tileRun, runFgth]) (fun x ho ⟨hok, hu⟩ => ?_)
      (fun x ho ⟨_, hu⟩ hx => ?_)
    · rw [← ho.uid] at hu ⊢
      simp only [hok, hu, bind, Except.bind, runChk]
    · rw [← ho.uid] at hu ⊢
      exact (hx.cfence .team .send).loadEls hu ..
  case allx =>
    refine State.tileOne_of rfl rfl (fun x ho ⟨hfind, hcloses, hme⟩ => ?_) (fun x ho _ hx => ?_)
    · rw [← ho.uid] at hfind hme ⊢
      simp only [tileRun, runAllx, hfind, hme, hcloses, if_true]
      rfl
    · rw [← ho.uid]
      exact TIn.Leaves.allxFinish (s := (x.s.putExchange _).endJoin _ _) (hx.of_teams rfl) ..

end Sys2Proof.Machine
end

/-!
O50: sync registers and their mirrors (R282 to R286).
-/

section
namespace Sys2Proof.Machine

/-! ### The names of the teams -/

/-- `s'` holds teams of the same names as `s`, in the same order. -/
def State.SameNames (s s' : State) : Prop := s'.teams.map Team.uid = s.teams.map Team.uid

section
variable {a s z : State} {uid : Nat}

theorem State.SameNames.of_teams (h : s.SameNames z) {z' : State} (ht : z'.teams = z.teams) : s.SameNames z' := by
  rw [State.SameNames, ht]
  exact h

theorem State.SameNames.refl (s : State) : s.SameNames s := Eq.refl (s.teams.map Team.uid)

theorem State.SameNames.trans (h : a.SameNames s) (k : s.SameNames z) : a.SameNames z := Eq.trans k h

/-- A change of every team that leaves each its name. -/
theorem State.SameNames.mapTeams {g : Team → Team} (hg : ∀ v, (g v).uid = v.uid) (ht : z.teams = s.teams.map g) :
    s.SameNames z := by
  rw [State.SameNames, ht, List.map_map]
  exact List.map_congr_left (fun v _ => hg v)

theorem State.sameNames_modTeam (s : State) (uid : Nat) {f : Team → Team} (hf : ∀ v, (f v).uid = v.uid) :
    s.SameNames (s.modTeam uid f) :=
  .mapTeams (fun v => by split <;> simp [hf]) rfl

theorem State.sameNames_putTeam (s : State) (w : Team) : s.SameNames (s.putTeam w) :=
  .mapTeams (g := fun v => if v.uid == w.uid then w else v) (fun v => by split <;> simp_all) rfl

theorem State.SameNames.foldl {α : Type} {f : State → α → State} (hf : ∀ (z : State) (x : α), z.SameNames (f z x))
    (l : List α) (s : State) : s.SameNames (l.foldl f s) :=
  List.foldlRecOn (motive := s.SameNames) l f (.refl s) (fun z hz x _ => hz.trans (hf z x))

/-- A team that stands under a name still stands there. -/
theorem State.SameNames.team? {t : Team} (h : s.SameNames z) (ht : s.team? uid = some t) : ∃ u, z.team? uid = some u := by
  have hmem : uid ∈ s.teams.map Team.uid :=
    List.mem_map.mpr ⟨t, List.mem_of_find?_eq_some ht, State.team?_uid ht⟩
  obtain ⟨v, hv, huid⟩ := List.mem_map.mp ((show z.teams.map Team.uid = _ from h) ▸ hmem)
  exact Option.isSome_iff_exists.mp (List.find?_isSome.mpr ⟨v, hv, beq_iff_eq.mpr huid⟩)

/-! ### What a boundary leaves of the names (R207) -/

theorem State.sameNames_acquire (s : State) (uid : Nat) (sc : ScopeCode) (early : Bool) (began : Nat) (prec : List Nat) :
    s.SameNames (s.acquire uid sc early began prec) := by
  unfold State.acquire
  split
  · exact .refl s
  · exact s.sameNames_putTeam _

theorem State.sameNames_publish (s : State) (uid : Nat) (sc : ScopeCode) (final paths : Bool) :
    s.SameNames (s.publish uid sc final paths).1 := by
  simp only [State.publish]
  split
  · exact .refl s
  next t _ =>
    refine .trans (s := ((s.putTeam _).enter _).performUpdates uid t.pkg sc final) ?_ (State.sameNames_acquire ..)
    exact (s.sameNames_putTeam _).of_teams rfl

theorem State.sameNames_handOffN (uid n : Nat) (s : State) : s.SameNames (State.handOffN uid n s) := by
  induction n generalizing s with
  | zero => exact .refl s
  | succ n ih =>
    unfold State.handOffN
    split
    · exact .refl s
    · split
      · exact .refl s
      · split
        · exact .refl s
        next z htake =>
          have htaken : s.SameNames z := (State.SameNames.refl s).of_teams (State.pressTake_teams htake)
          refine htaken.trans (.trans ?_ (ih _))
          exact z.sameNames_modTeam uid (fun _ => rfl)

theorem State.sameNames_handOffAll (s : State) (uid : Nat) : s.SameNames (s.handOffAll uid) := by
  unfold State.handOffAll
  split
  · exact State.sameNames_handOffN ..
  · exact .refl s

/-! ### What a mirror leaves of the names (R282) -/

theorem Team.seeSync_uid (t : Team) (n : Nat) (r : SyncReg) : (t.seeSync n r).uid = t.uid := by
  unfold Team.seeSync
  split
  · split <;> rfl
  · rfl

theorem State.sameNames_applyMirror (s : State) (p : PkgNo) (n : Nat) (r : SyncReg) : s.SameNames (s.applyMirror p n r) :=
  .mapTeams (fun v => by split <;> simp [Team.seeSync_uid]) rfl

theorem State.sameNames_mirrorDue (s : State) (p : PkgNo) : s.SameNames (s.mirrorDue p) :=
  (State.SameNames.foldl (fun z _ => z.sameNames_applyMirror ..) _ s).of_teams rfl

end

/-! ### TAS, FADD, LD and ST (R284) -/

section
variable {s : State} {t : Team} {sc cc : BitVec 3} {sd sa sb : SReg} {n : Nat}

theorem exec_syncTas (sc : ScopeCode) (sd sa sb : SReg) (s : State) :
    exec (.syncTas sc sd sa sb) s = execSyncTas sc sd sa sb s := rfl
theorem exec_syncFadd (sc : ScopeCode) (sd sa sb : SReg) (s : State) :
    exec (.syncFadd sc sd sa sb) s = execSyncFadd sc sd sa sb s := rfl
theorem exec_syncLd (sc : ScopeCode) (sd sa : SReg) (s : State) : exec (.syncLd sc sd sa) s = execSyncLd sc sd sa s := rfl
theorem exec_syncSt (sc : ScopeCode) (sa sb : SReg) (s : State) : exec (.syncSt sc sa sb) s = execSyncSt sc sa sb s := rfl
theorem exec_syncWait (cc sc : BitVec 3) (sd sa sb : SReg) (s : State) :
    exec (.syncWait cc sc sd sa sb) s = execSyncWait cc sc sd sa sb s := rfl
theorem exec_mirror (p : PkgNo) (s : State) : exec (.mirror p) s = execMirror p s := rfl

/-- The register that a sync operation of a team finds at its home, once its boundary has published. -/
def State.syncFound (s : State) (t : Team) (sc : ScopeCode) (n : Nat) : SyncReg :=
  ((s.handOffAll t.uid).publish t.uid sc false false).1.syncAt t.pkg n

/-- A completed sync operation's write, with what precedes the value. -/
def State.syncPut (c : State) (t : Team) (n : Nat) (prec : List Nat) (v : Word) : State :=
  c.syncWrite t.pkg n ⟨v, union prec (c.lastOf t.uid)⟩

/-- A sync operation whose pairs the Press takes: its boundary passes, after what the register's last writer published,
and `f` says what it writes, if anything. -/
theorem State.syncOp_done (hreg : s.syncReg t (t.rs sa) = .ok n) (hc : s.Clears t.uid) (f : Word → Option Word)
    (k : Team → Word → Team) : s.syncOp t sc sa f k = .done
      (((f (s.syncFound t sc n).val).elim (s.passes t.uid sc (s.syncFound t sc n).prec)
        ((s.passes t.uid sc (s.syncFound t sc n).prec).syncPut t n (s.syncFound t sc n).prec)).modTeam t.uid
          (fun u => (k u (s.syncFound t sc n).val).advance 8)) := by
  rw [State.Clears] at hc
  refine (chkRun_of_ok hreg _).trans ((if_neg (by simp [hc])).trans ?_)
  change Run.done (State.modTeam (match f (s.syncFound t sc n).val with
    | some v => _
    | none => _) _ _) = _
  cases f (s.syncFound t sc n).val <;> rfl

/-! ### WAIT (R284) -/

theorem Team.seeSync_met {r : SyncReg} {b : Word} {pub : Nat} (h : syncCond cc r.val b = true) (u : Team) :
    ({ u with wait := .sync n cc b pub none } : Team).seeSync n r =
      { u with wait := .sync n cc b pub (some (r.val, r.prec)) } :=
  if_pos ⟨rfl, h⟩

theorem Team.seeSync_unmet {r : SyncReg} {b : Word} {pub : Nat} (h : syncCond cc r.val b = false) (u : Team) :
    ({ u with wait := .sync n cc b pub none } : Team).seeSync n r = { u with wait := .sync n cc b pub none } :=
  if_neg (by simp [h])

/-- A WAIT that has seen its value completes its boundary and returns the value. -/
theorem State.waitOn_seen {u : Team} {b v : Word} {pub : Nat} {prec : List Nat} (hu : s.team? t.uid = some u)
    (hw : u.wait = .sync n cc b pub (some (v, prec))) : s.waitOn t.uid sc sd =
      .done ((s.complete t.uid sc pub prec).modTeam t.uid (fun w => (w.wrS sd v).advance 8)) := by
  simp only [State.waitOn, hu, hw]

theorem State.waitOn_unseen {u : Team} {b : Word} {pub : Nat} (hu : s.team? t.uid = some u)
    (hw : u.wait = .sync n cc b pub none) : s.waitOn t.uid sc sd = .stall s := by
  simp only [State.waitOn, hu, hw]

/-- A WAIT as it looks at its local copy: the mirror is up to date, the boundary has published. -/
def State.waitPub (s : State) (t : Team) (sc : ScopeCode) : State × Nat :=
  ((s.handOffAll t.uid).mirrorDue t.pkg).publish t.uid sc false false

/-- The local copy that a WAIT finds. -/
def State.waitFound (s : State) (t : Team) (sc : ScopeCode) (n : Nat) : SyncReg :=
  (s.waitPub t sc).1.syncLocal t.pkg (gidDie t.gid) n

theorem State.team?_waitPub (ht : s.team? t.uid = some t) (sc : ScopeCode) :
    ∃ u, (s.waitPub t sc).1.team? t.uid = some u :=
  (((s.sameNames_handOffAll t.uid).trans (State.sameNames_mirrorDue _ t.pkg)).trans
    (State.sameNames_publish _ t.uid sc false false)).team? ht

theorem State.front_congr {i : Instr} {f g : Team → Run} (hi : s.issuing? = some t) (h : f t = g t) :
    s.front i f = s.front i g := by
  simp only [State.front, hi, h]

/-- A WAIT that begins: it waits, sees what its local copy holds, and goes on from there. -/
theorem exec_syncWait_begins (hi : s.issuing? = some t) (hreg : s.syncReg t (t.rs sa) = .ok n) (hc : s.Clears t.uid)
    (hw : t.wait = .none) : exec (.syncWait cc sc sd sa sb) s = s.front (.syncWait cc sc sd sa sb) (fun _ =>
      ((s.waitPub t sc).1.modTeam t.uid (fun u => { u with wait := .sync n cc (t.rs sb) (s.waitPub t sc).2 none }.seeSync n
        (s.waitFound t sc n))).waitOn t.uid sc sd) := by
  rw [State.Clears] at hc
  rw [exec_syncWait]
  refine State.front_congr hi ?_
  simp only [hw]
  exact (chkRun_of_ok hreg _).trans (if_neg (by simp [hc]))

theorem exec_syncWait_met (h : s.Issues t (.syncWait cc sc sd sa sb)) (hreg : s.syncReg t (t.rs sa) = .ok n)
    (hc : s.Clears t.uid) (hw : t.wait = .none) (hmet : syncCond cc (s.waitFound t sc n).val (t.rs sb) = true) :
    exec (.syncWait cc sc sd sa sb) s = .next ((((s.waitPub t sc).1.modTeam t.uid (fun u => { u with
      wait := .sync n cc (t.rs sb) (s.waitPub t sc).2 (some ((s.waitFound t sc n).val, (s.waitFound t sc n).prec)) })).complete
        t.uid sc (s.waitPub t sc).2 (s.waitFound t sc n).prec).modTeam t.uid
          (fun u => (u.wrS sd (s.waitFound t sc n).val).advance 8)) := by
  obtain ⟨hcur, -, huid⟩ := State.issuing_team h.1
  obtain ⟨u, hu⟩ := State.team?_waitPub (huid ▸ hcur) sc
  rw [exec_syncWait_begins h.1 hreg hc hw]
  simp only [Team.seeSync_met hmet]
  exact State.front_done h (State.waitOn_seen (State.team?_modTeam _ (fun _ => rfl) hu) rfl)

theorem exec_syncWait_unmet (h : s.Issues t (.syncWait cc sc sd sa sb)) (hreg : s.syncReg t (t.rs sa) = .ok n)
    (hc : s.Clears t.uid) (hw : t.wait = .none) (hunmet : syncCond cc (s.waitFound t sc n).val (t.rs sb) = false) :
    exec (.syncWait cc sc sd sa sb) s = .next ((s.waitPub t sc).1.modTeam t.uid (fun u => { u with
      wait := .sync n cc (t.rs sb) (s.waitPub t sc).2 none })) := by
  obtain ⟨hcur, -, huid⟩ := State.issuing_team h.1
  obtain ⟨u, hu⟩ := State.team?_waitPub (huid ▸ hcur) sc
  rw [exec_syncWait_begins h.1 hreg hc hw]
  simp only [Team.seeSync_unmet hunmet]
  exact State.front_stall h (State.waitOn_unseen (State.team?_modTeam _ (fun _ => rfl) hu) rfl)

end

/-! ### Mirrors (R282) -/

theorem mem_rotate {α : Type} {l : List α} {n : Nat} {x : α} : x ∈ rotate l n ↔ x ∈ l := by
  rw [rotate, List.mem_append, or_comm, ← List.mem_append, List.take_append_drop]

/-- The names of a list, each once, in the order in which they first stand. -/
def eachOnce (l : List Nat) : List Nat := l.foldl (fun a x => if a.contains x then a else a ++ [x]) []

theorem mem_foldl_contains {l a : List Nat} {x : Nat} :
    x ∈ l.foldl (fun a y => if a.contains y then a else a ++ [y]) a ↔ x ∈ a ∨ x ∈ l := by
  induction l generalizing a with
  | nil => simp
  | cons y ys ih =>
    rw [List.foldl_cons, ih, List.mem_cons]
    by_cases hy : y ∈ a
    · have hgone : x = y → x ∈ a := fun h => h ▸ hy
      rw [if_pos (List.contains_iff_mem.mpr hy)]
      tauto
    · simp [hy, or_assoc]

theorem mem_eachOnce {l : List Nat} {x : Nat} : x ∈ eachOnce l ↔ x ∈ l :=
  mem_foldl_contains.trans (by simp)

/-- Whatever rotation the free choice takes, it begins with one of the names. -/
theorem exists_head?_rotate_eachOnce {l : List Nat} (h : l ≠ []) (k : Nat) :
    ∃ n ∈ l, (rotate (eachOnce l) k).head? = some n := by
  have hmem : ∀ {n}, n ∈ rotate (eachOnce l) k ↔ n ∈ l := mem_rotate.trans mem_eachOnce
  obtain ⟨y, hy⟩ := List.exists_mem_of_ne_nil l h
  have hne := List.ne_nil_of_mem (hmem.mpr hy)
  exact ⟨_, hmem.mp (List.head_mem hne), List.head?_eq_some_head hne⟩

theorem dropMirror_append {n : Nat} {x : Nat × Nat × SyncReg} {l : List (Nat × Nat × SyncReg)} (hx : x.1 = n)
    (hl : ∀ y ∈ l, y.1 ≠ n) (r : List (Nat × Nat × SyncReg)) : dropMirror n (l ++ x :: r) = l ++ r := by
  induction l with
  | nil => exact if_pos hx
  | cons y ys ih =>
    obtain ⟨hy, hys⟩ := List.forall_mem_cons.mp hl
    exact (if_neg hy).trans (congrArg (y :: ·) (ih hys))

section
variable {s : State} {p : PkgNo}

/-- The registers of which a write is on its way to a mirror. -/
def State.mirrorRegs (s : State) (p : PkgNo) : List Nat := (s.pkg p).mirrorQ.map (·.1)

/-- A mirror whose choice falls on register `n`, of which `x` is the oldest write on its way. -/
theorem exec_mirror_chosen {n : Nat} {x : Nat × Nat × SyncReg}
    (hhead : (rotate (eachOnce (s.mirrorRegs p)) (s.pick 0 (eachOnce (s.mirrorRegs p)).length)).head? = some n)
    (hfind : (s.pkg p).mirrorQ.find? (fun y => y.1 == n) = some x) : exec (.mirror p) s =
      .next ((s.modPkg p (fun k => { k with mirrorQ := dropMirror n k.mirrorQ })).applyMirror p n x.2.2) := by
  rw [eachOnce, State.mirrorRegs] at hhead
  simp only [exec_mirror, execMirror, hhead, hfind]

/-- R282: a mirror applies the oldest write of a register on its way. -/
theorem exec_mirror_oldest (h : (s.pkg p).mirrorQ ≠ []) :
    ∃ l n due x r, (s.pkg p).mirrorQ = l ++ (n, due, x) :: r ∧ (∀ y ∈ l, y.1 ≠ n) ∧
      exec (.mirror p) s = .next ((s.modPkg p (fun k => { k with mirrorQ := l ++ r })).applyMirror p n x) := by
  obtain ⟨n, hn, hhead⟩ := exists_head?_rotate_eachOnce (l := s.mirrorRegs p) (by simpa [State.mirrorRegs] using h)
    (s.pick 0 (eachOnce (s.mirrorRegs p)).length)
  obtain ⟨y, hy, hyn⟩ := List.mem_map.mp hn
  obtain ⟨w, hfind⟩ := Option.isSome_iff_exists.mp
    (List.find?_isSome (p := fun x => x.1 == n).mpr ⟨y, hy, beq_iff_eq.mpr hyn⟩)
  obtain ⟨hw, l, r, hq, hl⟩ := List.find?_eq_some_iff_append.mp hfind
  obtain rfl : w.1 = n := beq_iff_eq.mp hw
  have hold : ∀ y ∈ l, y.1 ≠ w.1 := fun y hy => by simpa using hl y hy
  have hdrop : dropMirror w.1 (s.pkg p).mirrorQ = l ++ r := by rw [hq, dropMirror_append rfl hold]
  refine ⟨l, w.1, w.2.1, w.2.2, r, hq, hold, ?_⟩
  rw [exec_mirror_chosen hhead hfind]
  simp only [State.modPkg, hdrop]

end

/-- Settles O50: the operations at the home by `State.syncOp_done`, WAIT by whether it sees its value at once, the mirror by
the oldest write of the register chosen. -/
theorem syncResults : Obligations.SyncResults := by
  unfold Obligations.SyncResults
  intro s t sc cc sd sa sb n h q r c put back hi hreg hc
  refine ⟨fun hm => ?tas, fun hm => ?fadd, fun hm => ?ld, fun hm => ?st, fun hm hw => ?met, fun hm hw => ?unmet,
    fun p => exec_mirror_oldest⟩
  case tas =>
    rw [exec_syncTas, execSyncTas, State.front_done ⟨hi, hm⟩ (State.syncOp_done hreg hc _ _)]
    by_cases hz : r.val = 0
    · rw [if_pos hz, if_pos (show (s.syncFound t sc n).val = 0 from hz)]
      rfl
    · rw [if_neg hz, if_neg (show (s.syncFound t sc n).val ≠ 0 from hz)]
      rfl
  case fadd => exact State.front_done ⟨hi, hm⟩ (State.syncOp_done hreg hc _ _)
  case ld => exact State.front_done ⟨hi, hm⟩ (State.syncOp_done hreg hc _ _)
  case st => exact State.front_done ⟨hi, hm⟩ (State.syncOp_done hreg hc _ _)
  case met => exact fun hmet => ⟨_, exec_syncWait_met ⟨hi, hm⟩ hreg hc hw hmet, rfl⟩
  case unmet => exact fun hunmet => exec_syncWait_unmet ⟨hi, hm⟩ hreg hc hw hunmet

end Sys2Proof.Machine
end

/-!
O28: the region services (R310 to R312).
-/

section
namespace Sys2Proof.Machine

section
variable {c : Ctx}

theorem exec_regionSet (sd : SReg) (s : State) : exec (.regionSet sd) s = execRegionSet sd s := rfl
theorem exec_regionRel (sd : SReg) (s : State) : exec (.regionRel sd) s = execRegionRel sd s := rfl
theorem exec_regionStat (sd : SReg) (s : State) : exec (.regionStat sd) s = execRegionStat sd s := rfl

/-- R310: handles are 1 to 1023. -/
theorem not_badRegionHandle {h : Nat} (hlo : 1 ≤ h) (hhi : h ≤ 1023) : ¬(decide (h = 0) || decide (1023 < h)) = true := by
  simp only [Bool.or_eq_true, decide_eq_true_eq]
  omega

/-- REGION.REL takes a handle of its range that is registered. -/
theorem not_badRelease {h : Nat} (hlo : 1 ≤ h) (hhi : h ≤ 1023) (hreg : (kfind c.regions h).isSome = true) :
    ¬(decide (h = 0) || decide (1023 < h) || (kfind c.regions h).isNone) = true := by
  rw [Bool.or_eq_true, not_or]
  exact ⟨not_badRegionHandle hlo hhi, by simp [Option.isSome_iff_ne_none.mp hreg]⟩

end

/-- Settles O28: REGION.SET by its status, REGION.REL and REGION.STAT on a handle that `not_badRegionHandle`
admits. The free bytes that a release leaves in the residue plane are the model's form (log 5). -/
theorem regionServices : Obligations.RegionServices := by
  unfold Obligations.RegionServices
  intro sd s t c hi hc
  refine ⟨fun hw hst => ?set, fun hw hst => ?refused,
    fun c' r hw hlo hhi hreg hpend hracked hc' hr => ?rel, fun r ks hw hlo hhi hr hctl hk => ?stat⟩
  case set =>
    rw [exec_regionSet]
    refine State.front_done ⟨hi, hw⟩ ?_
    rw [hc]
    exact if_pos hst
  case refused =>
    rw [exec_regionSet]
    refine State.front_done ⟨hi, hw⟩ ?_
    rw [hc]
    exact if_neg hst
  case rel =>
    rw [exec_regionRel]
    refine State.front_done ⟨hi, hw⟩ ?_
    rw [hc]
    refine (if_neg (not_badRelease hlo hhi hreg)).trans ((if_neg (Bool.eq_false_iff.mp hpend)).trans
      ((if_neg (Bool.eq_false_iff.mp hracked)).trans ?_))
    simp only [hc', hr]
    rfl
  case stat =>
    rw [exec_regionStat]
    refine State.front_done ⟨hi, hw⟩ ?_
    rw [hc]
    simp only [if_neg (not_badRegionHandle hlo hhi), hr]
    exact (if_neg (by rw [hctl]; decide)).trans (chkRun_of_ok hk _)

end Sys2Proof.Machine
end

/-!
O52: UPDS, RACK, RACKR and the Press's own steps (R317, R319, R322, R325, R326).
-/

section
namespace Sys2Proof.Machine

section
variable {s : State} {t : Team} {c : Ctx} {r : Region} {rh : BitVec 10}

theorem exec_upds (strict : Bool) (sv si : SReg) (rh : BitVec 10) (s : State) :
    exec (.upds strict sv si rh) s = execUpds strict sv si rh s := rfl
theorem exec_rack (rh : BitVec 10) (sa sb : SReg) (s : State) : exec (.rack rh sa sb) s = execRack rh sa sb s := rfl
theorem exec_rackr (sd sa : SReg) (rh : BitVec 10) (s : State) : exec (.rackr sd sa rh) s = execRackr sd sa rh s := rfl
theorem exec_handOff (gid : Gid) (s : State) : exec (.handOff gid) s = execHandOff gid s := rfl
theorem exec_backgroundRacking (p : PkgNo) (stack : BitVec 4) (ctx : CtxId) (s : State) :
    exec (.backgroundRacking p stack ctx) s = execBackgroundRacking p stack ctx s := rfl

theorem State.pressTakes_iff (s : State) (uid : Nat) : s.pressTakes uid = true ↔ s.Clears uid := Iff.rfl

/-- R317: what UPDS leaves of the team and the state, its pair emitted or dropped. -/
def State.afterUpds (s : State) (t : Team) (rh : BitVec 10) (idx : Nat) (v : Word) (drop : Bool) : State :=
  s.putTeam ((if drop then { t with updf := updfDrop t.updf 0 0 } else t.emit rh [(idx, v)]).advance 8)

/-- R317, R319: UPDS, its index checked, goes on when it drops its pair or the Press takes it, and stalls otherwise. -/
theorem exec_upds_checked {strict drop : Bool} {sv si : SReg} (hi : s.issuing? = some t) (hr : s.region? t rh = some r)
    (hc : s.teamCtx? t = some c) (hquota : s.unperformed t < 2 ^ 20)
    (hchk : updChk c r strict (t.rs si).toNat = .ok drop) :
    let z := s.afterUpds t rh (t.rs si).toNat (updsValue r.op.toNat (t.rs sv)) drop
    exec (.upds strict sv si rh) s = s.front (.upds strict sv si rh) (fun _ =>
      if drop || z.pressTakes t.uid then .done z else .stall (s.handOffAll t.uid)) := by
  have room : ¬2 ^ 20 < s.unperformed t + 1 := by omega
  rw [exec_upds]
  refine State.front_congr hi ?_
  simp only [hc, hr, if_neg room]
  exact chkRun_of_ok (by rw [hchk]; rfl) _

end

/-- Settles O52: UPDS by its index check and by whether the Press takes its pairs (`State.pressTakes_iff`), RACKR by whether
its index lies in the region; the others are their arms' own updates. -/
theorem pressResults : Obligations.PressResults := by
  unfold Obligations.PressResults
  intro s t strict sv si sa sb sd rh c r key hr hc
  refine ⟨fun h hquota => ⟨fun hchk => ⟨fun hz => ?emits, fun hz => ?stalls⟩, fun hchk => ?drops⟩, fun h => ?rack,
    fun h hlt hk => ?rackr, fun h hle => ?beyond, fun hat => ?handOff,
    fun p stack ctx => exec_backgroundRacking p stack ctx s⟩
  case emits =>
    rw [exec_upds_checked h.1 hr hc hquota hchk]
    exact State.front_done h (if_pos ((State.pressTakes_iff _ _).mpr hz))
  case stalls =>
    rw [exec_upds_checked h.1 hr hc hquota hchk]
    exact State.front_stall h (if_neg (mt (State.pressTakes_iff _ _).mp hz))
  case drops =>
    rw [exec_upds_checked h.1 hr hc hquota hchk]
    exact State.front_done h (if_pos rfl)
  case rack =>
    rw [exec_rack]
    refine State.front_done h ?_
    rw [hr]
  case rackr =>
    rw [exec_rackr]
    refine State.front_done h ?_
    rw [hc, hr]
    exact (if_neg (Nat.not_le.mpr hlt)).trans (chkRun_of_ok (by rw [hk]; rfl) _)
  case beyond =>
    rw [exec_rackr]
    refine State.front_fail h ?_
    rw [hc, hr]
    exact if_pos hle
  case handOff =>
    rw [exec_handOff, execHandOff, hat.1]

end Sys2Proof.Machine
end

/-!
O29: the vintage services and counters (R332, R333, R342).
-/

section
namespace Sys2Proof.Machine

/-! ### Building a sparse table -/

/-- A table of keys that all hold what one function says reads as that function. -/
theorem kget_foldl_kset {α β : Type} [DecidableEq α] (d : α) (f : Nat → α) (l : KMap β) (m : KMap α) (b : Nat) :
    kget d ((l.map (fun kv => (kv.1, f kv.1))).foldl (fun m kv => kset d m kv.1 kv.2) m) b =
      if (kfind l b).isSome then f b else kget d m b := by
  induction l generalizing m with
  | nil => rfl
  | cons kv l ih =>
    rw [List.map_cons, List.foldl_cons, ih, kget_kset, kfind]
    by_cases hk : b = kv.1
    · simp [hk]
    · simp [hk]

/-- Rewriting every listed value by a function of its key gives that function, where it answers the default for an unlisted
key. -/
theorem kget_kmapOf_map {α β : Type} [DecidableEq α] (d : α) (f : Nat → α) (l : KMap β) (b : Nat)
    (hd : kfind l b = none → f b = d) : kget d (kmapOf d (l.map (fun kv => (kv.1, f kv.1)))) b = f b := by
  rw [kmapOf, kget_foldl_kset]
  cases hk : kfind l b with
  | none => exact (hd hk).symm
  | some x => rfl

/-! ### The services -/

section
variable {s : State} {t : Team} {c : Ctx} {tb : VTable}

theorem exec_vntSet (sd : SReg) (s : State) : exec (.vntSet sd) s = execVntSet sd s := rfl
theorem exec_vntRel (sd : SReg) (s : State) : exec (.vntRel sd) s = execVntRel sd s := rfl
theorem exec_vntInv (sd : SReg) (s : State) : exec (.vntInv sd) s = execVntInv sd s := rfl
theorem exec_vntc (k : BitVec 2) (clr : Bool) (sd : SReg) (s : State) :
    exec (.vntc k clr sd) s = execVntc k clr sd s := rfl

/-- R333: VNT.REL and VNT.INV find a registered handle of 1 to 63. -/
theorem vintageTable_of_handle {h : Nat} (hlo : 1 ≤ h) (hhi : h ≤ 63) (hr : kfind c.tables h = some tb) :
    (if decide (h = 0) || decide (63 < h) then none else kfind c.tables h) = some tb := by
  rw [if_neg (by simp only [Bool.or_eq_true, decide_eq_true_eq]; omega), hr]

/-- R332: VNT.REL does not wait where no TIQ holds a replay of the table. -/
theorem no_replay_of_table {n : Nat} (h : ∀ u ∈ s.teams, ∀ e ∈ u.tiq, e.usesTable n = false) :
    ¬((s.ctxTeams t.ctx).any (fun u => u.pkg == t.pkg && u.tiq.any (fun e => e.usesTable n))) = true := by
  simp only [List.any_eq_true, Bool.and_eq_true, not_exists, not_and]
  intro u hu _ e he
  exact Bool.eq_false_iff.mp (h u (List.mem_of_mem_filter hu) e he)

/-- Entry `b` of a table after VNT.INV of the blocks from `first` up to `last`. -/
def VTable.entryAfterInv (tb : VTable) (first last b : Nat) : VEntry :=
  let e := kget VEntry.empty tb.entries b
  if first ≤ b ∧ b < last then { e with v := false } else e

/-- A table after VNT.INV of the blocks from `first` up to `last` (R332). -/
def VTable.afterInv (tb : VTable) (first last : Nat) : VTable :=
  { tb with entries := kmapOf VEntry.empty (tb.entries.map (fun be => (be.1, tb.entryAfterInv first last be.1))) }

/-- R332: VNT.INV clears V in each entry named and changes nothing else of any entry. -/
theorem VTable.entryAfterInv_eq (tb : VTable) (first last b : Nat) :
    tb.entryAfterInv first last b = { kget VEntry.empty tb.entries b with
      v := (kget VEntry.empty tb.entries b).v && !(decide (first ≤ b) && decide (b < last)) } := by
  unfold entryAfterInv
  by_cases hb : first ≤ b ∧ b < last
  · simp [hb]
  · rw [if_neg hb, ← Bool.decide_and, decide_eq_false hb, Bool.not_false, Bool.and_true]

/-- An entry that nothing has written is empty, and stays so. -/
theorem VTable.entryAfterInv_unlisted {b : Nat} (first last : Nat) (hb : kfind tb.entries b = none) :
    tb.entryAfterInv first last b = VEntry.empty := by
  rw [entryAfterInv_eq, kget_eq, hb]
  rfl

theorem VTable.kget_afterInv (tb : VTable) (first last b : Nat) :
    kget VEntry.empty (tb.afterInv first last).entries b = tb.entryAfterInv first last b :=
  kget_kmapOf_map _ (tb.entryAfterInv first last) _ b (entryAfterInv_unlisted first last)

/-- R332, R333: VNT.INV with its checks passed; a count of 0 reaches to the table's last block. -/
theorem exec_vntInv_valid {sd : SReg} (h : s.Issues t (.vntInv sd)) (hc : s.teamCtx? t = some c)
    (hlo : 1 ≤ (t.rs 1).toNat) (hhi : (t.rs 1).toNat ≤ 63) (hr : kfind c.tables (t.rs 1).toNat = some tb)
    (hfirst : (t.rs 2).toNat < tb.nblk) (hlast : (t.rs 2).toNat + (t.rs 3).toNat ≤ tb.nblk) :
    exec (.vntInv sd) s = .next ((s.putTable t (t.rs 1).toNat (tb.afterInv (t.rs 2).toNat
      (if (t.rs 3).toNat = 0 then tb.nblk else (t.rs 2).toNat + (t.rs 3).toNat))).modTeam t.uid
        (fun u => (u.wrS sd 0).advance 8)) := by
  have inRange : ¬(tb.nblk ≤ (t.rs 2).toNat || tb.nblk < (t.rs 2).toNat + (t.rs 3).toNat) = true := by
    simp only [Bool.or_eq_true, decide_eq_true_eq]
    omega
  rw [exec_vntInv]
  refine State.front_done h ?_
  simp only [hc, vintageTable_of_handle hlo hhi hr]
  exact if_neg inRange

end

/-- Settles O29: VNT.SET by its status, VNT.REL and VNT.INV on a handle that `vintageTable_of_handle` finds, VNT.INV's
entries by `VTable.kget_afterInv`. The free bytes that a release leaves in the backing area are the model's form (log 5). -/
theorem vintageServices : Obligations.VintageServices := by
  unfold Obligations.VintageServices
  intro sd k clr s t c hi hc
  refine ⟨fun hw hst => ?set, fun tb hw hlo hhi hr hidle => ?rel, fun tb hw hlo hhi hr hfirst hlast => ?inv,
    fun hw => ?counter⟩
  case set =>
    rw [exec_vntSet]
    refine State.front_done ⟨hi, hw⟩ ?_
    rw [hc]
    exact if_pos hst
  case rel =>
    rw [exec_vntRel]
    refine State.front_done ⟨hi, hw⟩ ?_
    simp only [hc, vintageTable_of_handle hlo hhi hr]
    exact if_neg (no_replay_of_table hidle)
  case inv =>
    have countZero : (t.rs 3).toNat = 0 ↔ t.rs 3 = 0 := BitVec.toNat_inj (y := 0#64)
    refine ⟨_, rfl, fun b => ?_, exec_vntInv_valid ⟨hi, hw⟩ hc hlo hhi hr hfirst hlast⟩
    rw [VTable.kget_afterInv, VTable.entryAfterInv_eq]
    simp only [countZero]
  case counter =>
    rw [exec_vntc]
    refine State.front_done ⟨hi, hw⟩ ?_
    rw [hc]

end Sys2Proof.Machine
end

/-!
O55: the scheduler (R79, R241, R288, R289, R301, R302, R374, R382, R384, R386): queue pops, instances, steals, placement,
completion and gang slices.
-/

section
namespace Sys2Proof.Machine

theorem exec_queuePop (p : PkgNo) (q : BitVec 6) (s : State) : exec (.queuePop p q) s = execQueuePop p q s := rfl
theorem exec_instancePlacement (id : Nat) (die : Bool) (s : State) :
    exec (.instancePlacement id die) s = execInstancePlacement id die s := rfl
theorem exec_steal (id : Nat) (die : Bool) (s : State) : exec (.steal id die) s = execSteal id die s := rfl
theorem exec_groupPlacement (id inst : Nat) (cores : List Gid) (s : State) :
    exec (.groupPlacement id inst cores) s = execGroupPlacement id inst cores s := rfl
theorem exec_launchCompletion (id : Nat) (s : State) :
    exec (.launchCompletion id) s = execLaunchCompletion id s := rfl
theorem exec_gangSliceStart (id : Nat) (s : State) : exec (.gangSliceStart id) s = execGangSliceStart id s := rfl
theorem exec_ready (id : Nat) (p : PkgNo) (cores : List Gid) (s : State) :
    exec (.ready id p cores) s = execReady id p cores s := rfl
theorem exec_start (id : Nat) (p : PkgNo) (s : State) : exec (.start id p) s = execStart id p s := rfl
theorem exec_abort (id : Nat) (p : PkgNo) (s : State) : exec (.abort id p) s = execAbort id p s := rfl

/-! ### Popping -/

section
variable {s : State} {p : PkgNo} {q : BitVec 6} {c : Ctx}

/-- R302, R79: nothing is popped during a reset of the queue, or while firmware holds the launches of the image. -/
theorem State.poppable_of_held
    (h : (s.pkg p).resetting.contains q = true ∨ (s.pkg p).awaiting.contains (s.queue p q).ctx = true) :
    s.poppable p q = false := by
  rcases h with h | h <;>
    simp only [State.poppable, State.imageHeld, h, Bool.not_true, Bool.and_false, Bool.false_and]

/-- The state in which the core has taken the next entry of a queue and remembers the queue as the last of its priority. -/
def State.afterPop (y : State) (p : PkgNo) (q : BitVec 6) : State :=
  (y.popEntry p q).2.2.modPkg p (fun k => { k with lastPop := k.lastPop.set (y.queue p q).pri.toFin q })

/-- R382, R301: what a pop does with the record it has taken. -/
theorem exec_queuePop_taken {y : State} (hy : s.watchTails p = y) (hon : (y.pkg p).power = .on) (hb : (y.pkg p).booted = true)
    (hq : y.nextQueue p = some q) (hc : y.ctx? p (y.queue p q).ctx = some c) :
    let e := y.popEntry p q
    let z := y.afterPop p q
    exec (.queuePop p q) s =
      if !recordOk e.1 then .next (z.postCompletion p (y.queue p q).ctx e.1 2 q 0)
      else if y.dropsEntry c (recGraph e.1) then .next (z.postCompletion p (y.queue p q).ctx e.1 1 q 0)
      else .next { z with
        nextId := z.nextId + 1, launches := z.launches ++ [z.newLaunch p q (y.queue p q).ctx e.1 e.2.1] } := by
  intro e z
  have turn : ¬((y.pkg p).power != .on || !(y.pkg p).booted || y.nextQueue p != some q) = true := by simp [hon, hb, hq]
  simp only [exec_queuePop, execQueuePop, hy, if_neg turn, hc]
  rfl

end

/-! ### Instances -/

section
variable {s : State} {l : Launch} {die : Bool}

/-- R288: a die whose groups have their cores takes the lowest of its range; a token of the graph drops the range. -/
theorem exec_instancePlacement_takes (hl : s.launch? l.id = some l) (hr : (l.range die).1 < (l.range die).2)
    (hbusy : l.insts.any (fun i => i.die == die && decide (i.cores.length < i.total)) = false)
    (hheld : s.imageHeld l.pkg l.ctx = false) (ho : s.orderOk l = true) (hd : s.dieHolds l die = true) :
    exec (.instancePlacement l.id die) s =
      if s.dropsRange l then .next (s.putLaunch (l.putRange die ((l.range die).2, (l.range die).2)))
      else .next (s.putLaunch { (l.putRange die ((l.range die).1 + 1, (l.range die).2)) with
        insts := l.insts ++ [⟨(l.range die).1, die, [], recCores l.record 0⟩], view0 := union l.view0 (s.serialView l) }) := by
  simp only [exec_instancePlacement, execInstancePlacement, hl, hbusy, hheld, ho, hd]
  exact if_neg (by simp [hr])

/-- R289: a die whose range is empty takes the upper half of the other's, or notes that less than two are left there. -/
theorem exec_steal_halves (hl : s.launch? l.id = some l) (hs : l.stolen = false)
    (hr : (l.range die).2 ≤ (l.range die).1) (hd : s.dieHolds l die = true) :
    let n := (l.range (!die)).2 - (l.range (!die)).1
    let mid := (l.range (!die)).2 - n / 2
    exec (.steal l.id die) s = .next (s.putLaunch (if 2 ≤ n
      then (l.putRange die (mid, (l.range (!die)).2)).putRange (!die) ((l.range (!die)).1, mid)
      else { l with stolen := true })) := by
  intro n mid
  simp only [exec_steal, execSteal, hl, hs, hd]
  rw [if_neg (by simp [hr])]
  by_cases h : 2 ≤ n
  · rw [if_pos h, if_pos h]
  · rw [if_neg h, if_neg h]

/-- R241: cores that may be given to a group are. -/
theorem exec_groupPlacement_places {inst : Nat} {i : Inst} {cores : List Gid} (hl : s.launch? l.id = some l)
    (hi : l.insts.find? (fun j => j.idx == inst) = some i) (hc : s.coresOk l i cores = true) :
    exec (.groupPlacement l.id inst cores) s = .next ((s.placeCores l inst
      (instGids l.record (i.cores ++ cores.map gidCoreKey)) .running i.cores.length (cores.map gidCoreKey)).putLaunch
        (l.addCores inst (cores.map gidCoreKey))) := by
  simp only [exec_groupPlacement, execGroupPlacement, hl, hi, hc, if_true]

end

/-! ### Completion -/

section
variable {s : State} {l : Launch}

/-- No team of a launch is placed or saved. -/
theorem no_live_team (ht : ∀ u ∈ s.teams, u.launch ≠ l.id) (hs : ∀ x ∈ s.saved, x.team.launch ≠ l.id) :
    (s.teams ++ s.saved.map (·.team)).any (fun t => t.launch == l.id) = false := by
  simpa [or_imp, forall_and] using ⟨ht, hs⟩

/-- R302: a launch that a reset at home has ended goes without a record. -/
theorem exec_launchCompletion_cut (hl : s.launch? l.id = some l) (ht : ∀ u ∈ s.teams, u.launch ≠ l.id)
    (hs : ∀ x ∈ s.saved, x.team.launch ≠ l.id) (hcut : l.cut.contains l.pkg = true) :
    exec (.launchCompletion l.id) s = .next { s with launches := s.launches.filter (fun m => m.id != l.id) } := by
  simp only [exec_launchCompletion, execLaunchCompletion, hl, no_live_team ht hs, hcut, Bool.or_true, Bool.not_true,
    Bool.or_self, Bool.false_eq_true, if_false, if_true]

/-- R386, R298: a launch that has been placed whole posts its completion and goes. -/
theorem exec_launchCompletion_posts (hl : s.launch? l.id = some l) (ht : ∀ u ∈ s.teams, u.launch ≠ l.id)
    (hs : ∀ x ∈ s.saved, x.team.launch ≠ l.id) (hall : l.allPlaced = true) (hcut : l.cut.contains l.pkg = false) :
    let z := (s.postCompletion l.pkg l.ctx l.record (if l.insts = [] then 1 else 0) l.queue l.faults).modQueue l.pkg l.queue
      (fun x => { x with done := x.done ++ l.exited.map (·.uid) ++ l.kin })
    exec (.launchCompletion l.id) s = .next { z with launches := z.launches.filter (fun m => m.id != l.id) } := by
  simp only [exec_launchCompletion, execLaunchCompletion, hl, no_live_team ht hs, hall, hcut, Bool.true_or, Bool.not_true,
    Bool.or_self, Bool.false_eq_true, if_false, List.isEmpty_iff]

end

/-- R386: a completion word holds its fields apart. -/
theorem completionWord_toNat {status : Nat} (q : BitVec 6) (faults : Nat) (h : status < 2 ^ 8) :
    (completionWord status q faults).toNat = 2 ^ 63 + status * 2 ^ 40 + q.toNat * 2 ^ 32 + faults % 2 ^ 32 := by
  have hq := q.isLt
  rw [completionWord, BitVec.toNat_ofNat]
  omega

theorem completionWord_fields {status : Nat} (q : BitVec 6) (faults : Nat) (h : status < 2 ^ 8) :
    (completionWord status q faults).getLsbD 63 = true ∧
    ((completionWord status q faults).extractLsb' 40 8).toNat = status ∧
    (completionWord status q faults).extractLsb' 32 6 = q ∧
    ((completionWord status q faults).extractLsb' 0 32).toNat = faults % 2 ^ 32 := by
  have hq := q.isLt
  refine ⟨?valid, ?status, BitVec.eq_of_toNat_eq ?queue, ?faults⟩
  case valid =>
    rw [BitVec.getLsbD, completionWord_toNat q faults h, Nat.testBit_eq_decide_div_mod_eq, decide_eq_true_eq]
    omega
  all_goals
    rw [BitVec.extractLsb'_toNat, completionWord_toNat q faults h, Nat.shiftRight_eq_div_pow]
    omega

/-- R386: an aligned completion address that translates takes the word. -/
theorem State.postCompletion_aligned {s : State} {p : PkgNo} {c : Ctx} {r : List Word} {key : Nat} (hz : recCpl r ≠ 0)
    (ha : recCpl r % 8 = 0) (hc : s.ctx? p c.id = some c) (hx : s.xlateHost p c (recCpl r) = .ok key) (st : Nat)
    (q : BitVec 6) (faults : Nat) :
    s.postCompletion p c.id r st q faults = s.fwDword key (completionWord st q faults) := by
  rw [State.postCompletion, if_neg (by simp [hz, ha])]
  simp only [State.fwVa, hc, hx]

/-- R276: firmware writes a window page of any state in the frame that its entry names. -/
theorem State.xlateHost_window (s : State) (p : PkgNo) {c : Ctx} {va : Nat} (hin : inWin va = true)
    (hw : c.winEntry ((va - winBase) / winPage) ≠ 0) :
    s.xlateHost p c va = .ok (devKey ((c.winEntry ((va - winBase) / winPage)).extractLsb' 52 12)
      (winFrame (c.winEntry ((va - winBase) / winPage)) + va % winPage)) := by
  rw [State.xlateHost, if_pos hin, Ctx.winHost, if_neg hw]

/-! ### Gang slices -/

/-- A list that lists nothing twice loses nothing. -/
theorem length_eraseDups_of_nodup {α : Type} [DecidableEq α] {xs : List α} (h : xs.Nodup) :
    xs.eraseDups.length = xs.length := by
  induction xs with
  | nil => rfl
  | cons x xs ih =>
    obtain ⟨hx, hxs⟩ := List.nodup_cons.mp h
    have kept : xs.filter (fun b => !b == x) = xs :=
      List.filter_eq_self.mpr (fun b hb => by simpa using fun e : b = x => hx (e ▸ hb))
    rw [List.eraseDups_cons, kept, List.length_cons, List.length_cons, ih hxs]

theorem Launch.rests_iff (l : Launch) :
    l.rests = true ↔ l.gang = .idle ∨ (l.gang = .aborting ∧ l.ready = [] ∧ l.late = []) := by
  simp [Launch.rests, and_assoc]

section
variable {s : State} {l : Launch} {p : PkgNo}

/-- R374: at the margin the home sends start when every report is in, else abort. -/
theorem exec_gangSliceStart_sends (hl : s.launch? l.id = some l) (hf : l.fabric = true) (hr : l.rests = true)
    (hcut : l.cut.contains l.pkg = false) :
    exec (.gangSliceStart l.id) s = .next (s.putLaunch (if s.gangReady l then { l with gang := .starting }
      else { l with gang := .aborting, late := l.lateOnes })) := by
  simp only [exec_gangSliceStart, execGangSliceStart, hl, hf, hr, hcut]
  cases s.gangReady l <;> rfl

/-- R374: a package that may report ready for the slot to come. -/
structure State.MayReport (s : State) (l : Launch) (p : PkgNo) : Prop where
  launched : s.launch? l.id = some l
  fabric : l.fabric = true
  rests : l.rests = true
  uncut : l.cut.contains p = false
  homeUncut : l.cut.contains l.pkg = false
  unheld : s.imageHeld p l.ctx = false
  unreported : l.ready.contains p = false
  unplaced : s.placedOn l p = false
  inOrder : s.orderOk l = true
  routed : s.routed p l.pkg = true

/-- Nothing keeps such a package from placing its members. -/
theorem State.MayReport.unguarded (h : s.MayReport l p) :
    ¬(!l.fabric || !l.rests || l.cut.contains p || l.cut.contains l.pkg || s.imageHeld p l.ctx || l.ready.contains p ||
      s.placedOn l p || !s.orderOk l || !s.routed p l.pkg) = true := by
  simp only [h.fabric, h.rests, h.uncut, h.homeUncut, h.unheld, h.unreported, h.unplaced, h.inOrder, h.routed]
  decide

theorem exec_ready_saved {cores : List Gid} (h : s.MayReport l p) (hsaved : s.savedOn l p ≠ [])
    (hmay : ∀ x ∈ s.savedOn l p, s.mayResume x x.team.gid = true) :
    exec (.ready l.id p cores) s = .next (((s.savedOn l p).foldl State.holdSaved s).putLaunch (l.addReady p)) := by
  simp only [exec_ready, execReady, h.launched]
  rw [if_neg h.unguarded, if_pos (by simp [hsaved]), if_pos (List.all_eq_true.mpr hmay)]

theorem exec_ready_first {cores : List Gid} {i : Inst} (h : s.MayReport l p) (hsaved : s.savedOn l p = [])
    (hi : l.insts.find? (fun j => j.idx == 0) = some i) (hne : cores ≠ []) (htakes : (s.pkg p).takes = true)
    (hfree : ∀ g ∈ cores, s.coreFree l.ctx g = true ∧ gidPkg g = p) (hnodup : cores.Nodup)
    (hroom : i.cores.length + cores.length ≤ i.total) :
    exec (.ready l.id p cores) s = .next ((s.placeCores l 0 [] .held i.cores.length (cores.map gidCoreKey)).putLaunch
      ((l.addCores 0 (cores.map gidCoreKey)).addReady p)) := by
  have free : cores.all (fun g => s.coreFree l.ctx g && gidPkg g == p) = true := by simpa using hfree
  simp only [exec_ready, execReady, h.launched]
  rw [if_neg h.unguarded, if_neg (by simp [hsaved]), hi]
  exact if_pos (by simp [hne, htakes, free, length_eraseDups_of_nodup hnodup, hroom])

/-- R374: a package that has reported releases its members with one pulse. -/
theorem exec_start_releases (hl : s.launch? l.id = some l) (hg : l.gang = .starting) (hr : l.ready.contains p = true)
    (hroute : s.routed l.pkg p = true) :
    exec (.start l.id p) s = .next ((s.releaseOn l p).putLaunch (l.dropReady p)) := by
  simp only [exec_start, execStart, hl, hg, hr, hroute]
  rfl

/-- R374: a package that has reported unplaces its members when an abort reaches it; a late one saves the teams that hold the
gang's cores. -/
theorem exec_abort_reaches (hl : s.launch? l.id = some l) (hg : l.gang = .aborting) (hcut : l.cut.contains p = false)
    (hroute : s.routed l.pkg p = true) :
    let mine := s.teams.filter (fun t => t.launch == l.id && t.pkg == p)
    exec (.abort l.id p) s =
      if l.ready.contains p then
        .next ((mine.foldl State.unplace s).putLaunch ((if mine.any (·.fresh) then { l with insts := l.insts.map (fun i =>
          { i with cores := i.cores.filter (fun c => gidPkg (keyGid c 0) != p) }) } else l : Launch).dropReady p))
      else
        .next (((s.teams.filter (fun t => t.pkg == p && s.holdsGang l t)).foldl (fun s t => s.forceSave t.uid) s).putLaunch
          (l.dropReady p)) := by
  intro mine
  simp only [exec_abort, execAbort, hl, hg, hcut, hroute]
  rfl

/-- R374: only a team of another launch that is being pre-empted holds a gang's cores. -/
theorem State.holdsGang_only {t : Team} (h : s.holdsGang l t = true) : t.preq = true ∧ t.launch ≠ l.id ∧
    ((∃ j ∈ l.insts, gidCoreKey t.gid ∈ j.cores) ∨ ∃ j ∈ l.insts, j.cores.length < j.total) := by
  simp only [State.holdsGang, Bool.and_eq_true, Bool.or_eq_true, bne_iff_ne, List.any_eq_true, List.contains_iff_mem,
    decide_eq_true_eq] at h
  obtain ⟨⟨hp, hl⟩, hcores⟩ := h
  exact ⟨hp, hl, hcores.imp_right And.left⟩

/-- Such a team holds the gang's cores where it stands on one that the members held. -/
theorem State.holdsGang_of_core {t : Team} (hp : t.preq = true) (hl : t.launch ≠ l.id)
    (h : ∃ j ∈ l.insts, gidCoreKey t.gid ∈ j.cores) : s.holdsGang l t = true := by
  have held : l.insts.any (fun i => i.cores.contains (gidCoreKey t.gid)) = true := by simpa using h
  rw [State.holdsGang, hp, held, bne_iff_ne.mpr hl]
  rfl

end

/-- Settles O55, clause by clause: each event with its guard met by its lemma above. -/
theorem schedulerSteps : Obligations.SchedulerSteps := by
  unfold Obligations.SchedulerSteps
  intro s p q c l i inst cores die
  refine ⟨State.poppable_of_held, fun hon hb hq hc => ?pop, fun hl hr hbusy hheld ho hd => ?placement,
    exec_steal_halves, exec_groupPlacement_places,
    fun hl ht hs => ⟨exec_launchCompletion_cut hl ht hs, exec_launchCompletion_posts hl ht hs⟩, fun va => s.xlateHost_window p,
    fun r st faults key hz ha hc hx hst =>
      ⟨State.postCompletion_aligned hz ha hc hx st q faults, completionWord_fields q faults (by omega)⟩,
    l.rests_iff, exec_gangSliceStart_sends, fun hl hf hr hcp hch hheld hrep hplaced ho hroute => ?ready,
    exec_start_releases, fun hl hg hcut hroute => ?abort, fun t => ⟨State.holdsGang_only, State.holdsGang_of_core⟩⟩
  case pop =>
    have popped := exec_queuePop_taken rfl hon hb hq hc
    refine ⟨fun hbad => ?_, fun hok hdrop => ?_, fun hok hkeep => ?_⟩
    · exact popped.trans (if_pos (by rw [hbad]; rfl))
    · exact popped.trans ((if_neg (by rw [hok]; decide)).trans (if_pos hdrop))
    · exact popped.trans ((if_neg (by rw [hok]; decide)).trans (if_neg (by rw [hkeep]; decide)))
  case placement =>
    have taken := exec_instancePlacement_takes hl hr hbusy hheld ho hd
    exact ⟨fun hkeep => taken.trans (if_neg (by simp [hkeep])), fun hdrop => taken.trans (if_pos hdrop)⟩
  case ready =>
    have may : s.MayReport l p := ⟨hl, hf, hr, hcp, hch, hheld, hrep, hplaced, ho, hroute⟩
    exact ⟨exec_ready_saved may, exec_ready_first may⟩
  case abort =>
    have reached := exec_abort_reaches hl hg hcut hroute
    refine ⟨fun hready => ⟨fun hold => ?_, fun hfresh => ?_⟩, fun hlate => ?_⟩
    · rw [reached, if_pos hready, if_neg (by simpa using hold)]
    · rw [reached, if_pos hready, if_pos (List.any_eq_true.mpr hfresh)]
    · rw [reached, if_neg (by rw [hlate]; decide)]

end Sys2Proof.Machine
end

/-!
O56: the commands of the mailbox (R274, R277, R301, R302, R382, R387, R388, R390, Table 18.4).
-/

section
namespace Sys2Proof.Machine

theorem exec_ctxCreate (p : PkgNo) (s : State) : exec (.ctxCreate p) s = execCtxCreate p s := rfl
theorem exec_ctxEnd (p : PkgNo) (s : State) : exec (.ctxEnd p) s = execCtxEnd p s := rfl
theorem exec_queueOpen (p : PkgNo) (s : State) : exec (.queueOpen p) s = execQueueOpen p s := rfl
theorem exec_queueReset (p : PkgNo) (s : State) : exec (.queueReset p) s = execQueueReset p s := rfl
theorem exec_cancel (p : PkgNo) (s : State) : exec (.cancel p) s = execCancel p s := rfl
theorem exec_cancelClr (p : PkgNo) (s : State) : exec (.cancelClr p) s = execCancelClr p s := rfl
theorem exec_tlbInv (p : PkgNo) (s : State) : exec (.tlbInv p) s = execTlbInv p s := rfl
theorem exec_winSet (p : PkgNo) (s : State) : exec (.winSet p) s = execWinSet p s := rfl
theorem exec_fwStage (p : PkgNo) (s : State) : exec (.fwStage p) s = execFwStage p s := rfl
theorem exec_fwActivate (p : PkgNo) (s : State) : exec (.fwActivate p) s = execFwActivate p s := rfl
theorem exec_hostSvc (p : PkgNo) (s : State) : exec (.hostSvc p) s = execHostSvc p s := rfl
theorem exec_unknownCommandCode (p : PkgNo) (s : State) :
    exec (.unknownCommandCode p) s = execUnknownCommandCode p s := rfl

section
variable {s : State} {p : PkgNo} {c : Ctx} {g : BitVec 16}

/-! ### The command that waits -/

section
variable {code : Nat} {f : Pkg → Except Word State} (hp : s.pendingCode p = some code)
include hp

theorem State.command_effect {z : State} (hf : f (s.pkg p) = .ok z) : s.command p code f = .next (z.endCommand p 0) := by
  rw [State.command, if_pos hp, hf]

theorem State.command_refused {status : Word} (hf : f (s.pkg p) = .error status) :
    s.command p code f = .next (s.endCommand p status) := by
  rw [State.command, if_pos hp, hf]

end

/-- R387: a code that no row of Table 18.4 has. -/
theorem exec_unknownCommandCode_refuses {n : Nat} (hp : s.pendingCode p = some n) (hn : ¬(1 ≤ n ∧ n ≤ 0x0B)) :
    exec (.unknownCommandCode p) s = .next (s.endCommand p 1) := by
  rw [exec_unknownCommandCode, execUnknownCommandCode, hp]
  exact if_neg hn

/-! ### Contexts -/

/-- R387: CTX.CREATE of an id that no context has. -/
theorem exec_ctxCreate_creates {id : CtxId} (hp : s.pendingCode p = some 0x01) (ha : ctxArg ((s.pkg p).mail 1) = some id)
    (hn : s.ctx? p id = none) (hok : (s.pkg p).createOk = true) :
    let y := s.rackKeysOf p (fun _ => true)
    let c := y.newCtx (s.pkg p) id
    let block := fun (n : Nat) => decide (c.syncBase ≤ n) && decide (n < c.syncBase + c.syncCount)
    exec (.ctxCreate p) s = .next (((y.modPkg p (fun k => { (k.holdImage id (y.pick 5 2 == 1)) with
      sync := kfilter (fun n => !block n) k.sync, mirror := kfilter (fun n => !block n) k.mirror,
      mirrorQ := k.mirrorQ.filter (fun x => !block x.1) })).putCtx p c).endCommand p 0) := by
  intro y c block
  rw [exec_ctxCreate]
  refine State.command_effect hp ?_
  simp only [ha, hn, hok]
  rfl

theorem exec_ctxEnd_ends (hp : s.pendingCode p = some 0x02) (hc : s.ctxOf p ((s.pkg p).mail 1) = some c) :
    exec (.ctxEnd p) s = .next (((s.endCtx c.id).report p ⟨some c.id, 0, .command⟩).endCommand p 0) := by
  rw [exec_ctxEnd]
  refine State.command_effect hp ?_
  rw [hc]
  exact congrArg _ (s.failCtxs_cons 0 .command c.id [])

theorem exec_ctxEnd_refuses (hp : s.pendingCode p = some 0x02) (hc : s.ctxOf p ((s.pkg p).mail 1) = none) :
    exec (.ctxEnd p) s = .next (s.endCommand p 2) := by
  rw [exec_ctxEnd]
  refine State.command_refused hp ?_
  rw [hc]
  rfl

/-! ### Queues and tokens -/

/-- What Table 18.4 asks of the arguments of QUEUE.OPEN beside the context. -/
structure Pkg.QueueArgs (k : Pkg) : Prop where
  queue : (k.mail 1).toNat ≤ 63
  priority : (k.mail 3).toNat ≤ 7
  shallow : 4 ≤ (k.mail 5).toNat
  deep : (k.mail 5).toNat ≤ 16
  ring : rangeOk (k.mail 4) 128 (2 ^ (k.mail 5).toNat * 128) = true
  tail : rangeOk (k.mail 6) 8 8 = true
  head : rangeOk (k.mail 7) 8 8 = true
  apart : (k.mail 6).toNat / 64 ≠ (k.mail 7).toNat / 64

theorem Pkg.QueueArgs.accepted {k : Pkg} (h : k.QueueArgs) :
    ¬((63#64).ult (k.mail 1) || (7#64).ult (k.mail 3) || decide ((k.mail 5).toNat < 4) || decide (16 < (k.mail 5).toNat) ||
      !rangeOk (k.mail 4) 128 (2 ^ (k.mail 5).toNat * 128) || !rangeOk (k.mail 6) 8 8 || !rangeOk (k.mail 7) 8 8 ||
      (k.mail 6).toNat / 64 == (k.mail 7).toNat / 64) = true := by
  simp [BitVec.ult, h.queue, h.priority, h.shallow, h.deep, h.ring, h.tail, h.head, h.apart]

/-- R382: QUEUE.OPEN of a queue that is closed and not in reset. -/
theorem exec_queueOpen_opens (hp : s.pendingCode p = some 0x03) (hc : s.ctxOf p ((s.pkg p).mail 2) = some c)
    (ha : (s.pkg p).QueueArgs) (hclosed : ((s.pkg p).queues.get (Fin.ofNat 64 ((s.pkg p).mail 1).toNat)).open_ = false)
    (hreset : (s.pkg p).resetting.contains (((s.pkg p).mail 1).extractLsb' 0 6) = false) :
    let m := fun (i : Nat) => (s.pkg p).mail i
    let y := s.rackKeys (keysFrom (cmdKey p (m 7).toNat) 8)
    exec (.queueOpen p) s = .next ((y.modQueue p ((m 1).extractLsb' 0 6) (fun _ =>
      { open_ := true, ctx := c.id, pri := (m 3).extractLsb' 0 3, ring := (m 4).toNat, k := (m 5).toNat,
        tailAt := (m 6).toNat, headAt := (m 7).toNat, head := (y.hostDword (cmdKey p (m 7).toNat)).toNat,
        appended := [], done := [] })).endCommand p 0) := by
  intro m y
  rw [exec_queueOpen]
  refine State.command_effect hp ?_
  simp only [hc]
  rw [if_neg ha.accepted, if_neg (by rw [hclosed, hreset]; decide)]

section
variable (hp : s.pendingCode p = some 0x04) (hq : ((s.pkg p).mail 1).toNat ≤ 63)
include hp hq

/-- R302: the first turn of QUEUE.RESET ends the work, and leaves the command waiting. -/
theorem exec_queueReset_begins (hr : (s.pkg p).resetting.contains (((s.pkg p).mail 1).extractLsb' 0 6) = false)
    (ho : (s.queue p (((s.pkg p).mail 1).extractLsb' 0 6)).open_ = true) :
    exec (.queueReset p) s = .next ((s.resetQueue p (((s.pkg p).mail 1).extractLsb' 0 6)).modPkg p (fun k =>
      { k with resetting := k.resetting ++ [((s.pkg p).mail 1).extractLsb' 0 6] })) := by
  simp only [exec_queueReset, execQueueReset, if_pos hp]
  rw [if_neg (by simpa [BitVec.ult] using hq), if_neg (by rw [hr]; decide), if_neg (by rw [ho]; decide)]

/-- R302: a later turn reports completion. -/
theorem exec_queueReset_completes (hr : (s.pkg p).resetting.contains (((s.pkg p).mail 1).extractLsb' 0 6) = true) :
    exec (.queueReset p) s = .next ((s.modPkg p (fun k =>
      { k with resetting := k.resetting.filter (fun x => x != ((s.pkg p).mail 1).extractLsb' 0 6) })).endCommand p 0) := by
  simp only [exec_queueReset, execQueueReset, if_pos hp]
  rw [if_neg (by simpa [BitVec.ult] using hq), if_pos hr]

end

/-- R301: CANCEL raises the token of a graph; no graph has number 0. -/
theorem exec_cancel_raises (hp : s.pendingCode p = some 0x05) (hc : s.ctxOf p ((s.pkg p).mail 1) = some c)
    (hg : graphArg ((s.pkg p).mail 2) = some g) (hne : g ≠ 0) :
    exec (.cancel p) s = .next ((s.putCtx p (c.raise s.now g)).endCommand p 0) := by
  rw [exec_cancel]
  refine State.command_effect hp ?_
  simp only [hc, hg, if_neg hne]

theorem exec_cancelClr_clears (hp : s.pendingCode p = some 0x06) (hc : s.ctxOf p ((s.pkg p).mail 1) = some c)
    (hg : graphArg ((s.pkg p).mail 2) = some g) :
    exec (.cancelClr p) s = .next ((s.putCtx p (c.clearTokens g)).endCommand p 0) := by
  rw [exec_cancelClr]
  refine State.command_effect hp ?_
  simp only [hc, hg]

/-! ### Translation and the window -/

/-- R274: TLB.INV of a range of pages. -/
theorem exec_tlbInv_invalidates (hp : s.pendingCode p = some 0x07) (hc : s.ctxOf p ((s.pkg p).mail 1) = some c)
    (hr : ((s.pkg p).mail 2).toNat + ((s.pkg p).mail 3).toNat ≤ 2 ^ 40) :
    let y := s.rackKeysOf p (fun _ => true)
    exec (.tlbInv p) s = .next ((y.modCtx p c.id (fun c => { c with
      ptSnaps := ⟨((s.pkg p).mail 2).toNat, ((s.pkg p).mail 3).toNat, y.hostMem, y.nextId⟩ :: c.ptSnaps })).endCommand p 0) := by
  intro y
  rw [exec_tlbInv]
  refine State.command_effect hp ?_
  simp only [hc]
  exact if_neg (Nat.not_lt.mpr hr)

/-- R277: the pages that a good WIN.SET names. -/
theorem State.winArgs_good (hc : s.ctxOf p ((s.pkg p).mail 1) = some c)
    (hr : ((s.pkg p).mail 2).toNat + ((s.pkg p).mail 3).toNat ≤ 131072)
    (ha : rangeOk ((s.pkg p).mail 4) 8 (8 * ((s.pkg p).mail 3).toNat) = true) :
    s.winArgs p = some (c, ((s.pkg p).mail 2).toNat, ((s.pkg p).mail 3).toNat) := by
  rw [State.winArgs, hc, Option.bind_some]
  exact if_neg (by simp [ha, hr])

section
variable {first n : Nat} (hp : s.pendingCode p = some 0x08) (ha : s.winArgs p = some (c, first, n))
include hp ha

/-- R277: WIN.SET waits for the accesses under the entries that it replaces (log 90). -/
theorem exec_winSet_waits (hb : s.winBusy p c first n = true) : exec (.winSet p) s = .next s := by
  simp only [exec_winSet, execWinSet, if_pos hp, ha, if_pos hb]

/-- R277: WIN.SET writes every entry, or none. -/
theorem exec_winSet_decides (hb : s.winBusy p c first n = false) :
    let y := s.rackKeys (keysFrom (cmdKey p ((s.pkg p).mail 4).toNat) (8 * n))
    let es := (List.range n).map (fun i => y.hostDword (cmdKey p ((s.pkg p).mail 4).toNat + 8 * i))
    exec (.winSet p) s = if es.all winEntryOk then
      .next (((y.rackKeysOf p (c.keyInPages first n)).modCtx p c.id (fun c =>
        { c with win := es.zipIdx.foldl (fun w e => kset 0 w (first + e.2) e.1) c.win })).endCommand p 0)
    else .next (y.endCommand p 2) := by
  intro y es
  simp only [exec_winSet, execWinSet, if_pos hp, ha]
  exact if_neg (by rw [hb]; decide)

end

/-! ### Firmware images -/

/-- The bytes of host memory that FW.STAGE names. -/
def State.imageToStage (s : State) (p : PkgNo) : List Byte :=
  s.hostValue (keysFrom (hostKey ((s.pkg p).mail 1).toNat) ((s.pkg p).mail 2).toNat)

section
variable (hp : s.pendingCode p = some 0x09)
include hp

/-- R390: FW.STAGE of an image of host memory that verifies. -/
theorem exec_fwStage_stages (hr : ((s.pkg p).mail 1).toNat + ((s.pkg p).mail 2).toNat ≤ 2 ^ 52)
    (hok : imageOk (s.imageToStage p) = true) :
    exec (.fwStage p) s = .next ((s.modPkg p (fun k => k.putAlternate (s.imageToStage p))).endCommand p 0) := by
  rw [exec_fwStage]
  exact State.command_effect hp ((if_neg (Nat.not_lt.mpr hr)).trans (if_pos hok))

theorem exec_fwStage_refuses
    (h : ¬((s.pkg p).mail 1).toNat + ((s.pkg p).mail 2).toNat ≤ 2 ^ 52 ∨ imageOk (s.imageToStage p) = false) :
    exec (.fwStage p) s = .next (s.endCommand p 2) := by
  rw [exec_fwStage]
  refine State.command_refused hp ?_
  by_cases hr : 2 ^ 52 < ((s.pkg p).mail 1).toNat + ((s.pkg p).mail 2).toNat
  · exact if_pos hr
  · have bad := h.resolve_left (not_not.mpr (Nat.not_lt.mp hr))
    exact (if_neg hr).trans (if_neg (Bool.eq_false_iff.mp bad))

end

section
variable (hp : s.pendingCode p = some 0x0A)
include hp

theorem exec_fwActivate_busy (hc : (s.pkg p).ctxs ≠ []) : exec (.fwActivate p) s = .next (s.endCommand p 3) := by
  rw [exec_fwActivate]
  exact State.command_refused hp (if_pos (by simpa using hc))

/-- R390: without a context an alternate slot that verifies boots on trial. -/
theorem exec_fwActivate_tries (hc : (s.pkg p).ctxs = []) (hok : imageOk (s.pkg p).alternate = true) :
    exec (.fwActivate p) s =
      .next ((s.modPkg p (fun k => { k with trial := true, trialAt := s.now })).endCommand p 0) := by
  rw [exec_fwActivate]
  exact State.command_effect hp ((if_neg (by simp [hc])).trans (if_pos hok))

/-- R390: one that does not is reverted at once (log 77). -/
theorem exec_fwActivate_reverts (hc : (s.pkg p).ctxs = []) (hbad : imageOk (s.pkg p).alternate = false) :
    exec (.fwActivate p) s = .next ((s.modPkg p Pkg.revertTrial).endCommand p 0) := by
  rw [exec_fwActivate]
  exact State.command_effect hp ((if_neg (by simp [hc])).trans (if_neg (by rw [hbad]; decide)))

end

/-! ### HOST.SVC -/

/-- The caller of a service runs as team 0, which no placed team is. -/
theorem State.issuing?_hostCaller (k : Pkg) (h : ∀ u ∈ s.teams, u.uid ≠ 0) :
    ({ s with teams := s.teams ++ [s.hostCaller k p c], cur := 0 } : State).issuing? = some (s.hostCaller k p c) := by
  have others : s.teams.find? (fun t => t.uid == 0) = none := by simpa using h
  have caller : ({ s with teams := s.teams ++ [s.hostCaller k p c], cur := 0 } : State).curTeam? =
      some (s.hostCaller k p c) := by
    rw [State.curTeam?, State.team?, List.find?_append, others]
    rfl
  rw [State.issuing?, caller]
  exact if_pos rfl

/-- A front instruction of a running team never stops the machine. -/
theorem State.exists_front_next {t : Team} (hi : s.issuing? = some t) (i : Instr) (f : Team → Run) :
    ∃ z, s.front i f = .next z := by
  cases hw : t.mustWait i with
  | true => exact ⟨s, State.front_waits f hi hw⟩
  | false =>
    rw [State.front_issues f ⟨hi, hw⟩]
    cases f t <;> exact ⟨_, rfl⟩

/-- R388: every service is a front instruction. -/
theorem exists_runService_next {t : Team} (hi : s.issuing? = some t) (n : Nat) : ∃ z, runService n s = .next z := by
  unfold runService
  split <;> exact State.exists_front_next hi _ _

theorem exec_hostSvc_runs {z : State} (hp : s.pendingCode p = some 0x0B) (hc : s.ctxOf p ((s.pkg p).mail 1) = some c)
    (hn : hostSvcOk ((s.pkg p).mail 2).toNat = true)
    (hz : runService ((s.pkg p).mail 2).toNat { s with teams := s.teams ++ [s.hostCaller (s.pkg p) p c], cur := 0 } = .next z) :
    exec (.hostSvc p) s = .next (z.serviceEnd p s.cur) := by
  simp only [exec_hostSvc, execHostSvc, if_pos hp, hc, hn, hz]
  rfl

@[simp] theorem State.modPkg_pkg (s : State) (p : PkgNo) (f : Pkg → Pkg) : (s.modPkg p f).pkg p = f (s.pkg p) := by
  rw [State.pkg, State.modPkg_pkgs, kget_kput, if_pos rfl]

/-- R388: the mailbox after a service of the host that has ended. -/
theorem State.serviceEnd_mail {z : State} {u : Team} (cur : Nat) (hu : z.team? 0 = some u) (hpc : u.pc ≠ 0) :
    (((z.serviceEnd p cur).pkg p).mail 0).getLsbD 63 = false ∧ ((z.serviceEnd p cur).pkg p).mail 1 = 0 ∧
      ((z.serviceEnd p cur).pkg p).mail 2 = u.rs 1 := by
  simp only [State.serviceEnd, hu, if_neg hpc, State.endCommand, State.modPkg_pkg]
  simp [Pkg.mail, Vector.get_eq_getElem]

end

/-- Settles O56, clause by clause: each command that waits has the effect, or the status, that its lemma above gives. -/
theorem hostCommands : Obligations.HostCommands := by
  unfold Obligations.HostCommands
  intro s p c id g k m _
  refine ⟨exec_ctxCreate_creates, exec_ctxEnd_ends, exec_ctxEnd_refuses,
    fun hp hc hq hpri hlo hhi hring htail hhead hapart =>
      exec_queueOpen_opens hp hc ⟨hq, hpri, hlo, hhi, hring, htail, hhead, hapart⟩,
    fun hp hq => ⟨exec_queueReset_begins hp hq, exec_queueReset_completes hp hq⟩, exec_cancel_raises, exec_cancelClr_clears,
    exec_tlbInv_invalidates, fun hp hc hr ha => ?winSet,
    fun hp => ⟨exec_fwStage_stages hp, exec_fwStage_refuses hp⟩,
    fun hp => ⟨exec_fwActivate_busy hp, exec_fwActivate_tries hp, exec_fwActivate_reverts hp⟩,
    fun hp hc hn hteams => ?hostSvc, fun n => exec_unknownCommandCode_refuses⟩
  case winSet =>
    have args := State.winArgs_good hc hr ha
    have decides := exec_winSet_decides hp args
    exact ⟨exec_winSet_waits hp args, fun hb hok => (decides hb).trans (if_pos hok),
      fun hb hbad => (decides hb).trans (if_neg (by rw [hbad]; decide))⟩
  case hostSvc =>
    obtain ⟨z, hz⟩ := exists_runService_next (State.issuing?_hostCaller k hteams) (m 2).toNat
    exact ⟨z, hz, exec_hostSvc_runs hp hc hn hz, fun u => z.serviceEnd_mail s.cur⟩

end Sys2Proof.Machine
end

/-!
Tiles: geometry, trit codes as they are read (R12), sparse tables that are built from a list, and what a tile shows that an
instruction has written over the extent (R146).
-/

section
namespace Sys2Proof.Machine

/-! ### Geometry -/

theorem Geo.packed_iff (g : Geo) : g.packed = true ↔ g.layout = 3 := beq_iff_eq

theorem Geo.mx_iff (g : Geo) : g.mx = true ↔ g.layout = 2 := beq_iff_eq

theorem mem_coords {rows cols : Nat} {rc : Nat × Nat} : rc ∈ coords rows cols ↔ rc.1 < rows ∧ rc.2 < cols := by
  simp only [coords, List.mem_flatMap, List.mem_map, List.mem_range]
  constructor
  · rintro ⟨r, hr, c, hc, rfl⟩
    exact ⟨hr, hc⟩
  · exact fun ⟨hr, hc⟩ => ⟨rc.1, hr, rc.2, hc, rfl⟩

/-! ### Trit codes (R12) -/

theorem tritFix_le (et : BitVec 5) (v : Nat) : tritFix et v ≤ v := by
  unfold tritFix
  split
  · exact Nat.zero_le v
  · exact le_refl v

theorem tritFix_zero (et : BitVec 5) : tritFix et 0 = 0 := Nat.le_zero.mp (tritFix_le et 0)

theorem tritFix_of_ne {et : BitVec 5} (h : et ≠ 0x0A) (v : Nat) : tritFix et v = v := if_neg (fun hc => h hc.1)

/-- Rewriting every listed value by a function that keeps the default. -/
theorem kget_map {α β : Type} (f : α → β) (d : α) (m : KMap α) (a : Nat) :
    kget (f d) (m.map (fun kv => (kv.1, f kv.2))) a = f (kget d m a) := by
  induction m with
  | nil => rfl
  | cons kv m ih => rw [List.map_cons, kget, kget, ih, apply_ite f]

theorem Tile.fixed_el (x : Tile) (r c : Nat) : x.fixed.el r c = tritFix x.geo.etype (x.el r c) := by
  unfold Tile.fixed
  split
  next h =>
    have hmap := kget_map (fun v : Word => BitVec.ofNat 64 (tritFix x.geo.etype v.toNat)) 0 x.data (r * x.geo.cols + c)
    rw [show BitVec.ofNat 64 (tritFix x.geo.etype (0 : Word).toNat) = 0 from congrArg (BitVec.ofNat 64) (tritFix_zero _)] at hmap
    rw [Tile.el, Tile.el, hmap]
    exact Nat.mod_eq_of_lt ((tritFix_le _ _).trans_lt (BitVec.isLt _))
  next h => exact (tritFix_of_ne h _).symm

/-! ### Tables built from a list -/

/-- What a table holds at a key after entries are written in turn: an entry of that key, or what stood there. -/
theorem kget_foldl_kset_mem {α : Type} [DecidableEq α] (d : α) (l : List (Nat × α)) (m : KMap α) (a : Nat) :
    (a, kget d (l.foldl (fun m kv => kset d m kv.1 kv.2) m) a) ∈ l ∨
      (∀ v, (a, v) ∉ l) ∧ kget d (l.foldl (fun m kv => kset d m kv.1 kv.2) m) a = kget d m a := by
  induction l generalizing m with
  | nil => exact .inr ⟨fun v => List.not_mem_nil, rfl⟩
  | cons kv l ih =>
    rw [List.foldl_cons]
    obtain hin | ⟨hout, heq⟩ := ih (kset d m kv.1 kv.2)
    · exact .inl (List.mem_cons_of_mem _ hin)
    · rw [heq, kget_kset]
      by_cases hk : a = kv.1
      · rw [if_pos hk, hk]
        exact .inl List.mem_cons_self
      · rw [if_neg hk]
        refine .inr ⟨fun v hv => ?_, rfl⟩
        obtain he | hl := List.mem_cons.mp hv
        · exact hk (congrArg Prod.fst he)
        · exact hout v hl

/-- A table reads at a key as the one value that its list has for it. -/
theorem kget_kmapOf_of_mem {α : Type} [DecidableEq α] {d v : α} {l : List (Nat × α)} {a : Nat} (hmem : (a, v) ∈ l)
    (hone : ∀ w, (a, w) ∈ l → w = v) : kget d (kmapOf d l) a = v := by
  obtain hin | ⟨hout, -⟩ := kget_foldl_kset_mem d l [] a
  · exact hone _ hin
  · exact absurd hmem (hout v)

theorem kget_kmapOf_of_not_mem {α : Type} [DecidableEq α] {d : α} {l : List (Nat × α)} {a : Nat} (h : ∀ v, (a, v) ∉ l) :
    kget d (kmapOf d l) a = d := by
  obtain hin | ⟨-, heq⟩ := kget_foldl_kset_mem d l [] a
  · exact absurd hin (h _)
  · exact heq

/-- Rows of `n` places: a place is determined by its number. -/
theorem place_inj {n r c r' c' : Nat} (hc : c < n) (hc' : c' < n) (h : r * n + c = r' * n + c') : r = r' ∧ c = c' := by
  have hcol : c = c' := by
    have := congrArg (· % n) h
    simpa [Nat.mul_add_mod', Nat.mod_eq_of_lt hc, Nat.mod_eq_of_lt hc'] using this
  subst hcol
  exact ⟨Nat.eq_of_mul_eq_mul_right (Nat.zero_lt_of_lt hc) (Nat.add_right_cancel h), rfl⟩

/-- A table of the places of rows, of which those within `rows` and `cols` are listed with the value `f`. -/
theorem kget_kmapOf_places {α β : Type} [DecidableEq α] {d : α} {f : β → α} {n rows cols : Nat} {v : Nat → Nat → β}
    {l : List (Nat × Nat × β)} (hcols : cols ≤ n) (hl : ∀ r c y, (r, c, y) ∈ l ↔ (r < rows ∧ c < cols) ∧ y = v r c)
    {r c : Nat} (hc : c < n) :
    kget d (kmapOf d (l.map (fun e => (e.1 * n + e.2.1, f e.2.2)))) (r * n + c) =
      if r < rows ∧ c < cols then f (v r c) else d := by
  have entry : ∀ w, (r * n + c, w) ∈ l.map (fun e => (e.1 * n + e.2.1, f e.2.2)) → (r < rows ∧ c < cols) ∧ w = f (v r c) := by
    intro w hw
    obtain ⟨⟨r', c', y⟩, he, heq⟩ := List.mem_map.mp hw
    obtain ⟨hplace, rfl⟩ := Prod.mk.inj heq
    obtain ⟨hin, rfl⟩ := (hl r' c' y).mp he
    obtain ⟨rfl, rfl⟩ := place_inj (hin.2.trans_le hcols) hc hplace
    exact ⟨hin, rfl⟩
  split
  next h =>
    exact kget_kmapOf_of_mem (List.mem_map.mpr ⟨(r, c, v r c), (hl r c _).mpr ⟨h, rfl⟩, rfl⟩) (fun w hw => (entry w hw).2)
  next h => exact kget_kmapOf_of_not_mem (fun w hw => h (entry w hw).1)

/-! ### What a written tile shows (R146) -/

theorem mem_map_coords {β : Type} {rows cols : Nat} {v : Nat → Nat → β} {r c : Nat} {y : β} :
    (r, c, y) ∈ (coords rows cols).map (fun rc => (rc.1, rc.2, v rc.1 rc.2)) ↔ (r < rows ∧ c < cols) ∧ y = v r c := by
  rw [List.mem_map]
  constructor
  · rintro ⟨rc, hrc, heq⟩
    cases heq
    exact ⟨mem_coords.mp hrc, rfl⟩
  · rintro ⟨hin, rfl⟩
    exact ⟨(r, c), mem_coords.mpr hin, rfl⟩

theorem Tile.write_data (d : Tile) (els : List (Nat × Nat × Nat)) (scs : List (Nat × Nat × Byte)) :
    (d.write els scs).data =
      kmapOf 0 (els.map (fun e => (e.1 * d.geo.cols + e.2.1, BitVec.ofNat 64 (tritFix d.geo.etype e.2.2)))) := by
  rw [Tile.write, Tile.loaded, List.map_map]
  rfl

/-- An instruction that writes each element of an extent within the tile leaves just those, and zeros elsewhere. -/
theorem Tile.shows_write (d : Tile) {els : List (Nat × Nat × Nat)} (scs : List (Nat × Nat × Byte)) {er ec : Nat}
    {v : Nat → Nat → Nat} (hec : ec ≤ d.geo.cols) (hels : ∀ r c y, (r, c, y) ∈ els ↔ (r < er ∧ c < ec) ∧ y = v r c)
    (hv : ∀ r c, v r c < 2 ^ 64) : (d.write els scs).Shows er ec (fun r c => tritFix d.geo.etype (v r c)) := by
  refine ⟨rfl, fun r c _ hc => ?_⟩
  rw [Tile.el, Tile.write_data]
  refine (congrArg BitVec.toNat (kget_kmapOf_places (f := fun y => BitVec.ofNat 64 (tritFix d.geo.etype y)) hec hels hc)).trans ?_
  split
  · exact Nat.mod_eq_of_lt ((tritFix_le _ _).trans_lt (hv r c))
  · rfl

end Sys2Proof.Machine
end

/-!
O30, O33 to O35: element-wise operations, TPACK and TUNPK, conversions, the scale of a segment.
-/

section
namespace Sys2Proof.Machine

section
variable {s : State} {t : Team} {i : Instr} {td : TReg} {ta tb : Src}

/-- R176, R177: an element-wise operation has the effect that its function has on the elements of its sources. -/
theorem State.tileDone_ew {g : TIn → EClass → Nat → Nat → Nat → Env → Nat × Env} {E : TIn → State}
    (hi : i.isTileSide = true) (hc : isCopy i = false) (hrun : ∀ x, tileRun i t.wordSeq x = ewRun x td ta tb (g x))
    (hE : ∀ x : TIn, E x = x.fillWith td (fun r c =>
      g x (cls (x.rd td).geo.etype) ((x.rd ta.t).el r c) ((x.rd tb.t).el r c) ((x.rd td).el r c))) :
    s.TileDone t i [ta.t, tb.t] (fun _ => True) E := by
  refine State.tileDone_of (f := fun x => .done (E x)) hi hc (fun x => ?_) (fun x _ _ => rfl)
    (fun x _ _ hx => hE x ▸ hx.put td _ _)
  rw [hrun x, ewRun, TIn.live, TIn.live, hE x]
  rfl

end

/-- Settles O30: each operation by `State.tileDone_ew`. -/
theorem elementWise : Obligations.ElementWise := by
  unfold Obligations.ElementWise
  intro s t sat rm cc td ta tb k a b d arith ok
  refine ⟨?add, ?sub, ?mul, ?fma, ?max, ?min, ?cmp, ?sel⟩
  case add => exact State.tileDone_ew (g := fun x => ewArith 0 sat (resolveRm rm x.c.drm)) rfl rfl (fun _ => rfl) (fun _ => rfl)
  case sub => exact State.tileDone_ew (g := fun x => ewArith 1 sat (resolveRm rm x.c.drm)) rfl rfl (fun _ => rfl) (fun _ => rfl)
  case mul => exact State.tileDone_ew (g := fun x => ewArith 2 sat (resolveRm rm x.c.drm)) rfl rfl (fun _ => rfl) (fun _ => rfl)
  case fma => exact State.tileDone_ew (g := fun x => ewArith 3 sat (resolveRm rm x.c.drm)) rfl rfl (fun _ => rfl) (fun _ => rfl)
  case max => exact State.tileDone_ew (g := fun _ k a b _ => ewMinMax true k a b) rfl rfl (fun _ => rfl) (fun _ => rfl)
  case min => exact State.tileDone_ew (g := fun _ k a b _ => ewMinMax false k a b) rfl rfl (fun _ => rfl) (fun _ => rfl)
  case cmp => exact State.tileDone_ew (g := fun _ k a b _ => ewCmp cc.toNat k a b) rfl rfl (fun _ => rfl) (fun _ => rfl)
  case sel =>
    exact State.tileDone_ew
      (g := fun x _ a b d e => (if nonZero (x.rd td).geo.etype d then a else b, e)) rfl rfl (fun _ => rfl) (fun _ => rfl)

/-- Settles O33: TPACK stores its elements where none stands past the tile's values. -/
theorem packAndUnpack : Obligations.PackAndUnpack := by
  unfold Obligations.PackAndUnpack
  intro s t td ta ty all els part
  refine ⟨?pack, ?unpack⟩
  case pack =>
    refine State.tileDone_of rfl rfl (fun x => by rw [tileRun, runTpack]) (fun x _ hfits => ?_) (fun x _ _ hx => hx.put td _ _)
    have hnone : (els x)[(x.rd td).geo.nnz.toNat]? = none := List.getElem?_eq_none hfits
    simp only [els, all, ty] at hnone
    simp only [hnone]
    rfl
  case unpack =>
    refine State.tileDone_of rfl rfl (fun x => by rw [tileRun, runTunpk]) (fun x _ _ => ?_) (fun x _ _ hx => hx.put td _ _)
    rfl

/-- Settles O34: each run computes just what the statement says; TDQT and TQNT work on floating-point types. -/
theorem convertAndQuantise : Obligations.ConvertAndQuantise := by
  unfold Obligations.ConvertAndQuantise
  intro s t rm nsat sat sc td ta mode
  refine ⟨?cvt, fun f g => ?dqt, fun f g => ?qnt⟩
  case cvt =>
    refine State.tileDone_of rfl rfl (fun x => by rw [tileRun, runTcvt]) (fun x _ _ => ?_) (fun x _ _ hx => hx.put td _ _)
    rfl
  case dqt =>
    refine State.tileDone_of rfl rfl (fun x => by rw [tileRun, runTdqt]) (fun x _ ⟨hf, hg⟩ => ?_)
      (fun x _ _ hx => hx.put td _ _)
    simp only [hf, hg]
    rfl
  case qnt =>
    refine State.tileDone_of rfl rfl (fun x => by rw [tileRun, runTqnt]) (fun x _ ⟨hf, hg⟩ => ?_)
      (fun x _ _ hx => hx.put td _ _)
    simp only [hf, hg]
    rfl

theorem clampInt_fst {lo hi : Int} (h : lo ≤ hi) (x : Int) : (clampInt lo hi x).1 = max lo (min hi x) := by
  unfold clampInt
  split
  · omega
  · split <;> omega

/-- Settles O35: the clamp of an integer is its least and greatest bound. -/
theorem scaleOfSegment : Obligations.ScaleOfSegment := by
  unfold Obligations.ScaleOfSegment
  intro emax sg m e
  refine ⟨fun hm => ?_, rfl⟩
  rw [scaleCode, if_neg hm, clampInt_fst (by decide), Int.toNat_of_nonneg (le_max_left _ _), floorLog2]

end Sys2Proof.Machine
end

/-!
O36: TDECL, TREL, TEXT, QBIND, QREL and TWAIT.
-/

section
namespace Sys2Proof.Machine

theorem Team.sameTileSide_freeStream (t : Team) (n : TReg) : t.SameTileSide (t.freeStream n) := by
  unfold Team.freeStream
  split
  · split
    · exact ⟨rfl, rfl, rfl, rfl, rfl, rfl, rfl⟩
    · exact .refl t
  · exact .refl t

theorem Team.sameTileSide_rebind (t : Team) (n : TReg) (x : Option Tile) (v : Vector (Option Stream) 8) :
    t.SameTileSide { t.putTile n x with q := v } := ⟨rfl, rfl, rfl, rfl, rfl, rfl, rfl⟩

/-- Settles O36: each run computes just what the statement says, where what it names is bound. -/
theorem bindings : Obligations.Bindings := by
  unfold Obligations.Bindings
  intro s t td h ta q all tag
  refine ⟨fun g => ?decl, ?rel, fun a => ?text, fun a => ?qbind, fun st => ?qrel, ?wait⟩
  case decl =>
    refine State.tileOne_of rfl rfl (fun x _ hg => ?_)
      (fun x _ _ hx => hx.putTeam ((x.t.sameTileSide_freeStream td).trans (Team.sameTileSide_putTile ..)))
    rw [tileRun, runTdecl, hg]
  case rel =>
    exact State.tileOne_of rfl rfl (fun x _ _ => rfl)
      (fun x _ _ hx => hx.putTeam ((x.t.sameTileSide_freeStream td).trans (Team.sameTileSide_putTile ..)))
  case text =>
    refine State.tileOne_of rfl rfl (fun x _ ha => ?_) (fun x _ _ hx => hx.putTeam (x.t.sameTileSide_push _))
    simp only [tileRun, runText, ha, Option.getD_some, Geo.packed, beq_iff_eq]
    rfl
  case qbind =>
    refine State.tileOne_of rfl rfl (fun x _ ha => ?_) (fun x _ _ hx => hx.putTeam (x.t.sameTileSide_rebind ..))
    rw [tileRun, runQbind, ha]
  case qrel =>
    refine State.tileOne_of rfl rfl (fun x _ hst => ?_) (fun x _ _ hx => hx.putTeam (x.t.sameTileSide_rebind ..))
    rw [tileRun, runQrel, hst]
  case wait =>
    refine State.tileOne_of rfl rfl (fun x hx _ => ?_) (fun x ho _ hx => ?_)
    · rw [tileRun, runTwait, hx.uid]
    · rw [← ho.uid]
      exact ((hx.cfence .copy .team).cfence .copy .gath).cfence .copy .mload

end Sys2Proof.Machine
end

/-!
Tile loads: checks that all pass, a bitmap-sparse record that no check and no cut interrupts (R167), a first-fault load that
meets no fault or stops before one (R158).
-/

section
namespace Sys2Proof.Machine

/-! ### Runs and checks -/

section
variable {x : TIn}

/-- A run over a non-empty extent that uses no stream (R164). -/
theorem TIn.live_nil {f : TIn → Run} {s' : State} (h : x.c.live = true) (hf : f x = .done s') : x.live [] f = .done s' := by
  rw [TIn.live_done h rfl hf, State.modTeam_consume_nil]

/-- Checks pass all together where each of them passes. -/
theorem allChk_eq_ok {α : Type} {l : List (Chk α)} {ys : List α} : allChk l = .ok ys ↔ l = ys.map .ok := by
  induction l generalizing ys with
  | nil => cases ys <;> simp [allChk, eq_comm]
  | cons y l ih =>
    constructor
    · intro h
      obtain ⟨a, rfl, h⟩ := exists_of_bind_eq_ok h
      obtain ⟨as, has, h⟩ := exists_of_bind_eq_ok (x := allChk l) h
      cases h
      rw [ih.mp has, List.map_cons]
    · intro h
      obtain ⟨a, as, rfl, rfl, has⟩ := List.map_eq_cons_iff.mp h.symm
      simp only [allChk, ih.mpr has.symm]
      rfl

/-- Checks that pass are as good where each names the element that it is of. -/
theorem allChk_map_atEl {α β : Type} {tn : Option TReg} {h : Handle} {g : β → Chk α} {ks : List α}
    (p : β → Nat × Nat) {l : List β} (hok : allChk (l.map g) = .ok ks) :
    allChk (l.map (fun b => atEl tn h (p b).1 (p b).2 (g b))) = .ok ks := by
  rw [allChk_eq_ok] at hok ⊢
  induction l generalizing ks with
  | nil => exact hok
  | cons b l ih =>
    obtain ⟨a, as, rfl, hb, has⟩ := List.map_eq_cons_iff.mp hok.symm
    rw [List.map_cons, ih has.symm, ← hb]
    rfl

/-- Checks that all pass are cut nowhere. -/
theorem cutChk_of_allChk {α β : Type} {g : β → Chk α} {ks : List α} (ff : Bool) (p : β → Nat × Nat) {l : List β}
    (hok : allChk (l.map g) = .ok ks) : cutChk ff (l.map (fun b => (p b, g b))) = .ok (ks, none) := by
  rw [allChk_eq_ok] at hok
  induction l generalizing ks with
  | nil =>
    cases List.map_eq_nil_iff.mp hok.symm
    rfl
  | cons b l ih =>
    obtain ⟨a, as, rfl, hb, has⟩ := List.map_eq_cons_iff.mp hok.symm
    simp only [List.map_cons, ← hb, cutChk, ih has.symm]
    rfl

/-! ### What loads leave of the team -/

theorem TIn.Leaves.loadOf (hx : x.Leaves x.s) (path : Path) (td : TReg) (es : List ElSite) :
    x.Leaves (Machine.loadEls x path td es) := by
  simp only [Machine.loadEls]
  have hput := fun y e => (x.t.sameTileSide_putTile td y).trans (Team.sameTileSide_applyEnv _ e)
  split
  · exact (hx.of_teams (readSegs_teams ..)).putTeam (hput _ _)
  · exact (hx.of_teams (readEls_teams ..)).putTeam (hput _ _)

theorem readBytes_teams (path : Path) (uid : Nat) (ks : List Nat) (s : State) :
    (readBytes path uid ks s).2.teams = s.teams := by
  induction ks generalizing s with
  | nil => rfl
  | cons k ks ih =>
    rw [readBytes]
    split
    · rfl
    next t _ => exact (ih _).trans (State.load_teams s t path _)

theorem TIn.Leaves.readBytes {uid : Nat} {path : Path} {ks : List Nat} {bs : List Byte} {s s' : State} (h : x.Leaves s)
    (hread : readBytes path uid ks s = (bs, s')) : x.Leaves s' := by
  have hteams := readBytes_teams path uid ks s
  rw [hread] at hteams
  exact h.of_teams hteams

/-! ### Bitmap-sparse records (R167) -/

/-- The positions of a bitmap-sparse record's set bits. -/
def Shape.setOf (d : Shape) (bm : List Byte) : List (Nat × Nat) := setBits d.sparseRows (d.sz 0) d.mapRow bm

/-- The elements that a bitmap and values give. -/
def Shape.storedEls (d : Shape) (bm vb : List Byte) : List (Nat × Nat × Nat) :=
  (d.setOf bm).zipIdx.map (fun p => (p.1.1, p.1.2, bytesToNat vb / 2 ^ (p.2 * ebits d.etype) % 2 ^ ebits d.etype))

/-- The reads of a bitmap-sparse record, bitmap then values, meet no fault, and as many bits are set as it has values. -/
structure TIn.ReadsSparse (x : TIn) (d : Shape) (mk vk : List (List Nat)) (bm vb : List Byte) (s1 s2 : State) : Prop where
  bitmapOk : allChk ((List.range (d.sparseRows * d.mapRow)).map (x.sparseByte d .read .team)) = .ok mk
  bitmap : readBytes .team x.t.uid mk.flatten x.s = (bm, s1)
  count : (d.setOf bm).length = d.nnz.toNat
  valuesOk : allChk ((List.range (((d.setOf bm).length * ebits d.etype + 7) / 8)).map
    (fun b => x.sparseByte d .read .team (d.sparseRows * d.mapRow + b))) = .ok vk
  values : readBytes .team x.t.uid vk.flatten s1 = (vb, s2)

variable {d : Shape} {mk vk : List (List Nat)} {bm vb : List Byte} {s1 s2 : State}

/-- R167, R158: with no fault met a bitmap-sparse record is read whole, by a first-fault load too. -/
theorem readSparse_whole (h : Handle) (tn : TReg) (ff : Bool) (hr : x.ReadsSparse d mk vk bm vb s1 s2) :
    readSparse x d h tn ff = .ok (d.storedEls bm vb, none, s2) := by
  obtain ⟨hmk, hbm, hn, hvk, hvb⟩ := hr
  have hbitmap := cutChk_of_allChk ff (sparseCoord (d.sparseRows * d.mapRow) d.mapRow (ebits d.etype) [])
    (allChk_map_atEl (tn := some tn) (h := h)
      (sparseCoord (d.sparseRows * d.mapRow) d.mapRow (ebits d.etype) []) hmk)
  have hvalues := cutChk_of_allChk ff
    (fun b => sparseCoord (d.sparseRows * d.mapRow) d.mapRow (ebits d.etype) (d.setOf bm) (d.sparseRows * d.mapRow + b))
    (allChk_map_atEl (tn := some tn) (h := h)
      (fun b => sparseCoord (d.sparseRows * d.mapRow) d.mapRow (ebits d.etype) (d.setOf bm) (d.sparseRows * d.mapRow + b))
      hvk)
  have hmore : (d.setOf bm)[d.nnz.toNat]? = none := List.getElem?_eq_none hn.le
  have hless : ¬(d.setOf bm).length < d.nnz.toNat := by omega
  simp only [Shape.setOf] at hvalues hmore hless
  simp only [readSparse, hbitmap, hbm, bind, Except.bind, keepsEl, List.filter_true, hmore, hless, Option.isNone_none,
    Bool.and_false, decide_false, Bool.false_eq_true, if_false, hvalues, hvb, Option.isSome_none]
  rfl

/-- The state after a load of a bitmap-sparse record whose elements are `els`, read from `x.s` (R167). -/
def TIn.loadSparse (x : TIn) (td : TReg) (els : List (Nat × Nat × Nat)) (s : State) : State :=
  ({ x with s } : TIn).put td (if (x.rd td).geo.packed then (x.rd td).writePacked els else (x.rd td).loaded els []) x.t.env

theorem runSparse_whole {h : Handle} (td : TReg) (ff : Bool) (hr : x.ReadsSparse (x.rcd h) mk vk bm vb s1 s2) :
    runSparse x td h ff = .ok (x.loadSparse td ((x.rcd h).storedEls bm vb) s2, none) := by
  simp only [runSparse, readSparse_whole h td ff hr]
  rfl

theorem TIn.ReadsSparse.leaves (hr : x.ReadsSparse d mk vk bm vb s1 s2) (hx : x.Leaves x.s) (td : TReg)
    (els : List (Nat × Nat × Nat)) : x.Leaves (x.loadSparse td els s2) :=
  ((hx.readBytes hr.bitmap).readBytes hr.values).putTeam
    ((x.t.sameTileSide_putTile td _).trans (Team.sameTileSide_applyEnv ..))

/-! ### First-fault loads (R158) -/

theorem firstFault_map_ok (es : List ElSite) (rest : List (Chk ElSite)) :
    firstFault (es.map .ok ++ rest) = (es ++ (firstFault rest).1, (firstFault rest).2) := by
  induction es with
  | nil => rfl
  | cons e es ih => rw [List.map_cons, List.cons_append, firstFault, ih]; rfl

theorem Team.sameTileSide_truncated (t : Team) (ec : Nat) (cut : Cut) : t.SameTileSide (t.truncated ec cut) := by
  unfold Team.truncated
  split <;> exact ⟨rfl, rfl, rfl, rfl, rfl, rfl, rfl⟩

end

end Sys2Proof.Machine
end

/-!
O37: TLD, TGTH and TLDFF where no check fails.
-/

section
namespace Sys2Proof.Machine

/-- R146: over an empty extent a first-fault load of any other record does nothing. -/
theorem State.tileOne_tldff_empty {s : State} {t : Team} {td : TReg} {h : Handle} {sx : SReg} :
    s.TileOne t (.tldff td h sx) (fun x => (x.rcd h).sparse = false ∧ x.c.live = false) (fun x => x.s) := by
  refine State.tileOne_of rfl rfl (fun x _ ⟨hs, hempty⟩ => ?_) (fun x _ _ hx => hx)
  rw [tileRun, runTldff, hs]
  exact (if_neg Bool.false_ne_true).trans (TIn.live_empty hempty)

/-- Settles O37: loads over the extent by their runs, loads of bitmap-sparse records by `runSparse_whole`. -/
theorem tileLoads : Obligations.TileLoads := by
  unfold Obligations.TileLoads
  intro s t td ti h sx u kind es mk vk bm vb s1 s2 set w nb els reads fills
  have hreads : ∀ x : TIn, x.Of t → reads x → (x.rcd h).sparse = true ∧ x.ReadsSparse (x.rcd h) mk vk bm vb s1 s2 :=
    fun x ho ⟨hs, hmk, hbm, hn, hvk, hvb⟩ => ⟨hs, hmk, by rwa [ho.uid], hn, hvk, by rwa [ho.uid]⟩
  refine ⟨?ldEmpty, ?ld, ?gather, State.tileOne_tldff_empty, ?ldff, ?sparse, ?sparseFf⟩
  case ldEmpty =>
    refine State.tileOne_of rfl rfl (fun x _ ⟨hs, hempty⟩ => ?_) (fun x _ _ hx => hx)
    rw [tileRun, runTld, hs]
    exact (if_neg Bool.false_ne_true).trans (TIn.live_empty hempty)
  case ld =>
    refine State.tileOne_of rfl rfl (fun x _ ⟨hs, hlive, hok⟩ => ?_) (fun x _ _ hx => hx.loadOf ..)
    rw [tileRun, runTld, hs]
    refine (if_neg Bool.false_ne_true).trans (TIn.live_nil hlive ?_)
    rw [hok]
    rfl
  case gather =>
    refine State.tileDone_of rfl rfl (fun x => by rw [tileRun, runTgth]) (fun x _ hok => ?_) (fun x _ _ hx => hx.loadOf ..)
    simp only [gatherPath, hok]
    rfl
  case ldff =>
    refine State.tileOne_of rfl rfl (fun x ho ⟨hs, hlive, hok, hecc⟩ => ?_) (fun x ho _ hx => ?_)
    · have hfirst := firstFault_map_ok es []
      rw [List.append_nil, ← allChk_eq_ok.mp hok] at hfirst
      rw [tileRun, runTldff, hs]
      refine (if_neg Bool.false_ne_true).trans (TIn.live_nil hlive ?_)
      simp only [hfirst, firstFault, List.append_nil, hecc, keepsEl, List.filter_true, ho.uid]
      rfl
    · rw [← ho.uid]
      exact (hx.loadOf ..).modTeam (fun v => v.sameTileSide_truncated 0 none)
  case sparse =>
    refine State.tileOne_of rfl rfl (fun x ho hr => ?_) (fun x ho hr hx => (hreads x ho hr).2.leaves hx td _)
    obtain ⟨hs, hr⟩ := hreads x ho hr
    rw [tileRun, runTld, hs, runSparse_whole td false hr]
    rfl
  case sparseFf =>
    refine State.tileOne_of rfl rfl (fun x ho hr => ?_) (fun x ho hr hx => ?_)
    · obtain ⟨hs, hr⟩ := hreads x ho hr
      rw [tileRun, runTldff, hs, runSparse_whole td true hr]
      simp only [ho.uid]
      rfl
    · rw [← ho.uid]
      exact ((hreads x ho hr).2.leaves hx td _).modTeam (fun v => v.sameTileSide_truncated 0 none)

end Sys2Proof.Machine
end

/-!
O38: TLDFF that stops before a fault.
-/

section
namespace Sys2Proof.Machine

/-- A checked element stands where it was asked for. -/
theorem mem_of_elChks {x : TIn} {d : Shape} {h : Handle} {acc : Access} {path : Path} {tn : Option TReg} {els : List (Nat × Nat)}
    {idx : Nat → Nat → List Nat} {e : ElSite} (he : .ok e ∈ elChks x d h acc path tn els idx) : (e.r, e.c) ∈ els := by
  obtain ⟨rc, hrc, he⟩ := List.mem_map.mp he
  obtain ⟨_, _, he⟩ := exists_of_bind_eq_ok (eq_ok_of_mapFault he)
  obtain ⟨_, _, he⟩ := exists_of_bind_eq_ok he
  cases he
  exact hrc

section
variable {n ec r c : Nat} {f : FaultInfo}

/-- R158: of the elements before a cut in row 0 those stay, else those of the whole rows before it. -/
theorem keepsEl_cut (hc : c < ec) : keepsEl (some ((n / ec, n % ec), f)) r c =
    (decide (r < if n < ec then 1 else n / ec) && decide (c < if n < ec then n else ec)) := by
  by_cases h : n < ec
  · rw [Nat.div_eq_of_lt h, Nat.mod_eq_of_lt h, if_pos h, if_pos h, keepsEl, Bool.eq_iff_iff]
    simp
  · have hrow : n / ec ≠ 0 := fun h0 => h ((Nat.div_eq_zero_iff_lt (by omega)).mp h0)
    rw [if_neg h, if_neg h, keepsEl, decide_eq_true hc, Bool.and_true]
    exact hrow

/-- R158, Table 4.4: what the registers hold after a cut. -/
theorem Team.truncated_cut (v : Team) (hec : 0 < ec) : v.truncated ec (some ((n / ec, n % ec), f)) =
    { v with
      ext := BitVec.ofNat 16 (if n < ec then 1 else n / ec),
      extc := if (if n < ec then n else ec) = ec then v.extc else BitVec.ofNat 16 (if n < ec then n else ec),
      fsr := fsrOf ((if n < ec then 1 else n / ec) * (if n < ec then n else ec)) f.kind } := by
  by_cases h : n < ec
  · simp only [Team.truncated, truncTo, Nat.div_eq_of_lt h, Nat.mod_eq_of_lt h, h, h.ne, if_true, if_false, Nat.one_mul]
  · have hrow : n / ec ≠ 0 := fun h0 => h ((Nat.div_eq_zero_iff_lt hec).mp h0)
    simp only [Team.truncated, truncTo, hrow, h, if_true, if_false]

end

theorem TIn.ec_pos {x : TIn} (hlive : x.c.live = true) : 0 < x.c.ec := by
  simp only [Capture.live, Bool.and_eq_true, bne_iff_ne] at hlive
  exact Nat.pos_of_ne_zero (fun h0 => hlive.2 (BitVec.eq_of_toNat_eq h0))

/-- Settles O38: the checks before the fault pass, so that the load is cut there. -/
theorem firstFaultTileLoad : Obligations.FirstFaultTileLoad := by
  unfold Obligations.FirstFaultTileLoad
  intro s t td h sx es rest f hf
  refine ⟨State.tileOne_tldff_empty, ?cut⟩
  refine State.tileOne_of rfl rfl (fun x ho ⟨hs, hlive, hes, hchks, hecc⟩ => ?_) (fun x ho ⟨_, hlive, _⟩ hx => ?_)
  · have hec := TIn.ec_pos hlive
    have hin : ∀ e ∈ es, e.c < x.c.ec := fun e he => by
      have hmem : .ok e ∈ loadChks x td h sx := by
        rw [hchks]
        exact List.mem_append_left _ (List.mem_map_of_mem he)
      rw [loadChks] at hmem
      exact (mem_coords.mp (mem_of_elChks hmem)).2
    have hfirst := firstFault_map_ok es (.error (.fault f) :: rest)
    rw [← hchks, firstFault, List.append_nil] at hfirst
    have hstops : (es.isEmpty || !truncates f) = false := by simp [hes, hf]
    rw [tileRun, runTldff, hs]
    refine (if_neg Bool.false_ne_true).trans (TIn.live_nil hlive ?_)
    simp only [hfirst, hstops, Bool.false_eq_true, if_false, hecc, Team.truncated_cut _ hec, ho.uid,
      List.filter_congr (fun e he => keepsEl_cut (hin e he))]
    rfl
  · rw [← ho.uid]
    refine (hx.loadOf ..).modTeam (fun v => ?_)
    exact ⟨rfl, rfl, rfl, rfl, rfl, rfl, rfl⟩

end Sys2Proof.Machine
end

/-!
O39: TST and TSCT.
-/

section
namespace Sys2Proof.Machine

/-! ### What writes of elements leave of the team -/

section
variable {x : TIn} {s : State}

theorem TIn.Leaves.writeSite (h : x.Leaves s) (path : Path) (y : Site) (v : Nat) : x.Leaves (s.writeSite x.t.uid path y v) := by
  unfold State.writeSite
  split
  · exact h
  · exact h.store ..

theorem TIn.Leaves.writeEls (path : Path) (es : List (Site × Nat)) {s : State} (h : x.Leaves s) :
    x.Leaves (writeEls path x.t.uid es s) := by
  induction es generalizing s with
  | nil => exact h
  | cons e es ih => exact ih (h.writeSite ..)

theorem TIn.Leaves.writeSegs (path : Path) (gs : List (List (Site × Nat) × List Host.Cell)) {s : State} (h : x.Leaves s) :
    x.Leaves (writeSegs path x.t.uid gs s) := by
  induction gs generalizing s with
  | nil => exact h
  | cons g gs ih =>
    unfold Machine.writeSegs
    split
    · exact h
    · exact ih (h.store ..)

end

/-! ### The runs -/

/-- An instruction that runs over its extent in one of several ways has the effect `E` where the way that `P` selects has. -/
theorem State.tileDone_of_ways {s : State} {t : Team} {i : Instr} {srcs : List TReg} {P : TIn → Prop} {E : TIn → State}
    (hi : i.isTileSide = true) (hc : isCopy i = false)
    (hempty : ∀ x : TIn, x.c.live = false → tileRun i t.wordSeq x = .done x.s)
    (hrun : ∀ x : TIn, x.Of t → P x → ∃ f, tileRun i t.wordSeq x = x.live srcs f ∧ f x = .done (E x))
    (hl : ∀ x : TIn, x.Of t → P x → x.Leaves x.s → x.Leaves (E x)) : s.TileDone t i srcs P E := by
  refine fun h => ⟨fun hlive => State.exec_takes h hi hc (hempty _ hlive) h.leaves_atRun, fun hlive hready hP => ?_⟩
  obtain ⟨f, hf, hdone⟩ := hrun _ h.of_atRun hP
  exact State.exec_takes h hi hc (hf.trans (TIn.live_done hlive hready hdone)) ((hl _ h.of_atRun hP h.leaves_atRun).consume _ _)

theorem tileRun_tst_empty {x : TIn} {ta : TReg} {h : Handle} {sx : SReg} {n : Nat} (hlive : x.c.live = false) :
    tileRun (.tst ta h sx) n x = .done x.s := by
  rw [tileRun, runTst]
  split
  · exact TIn.live_empty hlive
  · exact TIn.live_empty hlive

/-- Settles O39: the checks pass, and what is written is what `Tile.fixed_el` says. -/
theorem tileStores : Obligations.TileStores := by
  unfold Obligations.TileStores
  intro s t ta tsrc ti h sx kind es ks
  refine ⟨?dense, ?mx, ?packed, ?scatter⟩
  case dense =>
    refine State.tileDone_of_ways rfl rfl (fun x => tileRun_tst_empty) (fun x ho ⟨hlay, hok⟩ => ?_) (fun x ho _ hx => ?_)
    · have hmx : ¬(x.rd ta).geo.mx = true := by simp [Geo.mx_iff, hlay]
      refine ⟨_, if_neg (by simp [Geo.packed_iff, hlay]), ?_⟩
      simp only [hok, if_neg hmx, Tile.fixed_el, ho.uid]
      rfl
    · rw [← ho.uid]
      exact (hx.writeEls ..).tritRead ..
  case mx =>
    refine State.tileDone_of_ways rfl rfl (fun x => tileRun_tst_empty) (fun x ho ⟨hlay, hok⟩ => ?_) (fun x ho _ hx => ?_)
    · refine ⟨_, if_neg (by simp [Geo.packed_iff, hlay]), ?_⟩
      simp only [hok, if_pos ((x.rd ta).geo.mx_iff.mpr hlay), ho.uid]
      rfl
    · rw [← ho.uid]
      exact hx.writeSegs ..
  case packed =>
    refine State.tileDone_of_ways rfl rfl (fun x => tileRun_tst_empty) (fun x ho ⟨hlay, hn, hok⟩ => ?_) (fun x ho _ hx => ?_)
    · refine ⟨_, if_pos ((x.rd ta).geo.packed_iff.mpr hlay), ?_⟩
      have hall := allChk_map_atEl (tn := some ta) (h := h) (sparseCoord ((x.rd ta).geo.rows * (x.rd ta).geo.mapRow)
        (x.rd ta).geo.mapRow (ebits (x.rd ta).geo.etype) ((x.rd ta).packedEls.map (fun e => (e.1, e.2.1)))) hok
      simp only [hn, ne_eq, not_true_eq_false, if_false, hall, ho.uid]
      rfl
    · rw [← ho.uid]
      exact (TIn.Leaves.foldl (fun _ _ hz => hz.store ..) _ hx).tritRead ..
  case scatter =>
    refine State.tileDone_of rfl rfl (fun x => by rw [tileRun, runTsct]) (fun x ho hok => ?_) (fun x ho _ hx => ?_)
    · simp only [hok, Tile.fixed_el, ho.uid]
      rfl
    · rw [← ho.uid]
      exact (hx.writeEls ..).tritRead ..

end Sys2Proof.Machine
end

/-!
What a tile shows after an instruction over the extent whose sources no stream feeds: acceptance has found the destination and
the place of the extent, the run puts the tile, and the tile stands once the instruction has left.
-/

section
namespace Sys2Proof.Machine

/-! ### What acceptance has found -/

section
variable {x : TIn}

/-- Order 1: a destination is bound, and no stream owns it (R145). -/
theorem exists_of_dst_bind {α : Type} {n : TReg} {k : Tile → Chk α} {a : α} (h : x.t.dst n >>= k = .ok a) :
    ∃ d, x.t.tile n = some d ∧ d.strm = none ∧ k d = .ok a := by
  obtain ⟨d, hd, hk⟩ := exists_of_bind_eq_ok h
  obtain ⟨htile, hs⟩ := Team.tile_of_dst hd
  exact ⟨d, htile, hs, hk⟩

/-- Order 1: a source is bound. -/
theorem exists_of_src_bind {α : Type} {n : TReg} {k : Tile → Chk α} {a : α} (h : x.t.src n >>= k = .ok a) :
    ∃ d, x.t.tile n = some d ∧ k d = .ok a := by
  obtain ⟨d, hd, hk⟩ := exists_of_bind_eq_ok h
  refine ⟨d, ?_, hk⟩
  unfold Team.src at hd
  split at hd
  next y hy => cases hd; exact hy
  · exact nomatch hd

theorem exists_of_must_bind {α : Type} {b : Bool} {k : Unit → Chk α} {a : α} (h : must b >>= k = .ok a) :
    b = true ∧ k () = .ok a := by
  obtain ⟨_, hb, hk⟩ := exists_of_bind_eq_ok h
  exact ⟨eq_true_of_must hb, hk⟩

/-- Orders 2 and 3: the extent, where it is not empty, lies in each of the geometries (R146). -/
theorem TIn.extChk_ok {gs dsts : List Geo} {srcs : List TReg} {o : Chk Unit} (h : x.extChk gs dsts srcs o = .ok ()) :
    (x.c.live = true → ∀ g ∈ gs, g.holds x.c.er x.c.ec = true) ∧ o = .ok () := by
  obtain ⟨hext, h⟩ := exists_of_must_bind h
  obtain ⟨_, ho, -⟩ := exists_of_bind_eq_ok h
  refine ⟨fun hlive => ?_, ho⟩
  rw [hlive, Bool.not_true, Bool.false_or, Bool.and_eq_true] at hext
  exact List.all_eq_true.mp hext.1

theorem Geo.cols_le_of_holds {g : Geo} {rows cols : Nat} (h : g.holds rows cols = true) : cols ≤ g.cols := by
  rw [Geo.holds, Bool.and_eq_true] at h
  exact of_decide_eq_true h.2

end

/-! ### Sources that no stream feeds (R164) -/

/-- No stream feeds the tile of that name. -/
def Team.Still (t : Team) (n : TReg) : Prop := ∃ a, t.tile n = some a ∧ a.strm = none

theorem Team.streamsOf_still {t : Team} {ns : List TReg} (h : ∀ n ∈ ns, t.Still n) : t.streamsOf ns = [] := by
  refine List.foldlRecOn (motive := (· = [])) _ _ rfl (fun qs hqs n hn => ?_)
  obtain ⟨a, ha, hs⟩ := h n hn
  rw [hqs, ha]
  simp only [hs]

theorem Team.streamsReady_still {t : Team} {ns : List TReg} (ext : Nat) (h : ∀ n ∈ ns, t.Still n) :
    t.streamsReady ext ns = true := by
  rw [Team.streamsReady, Team.streamsOf_still h, List.all_nil]

theorem Team.consume_tiles (t : Team) (ext : Nat) (ns : List TReg) : (t.consume ext ns).tiles = t.tiles := by
  refine List.foldlRecOn (motive := fun u : Team => u.tiles = t.tiles) _ _ rfl (fun u hu q _ => ?_)
  split <;> exact hu

theorem Team.tile_congr {t u : Team} (h : u.tiles = t.tiles) (n : TReg) : u.tile n = t.tile n := congrArg (·.get n.toFin) h

theorem Team.tile_putTile (t : Team) (n : TReg) (y : Option Tile) : (t.putTile n y).tile n = y :=
  Vector.getElem_set_self n.toFin.isLt

/-! ### The tile once the instruction has left -/

section
variable {s s' : State} {t u : Team} {i : Instr} {td : TReg} {y : Tile} {e : Env} {er ec : Nat} {v : Nat → Nat → Nat}

theorem State.Only.modTeam {uid : Nat} {f : Team → Team} (h : s.Only uid u) (hf : (f u).uid = u.uid) :
    (s.modTeam uid f).Only uid (f u) := by
  rw [State.modTeam_of_only h]
  exact State.only_fill (f u) (hf.trans (State.team?_uid h.1)) h.1

theorem Team.tile_left (u : Team) (n : TReg) :
    ({ u.leave [] with wait := .none, tileWalk := none } : Team).tile n = u.tile n := by
  rw [Team.leave_nil]
  rfl

/-- Once a taken instruction has left, its team's tiles are as its run left them. -/
theorem State.Only.tile_past (h : s'.Only t.uid u) (hy : u.tile td = some y) :
    ∃ v, (s'.past t.uid).team? t.uid = some v ∧ v.tile td = some y := by
  refine ⟨{ u.leave [] with wait := .none, tileWalk := none }, ?_, (u.tile_left td).trans hy⟩
  have huid : ({ u.leave [] with wait := .none, tileWalk := none } : Team).uid = t.uid := by
    rw [Team.leave_nil]
    exact State.team?_uid (u := u) h.1
  rw [State.past, State.modTeam_of_only h]
  exact State.team?_fill _ huid h.1

/-- After the step the team's tile `td` is `y`. -/
def State.PutsTile (s : State) (t : Team) (i : Instr) (td : TReg) (y : Tile) : Prop :=
  ∃ s' u, exec i s = .next s' ∧ s'.team? t.uid = some u ∧ u.tile td = some y

theorem State.PutsTile.shows (h : s.PutsTile t i td y) (hy : y.Shows er ec v) : s.ShowsTile t i td er ec v :=
  have ⟨s', u, hexec, hteam, htile⟩ := h
  ⟨s', u, y, hexec, hteam, htile, hy⟩

section
variable (h : s.Takes t i) (hi : i.isTileSide = true) (hc : isCopy i = false)
include h hi hc

theorem State.Takes.puts (hrun : tileRun i t.wordSeq (s.atRun t i) = .done ((s.atRun t i).put td y e)) :
    s.PutsTile t i td y := by
  have hleaves := h.leaves_atRun.put td y e
  have honly := h.leaves_atRun.only_putTeam
    (((s.atRun t i).t.sameTileSide_putTile td (some y)).trans (Team.sameTileSide_applyEnv _ e))
  obtain ⟨u, hu, htile⟩ := State.Only.tile_past (t := t) honly (Team.tile_putTile (s.atRun t i).t td (some y))
  exact ⟨_, u, State.exec_takes h hi hc hrun hleaves, hu, htile⟩

theorem State.Takes.puts_live {srcs : List TReg} {f : TIn → Run} (hlive : t.capture.live = true)
    (hstill : ∀ n ∈ srcs, t.Still n) (hrun : tileRun i t.wordSeq (s.atRun t i) = (s.atRun t i).live srcs f)
    (hf : f (s.atRun t i) = .done ((s.atRun t i).put td y e)) : s.PutsTile t i td y := by
  have hleaves := h.leaves_atRun.put td y e
  have hdone := TIn.live_done (x := s.atRun t i) hlive (Team.streamsReady_still _ hstill) hf
  have honly := h.leaves_atRun.only_putTeam
    (((s.atRun t i).t.sameTileSide_putTile td (some y)).trans (Team.sameTileSide_applyEnv _ e))
  have hexec := State.exec_takes h hi hc (hrun.trans hdone) (hleaves.consume _ _)
  have hconsumed := honly.modTeam (f := fun u => u.consume (s.atRun t i).c.er srcs) (Team.sameTileSide_consume _ _ _).uid
  obtain ⟨u, hu, htile⟩ := State.Only.tile_past (t := t) hconsumed
    ((Team.tile_congr (Team.consume_tiles ..) td).trans (Team.tile_putTile (s.atRun t i).t td (some y)))
  exact ⟨_, u, hexec, hu, htile⟩

end

/-- A name that a stream feeds is read in the tile's geometry too. -/
theorem Team.view_geo (t : Team) (ext : Nat) (x : Tile) : (t.view_ ext x).geo = x.geo := by
  unfold Team.view_
  split
  · rfl
  · split <;> rfl

theorem State.atRun_rd_geo {n : TReg} {d : Tile} (h : t.tile n = some d) : ((s.atRun t i).rd n).geo = d.geo := by
  have htile : (s.atRun t i).t.tile n = some d := h
  rw [TIn.rd, htile]
  exact Team.view_geo ..

/-- A taken instruction that writes each element of an extent within the tile leaves just those there. -/
theorem State.Takes.writes_shows {srcs : List TReg} {f : TIn → Run} {d : Tile} {els : List (Nat × Nat × Nat)}
    {scs : List (Nat × Nat × Byte)} (h : s.Takes t i) (hi : i.isTileSide = true) (hc : isCopy i = false)
    (hlive : t.capture.live = true) (hstill : ∀ n ∈ srcs, t.Still n)
    (hrun : tileRun i t.wordSeq (s.atRun t i) = (s.atRun t i).live srcs f)
    (hf : f (s.atRun t i) = .done ((s.atRun t i).put td (d.write els scs) e)) (hec : ec ≤ d.geo.cols)
    (hels : ∀ r c y, (r, c, y) ∈ els ↔ (r < er ∧ c < ec) ∧ y = v r c) (hv : ∀ r c, v r c < 2 ^ 64) :
    s.ShowsTile t i td er ec (fun r c => tritFix d.geo.etype (v r c)) :=
  (h.puts_live hi hc hlive hstill hrun hf).shows (d.shows_write scs hec hels hv)

theorem State.Takes.er_atRun (h : s.Takes t i) : (s.atRun t i).c.er = t.ext.toNat := by
  rw [show (s.atRun t i).c = t.capture from rfl, Team.capture_of_unpaired h.quiet.pair]
  rfl

theorem State.Takes.ec_atRun (h : s.Takes t i) : (s.atRun t i).c.ec = t.extc.toNat := by
  rw [show (s.atRun t i).c = t.capture from rfl, Team.capture_of_unpaired h.quiet.pair]
  rfl

end

end Sys2Proof.Machine
end

/-!
O31: element-wise operations on integer tiles.
-/

section
namespace Sys2Proof.Machine

theorem runEls_map {f : Nat → Nat → Env → Nat × Env} {v : Nat → Nat → Nat} (h : ∀ r c e, (f r c e).1 = v r c)
    (l : List (Nat × Nat)) (e : Env) : (runEls f l e).1 = l.map (fun rc => (rc.1, rc.2, v rc.1 rc.2)) := by
  induction l generalizing e with
  | nil => rfl
  | cons rc l ih => rw [List.map_cons, ← ih (f rc.1 rc.2 e).2, ← h rc.1 rc.2 e]; rfl

/-- What the checks of an element-wise operation have found (R176). -/
theorem ewAccept_ok {x : TIn} {td : TReg} {ta tb : Src} {old : Bool} {ok : BitVec 5 → Bool}
    (h : ewAccept x td ta tb old ok = .ok ()) :
    ∃ d, x.t.tile td = some d ∧ d.strm = none ∧ (x.c.live = true → x.c.ec ≤ d.geo.cols) := by
  obtain ⟨a, -, h⟩ := exists_of_src_bind h
  obtain ⟨b, -, h⟩ := exists_of_src_bind h
  obtain ⟨d, hd, hs, h⟩ := exists_of_dst_bind h
  exact ⟨d, hd, hs, fun hlive => Geo.cols_le_of_holds ((TIn.extChk_ok h).1 hlive _ List.mem_cons_self)⟩

/-- The tiles of an element-wise operation over a non-empty extent, its sources fed by no stream, its destination of no trits. -/
structure Team.EwTiles (t : Team) (td : TReg) (ta tb : Src) (a b d : Tile) : Prop where
  srcA : t.tile ta.t = some a
  srcB : t.tile tb.t = some b
  dst : t.tile td = some d
  stillA : a.strm = none
  stillB : b.strm = none
  live : t.capture.live = true
  noTrits : d.geo.etype ≠ 0x0A

section
variable {s : State} {t : Team} {i : Instr} {td : TReg} {ta tb : Src} {a b d : Tile}

/-- An element-wise operation leaves in each element of the extent what its function gives for that place, whatever the flags and
draws. -/
theorem State.Takes.ew_shows {g : TIn → EClass → Nat → Nat → Nat → Env → Nat × Env} {old : Bool} {ok : BitVec 5 → Bool}
    {v : Nat → Nat → Nat} (h : s.Takes t i) (hi : i.isTileSide = true) (hc : isCopy i = false)
    (hrun : ∀ x, tileRun i t.wordSeq x = ewRun x td ta tb (g x)) (hacc : ∀ x, tileAccept i x = ewAccept x td ta tb old ok)
    (ht : t.EwTiles td ta tb a b d)
    (hg : ∀ r c e, (g (s.atRun t i) (cls d.geo.etype) (a.el r c) (b.el r c) (d.el r c) e).1 = v r c)
    (hv : ∀ r c, v r c < 2 ^ 64) : s.ShowsTile t i td t.ext.toNat t.extc.toNat v := by
  obtain ⟨ha, hb, hd, has, hbs, hlive, hty⟩ := ht
  obtain ⟨d', hd', hds, hfits⟩ := ewAccept_ok ((hacc _).symm.trans h.accepted)
  cases hd.symm.trans hd'
  have hstill : ∀ n ∈ [ta.t, tb.t], t.Still n :=
    List.forall_mem_cons.mpr ⟨⟨a, ha, has⟩, List.forall_mem_singleton.mpr ⟨b, hb, hbs⟩⟩
  have hshows := h.writes_shows (d := d) (els := (s.atRun t i).ext.map (fun rc => (rc.1, rc.2, v rc.1 rc.2))) (scs := []) hi hc
    hlive hstill (hrun _) (by rw [State.atRun_rd ha has, State.atRun_rd hb hbs, State.atRun_rd hd hds, ← runEls_map hg])
    (hfits hlive) (fun _ _ _ => mem_map_coords) hv
  simp only [tritFix_of_ne hty] at hshows
  rw [← h.er_atRun, ← h.ec_atRun]
  exact hshows

end

theorem le_64_of_eclass {c : BitVec 5} {w : Nat} {sg : Bool} (h : eclass c = some (.int w sg)) : w ≤ 64 := by
  unfold eclass at h
  split at h <;> cases h <;> decide

theorem intCode_lt (w : Nat) (x : Int) : intCode w x < 2 ^ w := by
  have hpos : (0 : Int) < ((2 ^ w : Nat) : Int) := by exact_mod_cast Nat.two_pow_pos w
  have hlt := Int.emod_lt_of_pos x hpos
  exact (Int.toNat_lt (Int.emod_nonneg x hpos.ne')).mpr hlt

/-- R12, R166: an integer code counts as zero just where its value is zero. -/
theorem nonZero_int {c : BitVec 5} {w : Nat} {sg : Bool} (h : eclass c = some (.int w sg)) (x : Nat) :
    nonZero c x = true ↔ intOf w sg x ≠ 0 := by
  have hlt := Nat.mod_lt x (Nat.two_pow_pos w)
  rw [nonZero, h]
  simp only [EClass.bits, bne_iff_ne, intOf]
  generalize x % 2 ^ w = y at hlt ⊢
  generalize 2 ^ w = n at hlt ⊢
  split
  next hneg =>
    have hpos := Nat.two_pow_pos (w - 1)
    have hle := of_decide_eq_true (Bool.and_eq_true _ _ ▸ hneg).2
    omega
  · omega

/-- Settles O31: each operation by `State.Takes.ew_shows`; without saturation the exact result is wrapped. -/
theorem elementWiseIntegers : Obligations.ElementWiseIntegers := by
  unfold Obligations.ElementWiseIntegers
  intro s t rm td ta tb a b d w sg ha hb hd has hbs hcls hlive er ec x y z
  have hty : d.geo.etype ≠ 0x0A := by
    intro h0
    rw [h0] at hcls
    exact nomatch hcls
  have ht : t.EwTiles td ta tb a b d := ⟨ha, hb, hd, has, hbs, hlive, hty⟩
  have hk : cls d.geo.etype = .int w sg := by rw [cls, hcls]; rfl
  have hwrap : ∀ v, intCode w v < 2 ^ 64 := fun v =>
    (intCode_lt w v).trans_le (Nat.pow_le_pow_right (by decide) (le_64_of_eclass hcls))
  have hpick : ∀ (p : Prop) [Decidable p] (r c : Nat), (if p then a.el r c else b.el r c) < 2 ^ 64 := fun p _ r c => by
    split
    · exact BitVec.isLt _
    · exact BitVec.isLt _
  refine ⟨fun h => ?add, fun h => ?sub, fun h => ?mul, fun h => ?fma, fun h => ?max, fun h => ?min, fun h => ?sel⟩
  case add =>
    exact h.ew_shows (g := fun x => ewArith 0 false (resolveRm rm x.c.drm)) rfl rfl (fun _ => rfl)
      (fun _ => by rw [tileAccept, acceptTadd]) ht (fun r c e => by rw [hk]; rfl) (fun _ _ => hwrap _)
  case sub =>
    exact h.ew_shows (g := fun x => ewArith 1 false (resolveRm rm x.c.drm)) rfl rfl (fun _ => rfl)
      (fun _ => by rw [tileAccept, acceptTsub]) ht (fun r c e => by rw [hk]; rfl) (fun _ _ => hwrap _)
  case mul =>
    exact h.ew_shows (g := fun x => ewArith 2 false (resolveRm rm x.c.drm)) rfl rfl (fun _ => rfl)
      (fun _ => by rw [tileAccept, acceptTmul]) ht (fun r c e => by rw [hk]; rfl) (fun _ _ => hwrap _)
  case fma =>
    exact h.ew_shows (g := fun x => ewArith 3 false (resolveRm rm x.c.drm)) rfl rfl (fun _ => rfl)
      (fun _ => by rw [tileAccept, acceptTfma]) ht (fun r c e => by rw [hk]; rfl) (fun _ _ => hwrap _)
  case max =>
    exact h.ew_shows (g := fun _ k a b _ => ewMinMax true k a b) rfl rfl (fun _ => rfl)
      (fun _ => by rw [tileAccept, acceptTmax]) ht (fun r c e => by rw [hk]; rfl) (fun r c => hpick _ r c)
  case min =>
    exact h.ew_shows (g := fun _ k a b _ => ewMinMax false k a b) rfl rfl (fun _ => rfl)
      (fun _ => by rw [tileAccept, acceptTmin]) ht (fun r c e => by rw [hk]; rfl) (fun r c => hpick _ r c)
  case sel =>
    exact h.ew_shows (g := fun x _ a b d e => (if nonZero (x.rd td).geo.etype d then a else b, e)) rfl rfl (fun _ => rfl)
      (fun _ => by rw [tileAccept, acceptTsel]) ht (fun r c e => by simp only [State.atRun_rd_geo hd, nonZero_int hcls]; rfl)
      (fun r c => hpick _ r c)

end Sys2Proof.Machine
end

/-!
O32: TMOV, TTRN, TFILL, TIOTA and TSLIDE.
-/

section
namespace Sys2Proof.Machine

/-! ### What the checks have found -/

/-- Equal in all that order 3 compares for TMOV: rows, columns, element type and layout (R169). -/
def Geo.Alike (g k : Geo) : Prop := g.rows = k.rows ∧ g.cols = k.cols ∧ g.etype = k.etype ∧ g.layout = k.layout

section
variable {x : TIn} {td : TReg} {ta : Src} {a d : Tile}

theorem acceptTmov_ok (h : acceptTmov x td ta = .ok ()) (ha : x.t.tile ta.t = some a) (hd : x.t.tile td = some d) :
    d.strm = none ∧ d.geo.Alike a.geo ∧ (a.geo.packed = false → x.c.live = true → x.c.ec ≤ d.geo.cols) := by
  obtain ⟨a', ha', h⟩ := exists_of_src_bind h
  obtain ⟨d', hd', hs, h⟩ := exists_of_dst_bind h
  cases ha.symm.trans ha'
  cases hd.symm.trans hd'
  simp only at h
  split at h
  next hp =>
    obtain ⟨hsame, -⟩ := exists_of_must_bind h
    exact ⟨hs, by simpa [Geo.Alike, and_assoc] using hsame, fun hn => absurd hp (by simp [hn])⟩
  next hp =>
    obtain ⟨hext, hsame⟩ := TIn.extChk_ok h
    refine ⟨hs, by simpa [Geo.Alike, and_assoc] using eq_true_of_must hsame, fun _ hlive => ?_⟩
    exact Geo.cols_le_of_holds (hext hlive _ List.mem_cons_self)

theorem acceptTtrn_ok (h : acceptTtrn x td ta = .ok ()) (hd : x.t.tile td = some d) (hlive : x.c.live = true) :
    d.strm = none ∧ x.c.er ≤ d.geo.cols := by
  obtain ⟨a', -, h⟩ := exists_of_src_bind h
  obtain ⟨d', hd', hs, h⟩ := exists_of_dst_bind h
  cases hd.symm.trans hd'
  obtain ⟨hext, -⟩ := exists_of_must_bind h
  simp only [hlive, Bool.not_true, Bool.false_or, Bool.and_eq_true] at hext
  exact ⟨hs, Geo.cols_le_of_holds hext.1.2⟩

/-- What the checks of an instruction have found whose only tile is its destination (R170). -/
theorem fillAccept_ok {ok : Tile → Bool} (hd : x.t.tile td = some d) (hlive : x.c.live = true)
    (h : (do let d ← x.t.dst td; x.extChk [d.geo] [d.geo] [] (must (ok d))) = .ok ()) :
    d.strm = none ∧ x.c.ec ≤ d.geo.cols ∧ ok d = true := by
  obtain ⟨d', hd', hs, h⟩ := exists_of_dst_bind h
  cases hd.symm.trans hd'
  obtain ⟨hext, hok⟩ := TIn.extChk_ok h
  exact ⟨hs, Geo.cols_le_of_holds (hext hlive _ List.mem_cons_self), eq_true_of_must hok⟩

theorem acceptTslide_ok {fill : Option Src} (h : acceptTslide x fill td ta = .ok ()) (hd : x.t.tile td = some d)
    (hlive : x.c.live = true) : d.strm = none ∧ x.c.ec ≤ d.geo.cols := by
  obtain ⟨a', -, h⟩ := exists_of_src_bind h
  obtain ⟨b', -, h⟩ := exists_of_bind_eq_ok h
  obtain ⟨d', hd', hs, h⟩ := exists_of_dst_bind h
  cases hd.symm.trans hd'
  exact ⟨hs, Geo.cols_le_of_holds ((TIn.extChk_ok h).1 hlive _ List.mem_cons_self)⟩

end

theorem ebits_le : ∀ c : BitVec 5, ebits c ≤ 64 := by decide

theorem mod_ebits_lt (n : Nat) (c : BitVec 5) : n % 2 ^ ebits c < 2 ^ 64 :=
  (Nat.mod_lt n (Nat.two_pow_pos _)).trans_le (Nat.pow_le_pow_right (by decide) (ebits_le c))

theorem Tile.el_lt (a : Tile) (r c : Nat) : a.el r c < 2 ^ 64 := BitVec.isLt _

/-! ### Where TSLIDE reads (R172) -/

/-- What TSLIDE writes at (r, c): the source's element where `slideFrom` finds one in the extent, else `z`'s. -/
def slideEl (dir : BitVec 2) (n er ec : Nat) (a z : Nat → Nat → Nat) (r c : Nat) : Nat :=
  match slideFrom dir n er ec r c with
  | some (r', c') => a r' c'
  | none => z r c

/-- The element that TSLIDE shifts in: the fill's, or 0. -/
def TIn.fillEl (x : TIn) (fill : Option Src) (r c : Nat) : Nat :=
  match fill with
  | some y => (x.rd y.t).el r c
  | none => 0

theorem slideEl_lt {dir : BitVec 2} {n er ec : Nat} {a z : Nat → Nat → Nat} {m : Nat} (ha : ∀ r c, a r c < m)
    (hz : ∀ r c, z r c < m) (r c : Nat) : slideEl dir n er ec a z r c < m := by
  unfold slideEl
  split
  · exact ha _ _
  · exact hz _ _

theorem TIn.fillEl_lt (x : TIn) (fill : Option Src) (r c : Nat) : x.fillEl fill r c < 2 ^ 64 := by
  cases fill with
  | none => exact Nat.two_pow_pos 64
  | some y => exact Tile.el_lt _ r c

/-! ### The moves over the extent -/

section
variable {s : State} {t : Team} {td : TReg} {ta : Src} {sa sb : SReg} {a d : Tile}

theorem Team.still_one (ha : t.tile ta.t = some a) (has : a.strm = none) : ∀ n ∈ [ta.t], t.Still n := by
  simp only [List.mem_singleton, forall_eq]
  exact ⟨a, ha, has⟩

section
variable (hd : t.tile td = some d) (hlive : t.capture.live = true)
include hd hlive

/-- R171: TTRN writes each element of the extent in its transposed place. -/
theorem State.Takes.ttrn_shows (h : s.Takes t (.ttrn td ta)) (ha : t.tile ta.t = some a) (has : a.strm = none) :
    s.ShowsTile t (.ttrn td ta) td t.extc.toNat t.ext.toNat (fun r c => tritFix d.geo.etype (a.el c r)) := by
  obtain ⟨hds, hfits⟩ := acceptTtrn_ok h.accepted hd hlive
  rw [← h.er_atRun, ← h.ec_atRun]
  refine h.writes_shows (d := d) (els := (s.atRun t _).ext.map (fun rc => (rc.2, rc.1, a.el rc.1 rc.2))) rfl rfl hlive
    (Team.still_one ha has) (by rw [tileRun, runTtrn])
    (by simp only [TIn.putMoved, State.atRun_rd ha has, State.atRun_rd hd hds]; rfl) hfits (fun r c y => ?_)
    (fun r c => a.el_lt c r)
  rw [and_comm (a := r < _), ← mem_map_coords (v := a.el), List.mem_map, List.mem_map]
  simp only [Prod.mk.injEq, TIn.ext, and_left_comm (a := _ = r)]

/-- R170: TFILL writes one value. -/
theorem State.Takes.tfill_shows (h : s.Takes t (.tfill td sa)) :
    s.ShowsTile t (.tfill td sa) td t.ext.toNat t.extc.toNat
      (fun _ _ => tritFix d.geo.etype ((t.rs sa).toNat % 2 ^ ebits d.geo.etype)) := by
  obtain ⟨hds, hfits, -⟩ := fillAccept_ok (ok := fun d => d.geo.dense) hd hlive h.accepted
  rw [← h.er_atRun, ← h.ec_atRun]
  exact h.writes_shows (d := d) (v := fun _ _ => (t.rs sa).toNat % 2 ^ ebits d.geo.etype) rfl rfl hlive
    (List.forall_mem_nil _) (by rw [tileRun, runTfill]) (by simp only [h.atRun_rs, State.atRun_rd hd hds]; rfl) hfits
    (fun _ _ _ => mem_map_coords) (fun _ _ => mod_ebits_lt ..)

/-- R170: TIOTA writes a ramp; it takes no trits. -/
theorem State.Takes.tiota_shows (h : s.Takes t (.tiota td sa sb)) :
    s.ShowsTile t (.tiota td sa sb) td t.ext.toNat t.extc.toNat
      (fun r c => ((t.rs sa).toNat + r * (t.rs sb).toNat + c) % 2 ^ ebits d.geo.etype) := by
  obtain ⟨hds, hfits, hok⟩ := fillAccept_ok (ok := fun d => d.geo.dense && iotaType d.geo.etype) hd hlive h.accepted
  have hty : d.geo.etype ≠ 0x0A := by
    intro h0
    rw [h0, Bool.and_eq_true] at hok
    exact nomatch hok.2
  have hshows := h.writes_shows (d := d) (er := (s.atRun t (.tiota td sa sb)).c.er)
    (v := fun r c => ((t.rs sa).toNat + r * (t.rs sb).toNat + c) % 2 ^ ebits d.geo.etype) rfl rfl hlive
    (List.forall_mem_nil _) (by rw [tileRun, runTiota]) (by simp only [h.atRun_rs, State.atRun_rd hd hds]; rfl) hfits
    (fun _ _ _ => mem_map_coords) (fun _ _ => mod_ebits_lt ..)
  simp only [tritFix_of_ne hty] at hshows
  rw [← h.er_atRun, ← h.ec_atRun]
  exact hshows

/-- R172: TSLIDE moves the elements of the extent by `n` and shifts the fill's, or zeros, in. -/
theorem State.Takes.tslide_shows {dir : BitVec 2} {fill : Option Src} {n : BitVec 6}
    (h : s.Takes t (.tslide dir fill td ta n)) (ha : t.tile ta.t = some a) (has : a.strm = none)
    (hfill : ∀ y ∈ fill, t.Still y.t) :
    s.ShowsTile t (.tslide dir fill td ta n) td t.ext.toNat t.extc.toNat (fun r c => tritFix d.geo.etype
      (slideEl dir n.toNat t.ext.toNat t.extc.toNat a.el ((s.atRun t (.tslide dir fill td ta n)).fillEl fill) r c)) := by
  obtain ⟨hds, hfits⟩ := acceptTslide_ok h.accepted hd hlive
  have hstill : ∀ k ∈ slideSrcs fill ta, t.Still k := by
    cases fill with
    | none => exact Team.still_one ha has
    | some y => exact List.forall_mem_cons.mpr ⟨⟨a, ha, has⟩, List.forall_mem_singleton.mpr (hfill y rfl)⟩
  rw [← h.er_atRun, ← h.ec_atRun]
  exact h.writes_shows (d := d) rfl rfl hlive hstill (by rw [tileRun, runTslide])
    (by simp only [TIn.putMoved, State.atRun_rd ha has, State.atRun_rd hd hds]; rfl) hfits
    (fun _ _ _ => mem_map_coords) (slideEl_lt a.el_lt (TIn.fillEl_lt _ _))

end

/-- R169: TMOV over the extent, of a dense or an MX tile. -/
theorem State.Takes.tmov_puts (h : s.Takes t (.tmov td ta)) (hd : t.tile td = some d) (hlive : t.capture.live = true)
    (ha : t.tile ta.t = some a) (has : a.strm = none) (hlay : d.geo.layout ≠ 3) :
    d.geo.Alike a.geo ∧ t.extc.toNat ≤ d.geo.cols ∧ s.PutsTile t (.tmov td ta) td
      (d.write ((coords t.ext.toNat t.extc.toNat).map (fun rc => (rc.1, rc.2, a.el rc.1 rc.2)))
        (if a.geo.mx then a.touched t.ext.toNat t.extc.toNat else [])) := by
  obtain ⟨hds, halike, hfits⟩ := acceptTmov_ok h.accepted ha hd
  have hp : a.geo.packed = false := by
    rw [Geo.packed, ← halike.2.2.2]
    exact beq_eq_false_iff_ne.mpr hlay
  rw [← h.er_atRun, ← h.ec_atRun]
  have hrd := State.atRun_rd (s := s) (i := .tmov td ta) ha has
  exact ⟨halike, hfits hp hlive, h.puts_live rfl rfl hlive (Team.still_one ha has)
    (if_neg (by rw [hrd, hp]; exact Bool.false_ne_true))
    (by simp only [TIn.putMoved, hrd, State.atRun_rd hd hds]; rfl)⟩

/-- A packed tile with the bitmap, the count and the stored values of `a`, as an instruction writes them that has read them. -/
def Tile.packedFrom (d a : Tile) : Tile :=
  { d with
    written := true, scales := [], bitmap := a.bitmap, count := a.count,
    data := kmapOf 0 (((List.range a.count).map (fun j => (j, (kget 0 a.data j).toNat))).map
      (fun v => (v.1, BitVec.ofNat 64 (tritFix a.geo.etype v.2)))) }

theorem Tile.packedFrom_data (d a : Tile) {j : Nat} (hj : j < a.count) :
    (kget 0 (d.packedFrom a).data j).toNat = tritFix a.geo.etype (kget 0 a.data j).toNat := by
  have hget : kget 0 (d.packedFrom a).data j = BitVec.ofNat 64 (tritFix a.geo.etype (kget 0 a.data j).toNat) := by
    rw [Tile.packedFrom, List.map_map]
    refine kget_kmapOf_of_mem (List.mem_map.mpr ⟨j, List.mem_range.mpr hj, rfl⟩) (fun w hw => ?_)
    obtain ⟨k, -, hk⟩ := List.mem_map.mp hw
    obtain ⟨rfl, rfl⟩ := Prod.mk.inj hk
    rfl
  rw [hget]
  exact Nat.mod_eq_of_lt ((tritFix_le _ _).trans_lt (BitVec.isLt _))

/-- R169: TMOV of a packed tile moves it whole, whatever the extent. -/
theorem State.Takes.tmov_packed_puts (h : s.Takes t (.tmov td ta)) (hd : t.tile td = some d) (ha : t.tile ta.t = some a)
    (has : a.strm = none) (hlay : d.geo.layout = 3) :
    d.geo.Alike a.geo ∧ s.PutsTile t (.tmov td ta) td (d.packedFrom a) := by
  obtain ⟨hds, halike, -⟩ := acceptTmov_ok h.accepted ha hd
  have hrd := State.atRun_rd (s := s) (i := .tmov td ta) ha has
  exact ⟨halike, h.puts rfl rfl ((if_pos (by rw [hrd, Geo.packed_iff, ← halike.2.2.2, hlay])).trans
    (by simp only [hrd, State.atRun_rd hd hds]; rfl))⟩

end

/-- R146: the scales of a tile that an instruction has written. -/
theorem Tile.sc_write (d : Tile) (els : List (Nat × Nat × Nat)) {scs : List (Nat × Nat × Byte)} {rows segs : Nat}
    {v : Nat → Nat → Byte} (hsegs : segs ≤ d.geo.segs)
    (hscs : ∀ r k y, (r, k, y) ∈ scs ↔ (r < rows ∧ k < segs) ∧ y = v r k) {r k : Nat} (hk : k < d.geo.segs) :
    (d.write els scs).sc r k = if r < rows ∧ k < segs then v r k else 0x7F :=
  kget_kmapOf_places (f := id) hsegs hscs hk

theorem slideEl_eq {dir : BitVec 2} {n er ec : Nat} {a z : Nat → Nat → Nat} : slideEl dir n er ec a z = fun r c =>
    match dir.toNat with
    | 0 => if n ≤ c then a r (c - n) else z r c
    | 1 => if c + n < ec then a r (c + n) else z r c
    | 2 => if n ≤ r then a (r - n) c else z r c
    | _ => if r + n < er then a (r + n) c else z r c := by
  funext r c
  rw [slideEl, slideFrom]
  generalize dir.toNat = k
  obtain _ | _ | _ | k := k <;> split_ifs <;> rfl

/-- Settles O32: each move by its own lemma above; TSLIDE's forms are those of `slideEl_eq`. -/
theorem movesAndFills : Obligations.MovesAndFills := by
  unfold Obligations.MovesAndFills
  intro s t td ta fb sa sb n a b d hd ha hb has hbs er ec m w
  refine ⟨fun hlay hlive => ⟨fun h => ?mov, fun h => h.ttrn_shows hd hlive ha has, fun h => h.tfill_shows hd hlive,
    fun h => h.tiota_shows hd hlive, fun fill hfill => ?slide⟩, fun hlay hlive h => ?mx, fun hlay h => ?packed⟩
  case mov =>
    obtain ⟨-, hfits, hputs⟩ := h.tmov_puts hd hlive ha has (by rw [hlay]; decide)
    exact hputs.shows (d.shows_write _ hfits (fun _ _ _ => mem_map_coords) a.el_lt)
  case slide =>
    have hz : ∀ i, (s.atRun t i).fillEl fill = fun r c => if fill = none then 0 else b.el r c := by
      intro i
      obtain rfl | rfl := hfill
      · rfl
      · funext r c
        simp only [TIn.fillEl, State.atRun_rd hb hbs, reduceCtorEq, if_false]
    have hslide : ∀ dir, s.Takes t (.tslide dir fill td ta n) → s.ShowsTile t (.tslide dir fill td ta n) td er ec
        (fun r c => w (slideEl dir n.toNat er ec a.el (fun r c => if fill = none then 0 else b.el r c) r c)) := fun dir h => by
      rw [← hz]
      refine h.tslide_shows hd hlive ha has (fun y hy => ?_)
      obtain rfl | rfl := hfill
      · exact nomatch hy
      · cases hy
        exact ⟨b, hb, hbs⟩
    simp only [slideEl_eq] at hslide
    exact ⟨hslide 0, hslide 1, hslide 2, hslide 3⟩
  case mx =>
    obtain ⟨halike, hfits, s', u, hexec, hteam, htile⟩ := h.tmov_puts hd hlive ha has (by rw [hlay]; decide)
    refine ⟨s', u, _, hexec, hteam, htile, d.shows_write _ hfits (fun _ _ _ => mem_map_coords) a.el_lt, fun r k _ hk => ?_⟩
    rw [if_pos (a.geo.mx_iff.mpr (halike.2.2.2.symm.trans hlay))]
    exact d.sc_write _ (by unfold Geo.segs; omega) (fun _ _ _ => mem_map_coords) hk
  case packed =>
    obtain ⟨halike, s', u, hexec, hteam, htile⟩ := h.tmov_packed_puts hd ha has hlay
    refine ⟨s', u, _, hexec, hteam, htile, rfl, rfl, rfl, rfl, fun j hj => ?_⟩
    rw [d.packedFrom_data a hj, ← halike.2.2.1]

end Sys2Proof.Machine
end

/-!
O40: the rows of a copy, and the steps of the block sequencer.
-/

section
namespace Sys2Proof.Machine

/-! ### The runs of a copy row (R161, R216) -/

section
variable {x : TIn} {c : Copy} {sites : List CopySite}

theorem elChk_scale_nil {s : State} {t : Team} {d : Shape} {acc : Access} {path : Path} {idx : List Nat} {first : Bool}
    {p : Site × List Nat} (hlay : d.layout ≠ 2) (h : elChk s t d acc path idx first = .ok p) : p.2 = [] := by
  obtain ⟨y, -, h⟩ := exists_of_bind_eq_ok h
  rw [decide_eq_false hlay, Bool.false_and, if_neg Bool.false_ne_true] at h
  cases h
  rfl

theorem eq_ok_of_atCopy {α : Type} {d : Shape} {h : Handle} {idx : List Nat} {y : Chk α} {v : α}
    (hok : atCopy d h idx y = .ok v) : y = .ok v := by
  unfold atCopy at hok
  split at hok <;> exact eq_ok_of_mapFault hok

theorem mem_of_allChk {α : Type} {l : List (Chk α)} {ys : List α} (h : allChk l = .ok ys) {y : α} (hy : y ∈ ys) : .ok y ∈ l :=
  allChk_eq_ok.mp h ▸ List.mem_map_of_mem hy

/-- Of a record that is no MX record no element has a scale byte. -/
theorem copySites_srcScale {n : Nat} (hlay : c.src.layout ≠ 2) (h : allChk (copySites x c n) = .ok sites) :
    ∀ y ∈ sites, y.srcScale = [] := by
  intro y hy
  obtain ⟨l, -, h⟩ := List.mem_map.mp (mem_of_allChk h hy)
  obtain ⟨⟨z, ks⟩, hsrc, h⟩ := exists_of_bind_eq_ok h
  have hks : ks = [] := by
    obtain ⟨p, hp, hsrc⟩ := exists_of_bind_eq_ok (eq_ok_of_atCopy hsrc)
    obtain ⟨_, -, hsrc⟩ := exists_of_bind_eq_ok hsrc
    obtain ⟨_, -, hsrc⟩ := exists_of_bind_eq_ok hsrc
    cases hsrc
    exact elChk_scale_nil hlay hp
  simp only at h
  split at h
  · cases h
    exact hks
  · obtain ⟨_, -, h⟩ := exists_of_bind_eq_ok h
    obtain ⟨_, -, h⟩ := exists_of_bind_eq_ok h
    cases h
    exact hks

theorem copyRuns_single {α : Type} {same : α → α → Bool} {l : List α} (h : ∀ y ∈ l, ∀ z, same y z = false) :
    copyRuns same l = l.map (fun y => [y]) := by
  induction l with
  | nil => rfl
  | cons y l ih =>
    rw [copyRuns, ih (fun z hz => h z (List.mem_cons_of_mem _ hz)), List.map_cons]
    cases l with
    | nil => rfl
    | cons z l => exact if_neg (by simp [h y List.mem_cons_self z])

/-- Whether two elements are read in one access with their segment's scale (R216). -/
def CopySite.sameSeg (y z : CopySite) : Bool := !y.srcScale.isEmpty && y.srcScale == z.srcScale

/-- What a copy writes of what it has read: a trit code 0b10 as 0 (R12). -/
def copyFix (c : Copy) (es : List (CopySite × Nat × Byte)) : List (CopySite × Nat × Byte) :=
  es.map (fun y => (y.1, tritFix c.src.etype y.2.1, y.2.2))

/-- The state once a copy has read the elements of its row. -/
def copyAfter (x : TIn) (c : Copy) (p : List (CopySite × Nat × Byte) × State) : State :=
  p.2.tritRead x.t.uid c.src.etype (p.1.map (fun y => y.2.1))

/-- A row of a copy that need not wait, of a record that is not bitmap-sparse: what it reads goes to its stream or to memory. -/
theorem copyRow_eq (hroom : c.q.any (fun q => !x.t.streamRoom q) = false) (hlay : c.src.layout ≠ 3)
    (hok : allChk (copySites x c ((copyCount c.src c.srcWord).getD 0)) = .ok sites) :
    copyRow x c =
      (let p := copyRead x.t.uid (copyRuns CopySite.sameSeg sites) x.s
       .ok (match c.q with
        | some q => (copyAfter x c p).modTeam x.t.uid (fun u =>
            u.appendLine q ((copyFix c p.1).map (fun y => BitVec.ofNat 64 y.2.1)))
        | none => if c.src.layout = 2 then writeSegs .copy x.t.uid (copySegs (copyFix c p.1)) (copyAfter x c p)
            else writeEls .copy x.t.uid ((copyFix c p.1).map (fun y => (y.1.dst, y.2.1))) (copyAfter x c p))) := by
  simp only [copyRow, hroom, Bool.false_eq_true, if_false, hlay, hok]
  cases c.q with
  | some q => rfl
  | none =>
    by_cases h2 : c.src.layout = 2
    · simp only [h2, if_true] <;> rfl
    · simp only [h2, if_false] <;> rfl

end

theorem Team.streamRoom_of {u : Team} {q : QReg} {st : Stream} (h : u.q.get q.toFin = some st) :
    u.streamRoom q = decide (st.lines.length < u.streamLines st) := by
  rw [Team.streamRoom, h]

/-- Table 5.1: a stream whose 8 lines take no more than 4 KiB holds 64 of them. -/
theorem streamCap_of_le {g : Geo} (h : 8 * ((g.cols * ebits g.etype + 7) / 8) ≤ 4096) : streamCap g = 64 := by
  rw [streamCap]
  generalize (g.cols * ebits g.etype + 7) / 8 = n at h
  refine min_eq_left ((Nat.le_div_iff_mul_le (by omega)).mpr ?_)
  omega

/-! ### The sequencer's steps -/

theorem exec_tiqAccept (gid : Gid) (s : State) : exec (.tiqAccept gid) s = execTiqAccept gid s := rfl
theorem exec_microOperationIssue (gid : Gid) (s : State) :
    exec (.microOperationIssue gid) s = execMicroOperationIssue gid s := rfl
theorem exec_tileInstructionCompletion (gid : Gid) (s : State) :
    exec (.tileInstructionCompletion gid) s = execTileInstructionCompletion gid s := rfl
theorem exec_copyRow (gid : Gid) (s : State) : exec (.copyRow gid) s = execCopyRow gid s := rfl
theorem exec_copyCompletion (gid : Gid) (s : State) : exec (.copyCompletion gid) s = execCopyCompletion gid s := rfl

section
variable {s s1 : State} {t : Team} {e : TileEntry} {es : List TileEntry}

/-- What acceptance works on (R147). -/
def State.atHead (s : State) (t : Team) (e : TileEntry) : TIn :=
  ⟨s.putTeam t.forTile, t.forTile, e.cap, s.recsAt t e, t.xrow.toNat, none, none, false, false⟩

/-- The entry as acceptance leaves it, its lane function apart. -/
def State.takenAs (s : State) (t : Team) (e : TileEntry) : TileEntry :=
  { e with
    accepted := true, recs := s.recsAt t e, region := tileRegion e.instr (s.atHead t e), holds := tileHolds e.instr (s.atHead t e),
    xrow := t.xrow.toNat }

/-- The team with `y` as the head of its TIQ, accepted as `e` (R190). -/
def Team.withHead (t : Team) (e : TileEntry) (es : List TileEntry) (y : TileEntry) : Team :=
  { t with tiq := y :: es, tileWalk := none, xrow := if capturesXrow e.instr e.cap then 0 else t.xrow }

/-- R149, R161: an entry that takes fresh slots finds them in the share, a copy fewer than 16 accepted ones. -/
theorem Team.roomFor_iff (t : Team) (y : TileEntry) : t.roomFor y = true ↔
    (y.slotNames.1 = [] ∨ t.slotsUsed (t.tiq.filter (fun y => y.accepted) ++ [y]) ≤ slotShare t.part) ∧
      (isCopy y.instr = true → ((t.tiq.filter (fun y => y.accepted)).filter (fun y => isCopy y.instr)).length < 16) := by
  rw [Team.roomFor, Bool.and_eq_true, Bool.or_eq_true, List.isEmpty_iff, decide_eq_true_iff, Bool.or_eq_true, Bool.not_eq_true',
    decide_eq_true_iff]
  refine and_congr Iff.rfl ?_
  cases isCopy y.instr <;> simp [Team.taken]

/-- R147: an entry whose checks pass is accepted once there is room for it, with its lane function read (R81). -/
theorem State.acceptEntry_eq (hok : tileAccept e.instr (s.atHead t e) = .ok ()) : s.acceptEntry t e =
    if t.roomFor (s.takenAs t e) then
      match tileCode e.instr (s.atHead t e) with
      | none => .ok (s.takenAs t e, s)
      | some (.ok (code, s')) => .ok ({ s.takenAs t e with code := some code }, s'.putTeam t)
      | some (.error x) => .error x
    else .error .stall := by
  rw [State.acceptEntry]
  change (tileAccept e.instr (s.atHead t e) >>= _) = _
  rw [hok]
  by_cases hroom : t.roomFor (s.takenAs t e) = true
  · rw [if_pos hroom]
    exact (if_pos hroom).trans rfl
  · rw [if_neg hroom]
    exact (if_neg hroom).trans rfl

theorem State.acceptHead_eq (hat : s.team? t.uid = some t) (hq : t.tiq = e :: es) (ha : e.accepted = false) (hb : t.sbuf = []) :
    s.acceptHead t.uid = match s.acceptEntry t e with
      | .error (.fault f) => s.takeFault t.uid (e.held f)
      | .error .walk => s.startTileWalk t.uid
      | .error .stall => s
      | .ok (e', s') => s'.putTeam (t.withHead e es e') := by
  simp only [State.acceptHead, hat, hq, ha, State.acceptSeeing_quiet hb, Team.modHead] <;> rfl

/-- R151, R189: the accepted head of the TIQ, no copy and with no store held, runs. -/
theorem State.issueHead_eq (hat : s.team? t.uid = some t) (hq : t.tiq = e :: es) (ha : e.accepted = true) (hn : e.issued = false)
    (hc : isCopy e.instr = false) (hb : t.sbuf = []) : s.issueHead t.uid true =
      match tileRun e.instr e.seq (e.tin (s.putTeam (t.forTile.asOf e)) (t.forTile.asOf e) true) with
      | .done s' => (s'.modTeam t.uid (fun u =>
          (u.inOrder e t).modHead (fun e => { e with issued := true }))).backToFront t.uid t.wait
      | .fail s' f =>
        if leavesPart e.instr then (s'.backToFront t.uid t.wait).takeFault t.uid (e.held f) else s.takeFault t.uid (e.held f)
      | .walk => s.startTileWalk t.uid
      | .stall s' => (s'.modTeam t.uid (fun u => u.namesBack e t)).backToFront t.uid t.wait
      | .part s' row => (s'.modTeam t.uid (fun u =>
          (u.namesBack e t).modHead (fun e => { e with begun := true, xrow := row }))).backToFront t.uid t.wait := by
  have hsame : t.SameTileSide (t.forTile.asOf e) := by
    unfold Team.asOf
    split <;> exact ⟨rfl, rfl, rfl, rfl, rfl, rfl, rfl⟩
  have hstage : (s.putTeam (t.forTile.asOf e)).Only t.uid (t.forTile.asOf e) := by
    rw [State.putTeam_eq_fill, hsame.uid]
    exact State.only_fill _ hsame.uid hat
  have hready := State.performStores_none (e.seq + 1) hstage (hsame.sbuf.trans hb)
  simp only [State.issueHead, hat, hq, ha, hn, hready, ite_self, hstage.1, hc, Bool.not_true, Bool.or_self, Bool.false_eq_true,
    if_false] <;> rfl

theorem Team.leave_uid (u : Team) (es : List TileEntry) : (u.leave es).uid = u.uid := by
  unfold Team.leave Team.keepYounger
  split <;> rfl

/-- The team once the head of its TIQ has left, if its work is done (R111). -/
def Team.headLeft (v : Team) : Team :=
  match v.tiq with
  | [] => v
  | e :: es => if e.issued && v.copyDone then (v.leave es).commit else v

theorem State.leaveHead_eq (s : State) (uid : Nat) : s.leaveHead uid = s.modTeam uid Team.headLeft := rfl

theorem Team.headLeft_uid (v : Team) : v.headLeft.uid = v.uid := by
  unfold Team.headLeft
  split
  · rfl
  · split
    · exact (Team.sameFront_commit _).uid.trans (v.leave_uid _)
    · rfl

theorem Team.headLeft_done (hq : t.tiq = e :: es) (hi : e.issued = true) (hd : t.copyDone = true) :
    t.headLeft = (t.leave es).commit := by
  simp only [Team.headLeft, hq, hi, hd, Bool.and_self, if_true]

/-- A change of one team's name, then another team put in its place. -/
theorem State.modTeam_putTeam (s : State) {f : Team → Team} (hf : ∀ v, (f v).uid = v.uid) (w : Team) :
    (s.modTeam w.uid f).putTeam w = s.putTeam w := by
  simp only [State.modTeam, State.putTeam, List.map_map]
  congr 1
  refine List.map_congr_left (fun v _ => ?_)
  by_cases hv : v.uid = w.uid <;> simp [hv, hf]

theorem State.team?_modTeam_of_ne (s : State) {f : Team → Team} (hf : ∀ v, (f v).uid = v.uid) {n uid : Nat} (h : n ≠ uid) :
    (s.modTeam uid f).team? n = s.team? n := by
  have hname : ((fun v : Team => v.uid == n) ∘ fun v => if v.uid == uid then f v else v) = fun v => v.uid == n := by
    funext v
    by_cases hv : v.uid = uid <;> simp [hv, hf]
  rw [State.team?, State.modTeam, List.find?_map, hname, ← State.team?]
  cases hfound : s.team? n with
  | none => rfl
  | some v => exact congrArg some (if_neg (by simpa [State.team?_uid hfound] using h))

/-- R111, R115: where the head of the TIQ leaves nothing that is held or uncommitted, completion is its leaving. -/
theorem State.completeHead_quiet {v : Team} (hat : s.team? t.uid = some t) (hv : t.headLeft = v) (hb : v.sbuf = [])
    (hh : v.hist = []) (hl : v.late = []) (hf : v.heldFault = none) : s.completeHead t.uid = s.putTeam v := by
  have huid : v.uid = t.uid := hv ▸ t.headLeft_uid
  have hteam : (s.modTeam t.uid Team.headLeft).team? t.uid = some v :=
    hv ▸ State.team?_modTeam _ Team.headLeft_uid hat
  have honly : (s.putTeam v).Only t.uid v := by
    rw [State.putTeam_eq_fill, huid]
    exact State.only_fill v huid hat
  have hput : (s.modTeam t.uid Team.headLeft).putTeam v = s.putTeam v := huid ▸ s.modTeam_putTeam Team.headLeft_uid v
  have hsame : ({ v with sbuf := [] } : Team) = v := by rw [← hb]
  have hperform : (s.modTeam t.uid Team.headLeft).performStores t.uid v.safeSeq = s.putTeam v := by
    simp only [State.performStores, hteam, hb, List.filter_nil, performHeld, hsame, hput]
  rw [State.completeHead, State.leaveHead_eq, State.settle, hteam]
  simp only [hperform]
  rw [State.modTeam_of_only honly, Team.commit_quiet hh hl, State.fill_self honly]
  simp only [State.takeHeld, honly.1, hf]

end

section
variable {s s1 : State} {t : Team} {i : Instr} {c : Copy}

theorem Team.claimLines_uid (u : Team) (c : Copy) : (u.claimLines c).uid = u.uid := by
  unfold Team.claimLines
  split
  · split <;> rfl
  · rfl

theorem Team.modHead_uid (u : Team) (f : TileEntry → TileEntry) : (u.modHead f).uid = u.uid := by
  unfold Team.modHead
  split <;> rfl

theorem Team.copying_uid (u : Team) (e : TileEntry) (c : Copy) : (u.copying e c).uid = u.uid :=
  (Team.modHead_uid _ _).trans (Team.claimLines_uid _ _)

/-- R161, R164: a taken copy begins at its captured row and moves its rows. -/
theorem State.Takes.exec_copy (h : s.Takes t i) (hi : i.isTileSide = true) (hc : isCopy i = true) (hp : leavesPart i = true)
    (hcode : tileCode i (s.atAccept t i) = none) (hbegin : copyBegin (s.atRun t i) (s.entryAt t i) = .ok c) :
    exec i s = .next ((stepCopies t.uid (c.rows - c.row) (s.putTeam (t.copying (s.entryAt t i) c))).completeHead t.uid) := by
  have hstage : (s.atRun t i).t.forTile.asOf (s.entryAt t i) = (s.atRun t i).t := Team.forTile_of h.quiet.walk rfl
  have hput : (s.atRun t i).s.putTeam (s.atRun t i).t = (s.atRun t i).s := State.putTeam_putTeam _ _ _ rfl
  have htiq : (s.atRun t i).t.tiq = [s.entryAt t i] := rfl
  have hfresh : (!(s.entryAt t i).accepted || (s.entryAt t i).issued) = false := rfl
  have hinstr : (s.entryAt t i).instr = i := rfl
  have htin : (s.entryAt t i).tin (s.atRun t i).s (s.atRun t i).t false = s.atRun t i := rfl
  have hstate : (s.atRun t i).s = s.putTeam (t.entered (s.entryAt t i)) := by
    have hread : (s.codeAt t i).2 = s.putTeam (t.place i) := by rw [State.codeAt, hcode]
    rw [show (s.atRun t i).s = (s.codeAt t i).2.putTeam (t.entered (s.entryAt t i)) from rfl, hread]
    exact State.putTeam_putTeam _ _ _ rfl
  have hissue : (s.atRun t i).s.issueHead t.uid false = s.putTeam (t.copying (s.entryAt t i) c) := by
    simp only [State.issueHead, h.only_atRun.1, htiq, hfresh, hstage, hput, hinstr, hp, hc, htin, hbegin,
      Bool.false_eq_true, if_true, if_false]
    rw [hstate]
    exact State.putTeam_putTeam _ _ _ (t.copying_uid (s.entryAt t i) c).symm
  have hleft : (s.putTeam (t.copying (s.entryAt t i) c)).copyLeft t.uid = c.rows - c.row := by
    rw [State.copyLeft, State.team?_putTeam_of h.team (t.copying_uid _ _)]
    rfl
  rw [State.exec_takes_issued h hi, hissue, hleft]

end

/-- Settles O40: the copies by `State.Takes.exec_copy`, rows by `copyRow_eq`, the sequencer's steps by their equations above. -/
theorem sequencerSteps : Obligations.SequencerSteps := by
  unfold Obligations.SequencerSteps
  intro s s1 t tag q h sd ss c cs e es x sites row code copies read one segs fix after acc taken before roomy head
  refine ⟨fun htakes hstart => ?tcopy, fun htakes hstart => ?tcopyStr, fun hlay hok => ⟨fun h2 hq => ?dense, fun h2 hq => ?mx,
    fun st h2 hq hst hfree => ?line⟩, fun st hq hst hfull => ?stall, fun u st d hd hle => ?lines, fun hat hq hcs hrow hok => ?row,
    fun hat hq hi hcs hrow hb hh hl hf => ?done, fun hat hq ha hb hok => ?accept,
    fun hat hq ha hn hc hb => ⟨fun hrun => ?whole, fun hrun => ?part⟩, fun hat hq hi hd => ?leaves⟩
  case tcopy =>
    refine htakes.exec_copy rfl rfl rfl (ite_self _) ?_
    rw [← htakes.seq_entryAt, ← htakes.atRun_rs sd, ← htakes.atRun_rs ss] at hstart
    exact hstart
  case tcopyStr =>
    refine htakes.exec_copy rfl rfl rfl (ite_self _) ?_
    rw [← htakes.seq_entryAt, ← htakes.atRun_rs ss] at hstart
    exact hstart
  case dense =>
    have hruns := copyRuns_single (same := CopySite.sameSeg) (l := sites) (fun y hy z => by
      simp [CopySite.sameSeg, copySites_srcScale h2 hok y hy])
    rw [copyRow_eq (by simp [hq]) hlay hok, hruns]
    simp only [hq, if_neg h2]
    rfl
  case mx =>
    rw [copyRow_eq (by simp [hq]) hlay hok]
    simp only [hq, if_pos h2]
    rfl
  case line =>
    have hruns := copyRuns_single (same := CopySite.sameSeg) (l := sites) (fun y hy z => by
      simp [CopySite.sameSeg, copySites_srcScale h2 hok y hy])
    rw [copyRow_eq (by simp [hq, Team.streamRoom_of hst, hfree]) hlay hok, hruns]
    simp only [hq]
    rfl
  case stall =>
    rw [copyRow, if_pos (by simpa [hq, Team.streamRoom_of hst] using hfull)]
  case lines =>
    rw [Team.streamLines, hd]
    exact streamCap_of_le hle
  case row =>
    rw [exec_copyRow, execCopyRow, State.atTeam_at hat]
    simp only [State.stepCopy, hat.2, hq, hcs, if_neg (Nat.not_le.mpr hrow), hok]
  case done =>
    have hleft : t.headLeft = t.leave [] := by
      rw [Team.headLeft_done hq hi (by simpa [Team.copyDone, hcs] using hrow), Team.commit_quiet (by rw [Team.leave_nil]; exact hh)
        (by rw [Team.leave_nil]; exact hl)]
    rw [Team.leave_nil] at hleft
    have hcopies : s.copyLeft t.uid = 0 := by
      simp only [State.copyLeft, hat.2, hcs]
      exact Nat.sub_eq_zero_of_le hrow
    rw [exec_copyCompletion, execCopyCompletion, State.atTeam_at hat, if_neg (by simp [hcs]), hcopies, stepCopies,
      State.completeHead_quiet hat.2 hleft hb hh hl hf]
  case accept =>
    have hroom : t.roomFor (s.takenAs t e) = true ↔ roomy := t.roomFor_iff _
    have hexec := (exec_tiqAccept t.gid s).trans ((State.atTeam_at hat _).trans
      (congrArg Host.Outcome.next (State.acceptHead_eq hat.2 hq ha hb)))
    rw [State.acceptEntry_eq hok] at hexec
    refine ⟨fun hr hcode => ?_, fun hr hcode => ?_, fun hr => ?_⟩
    · rw [if_pos (hroom.mpr hr), show tileCode e.instr (s.atHead t e) = none from hcode] at hexec
      exact hexec
    · rw [if_pos (hroom.mpr hr), show tileCode e.instr (s.atHead t e) = some (.ok (code, s1)) from hcode] at hexec
      exact hexec
    · rw [if_neg (fun hn => hr (hroom.mp hn))] at hexec
      exact hexec
  case whole =>
    rw [exec_microOperationIssue, execMicroOperationIssue, State.atTeam_at hat, State.issueHead_eq hat.2 hq ha hn hc hb, hrun]
  case part =>
    rw [exec_microOperationIssue, execMicroOperationIssue, State.atTeam_at hat, State.issueHead_eq hat.2 hq ha hn hc hb, hrun]
  case leaves =>
    refine ⟨s.leaveHead t.uid, ?_, ?_, ?_, rfl, rfl⟩
    · rw [exec_tileInstructionCompletion, execTileInstructionCompletion, State.atTeam_at hat]
    · rw [State.leaveHead_eq, State.team?_modTeam _ Team.headLeft_uid hat.2, Team.headLeft_done hq hi hd]
    · exact fun v hv => State.team?_modTeam_of_ne s Team.headLeft_uid hv

end Sys2Proof.Machine
end
